-- ==== Sys2Proof/Word.lean ====
section
/-! DEFINITION. Sys2Proof/Word.lean: the word types of the machine (R8, R81) and nothing else. -/
namespace Sys2Proof

/-- A register, a token payload, a constant: 32 bits (R41, R81). -/
abbrev Word := BitVec 32

/-- One byte. -/
abbrev Byte := BitVec 8

/-- One 16-bit field of a configuration plane (R65). -/
abbrev Half := BitVec 16

/-- A 64-bit value: an operator word (R173), a Pilot register. -/
abbrev DWord := BitVec 64

/-- `bits(v, hi, lo)` of R13 on a natural number. -/
def bitsN (v hi lo : Nat) : Nat := (v / 2 ^ lo) % 2 ^ (hi + 1 - lo)

end Sys2Proof
end

