-- ==== Sys2Proof/Machine/Num.lean ====
section
/-! DEFINITION. Sys2Proof/Machine/Num.lean: number formats and the one rounding function (04_numbers.md R81 to R104).
A value is exact (a signed rational, an infinity or NaN) until `roundTo` fits it to a lane format. -/
namespace Sys2Proof.Machine

/-- The exception flags of one event, in the bit order of `FPSTAT` (R92): IS 5, NV 4, DZ 3, OF 2, UF 1, NX 0. -/
abbrev Flags := BitVec 6

def flagNone : Flags := 0
def flagNX : Flags := 1
def flagUF : Flags := 2
def flagOF : Flags := 4
def flagDZ : Flags := 8
def flagNV : Flags := 16
def flagIS : Flags := 32

/-- Rounding modes (R87). -/
inductive Rm | rne | rtz | rdn | rup
  deriving DecidableEq, Repr

/-- MOD[1:0] as a rounding mode (R174). -/
def rmOf (n : Nat) : Rm :=
  match n % 4 with
  | 0 => .rne
  | 1 => .rtz
  | 2 => .rdn
  | _ => .rup

/-- A floating-point lane format (R84): `w` bits, `f` fraction bits, bias, the pattern of the largest finite
magnitude, the pattern of the canonical NaN, and whether infinities exist. -/
structure Fmt where
  w : Nat
  f : Nat
  bias : Nat
  maxfin : Nat
  cnan : Nat
  hasInf : Bool
  hasSnan : Bool
  deriving DecidableEq, Repr

def fmtF32 : Fmt := ⟨32, 23, 127, 0x7F7FFFFF, 0x7FC00000, true, true⟩
def fmtF16 : Fmt := ⟨16, 10, 15, 0x7BFF, 0x7E00, true, true⟩
def fmtBf16 : Fmt := ⟨16, 7, 127, 0x7F7F, 0x7FC0, true, true⟩
def fmtE4m3 : Fmt := ⟨8, 3, 7, 0x7E, 0x7F, false, false⟩
def fmtE5m2 : Fmt := ⟨8, 2, 15, 0x7B, 0x7E, true, false⟩

/-- An exact value: NaN, a signed infinity, or (-1)^neg * num / den with den positive. -/
inductive Ex
  | nan
  | inf (neg : Bool)
  | fin (neg : Bool) (num den : Nat)
  deriving DecidableEq, Repr

def Ex.isNan : Ex → Bool
  | .nan => true
  | _ => false

def Ex.isInf : Ex → Bool
  | .inf _ => true
  | _ => false

def Ex.isZero : Ex → Bool
  | .fin _ n _ => n == 0
  | _ => false

def Ex.sign : Ex → Bool
  | .nan => false
  | .inf b => b
  | .fin b _ _ => b

def Ex.zero : Ex := .fin false 0 1

def Ex.ofInt (v : Int) : Ex := .fin (decide (v < 0)) v.natAbs 1

def Ex.neg : Ex → Ex
  | .nan => .nan
  | .inf b => .inf (!b)
  | .fin b n d => .fin (!b) n d

def Ex.abs : Ex → Ex
  | .nan => .nan
  | .inf _ => .inf false
  | .fin _ n d => .fin false n d

/-- Exact finite value as a signed numerator over its denominator. -/
def Ex.signedNum : Ex → Int
  | .fin true n _ => - (n : Int)
  | .fin false n _ => (n : Int)
  | _ => 0

/-- Exponent field, fraction field and sign of a pattern. -/
def Fmt.expo (t : Fmt) (p : Nat) : Nat := bitsN p (t.w - 2) t.f
def Fmt.frac (t : Fmt) (p : Nat) : Nat := p % 2 ^ t.f
def Fmt.sgn (t : Fmt) (p : Nat) : Bool := p / 2 ^ (t.w - 1) % 2 == 1
def Fmt.emaxField (t : Fmt) : Nat := 2 ^ (t.w - 1 - t.f) - 1

def Fmt.isNan (t : Fmt) (p : Nat) : Bool :=
  if t.hasInf then t.expo p == t.emaxField && t.frac p != 0
  else p % 2 ^ (t.w - 1) == t.cnan

def Fmt.isInf (t : Fmt) (p : Nat) : Bool :=
  t.hasInf && t.expo p == t.emaxField && t.frac p == 0

/-- A signalling NaN (R86): most significant fraction bit 0, in the formats that have them. -/
def Fmt.isSnan (t : Fmt) (p : Nat) : Bool :=
  t.hasSnan && t.isNan p && t.frac p / 2 ^ (t.f - 1) == 0

/-- The exact value of a pattern (`fval`, R85). -/
def fval (t : Fmt) (p : Nat) : Ex :=
  if t.isNan p then .nan
  else if t.isInf p then .inf (t.sgn p)
  else
    let e := t.expo p
    let m := if e == 0 then t.frac p else 2 ^ t.f + t.frac p
    let e1 := if e == 0 then 1 else e
    if e1 ≥ t.bias + t.f then .fin (t.sgn p) (m * 2 ^ (e1 - t.bias - t.f)) 1
    else .fin (t.sgn p) m (2 ^ (t.bias + t.f - e1))

/-- NV for a signalling operand (R87). -/
def snanFlag (t : Fmt) (p : Nat) : Flags := if t.isSnan p then flagNV else flagNone

/-- `rint` of R88 on the magnitude num/den of a value of sign `neg`. -/
def rintMag (neg : Bool) (num den : Nat) (m : Rm) : Nat :=
  let q := num / den
  let r := num % den
  if r == 0 then q else
  match m with
  | .rtz => q
  | .rdn => if neg then q + 1 else q
  | .rup => if neg then q else q + 1
  | .rne => if 2 * r < den then q else if 2 * r > den then q + 1 else if q % 2 == 0 then q else q + 1

/-- floor(log2(num/den)) for num > 0, as an integer. -/
def log2Ratio (num den : Nat) : Int :=
  let k : Int := (Nat.log2 num : Int) - (Nat.log2 den : Int)
  let ge := if k ≥ 0 then decide (num ≥ den * 2 ^ k.toNat) else decide (num * 2 ^ (-k).toNat ≥ den)
  if ge then k else k - 1

/-- num/den divided by 2^e, as a fraction. -/
def scaleDown (num den : Nat) (e : Int) : Nat × Nat :=
  if e ≥ 0 then (num, den * 2 ^ e.toNat) else (num * 2 ^ (-e).toNat, den)

/-- The bit of a sign in a lane of the format. -/
def Fmt.signBit (t : Fmt) (neg : Bool) : Nat := if neg then 2 ^ (t.w - 1) else 0

/-- Overflow (`ovf`, R89). -/
def ovfTo (t : Fmt) (neg : Bool) (m : Rm) (sat : Bool) : Nat :=
  if sat then t.signBit neg + t.maxfin else
  let toInf := match m with
    | .rne => true
    | .rtz => false
    | .rdn => neg
    | .rup => !neg
  if toInf then (if t.hasInf then t.signBit neg + t.emaxField * 2 ^ t.f else t.cnan)
  else t.signBit neg + t.maxfin

/-- `round(x, fmt, mode, sat)` of R88: the pattern and the flags it raises. -/
def roundTo (t : Fmt) (m : Rm) (sat : Bool) : Ex → Nat × Flags
  | .nan => (t.cnan, flagNone)
  | .inf neg =>
    if sat then (t.signBit neg + t.maxfin, flagNone)
    else if t.hasInf then (t.signBit neg + t.emaxField * 2 ^ t.f, flagNone)
    else (t.cnan, flagNV)
  | .fin neg num den =>
    if num == 0 then (t.signBit neg, flagNone) else
    let emin : Int := 1 - (t.bias : Int)
    let e0 := log2Ratio num den
    let e := if e0 < emin then emin else e0
    let (n1, d1) := scaleDown num den (e - (t.f : Int))
    let q := rintMag neg n1 d1 m
    let mag := (e - emin).toNat * 2 ^ t.f + q
    if mag > t.maxfin then (ovfTo t neg m sat, flagOF ||| flagNX)
    else if n1 % d1 == 0 then (t.signBit neg + mag, flagNone)
    else
      let (n0, d0) := scaleDown num den (e0 - (t.f : Int))
      let q0 := rintMag neg n0 d0 m
      -- q0 * 2^(e0 - f) < 2^emin
      let tiny := decide (e0 < emin) &&
        decide (q0 < 2 ^ (emin - e0 + (t.f : Int)).toNat)
      (t.signBit neg + mag, if tiny then flagNX ||| flagUF else flagNX)

/-- Exact sum with the zero rule of R90 and the invalid case of R87. -/
def Ex.add (m : Rm) : Ex → Ex → Ex × Flags
  | .nan, _ => (.nan, flagNone)
  | _, .nan => (.nan, flagNone)
  | .inf a, .inf b => if a == b then (.inf a, flagNone) else (.nan, flagNV)
  | .inf a, .fin _ _ _ => (.inf a, flagNone)
  | .fin _ _ _, .inf b => (.inf b, flagNone)
  | .fin a n d, .fin b k e =>
    if n == 0 && k == 0 && a == b then (.fin a 0 1, flagNone) else
    let x : Int := (if a then -(n : Int) else n) * e + (if b then -(k : Int) else k) * d
    if x == 0 then (.fin (m == .rdn) 0 1, flagNone)
    else (.fin (decide (x < 0)) x.natAbs (d * e), flagNone)

/-- Exact product (R87, R90). -/
def Ex.mul : Ex → Ex → Ex × Flags
  | .nan, _ => (.nan, flagNone)
  | _, .nan => (.nan, flagNone)
  | .inf a, .inf b => (.inf (a != b), flagNone)
  | .inf a, .fin b n _ => if n == 0 then (.nan, flagNV) else (.inf (a != b), flagNone)
  | .fin a n _, .inf b => if n == 0 then (.nan, flagNV) else (.inf (a != b), flagNone)
  | .fin a n d, .fin b k e => (.fin (a != b) (n * k) (d * e), flagNone)

/-- Exact quotient (R87, R90). -/
def Ex.div : Ex → Ex → Ex × Flags
  | .nan, _ => (.nan, flagNone)
  | _, .nan => (.nan, flagNone)
  | .inf _, .inf _ => (.nan, flagNV)
  | .inf a, .fin b _ _ => (.inf (a != b), flagNone)
  | .fin a _ _, .inf b => (.fin (a != b) 0 1, flagNone)
  | .fin a n d, .fin b k e =>
    if k == 0 then (if n == 0 then (.nan, flagNV) else (.inf (a != b), flagDZ))
    else (.fin (a != b) (n * e) (d * k), flagNone)

/-- Integer square root, bit by bit from bit `b`. -/
def isqrtFrom (n : Nat) : Nat → Nat → Nat
  | 0, r => if (r + 1) * (r + 1) ≤ n then r + 1 else r
  | b + 1, r =>
    let r' := r + 2 ^ (b + 1)
    if r' * r' ≤ n then isqrtFrom n b r' else isqrtFrom n b r

/-- Square root for rounding: a value that rounds as the exact root does (a sticky half unit marks an inexact root). -/
def Ex.sqrt : Ex → Ex × Flags
  | .nan => (.nan, flagNone)
  | .inf true => (.nan, flagNV)
  | .inf false => (.inf false, flagNone)
  | .fin a n d =>
    if n == 0 then (.fin a 0 1, flagNone)
    else if a then (.nan, flagNV)
    else
      -- root of n/d to 2^-s, s chosen so that the root has at least 40 bits
      let k := log2Ratio n d
      let s : Nat := if k ≥ 80 then 0 else ((80 - k).toNat / 2) + 1
      let v := n * 2 ^ (2 * s) / d
      let ex := decide (n * 2 ^ (2 * s) % d = 0)
      let r := isqrtFrom v (Nat.log2 v / 2 + 1) 0
      if ex && r * r == v then (.fin false r (2 ^ s), flagNone)
      else (.fin false (2 * r + 1) (2 ^ (s + 1)), flagNone)

/-- Compares exact non-NaN values: negative, zero or positive (as -1, 0, 1). Zeros of either sign are equal. -/
def Ex.cmp : Ex → Ex → Int
  | .nan, _ => 0
  | _, .nan => 0
  | .inf a, .inf b => if a == b then 0 else if a then -1 else 1
  | .inf a, .fin _ _ _ => if a then -1 else 1
  | .fin _ _ _, .inf b => if b then 1 else -1
  | .fin a n d, .fin b k e =>
    let x : Int := (if a then -(n : Int) else n) * e - (if b then -(k : Int) else k) * d
    if x < 0 then -1 else if x > 0 then 1 else 0

/-- Bounds of an integer lane (R83). -/
def laneLo (w : Nat) (signed : Bool) : Int := if signed then -(2 ^ (w - 1) : Int) else 0
def laneHi (w : Nat) (signed : Bool) : Int := if signed then 2 ^ (w - 1) - 1 else 2 ^ w - 1

/-- `fitint` of R83: the lane's bits and the flags. -/
def fitint (v : Int) (w : Nat) (signed sat : Bool) : Nat × Flags :=
  if !sat then ((v % (2 ^ w : Int)).toNat, flagNone)
  else if v < laneLo w signed then (((laneLo w signed) % (2 ^ w : Int)).toNat, flagIS)
  else if v > laneHi w signed then ((laneHi w signed).toNat, flagIS)
  else ((v % (2 ^ w : Int)).toNat, flagNone)

/-- A lane read as an integer. -/
def laneInt (p w : Nat) (signed : Bool) : Int :=
  if signed && decide (p % 2 ^ w ≥ 2 ^ (w - 1)) then (p % 2 ^ w : Int) - 2 ^ w else (p % 2 ^ w : Nat)

/-- `toint` of R91: the integer and the flags. -/
def toint (x : Ex) (w : Nat) (signed : Bool) (m : Rm) : Int × Flags :=
  match x with
  | .nan => (0, flagNV)
  | .inf neg => (if neg then laneLo w signed else laneHi w signed, flagNV)
  | .fin neg num den =>
    let q := rintMag neg num den m
    let n : Int := if neg then -(q : Int) else q
    if n < laneLo w signed then (laneLo w signed, flagNV)
    else if n > laneHi w signed then (laneHi w signed, flagNV)
    else (n, if num % den == 0 then flagNone else flagNX)

/-- The magnitude table Q of R98, in 256ths. -/
def gq4Mag256 (k : Nat) : Nat :=
  match k % 8 with
  | 0 => 0
  | 1 => 22
  | 2 => 45
  | 3 => 70
  | 4 => 99
  | 5 => 134
  | 6 => 180
  | _ => 256

/-- The value of a GQ4 code (R98): code 0b1000 is +0. -/
def gq4Value (code : Nat) : Ex :=
  .fin (decide (code % 16 > 8)) (gq4Mag256 (code % 8)) 256

/-- `gq4_bscale` of R99 (raises no flag). -/
def gq4Bscale (s : Nat) (c : Nat) : Nat :=
  (roundTo fmtF32 .rne false (Ex.mul (fval fmtF32 s) (.fin false (c % 256) 255)).1).1

/-- `gq4_decode` of R99: only the second rounding raises flags. -/
def gq4Decode (code c s : Nat) : Nat × Flags :=
  let b := fval fmtF32 (gq4Bscale s c)
  let (x, fl) := Ex.mul (gq4Value code) b
  let (p, fr) := roundTo fmtF32 .rne false x
  (p, fl ||| fr)

/-- The index of the magnitude nearest to |x|/b, the even index on a tie (R100); `b` nonzero finite. -/
def gq4Nearest (ax b : Ex) : Nat :=
  match ax, b with
  | .fin _ n d, .fin _ bn bd =>
    -- distance to Q[k] * b scaled by 256 * d * bd
    let dist := fun k => (((256 * n * bd : Nat) : Int) - ((gq4Mag256 k * bn * d : Nat) : Int)).natAbs
    let step := fun best k =>
      if dist k < dist best then k
      else if dist k == dist best && k % 2 == 0 then k else best
    [1, 2, 3, 4, 5, 6, 7].foldl step 0
  | _, _ => 0

/-- The code of one element against its block scale (R100). -/
def gq4Code (x : Nat) (b : Nat) : Nat :=
  let bx := fval fmtF32 b
  let ex := fval fmtF32 x
  if ex.isNan || ex.isInf then 0
  else
    let k := if bx.isZero then 0 else gq4Nearest ex.abs bx
    if k != 0 && fmtF32.sgn x then 8 + k else k

/-- The larger of two exact magnitudes. -/
def Ex.maxMag (a b : Ex) : Ex := if Ex.cmp a.abs b.abs < 0 then b.abs else a.abs

/-- NaN and infinite inputs of an encoding are taken as +0 (R100). -/
def gq4Clean (x : Nat) : Nat := if fmtF32.isNan x || fmtF32.isInf x then 0 else x

/-- The pattern of the largest magnitude of a list of cleaned binary32 patterns. -/
def gq4Max (xs : List Nat) : Nat :=
  xs.foldl (fun m x => let a := gq4Clean x % 2 ^ 31; if m < a then a else m) 0

/-- The block scale code of R100: rint(255 * m / S). -/
def gq4BlockCode (m s : Nat) : Nat :=
  if s == 0 then 0
  else match Ex.div (fval fmtF32 m) (fval fmtF32 s) with
    | (.fin _ n d, _) => rintMag false (255 * n) d .rne % 256
    | _ => 0

/-- Cuts a list into pieces of `n`. -/
def chunks {α : Type} (n : Nat) : Nat → List α → List (List α)
  | 0, _ => []
  | f + 1, l => l.take n :: chunks n f (l.drop n)

/-- `gq4_encode` of R100: the codes, the block codes, S, and NV for a NaN or infinite input. -/
def gq4Encode (xs : List Nat) : List Nat × List Nat × Nat × Flags :=
  let s := gq4Max xs
  let blocks := chunks 64 256 xs
  let cs := blocks.map (fun b => gq4BlockCode (gq4Max b) s)
  let codes := (blocks.zip cs).map (fun bc => bc.1.map (fun x => gq4Code (gq4Clean x) (gq4Bscale s bc.2)))
  (codes.flatten, cs, s,
   if xs.any (fun x => fmtF32.isNan x || fmtF32.isInf x) then flagNV else flagNone)

end Sys2Proof.Machine
end

