-- ==== Sys2Proof/Syntax.lean ====
section
/-! DEFINITION. Sys2Proof/Syntax.lean: operand forms and fields of the instructions (08_operator_formats.md R173 to R182). -/
namespace Sys2Proof

/-- Operand types (R81). -/
inductive Ty
  | i32 | u32 | i16x2 | u16x2 | i8x4 | u8x4 | i4x8
  | f32 | bf16x2 | f16x2 | e4m3x4 | e5m2x4 | gq4x8 | raw32
  deriving DecidableEq, Repr

/-- A source selector (R175). -/
inductive Src
  | chan (n : Fin 32)     -- i0-i31, consumed
  | peek (n : Fin 32)     -- i0-i31, peeked
  | reg (n : Fin 16)      -- g0-g15
  | konst (n : Fin 32)    -- k0-k31
  | handle (n : Fin 32)   -- h0-h31, read at cursor
  | zero | one | imm | immHi
  | cellX | cellY | patchOrigin | stage | idLow | idHigh | iter | replica
  | none
  deriving DecidableEq, Repr

/-- A destination selector (R177). -/
inductive Dst
  | out (n : Fin 32)      -- o0-o31
  | reg (n : Fin 16)      -- g0-g15
  | handle (n : Fin 32)   -- h0-h31, write at cursor
  | none
  deriving DecidableEq, Repr

/-- The fields of an operator word beside its opcode (R173). -/
structure OpFields where
  ty : Ty
  mod : BitVec 4
  sa : Src
  sb : Src
  sc : Src
  dst : Dst
  imm : BitVec 16
  deriving DecidableEq, Repr

/-- Where an operator stands: a cell (package x + 128 * package y, R11) and a slot of its PE. -/
structure Site where
  cell : Fin 32768
  slot : Fin 16
  deriving DecidableEq, Repr

/-- A (port, VC) pair of a route entry (R181). Port numbers are those of R16. -/
structure PortVc where
  port : Fin 8
  vc : Fin 32
  deriving DecidableEq, Repr

/-- The fields of a route entry beside its router operator (R181). -/
structure RouteFields where
  a : PortVc
  p : PortVc
  x : PortVc
  y : PortVc
  arg : BitVec 12
  deriving DecidableEq, Repr

/-- Where a router operator stands: a cell and a route entry. -/
structure RouteSite where
  cell : Fin 32768
  entry : Fin 32
  deriving DecidableEq, Repr

/-- A configuration stream's source (R78). -/
inductive LoadSource
  | timetable | pilot | proctor
  deriving DecidableEq, Repr

/-- A time request of DOE object 0x84 (R340, R343). -/
inductive TimeRequest
  | set (ns : BitVec 64)
  | source (package : Fin 64)
  | query
  deriving DecidableEq, Repr

/-- The instructions of the machine: one constructor per row of the opcode table. An operator carries its site and the
fields of its word; a router operator its entry and fields; a configuration command its loader and fields; a Pilot
instruction its die and register fields; an event of the part the unit it concerns. An event from outside the part takes its
data from the state's `input` (these stand last, without fields: Lean runs no constructor with fields past the 245th). -/
inductive Instr
  | invalidationComplete (die : Nat)
  | tokenHop (cell : Nat) (port : Nat) (vc : Nat)
  | placementStep (die : Nat)
  | engineSuspend (command : Nat)
  | drainPointReached (inst : Nat)
  | planeFlip (inst : Nat)
  | swapTokenArrival (sector : Nat)
  | tokenCountTrigger (cell : Nat)
  | phaseAdvance (site : Site)
  | nodeComplete (node : Nat)
  | jobComplete (job : Nat)
  | patchClear (inst : Nat)
  | slateAllotmentReset (allotment : Nat)
  | timetableRecordArrival (request : Nat)
  | remoteRequest (request : Nat) (answer : BitVec 64)
  | hbmRequest (request : Nat)
  | pageWalk (request : Nat)
  | batchTranslation (command : Nat)
  | decoupledResultDelivery (request : Nat)
  | fenceComplete (request : Nat)
  | slewStep (sector : Nat)
  | matrixProductComplete (product : Nat)
  | copyCommandAccept (sector : Nat)
  | engineBarrierDecrement (command : Nat)
  | engineRingAdvance (command : Nat)
  | engineCompletion (command : Nat)
  | gatherOwnerRequest (command : Nat)
  | rowReturn (command : Nat) (answer : BitVec 16)
  | indexLaneToken (command : Nat) (lane : Nat)
  | grammarCommandStart (sector : Nat)
  | grammarCommandComplete (command : Nat)
  | grantRequest (request : Nat) (answer : BitVec 32)
  | sendDelivery (request : Nat)
  | activation (request : Nat)
  | snapshotComplete (request : Nat)
  | heldUpdateClose (pair : Nat)
  | mirrorUpdate (pair : Nat)
  | parkReserve (inst : Nat)
  | parkRequest (pair : Nat)
  | parkedUpdateWrite (pair : Nat)
  | unpark (pair : Nat)
  | gatingSequence (sector : Nat)
  | calibTimeout (sector : Nat)
  | ratioChange (sector : Nat)
  | ratioChangeComplete (sector : Nat)
  | replayExhausted (port : Nat)
  | responseTimeout (request : Nat)
  | faultRecordWrite (die : Nat)
  | faultQueueRetry (die : Nat)
  | holdLimitExpiry (die : Nat) (hid : Nat)
  | watchdogExpiry (inst : Nat)
  | drainLimitExpiry (inst : Nat)
  | reductionTimeout (site : RouteSite)
  | scrubPass (kind : Nat) (place : Nat) (address : Nat) (uncorrectable : Bool)
  | cfgNop (sector : Fin 64) (source : LoadSource) (value : BitVec 16)
  | cfgBegin (sector : Fin 64) (source : LoadSource) (value : BitVec 16)
  | cfgOrigin (sector : Fin 64) (source : LoadSource) (value : BitVec 16)
  | cfgBank (sector : Fin 64) (source : LoadSource) (value : BitVec 16)
  | cfgSeal (sector : Fin 64) (source : LoadSource) (value : BitVec 16)
  | cfgLit (sector : Fin 64) (source : LoadSource) (value : BitVec 16)
  | cfgSwap (sector : Fin 64) (source : LoadSource) (value : BitVec 16)
  | cfgWrite (sector : Fin 64) (source : LoadSource) (cell : BitVec 8) (field : BitVec 8) (value : BitVec 16)
  | xgQpop (die : Fin 4) (rd : BitVec 5) (rs1 : BitVec 5) (rs2 : BitVec 5)
  | xgQpeek (die : Fin 4) (rd : BitVec 5) (rs1 : BitVec 5) (rs2 : BitVec 5)
  | xgRpush (die : Fin 4) (rd : BitVec 5) (rs1 : BitVec 5) (rs2 : BitVec 5)
  | xgGsetRead (die : Fin 4) (rd : BitVec 5) (rs1 : BitVec 5) (rs2 : BitVec 5)
  | xgGsetSetexp (die : Fin 4) (rd : BitVec 5) (rs1 : BitVec 5) (rs2 : BitVec 5)
  | xgGsetSetbase (die : Fin 4) (rd : BitVec 5) (rs1 : BitVec 5) (rs2 : BitVec 5)
  | xgGsetOpen (die : Fin 4) (rd : BitVec 5) (rs1 : BitVec 5) (rs2 : BitVec 5)
  | xgGsetClose (die : Fin 4) (rd : BitVec 5) (rs1 : BitVec 5) (rs2 : BitVec 5)
  | xgTlnch (die : Fin 4) (rd : BitVec 5) (rs1 : BitVec 5) (rs2 : BitVec 5)
  | xgCfgw (die : Fin 4) (rd : BitVec 5) (rs1 : BitVec 5) (rs2 : BitVec 5)
  | xgWfe (die : Fin 4) (rd : BitVec 5) (rs1 : BitVec 5) (rs2 : BitVec 5)
  | xgWfeTimeout (die : Fin 4) (rd : BitVec 5) (rs1 : BitVec 5) (rs2 : BitVec 5)
  | xgEvsig (die : Fin 4) (rd : BitVec 5) (rs1 : BitVec 5) (rs2 : BitVec 5)
  | route (site : RouteSite) (f : RouteFields)
  | fork (site : RouteSite) (f : RouteFields)
  | steer (site : RouteSite) (f : RouteFields)
  | merge (site : RouteSite) (f : RouteFields)
  | carry (site : RouteSite) (f : RouteFields)
  | invar (site : RouteSite) (f : RouteFields)
  | join (site : RouteSite) (f : RouteFields)
  | drop (site : RouteSite) (f : RouteFields)
  | comb (site : RouteSite) (f : RouteFields)
  | part (site : RouteSite) (f : RouteFields)
  | add (site : Site) (f : OpFields)
  | sub (site : Site) (f : OpFields)
  | mul (site : Site) (f : OpFields)
  | mulh (site : Site) (f : OpFields)
  | mad (site : Site) (f : OpFields)
  | div (site : Site) (f : OpFields)
  | rem (site : Site) (f : OpFields)
  | min (site : Site) (f : OpFields)
  | max (site : Site) (f : OpFields)
  | abs (site : Site) (f : OpFields)
  | and (site : Site) (f : OpFields)
  | or (site : Site) (f : OpFields)
  | xor (site : Site) (f : OpFields)
  | andn (site : Site) (f : OpFields)
  | shl (site : Site) (f : OpFields)
  | shr (site : Site) (f : OpFields)
  | rot (site : Site) (f : OpFields)
  | clz (site : Site) (f : OpFields)
  | ffs (site : Site) (f : OpFields)
  | popc (site : Site) (f : OpFields)
  | brev (site : Site) (f : OpFields)
  | bfx (site : Site) (f : OpFields)
  | bfi (site : Site) (f : OpFields)
  | sel (site : Site) (f : OpFields)
  | cmp (site : Site) (f : OpFields)
  | avg (site : Site) (f : OpFields)
  | absd (site : Site) (f : OpFields)
  | sad (site : Site) (f : OpFields)
  | dot4 (site : Site) (f : OpFields)
  | addsh (site : Site) (f : OpFields)
  | move (site : Site) (f : OpFields)
  | pack (site : Site) (f : OpFields)
  | fadd (site : Site) (f : OpFields)
  | fsub (site : Site) (f : OpFields)
  | fmul (site : Site) (f : OpFields)
  | fma (site : Site) (f : OpFields)
  | fms (site : Site) (f : OpFields)
  | fnma (site : Site) (f : OpFields)
  | fmin (site : Site) (f : OpFields)
  | fmax (site : Site) (f : OpFields)
  | fabs (site : Site) (f : OpFields)
  | fneg (site : Site) (f : OpFields)
  | fcmp (site : Site) (f : OpFields)
  | fclass (site : Site) (f : OpFields)
  | fdiv (site : Site) (f : OpFields)
  | fsqrt (site : Site) (f : OpFields)
  | frcpa (site : Site) (f : OpFields)
  | frsqa (site : Site) (f : OpFields)
  | fexp2a (site : Site) (f : OpFields)
  | flog2a (site : Site) (f : OpFields)
  | fsinpi (site : Site) (f : OpFields)
  | fcospi (site : Site) (f : OpFields)
  | ftanha (site : Site) (f : OpFields)
  | fsiga (site : Site) (f : OpFields)
  | cvt (site : Site) (f : OpFields)
  | cvts (site : Site) (f : OpFields)
  | frnd (site : Site) (f : OpFields)
  | fscale (site : Site) (f : OpFields)
  | fdot2 (site : Site) (f : OpFields)
  | fhadd (site : Site) (f : OpFields)
  | fclamp (site : Site) (f : OpFields)
  | flerp (site : Site) (f : OpFields)
  | qenc (site : Site) (f : OpFields)
  | qdec (site : Site) (f : OpFields)
  | q8enc (site : Site) (f : OpFields)
  | q8dec (site : Site) (f : OpFields)
  | amax (site : Site) (f : OpFields)
  | qscale (site : Site) (f : OpFields)
  | zcnt (site : Site) (f : OpFields)
  | zmask (site : Site) (f : OpFields)
  | lanex (site : Site) (f : OpFields)
  | lanei (site : Site) (f : OpFields)
  | splat (site : Site) (f : OpFields)
  | widen (site : Site) (f : OpFields)
  | narrow (site : Site) (f : OpFields)
  | shuf (site : Site) (f : OpFields)
  | ldh (site : Site) (f : OpFields)
  | sth (site : Site) (f : OpFields)
  | lds (site : Site) (f : OpFields)
  | sts (site : Site) (f : OpFields)
  | ldr (site : Site) (f : OpFields)
  | str (site : Site) (f : OpFields)
  | ldg (site : Site) (f : OpFields)
  | stg (site : Site) (f : OpFields)
  | pfg (site : Site) (f : OpFields)
  | atomh (site : Site) (f : OpFields)
  | cash (site : Site) (f : OpFields)
  | atomr (site : Site) (f : OpFields)
  | casr (site : Site) (f : OpFields)
  | atomg (site : Site) (f : OpFields)
  | casg (site : Site) (f : OpFields)
  | fence (site : Site) (f : OpFields)
  | hseek (site : Site) (f : OpFields)
  | htell (site : Site) (f : OpFields)
  | ldx (site : Site) (f : OpFields)
  | stx (site : Site) (f : OpFields)
  | gen (site : Site) (f : OpFields)
  | gen2 (site : Site) (f : OpFields)
  | cnt (site : Site) (f : OpFields)
  | acc (site : Site) (f : OpFields)
  | scan (site : Site) (f : OpFields)
  | filt (site : Site) (f : OpFields)
  | take (site : Site) (f : OpFields)
  | skip (site : Site) (f : OpFields)
  | rept (site : Site) (f : OpFields)
  | mklast (site : Site) (f : OpFields)
  | done (site : Site) (f : OpFields)
  | waitd (site : Site) (f : OpFields)
  | iter (site : Site) (f : OpFields)
  | trig (site : Site) (f : OpFields)
  | mm (site : Site) (f : OpFields)
  | mmb (site : Site) (f : OpFields)
  | mmg (site : Site) (f : OpFields)
  | mmo (site : Site) (f : OpFields)
  | accz (site : Site) (f : OpFields)
  | accrd (site : Site) (f : OpFields)
  | accst (site : Site) (f : OpFields)
  | accld (site : Site) (f : OpFields)
  | gspmv (site : Site) (f : OpFields)
  | gsload (site : Site) (f : OpFields)
  | gsread (site : Site) (f : OpFields)
  | gsclr (site : Site) (f : OpFields)
  | redp (site : Site) (f : OpFields)
  | redw (site : Site) (f : OpFields)
  | copy (site : Site) (f : OpFields)
  | copyw (site : Site) (f : OpFields)
  | gath (site : Site) (f : OpFields)
  | scat (site : Site) (f : OpFields)
  | embr (site : Site) (f : OpFields)
  | subscribe (site : Site) (f : OpFields)
  | unsub (site : Site) (f : OpFields)
  | sflush (site : Site) (f : OpFields)
  | bari (site : Site) (f : OpFields)
  | bara (site : Site) (f : OpFields)
  | barw (site : Site) (f : OpFields)
  | ringi (site : Site) (f : OpFields)
  | ringf (site : Site) (f : OpFields)
  | ringfP (site : Site) (f : OpFields)
  | ringr (site : Site) (f : OpFields)
  | ringrP (site : Site) (f : OpFields)
  | tenq (site : Site) (f : OpFields)
  | tlnch (site : Site) (f : OpFields)
  | send (site : Site) (f : OpFields)
  | rgreq (site : Site) (f : OpFields)
  | lqpush (site : Site) (f : OpFields)
  | rrpop (site : Site) (f : OpFields)
  | nop (site : Site) (f : OpFields)
  | sreg (site : Site) (f : OpFields)
  | swreg (site : Site) (f : OpFields)
  | trap (site : Site) (f : OpFields)
  | brk (site : Site) (f : OpFields)
  | yield (site : Site) (f : OpFields)
  | exit (site : Site) (f : OpFields)
  | assert (site : Site) (f : OpFields)
  | clock (site : Site) (f : OpFields)
  | perf (site : Site) (f : OpFields)
  | swapreq (site : Site) (f : OpFields)
  | poison (site : Site) (f : OpFields)
  | deviceReset
  | doorbellWrite
  | queueTableWrite
  | registerWrite
  | xlinvGranule
  | xlinvAll
  | hostHbmAccess
  | peerLaunchRequest
  | sectorOutOfServiceRequest
  | sectorReturnRequest
  | calibComplete
  | ratioRequest
  | meterInterval
  | almanacUpdate
  | powerMonitorSample
  | sensorOvertemp
  | converterFault
  | powerBrakeAssert
  | powerBrakeRelease
  | wmaxWrite
  | laneError
  | retrainComplete
  | widthRegainTest
  | flitReceive
  | nakReceive
  | idleReceive
  | widthFlitReceive
  | fnoteRead
  | factResume
  | factSubst
  | factPreempt
  | factAbort
  | factFrameResume
  | factFrameSubst
  | factFrameAbort
  | factFramePreempt
  | firmwareHandover
  | activateTimeout
  | frzNAssert
  | frzNRelease
  | proctorFreezeRequest
  | frzrel
  | tapReadout
  | getVersion
  | getCapabilities
  | negotiateAlgorithms
  | getDigests
  | getCertificate
  | challenge
  | getMeasurements
  | stage
  | activate
  | status
  | thermcfg
  | time
  | freeze
  | portEnable
  | trainingComplete
  | peerPortDown
  deriving DecidableEq, Repr

end Sys2Proof
end

