-- ==== Sys2Proof/Machine/Lanes.lean ====
section
/-! DEFINITION. Sys2Proof/Machine/Lanes.lean: lanes of a word by operand type (R81, R82), arrival decoding (R95, R96) and
the helpers every lane-wise operator uses (R197). -/
namespace Sys2Proof.Machine
open Sys2Proof

/-- Lanes of a type (R81). -/
def tyLanes : Ty → Nat
  | .i32 | .u32 | .f32 | .raw32 => 1
  | .i16x2 | .u16x2 | .bf16x2 | .f16x2 => 2
  | .i8x4 | .u8x4 | .e4m3x4 | .e5m2x4 => 4
  | .i4x8 | .gq4x8 => 8

/-- Lane width of a type (R81). -/
def tyWidth (t : Ty) : Nat := 32 / tyLanes t

/-- Integer types (INT of R198). -/
def tyIsInt : Ty → Bool
  | .i32 | .u32 | .i16x2 | .u16x2 | .i8x4 | .u8x4 | .i4x8 => true
  | _ => false

/-- Signed integer types (SINT of R198). -/
def tySigned : Ty → Bool
  | .i32 | .i16x2 | .i8x4 | .i4x8 => true
  | _ => false

/-- The floating-point format of a type's lanes (R84). -/
def tyFmt : Ty → Option Fmt
  | .f32 => some fmtF32
  | .bf16x2 => some fmtBf16
  | .f16x2 => some fmtF16
  | .e4m3x4 => some fmtE4m3
  | .e5m2x4 => some fmtE5m2
  | _ => none

/-- The code of a type (R81). -/
def tyCode : Ty → Nat
  | .i32 => 0 | .u32 => 1 | .i16x2 => 2 | .u16x2 => 3 | .i8x4 => 4 | .u8x4 => 5 | .i4x8 => 6
  | .f32 => 8 | .bf16x2 => 9 | .f16x2 => 10 | .e4m3x4 => 11 | .e5m2x4 => 12 | .gq4x8 => 13 | .raw32 => 15

/-- The type of a code; 7 and 14 are reserved (R81). -/
def tyOfCode (n : Nat) : Option Ty :=
  match n with
  | 0 => some .i32 | 1 => some .u32 | 2 => some .i16x2 | 3 => some .u16x2 | 4 => some .i8x4 | 5 => some .u8x4
  | 6 => some .i4x8 | 8 => some .f32 | 9 => some .bf16x2 | 10 => some .f16x2 | 11 => some .e4m3x4
  | 12 => some .e5m2x4 | 13 => some .gq4x8 | 15 => some .raw32
  | _ => none

/-- The pattern of one (R176). -/
def onePattern : Ty → Word
  | .i32 | .u32 | .raw32 => 0x00000001
  | .i16x2 | .u16x2 => 0x00010001
  | .i8x4 | .u8x4 => 0x01010101
  | .i4x8 => 0x11111111
  | .gq4x8 => 0x77777777
  | .f32 => 0x3F800000
  | .bf16x2 => 0x3F803F80
  | .f16x2 => 0x3C003C00
  | .e4m3x4 => 0x38383838
  | .e5m2x4 => 0x3C3C3C3C

/-- `lane(v, w, i)` of R13. -/
def lane (v : Word) (w i : Nat) : Nat := v.toNat / 2 ^ (w * i) % 2 ^ w

/-- A lane as the integer its type reads (R197). -/
def laneI (t : Ty) (v : Word) (i : Nat) : Int := laneInt (lane v (tyWidth t) i) (tyWidth t) (tySigned t)

/-- A word from lanes 0 to n-1 of width w, with the flags of every lane ORed (R93). -/
def buildLanes (w : Nat) (f : Nat → Nat × Flags) : Nat → Word × Flags
  | 0 => (0, flagNone)
  | n + 1 =>
    let (acc, fl) := buildLanes w f n
    let (v, g) := f n
    (acc ||| (BitVec.ofNat 32 ((v % 2 ^ w) * 2 ^ (w * n))), fl ||| g)

/-- Lane-wise result over a type. -/
def perLane (t : Ty) (f : Nat → Nat × Flags) : Word × Flags := buildLanes (tyWidth t) f (tyLanes t)

/-- A signed integer as the low w bits of a lane. -/
def wrapLane (w : Nat) (v : Int) : Nat := (v % (2 ^ w : Int)).toNat

/-- The channel formats of R71. -/
inductive ChFmt
  | raw32 | i16x2 | i8x4 | i4x8 | bf16x2 | f16x2 | e4m3x4 | e5m2x4 | gq4x8
  deriving DecidableEq, Repr

/-- A format code; 9 to 15 are reserved (R71). -/
def chFmtOfCode (n : Nat) : Option ChFmt :=
  match n with
  | 0 => some .raw32 | 1 => some .i16x2 | 2 => some .i8x4 | 3 => some .i4x8 | 4 => some .bf16x2
  | 5 => some .f16x2 | 6 => some .e4m3x4 | 7 => some .e5m2x4 | 8 => some .gq4x8
  | _ => none

/-- Lanes of a channel format. -/
def chLanes : ChFmt → Nat
  | .raw32 => 1
  | .i16x2 | .bf16x2 | .f16x2 => 2
  | .i8x4 | .e4m3x4 | .e5m2x4 => 4
  | .i4x8 | .gq4x8 => 8

/-- Whether a channel format and a type have the same lane format (R96). -/
def sameLaneFmt : ChFmt → Ty → Bool
  | .raw32, .raw32 => true
  | .i16x2, .i16x2 => true
  | .i8x4, .i8x4 => true
  | .i4x8, .i4x8 => true
  | .bf16x2, .bf16x2 => true
  | .f16x2, .f16x2 => true
  | .e4m3x4, .e4m3x4 => true
  | .e5m2x4, .e5m2x4 => true
  | .gq4x8, .gq4x8 => true
  | _, _ => false

/-- `dval` of R96 with the flag of a signalling lane. -/
def dval (f : ChFmt) (p : Nat) : Ex × Flags :=
  match f with
  | .raw32 => (Ex.ofInt p, flagNone)
  | .i16x2 => (Ex.ofInt (laneInt p 16 true), flagNone)
  | .i8x4 => (Ex.ofInt (laneInt p 8 true), flagNone)
  | .i4x8 => (Ex.ofInt (laneInt p 4 true), flagNone)
  | .bf16x2 => (fval fmtBf16 p, snanFlag fmtBf16 p)
  | .f16x2 => (fval fmtF16 p, snanFlag fmtF16 p)
  | .e4m3x4 => (fval fmtE4m3 p, flagNone)
  | .e5m2x4 => (fval fmtE5m2 p, flagNone)
  | .gq4x8 => (gq4Value p, flagNone)

/-- `operand(P, FMT, SCL, TY)` of R96; `wv` is the scale register's pattern. -/
def arrivalDecode (p : Word) (f : ChFmt) (wv : Word) (t : Ty) : Word × Flags :=
  if f = .raw32 ∨ t = .raw32 ∨ t = .gq4x8 then (p, flagNone)
  else if sameLaneFmt f t = true ∧ wv = 0x3F800000 then (p, flagNone)
  else
    let wf := 32 / chLanes f
    perLane t (fun i =>
      let (v, f0) := dval f (lane p wf i)
      let (x, f1) := Ex.mul v (fval fmtF32 wv.toNat)
      let f2 := snanFlag fmtF32 wv.toNat
      match tyFmt t with
      | some fm =>
        let (r, f3) := roundTo fm .rne false x
        (r, f0 ||| f1 ||| f2 ||| f3)
      | none =>
        let (r, f3) := toint x (tyWidth t) (tySigned t) .rne
        (wrapLane (tyWidth t) r, f0 ||| f1 ||| f2 ||| f3))

end Sys2Proof.Machine
end

