-- ==== Sys2Proof/Machine/Alu.lean ====
section
/-! DEFINITION. Sys2Proof/Machine/Alu.lean: the result word and flags of the arithmetic, logic, floating-point and packed
operators as functions of their operand words (09_ops_integer_float.md R197 to R217, 10 R219 to R225). -/
namespace Sys2Proof.Machine
open Sys2Proof

/-- What an operator of 0x00 to 0x4D computes from its operands a, b, c after arrival decoding. -/
abbrev AluFn := OpFields → Word → Word → Word → Word × Flags

/-- MOD[3] (R174). -/
def modSat (f : OpFields) : Bool := f.mod.getLsbD 3
/-- MOD[2] (R174). -/
def modB2 (f : OpFields) : Bool := f.mod.getLsbD 2
/-- MOD[1:0] as rounding mode (R174). -/
def modRm (f : OpFields) : Rm := rmOf (f.mod.toNat % 4)

/-! Integer arithmetic (R201 to R203). -/

/-- A lane-wise exact integer result fitted to its lane (R83, R201). -/
def intFit (f : OpFields) (a b c : Word) (v : Int → Int → Int → Int) : Word × Flags :=
  perLane f.ty (fun i => fitint (v (laneI f.ty a i) (laneI f.ty b i) (laneI f.ty c i)) (tyWidth f.ty) (tySigned f.ty) (modSat f))

/-- A lane-wise exact integer result, its low w bits (R197). -/
def intWrap (f : OpFields) (a b c : Word) (v : Int → Int → Int → Int) : Word × Flags :=
  perLane f.ty (fun i => (wrapLane (tyWidth f.ty) (v (laneI f.ty a i) (laneI f.ty b i) (laneI f.ty c i)), flagNone))

def aluAdd : AluFn := fun f a b c => intFit f a b c (fun x y _ => x + y)
def aluSub : AluFn := fun f a b c => intFit f a b c (fun x y _ => x - y)
def aluMul : AluFn := fun f a b c => intFit f a b c (fun x y _ => x * y)
def aluMulh : AluFn := fun f a b c => intWrap f a b c (fun x y _ => (x * y) / (2 ^ tyWidth f.ty : Int))
def aluMad : AluFn := fun f a b c => intFit f a b c (fun x y z => x * y + z)
def aluMin : AluFn := fun f a b c => intWrap f a b c (fun x y _ => if x ≤ y then x else y)
def aluMax : AluFn := fun f a b c => intWrap f a b c (fun x y _ => if x ≤ y then y else x)
def aluAbs : AluFn := fun f a b c => intFit f a b c (fun x _ _ => (x.natAbs : Int))
def aluAvg : AluFn := fun f a b c => intWrap f a b c (fun x y _ => (x + y + (if modB2 f then 0 else 1)) / 2)
def aluAbsd : AluFn := fun f a b c => intWrap f a b c (fun x y _ => ((x - y).natAbs : Int))
def aluAddsh : AluFn := fun f a b c =>
  intFit f a b c (fun x y _ => x + y * (2 ^ (f.imm.toNat % 32 % tyWidth f.ty) : Int))

/-- Quotient of R202: all ones for a zero divisor, else toward zero and fitted. -/
def aluDiv : AluFn := fun f a b _ =>
  perLane f.ty (fun i =>
    let x := laneI f.ty a i
    let y := laneI f.ty b i
    if y = 0 then (2 ^ tyWidth f.ty - 1, flagNone)
    else fitint (Int.tdiv x y) (tyWidth f.ty) (tySigned f.ty) (modSat f))

/-- Remainder of R202: the dividend for a zero divisor. -/
def aluRem : AluFn := fun f a b c =>
  intWrap f a b c (fun x y _ => if y = 0 then x else x - Int.tdiv x y * y)

/-- Sum of an integer function of the lanes. -/
def sumLanes (g : Nat → Int) : Nat → Int
  | 0 => 0
  | n + 1 => sumLanes g n + g n

/-- One 32-bit word with its flags. -/
def word32 (r : Nat × Flags) : Word × Flags := (BitVec.ofNat 32 r.1, r.2)

def aluSad : AluFn := fun f a b c =>
  word32 (fitint (sumLanes (fun i => ((laneI f.ty a i - laneI f.ty b i).natAbs : Int)) (tyLanes f.ty) + (c.toNat : Int))
    32 false (modSat f))

/-- `dot4` (R203): MOD[2] reads B with the opposite signedness. -/
def aluDot4 : AluFn := fun f a b c =>
  let w := tyWidth f.ty
  let sb := if modB2 f then !(tySigned f.ty) else tySigned f.ty
  word32 (fitint (sumLanes (fun i => laneI f.ty a i * laneInt (lane b w i) w sb) (tyLanes f.ty) + c.toInt)
    32 true (modSat f))

/-! Logic, shifts and bits (R204 to R207). -/

def aluAnd : AluFn := fun _ a b _ => (a &&& b, flagNone)
def aluOr : AluFn := fun _ a b _ => (a ||| b, flagNone)
def aluXor : AluFn := fun _ a b _ => (a ^^^ b, flagNone)
def aluAndn : AluFn := fun _ a b _ => (a &&& ~~~b, flagNone)

def aluShl : AluFn := fun f a b _ =>
  perLane f.ty (fun i =>
    let w := tyWidth f.ty
    fitint (laneI f.ty a i * (2 ^ (lane b w i % w) : Int)) w (tySigned f.ty) (modSat f))

def aluShr : AluFn := fun f a b _ =>
  perLane f.ty (fun i =>
    let w := tyWidth f.ty
    (wrapLane w (laneI f.ty a i / (2 ^ (lane b w i % w) : Int)), flagNone))

/-- A lane value rotated left by n (R204). -/
def rotlNat (w v n : Nat) : Nat := (v * 2 ^ n + v / 2 ^ (w - n)) % 2 ^ w

def aluRot : AluFn := fun f a b _ =>
  perLane f.ty (fun i =>
    let w := tyWidth f.ty
    let n := lane b w i % w
    (rotlNat w (lane a w i) (if modB2 f then (w - n) % w else n), flagNone))

/-- The lowest n bits of v in reverse order. -/
def brevNat : Nat → Nat → Nat
  | 0, _ => 0
  | n + 1, v => (v % 2) * 2 ^ n + brevNat n (v / 2)

def aluBrev : AluFn := fun f a _ _ =>
  perLane f.ty (fun i => (brevNat (tyWidth f.ty) (lane a (tyWidth f.ty) i), flagNone))

def aluSel : AluFn := fun f a b c =>
  perLane f.ty (fun i =>
    let w := tyWidth f.ty
    (if lane c w i ≠ 0 then lane a w i else lane b w i, flagNone))

def aluMove : AluFn := fun _ a _ _ => (a, flagNone)

def aluPack : AluFn := fun f a b _ =>
  if modB2 f then (BitVec.ofNat 32 (b.toNat / 65536 * 65536 + a.toNat / 65536), flagNone)
  else (BitVec.ofNat 32 (b.toNat % 65536 * 65536 + a.toNat % 65536), flagNone)

def aluClz : AluFn := fun f a _ _ =>
  perLane f.ty (fun i =>
    let w := tyWidth f.ty
    let v := lane a w i
    (if v = 0 then w else w - 1 - Nat.log2 v, flagNone))

/-- Index of the lowest 1 among the lowest n bits, counted from `k`. -/
def lowestOne : Nat → Nat → Nat → Nat
  | 0, _, k => k
  | n + 1, v, k => if v % 2 = 1 then k else lowestOne n (v / 2) (k + 1)

def aluFfs : AluFn := fun f a _ _ =>
  perLane f.ty (fun i =>
    let w := tyWidth f.ty
    let v := lane a w i
    (if v = 0 then 0 else 1 + lowestOne w v 0, flagNone))

/-- Number of 1 bits among the lowest n. -/
def popNat : Nat → Nat → Nat
  | 0, _ => 0
  | n + 1, v => v % 2 + popNat n (v / 2)

def aluPopc : AluFn := fun f a _ _ =>
  perLane f.ty (fun i => (popNat (tyWidth f.ty) (lane a (tyWidth f.ty) i), flagNone))

/-- pos and len of R206. -/
def bfPos (b : Word) : Nat := b.toNat % 32
def bfLen (b : Word) : Nat := min (bitsN b.toNat 13 8) (32 - bfPos b)

def aluBfx : AluFn := fun f a b _ =>
  let len := bfLen b
  if len = 0 then (0, flagNone)
  else
    let v := a.toNat / 2 ^ bfPos b % 2 ^ len
    (BitVec.ofInt 32 (laneInt v len (f.ty == .i32)), flagNone)

def aluBfi : AluFn := fun _ a b c =>
  let m : Word := BitVec.ofNat 32 ((2 ^ bfLen b - 1) * 2 ^ bfPos b)
  ((c &&& ~~~m) ||| (BitVec.ofNat 32 (a.toNat * 2 ^ bfPos b) &&& m), flagNone)

/-- The condition codes of `cmp` (R207). -/
def cmpHolds (cc : Nat) (x y : Int) : Bool :=
  match cc with
  | 0 => x == y
  | 1 => x != y
  | 2 => decide (x < y)
  | 3 => decide (x ≤ y)
  | 4 => decide (x > y)
  | 5 => decide (x ≥ y)
  | _ => false

def aluCmp : AluFn := fun f a b _ =>
  perLane f.ty (fun i =>
    (if cmpHolds (f.mod.toNat % 8) (laneI f.ty a i) (laneI f.ty b i) then 2 ^ tyWidth f.ty - 1 else 0, flagNone))

/-! Floating point (R208 to R213). -/

/-- The format of the type's lanes; a type without one never passes SEAL here (R199). -/
def opFmt (f : OpFields) : Fmt := (tyFmt f.ty).getD fmtF32

/-- Lane i of an operand as an exact value, and NV if it is signalling (R87). -/
def laneX (f : OpFields) (v : Word) (i : Nat) : Ex := fval (opFmt f) (lane v (tyWidth f.ty) i)
def laneS (f : OpFields) (v : Word) (i : Nat) : Flags := snanFlag (opFmt f) (lane v (tyWidth f.ty) i)

/-- Rounds an exact lane result under the operator's MOD (R208). -/
def fround (f : OpFields) (x : Ex × Flags) : Nat × Flags :=
  let (r, fl) := roundTo (opFmt f) (modRm f) (modSat f) x.1
  (r, x.2 ||| fl)

/-- A lane-wise floating-point operator on two operands. -/
def float2 (f : OpFields) (a b : Word) (g : Ex → Ex → Ex × Flags) : Word × Flags :=
  perLane f.ty (fun i =>
    let (x, fl) := g (laneX f a i) (laneX f b i)
    fround f (x, fl ||| laneS f a i ||| laneS f b i))

/-- A lane-wise floating-point operator on three operands. -/
def float3 (f : OpFields) (a b c : Word) (g : Ex → Ex → Ex → Ex × Flags) : Word × Flags :=
  perLane f.ty (fun i =>
    let (x, fl) := g (laneX f a i) (laneX f b i) (laneX f c i)
    fround f (x, fl ||| laneS f a i ||| laneS f b i ||| laneS f c i))

/-- x * y + z exactly; an invalid product with a NaN addend still sets NV (R208). -/
def exFma (m : Rm) (x y z : Ex) : Ex × Flags :=
  let (p, f1) := Ex.mul x y
  let (r, f2) := Ex.add m p z
  (r, f1 ||| f2)

def aluFadd : AluFn := fun f a b _ => float2 f a b (fun x y => Ex.add (modRm f) x y)
def aluFsub : AluFn := fun f a b _ => float2 f a b (fun x y => Ex.add (modRm f) x y.neg)
def aluFmul : AluFn := fun f a b _ => float2 f a b (fun x y => Ex.mul x y)
def aluFma : AluFn := fun f a b c => float3 f a b c (fun x y z => exFma (modRm f) x y z)
def aluFms : AluFn := fun f a b c => float3 f a b c (fun x y z => exFma (modRm f) x y z.neg)
def aluFnma : AluFn := fun f a b c => float3 f a b c (fun x y z => exFma (modRm f) x.neg y z)
def aluFdiv : AluFn := fun f a b _ => float2 f a b (fun x y => Ex.div x y)
def aluFsqrt : AluFn := fun f a _ _ =>
  perLane f.ty (fun i => let (x, fl) := Ex.sqrt (laneX f a i); fround f (x, fl ||| laneS f a i))

/-- x times 2^n exactly. Beyond 2^1000 either way every format overflows or vanishes alike, so n is cut there (log). -/
def exScale (x : Ex) (n : Int) : Ex :=
  match x with
  | .fin s v d =>
    if n ≥ 0 then .fin s (v * 2 ^ (min n.toNat 1000)) d else .fin s v (d * 2 ^ (min (-n).toNat 1000))
  | y => y

def aluFscale : AluFn := fun f a b _ =>
  perLane f.ty (fun i =>
    let w := tyWidth f.ty
    let p := lane a w i
    let x := laneX f a i
    if x.isInf || x.isZero then (p, flagNone)
    else fround f (exScale x (laneInt (lane b w i) w true), laneS f a i))

def aluFhadd : AluFn := fun f a b _ =>
  let h := tyLanes f.ty / 2
  perLane f.ty (fun j =>
    let v := if j < h then a else b
    let k := if j < h then j else j - h
    let (x, fl) := Ex.add (modRm f) (laneX f v (2 * k)) (laneX f v (2 * k + 1))
    fround f (x, fl ||| laneS f v (2 * k) ||| laneS f v (2 * k + 1)))

def aluFlerp : AluFn := fun f a b c =>
  float3 f a b c (fun x y z =>
    let m := modRm f
    let (d, f1) := Ex.add m y x.neg
    let (p, f2) := Ex.mul z d
    let (r, f3) := Ex.add m x p
    (r, f1 ||| f2 ||| f3))

/-- `fdot2` (R209): one exact sum of products and a binary32 addend, one rounding. -/
def aluFdot2 : AluFn := fun f a b c =>
  let m := modRm f
  let (p0, f0) := Ex.mul (laneX f a 0) (laneX f b 0)
  let (p1, f1) := Ex.mul (laneX f a 1) (laneX f b 1)
  let (s, f2) := Ex.add m p0 p1
  let (r, f3) := Ex.add m s (fval fmtF32 c.toNat)
  let (v, f4) := roundTo fmtF32 m (modSat f) r
  (BitVec.ofNat 32 v, f0 ||| f1 ||| f2 ||| f3 ||| f4 ||| laneS f a 0 ||| laneS f a 1 ||| laneS f b 0 ||| laneS f b 1
    ||| snanFlag fmtF32 c.toNat)

/-- The lesser of two patterns with -0 below +0; one NaN gives the other operand, two the canonical NaN (R210). -/
def fminPat (t : Fmt) (p q : Nat) : Nat × Flags :=
  let fl := snanFlag t p ||| snanFlag t q
  if t.isNan p && t.isNan q then (t.cnan, fl)
  else if t.isNan p then (q, fl)
  else if t.isNan q then (p, fl)
  else
    let c := Ex.cmp (fval t p) (fval t q)
    if c < 0 then (p, fl) else if c > 0 then (q, fl) else if t.sgn p then (p, fl) else (q, fl)

def fmaxPat (t : Fmt) (p q : Nat) : Nat × Flags :=
  let fl := snanFlag t p ||| snanFlag t q
  if t.isNan p && t.isNan q then (t.cnan, fl)
  else if t.isNan p then (q, fl)
  else if t.isNan q then (p, fl)
  else
    let c := Ex.cmp (fval t p) (fval t q)
    if c > 0 then (p, fl) else if c < 0 then (q, fl) else if t.sgn p then (q, fl) else (p, fl)

def aluFmin : AluFn := fun f a b _ =>
  perLane f.ty (fun i => fminPat (opFmt f) (lane a (tyWidth f.ty) i) (lane b (tyWidth f.ty) i))
def aluFmax : AluFn := fun f a b _ =>
  perLane f.ty (fun i => fmaxPat (opFmt f) (lane a (tyWidth f.ty) i) (lane b (tyWidth f.ty) i))

/-- `fclamp` (R210): fmin(fmax(A, B), C), and C if B > C. -/
def aluFclamp : AluFn := fun f a b c =>
  perLane f.ty (fun i =>
    let w := tyWidth f.ty
    let t := opFmt f
    let (x, f1) := fmaxPat t (lane a w i) (lane b w i)
    let (y, f2) := fminPat t x (lane c w i)
    let bx := fval t (lane b w i)
    let cx := fval t (lane c w i)
    let r := if !bx.isNan && !cx.isNan && decide (Ex.cmp bx cx > 0) then lane c w i else y
    (r, f1 ||| f2 ||| snanFlag t (lane c w i)))

def aluFabs : AluFn := fun f a _ _ =>
  perLane f.ty (fun i => (lane a (tyWidth f.ty) i % 2 ^ (tyWidth f.ty - 1), flagNone))
def aluFneg : AluFn := fun f a _ _ =>
  perLane f.ty (fun i => (lane a (tyWidth f.ty) i + 2 ^ (tyWidth f.ty - 1), flagNone))

/-- The conditions of `fcmp` (R211) on non-NaN values, and on an unordered pair. -/
def fcmpHolds (cc : Nat) (unordered : Bool) (c : Int) : Bool :=
  match cc % 8 with
  | 0 => !unordered && c == 0
  | 1 => unordered || c != 0
  | 2 => !unordered && decide (c < 0)
  | 3 => !unordered && decide (c ≤ 0)
  | 4 => !unordered && decide (c > 0)
  | 5 => !unordered && decide (c ≥ 0)
  | 6 => unordered
  | _ => !unordered

def aluFcmp : AluFn := fun f a b _ =>
  perLane f.ty (fun i =>
    let x := laneX f a i
    let y := laneX f b i
    let u := x.isNan || y.isNan
    let cc := f.imm.toNat % 8
    let nv := if (2 ≤ cc && cc ≤ 5) && u then flagNV else laneS f a i ||| laneS f b i
    (if fcmpHolds cc u (Ex.cmp x y) then 2 ^ tyWidth f.ty - 1 else 0, nv))

/-- The class code of R212. -/
def fclassOf (t : Fmt) (p : Nat) : Nat :=
  if t.isNan p then (if t.isSnan p then 0 else 1)
  else if t.isInf p then (if t.sgn p then 2 else 9)
  else if t.expo p = 0 ∧ t.frac p = 0 then (if t.sgn p then 5 else 6)
  else if t.expo p = 0 then (if t.sgn p then 4 else 7)
  else if t.sgn p then 3 else 8

def aluFclass : AluFn := fun f a _ _ =>
  perLane f.ty (fun i => (fclassOf (opFmt f) (lane a (tyWidth f.ty) i), flagNone))

/-- `frnd` (R213): rint in the lane format; NX only under MOD[2]. -/
def aluFrnd : AluFn := fun f a _ _ =>
  perLane f.ty (fun i =>
    let t := opFmt f
    match laneX f a i with
    | .nan => (t.cnan, laneS f a i)
    | .inf _ => (lane a (tyWidth f.ty) i, flagNone)
    | .fin s n d =>
      let q := rintMag s n d (modRm f)
      let inexact := decide (n % d ≠ 0)
      ((roundTo t .rne false (.fin s q 1)).1, if inexact && modB2 f then flagNX else flagNone))

/-! Conversions (R216, R217). -/

/-- DT and G of IMM16 (R216). -/
def cvtDt (f : OpFields) : Ty := (tyOfCode (f.imm.toNat % 16)).getD .raw32
def cvtG (f : OpFields) : Nat := bitsN f.imm.toNat 6 4

/-- One converted lane (`conv`, R216). -/
def cvtLane (f : OpFields) (dt : Ty) (a : Word) (s : Nat) : Nat × Flags :=
  let wd := tyWidth dt
  match tyFmt f.ty, tyFmt dt with
  | some _, some td =>
    let (r, fl) := roundTo td (modRm f) (modSat f) (laneX f a s)
    (r, fl ||| laneS f a s)
  | some _, none =>
    let (r, fl) := toint (laneX f a s) wd (tySigned dt) (modRm f)
    (wrapLane wd r, fl)
  | none, some td => roundTo td (modRm f) (modSat f) (Ex.ofInt (laneI f.ty a s))
  | none, none => fitint (laneI f.ty a s) wd (tySigned dt) (modSat f)

/-- Distributes converted lanes as R216 does; the other lanes of a wider-counted destination come from b. -/
def cvtWord (f : OpFields) (b : Word) (conv : Nat → Nat → Nat × Flags) : Word × Flags :=
  let dt := cvtDt f
  let ls := tyLanes f.ty
  let ld := tyLanes dt
  let n := min ls ld
  let g := cvtG f
  perLane dt (fun t =>
    if ld ≤ ls then conv (g * n + t) t
    else if g * n ≤ t ∧ t < g * n + n then conv (t - g * n) t
    else (lane b (tyWidth dt) t, flagNone))

def aluCvt : AluFn := fun f a b _ => cvtWord f b (fun s _ => cvtLane f (cvtDt f) a s)

/-- `srnd` of R217: `r` over 2^rw is the random fraction. -/
def srndTo (t : Fmt) (sat : Bool) (x : Ex) (r rw : Nat) : Nat × Flags :=
  match x with
  | .fin neg num den =>
    if num = 0 then roundTo t .rne sat x else
    let emin : Int := 1 - (t.bias : Int)
    let e0 := log2Ratio num den
    let e := if e0 < emin then emin else e0
    let (n1, d1) := scaleDown num den (e - (t.f : Int))
    let q := (n1 * 2 ^ rw + r * d1) / (d1 * 2 ^ rw)
    let mag := (e - emin).toNat * 2 ^ t.f + q
    if mag > t.maxfin then (ovfTo t neg .rne sat, flagOF ||| flagNX)
    else if n1 % d1 = 0 ∧ q = n1 / d1 then (t.signBit neg + mag, flagNone)
    else (t.signBit neg + mag, if e0 < emin then flagNX ||| flagUF else flagNX)
  | y => roundTo t .rne sat y

def aluCvts : AluFn := fun f a b c =>
  let dt := cvtDt f
  let td := (tyFmt dt).getD fmtF32
  let rw := 32 / tyLanes dt
  cvtWord f b (fun s t =>
    let (r, fl) := srndTo td (modSat f) (laneX f a s) (lane c rw t) rw
    (r, fl ||| laneS f a s))

/-! Packed lane operators (R219, R220). -/

/-- ext(x) of R219: sign-extends for SINT types. -/
def extLane (t : Ty) (w v : Nat) : Int := laneInt v w (tySigned t)

def aluLanex : AluFn := fun f a b _ =>
  let w := tyWidth f.ty
  (BitVec.ofInt 32 (extLane f.ty w (lane a w (b.toNat % 8 % tyLanes f.ty))), flagNone)

def aluLanei : AluFn := fun f a b c =>
  let w := tyWidth f.ty
  let n := c.toNat % 8 % tyLanes f.ty
  perLane f.ty (fun i => (if i = n then b.toNat % 2 ^ w else lane a w i, flagNone))

def aluSplat : AluFn := fun f a _ _ =>
  perLane f.ty (fun _ => (lane a (tyWidth f.ty) (f.imm.toNat % 8), flagNone))

def aluWiden : AluFn := fun f a _ _ =>
  let w := tyWidth f.ty
  let h := tyLanes f.ty / 2
  buildLanes (2 * w) (fun t =>
    (wrapLane (2 * w) (extLane f.ty w (lane a w ((if modB2 f then h else 0) + t))), flagNone)) h

def aluNarrow : AluFn := fun f a b _ =>
  let w := tyWidth f.ty
  let l := tyLanes f.ty
  buildLanes (w / 2) (fun t =>
    fitint (if t < l then laneI f.ty a t else laneI f.ty b (t - l)) (w / 2) (tySigned f.ty) (modSat f)) (2 * l)

def aluShuf : AluFn := fun f a b c =>
  let w := tyWidth f.ty
  let l := tyLanes f.ty
  perLane f.ty (fun t =>
    let s := lane c 4 t % (2 * l)
    (if s < l then lane a w s else lane b w (s - l), flagNone))

/-- Zero test of a lane (R220). -/
def laneIsZero (t : Ty) (v : Nat) : Bool :=
  match t with
  | .f32 | .bf16x2 | .f16x2 | .e4m3x4 | .e5m2x4 | .gq4x8 => v % 2 ^ (tyWidth t - 1) == 0
  | _ => v == 0

/-- Number of zero lanes among the first n. -/
def zeroLanes (t : Ty) (a : Word) : Nat → Nat
  | 0 => 0
  | n + 1 => zeroLanes t a n + (if laneIsZero t (lane a (tyWidth t) n) then 1 else 0)

def aluZcnt : AluFn := fun f a b _ => (b + BitVec.ofNat 32 (zeroLanes f.ty a (tyLanes f.ty)), flagNone)

def aluZmask : AluFn := fun f a _ _ =>
  buildLanes 1 (fun i => (if laneIsZero f.ty (lane a (tyWidth f.ty) i) then 1 else 0, flagNone)) (tyLanes f.ty)

/-! Quantisation (R221 to R225). -/

/-- `mag` of R221. -/
def magLane (f : OpFields) (v : Word) (i : Nat) : Nat × Flags :=
  let w := tyWidth f.ty
  match tyFmt f.ty with
  | some t =>
    let p := lane v w i
    if t.isNan p || t.isInf p then (0, flagNV) else (p % 2 ^ (w - 1), flagNone)
  | none => ((laneI f.ty v i).natAbs, flagNone)

/-- Per-lane maximum of magnitudes; patterns of magnitudes order as their values do (R221). -/
def amaxLane (f : OpFields) (a b : Word) (i : Nat) : Nat × Flags :=
  let (x, f1) := magLane f a i
  let (y, f2) := magLane f b i
  (max x y, f1 ||| f2)

def maxOver (g : Nat → Nat × Flags) : Nat → Nat × Flags
  | 0 => (0, flagNone)
  | n + 1 =>
    let (m, fl) := maxOver g n
    let (v, f2) := g n
    (max m v, fl ||| f2)

def aluAmax : AluFn := fun f a b _ =>
  if modB2 f then
    let r := maxOver (amaxLane f a b) (tyLanes f.ty)
    perLane f.ty (fun _ => r)
  else perLane f.ty (amaxLane f a b)

def aluQscale : AluFn := fun f a b _ =>
  let x := fval fmtF32 a.toNat
  let y := fval fmtF32 b.toNat
  let (c, fl) : Nat × Flags :=
    if x.isNan || x.isInf || y.isNan || y.isInf then (0, flagNV)
    else if y.isZero then (0, flagNone)
    else match Ex.div x.abs y.abs with
      | (.fin _ n d, _) =>
        let c := rintMag false (255 * n) d .rne
        if c > 255 then (255, flagIS) else (c, flagNone)
      | _ => (0, flagNone)
  if modB2 f then (BitVec.ofNat 32 (gq4Bscale (b.toNat % 2 ^ 31) c), fl) else (BitVec.ofNat 32 c, fl)

/-- Replaces one lane of a word. -/
def setLane (c : Word) (w t v : Nat) : Word × Flags :=
  buildLanes w (fun i => (if i = t then v else lane c w i, flagNone)) (32 / w)

def aluQenc : AluFn := fun f a b c =>
  let x := fval fmtF32 a.toNat
  let bs := fval fmtF32 b.toNat
  let badX := x.isNan || x.isInf
  let x' := if badX then Ex.zero else x
  let badB := bs.isNan || bs.isInf || (bs.sign && !bs.isZero)
  let k := if badB || bs.isZero then 0 else gq4Nearest x'.abs bs
  let code := if k ≠ 0 ∧ a.toNat / 2 ^ 31 % 2 = 1 then 8 + k else k
  ((setLane c 4 (f.imm.toNat % 8) code).1, (if badX || badB then flagNV else flagNone))

def aluQdec : AluFn := fun f a b _ =>
  let l := tyLanes f.ty
  let g := f.imm.toNat % 8
  perLane f.ty (fun t =>
    let (x, f1) := Ex.mul (gq4Value (lane a 4 (g * l + t))) (fval fmtF32 b.toNat)
    let (r, f2) := roundTo (opFmt f) (modRm f) false x
    (r, f1 ||| f2 ||| snanFlag fmtF32 b.toNat))

def aluQ8enc : AluFn := fun f a b c =>
  let (x, f1) := Ex.mul (fval fmtF32 a.toNat) (fval fmtF32 b.toNat)
  let (r, f2) := roundTo (opFmt f) (modRm f) (modSat f) x
  ((setLane c 8 (f.imm.toNat % 4) r).1, f1 ||| f2 ||| snanFlag fmtF32 a.toNat ||| snanFlag fmtF32 b.toNat)

def aluQ8dec : AluFn := fun f a b _ =>
  let l := tyLanes f.ty
  let g := f.imm.toNat % 4
  let src := if modB2 f then fmtE5m2 else fmtE4m3
  perLane f.ty (fun t =>
    let (x, f1) := Ex.mul (fval src (lane a 8 (g * l + t))) (fval fmtF32 b.toNat)
    let (r, f2) := roundTo (opFmt f) (modRm f) (modSat f) x
    (r, f1 ||| f2 ||| snanFlag fmtF32 b.toNat))

end Sys2Proof.Machine
end

