-- ==== Sys2Proof/Config.lean ====
section
/-! DEFINITION. Sys2Proof/Config.lean: what the spec leaves to the implementation or states no value for. Every constant here
is opaque: nothing in Lean can evaluate it, so a claim holds whatever it is. -/
namespace Sys2Proof.Config

/-- The approximation an implementation gives for an operator code, a TY code and an input lane (R214): a binary32 pattern.
The model uses it only where it lies within the bound of R215. FREE VALUE, log 8. -/
opaque approxPattern : Nat → Nat → Nat → BitVec 32

/-- A free natural number: the n-th choice the spec leaves open (an eviction victim, a frame, a HID, a progress count).
FREE VALUE, log 9. -/
opaque freeNat : Nat → Nat

/-- The value a count or a bound has when its operand is POISON, by the POISON's payload (R42, R240, log 23): the value is
unknown. -/
opaque poisonValue : BitVec 32 → BitVec 32

/-- The syndrome that the n-th uncorrectable scratchpad word gives (R358). FREE VALUE, log 107. -/
opaque syndrome : Nat → Nat

/-- A package number belongs to a package of the pod (R379): the pod is fixed and the spec names none. FREE VALUE, log 105. -/
opaque podHas : Nat → Bool

/-- The updates of a subscription that its publisher's hub holds beside the 4 of R45, before a write to the region must wait (R306).
FREE VALUE, log 141. -/
opaque updateRoom : Nat

/-- The number of Olpour links on the route to a package (R331), which the other packages' entries set. FREE VALUE, log 114. -/
opaque routeHops : Nat → Nat

/-- The 64-byte SHAKE256 digest of bytes (R339, R340), which the spec names and does not define. FREE VALUE, log 64. -/
opaque shake256 : List (BitVec 8) → BitVec 512

/-- The ML-DSA-65 signature of a firmware image of a kind verifies against the fused key (R340). FREE VALUE, log 64. -/
opaque signatureOk : Nat → List (BitVec 8) → Bool

/-- The security version of an image, and the fused minimum of a kind (R340). FREE VALUE, log 64. -/
opaque securityVersion : List (BitVec 8) → Nat
opaque minimumVersion : Nat → Nat

/-- The digest of what is measured before any image is replaced, by measurement index (R339). FREE VALUE, log 64. -/
opaque factoryDigest : Nat → BitVec 512

/-- The part's own signature over bytes, and its certificate chain (R339). FREE VALUE, log 64. -/
opaque sign : List (BitVec 8) → List (BitVec 8)
opaque certificate : List (BitVec 8)

end Sys2Proof.Config
end

