-- ==== Sys2Proof/Machine/Map.lean ====
section
/-! DEFINITION. Sys2Proof/Machine/Map.lean: sparse data by a natural key, as a sorted list of pairs.
A key that is not listed holds a default. Memory, scratchpads and configuration banks are held so. -/
namespace Sys2Proof.Machine

/-- Sparse data: a list of (key, value). -/
abbrev Map (α : Type) := List (Nat × α)

/-- The value at a key, `d` where the key is not listed. -/
def Map.get {α : Type} (d : α) : Map α → Nat → α
  | [], _ => d
  | (k', v) :: r, k => if k' = k then v else Map.get d r k

/-- The value at a key, if listed. -/
def Map.find {α : Type} : Map α → Nat → Option α
  | [], _ => none
  | (k', v) :: r, k => if k' = k then some v else Map.find r k

/-- Lists a value at a key, at its sorted place. -/
def Map.put {α : Type} : Map α → Nat → α → Map α
  | [], k, v => [(k, v)]
  | (k', v') :: r, k, v =>
    if k < k' then (k, v) :: (k', v') :: r
    else if k = k' then (k, v) :: r
    else (k', v') :: Map.put r k v

/-- Unlists a key. -/
def Map.del {α : Type} (m : Map α) (k : Nat) : Map α := m.filter (fun e => decide (e.1 ≠ k))

/-- Writes a value: the default is never listed. -/
def Map.set {α : Type} [DecidableEq α] (d : α) (m : Map α) (k : Nat) (v : α) : Map α :=
  if v = d then Map.del m k else Map.put m k v

/-- The canonical form: keys strictly rising, no default listed. -/
def Map.wf {α : Type} [DecidableEq α] (d : α) : Map α → Bool
  | [] => true
  | [(_, v)] => decide (v ≠ d)
  | (k, v) :: (k', v') :: r => decide (v ≠ d) && decide (k < k') && Map.wf d ((k', v') :: r)

end Sys2Proof.Machine
end

