-- ==== Sys2Proof/Machine/State.lean ====
section
/-! DEFINITION. Sys2Proof/Machine/State.lean: everything the spec gives the machine, as plain data, and its state at reset.
Sparse parts are `Map`s whose unlisted keys hold a stated default. Times are in units of 1/60 ns, in which one cycle of a
sector at ratio H, M or L is 60, 75 or 100 units and a Pilot cycle is 40 (R27). -/
namespace Sys2Proof.Machine
open Sys2Proof

/-- Why the machine stops with a fault. The spec's own faults are holds and records, which are next states. -/
inductive Fault
  /-- `xg.evsig` with the reserved kind 3 (R313), raised by its meaning. Safe: the spec gives no effect. -/
  | reservedSignalKind
  deriving DecidableEq, Repr

/-- Why the model refuses a step. -/
inductive Refusal
  /-- An instruction whose meaning is not written yet; raised by `exec` only. Safe. -/
  | notModelled (mnemonic : String)
  deriving DecidableEq, Repr

/-- Token kinds (R41, R42). -/
inductive Kind | data | last | done | poison
  deriving DecidableEq, Repr

/-- A token (R41): parity bit, version, kind, payload. `deps` is the model's own: the ids of the requests and commands that
dependence-precede it (R130), read by `fence` alone. -/
structure Token where
  par : Bool
  ver : BitVec 4
  kind : Kind
  payload : Word
  deps : List Nat
  deriving DecidableEq, Repr

/-- A token on a link and the time before which it has not crossed (R17); for a DONE that `part` sends to its lanes, the cycle of the
step and the lane (R256). -/
structure LinkTok where
  ready : Nat
  tok : Token
  lane : Option (Nat × Nat)
  deriving DecidableEq, Repr

/-- A configuration plane (R62): the three banks as 16-bit fields, its version, the copy marks (R55), who loaded it (R166),
the index of the Timetable stream it holds (R165), and whether a field has a parity error (R358). -/
structure Plane where
  op : Map Half
  rt : Map Half
  ht : Map Half
  ver : BitVec 4
  marks : BitVec 16
  source : LoadSource
  stream : Nat
  bad : Bool
  deriving DecidableEq, Repr

/-- The shadow plane's state (R62). -/
inductive ShadowState
  | stale
  | opened
  | sealed (v : BitVec 4)
  deriving DecidableEq, Repr

/-- The state of one slot: iteration counter (R54), phase and firings in it (R57), stream state V, K, F, N (R239), whether
its segment is open for R58, the position of dealing (R56) and whether a copy still owes a DONE, and its issue count. -/
structure SlotState where
  iter : Nat
  phase : Nat
  phaseCount : Nat
  v : Word
  k : Nat
  f : Bool
  n : Nat
  openSeg : Bool
  dealNext : Nat
  issued : Nat
  delivered : Nat
  deriving DecidableEq, Repr

/-- The state of one route entry (R257): held token V with VALID, LOOP or HELD, the count C of `drop` (the low sum of an EXACT
`comb`), carry and phase of `comb`, the reduction time-out (the waiting input and the payload, R408), the input whose tokens are
discarded after it, the first cycle of the next step, the time since which one input of a `comb` waits, and the input that was still empty when its time was out,
where a token has come to it since (R408). -/
structure RouteState where
  v : Option Token
  loop : Bool
  c : Nat
  carry : Bool
  phase : Bool
  timeout : Option (Bool × Word)
  discard : Option Bool
  nextStep : Nat
  waitSince : Nat
  late : Option Bool
  deriving DecidableEq, Repr

/-- Where a result goes (R177: a channel, a register, a handle element), the write of a LOC store (R230), a token that the router hands to
the PE's channel (R48), an access of words that only takes its banks' turn (R114), and what an accumulator operator does (R271, R272): the zeroing
of a bank, or the store or load of its 32 elements, row by row from a byte offset with a pitch. -/
inductive ResDst
  | out (n : Nat)
  | chan (n : Nat)
  | reg (n : Nat)
  | store (off : Nat) (size : Nat) (swz : Nat)
  | write (off : Nat) (size : Nat) (swz : Nat)
  | fpstat
  | flagsOnly
  | accZero (bank : Nat)
  | ask (words : List Nat)
  | accStore (bank off pitch swz esz : Nat) (mod : BitVec 4)
  | accLoad (bank off pitch swz : Nat) (add : Bool)
  deriving DecidableEq, Repr

/-- What a LOC atomic writes back, with its ORD and SCOPE (R226, R233, R234). -/
inductive RmwOp
  | atomic (ty : Ty) (aop : Nat) (order : Nat) (scope : Nat) (a : Word)
  | cas (order : Nat) (scope : Nat) (expected new : Word)
  deriving DecidableEq, Repr

/-- A value still to be taken, in which cell and cycle: a LOC load at its bank (offset, size, swizzle, sign-extend; R230), a LOC atomic,
which also writes (R233), or elements of an accumulator bank (R271). A copy of a replicated slot takes it in its own cell (R55). -/
inductive Late
  | spad (cell cyc : Nat) (off : Nat) (size : Nat) (swz : Nat) (sx : Bool)
  | rmw (cell cyc : Nat) (off : Nat) (swz : Nat) (op : RmwOp)
  | acc (cell cyc : Nat) (bank : Nat) (p : Nat) (bf : Bool) (mod : BitVec 4)
  deriving DecidableEq, Repr

/-- A result in flight: the cycle of its result (R184), the slot, the destination, the word and the token it becomes,
a value still to be taken, the flags it raises (R93), what comes before it: the slot's decoupled entries (R53, R123) and, for a copy's token,
its effects in the copy's cell (R271); and the number by which it is itself named so (0: none). -/
structure Flight where
  due : Nat
  slot : Nat
  dst : ResDst
  val : BitVec 64
  tok : Option Token
  ld : Option Late
  flags : Flags
  after : List Nat
  mark : Nat
  deriving DecidableEq, Repr

/-- The last write of a cell to a word of 8 bytes, for the readers that may not see it yet (R139): the writing cell, the cell whose channels its
slot works for (R56), when, whether as an SC atomic and at which scope, the releases it carries (scope and cell of each; R134), and the word
before and after. -/
structure Written where
  cell : Nat
  home : Nat
  time : Nat
  sc : Bool
  scope : Nat
  rels : List (Nat × Nat)
  old : Nat
  new : Nat
  deriving DecidableEq, Repr

/-- A fence that has completed (R140): its request, MASK, scope, cell and time. -/
structure FenceDone where
  id : Nat
  mask : Nat
  scope : Nat
  cell : Nat
  time : Nat
  deriving DecidableEq, Repr

/-- A link's arbiter (R50): the sending side's cycle of the last send, how many went in it, and the VC served last. -/
structure LinkArb where
  cycle : Nat
  sent : Nat
  last : Nat
  deriving DecidableEq, Repr

/-- A scratchpad bank's arbiter (R114): the latest cycles in which it serves an access, the class it was granted to last (0 hub, 1 remote
and service, 2 MFU, 3 PE), and the classes that have asked in vain with the cycle of the asking. -/
structure BankArb where
  taken : List Nat
  cls : Nat
  asks : List (Nat × Nat)
  deriving DecidableEq, Repr

/-- One cell: registers, accumulators, flags, firing pointer, slots, route entries, planes, FIFOs, scratchpad with tags and
uncorrectable words, trigger, identity registers, counters, Roster, the arbiters of its links (R15, R39, R50, R171, R303, R312). `nextFire` is the first
cycle in which the PE may fire again (R52, R76). `freed` and `hist` are the model's own: by FIFO, the times of its latest removals, since room is
judged at the start of a cycle (R51), and by word of the scratchpad, the last write (R139). -/
structure Cell where
  g : Map Word
  a0 : Map Word
  a1 : Map Word
  fpstat : Flags
  ptr : Nat
  nextFire : Nat
  slots : Map SlotState
  routes : Map RouteState
  active : Plane
  shadow : Plane
  shadowState : ShadowState
  rin : Map (List Token)
  link : Map (List LinkTok)
  pin : Map (List Token)
  flight : List Flight
  spad : Map Byte
  hist : Map Written
  tags : List Nat
  badWords : List Nat
  trig : Nat
  trigDue : Bool
  narg : Word
  instId : Word
  stage : Nat
  cycle0 : Option Nat
  cycleSaved : Nat
  perf : Map Word
  psel : Map Word
  roster : Map Word
  transit : List (Nat × Nat × Nat × Nat)
  boundary : Map Bool
  arbs : Map LinkArb
  banks : Map BankArb
  freed : Map (List Nat)
  deriving DecidableEq, Repr

/-- A pending swap (R75): from a swap token with its version, or without a version check. -/
inductive SwapReq
  | token (v : BitVec 4)
  | plain
  deriving DecidableEq, Repr

/-- What a queued request asks (R123, R229 to R238, R279, R292 to R308). Handle number and element are kept for reports. -/
inductive ReqBody
  | load (glb : Bool) (signed : Bool)
  | store (glb : Bool) (value : BitVec 64)
  | atomic (glb : Bool) (ty : Ty) (aop : Nat) (order : Nat) (scope : Nat) (value : Word)
  | cas (glb : Bool) (order : Nat) (scope : Nat) (expected new : Word)
  | prefetch
  | fence (mask : Nat) (scope : Nat) (waits : List Nat) (pairs : List (Nat × Nat))
  | bari (expected : Word)
  | bara (scope : Nat) (count : Word) (pairs : List (Nat × Nat))
  | barw (scope : Nat) (parity : Word)
  | ringi (logn : Word)
  | ringf (producer : Bool)
  | ringr (producer : Bool)
  | copyw (waits : List Nat)
  | engine (cmd : Nat)
  | grammar (cmd : Nat)
  | sub (handle : Nat)
  | unsub (handle : Nat)
  | sflush (pairs : List (Nat × Nat))
  | tenq (record : BitVec 512)
  | tlnch (target : Nat) (packet : BitVec 512)
  | send (payload : Word) (kind : Kind) (target : Word)
  | rgreq (record : BitVec 64)
  | rrpop
  deriving DecidableEq, Repr

/-- How far a request has come. -/
inductive ReqStage
  | issued              -- not yet translated or sent
  | translated (pa : Nat)
  | waiting             -- at the unit, its condition not met
  | snapshot            -- a `sub` whose snapshot runs
  | answered            -- performed, its answer back
  | faulted (code : Nat)
  deriving DecidableEq, Repr

/-- One entry of a cell's decoupling queue (R123), from issue to delivery. `order` is its place among its slot's entries, `arrived`
the place of its arrival at the unit it waits at, `readyAt` the time before which its answer is not back (R124), `back` the time that the token of a
copy takes to its configured cell (R185), `leaf` the log2 size of the page its translation used (R122), and `atHub`
tells that its hub has taken it, in the order of v24 (R47). `hops` counts the links its service tokens have crossed, on v26 or v31 to its target and
on v27 back, and `hopAt` is when the last of them came to its router (R17, R47). -/
structure Req where
  id : Nat
  cell : Nat
  slot : Nat
  order : Nat
  inst : Nat
  asid : Nat
  body : ReqBody
  stage : ReqStage
  handle : Nat
  elem : Nat
  named : Bool
  loc : Bool
  addr : Nat
  size : Nat
  swz : Nat
  dst : Dst
  dstOff : Nat
  kind : Kind
  deps : List Nat
  result : BitVec 64
  operands : List (Option Token)
  retired : Bool
  remote : Bool
  sentAt : Nat
  wlvl : Nat
  paused : Bool
  arrived : Nat
  readyAt : Nat
  back : Nat
  leaf : Nat
  atHub : Bool
  hops : Nat
  hopAt : Nat
  deriving DecidableEq, Repr

/-- A channel laid for a grid point (R154): its transit entries (cell, inbound port and VC, outbound port and VC), its source cell
and channel, and the instance it ends at, in another node if `xnode`. -/
structure LaidChan where
  hops : List (Nat × Nat × Nat × Nat × Nat)
  src : Nat
  soc : Nat
  dest : Nat
  xnode : Bool
  deriving DecidableEq, Repr

/-- What the Timetable still loads into a patch and swaps in there (R162, R172): a cleared plane under a version, or a stream by its number, before which
it may need a cleared one. -/
inductive PlaneLoad
  | clear (v : Nat)
  | stream (k : Nat) (mayClear : Bool)
  deriving DecidableEq, Repr

/-- A resident instance (R38 to R40, R58 to R60): the job, node and grid point, its patch, allotments, drain and hold; since when it
stands at a drain point with a swap pending (R76), the last SEAL executed for its patch (R377), whether R166 bars it from
pre-emption, whether a preload is due (R165), the planes still to be loaded while it is placed, and whether the first of them is SEALED (R162), the channels laid from it, the waits withdrawn by a drain (R169), and while PREEMPT drains it the hold with the sites that stay
held (R354). -/
structure Inst where
  id : Nat
  job : Nat
  node : Nat
  gid : Nat
  stage : Nat
  sector : Nat
  x0 : Nat
  y0 : Nat
  w : Nat
  h : Nat
  spad : Nat
  slateBase : Nat
  slateLen : Nat
  nhnd : Nat
  nbar : Nat
  nring : Nat
  slive : Bool
  npre : Bool
  fixed : Bool
  asid : Nat
  swap : Option SwapReq
  preempt : Bool
  drainSince : Nat
  atPoint : Option Nat
  yielding : Bool
  hold : Option Nat
  retired : Bool
  started : Bool
  absorbed : Bool
  actIdx : Nat
  lastActive : Nat
  parkReserved : Bool
  parked : Bool
  placedAt : Nat
  restoreStep : Nat
  frame : Option Nat
  lastSeal : Option (BitVec 4 × Bool)
  debugHeld : Bool
  barred : Bool
  needPreload : Bool
  loads : List PlaneLoad
  loaded : Bool
  chans : List LaidChan
  withdrawn : List Req
  releasing : Option Nat
  heldSites : List (Nat × Nat)
  deriving DecidableEq, Repr

/-- A granule that a batch of list positions found (R121, R297): the batch, the granule, its physical base, the log2 size of the page used,
and the time from which it is at hand (R124). -/
structure XlEntry where
  batch : Nat
  granule : Nat
  pa : Nat
  lg : Nat
  ready : Nat
  deriving DecidableEq, Repr

/-- A fault that a command met while a pre-emption suspends it (R384): its record names the frame of the save and waits for it. -/
structure MetFault where
  code : Nat
  lvl : Nat
  d0 : Nat
  d1 : Nat
  time : Nat
  deriving DecidableEq, Repr

/-- Engine command kinds (R294). -/
inductive CmdKind | copy | gath | scat | embr
  deriving DecidableEq, Repr

/-- How far an engine command has come. -/
inductive CmdStage | queued | active | suspending | suspended | held | finished
  deriving DecidableEq, Repr

/-- A copy, gather, scatter or embedding command (R288 to R298): its descriptor and the place that was read from
(R388), issuer, cursor, counts and signals; `shipped` list positions its hub has gone through and `sent` those whose index it sent to an
owner, with the lane (R296, R324), `fetched` the rows read at their port ahead of their return, `translated` and `xl` the positions its batches
have and the granules they found (R297), `asked` by index lane the sectors of the next unit that have had their banks' turn (R114), and `paid` the
bytes of it that the arbiter has admitted (R334). `retry` tells that a RESUME has let it try its cursor again, `met` what it met while it was
being suspended (R384), and `sentAt` when it last sent a request to another package (R406). -/
structure Cmd where
  id : Nat
  kind : CmdKind
  stage : CmdStage
  sector : Nat
  cell : Nat
  slot : Nat
  inst : Option Nat
  node : Option Nat
  job : Nat
  asid : Nat
  x0 : Nat
  y0 : Nat
  w : Nat
  h : Nat
  desc : List Byte
  home : Nat
  cursor : Nat
  written : Nat
  counted : Nat
  accepted : Bool
  ringDone : Bool
  lanes : List Nat
  laneDone : List Bool
  shipped : Nat
  sent : List (Nat × Nat)
  fetched : List (Nat × List Byte)
  translated : Nat
  xl : List XlEntry
  asked : Map Nat
  paid : Nat
  hold : Option Nat
  retry : Bool
  met : Option MetFault
  sentAt : Nat
  deps : List Nat
  retired : Bool
  deriving DecidableEq, Repr

/-- A grammar command's operation (R279, R417). -/
inductive GveOp | eval | load | read | clear
  deriving DecidableEq, Repr

/-- A command of a sector's GVE (R278 to R280): operands and the place they were read from (R388), cursor, flags raised, issuer; `retry` and `met`
as for an engine command. -/
structure GveCmd where
  id : Nat
  op : GveOp
  running : Bool
  suspended : Bool
  cell : Nat
  slot : Nat
  inst : Option Nat
  node : Option Nat
  job : Nat
  asid : Nat
  image : List Byte
  home : Nat
  slateBase : Nat
  slateLen : Nat
  cursor : Nat
  flags : Flags
  result : Word
  hold : Option Nat
  retry : Bool
  met : Option MetFault
  retired : Bool
  paid : Nat
  deps : List Nat
  deriving DecidableEq, Repr

/-- A Slate entry (R273). -/
structure SlateEntry where
  valid : Bool
  depth : Nat
  lanes : List Word
  bad : Bool
  deriving DecidableEq, Repr

/-- An edge read of a product that waits for its bank (R263, R264, R114): the step or block it belongs to, what it reads (0 the A word,
1 and 2 the B words, 3 to 6 the A scales, 8 to 15 the B scales), and where. -/
structure EdgeRead where
  step : Nat
  what : Nat
  cell : Nat
  off : Nat
  size : Nat
  swz : Nat
  deriving DecidableEq, Repr

/-- What the side adder finds in a column's list for a step (R270, R390): the entries it applies as (KX, column j, VAL), the index of a
bad entry, or an uncorrectable word. -/
inductive Outliers
  | apply (l : List (Nat × Nat × Nat))
  | bad (idx : Nat)
  | unread (off : Nat)
  deriving DecidableEq, Repr

/-- The lane words of a step on their way through the array, by edge cell and word, and the outliers by column (R258, R270). -/
structure LaneRow where
  step : Nat
  words : Map Nat
  outs : Map Outliers
  deriving DecidableEq, Repr

/-- A matrix product in flight (R265 to R270): its operator, K and the steps n of a pass, the earliest T0, whether it is granted
(R335) and started. It runs by ticks: tick 0 reads the operands of step 0, 8 ticks later for GQ4 (R263, R264), and wave t, which performs
step t - 1 - skew of each cell, is 4 ticks after the reads of step t. `nextAt` is the cycle of the next tick; then its passes (group and row range), WB, the cursors at issue, the kind of its token, the reads not yet granted, the
lane words and scales under way, and whether a fault stopped it. -/
structure Product where
  id : Nat
  inst : Nat
  cell : Nat
  slot : Nat
  opc : Nat
  f : OpFields
  kEls : Nat
  n : Nat
  earliest : Nat
  granted : Bool
  started : Bool
  tick : Nat
  nextAt : Nat
  passes : List (Nat × Nat × Nat)
  wb : Nat
  curA : Map Nat
  curB : Map Nat
  curSA : Map Nat
  curSB : Map Nat
  kind : Kind
  pay : Word
  deps : List Nat
  todo : List EdgeRead
  rows : List LaneRow
  scales : Map Nat
  failed : Bool
  deriving DecidableEq, Repr

/-- A weight-record write that failed (R409): slot, token, weight, whether it adds, the address space, and its hold. -/
structure GrantWrite where
  slot : Nat
  token : Nat
  wt : Nat
  dup : Bool
  asid : Nat
  root : Nat
  hid : Nat
  deriving DecidableEq, Repr

/-- A grant-table entry (R310, R314). -/
structure Grant where
  expert : Nat
  cap : Nat
  used : Nat
  defc : Nat
  round : Nat
  opened : Bool
  wbase : Nat
  granted : List (Nat × Nat)
  stuck : Option GrantWrite
  deriving DecidableEq, Repr

/-- An item of a routing-record queue: a record, or an end marker. -/
inductive RoutingItem
  | record (r : BitVec 64)
  | endMarker
  deriving DecidableEq, Repr

/-- A closed update on its way from publisher to subscriber on v29 (R305): its sector's offset, mask and bytes, whether it is the park marker instead
(R306), whether its banks have been read (a sector of a snapshot awaits its turn, R114), the links it has crossed and when it came to its router. -/
structure Update where
  off : Nat
  mask : Nat
  bytes : List Byte
  marker : Bool
  ready : Bool
  hops : Nat
  hopAt : Nat
  deriving DecidableEq, Repr

/-- A subscription pair (R141, R303 to R306): publisher cell and Roster slot, subscriber cell and mirror handle, held
update, closed updates on their way, frame address while parked (of mirror byte offset 0), where the
slot's word lies in the frame of a pre-empted publisher, and the numbers of updates closed and applied so far. A publisher in another
package has the number `extPub`, that of no cell here, and its updates come with the turns; `asked` are the fences and arrivals that have asked it
for what came before them, and `synced` those it has answered (R142, log 129), of which number `markAt` is its park marker. So has a publisher that retired while its subscriber was parked, of
which only held frame writes are left (`gone`; R395). -/
structure Pair where
  id : Nat
  pub : Nat
  slot : Nat
  sub : Nat
  mirror : Nat
  regionBase : Nat
  regionLen : Nat
  regionSwz : Nat
  mirrorBase : Nat
  mirrorLen : Nat
  mirrorSwz : Nat
  heldSector : Option Nat
  heldMask : Nat
  heldBytes : List Byte
  heldSince : Nat
  queue : List Update
  live : Bool
  parked : Bool
  reserved : Bool
  frame : Option Nat
  frameLo : Nat
  saved : Bool
  pubFrame : Option Nat
  closed : Nat
  applied : Nat
  asked : Nat
  synced : Nat
  gone : Bool
  markAt : Nat
  deriving DecidableEq, Repr

/-- A translation-cache entry (R121): ASID, first granule, size as log2, physical base, permissions. -/
structure Tlb where
  asid : Nat
  va : Nat
  logSize : Nat
  pa : Nat
  w : Bool
  atm : Bool
  deriving DecidableEq, Repr

/-- A walker-cache entry: a non-leaf entry by ASID, level and the address bits that lead to it, with the level of the first entry
of its walk that withholds W and of the first that withholds ATM. -/
structure WalkEntry where
  asid : Nat
  level : Nat
  va : Nat
  next : Nat
  w : Option Nat
  atm : Option Nat
  deriving DecidableEq, Repr

/-- A stream that the Timetable sends to a loader (R162, R165): the instance whose patch it names, its address, the next of its words, the version of
a cleared plane if it is that, whether it is loaded to be placed, and whether it had anchored handles (R322). -/
structure TtLoad where
  inst : Nat
  va : Nat
  pos : Nat
  clear : Option Nat
  placing : Bool
  anchored : Bool
  deriving DecidableEq, Repr

/-- A sector's loader (R65 to R68, R78, R79, R362): the source it serves, how far its stream has come, the sources whose stream
has just sealed with the rectangle a SWAP would name, the sources whose commands are discarded (1: up to SEAL; 2: a SWAP that
follows), the stream's fields, the sources whose next command is literal (LIT), waiting commands, and the cycle in which the next
command is accepted. `waiting` are the sources whose BEGIN waits for the loader, with the cycle it came in, in the order served (R78);
`sealing` the rectangle sealed last and the cycle from which its planes are SEALED (R80), `tt` the stream that the Timetable sends or is to send. -/
structure Loader where
  serving : Option LoadSource
  begun : Bool
  opened : Bool
  ended : List (LoadSource × Nat × Nat × Nat × Nat)
  discarding : List (LoadSource × Nat)
  base : Nat
  w : Nat
  h : Nat
  x0 : Nat
  y0 : Nat
  bank : Nat
  lit : List LoadSource
  queue : List (LoadSource × BitVec 32)
  busyUntil : Nat
  status : Nat
  waiting : List (LoadSource × Nat)
  sealing : Option (Nat × Nat × Nat × Nat × Nat)
  tt : Option TtLoad
  deriving DecidableEq, Repr

/-- A swap token on its way to a patch (R66, R75). -/
structure SwapToken where
  x0 : Nat
  y0 : Nat
  w : Nat
  h : Nat
  v : BitVec 4
  source : LoadSource
  deriving DecidableEq, Repr

/-- SCTL.STATE (R332, R338). -/
inductive SectorMode | inService | closing | gated | calib
  deriving DecidableEq, Repr

/-- A sector hub with its registers (R20, R332 to R335). `portQ` are the requests that wait at the memory-side arbiters in arrival order
(R334), `guests` those of other packages among them with the bytes admitted so far; `copyLast` is the copy whose sector the engine issued last, `copyAt` the cycle of it and `copyN` the sectors issued in it (R293). `ratioCap` and `boardCap` are the caps in force, `almCap` and `procCap`
those the Almanac and the Proctor set when the power brake holds none (R337, R341); `stoppedAt` is the device time at which a ratio
change stopped the clock, and `stops` the spans of device time in which one did (R377, R397). -/
structure Sector where
  mode : SectorMode
  closed : Bool
  oosreq : Bool
  evac : Bool
  portQ : List Nat
  guests : List (Nat × Nat)
  copyLast : Nat
  copyAt : Nat
  copyN : Nat
  ratioReq : Nat
  ratioCap : Nat
  almCap : Nat
  ratio : Nat
  changing : Option Nat
  stoppedAt : Nat
  stops : List (Nat × Nat)
  cycBase : Nat
  timeBase : Nat
  calibSince : Nat
  budget : Nat
  boardCap : Nat
  procCap : Nat
  rem : Nat
  moved : Nat
  movedLast : Nat
  slewL : Nat
  slewC : Nat
  slewI : Nat
  slewAt : Nat
  grants : Map Grant
  lastGrant : Nat
  rrq : List RoutingItem
  loader : Loader
  swapTokens : List SwapToken
  slate : Map SlateEntry
  slateAllot : List (Nat × Nat × Nat)
  gve : List GveCmd
  tlb : List Tlb
  tripped : Bool
  coolRun : Nat
  hotRun : Nat
  deriving DecidableEq, Repr

/-- An Olpour port (R329, R330, R404): LCTL, LSTAT, sequence numbers, replay buffer, words waiting to be sent, flits sent, words
received for this package (VC, die and token), when ACK last advanced, the last IDLE came and went and lanes were last tested, and how
many steps down lane errors asked for during a width change (R330). `resent` counts by SEQ how often a flit was sent again (R404); `retrainAt` and `retrains` are when
the port went to RETRAIN and the spans of device time it spent there (R405). -/
structure Port where
  enabled : Bool
  wmax : Nat
  auto : Bool
  state : Nat
  width : Nat
  sheds : Nat
  replays : Nat
  txSeq : Nat
  rxSeq : Nat
  lastAck : Nat
  replay : List (Nat × List (BitVec 64))
  resent : Map Nat
  retrainAt : Nat
  retrains : List (Nat × Nat)
  nakSent : Bool
  target : Option Nat
  pendingDown : Nat
  exhausted : Bool
  outWords : List (BitVec 64)
  sent : List (List (BitVec 64))
  inbox : List (Nat × Nat × BitVec 39)
  ackAt : Nat
  idleSeen : Nat
  idleSent : Option Nat
  regainAt : Nat
  deriving DecidableEq, Repr

/-- A record of the ready pool, or waiting beside it (R155 to R161); `anchors` are the graph indices and active versions that the anchored
handles of its streams name (R322), once `scanned`. -/
structure PoolRec where
  key : Nat
  die : Nat
  job : Nat
  gidx : Nat
  dyn : Bool
  node : BitVec 512
  since : Nat
  inPool : Bool
  total : Nat
  nextGp : Nat
  live : Nat
  finished : Nat
  frames : List Nat
  running : Bool
  engineDone : Bool
  completed : Bool
  order : Nat
  anchors : List (Nat × Nat)
  scanned : Bool
  deriving DecidableEq, Repr

/-- A job (R14, R149 to R152); `spilled` counts the records its spill list has held (R151); `divert`: its records go to the Proctor (R399). -/
structure Job where
  key : Nat
  die : Nat
  queue : Nat
  packet : BitVec 512
  profiles : List (BitVec 256)
  tstart : Nat
  npre : Nat
  nflt : Nat
  aborted : Bool
  lost : Bool
  closed : Bool
  recordsDone : Nat
  spill : List Nat
  spilled : Nat
  debug : Bool
  divert : Bool
  deriving DecidableEq, Repr

/-- What a command save of a frame restores (R168, R169, R355): an engine command, a grammar command with the request that owes
its token, a held firing with the code of its fault and the tokens at the heads of its channels, a withdrawn wait or held access, or a product held by a fault. -/
inductive SaveItem
  | cmd (c : Cmd)
  | grammar (g : GveCmd) (r : Option Req)
  | firing (cell slot code : Nat) (toks : List (Option Nat × List Token))
  | access (r : Req)
  | product (p : Product)
  deriving DecidableEq, Repr

/-- A command save: whether it awaits service, and the value SUBST gave it. -/
structure Save where
  item : SaveItem
  faulted : Bool
  subst : Option Word
  deriving DecidableEq, Repr

/-- A frame of a context pool in use (R168, R170): what the Timetable knows of it beside its image in memory. `covers` holds, by cell, the
regions saved with the swizzle each was read through (base, end, SWZ; R111), `absorbed` whether the
instance has reported an absorbed POISON (R375), `bad` the offsets of uncorrectable words, and `deps` by route entry what its
held token depends on, which a drain does not change (R130, R143). -/
structure Frame where
  die : Nat
  idx : Nat
  node : Nat
  gid : Nat
  stage : Nat
  job : Nat
  sector : Nat
  x0 : Nat
  y0 : Nat
  fixed : Bool
  rangeAt : Nat
  covers : List (List (Nat × Nat × Nat))
  bad : List (List Nat)
  deps : List (List (Nat × List Nat))
  saves : List Save
  restored : Option Nat
  absorbed : Bool
  deriving DecidableEq, Repr

/-- Resources held for a record whose victim is being pre-empted (R160): the record, the victim's record and grid point, its
patches (sector, x0, y0, w, h), Slate entries by sector, and transit entries with their VCs (cell, in port and VC, out port and VC). -/
structure Reservation where
  key : Nat
  victim : Nat
  gid : Nat
  rects : List (Nat × Nat × Nat × Nat × Nat)
  slate : List (Nat × Nat)
  hops : List (Nat × Nat × Nat × Nat × Nat)
  deriving DecidableEq, Repr

/-- A fault record before it is written (R346): `claimed` tells that it has its sequence number, `tried` that its slot was not free (R350). `site` is the slot that faulted, in its own cell, `found` the time of detection, by which faults of
one cycle are joined (R345), `holdDie` the die of the hold, and `port` the router input whose token it concerns (R358). -/
structure FaultRec where
  code : Nat
  cont : Nat
  subok : Bool
  hid : Nat
  die : Nat
  sect : Nat
  x : Nat
  y : Nat
  srck : Nat
  job : Option Nat
  jobNo : Nat
  gid : Nat
  gidx : Nat
  dyn : Bool
  stage : Nat
  slot : Nat
  opw : BitVec 64
  time : Nat
  detail0 : BitVec 64
  detail1 : BitVec 64
  seq : Nat
  fq : Nat
  asid : Nat
  root : Nat
  claimed : Bool
  tried : Bool
  kept : Bool
  site : Option (Nat × Nat)
  found : Nat
  holdDie : Nat
  port : Option (Nat × Nat)
  deriving DecidableEq, Repr

/-- What a hold covers (R344, R354, R383). -/
inductive HoldKind
  | firing | request | routerToken | route | command | grammar | drain | watchdog | swap | swapStuck | park | plane | savedFiring
  | grant
  deriving DecidableEq, Repr

/-- A hold (R344 to R346, R356): `more` are the kinds of the faults that joined it, `ports` the router inputs at which it keeps a token
(cell, FIFO; R358). -/
structure Hold where
  hid : Nat
  die : Nat
  inst : Option Nat
  cmd : Option Nat
  kind : HoldKind
  more : List HoldKind
  code : Nat
  cont : Nat
  subok : Bool
  sites : List (Nat × Nat)
  ports : List (Nat × Nat)
  since : Nat
  written : Bool
  detail0 : BitVec 64
  detail1 : BitVec 64
  preempting : Bool
  recs : List FaultRec
  deriving DecidableEq, Repr

/-- The Pilot of a die (R22, R313): registers x1 to x31, pc, scratch, trap registers, the other control and status registers by number, the
count of instructions retired, the reservation of a load-reserved (address, bytes, value), its queues and the time an `xg.wfe`
began to wait. -/
structure Pilot where
  x : Map (BitVec 64)
  pc : BitVec 64
  scratch : Map Byte
  mepc : BitVec 64
  mcause : BitVec 64
  mtval : BitVec 64
  mtvec : BitVec 64
  csr : Map (BitVec 64)
  instret : BitVec 64
  resv : Option (Nat × Nat × Nat)
  logit : List (BitVec 64)
  event : List (BitVec 64)
  wfeSince : Option Nat
  reply : Option (BitVec 64)
  deriving DecidableEq, Repr

/-- A die (R22, R327), with the earlier values of TWUS, REDUS and DRUS by the time of the write that ended them: queue table, Timetable, context pool, control registers, notice list, holds, Pilot, walker cache. -/
structure Die where
  queueTable : Map (BitVec 128)
  doorbell : List Nat
  pool : List PoolRec
  lastSector : Option Nat
  reserved : List Reservation
  ctxcfg : BitVec 64
  rampctl : BitVec 32
  ramp : Map (BitVec 32)
  wdcfg : Nat
  frzlvl : Nat
  redus : Nat
  drus : Nat
  wdOld : List (Nat × Nat)
  redOld : List (Nat × Nat)
  drOld : List (Nat × Nat)
  xlBusy : Bool
  xlPending : List (Nat × Option Nat)
  factDone : Nat
  factRes : Nat
  factBusy : Option Nat
  factQueue : List (BitVec 64)
  notices : List (BitVec 64)
  lastNote : BitVec 64
  records : List FaultRec
  retryAt : Nat
  holds : List Hold
  frames : List Frame
  pilot : Pilot
  walker : List WalkEntry
  accessTable : Map (BitVec 32)
  twarn : Int
  ttrip : Int
  firmwarePilot : Nat
  firmwareMicro : Nat
  deriving DecidableEq, Repr

/-- A staged or running firmware image (R340): kind, bytes staged, request state. -/
structure Firmware where
  staged : List Byte
  kind : Nat
  pending : Option Nat
  since : Nat
  status : Nat
  version : Map Nat
  measured : Map Nat
  deriving DecidableEq, Repr

/-- What the FRU EEPROM at SMBus address 0x50 holds (R341): ordering code, serial number, and the module's board power limit in W. -/
structure Fru where
  orderingCode : List Byte
  serial : List Byte
  powerLimit : Nat
  deriving DecidableEq, Repr

/-- The Proctor (R339 to R343, R357). `brakeCaps`: the brake's caps are in force; `halved`: those of 0x0C03 are; `lossDue`: the records
whose loss of job, sector or package waits for a freeze to end (R411); `frzPin`: FRZ_N is low; `frzProctor`: the party that asked for a freeze. -/
structure Proctor where
  kept : List FaultRec
  challenged : Bool
  fwk : Firmware
  lastResponse : List Byte
  negotiated : Bool
  predictions : List Int
  corrected : Nat
  evsigDropped : Nat
  power : Nat
  powerHighSince : Option Nat
  brake : Bool
  brakeCaps : Bool
  halved : Bool
  lossDue : List FaultRec
  diverted : List (Nat × Nat)
  almanacAt : Nat
  powerAt : Nat
  freezeFuse : Bool
  freezeRun : Bool
  frzPin : Bool
  frzProctor : Option Nat
  debugEnable : Bool
  timeSet : Bool
  timeSource : Nat
  timeDiff : Int
  launched : Bool
  readout : List Byte
  fru : Fru
  doeHeld : Bool
  deriving DecidableEq, Repr

/-- Who takes the next turn. -/
inductive Agent
  | pe (cell : Nat)
  | entry (cell : Nat) (e : Nat)
  | loader (sector : Nat)
  | pilot (die : Nat)
  | event (i : Instr)
  deriving DecidableEq, Repr

/-- What the outside brings with an event: the unit addressed, a value, and data. -/
structure Input where
  die : Nat
  sector : Nat
  port : Nat
  queue : Nat
  offset : Nat
  size : Nat
  index : Nat
  value : BitVec 512
  flag : Bool
  words : List (BitVec 64)
  bytes : List Byte
  ints : List Int
  setting : Option Bool
  time : TimeRequest
  deriving DecidableEq, Repr

def Input.none : Input := ⟨0, 0, 0, 0, 0, 0, 0, 0, false, [], [], [], Option.none, .query⟩

/-- One turn: the time that passes before it, the agent that takes it, and what the outside brings. -/
structure Turn where
  dt : Nat
  agent : Agent
  input : Input
  deriving DecidableEq, Repr

/-- The whole machine. `turns`, `deferred`, `input`, `draws` and `nextId` are the model's own: the turns already chosen, the host's accesses
to a frozen package, which are performed once it runs again (R342), `doeQueue` the requests to the Proctor held while its firmware is replaced (R340),
what the outside brought with the present one, the number of free
values drawn so far, and the next unused id. `now` counts time as the reference clock does, `dev` the package's device time since its
reset, with the millionths of a unit in `devRem`: it runs `ppm` millionths faster than the reference clock, and `timeOff` is what the host has set it ahead by, in ns
(R343). `hist`, `fences` and `seen` are what the order of memory needs (R134 to R140): by word of memory the
last write of a cell, the fences that completed, and by cell the time up to which writes are visible to it. `vacated` holds by queue the times
of its latest removals, since room is judged at the start of a cycle (R51). `cut` are the seams that an integrator's carrier leaves unconnected, as a bit mask (R2, R18). -/
structure State where
  turns : List Turn
  deferred : List Turn
  doeQueue : List Turn
  input : Input
  draws : Nat
  nextId : Nat
  now : Nat
  dev : Nat
  devRem : Nat
  ppm : Int
  timeOff : Nat
  dies : Nat
  hbmStacks : Nat
  cut : Nat
  package : Nat
  cells : Map Cell
  sectors : Map Sector
  die : Map Die
  ports : Map Port
  oroute : Map Byte
  mem : Map Byte
  badMem : List Nat
  hist : Map Written
  fences : List FenceDone
  seen : Map Nat
  vacated : Map (List Nat)
  insts : List Inst
  jobs : List Job
  reqs : List Req
  cmds : List Cmd
  products : List Product
  pairs : List Pair
  proctor : Proctor
  meterAt : Nat
  msix : List Nat
  responses : List (BitVec 64)
  deriving DecidableEq, Repr

/-! Reset values. -/

/-- A plane as BEGIN with BASE = 0 leaves it: every field 0, w0 to w7 at 1.0 (R63, R68). The fields' defaults hold this. -/
def Plane.clear : Plane := ⟨[], [], [], 0, 0, .timetable, 0, false⟩

def SlotState.zero : SlotState := ⟨0, 0, 0, 0, 0, false, 0, false, 0, 0, 0⟩
def RouteState.zero : RouteState := ⟨none, false, 0, false, false, none, none, 0, 0, none⟩

/-- The first VC served after reset is 0 (log 27). -/
def LinkArb.reset : LinkArb := ⟨0, 0, 31⟩

/-- A bank that has granted nothing; the hub is the first class (log 5). -/
def BankArb.reset : BankArb := ⟨[], 3, []⟩

/-- A cell after reset (R63; g, a0, a1, FPSTAT and scratchpad: log 2, log 3). -/
def Cell.reset : Cell where
  g := []
  a0 := []
  a1 := []
  fpstat := 0
  ptr := 0
  nextFire := 0
  slots := []
  routes := []
  active := Plane.clear
  shadow := Plane.clear
  shadowState := .stale
  rin := []
  link := []
  pin := []
  flight := []
  spad := []
  hist := []
  tags := []
  badWords := []
  trig := 0
  trigDue := false
  narg := 0
  instId := 0
  stage := 0
  cycle0 := none
  cycleSaved := 0
  perf := []
  psel := []
  roster := []
  transit := []
  boundary := []
  arbs := []
  banks := []
  freed := []

def SlateEntry.reset : SlateEntry := ⟨false, 0, [0, 0, 0, 0], false⟩
def Grant.reset : Grant := ⟨0, 0, 0, 0, 0, false, 0, [], none⟩
def Loader.idle : Loader := ⟨none, false, false, [], [], 0, 0, 0, 0, 0, 0, [], [], 0, 0, [], none, none⟩

/-- A sector after reset: IN, ratio H, unmetered, ceiling 512 (R332, R334, R335). -/
def Sector.reset : Sector where
  mode := .inService
  closed := false
  oosreq := false
  evac := false
  portQ := []
  guests := []
  copyLast := 0
  copyAt := 0
  copyN := 0
  ratioReq := 0
  ratioCap := 0
  almCap := 0
  ratio := 0
  changing := none
  stoppedAt := 0
  stops := []
  cycBase := 0
  timeBase := 0
  calibSince := 0
  budget := 0
  boardCap := 0
  procCap := 0
  rem := 0
  moved := 0
  movedLast := 0
  slewL := 0
  slewC := 512
  slewI := 0
  slewAt := 0
  grants := []
  lastGrant := 0
  rrq := []
  loader := Loader.idle
  swapTokens := []
  slate := []
  slateAllot := []
  gve := []
  tlb := []
  tripped := false
  coolRun := 0
  hotRun := 0

/-- A port after reset: LCTL and LSTAT zero (R329). -/
def Port.reset : Port where
  enabled := false
  wmax := 0
  auto := false
  state := 0
  width := 0
  sheds := 0
  replays := 0
  txSeq := 0
  rxSeq := 4095
  lastAck := 4095
  replay := []
  resent := []
  retrainAt := 0
  retrains := []
  nakSent := false
  target := none
  pendingDown := 0
  exhausted := false
  outWords := []
  sent := []
  inbox := []
  ackAt := 0
  idleSeen := 0
  idleSent := none
  regainAt := 0

/-- A Pilot after reset (log 12). -/
def Pilot.reset : Pilot := ⟨[], 0, [], 0, 0, 0, 0, [], 0, none, [], [], none, none⟩

/-- A die after reset: RAMPCTL.CBASE 512 and every RAMP entry 512 (R335), TWUS 10,000 (R376), FRZLVL 7, REDUS 100,
DRUS 1,000 (R397), TWARN 95, TTRIP 105 (R337), the rest 0. -/
def Die.reset : Die where
  queueTable := []
  doorbell := []
  pool := []
  lastSector := none
  reserved := []
  ctxcfg := 0
  rampctl := 0x02000000
  ramp := []
  wdcfg := 10000
  frzlvl := 7
  redus := 100
  drus := 1000
  wdOld := []
  redOld := []
  drOld := []
  xlBusy := false
  xlPending := []
  factDone := 0
  factRes := 0
  factBusy := none
  factQueue := []
  notices := []
  lastNote := 0
  records := []
  retryAt := 0
  holds := []
  frames := []
  pilot := Pilot.reset
  walker := []
  accessTable := []
  twarn := 95
  ttrip := 105
  firmwarePilot := 0
  firmwareMicro := 0

def Proctor.reset : Proctor where
  kept := []
  challenged := false
  fwk := ⟨[], 0, none, 0, 0, [], []⟩
  lastResponse := []
  negotiated := false
  predictions := []
  corrected := 0
  evsigDropped := 0
  power := 0
  powerHighSince := none
  brake := false
  brakeCaps := false
  halved := false
  lossDue := []
  diverted := []
  almanacAt := 0
  powerAt := 0
  freezeFuse := false
  freezeRun := false
  frzPin := false
  frzProctor := none
  debugEnable := false
  timeSet := false
  timeSource := 0
  timeDiff := 0
  launched := false
  readout := []
  fru := ⟨"GX4-M".toList.map (fun c => BitVec.ofNat 8 c.toNat), [], 1500⟩
  doeHeld := false

/-- What an unlisted byte of memory reads as (log 6: the spec gives HBM no contents after reset). -/
def memDefault : Byte := 0

/-- The machine after reset: a GX4-P of four dies and eight stacks, package 0 of its pod, every cell, sector, die and port at
its reset value, nothing in memory, nothing running (R24, R63, R343). -/
def State.reset : State where
  turns := []
  deferred := []
  doeQueue := []
  input := Input.none
  draws := 0
  nextId := 1
  now := 0
  dev := 0
  devRem := 0
  ppm := 0
  timeOff := 0
  dies := 4
  hbmStacks := 255
  cut := 0
  package := 0
  cells := []
  sectors := []
  die := []
  ports := []
  oroute := []
  mem := []
  badMem := []
  hist := []
  fences := []
  seen := []
  vacated := []
  insts := []
  jobs := []
  reqs := []
  cmds := []
  products := []
  pairs := []
  proctor := Proctor.reset
  meterAt := 0
  msix := []
  responses := []

end Sys2Proof.Machine
end

