-- ==== Sys2Proof/Machine/Access.lean ====
section
/-! DEFINITION. Sys2Proof/Machine/Access.lean: the parts of the state by number, coordinates (R11, R19), clocks (R12, R27) and
free draws. -/
namespace Sys2Proof.Machine
open Sys2Proof

/-! Parts of the state. -/

def State.cell (s : State) (c : Nat) : Cell := Map.get Cell.reset s.cells c
def State.setCell (s : State) (c : Nat) (v : Cell) : State := { s with cells := Map.put s.cells c v }
def State.updCell (s : State) (c : Nat) (f : Cell → Cell) : State := s.setCell c (f (s.cell c))
def State.sector (s : State) (k : Nat) : Sector := Map.get Sector.reset s.sectors k
def State.setSector (s : State) (k : Nat) (v : Sector) : State := { s with sectors := Map.put s.sectors k v }
def State.updSector (s : State) (k : Nat) (f : Sector → Sector) : State := s.setSector k (f (s.sector k))
def State.dieAt (s : State) (d : Nat) : Die := Map.get Die.reset s.die d
def State.setDie (s : State) (d : Nat) (v : Die) : State := { s with die := Map.put s.die d v }
def State.updDie (s : State) (d : Nat) (f : Die → Die) : State := s.setDie d (f (s.dieAt d))
def State.port (s : State) (p : Nat) : Port := Map.get Port.reset s.ports p
def State.setPort (s : State) (p : Nat) (v : Port) : State := { s with ports := Map.put s.ports p v }
def State.updPort (s : State) (p : Nat) (f : Port → Port) : State := s.setPort p (f (s.port p))

def Cell.slot (c : Cell) (i : Nat) : SlotState := Map.get SlotState.zero c.slots i
def Cell.setSlot (c : Cell) (i : Nat) (v : SlotState) : Cell := { c with slots := Map.put c.slots i v }
def Cell.route (c : Cell) (e : Nat) : RouteState := Map.get RouteState.zero c.routes e
def Cell.setRoute (c : Cell) (e : Nat) (v : RouteState) : Cell := { c with routes := Map.put c.routes e v }
/-- A general register g0 to g15. -/
def Cell.reg (c : Cell) (n : Nat) : Word := Map.get 0 c.g n
def Cell.setReg (c : Cell) (n : Nat) (v : Word) : Cell := { c with g := Map.set 0 c.g n v }
/-- An accumulator element: bank 0 or 1, index 8i + j (R258). -/
def Cell.acc (c : Cell) (bank : Nat) (p : Nat) : Word := Map.get 0 (if bank = 0 then c.a0 else c.a1) p
def Cell.setAcc (c : Cell) (bank : Nat) (p : Nat) (v : Word) : Cell :=
  if bank = 0 then { c with a0 := Map.set 0 c.a0 p v } else { c with a1 := Map.set 0 c.a1 p v }
/-- The PE inbound channel i0 to i31. -/
def Cell.chan (c : Cell) (n : Nat) : List Token := Map.get [] c.pin n
def Cell.setChan (c : Cell) (n : Nat) (q : List Token) : Cell := { c with pin := Map.set [] c.pin n q }
/-- A FIFO key from port and VC. -/
def pvKey (port vc : Nat) : Nat := port * 32 + vc
/-- The router input FIFO of a port and VC. -/
def Cell.inFifo (c : Cell) (port vc : Nat) : List Token := Map.get [] c.rin (pvKey port vc)
def Cell.setInFifo (c : Cell) (port vc : Nat) (q : List Token) : Cell := { c with rin := Map.set [] c.rin (pvKey port vc) q }
/-- The tokens sent out of a mesh port on a VC that have not crossed yet. -/
def Cell.linkQ (c : Cell) (port vc : Nat) : List LinkTok := Map.get [] c.link (pvKey port vc)
def Cell.setLinkQ (c : Cell) (port vc : Nat) (q : List LinkTok) : Cell :=
  { c with link := Map.set [] c.link (pvKey port vc) q }

/-! Coordinates. -/

/-- Package coordinates of a cell number (R11). -/
def cellX (c : Nat) : Nat := c % 128
def cellY (c : Nat) : Nat := c / 128
def cellOf (px py : Nat) : Nat := px + 128 * py
/-- The die of a cell (R11). -/
def dieOfCell (c : Nat) : Nat := cellX c / 64 + 2 * (cellY c / 128)
/-- The package sector index of a cell (R19). -/
def sectorOfCell (c : Nat) : Nat := 16 * dieOfCell c + cellX c % 64 / 16 + 4 * (cellY c % 128 / 32)
/-- The die of a package sector index (R19). -/
def dieOfSector (k : Nat) : Nat := k / 16
/-- Package coordinates of a sector's north-west cell. -/
def sectorPx (k : Nat) : Nat := 64 * (k / 16 % 2) + 16 * (k % 4)
def sectorPy (k : Nat) : Nat := 128 * (k / 32) + 32 * (k % 16 / 4)
/-- The cell at (x, y) of a sector. -/
def cellInSector (k x y : Nat) : Nat := cellOf (sectorPx k + x) (sectorPy k + y)
/-- A die of this package exists (R24). -/
def State.dieExists (s : State) (d : Nat) : Bool := decide (d < s.dies)

/-- The seam that a link between two cells crosses, if it crosses one (R25): 0 and 1 between the dies of the upper and of the lower row, 2 and 3
between those of the left and of the right column. -/
def seamOf (a b : Nat) : Option Nat :=
  if dieOfCell a = dieOfCell b then none
  else if dieOfCell a / 2 = dieOfCell b / 2 then some (dieOfCell a / 2)
  else some (2 + dieOfCell a % 2)

/-- A link between two cells is there: an integrator's carrier may leave a die edge unconnected (R18). -/
def State.joined (s : State) (a b : Nat) : Bool :=
  match seamOf a b with
  | none => true
  | some e => s.cut / 2 ^ e % 2 == 0

/-- The neighbour through a mesh port 0 to 3, if the position lies in the array and the link is there (R16, R18, R24). -/
def State.neighbour (s : State) (c port : Nat) : Option Nat :=
  let x := cellX c
  let y := cellY c
  let r := match port with
    | 0 => if y = 0 then none else some (cellOf x (y - 1))
    | 1 => if x = 127 then none else some (cellOf (x + 1) y)
    | 2 => if y = 255 then none else some (cellOf x (y + 1))
    | 3 => if x = 0 then none else some (cellOf (x - 1) y)
    | _ => none
  match r with
  | some n => if s.dieExists (dieOfCell n) && s.joined c n then some n else none
  | none => none

/-- The port by which a token sent through `port` enters the neighbour. -/
def oppositePort (port : Nat) : Nat :=
  match port with
  | 0 => 2 | 1 => 3 | 2 => 0 | _ => 1

/-! Clocks. -/

/-- Length of a sector cycle in units at a ratio code (R27, R332). -/
def cycleUnits (ratio : Nat) : Nat := if ratio = 0 then 60 else if ratio = 1 then 75 else 100

/-- The sector's cycle count: it stands still while the clock is stopped (R333). -/
def State.cycle (s : State) (k : Nat) : Nat :=
  let t := s.sector k
  match t.changing with
  | some _ => t.cycBase
  | none => t.cycBase + (s.now - t.timeBase) / cycleUnits t.ratio

/-- Device time in ns (R343). -/
def State.deviceNs (s : State) : Nat := (s.dev / 60 + s.timeOff) % 2 ^ 64

/-- Puts a span of time among others, by its start. -/
def insertSpan (e : Nat × Nat) : List (Nat × Nat) → List (Nat × Nat)
  | [] => [e]
  | x :: rest => if e.1 ≤ x.1 then e :: x :: rest else x :: insertSpan e rest

/-- The time from a to b that lies in some of the spans. -/
def spanned (a b : Nat) (l : List (Nat × Nat)) : Nat :=
  ((l.foldr insertSpan []).foldl (fun (p : Nat × Nat) e =>
    if max p.1 e.1 < min b e.2 then (min b e.2, p.2 + (min b e.2 - max p.1 e.1)) else p) (a, 0)).2

/-- The spans of device time in which a sector's clock stood for a ratio change, up to now (R333). -/
def State.stopsOf (s : State) (k : Nat) : List (Nat × Nat) :=
  (match (s.sector k).changing with | some _ => [((s.sector k).stoppedAt, s.dev)] | none => []) ++ (s.sector k).stops

/-- The spans of device time that a port has spent in RETRAIN, up to now (R405). -/
def State.retrainsOf (s : State) (n : Nat) : List (Nat × Nat) :=
  (if (s.port n).state = 3 then [((s.port n).retrainAt, s.dev)] else []) ++ (s.port n).retrains

/-- How long a span of a sector's cells has run: the time in which its clock stood does not count (R377, R397), nor that in `more`. -/
def State.spanTime (s : State) (k since : Nat) (more : List (Nat × Nat)) : Nat := s.dev - since - spanned since s.dev (s.stopsOf k ++ more)

/-- The limit that governs a span begun at a time: a register's value then (R376, R397). -/
def limitAt (old : List (Nat × Nat)) (cur since : Nat) : Nat :=
  match old.find? (fun e => decide (since < e.1)) with
  | some e => e.2
  | none => cur

/-- Units in a microsecond. -/
def usUnits : Nat := 60000

/-- The freeze enable in force (R342). -/
def Proctor.freezeEnable (p : Proctor) : Bool := p.freezeFuse || p.freezeRun

/-- The package is frozen while either source asserts and the enable is set (R342). -/
def State.frozen (s : State) : Bool := s.proctor.freezeEnable && (s.proctor.frzPin || s.proctor.frzProctor.isSome)

/-- An access of the host to a frozen package waits until the freeze ends: nothing is discarded (R342). -/
def State.defer (s : State) (i : Instr) : State := { s with deferred := s.deferred ++ [⟨0, .event i, s.input⟩] }

/-- A sector works: its clock runs, it has power and nothing is frozen (R333, R338, R342). -/
def State.sectorRuns (s : State) (k : Nat) : Bool :=
  let t := s.sector k
  !s.frozen && t.changing.isNone && (t.mode == .inService || t.mode == .closing) && s.dieExists (dieOfSector k)

/-! Free values and ids. -/

/-- A free value below `n` (log 9), and the state that has drawn it. -/
def State.draw (s : State) (n : Nat) : Nat × State :=
  (Config.freeNat s.draws % n, { s with draws := s.draws + 1 })

/-- A new id. -/
def State.fresh (s : State) : Nat × State := (s.nextId, { s with nextId := s.nextId + 1 })

/-! Instances. -/

/-- The cell lies in the instance's patch. -/
def Inst.covers (i : Inst) (c : Nat) : Bool :=
  decide (sectorOfCell c = i.sector) &&
  decide (i.x0 ≤ cellX c % 16 ∧ cellX c % 16 < i.x0 + i.w) &&
  decide (i.y0 ≤ cellY c % 32 ∧ cellY c % 32 < i.y0 + i.h)

/-- The instance resident at a cell: placed and not retired. -/
def State.instAt (s : State) (c : Nat) : Option Inst := s.insts.find? (fun i => i.covers c && !i.retired)
/-- The patch at a cell, its retired instance not yet cleared included. -/
def State.patchAt (s : State) (c : Nat) : Option Inst := s.insts.find? (fun i => i.covers c)
def State.inst (s : State) (id : Nat) : Option Inst := s.insts.find? (fun i => i.id == id)
def State.setInst (s : State) (v : Inst) : State :=
  { s with insts := s.insts.map (fun i => if i.id = v.id then v else i) }
def State.updInst (s : State) (id : Nat) (f : Inst → Inst) : State :=
  { s with insts := s.insts.map (fun i => if i.id = id then f i else i) }
/-- The cells of a patch in ascending cell index `y<<4 | x`. -/
def Inst.cells (i : Inst) : List Nat :=
  (List.range i.h).flatMap (fun y => (List.range i.w).map (fun x => cellInSector i.sector (i.x0 + x) (i.y0 + y)))
def patchCells (k x0 y0 w h : Nat) : List Nat :=
  (List.range h).flatMap (fun y => (List.range w).map (fun x => cellInSector k (x0 + x) (y0 + y)))
/-- Position of a cell in the patch, and its cell index. -/
def Inst.relX (i : Inst) (c : Nat) : Nat := cellX c % 16 - i.x0
def Inst.relY (i : Inst) (c : Nat) : Nat := cellY c % 32 - i.y0
def Inst.cellIndex (i : Inst) (c : Nat) : Nat := 16 * i.relY c + i.relX c
/-- The cell of a cell index of the patch, if inside it. -/
def Inst.cellAt (i : Inst) (idx : Nat) : Option Nat :=
  if idx % 16 < i.w ∧ idx / 16 < i.h then some (cellInSector i.sector (i.x0 + idx % 16) (i.y0 + idx / 16)) else none
/-- A drain is under way (R58). -/
def Inst.draining (i : Inst) : Bool := i.swap.isSome || i.preempt || i.yielding

def State.job (s : State) (key : Nat) : Option Job := s.jobs.find? (fun j => j.key == key)
def State.updJob (s : State) (key : Nat) (f : Job → Job) : State :=
  { s with jobs := s.jobs.map (fun j => if j.key = key then f j else j) }
def State.req (s : State) (id : Nat) : Option Req := s.reqs.find? (fun r => r.id == id)
def State.updReq (s : State) (id : Nat) (f : Req → Req) : State :=
  { s with reqs := s.reqs.map (fun r => if r.id = id then f r else r) }

/-- Keys of the queues whose room is judged at the start of a cycle (R51, R286): a cell's decoupling queue, the engine's queue of a sector, and the
pool and the Pilot's logit queue of a die. -/
def queueOfCell (c : Nat) : Nat := c
def queueOfEngine (k : Nat) : Nat := 2 ^ 16 + k
def queueOfPool (d : Nat) : Nat := 2 ^ 17 + d
def queueOfLogit (d : Nat) : Nat := 2 ^ 18 + d

/-- Notes a removal from a queue: the place is no room before the next cycle (R51). -/
def State.noteVacated (s : State) (key : Nat) : State :=
  { s with vacated := Map.set [] s.vacated key ((s.now :: Map.get [] s.vacated key).take 32) }

def State.delReq (s : State) (id : Nat) : State :=
  { s with
    reqs := s.reqs.filter (fun r => r.id != id)
    vacated := match s.req id with
      | some r => (s.noteVacated (queueOfCell r.cell)).vacated
      | none => s.vacated }
def State.cmd (s : State) (id : Nat) : Option Cmd := s.cmds.find? (fun c => c.id == id)
def State.updCmd (s : State) (id : Nat) (f : Cmd → Cmd) : State :=
  { s with cmds := s.cmds.map (fun c => if c.id = id then f c else c) }
def State.delCmd (s : State) (id : Nat) : State := { s with cmds := s.cmds.filter (fun c => c.id != id) }
def State.pair (s : State) (id : Nat) : Option Pair := s.pairs.find? (fun p => p.id == id)
def State.updPair (s : State) (id : Nat) (f : Pair → Pair) : State :=
  { s with pairs := s.pairs.map (fun p => if p.id = id then f p else p) }
def State.poolRec (s : State) (d : Nat) (key : Nat) : Option PoolRec := (s.dieAt d).pool.find? (fun r => r.key == key)
def State.updPool (s : State) (d key : Nat) (f : PoolRec → PoolRec) : State :=
  s.updDie d (fun t => { t with pool := t.pool.map (fun r => if r.key = key then f r else r) })
/-- The die of an instance's patch. -/
def Inst.die (i : Inst) : Nat := dieOfSector i.sector

end Sys2Proof.Machine
end

