-- ==== Sys2Proof/Machine/Flits.lean ====
section
/-! DEFINITION. Sys2Proof/Machine/Flits.lean: the flits of an Olpour port and how they are sent (R329). -/
namespace Sys2Proof.Machine
open Sys2Proof

/-- A number as n bytes, lowest first. -/
def natBytes : Nat → Nat → List Byte
  | 0, _ => []
  | n + 1, v => BitVec.ofNat 8 v :: natBytes n (v / 256)


/-! Flits (R329). -/

/-- One bit of CRC-64 with the ECMA-182 polynomial, most significant bit first from 0 (log 63). -/
def crcBit (c : Nat) (b : Bool) : Nat :=
  let hi := decide (2 ^ 63 ≤ c)
  let d := c * 2 % 2 ^ 64
  if hi != b then d ^^^ 0x42F0E1EBA9EA3693 else d

/-- The eight bits of a byte. -/
def crcByte (c : Nat) (b : Byte) : Nat :=
  [7, 6, 5, 4, 3, 2, 1, 0].foldl (fun a i => crcBit a (b.getLsbD i)) c

/-- CRC-64 of bytes. -/
def crc64 (l : List Byte) : Nat := l.foldl crcByte 0

/-- A header word: SEQ, ACK and TYPE. -/
def flitHeader (seq ack type : Nat) : Nat := seq % 4096 * 2 ^ 52 + ack % 4096 * 2 ^ 40 + type % 16 * 2 ^ 36

/-- A flit of 32 words: header, 30 link words, CRC. -/
def mkFlit (seq ack type : Nat) (ws : List (BitVec 64)) : List (BitVec 64) :=
  let body := BitVec.ofNat 64 (flitHeader seq ack type) :: ((ws ++ List.replicate 30 0).take 30)
  body ++ [BitVec.ofNat 64 (crc64 (body.flatMap (fun w => natBytes 8 w.toNat)))]

/-- The CRC of a flit is right. -/
def flitOk (f : List (BitVec 64)) : Bool :=
  decide (f.length = 32) && (f.getD 31 0).toNat == crc64 ((f.take 31).flatMap (fun w => natBytes 8 w.toNat))

def flitSeq (f : List (BitVec 64)) : Nat := bitsN (f.getD 0 0).toNat 63 52
def flitAck (f : List (BitVec 64)) : Nat := bitsN (f.getD 0 0).toNat 51 40
def flitType (f : List (BitVec 64)) : Nat := bitsN (f.getD 0 0).toNat 39 36

/-! Sending. -/

/-- A flit leaves a port. -/
def Port.send (p : Port) (f : List (BitVec 64)) : Port := { p with sent := p.sent ++ [f] }

/-- DATA flits for the words that wait, while the replay buffer of 1,024 has room (R329). -/
def Port.pump (p : Port) (now : Nat) : Nat → Port
  | 0 => p
  | n + 1 =>
    if p.outWords.isEmpty ∨ 1024 ≤ p.replay.length ∨ p.state ≠ 2 then p else
    let ws := p.outWords.take 30
    let q : Port := { p with
      outWords := p.outWords.drop 30
      replay := p.replay ++ [(p.txSeq, ws)]
      txSeq := (p.txSeq + 1) % 4096
      ackAt := if p.replay.isEmpty then now else p.ackAt
      resent := Map.set 0 p.resent p.txSeq 0 }
    (q.send (mkFlit p.txSeq p.rxSeq 0 ws)).pump now n

/-- Sends every DATA flit of the replay buffer again, in order, and counts it for each (R404). -/
def Port.resend (p : Port) : Port :=
  p.replay.foldl (fun (a : Port) e => { (a.send (mkFlit e.1 a.rxSeq 0 e.2)) with resent := Map.set 0 a.resent e.1 (Map.get 0 a.resent e.1 + 1) }) p

/-- A port's service VCs as link words name them (R47, R329): memory requests, remote requests, signals, and messages. -/
def vcMemory : Nat := 24
def vcRemote : Nat := 26
def vcSignal : Nat := 28
def vcMessage : Nat := 31

/-- A request toward another package leaves as a link word of its VC, by the route's port (R329, R331); its die and the token it is carried by, which the
spec does not give, are free (log 131). -/
def State.sendWord (s : State) (pkg vc : Nat) : State :=
  let t := s.draw (2 ^ 39)
  let d := t.2.draw 4
  let w := BitVec.ofNat 64 ((vc - 24) * 2 ^ 61 + pkg % 64 * 2 ^ 55 + d.1 * 2 ^ 53 + t.1)
  d.2.updPort ((Map.get 0 s.oroute pkg).toNat % 16) (fun p => ({ p with outWords := p.outWords ++ [w] }).pump s.dev 1)

end Sys2Proof.Machine
end

