-- ==== Sys2Proof/Machine/Planes.lean ====
section
/-! DEFINITION. Sys2Proof/Machine/Planes.lean: the words held in a configuration plane (R69 to R73, R179 to R181) and the
handle descriptor (R105 to R107). -/
namespace Sys2Proof.Machine
open Sys2Proof

/-- What an unwritten RT field holds: the high halves of w0 to w7 are those of 1.0, the rest 0 (R68, R70). -/
def rtDefault (f : Nat) : Half := if 0x70 ≤ f ∧ f ≤ 0x7F ∧ f % 2 = 1 then 0x3F80 else 0

def Plane.opField (p : Plane) (f : Nat) : Half := Map.get 0 p.op f
def Plane.rtField (p : Plane) (f : Nat) : Half := Map.get (rtDefault f) p.rt f
def Plane.htField (p : Plane) (f : Nat) : Half := Map.get 0 p.ht f
def Plane.setOp (p : Plane) (f : Nat) (v : Half) : Plane := { p with op := Map.set 0 p.op f v }
def Plane.setRt (p : Plane) (f : Nat) (v : Half) : Plane := { p with rt := Map.set (rtDefault f) p.rt f v }
def Plane.setHt (p : Plane) (f : Nat) (v : Half) : Plane := { p with ht := Map.set 0 p.ht f v }

/-- Fields f, f+1, ... of a bank as one number, the first lowest. -/
def joinFields (get : Nat → Half) (f : Nat) : Nat → Nat
  | 0 => 0
  | n + 1 => joinFields get f n + (get (f + n)).toNat * 2 ^ (16 * n)

/-- Operator word of slot i (R69). -/
def Plane.opWord (p : Plane) (i : Nat) : BitVec 64 := BitVec.ofNat 64 (joinFields p.opField (4 * i) 4)
/-- Slot header of slot i (R179). -/
def Plane.header (p : Plane) (i : Nat) : Half := p.opField (0x40 + i)
/-- Phase-table entry e (R180). -/
def Plane.phaseEntry (p : Plane) (e : Nat) : Word := BitVec.ofNat 32 (joinFields p.opField (0x50 + 2 * e) 2)
/-- Constant kn (R69). -/
def Plane.konst (p : Plane) (n : Nat) : Word := BitVec.ofNat 32 (joinFields p.opField (0x60 + 2 * n) 2)
/-- Route entry e (R70, R181). -/
def Plane.routeWord (p : Plane) (e : Nat) : BitVec 48 := BitVec.ofNat 48 (joinFields p.rtField (3 * e) 3)
/-- Format byte of inbound channel n (R70, R71). -/
def Plane.fmtByte (p : Plane) (n : Nat) : Nat := (p.rtField (0x60 + n / 2)).toNat / 2 ^ (8 * (n % 2)) % 256
/-- Scale register wn (R70). -/
def Plane.scale (p : Plane) (n : Nat) : Word := BitVec.ofNat 32 (joinFields p.rtField (0x70 + 2 * n) 2)
/-- Trigger control and count (R72). -/
def Plane.trigCtl (p : Plane) : Half := p.rtField 0x80
def Plane.trigCount (p : Plane) : Nat := joinFields p.rtField 0x81 2
/-- Handle hn (R73). -/
def Plane.handleWord (p : Plane) (n : Nat) : BitVec 128 := BitVec.ofNat 128 (joinFields p.htField (8 * n) 8)

/-- Slot header fields (R179). -/
def hdrEn (h : Half) : Bool := h.getLsbD 15
def hdrRepl (h : Half) : Nat := bitsN h.toNat 14 9
def hdrRdir (h : Half) : Bool := h.getLsbD 8
def hdrNph (h : Half) : Nat := bitsN h.toNat 7 6
def hdrPtbase (h : Half) : Nat := bitsN h.toNat 5 3
def hdrReserved (h : Half) : Nat := bitsN h.toNat 2 0

/-- Phase-table entry fields (R180). -/
def phReserved (e : Word) : Nat := bitsN e.toNat 31 28
def phTy (e : Word) : Nat := bitsN e.toNat 27 24
def phOpc (e : Word) : Nat := bitsN e.toNat 23 16
def phCount (e : Word) : Nat := if bitsN e.toNat 15 0 = 0 then 65536 else bitsN e.toNat 15 0

/-- A handle's fields (R105). -/
structure Handle where
  lvl : Nat
  pub : Bool
  mir : Bool
  bar : Bool
  ring : Bool
  live : Bool
  swz : Nat
  esz : Nat
  rows : Nat
  cols : Nat
  cur : Nat
  pitch : Nat
  base : Nat
  deriving DecidableEq, Repr

/-- Reads a descriptor (R105). -/
def handleOf (v : Nat) : Handle where
  lvl := bitsN v 127 126
  pub := bitsN v 125 125 == 1
  mir := bitsN v 124 124 == 1
  bar := bitsN v 123 123 == 1
  ring := bitsN v 122 122 == 1
  live := bitsN v 121 121 == 1
  swz := bitsN v 120 118
  esz := bitsN v 117 116
  rows := bitsN v 115 104
  cols := bitsN v 103 92
  cur := bitsN v 91 76
  pitch := bitsN v 75 57
  base := bitsN v 56 0

def Plane.handle (p : Plane) (n : Nat) : Handle := handleOf (p.handleWord n).toNat

/-- Writes CUR: bits 91:76 lie in fields 8n + 4 and 8n + 5 (R73, R105). -/
def Plane.setCur (p : Plane) (n : Nat) (cur : Nat) : Plane :=
  let c := cur % 65536
  let f4 := (p.htField (8 * n + 4)).toNat % 4096 + c % 16 * 4096
  let f5 := (p.htField (8 * n + 5)).toNat / 4096 * 4096 + c / 16
  (p.setHt (8 * n + 4) (BitVec.ofNat 16 f4)).setHt (8 * n + 5) (BitVec.ofNat 16 f5)

/-- Elements a cursor passes: W of R230 (R107). -/
def Handle.wrap (h : Handle) : Nat := min ((h.rows + 1) * (h.cols + 1)) 65536
/-- Element size in bytes. -/
def Handle.size (h : Handle) : Nat := 2 ^ h.esz
/-- Byte offset of row i, column j (R107). -/
def Handle.offset (h : Handle) (i j : Nat) : Nat := h.base + i * h.pitch + j * h.size
/-- Byte offset of linear element e (R107). -/
def Handle.elem (h : Handle) (e : Nat) : Nat := h.offset (e / (h.cols + 1)) (e % (h.cols + 1))
/-- The region's end, a byte offset (R108). -/
def Handle.regionEnd (h : Handle) : Nat := h.base + h.rows * h.pitch + (h.cols + 1) * h.size

/-- The active plane's handle and cursor of a cell. -/
def Cell.handle (c : Cell) (n : Nat) : Handle := c.active.handle n
def Cell.setCur (c : Cell) (n cur : Nat) : Cell := { c with active := c.active.setCur n cur }
/-- Advances a cursor by k elements (R107). -/
def Cell.advance (c : Cell) (n k : Nat) : Cell :=
  c.setCur n (((c.handle n).cur + k) % (c.handle n).wrap)

/-! Scratchpad (R112, R113). -/

/-- Where a byte offset lies under a swizzle code: row * 32 + bank * 8 + byte (R112). -/
def spadKey (swz a : Nat) : Nat :=
  let b := a / 8 % 4
  let x := if swz = 0 then 0 else a / 2 ^ (3 + swz) % 4
  a / 32 * 32 + (b ^^^ x) * 8 + a % 8

def Cell.byte (c : Cell) (swz a : Nat) : Byte := Map.get 0 c.spad (spadKey swz a)
/-- n bytes from offset a, little-endian (R8). -/
def Cell.bytes (c : Cell) (swz a : Nat) : Nat → Nat
  | 0 => 0
  | n + 1 => c.bytes swz a n + (c.byte swz (a + n)).toNat * 2 ^ (8 * n)
/-- The bytes of a range. -/
def Cell.byteList (c : Cell) (swz a n : Nat) : List Byte := (List.range n).map (fun i => c.byte swz (a + i))
/-- The physical word of a byte offset: tags and protection are kept by word (R117, R358). -/
def spadWord (swz a : Nat) : Nat := spadKey swz a / 8
def Cell.tagged (c : Cell) (swz a : Nat) : Bool := c.tags.contains (spadWord swz a)
def Cell.badWord (c : Cell) (swz a : Nat) : Bool := c.badWords.contains (spadWord swz a)
/-- Some word of n bytes from a is tagged. -/
def Cell.anyTagged (c : Cell) (swz a n : Nat) : Bool := (List.range n).any (fun i => c.tagged swz (a + i))
def Cell.anyBad (c : Cell) (swz a n : Nat) : Bool := (List.range n).any (fun i => c.badWord swz (a + i))

/-- Writes n low bytes of v from offset a. -/
def Cell.putBytes (c : Cell) (swz a : Nat) (v : Nat) : Nat → Cell
  | 0 => c
  | n + 1 =>
    let c' := c.putBytes swz a v n
    { c' with spad := Map.set 0 c'.spad (spadKey swz (a + n)) (BitVec.ofNat 8 (v / 2 ^ (8 * n))) }
/-- A word written whole is no longer uncorrectable (R358). -/
def Cell.healWord (c : Cell) (swz a n : Nat) : Cell :=
  if n = 8 ∧ a % 8 = 0 then { c with badWords := c.badWords.filter (fun w => w != spadWord swz a) } else c
/-- Writes a list of bytes from offset a. -/
def Cell.putList (c : Cell) (swz a : Nat) : List Byte → Cell
  | [] => c
  | b :: r => Cell.putList { c with spad := Map.set 0 c.spad (spadKey swz a) b } swz (a + 1) r

/-! Tokens (R41, R43). -/

/-- The bits 37:0 of a token as a number. -/
def kindCode : Kind → Nat
  | .data => 0 | .last => 1 | .done => 2 | .poison => 3
def kindOfCode (n : Nat) : Kind :=
  match n % 4 with
  | 0 => .data | 1 => .last | 2 => .done | _ => .poison
def tokenBits (ver : BitVec 4) (k : Kind) (p : Word) : Nat := ver.toNat * 2 ^ 34 + kindCode k * 2 ^ 32 + p.toNat

/-- Parity of the lowest n bits. -/
def parityNat : Nat → Nat → Bool
  | 0, _ => false
  | n + 1, v => (v % 2 == 1) != parityNat n (v / 2)
/-- A token with correct even parity (R41, R43). -/
def mkToken (ver : BitVec 4) (k : Kind) (p : Word) (deps : List Nat) : Token :=
  ⟨parityNat 38 (tokenBits ver k p), ver, k, p, deps⟩
/-- The token passes the parity check (R43). -/
def Token.parityOk (t : Token) : Bool := t.par == parityNat 38 (tokenBits t.ver t.kind t.payload)
/-- All 39 bits (R41). -/
def Token.bits (t : Token) : Nat := (if t.par then 2 ^ 38 else 0) + tokenBits t.ver t.kind t.payload
/-- A token from its 39 bits. -/
def tokenOfBits (v : Nat) : Token :=
  ⟨v / 2 ^ 38 % 2 == 1, BitVec.ofNat 4 (v / 2 ^ 34), kindOfCode (v / 2 ^ 32), BitVec.ofNat 32 v, []⟩
/-- The same token under another kind and payload, parity regenerated. -/
def Token.retag (t : Token) (k : Kind) (p : Word) : Token := mkToken t.ver k p t.deps
/-- The same token under another version (R43). -/
def Token.restamp (t : Token) (v : BitVec 4) : Token := mkToken v t.kind t.payload t.deps

/-- Union of dependence stamps. -/
def mergeDeps (a b : List Nat) : List Nat := b.foldl (fun l x => if l.contains x then l else l ++ [x]) a

end Sys2Proof.Machine
end

