-- ==== Sys2Proof/Machine/Mem.lean ====
section
/-! DEFINITION. Sys2Proof/Machine/Mem.lean: the physical address space (R120, R24), page-table walks (R118, R119) and the
translation caches (R121, R122). -/
namespace Sys2Proof.Machine
open Sys2Proof

/-- Number of populated stacks M (R24). -/
def State.stackCount (s : State) : Nat := popNat 8 s.hbmStacks
/-- Bytes of HBM present in this package: 48 GiB for each populated stack (R24). -/
def State.hbmBytes (s : State) : Nat := 48 * 2 ^ 30 * s.stackCount
/-- A physical address is host memory (R120). -/
def paIsHost (pa : Nat) : Bool := pa / 2 ^ 51 % 2 == 1
/-- The package of an HBM address (R120). -/
def paPackage (pa : Nat) : Nat := pa / 2 ^ 45 % 64
/-- The offset within a package's HBM. -/
def paOffset (pa : Nat) : Nat := pa % 2 ^ 45
/-- The address exists: host memory, HBM of this package within its stacks, or 384 GiB of another package of the pod (R120, R24). -/
def State.paPresent (s : State) (pa : Nat) : Bool :=
  decide (pa < 2 ^ 52) &&
  (paIsHost pa ||
    (if paPackage pa = s.package then decide (paOffset pa < s.hbmBytes)
     else Config.podHas (paPackage pa) && decide (paOffset pa < 384 * 2 ^ 30)))

/-- The populated stack numbers in ascending order. -/
def State.stackList (s : State) : List Nat := (List.range 8).filter (fun k => s.hbmStacks / 2 ^ k % 2 == 1)
/-- The stack that holds an HBM offset of this package (R24, R120). -/
def State.stackOf (s : State) (o : Nat) : Nat :=
  let r := (o / 2 ^ 8 % 8) ^^^ (o / 2 ^ 18 % 8)
  (s.stackList.getD (r % (max 1 s.stackCount)) 0)

/-! Routes to other packages (R331, R406). -/

/-- What the route toward a package answers. -/
inductive RouteTo
  | open_
  | wait
  | fault (code d0 : Nat)

/-- The route of this package toward another (R331, R405, R406); the detail holds the package and the port of its entry. A full replay
buffer holds a request up (R329). What a request meets in the packages on its way comes with the turn: with `setting` it is answered
0x0901 or 0x0903 (log 46). -/
def State.routeTo (s : State) (pkg : Nat) : RouteTo :=
  let e := (Map.get 0 s.oroute pkg).toNat
  let p := s.port (e % 16)
  if e < 128 then .fault 0x0901 (pkg + e % 16 * 256)
  else if p.enabled = false ∨ p.state < 2 then .fault 0x0903 (pkg + e % 16 * 256)
  else if p.state = 3 ∨ 1024 ≤ p.replay.length then .wait
  else
    match s.input.setting with
    | some unrouted => .fault (if unrouted then 0x0901 else 0x0903) (pkg + e % 16 * 256)
    | none => .open_

/-- The port toward the time source, which another package is (R331, R343). -/
def State.timePort (s : State) : Option Nat :=
  let e := (Map.get 0 s.oroute s.proctor.timeSource).toNat
  if s.proctor.timeSource = s.package ∨ e < 128 then none else some (e % 16)

/-- An entry of OROUTE is written; device time runs free where it no longer leads to the time source by the same port (R331, R343). -/
def State.setRoute (s : State) (pkg : Nat) (e : Byte) : State :=
  let s1 : State := { s with oroute := Map.set 0 s.oroute pkg e }
  if s1.timePort = s.timePort then s1 else { s1 with ppm := 0 }

/-- One byte of memory; an unlisted one reads as `memDefault` (log 6). -/
def State.memByte (s : State) (pa : Nat) : Byte := Map.get memDefault s.mem pa
/-- n bytes from a physical address, little-endian (R8). -/
def State.memRead (s : State) (pa : Nat) : Nat → Nat
  | 0 => 0
  | n + 1 => s.memRead pa n + (s.memByte (pa + n)).toNat * 2 ^ (8 * n)
/-- Writes one byte; what a cell wrote to its word before is no longer the last write there. -/
def State.memSetByte (s : State) (pa : Nat) (b : Byte) : State :=
  { s with mem := Map.set memDefault s.mem pa b, hist := Map.del s.hist (pa / 8) }
/-- Writes the n low bytes of v. -/
def State.memWrite (s : State) (pa : Nat) (v : Nat) : Nat → State
  | 0 => s
  | n + 1 => (s.memWrite pa v n).memSetByte (pa + n) (BitVec.ofNat 8 (v / 2 ^ (8 * n)))
def State.memList (s : State) (pa n : Nat) : List Byte := (List.range n).map (fun i => s.memByte (pa + i))
def State.memPutList (s : State) (pa : Nat) : List Byte → State
  | [] => s
  | b :: r => (s.memSetByte pa b).memPutList (pa + 1) r

/-- Bytes as a number, the first lowest. -/
def bytesNat : List Byte → Nat
  | [] => 0
  | b :: r => b.toNat + 256 * bytesNat r

/-- The 32-byte sector at a physical address is marked uncorrectable (R358). -/
def State.memBad (s : State) (pa : Nat) : Bool := s.badMem.contains (pa / 32)

/-- What an access needs of its page (R119). -/
inductive Access | load | store | atomicLoad | atomicStore
  deriving DecidableEq, Repr

/-- The outcome of a walk: the leaf, with the level of the first entry that withholds W and that of the first that withholds ATM
(none: permitted) and the non-leaf entries read, or a code and the level (R119, R381). -/
inductive Walk
  | leaf (pa : Nat) (logSize : Nat) (w atm : Option Nat) (path : List WalkEntry)
  | fault (code : Nat) (level : Nat)
  deriving DecidableEq, Repr

/-- Lowest VA bit indexed at a level and the number of bits (R118). -/
def levelShift (l : Nat) : Nat := match l with | 0 => 45 | 1 => 33 | 2 => 29 | 3 => 21 | _ => 16
def levelBits (l : Nat) : Nat := match l with | 0 => 12 | 1 => 12 | 2 => 4 | 3 => 8 | _ => 5

/-- A 64-bit entry is a proper non-leaf entry of level l (R119). -/
def nonLeaf (e l : Nat) : Bool :=
  bitsN e 0 0 == 1 && bitsN e 1 1 == 0 && decide (l < 4) && bitsN e 63 52 == 0 && bitsN e 6 4 == 0

/-- The addresses of the entries that a walk of the levels listed reads, from a table on. -/
def State.walkReads (s : State) (va : Nat) : List Nat → Nat → List Nat
  | [], _ => []
  | l :: rest, table =>
    let ea := table + 8 * (va / 2 ^ levelShift l % 2 ^ levelBits l)
    if !s.paPresent ea then []
    else if !s.memBad ea && nonLeaf (s.memRead ea 8) l then ea :: s.walkReads va rest (bitsN (s.memRead ea 8) 51 7 * 128)
    else [ea]

/-- Walks the levels listed, from a table, with the permissions met so far (R118, R119). An entry in an uncorrectable sector faults as a read of
it does (R358). -/
def State.walkFrom (s : State) (asid va : Nat) : List Nat → Nat → Option Nat → Option Nat → List WalkEntry → Walk
  | [], _, _, _, _ => .fault 0x0305 4
  | l :: rest, table, w, atm, path =>
    let ea := table + 8 * (va / 2 ^ levelShift l % 2 ^ levelBits l)
    if !s.paPresent ea then .fault 0x0308 l else
    if s.memBad ea then .fault 0x0D04 l else
    let e := s.memRead ea 8
    let leaf := bitsN e 1 1 == 1
    let addr := bitsN e 51 7 * 128
    let off := fun (p : Option Nat) (b : Nat) => match p with
      | some k => some k
      | none => if bitsN e b b = 1 then none else some l
    let w' := off w 2
    let a' := off atm 3
    if bitsN e 0 0 = 0 then .fault 0x0304 l
    else if bitsN e 63 52 ≠ 0 ∨ bitsN e 6 4 ≠ 0 ∨ (leaf = true ∧ l = 0) ∨ (leaf = false ∧ l ≥ 4) then .fault 0x0305 l
    else if leaf then
      if addr % 2 ^ levelShift l ≠ 0 then .fault 0x0305 l
      else .leaf (addr + va % 2 ^ levelShift l) (levelShift l) w' a' path
    else s.walkFrom asid va rest addr w' a' (path ++ [⟨asid, l, va / 2 ^ levelShift l, addr, w', a'⟩])

/-- A whole walk from the root table (R118). `root` is PA bits 51:15 of the level-0 table. -/
def State.walk (s : State) (asid root va : Nat) : Walk := s.walkFrom asid va [0, 1, 2, 3, 4] (root * 2 ^ 15) none none []

/-- The permission check of an access (R119, R379): 0 if it passes. -/
def permCode (a : Access) (w atm : Bool) : Nat :=
  match a with
  | .load => 0
  | .store => if w then 0 else 0x0306
  | .atomicLoad => if atm then 0 else 0x0307
  | .atomicStore => if !atm then 0x0307 else if w then 0 else 0x0306

/-- A translation: a physical address, or a code and walk level (7 if no walk). -/
inductive Xlat
  | ok (pa : Nat)
  | miss
  | bad (code : Nat) (level : Nat)
  deriving DecidableEq, Repr

/-- Looks a virtual address up in the sector's translation cache (R121). -/
def State.tlbLook (s : State) (k asid va : Nat) (a : Access) : Xlat :=
  match (s.sector k).tlb.find? (fun t => t.asid == asid && t.va == va / 2 ^ t.logSize) with
  | none => .miss
  | some t =>
    let c := permCode a t.w t.atm
    if c ≠ 0 then .bad c 7 else .ok (t.pa + va % 2 ^ t.logSize)

/-- The log2 size of the page by which a sector's cache translates an address, a granule's where it holds none. -/
def State.leafSize (s : State) (k asid va : Nat) : Nat :=
  (((s.sector k).tlb.find? (fun t => t.asid == asid && t.va == va / 2 ^ t.logSize)).map Tlb.logSize).getD 16

/-- Where the die walker starts for an address: at the deepest non-leaf entry its cache holds, else at the root (R121): the levels to read,
the table, and the permissions met. -/
def State.walkStart (s : State) (d asid root va : Nat) : List Nat × Nat × Option Nat × Option Nat :=
  let hit := fun (l : Nat) => (s.dieAt d).walker.find? (fun e => e.asid == asid && e.level == l && e.va == va / 2 ^ levelShift l)
  match hit 3, hit 2, hit 1, hit 0 with
  | some e, _, _, _ => ([4], e.next, e.w, e.atm)
  | none, some e, _, _ => ([3, 4], e.next, e.w, e.atm)
  | none, none, some e, _ => ([2, 3, 4], e.next, e.w, e.atm)
  | none, none, none, some e => ([1, 2, 3, 4], e.next, e.w, e.atm)
  | none, none, none, none => ([0, 1, 2, 3, 4], root * 2 ^ 15, none, none)

/-- The walk of a miss by the die walker (R121). -/
def State.walkerWalk (s : State) (d asid root va : Nat) : Walk :=
  let b := s.walkStart d asid root va
  s.walkFrom asid va b.1 b.2.1 b.2.2.1 b.2.2.2 []

/-- The die whose ports serve an HBM offset of this package (R26). -/
def State.dieOfPa (s : State) (pa : Nat) : Nat := s.stackOf (paOffset pa) / 2

/-- The time that the Olpour hops of the route to a package take, request and response together (R124, R331), in ns: 70 for each; their number is
the pod's (log 114). -/
def podNs (pkg : Nat) : Nat := 70 * max 1 (Config.routeHops pkg)

/-- The unloaded time of a GLB read of a location from a die (R124), in ns: own die's stack, another die's, another package's, and host memory,
which is not bounded below. -/
def State.glbNs (s : State) (d pa : Nat) : Nat :=
  if paIsHost pa then 0
  else if paPackage pa ≠ s.package then 220 + podNs (paPackage pa)
  else if s.dieOfPa pa = d then 220 else 260

/-- The entries that the walk of a miss by the die walker reads. -/
def State.walkerReads (s : State) (d asid root va : Nat) : List Nat :=
  let b := s.walkStart d asid root va
  s.walkReads va b.1 b.2.1

/-- The time a walk takes beside the access (R124), in ns: 60, and one read for each level not found in the walker cache; one that faults reads up
to its failing entry. -/
def State.walkNs (s : State) (d asid root va : Nat) : Nat := (s.walkerReads d asid root va).foldl (fun n ea => n + s.glbNs d ea) 60

/-- The uncorrectable sector that the walk of a miss ends at (R358). -/
def State.walkBad (s : State) (d asid root va : Nat) : Nat := ((s.walkerReads d asid root va).getLast?.getD 0) / 32 * 32

/-- Enters an item in a list of at most `cap`, an entry the implementation chooses giving way (R121, log 13). -/
def cacheFill {α : Type} (l : List α) (cap choice : Nat) (v : α) : List α :=
  let i := choice % (l.length + 1)
  let kept := if i < l.length then l.eraseIdx i else l
  (v :: kept).take cap

/-- Enters a leaf in a sector's cache, and the path in the die's walker cache (R121). -/
def State.fill (s : State) (k asid va : Nat) (wk : Walk) : State :=
  match wk with
  | .fault _ _ => s
  | .leaf pa lg w atm path =>
    let (n, s1) := s.draw (2 ^ 32)
    let s2 := s1.updSector k (fun t => { t with tlb := cacheFill t.tlb 512 n ⟨asid, va / 2 ^ lg, lg, pa - va % 2 ^ lg, w.isNone, atm.isNone⟩ })
    s2.updDie (dieOfSector k) (fun t => { t with walker := path.foldl (fun l e => cacheFill l 256 n e) t.walker })

/-- Translates for an engine or the hub: cache, then walk and fill (R121, R382: a faulting walk enters nothing). -/
def State.translate (s : State) (k asid root va : Nat) (a : Access) : Xlat × State :=
  match s.tlbLook k asid va a with
  | .ok pa => (.ok pa, s)
  | .bad c l => (.bad c l, s)
  | .miss =>
    match s.walkerWalk (dieOfSector k) asid root va with
    | .fault c l => (.bad c l, s)
    | .leaf pa lg w atm path =>
      let c := permCode a w.isNone atm.isNone
      if c ≠ 0 then (.bad c ((if c = 0x0306 then w else atm).getD 7), s)
      else (.ok pa, s.fill k asid va (.leaf pa lg w atm path))

/-- Translates for the Timetable by a walk of its own: none where it faults or the address is absent (R146, R398). -/
def State.ttXlat (s : State) (asid root va : Nat) (a : Access) : Option Nat :=
  match s.walk asid root (va % 2 ^ 57) with
  | .fault _ _ => none
  | .leaf pa _ w atm _ => if permCode a w.isNone atm.isNone = 0 ∧ s.paPresent pa = true then some pa else none

/-- The first uncorrectable sector that n bytes from a physical address meet (R358). -/
def State.firstBad (s : State) (pa n : Nat) : Option Nat :=
  ((List.range ((pa % 32 + n + 31) / 32)).map (fun k => pa / 32 * 32 + 32 * k)).find? s.memBad

/-- Reads n bytes at a virtual address, each byte translated on its own; none where one fails, or lies in an uncorrectable sector (R358). -/
def State.vaBytes (s : State) (asid root va : Nat) : Nat → Option (List Byte)
  | 0 => some []
  | n + 1 =>
    match s.vaBytes asid root va n, s.ttXlat asid root (va + n) .load with
    | some l, some pa => if s.memBad pa then none else some (l ++ [s.memByte pa])
    | _, _ => none

/-- Reads n bytes at a virtual address that lie within one 64 KiB granule: one walk. -/
def State.vaBlock (s : State) (asid root va n : Nat) : Option (List Byte) :=
  if va % 65536 + n ≤ 65536 then
    match s.ttXlat asid root va .load with
    | some pa => if (s.firstBad pa n).isSome then none else some (s.memList pa n)
    | none => none
  else s.vaBytes asid root va n

/-- The uncorrectable sector that keeps n bytes at a virtual address from being read: one of theirs, or one of a page table on their walk (R358). -/
def State.unreadable (s : State) (asid root va n : Nat) : Option Nat :=
  (List.range n).findSome? (fun k =>
    match s.walk asid root ((va + k) % 2 ^ 57) with
    | .leaf pa _ _ _ _ => if s.paPresent pa && s.memBad pa then some (pa / 32 * 32) else none
    | .fault c _ =>
      if c = 0x0D04 then some (((s.walkReads ((va + k) % 2 ^ 57) [0, 1, 2, 3, 4] (root * 2 ^ 15)).getLast?.getD 0) / 32 * 32) else none)

/-- Writes bytes at a virtual address, byte by byte; unchanged where a byte fails. -/
def State.vaWrite (s : State) (asid root va : Nat) : List Byte → Option State
  | [] => some s
  | b :: r =>
    match s.ttXlat asid root va .store with
    | some pa => (s.memSetByte pa b).vaWrite asid root (va + 1) r
    | none => none

/-- A queue header as read, at its physical address; of one that crosses into another granule, its bytes in the first and the address that its start would
have in the second. -/
structure QHeader where
  pa : Nat
  far : Option (Nat × Nat)
  logn : Nat
  slots : Nat
  cidx : Nat
  ridx : Nat
  widx : Nat
  deriving DecidableEq, Repr

/-- The slot of a sequence number. -/
def QHeader.slot (h : QHeader) (n : Nat) : Nat := h.slots + 64 * (n % 2 ^ h.logn)

/-- Where a byte of a header lies. -/
def QHeader.byteAt (h : QHeader) (o : Nat) : Nat :=
  match h.far with
  | some e => if e.1 ≤ o then e.2 + o else h.pa + o
  | none => h.pa + o

/-- Reads a header in its address space: none where it does not translate for a write, or holds an uncorrectable sector (R358, log 52). -/
def State.findHeader (s : State) (asid root va : Nat) : Option QHeader :=
  let n := 65536 - va % 65536
  let readAt := fun (pa : Nat) (far : Option (Nat × Nat)) (v : Nat) =>
    QHeader.mk pa far (bitsN v 259 256) (bitsN v 248 192) (bitsN v 191 128) (bitsN v 127 64) (bitsN v 63 0)
  match s.ttXlat asid root va .store with
  | none => none
  | some pa =>
    if 64 ≤ n then (if (s.firstBad pa 64).isSome then none else some (readAt pa none (s.memRead pa 64)))
    else
      match s.ttXlat asid root (va + n) .store with
      | none => none
      | some p2 =>
        if (s.firstBad pa n).isSome ∨ (s.firstBad p2 (64 - n)).isSome then none
        else some (readAt pa (some (n, p2 - n)) (s.memRead pa n + s.memRead p2 (64 - n) * 2 ^ (8 * n)))

/-- Writes a field of 8 bytes of a header. -/
def State.putHeader (s : State) (h : QHeader) (o v : Nat) : State :=
  match h.far with
  | none => s.memWrite (h.pa + o) v 8
  | some _ => (List.range 8).foldl (fun (a : State) k => a.memSetByte (h.byteAt (o + k)) (BitVec.ofNat 8 (v / 2 ^ (8 * k)))) s

/-- Reads and checks a header (R399, R349); the failing address otherwise. -/
def State.readHeader (s : State) (asid root va : Nat) : Except Nat QHeader :=
  match s.findHeader asid root va with
  | none => .error va
  | some h => if h.logn < 4 ∨ h.slots % (64 * 2 ^ h.logn) ≠ 0 then .error va else .ok h

/-- Frees the uncorrectable mark of a 32-byte sector written whole (R358). -/
def State.healSector (s : State) (pa : Nat) : State :=
  { s with badMem := s.badMem.filter (fun b => b != pa / 32) }
/-- Frees the marks of the 32-byte sectors that a write of n bytes covers whole (R358). -/
def State.healRange (s : State) (pa n : Nat) : State :=
  if s.badMem.isEmpty then s else { s with badMem := s.badMem.filter (fun b => !(decide (pa ≤ 32 * b) && decide (32 * b + 32 ≤ pa + n))) }

end Sys2Proof.Machine
end

