-- ==== Sys2Proof/Machine/Order.lean ====
section
/-! DEFINITION. Sys2Proof/Machine/Order.lean: which values a read may return (R127 to R140): scope instances, the writes that a read is
visibility-ordered after, and the earlier value it may return where it is not. What is kept of the past is the last write of each word
(log 7). -/
namespace Sys2Proof.Machine
open Sys2Proof

/-- Codes of the classes of R125, as MASK numbers them (R236). -/
def clsFab : Nat := 0
def clsCpy : Nat := 1
def clsGat : Nat := 2
def clsGve : Nat := 3

/-- An agent or a point of coherence (R126, R129). -/
inductive Spot
  | cell (c : Nat)
  | hub (k : Nat)
  | mem (pa : Nat)
  deriving DecidableEq, Repr

/-- A spot lies in the instance of a scope that contains a cell (R128, R129). -/
def State.inScope (s : State) (scope cell : Nat) (x : Spot) : Bool :=
  match x with
  | .cell c =>
    if scope = 0 then c == cell
    else if scope = 1 then (s.insts.find? (fun i => !i.retired && i.covers cell)).any (fun i => i.covers c)
    else if scope = 2 then sectorOfCell c == sectorOfCell cell
    else if scope = 3 then dieOfCell c == dieOfCell cell else true
  | .hub k =>
    if scope ≤ 1 then false
    else if scope = 2 then k == sectorOfCell cell
    else if scope = 3 then dieOfSector k == dieOfCell cell else true
  | .mem pa =>
    if paIsHost pa then decide (6 ≤ scope)
    else if paPackage pa ≠ s.package then decide (5 ≤ scope)
    else if scope ≤ 2 then false
    else if scope = 3 then s.stackOf (paOffset pa) / 2 == dieOfCell cell else true

/-- A fence completed since a write covers the crossing from the cells' class to the engine's: both classes are in its mask, and its scope
instance contains both accesses (R137, R140). -/
def State.crossed (s : State) (w : Written) (loc : Spot) (cls hub : Nat) : Bool :=
  s.fences.any (fun f => f.mask % 2 == 1 && f.mask / 2 ^ cls % 2 == 1 && decide (w.time ≤ f.time) &&
    s.inScope f.scope f.cell (.cell w.cell) && s.inScope f.scope f.cell loc && s.inScope f.scope f.cell (.hub hub))

/-- A reader: an engine of a class at a hub, or an operator of a cell (with the cell its slot works for, whether it is an SC atomic, and its
scope), and since when writes are visible to it anyway: the placement of its instance. -/
inductive Reader
  | engine (cls hub : Nat) (since : Nat)
  | fabric (cell home : Nat) (sc : Bool) (scope : Nat) (since : Nat)

/-- A read is visibility-ordered after a write of a cell (R135, R139). The model takes a write as happening before all that a cell does once it
has received anything from outside since (log 7). -/
def State.visible (s : State) (w : Written) (loc : Spot) : Reader → Bool
  | .engine cls hub since => decide (w.time ≤ since) || s.crossed w loc cls hub
  | .fabric cell home sc scope since =>
    decide (w.time ≤ since) || w.home == home || decide (w.time ≤ Map.get 0 s.seen home) ||
    (w.sc && sc && w.scope == scope && s.inScope scope cell (.cell w.cell))

/-- Of the last writes to some words, the latest. -/
def latestWrite : List (Nat × Written) → Option (Nat × Written)
  | [] => none
  | e :: r => match latestWrite r with
    | some x => if e.2.time < x.2.time then some x else some e
    | none => some e

/-- Byte i of a number. -/
def byteOf (v i : Nat) : Byte := BitVec.ofNat 8 (v / 2 ^ (8 * i))

/-- What a read of bytes may find in place of the latest values: all as they were before the last write among their words, where that write is
one it is not visibility-ordered after. An access is performed whole (R115, R127), so nothing else is undone. `keys` are the addresses of the
bytes, and `writes` the last writes by word. -/
def State.priorBytes (s : State) (r : Reader) (loc : Spot) (writes : Map Written) (keys : List Nat) (new : List Byte) : List Byte :=
  let ws := ((keys.map (fun k => k / 8)).eraseDups).filterMap (fun k => (Map.find writes k).map (fun w => (k, w)))
  match latestWrite ws with
  | none => new
  | some (k, w) => if s.visible w loc r then new else (keys.zip new).map (fun e => if e.1 / 8 = k then byteOf w.old (e.1 % 8) else e.2)

/-- Of what a read finds and the earlier value it may return, one or the other: free where they differ. -/
def State.eitherOf (s : State) (new old : List Byte) : List Byte × State :=
  if new = old then (new, s)
  else
    let d := s.draw 2
    (if d.1 = 1 then old else new, d.2)

/-- What a reader finds in n bytes of memory (R139). -/
def State.readMem (s : State) (r : Reader) (pa n : Nat) : List Byte × State :=
  let new := s.memList pa n
  s.eitherOf new (s.priorBytes r (.mem pa) s.hist ((List.range n).map (fun i => pa + i)) new)

/-- What a reader finds in n bytes of a scratchpad (R139). -/
def State.readSpad (s : State) (r : Reader) (cell swz off n : Nat) : List Byte × State :=
  let c := s.cell cell
  let new := c.byteList swz off n
  s.eitherOf new (s.priorBytes r (.cell cell) c.hist ((List.range n).map (fun i => spadKey swz (off + i))) new)

/-- Who writes: the cell, the cell its slot works for, and the ORD and SCOPE of an atomic (R226). -/
structure Writer where
  cell : Nat
  home : Nat
  atomic : Option (Nat × Nat)

/-- A plain write of a cell. -/
def Writer.plain (c : Nat) : Writer := ⟨c, c, none⟩

/-- ORD names a release, or an acquire (R134). -/
def ordReleases (o : Nat) : Bool := o == 2 || o == 3 || o == 4
def ordAcquires (o : Nat) : Bool := o == 1 || o == 3 || o == 4

/-- The note of a write to a word. A read-modify-write passes on the releases it found there, whatever its own order (R134). -/
def Writer.note (w : Writer) (now : Nat) (found : Option Written) (old new : Nat) : Written :=
  let own := match w.atomic with
    | some (o, sc) => if ordReleases o then [(sc, w.cell)] else []
    | none => []
  let passed := if w.atomic.isSome then (found.map Written.rels).getD [] else []
  { cell := w.cell
    home := w.home
    time := now
    sc := w.atomic.any (fun a => a.1 == 4)
    scope := (w.atomic.map Prod.snd).getD 0
    rels := own ++ passed
    old := old
    new := new }

/-- The words of memory that n bytes lie in. -/
def wordsOf (pa n : Nat) : List Nat := ((List.range n).map (fun i => (pa + i) / 8)).eraseDups

/-- Writes n bytes of memory for a cell, and notes it. -/
def State.cellWrite (s : State) (w : Writer) (pa v n : Nat) : State :=
  let s1 := s.memWrite pa v n
  { s1 with hist := (wordsOf pa n).foldl (fun (m : Map Written) k =>
      Map.put m k (w.note s.now (Map.find s.hist k) (s.memRead (8 * k) 8) (s1.memRead (8 * k) 8))) s1.hist }

/-- Writes up to a time are visible to a cell from now on. -/
def State.see (s : State) (cell time : Nat) : State :=
  if Map.get 0 s.seen cell < time then { s with seen := Map.put s.seen cell time } else s

/-- A cell has received something from outside it: it sees what was performed before (R133, R136, R137; log 7). -/
def State.seeNow (s : State) (cell : Nat) : State := s.see cell s.now

/-- An atomic that acquires and has read a release, each within the other's scope instance, synchronises with it (R134): what was performed before
that release is visible behind it. `found` is the last write of the word read. -/
def State.acquireFrom (s : State) (w : Writer) (loc : Spot) (found : Option Written) : State :=
  match w.atomic, found with
  | some (o, scope), some x =>
    if ordAcquires o && x.rels.any (fun r => s.inScope r.1 r.2 (.cell w.cell) && s.inScope r.1 r.2 loc && s.inScope scope w.cell (.cell r.2) &&
        s.inScope scope w.cell loc) then s.see w.home x.time
    else s
  | _, _ => s

end Sys2Proof.Machine
end

