-- ==== Sys2Proof/Machine/Ops.lean ====
section
/-! DEFINITION. Sys2Proof/Machine/Ops.lean: the named operations over scratchpad, channels, results in flight, and TAKING A
FAULT: the record, the hold and their end (20_faults_model.md R344 to R348), drains (R58, R75) and retirement (R40). -/
namespace Sys2Proof.Machine
open Sys2Proof

/-! Packet and record fields. -/

def Job.asid (j : Job) : Nat := bitsN j.packet.toNat 95 80
def Job.root (j : Job) : Nat := bitsN j.packet.toNat 164 128
def Job.number (j : Job) : Nat := bitsN j.packet.toNat 127 96
def Job.fq (j : Job) : Nat := bitsN j.packet.toNat 440 384
def Job.graph (j : Job) : Nat := bitsN j.packet.toNat 248 192
def Job.nrec (j : Job) : Nat := bitsN j.packet.toNat 271 256 + 1
def Job.work (j : Job) : Nat := bitsN j.packet.toNat 504 448
def Job.irq (j : Job) : Bool := bitsN j.packet.toNat 72 72 == 1
def Job.seq (j : Job) : Nat := bitsN j.packet.toNat 63 0
def Job.order (j : Job) : Nat := bitsN j.packet.toNat 277 276
def Job.swz (j : Job) : Nat := bitsN j.packet.toNat 280 278

def nodeKind (n : BitVec 512) : Nat := bitsN n.toNat 63 62
def nodePrio (n : BitVec 512) : Nat := bitsN n.toNat 61 60
def nodeProf (n : BitVec 512) : Nat := bitsN n.toNat 59 56
def nodeStages (n : BitVec 512) : Nat := bitsN n.toNat 55 52 + 1
def nodeStreams (n : BitVec 512) : Nat := bitsN n.toNat 51 50 + 1
def nodePred (n : BitVec 512) : Nat := bitsN n.toNat 47 40
def nodeArg (n : BitVec 512) : Word := BitVec.ofNat 32 n.toNat
def nodeCfg (n : BitVec 512) (j : Nat) : Nat := bitsN n.toNat (127 + 64 * j) (64 + 64 * j)
def nodeCstr (n : BitVec 512) : Nat := bitsN n.toNat 335 320
def nodeGx (n : BitVec 512) : Nat := bitsN n.toNat 351 336 + 1
def nodeGy (n : BitVec 512) : Nat := bitsN n.toNat 367 352 + 1
def nodeGz (n : BitVec 512) : Nat := bitsN n.toNat 383 368 + 1
def nodeNsucc (n : BitVec 512) : Nat := bitsN n.toNat 511 505
def nodeSucc (n : BitVec 512) : Nat := bitsN n.toNat 504 448
def nodeNopd (n : BitVec 512) : Nat := bitsN n.toNat 447 444
def nodeOpd (n : BitVec 512) : Nat := bitsN n.toNat 440 384

/-! Scratchpad stores and subscription updates (R141, R303). -/

/-- Byte i of a held update's mask. -/
def maskBit (m i : Nat) : Bool := m / 2 ^ i % 2 == 1

/-- Replaces 32 bytes of an update where a mask says so. -/
def mergeBytes (old : List Byte) (mask : Nat) (new : List Byte) : List Byte :=
  (List.range 32).map (fun i => if maskBit mask i then new.getD i 0 else old.getD i 0)

/-- Closes a held update into the pair's stream (R141). -/
def Pair.close (p : Pair) (now : Nat) : Pair :=
  match p.heldSector with
  | none => p
  | some o => { p with
      queue := p.queue ++ [⟨o, p.heldMask, p.heldBytes, false, true, 0, now⟩]
      heldSector := none
      heldMask := 0
      heldBytes := []
      closed := p.closed + 1 }

/-- The number that stands for a publisher cell of another package. -/
def extPub (pkg cell : Nat) : Nat := 2 ^ 20 + pkg * 2 ^ 15 + cell
/-- The pair's publisher lies in another package. -/
def Pair.isExt (p : Pair) : Bool := decide (2 ^ 20 ≤ p.pub)

/-- The cell of the publisher: its own number, or within its package. -/
def Pair.pubCell (p : Pair) : Nat := p.pub % 2 ^ 15

/-- A region holds an offset: the handle's bytes, rounded outward to sectors (R303). -/
def Pair.publishesAt (p : Pair) (o : Nat) : Bool :=
  decide (p.regionBase / 32 * 32 ≤ o) && decide (o < (p.regionBase + p.regionLen + 31) / 32 * 32)

/-- A write at an offset joins the held update (R141). -/
def Pair.joins (p : Pair) (o cyc : Nat) : Bool := p.heldSector == some (o / 32 * 32) && decide (cyc < p.heldSince + 16)

/-- Notes one byte written at a published offset: it opens or joins the held update of its 32-byte sector, which is open for 16 cycles
(R141). -/
def Pair.note (p : Pair) (o : Nat) (b : Byte) (cyc now : Nat) : Pair :=
  if !p.publishesAt o then p else
  let sec := o / 32 * 32
  let p1 := if p.joins o cyc then p
    else { p.close now with heldSector := some sec, heldMask := 0, heldBytes := List.replicate 32 0, heldSince := cyc }
  let bit := 2 ^ (o - sec)
  { p1 with heldMask := p1.heldMask ||| bit, heldBytes := mergeBytes p1.heldBytes bit (List.replicate 32 b) }

/-- Forwards a store of bytes to the subscribers of the publishing cell (R141, R304). -/
def State.forward (s : State) (c off : Nat) (bs : List Byte) : State :=
  if s.pairs.any (fun p => p.pub == c && p.pubFrame.isNone) then
    let cyc := s.cycle (sectorOfCell c)
    { s with pairs := s.pairs.map (fun p =>
        if p.pub = c ∧ p.pubFrame = none then (bs.zipIdx).foldl (fun q b => q.note (off + b.2) b.1 cyc s.now) p else p) }
  else s

/-- The updates of a pair that wait in its publisher's hub: those that have not left it, and the held one. -/
def Pair.waiting (p : Pair) : Nat := (p.queue.filter (fun u => u.ready && u.hops == 0)).length + (if p.heldSector.isSome then 1 else 0)

/-- A store of n bytes must wait: it opens an update in a stream that is full, which delays it under credit (R45, R306). How many updates a
publisher's hub holds beside the 4 of R45 is not given (log 141). -/
def State.streamFull (s : State) (c off n : Nat) : Bool :=
  let cyc := s.cycle (sectorOfCell c)
  s.pairs.any (fun p => p.pub == c && p.pubFrame.isNone && decide (4 + Config.updateRoom ≤ p.waiting) &&
    (List.range n).any (fun i => p.publishesAt (off + i) && !p.joins (off + i) cyc))

/-- The physical words that n bytes from an offset lie in: word w is in bank w mod 4, row w / 4 (R112). -/
def accessWords (swz off n : Nat) : List Nat := ((List.range n).map (fun i => spadWord swz (off + i))).eraseDups

/-- A physical word of a scratchpad. -/
def Cell.physWord (c : Cell) (w : Nat) : Nat := bytesNat ((List.range 8).map (fun i => Map.get 0 c.spad (8 * w + i)))

/-- Notes a store of n bytes to a scratchpad, for readers that may not see it yet (R139). -/
def Cell.noteStore (t was : Cell) (w : Writer) (now swz off n : Nat) : Cell :=
  { t with hist := (accessWords swz off n).foldl (fun (m : Map Written) k =>
      Map.put m k (w.note now (Map.find was.hist k) (was.physWord k) (t.physWord k))) t.hist }

/-- A store to scratchpad of n bytes by a cell, applied whole (R115), forwarded to subscribers (R303). -/
def State.spadStoreBy (s : State) (w : Writer) (c swz off : Nat) (v : Nat) (n : Nat) : State :=
  (s.updCell c (fun t => ((t.putBytes swz off v n).healWord swz off n).noteStore t w s.now swz off n)).forward c off (natBytes n v)

/-- A cell's store to its own scratchpad. -/
def State.spadStore (s : State) (c swz off : Nat) (v : Nat) (n : Nat) : State := s.spadStoreBy (Writer.plain c) c swz off v n

/-- A store that every reader sees: what a cell wrote to its words before is no longer the last write there. -/
def State.spadStoreSeen (s : State) (c swz off : Nat) (v : Nat) (n : Nat) : State :=
  (s.spadStore c swz off v n).updCell c (fun t => { t with hist := (accessWords swz off n).foldl Map.del t.hist })

/-- A store of a list of bytes (a bulk sector, R21). -/
def State.spadPut (s : State) (c swz off : Nat) (bs : List Byte) : State :=
  (s.updCell c (fun t =>
    let t' := t.putList swz off bs
    { t' with
      hist := (accessWords swz off bs.length).foldl Map.del t'.hist
      badWords := t'.badWords.filter (fun w => !((List.range bs.length).any (fun i =>
        decide ((off + i) % 8 = 0) && decide (i + 8 ≤ bs.length) && spadWord swz (off + i) == w))) })).forward c off bs

/-! Bank arbitration (R114). -/

def Cell.bank (c : Cell) (b : Nat) : BankArb := Map.get BankArb.reset c.banks b
def Cell.setBank (c : Cell) (b : Nat) (v : BankArb) : Cell := { c with banks := Map.put c.banks b v }

/-- How soon after class `last` the class `c` comes, round-robin. -/
def classTurn (last c : Nat) : Nat := (c + 3 - last) % 4

/-- The bank serves a class in a cycle (R114): it serves no other access in it, and no other class that asked in vain in this cycle or the one
before comes first. -/
def BankArb.grants (b : BankArb) (cls cyc : Nat) : Bool :=
  !b.taken.contains cyc &&
    !b.asks.any (fun a => a.1 != cls && decide (cyc ≤ a.2 + 1) && decide (classTurn b.cls a.1 < classTurn b.cls cls))

/-- The bank serves an access of a class in a cycle. -/
def BankArb.serve (b : BankArb) (cls cyc : Nat) : BankArb := ⟨(cyc :: b.taken).take 32, cls, b.asks.filter (fun a => a.1 != cls)⟩

/-- Banks of a cell serve an access to some words. -/
def Cell.serveWords (c : Cell) (cls cyc : Nat) (ws : List Nat) : Cell :=
  ws.foldl (fun (t : Cell) w => t.setBank (w % 4) ((t.bank (w % 4)).serve cls cyc)) c

/-- The words lie in banks of their own, each of which serves the class in a cycle. -/
def Cell.grantsWords (c : Cell) (cls cyc : Nat) (ws : List Nat) : Bool :=
  ws.all (fun w => (c.bank (w % 4)).grants cls cyc) && decide ((ws.map (fun w => w % 4)).eraseDups.length = ws.length)

/-- A class asks for words of a cell in a cycle: all are granted, or none and the class waits (R114). -/
def State.askWords (s : State) (c cls cyc : Nat) (ws : List Nat) : Bool × State :=
  let x := s.cell c
  if x.grantsWords cls cyc ws then (true, s.setCell c (x.serveWords cls cyc ws))
  else
    (false, s.setCell c (ws.foldl (fun (t : Cell) w =>
      let b := t.bank (w % 4)
      t.setBank (w % 4) { b with asks := (cls, cyc) :: b.asks.filter (fun a => a.1 != cls) }) x))

/-- A cell asks for the bytes of one access. -/
def State.askBank (s : State) (c cls cyc swz off n : Nat) : Bool × State := s.askWords c cls cyc (accessWords swz off n)

/-- The first cycle from a cycle on in which a cell's banks serve an access to some words. -/
def Cell.firstGrant (c : Cell) (cls : Nat) (ws : List Nat) : Nat → Nat → Nat
  | cyc, 0 => cyc
  | cyc, n + 1 => if c.grantsWords cls cyc ws then cyc else c.firstGrant cls ws (cyc + 1) n

/-- The wait of an access whose cycle is settled when it is made: the first cycle from the present on in which its banks serve its class,
which it then has. -/
def State.takeBank (s : State) (c cls cyc swz off n : Nat) : Nat × State :=
  let ws := accessWords swz off n
  let at_ := (s.cell c).firstGrant cls ws cyc 64
  (at_ - cyc, s.updCell c (fun x => x.serveWords cls at_ ws))

/-- The wait of a PE read made at issue. -/
def State.waitBank (s : State) (c cyc swz off n : Nat) : Nat × State := s.takeBank c 3 cyc swz off n

/-- The hub asks for the 32-byte sector at a cell, offset and swizzle that a bulk transfer reads, and for the one it writes: all four banks of each in
one cycle, or it waits (R114). A sector written in the cell it was read from takes a later cycle. -/
def State.hubAsk (s : State) (src dst : Option (Nat × Nat × Nat)) : Bool × State :=
  let ask := fun (a : State) (x : Nat × Nat × Nat) => a.askBank x.1 0 (a.cycle (sectorOfCell x.1)) x.2.2 (x.2.1 / 32 * 32) 32
  let g := match src with
    | none => (true, s)
    | some x => ask s x
  match dst with
  | none => g
  | some y =>
    if g.1 = false then g
    else if s.streamFull y.1 (y.2.1 / 32 * 32) 32 then (false, g.2)
    else if src.any (fun x => x.1 == y.1) then
      (true, (g.2.takeBank y.1 0 (g.2.cycle (sectorOfCell y.1)) y.2.2 (y.2.1 / 32 * 32) 32).2)
    else ask g.2 y

/-! Room (R45, R51). -/

/-- The first moment of a sector's present cycle. -/
def State.cycleStart (s : State) (k : Nat) : Nat :=
  let t := s.sector k
  match t.changing with
  | some _ => s.now
  | none => t.timeBase + (s.cycle k - t.cycBase) * cycleUnits t.ratio

/-- The key of a PE channel among the FIFOs of a cell. -/
def chanKey (n : Nat) : Nat := 256 + n

/-- Notes a removal from a FIFO: the place is no room before the next cycle (R51). -/
def Cell.noteFreed (c : Cell) (key now : Nat) : Cell :=
  { c with freed := Map.set [] c.freed key ((now :: Map.get [] c.freed key).take 4) }

/-- Removals from a FIFO since the start of the present cycle of sector k. -/
def State.freedIn (s : State) (cell key k : Nat) : Nat :=
  ((Map.get [] (s.cell cell).freed key).filter (fun t => decide (s.cycleStart k ≤ t))).length

/-- Removals from a queue since the start of the present cycle of sector k (R51). -/
def State.vacatedIn (s : State) (key k : Nat) : Nat := ((Map.get [] s.vacated key).filter (fun t => decide (s.cycleStart k ≤ t))).length

/-! Results in flight (R53, R184, R185). -/

/-- Adds to the performance counters that count event `ev` (R312). -/
def Cell.count (c : Cell) (ev n : Nat) : Cell :=
  if c.psel.isEmpty then c else
  { c with perf := (List.range 8).foldl (fun (m : Map Word) i =>
      if Map.get 0 c.psel i = BitVec.ofNat 32 ev then Map.set 0 m i (Map.get 0 m i + BitVec.ofNat 32 n) else m) c.perf }

/-- Tokens on their way to outbound channel n of a cell. -/
def Cell.flying (c : Cell) (n : Nat) : Nat := (c.flight.filter (fun f => f.dst == .out n && f.tok.isSome)).length
/-- Tokens that arrive in PE channel n with the next cycles: from the router, or late results on a loop-back channel. -/
def Cell.arriving (c : Cell) (n : Nat) : Nat := (c.flight.filter (fun f => f.dst == .chan n)).length

/-- Free credits for outbound channel n at the start of the cycle: its FIFO is the router's at port L, or the loop-back FIFO (R45, R49,
R51). A token that has been sent holds its credit from then on. -/
def State.outRoom (s : State) (cell n k : Nat) : Bool :=
  let c := s.cell cell
  let z := sectorOfCell cell
  decide ((if n < 24 then (c.inFifo 4 n).length + s.freedIn cell (pvKey 4 n) z else (c.chan n).length + c.arriving n + s.freedIn cell (chanKey n) z)
    + c.flying n + k ≤ 4)

/-- A token enters the route plane on outbound channel n (R48, R49). -/
def Cell.emit (c : Cell) (n : Nat) (t : Token) : Cell :=
  if n < 24 then c.setInFifo 4 n (c.inFifo 4 n ++ [t]) else c.setChan n (c.chan n ++ [t])

/-- Raises flags in FPSTAT (R93). -/
def Cell.raise (c : Cell) (f : Flags) : Cell := { c with fpstat := c.fpstat ||| f }

/-- Flags raised in a result cycle: FPSTAT shows them from the next cycle on (R93). -/
def Cell.raiseAt (c : Cell) (cyc : Nat) (f : Flags) : Cell :=
  if f = 0 then c else { c with flight := c.flight ++ [⟨cyc, 0, .flagsOnly, 0, none, none, f, [], 0⟩] }

/-- Two accumulator elements rounded to BF16 lanes, or one as it is (R271). -/
def Cell.accVal (c : Cell) (bank p : Nat) (bf : Bool) (mod : BitVec 4) : Nat × Flags :=
  if bf then
    let rm := rmOf (mod.toNat % 4)
    let one := fun (v : Word) =>
      let r := roundTo fmtBf16 rm false (fval fmtF32 v.toNat)
      (r.1, r.2 ||| snanFlag fmtF32 v.toNat)
    let lo := one (c.acc bank p)
    let hi := one (c.acc bank (p + 1))
    (lo.1 + hi.1 * 65536, lo.2 ||| hi.2)
  else ((c.acc bank p).toNat, flagNone)

/-- f(old, A) of an atomic (R233). -/
def atomicFn (ty : Ty) (aop : Nat) (old a : Word) : Word :=
  let f : OpFields := ⟨ty, 0, .none, .none, .none, .none, 0⟩
  let isInt := tyIsInt ty
  match aop with
  | 0 => a
  | 1 => (if isInt then aluAdd f old a 0 else aluFadd f old a 0).1
  | 2 => (if isInt then aluMin f old a 0 else aluFmin f old a 0).1
  | 3 => (if isInt then aluMax f old a 0 else aluFmax f old a 0).1
  | 4 => old &&& a
  | 5 => old ||| a
  | 6 => old ^^^ a
  | 7 => old
  | _ => if a.toNat ≤ old.toNat then 0 else old + 1

/-- The word an atomic writes back, if any (R233, R234). -/
def RmwOp.new (o : RmwOp) (old : Word) : Option Word :=
  match o with
  | .atomic ty aop _ _ a => if aop = 7 then none else some (atomicFn ty aop old a)
  | .cas _ _ e n => if old = e then some n else none

/-- Its ORD and SCOPE (R226). -/
def RmwOp.tag : RmwOp → Nat × Nat
  | .atomic _ _ o sc _ => (o, sc)
  | .cas o sc _ _ => (o, sc)

/-- The value and flags of a value taken late. -/
def Cell.lateVal (c : Cell) (l : Late) : Nat × Flags :=
  match l with
  | .spad _ _ off size swz sx =>
    let v := c.bytes swz off size
    (if sx then (BitVec.ofInt 64 (laneInt v (8 * size) true)).toNat else v, flagNone)
  | .rmw _ _ off swz _ => (c.bytes swz off 4, flagNone)
  | .acc _ _ bank p bf mod => c.accVal bank p bf mod

/-- The cell and the cycle in which a late value is taken, and the bytes it needs of its banks. -/
def Late.cell : Late → Nat
  | .spad c _ _ _ _ _ => c
  | .rmw c _ _ _ _ => c
  | .acc c _ _ _ _ _ => c
def Late.cyc : Late → Nat
  | .spad _ k _ _ _ _ => k
  | .rmw _ k _ _ _ => k
  | .acc _ k _ _ _ _ => k
def Late.words : Late → List Nat
  | .spad _ _ off size swz _ => accessWords swz off size
  | .rmw _ _ off swz _ => accessWords swz off 4
  | .acc _ _ _ _ _ _ => []
/-- The same value taken a cycle later. -/
def Late.wait : Late → Late
  | .spad c k off size swz sx => .spad c (k + 1) off size swz sx
  | .rmw c k off swz op => .rmw c (k + 1) off swz op
  | .acc c k bank p bf mod => .acc c (k + 1) bank p bf mod

/-- Zeroes a bank (R259, R271). -/
def Cell.zeroBank (c : Cell) (bank : Nat) : Cell := if bank = 0 then { c with a0 := [] } else { c with a1 := [] }

/-- `accld` of one element (R271), with its flags. -/
def Cell.accLoadEl (c : Cell) (bank p off swz : Nat) (add : Bool) : Cell × Flags :=
  let v := c.bytes swz off 4
  if add then
    let a := (c.acc bank p).toNat
    let x := Ex.add .rne (fval fmtF32 a) (fval fmtF32 v)
    let r := roundTo fmtF32 .rne false x.1
    (c.setAcc bank p (BitVec.ofNat 32 r.1), x.2 ||| r.2 ||| snanFlag fmtF32 a ||| snanFlag fmtF32 v)
  else (c.setAcc bank p (BitVec.ofNat 32 v), flagNone)

/-- What `accst` stores of an element (R271): binary32, or rounded to BF16 with its flags. -/
def Cell.accOut (c : Cell) (bank p esz : Nat) (mod : BitVec 4) : Nat × Flags :=
  let v := (c.acc bank p).toNat
  if esz = 2 then (v, flagNone)
  else
    let r := roundTo fmtBf16 (rmOf (mod.toNat % 4)) false (fval fmtF32 v)
    (r.1, r.2 ||| snanFlag fmtF32 v)

/-- `accld` of a bank, every element in the result cycle (R271, R272). -/
def Cell.accLoadAll (c : Cell) (bank off pitch swz : Nat) (add : Bool) : Cell × Flags :=
  (List.range 32).foldl (fun (a : Cell × Flags) p =>
    let r := a.1.accLoadEl bank p (off + p / 8 * pitch + p % 8 * 4) swz add
    (r.1, a.2 ||| r.2)) (c, flagNone)

/-- `accst` of a bank, every element in the result cycle (R271, R272), with its flags. -/
def State.accStoreAll (s : State) (c bank off pitch swz esz : Nat) (mod : BitVec 4) : State × Flags :=
  (List.range 32).foldl (fun (a : State × Flags) p =>
    let r := (s.cell c).accOut bank p esz mod
    (a.1.spadStore c swz (off + p / 8 * pitch + p % 8 * 2 ^ esz) r.1 (2 ^ esz), a.2 ||| r.2)) (s, flagNone)

/-- A route word is a `comb` that reads an input (R181, R255). -/
def combReads (w port vc : Nat) : Bool :=
  bitsN w 47 44 == 9 && ((bitsN w 43 41 == port && bitsN w 40 36 == vc) || (bitsN w 35 33 == port && bitsN w 32 28 == vc))

/-- The input of a `comb` entry that has stayed empty for REDUS while the other holds a token: true for P (R408). -/
def State.combOut (s : State) (cell e : Nat) : Option Bool :=
  let c := s.cell cell
  let w := (c.active.routeWord e).toNat
  let st := c.route e
  let d := s.dieAt (dieOfCell cell)
  let red := limitAt d.redOld d.redus st.waitSince
  if bitsN w 47 44 ≠ 9 ∨ st.timeout.isSome ∨ st.discard.isSome ∨ red = 0 ∨ s.spanTime (sectorOfCell cell) st.waitSince [] < red * usUnits then none
  else
    match (c.inFifo (bitsN w 43 41) (bitsN w 40 36)).isEmpty, (c.inFifo (bitsN w 35 33) (bitsN w 32 28)).isEmpty with
    | false, true => some true
    | true, false => some false
    | _, _ => none

/-- A token is about to arrive at a router input: a `comb` that reads it, empty until now, waits from now; where its time was out before, it comes
too late (R408). -/
def State.markArrival (s : State) (cell port vc : Nat) : State :=
  if !((s.cell cell).inFifo port vc).isEmpty then s else
  (List.range 32).foldl (fun (a : State) e =>
    if combReads ((s.cell cell).active.routeWord e).toNat port vc then
      a.updCell cell (fun c => c.setRoute e (match s.combOut cell e with
        | some p => { c.route e with late := some p }
        | none => { c.route e with waitSince := a.dev }))
    else a) s

/-- Delivers one result in a cycle: token, register, FPSTAT, store or accumulator operation. -/
def State.deliver (s : State) (c : Nat) (f : Flight) (cyc : Nat) : State :=
  let s1 := if f.flags = 0 then s else
    match f.dst with
    | .reg _ | .fpstat | .flagsOnly => s.updCell c (fun t => t.raise f.flags)
    | _ => s.updCell c (fun t => t.raiseAt cyc f.flags)
  match f.dst with
  | .out n =>
    match f.tok with
    | none => s1
    | some t => (if n < 24 then s1.markArrival c 4 n else s1).updCell c (fun x => x.emit n (t.retag t.kind (if t.kind = .data ∨ t.kind = .last then BitVec.ofNat 32 f.val.toNat else t.payload)))
  | .chan n =>
    match f.tok with
    | none => s1
    | some t => s1.updCell c (fun x => x.setChan n (x.chan n ++ [t]))
  | .reg n => s1.updCell c (fun t => t.setReg n (BitVec.ofNat 32 f.val.toNat))
  | .store off size swz => s1.spadStore c swz off f.val.toNat size
  | .write off size swz => s1.spadStore c swz off f.val.toNat size
  | .fpstat => s1.updCell c (fun t => { t with fpstat := BitVec.ofNat 6 f.val.toNat })
  | .flagsOnly => s1
  | .accZero b => s1.updCell c (fun t => t.zeroBank b)
  | .ask _ => s1
  | .accStore b off pitch swz esz mod =>
    let r := s1.accStoreAll c b off pitch swz esz mod
    r.1.updCell c (fun t => t.raiseAt cyc r.2)
  | .accLoad b off pitch swz add =>
    s1.updCell c (fun t =>
      let r := t.accLoadAll b off pitch swz add
      r.1.raiseAt cyc r.2)

/-- The cycle at which a result is delivered: a register and flags are seen by later cycles only (R53, R93). So is a loop-back token: it
enters its FIFO in its result cycle (R49), and heads are judged at a cycle's start (R51), so that a slot fires on it in the next cycle at the
earliest (DEDUCED, log 134). -/
def Flight.deliverAt (f : Flight) : Nat :=
  match f.dst with
  | .out n => if n < 24 then f.due else f.due + 1
  | .reg _ => f.due + 1
  | .fpstat => f.due + 1
  | .flagsOnly => f.due + 1
  | _ => f.due

/-- The scratchpad stores of a delivery: offset and bytes. -/
def Flight.stores (f : Flight) : List (Nat × Nat) :=
  match f.dst with
  | .store off size _ => [(off, size)]
  | .write off size _ => [(off, size)]
  | .accStore _ off pitch _ esz _ => (List.range 32).map (fun p => (off + p / 8 * pitch + p % 8 * 2 ^ esz, 2 ^ esz))
  | _ => []

/-- The words of scratchpad a delivery needs. -/
def Flight.words (f : Flight) : List Nat :=
  match f.dst with
  | .store off size swz => accessWords swz off size
  | .write off size swz => accessWords swz off size
  | .ask ws => ws
  | _ => []

/-- The order of deliveries in one cycle: a write of FPSTAT first, so that flags raised with it stay (R93); else by slot. -/
def Flight.rank (f : Flight) : Nat := if f.dst = .fpstat then 0 else f.slot + 1

/-- A result of the slot itself: these reach their destination in firing order (R53). -/
def ResDst.isResult : ResDst → Bool
  | .out _ => true
  | .reg _ => true
  | .store _ _ _ => true
  | _ => false

/-- What the slot does to its cell beside its result: done in firing order too (R127), and before a later result (R131, R231). -/
def ResDst.isEffect : ResDst → Bool
  | .write _ _ _ => true
  | .accZero _ => true
  | .ask _ => true
  | .accStore _ _ _ _ _ _ => true
  | .accLoad _ _ _ _ _ => true
  | _ => false

/-- The store that a value taken late also makes. -/
def Late.stores : Late → Option (Nat × Nat × Nat)
  | .rmw c _ off _ _ => some (c, off, 4)
  | _ => none

/-- The value is taken by an access that also writes. -/
def Late.writes : Late → Bool
  | .rmw _ _ _ _ _ => true
  | _ => false

/-- An earlier effect of a slot still to be made: of the slot, with the words of scratchpad where it is a handle result. -/
abbrev Effect := Nat × Option (List Nat)

/-- An earlier effect of the slot that a flight waits for: any but a handle result, or a handle result in one of the flight's words (R127, R131). -/
def Effect.blocks (e : Effect) (slot : Nat) (words : List Nat) : Bool :=
  e.1 == slot && (match e.2 with
    | none => true
    | some l => l.any (fun w => words.contains w))

/-- What a flight leaves for later ones of its slot to wait for. -/
def Flight.effect (f : Flight) : Option Effect :=
  if f.dst.isEffect || f.ld.any Late.writes then some (f.slot, none)
  else match f.dst with
    | .store off size swz => some (f.slot, some (accessWords swz off size))
    | _ => none

/-- What may happen to a flight next, behind earlier effects and results of its slot (R53, R127): (cycle, slot, position, is a value being
taken). `gone` tells what of the decoupled entries and of a copy's effects is done by now. -/
def Flight.ready (f : Flight) (pos : Nat) (effects : List Effect) (results : List Nat) (gone : Nat → Bool) (at_ : Nat) :
    Option (Nat × Nat × Nat × Bool) :=
  match f.ld with
  | some l => if l.writes && effects.any (fun e => e.blocks f.slot l.words) then none else some (l.cyc, f.rank, pos, true)
  | none =>
    if ((f.dst.isEffect || f.dst.isResult) && effects.any (fun e => e.blocks f.slot (if f.dst.isEffect then f.words else []))) ||
        (f.dst.isResult && results.contains f.slot) || !f.after.all gone
    then none else some (max f.deliverAt at_, f.rank, pos, false)

/-- The earlier of two, by cycle, slot and position. -/
def sooner (d : Nat × Nat × Nat × Bool) (b : Option (Nat × Nat × Nat × Bool)) : Option (Nat × Nat × Nat × Bool) :=
  match b with
  | none => some d
  | some x => if d.1 < x.1 ∨ (d.1 = x.1 ∧ (d.2.1 < x.2.1 ∨ (d.2.1 = x.2.1 ∧ d.2.2.1 < x.2.2.1))) then some d else some x

/-- The next thing to happen among results in flight, up to a cycle. -/
def nextFlight (gone : Nat → Bool) (at_ cyc : Nat) : List Flight → Nat → List Effect → List Nat → Option (Nat × Nat × Nat × Bool) →
    Option (Nat × Nat × Nat × Bool)
  | [], _, _, _, best => best
  | f :: r, pos, effects, results, best =>
    let best' := match f.ready pos effects results gone at_ with
      | some d => if d.1 ≤ cyc then sooner d best else best
      | none => best
    nextFlight gone at_ cyc r (pos + 1) (f.effect.toList ++ effects)
      (if f.dst.isResult then f.slot :: results else results) best'

/-- Replaces the flight at a position. -/
def Cell.setFlight (c : Cell) (i : Nat) (f : Flight) : Cell := { c with flight := c.flight.set i f }

/-- Takes a late value for the flight at position i of cell c: it waits a cycle where its bank does not grant it (R114, R230), and an atomic
writes its word back in the same access (R127, R228). Flags belong to the cell it is taken in (R93). -/
def State.takeLate (s : State) (c i : Nat) (f : Flight) (l : Late) : State :=
  let g := if l.stores.any (fun w => s.streamFull w.1 w.2.1 w.2.2) then (false, s) else s.askWords l.cell 3 l.cyc l.words
  if g.1 = false then
    (g.2.updCell l.cell (fun t => t.count 3 1)).updCell c (fun t => t.setFlight i { f with due := f.due + 1, ld := some l.wait })
  else
    let s0 := g.2
    let v := (s0.cell l.cell).lateVal l
    let own := decide (l.cell = c)
    let s1 := s0.updCell c (fun t => t.setFlight i { f with ld := none, val := BitVec.ofNat 64 v.1, flags := if own then f.flags ||| v.2 else f.flags })
    let s2 := if own then s1 else s1.updCell l.cell (fun t => t.raiseAt l.cyc v.2)
    match l with
    | .rmw z _ off swz op =>
      let who : Writer := ⟨z, c, some op.tag⟩
      let s3 := s2.acquireFrom who (.cell z) (Map.find (s0.cell z).hist (spadWord swz off))
      match op.new (BitVec.ofNat 32 v.1) with
      | some w => s3.spadStoreBy who z swz off w.toNat 4
      | none => s3
    | _ => s2

/-- Delivers the flight at position i in a cycle, or it waits a cycle for its bank (R114) or for a subscription's stream (R306). -/
def State.landFlight (s : State) (c i : Nat) (f : Flight) (k : Nat) : State :=
  let g := if f.stores.any (fun w => s.streamFull c w.1 w.2) then (false, s) else if f.words.isEmpty then (true, s) else s.askWords c 3 k f.words
  if g.1 then (g.2.updCell c (fun t => { t with flight := t.flight.eraseIdx i })).deliver c f k
  else g.2.updCell c (fun t => (t.setFlight i { f with due := k + 1 }).count 3 1)

/-- Settles results in flight of a cell up to a cycle, in order of cycle, then slot. The cell a late value is taken in is settled up
to that cycle first. `at_` is the cycle reached. -/
def State.settleCell (s : State) (c cyc at_ : Nat) : Nat → State
  | 0 => s
  | n + 1 =>
    match nextFlight (fun r => !(s.reqs.any (fun q => q.id == r)) && !(s.cells.any (fun e => e.2.flight.any (fun f => f.mark == r)))) at_ cyc (s.cell c).flight 0 [] [] none with
    | none => s
    | some (k, _, i, _) =>
      match (s.cell c).flight[i]? with
      | none => s
      | some f =>
        match f.ld with
        | some l =>
          let s1 := if l.cell = c then s else State.settleCell s l.cell l.cyc 0 n
          State.settleCell (if (s1.cell c).flight[i]? = some f then s1.takeLate c i f l else s1) c cyc (max k at_) n
        | none => State.settleCell (s.landFlight c i f k) c cyc (max k at_) n

/-- Steps enough to settle a number of flights, their bank waits included. -/
def settleFuel (n : Nat) : Nat := n * (n + 8) + 8

/-- Settles every cell to the present. -/
def State.settle (s : State) : State :=
  let once := fun (x : State) => x.cells.foldl (fun acc e =>
    let n := (acc.cell e.1).flight.length
    if n = 0 then acc else acc.settleCell e.1 (acc.cycle (sectorOfCell e.1)) 0 (settleFuel n)) x
  once (once s)

/-! Fault records (R346, R350). -/

/-- A record with the fields every source has. -/
def State.baseRec (s : State) (d : Nat) (job : Option Nat) (code cont srck : Nat) : FaultRec :=
  let j := job.bind s.job
  { code := code, cont := cont, subok := false, hid := 0x3FF, die := d, sect := 0, x := 0, y := 0, srck := srck,
    job := job, jobNo := (j.map Job.number).getD 0, gid := 0, gidx := 0, dyn := false, stage := 0, slot := 0, opw := 0,
    time := s.deviceNs, detail0 := 0, detail1 := 0, seq := 0, fq := (j.map Job.fq).getD 0,
    asid := (j.map Job.asid).getD 0, root := (j.map Job.root).getD 0, claimed := false, tried := false, kept := job.isNone, site := none,
    found := s.now, holdDie := d, port := none }

/-- The fields that name a cell (R346: X and Y on the die). -/
def FaultRec.atCell (r : FaultRec) (c slot : Nat) : FaultRec :=
  { r with sect := sectorOfCell c % 16, x := cellX c % 64, y := cellY c % 128, slot := slot }

/-- The fields that name an instance's grid point. -/
def State.recInst (s : State) (r : FaultRec) (i : Inst) : FaultRec :=
  match s.poolRec i.die i.node with
  | some p => { r with gid := i.gid, stage := i.stage, gidx := if p.dyn then 0 else p.gidx, dyn := p.dyn }
  | none => { r with gid := i.gid, stage := i.stage }

/-- The record as 64 bytes (R346). -/
def FaultRec.bits (r : FaultRec) (pkg : Nat) : Nat :=
  r.detail1.toNat * 2 ^ 448 + r.detail0.toNat * 2 ^ 384 + r.opw.toNat * 2 ^ 320 + (r.time % 2 ^ 64) * 2 ^ 256
  + (r.gid % 2 ^ 32) * 2 ^ 224 + (r.gidx % 65536) * 2 ^ 208 + (if r.dyn then 2 ^ 207 else 0) + (r.stage % 16) * 2 ^ 200
  + (r.slot % 32) * 2 ^ 195 + (r.jobNo % 2 ^ 32) * 2 ^ 160 + (pkg % 64) * 2 ^ 154 + (r.die % 4) * 2 ^ 152
  + (r.sect % 16) * 2 ^ 148 + (r.x % 64) * 2 ^ 142 + (r.y % 128) * 2 ^ 135 + (r.srck % 16) * 2 ^ 131
  + (r.code % 65536) * 2 ^ 112 + (r.cont % 8) * 2 ^ 109 + (if r.subok then 2 ^ 108 else 0) + (r.hid % 1024) * 2 ^ 96
  + r.seq % 2 ^ 64

/-- A record goes behind another of the same hold and cycle: records of one cycle are written in order of cell index, then slot (R345). -/
def FaultRec.goesAfter (r q : FaultRec) (from_ : Nat) : Bool :=
  q.tried || q.hid != r.hid || decide (q.found < from_) || r.hid == 0x3FF ||
  decide (q.y < r.y) || (q.y == r.y && (decide (q.x < r.x) || (q.x == r.x && decide (q.slot ≤ r.slot))))

/-- Places a record among those that wait. -/
def insertRec (r : FaultRec) (from_ : Nat) : List FaultRec → List FaultRec
  | [] => [r]
  | q :: rest => if r.goesAfter q from_ then q :: insertRec r from_ rest else r :: q :: rest

/-- Queues a record on its die: the Timetable writes it in FAULT_RECORD_WRITE (R350). -/
def State.pushRec (s : State) (r : FaultRec) : State :=
  let from_ := s.cycleStart (16 * r.die + r.sect)
  s.updDie r.die (fun t => { t with records := insertRec r from_ t.records })

/-- A record of a source that holds nothing still waits: its source stalls (R350). -/
def State.recWaits (s : State) (cell slot srck : Nat) : Bool :=
  let t := s.dieAt (dieOfCell cell)
  !t.records.isEmpty && t.records.any (fun r => r.hid == 0x3FF && r.srck == srck && r.sect == sectorOfCell cell % 16 &&
    r.x == cellX cell % 64 && r.y == cellY cell % 128 && r.slot == slot)

/-- A record of a hold is still to be written: the hold lasts meanwhile (R350). -/
def State.recPending (s : State) (d hid : Nat) : Bool := s.die.any (fun e => e.2.records.any (fun r => r.hid == hid && r.holdDie == d))

/-- A record of the Timetable of a die that holds nothing still waits: the Timetable stalls (R350). -/
def State.ttStalls (s : State) (d : Nat) : Bool := (s.dieAt d).records.any (fun r => r.hid == 0x3FF && r.srck == 7)

/-- A record of an engine of a sector that holds nothing still waits: the engine stalls (R350); `srck` is 2 for the copy engine, 3 for the gather path
and 4 for the GVE. -/
def State.engineStalls (s : State) (k srck : Nat) : Bool :=
  (s.dieAt (dieOfSector k)).records.any (fun r => r.hid == 0x3FF && r.srck == srck && r.sect == k % 16)

/-- Claims the place of a record in its fault queue at once, by the procedure of R148: its sequence number is what a POISON token made with it
carries (R348). A queue that cannot be read leaves it unclaimed, to be diverted (R399). -/
def State.claimRec (s : State) (r : FaultRec) : FaultRec × State :=
  if r.kept || (r.job.bind s.job).any (fun j => j.divert) then (r, s) else
  match s.readHeader r.asid r.root r.fq with
  | .error _ => (r, s)
  | .ok h => ({ r with claimed := true, seq := h.widx }, s.putHeader h 0 (h.widx + 1))

/-- The sequence number that a record of a job takes if it is made now (R348, R350). -/
def State.nextSeq (s : State) (job : Option Nat) : Nat := (s.claimRec (s.baseRec 0 job 0 0 0)).1.seq

/-- Queues the record of a POISON token that the hardware makes: its number is claimed with it (R348). -/
def State.pushClaimed (s : State) (r : FaultRec) : State := (s.claimRec r).2.pushRec (s.claimRec r).1

/-- The payload of a POISON token made by the hardware (R348). -/
def poisonPayload (code seq : Nat) : Word := BitVec.ofNat 32 (code * 65536 + seq % 65536)

/-! Holds (R344, R345). -/

/-- The first HID from `h` on, cyclically, that no hold uses. -/
def freeHid (used : List Nat) (h : Nat) : Nat → Nat
  | 0 => h % 1023
  | n + 1 => if used.contains (h % 1023) then freeHid used (h + 1) n else h % 1023

/-- A new hold identifier of a die; which free one is not specified (R346, log 9). -/
def State.newHid (s : State) (d : Nat) : Nat × State :=
  let (h, s1) := s.draw 1023
  (freeHid ((s.dieAt d).holds.map Hold.hid) h 1023, s1)

def State.hold (s : State) (d hid : Nat) : Option Hold := (s.dieAt d).holds.find? (fun h => h.hid == hid)
def State.setHold (s : State) (d : Nat) (v : Hold) : State :=
  s.updDie d (fun t => { t with holds := t.holds.map (fun h => if h.hid = v.hid then v else h) })
def State.delHold (s : State) (d hid : Nat) : State :=
  s.updDie d (fun t => { t with holds := t.holds.filter (fun h => h.hid != hid) })

/-- The instance is held: from the cycle after the one in which its first fault was met (R344). -/
def State.held (s : State) (i : Inst) : Bool :=
  i.hold.any (fun hid => (s.hold i.die hid).all (fun h => h.recs.head?.all (fun r => decide (r.found < s.cycleStart i.sector))))

/-- The hold covers a kind of fault. -/
def Hold.has (h : Hold) (k : HoldKind) : Bool := h.kind == k || h.more.contains k

/-- Puts a fault into the hold: its site, or the router input at which the token stays. The hold then covers more than one fault, and no
record of it still to be written permits SUBST (R347). -/
def Hold.join (h : Hold) (kind : HoldKind) (r : FaultRec) (sites : List (Nat × Nat)) : Hold :=
  { h with
    more := if h.has kind then h.more else kind :: h.more
    sites := if kind = .routerToken then h.sites else h.sites ++ sites
    ports := if kind = .routerToken then h.ports ++ sites else h.ports
    subok := false
    cont := max h.cont r.cont
    recs := (h.recs.map (fun x => { x with subok := false })) ++ [r] }

/-- Puts all of another hold into a hold (R354). -/
def Hold.merge (h o : Hold) : Hold :=
  { h with
    more := o.kind :: (o.more ++ h.more)
    sites := h.sites ++ o.sites
    ports := h.ports ++ o.ports
    recs := h.recs ++ o.recs
    subok := false
    cont := max h.cont o.cont }

/-- TAKING A FAULT of an instance (R344, R345): the firing has had no effect; the instance is held under a new HID, or the
fault joins the hold it is in, and a record waits to be written. `sites` are the faulting firings or requests, or the router inputs. The
hold is one of the instance's die (log 116). -/
def State.takeFault (s : State) (i : Inst) (kind : HoldKind) (r : FaultRec) (sites : List (Nat × Nat)) : State :=
  let d := i.die
  let r : FaultRec := { s.recInst r i with
    holdDie := d
    site := if kind = .routerToken then none else sites.head?
    port := if kind = .routerToken then sites.head? else none }
  match i.hold.bind (s.hold d) with
  | some h =>
    let r1 : FaultRec := { r with hid := h.hid, subok := false }
    let mark := fun (x : FaultRec) => if x.hid = h.hid ∧ x.holdDie = d then { x with subok := false } else x
    let s1 := s.setHold d (h.join kind r1 sites)
    let s1 : State := { s1 with die := s1.die.map (fun e => (e.1, { e.2 with records := e.2.records.map mark })) }
    { s1 with draws := s1.draws + 1 }.pushRec r1
  | none =>
    let (hid, s1) := s.newHid d
    let r1 : FaultRec := { r with hid := hid }
    let port := decide (kind = .routerToken)
    let h : Hold :=
      { hid := hid, die := d, inst := some i.id, cmd := none, kind := kind, more := [], code := r.code, cont := r.cont,
        subok := r.subok, sites := if port then [] else sites, ports := if port then sites else [], since := s.dev, written := false,
        detail0 := r.detail0, detail1 := r.detail1, preempting := false, recs := [r1] }
    let s2 := s1.updDie d (fun t => { t with holds := t.holds ++ [h] })
    (s2.updInst i.id (fun x => { x with hold := some hid })).pushRec r1

/-- TAKING A FAULT of an engine command (R383): the command is held, its instance runs on. -/
def State.takeCmdFault (s : State) (d : Nat) (inst : Option Nat) (id : Nat) (kind : HoldKind) (r : FaultRec) : State × Nat :=
  let (hid, s1) := s.newHid d
  let r : FaultRec := { (match inst.bind s.inst with | some i => s.recInst r i | none => r) with holdDie := d }
  let h : Hold :=
      { hid := hid, die := d, inst := inst, cmd := some id, kind := kind, more := [], code := r.code, cont := r.cont,
        subok := false, sites := [], ports := [], since := s.dev, written := false, detail0 := r.detail0, detail1 := r.detail1,
        preempting := false, recs := [{ r with hid := hid }] }
  ((s1.updDie d (fun t => { t with holds := t.holds ++ [h] })).pushRec { r with hid := hid, subok := false }, hid)

/-- RETURN FROM A FAULT: the hold ends and the instance runs again (R354). -/
def State.endHold (s : State) (d hid : Nat) : State :=
  match s.hold d hid with
  | none => s
  | some h =>
    let s1 := s.delHold d hid
    match h.kind, h.inst with
    | .command, _ => s1
    | .grammar, _ => s1
    | .grant, _ => s1
    | _, some id => s1.updInst id (fun x => { x with hold := none, lastActive := s1.dev })
    | _, none => s1

/-- The report record of the first absorption of a POISON token in an instance (R375, R346). -/
def State.absorb (s : State) (c slot srck : Nat) (payload : Word) : State :=
  match s.instAt c with
  | none => s
  | some i =>
    if i.absorbed then s else
    let r := s.recInst ((s.baseRec i.die (some i.job) 0x0210 0 srck).atCell c slot) i
    let p := (s.cell c).active
    (s.updInst i.id (fun x => { x with absorbed := true })).pushRec { r with
      opw := if srck = 1 then BitVec.ofNat 64 (p.routeWord slot).toNat else p.opWord slot
      detail0 := BitVec.ofNat 64 payload.toNat }

/-- A request is answered: its answer goes back from now on, and a copy's token the way to its configured cell (R185). -/
def Req.answered (r : Req) (v now : Nat) : Req :=
  { r with stage := .answered, result := BitVec.ofNat 64 v, hopAt := now, readyAt := max r.readyAt (now + r.back) }

/-! Drains (R58, R75). -/

/-- Starts a drain's clock if none runs. -/
def Inst.drainFrom (i : Inst) (now : Nat) : Inst := if i.draining then i else { i with drainSince := now }

/-- Requests a swap of the instance's planes; requests made while one is pending merge into it (R75). Of two that merge, the first one's
version check stands; the spec does not say what becomes of the other's (DESIGN CHOICE, log 123). -/
def State.requestSwap (s : State) (id : Nat) (r : SwapReq) : State :=
  s.updInst id (fun i => match i.swap with
    | some _ => i
    | none => { i.drainFrom s.dev with swap := some r })

/-- Requests the drain of a pre-emption (R168). -/
def State.requestPreempt (s : State) (id : Nat) : State :=
  s.updInst id (fun i => { i.drainFrom s.dev with preempt := true })

/-! Streams cut (R79) and retirement (R40). -/

/-- Sets how a source's later commands are discarded (R362). -/
def Loader.discard (l : Loader) (src : LoadSource) (phase : Nat) : Loader :=
  let rest := l.discarding.filter (fun e => e.1 != src)
  { l with discarding := if phase = 0 then rest else (src, phase) :: rest }

/-- The shadow planes of a rectangle become STALE. -/
def State.stale (s : State) (k x0 y0 w h : Nat) : State :=
  (patchCells k x0 y0 w h).foldl (fun (a : State) c => a.updCell c (fun t => { t with shadowState := .stale })) s

/-- Cuts the stream a loader serves for a rectangle of its sector, or seals there (R79, R80): the rest is discarded, the shadow planes become STALE. -/
def State.cutStream (s : State) (k x0 y0 w h : Nat) : State :=
  let l := (s.sector k).loader
  let unsealed := match l.sealing with
    | some e => e.1 == x0 && e.2.1 == y0 && e.2.2.1 == w && e.2.2.2.1 == h && decide (s.cycle k < e.2.2.2.2)
    | none => false
  let s1 := if unsealed then
      (s.stale k x0 y0 w h).updSector k (fun t =>
        let mine := fun (e : LoadSource × Nat × Nat × Nat × Nat) => e.2 == (x0, y0, w, h)
        let l1 := (l.ended.filter mine).foldl (fun (a : Loader) e => a.discard e.1 2) t.loader
        { t with loader := { l1 with ended := l1.ended.filter (fun e => !mine e), sealing := none, status := 1 } })
    else s
  match l.serving with
  | none => s1
  | some src =>
    if l.opened ∧ l.x0 = x0 ∧ l.y0 = y0 ∧ l.w = w ∧ l.h = h then
      (s1.stale k x0 y0 w h).updSector k (fun t => { t with loader :=
        { (t.loader.discard src 1) with serving := none, opened := false, begun := false, status := 1 } })
    else s1

/-- The Timetable gives up what it sends for an instance. -/
def Loader.dropLoad (l : Loader) (id : Nat) : Loader :=
  if l.tt.any (fun t => t.inst == id) then
    { l with
      tt := none
      waiting := l.waiting.filter (fun e => e.1 != .timetable)
      serving := if l.serving = some .timetable then none else l.serving }
  else l

/-- Cuts the streams for an instance's patch, and what the Timetable sends for it (R79). -/
def State.cutLoads (s : State) (i : Inst) : State :=
  (s.cutStream i.sector i.x0 i.y0 i.w i.h).updSector i.sector (fun t => if t.loader.tt.any (fun x => x.inst == i.id) then
    { t with loader := t.loader.dropLoad i.id } else t)

/-- Size of a frame as log2, and a frame's address (R328). -/
def Die.ctxLog (t : Die) : Nat := bitsN t.ctxcfg.toNat 63 59
def Die.ctxPa (t : Die) (idx : Nat) : Nat := bitsN t.ctxcfg.toNat 39 0 * 4096 + idx * 2 ^ t.ctxLog

/-- A frame holds an address. -/
def State.frameHolds (s : State) (f : Frame) (a : Nat) : Bool :=
  decide ((s.dieAt f.die).ctxPa f.idx ≤ a) && decide (a < (s.dieAt f.die).ctxPa f.idx + 2 ^ (s.dieAt f.die).ctxLog)
/-- The instance is being restored from the frame that holds an address. -/
def State.restoring (s : State) (i : Inst) (a : Nat) : Bool :=
  (s.dieAt i.die).frames.any (fun f => f.restored == some i.id && s.frameHolds f a)
/-- The pair's mirror is the instance's: in its cells, or still in the frame it is restored from (R306). -/
def State.mirrors (s : State) (i : Inst) (p : Pair) : Bool := i.covers p.sub && (match p.frame with | none => true | some a => s.restoring i a)
/-- The pair's slot is the instance's: in a Roster of its cells, or still in the frame it is restored from (R306). -/
def State.publishes (s : State) (i : Inst) (p : Pair) : Bool := i.covers p.pub && (match p.pubFrame with | none => true | some a => s.restoring i a)

/-- Frees a pair's Roster slot: at the publisher, or in its frame image while it is pre-empted (R306). -/
def State.freeSlot (s : State) (p : Pair) : State :=
  if p.isExt then s else
  match p.pubFrame with
  | some pa => s.memWrite pa 0 4
  | none => s.updCell p.pub (fun t => { t with roster := Map.del t.roster p.slot })

/-- A parked pair whose publisher retires: the frame writes already made stay to be performed (R395). -/
def Pair.orphaned (p : Pair) (pkg now : Nat) : Pair := { p.close now with pub := extPub pkg p.pubCell, pubFrame := none, gone := true }

/-- Ends every subscription of the instance's cells: as subscriber and as publisher (R304). Of a parked subscriber's, the frame writes already made
are still performed (R395). -/
def State.endSubs (s : State) (i : Inst) : State :=
  let mine := fun (p : Pair) => s.mirrors i p || s.publishes i p
  let s1 := s.pairs.foldl (fun (a : State) p => if s.mirrors i p then a.freeSlot p else a) s
  let s2 := (i.cells).foldl (fun a c => if (a.cell c).roster.isEmpty then a else a.updCell c (fun t => { t with roster := [] })) s1
  let kept := s2.pairs.filter (fun p => !mine p || (p.parked && !s.mirrors i p))
  { s2 with pairs := kept.map (fun p => if mine p then p.orphaned s.package s.now else p) }

/-- What is left of a firing in flight when its instance retires: its writes to the scratchpad, behind an access still under way; its token or register
value is discarded (R40). -/
def Flight.remnant (f : Flight) : Option Flight :=
  let keeps := f.dst.isEffect || (match f.dst with | .store _ _ _ => true | _ => false)
  if keeps then some f else if (f.ld.bind Late.stores).isSome then some { f with dst := .flagsOnly } else none

/-- Every FIFO, link and channel of a cell emptied, but those of channels that only pass through it (R154); of the firings in flight, which have
completed but for what waits for an access, only the writes are left (R40). -/
def Cell.drop (c : Cell) : Cell :=
  { c with
    rin := c.rin.filter (fun e => c.transit.any (fun t => pvKey t.1 t.2.1 == e.1 && decide (t.1 < 4)))
    link := c.link.filter (fun e => c.transit.any (fun t => pvKey t.2.2.1 t.2.2.2 == e.1 && decide (t.1 < 4)))
    pin := []
    flight := c.flight.filterMap Flight.remnant
    trigDue := false }

/-- A command that was suspended, or that met a fault then, goes on at its cursor. -/
def Cmd.goOn (c : Cmd) : Cmd :=
  { c with met := none, stage := if c.stage = .suspended ∨ c.stage = .suspending ∨ c.met.isSome = true then .queued else c.stage }
/-- A command of a retiring instance runs on (R40). -/
def Cmd.runOn (c : Cmd) : Cmd := { c.goOn with retired := true }
def GveCmd.runOn (g : GveCmd) : GveCmd := { g with retired := true, met := none, suspended := false }

/-- Retires an instance (R40): it admits and fires nothing more, what was issued completes, tokens are discarded, its
subscriptions end, its stream is cut and its holds end. A swap that waits for the drain goes with it, and its planes do not flip (log 135). -/
def State.retire (s : State) (id : Nat) : State :=
  match s.inst id with
  | none => s
  | some i =>
    if i.retired then s else
    let s1 := i.cells.foldl (fun a c =>
      let fl := (a.cell c).flight
      if fl.isEmpty then a
      else a.settleCell c ((fl.foldl (fun m f => max m f.due) 0) + 1 + fl.length) 0 (settleFuel fl.length)) s
    let s2 := i.cells.foldl (fun a c => if (a.cell c).rin.isEmpty && (a.cell c).link.isEmpty && (a.cell c).pin.isEmpty
      && (a.cell c).flight.isEmpty && !(a.cell c).trigDue then a else a.updCell c Cell.drop) s1
    let s3 : State := (s2.endSubs i).cutLoads i
    let s4 : State := { s3 with
      reqs := s3.reqs.filterMap (fun (r : Req) =>
        if r.inst = id then
          match r.stage with
          | .waiting => none
          | .faulted _ => none
          | _ => some { r with retired := true }
        else some r)
      cmds := s3.cmds.map (fun (c : Cmd) => if c.inst = some id then c.runOn else c)
      products := s3.products.filter (fun p => !(p.inst == id && p.failed)) }
    let s5 := s4.updSector i.sector (fun t => { t with gve := t.gve.map (fun g => if g.inst = some id then g.runOn else g) })
    let s5a := match i.hold with
      | some hid => s5.delHold i.die hid
      | none => s5
    let s6 := match i.releasing with
      | some hid => (s5a.delHold i.die hid).updDie i.die (fun t =>
        if t.factBusy = some hid then { t with factBusy := none, factRes := 3, factDone := t.factDone + 1 } else t)
      | none => s5a
    let waits := fun (t : Die) => t.holds.any (fun h => some h.hid == t.factBusy && h.inst == some id && h.cmd.isSome)
    let s6a := if waits (s6.dieAt i.die) then
        s6.updDie i.die (fun t => { t with factBusy := none, factRes := 3, factDone := t.factDone + 1 })
      else s6
    let s7 := s6a.updInst id (fun x => { x with retired := true, hold := none, swap := none, preempt := false, yielding := false, releasing := none, heldSites := [], withdrawn := [] })
    s7.updPool i.die i.node (fun r => { r with live := r.live - 1, finished := r.finished + 1 })

def State.setGrant (s : State) (k n : Nat) (g : Grant) : State := s.updSector k (fun t => { t with grants := Map.put t.grants n g })

/-- The write that a grant hold retries is abandoned (R409). -/
def State.dropGrant (s : State) (h : Hold) : State :=
  match h.kind, h.cmd with
  | .grant, some id => s.setGrant (id / 16) (id % 16) { Map.get Grant.reset (s.sector (id / 16)).grants (id % 16) with stuck := none }
  | _, _ => s

/-- The job that a hold's command belongs to: an engine or grammar command's, or that of the requester of a grant (R383, R409). -/
def State.cmdJob (s : State) (h : Hold) : Option Nat :=
  match h.kind with
  | .grant => h.recs.head?.bind FaultRec.job
  | .grammar => s.sectors.findSome? (fun e => (e.2.gve.find? (fun g => some g.id == h.cmd)).map GveCmd.job)
  | _ => (h.cmd.bind s.cmd).map Cmd.job

/-- Ends every subscription whose mirror or slot lies in a frame of the job: the instances saved there retire (R304, R306, R354). -/
def State.endSavedSubs (s : State) (key : Nat) : State :=
  let fs := [0, 1, 2, 3].flatMap (fun d => (s.dieAt d).frames.filter (fun f => f.job == key))
  let held := fun (a : Option Nat) => a.any (fun x => fs.any (fun f => s.frameHolds f x))
  if fs.isEmpty then s else
  let s1 := s.pairs.foldl (fun (a : State) p => if held p.frame then a.freeSlot p else a) s
  { s1 with pairs := s1.pairs.filterMap (fun p =>
      if held p.frame then none else if held p.pubFrame then (if p.parked then some (p.orphaned s.package s.now) else none) else some p) }

/-- What an abort drops of a job (R354 ABORT): nothing more is placed, frames are freed, held and saved commands are abandoned. -/
def State.abandonJob (s : State) (key : Nat) : State :=
  let s2 := (s.endSavedSubs key).updJob key (fun j => { j with aborted := true })
  let own := fun (h : Hold) => h.cmd.isSome && s2.cmdJob h == some key
  let dropFrames := fun (d : Die) => { d with
    frames := d.frames.filter (fun f => f.job != key)
    holds := d.holds.filter (fun h => !own h)
    pool := d.pool.map (fun r => if r.job = key then { r with frames := [], completed := true, inPool := false } else r) }
  let s3 := [0, 1, 2, 3].foldl (fun a d => if (a.dieAt d).pool.isEmpty && (a.dieAt d).frames.isEmpty && (a.dieAt d).holds.isEmpty then a
    else ((a.dieAt d).holds.foldl (fun (b : State) h => if own h then b.dropGrant h else b) a).updDie d dropFrames) s2
  let s4 : State := { s3 with cmds := s3.cmds.filter (fun c => !(c.job == key && (c.stage == .held || c.stage == .suspended))) }
  { s4 with sectors := s4.sectors.map (fun e =>
      (e.1, if e.2.gve.any (fun g => g.job == key && g.hold.isSome)
        then { e.2 with gve := e.2.gve.filter (fun g => !(g.job == key && g.hold.isSome)) } else e.2)) }

/-- Aborts a job whole (R357 level 2): every resident instance retires at once. -/
def State.abortJob (s : State) (key : Nat) : State :=
  ((s.insts.filter (fun i => i.job == key && !i.retired)).foldl (fun (a : State) i => a.retire i.id) s).abandonJob key

end Sys2Proof.Machine
end

