-- ==== Sys2Proof/Machine/Flags.lean ====
section
/-! DEFINITION. Sys2Proof/Machine/Flags.lean: FPSTAT (04_numbers.md R92 to R94): its word, its writing, and raising. The flag
of each computation stands with the computation (Num, Lanes, Alu, Approx). -/
namespace Sys2Proof.Machine
open Sys2Proof

/-- FPSTAT as software reads it: bits 31:6 read 0 (R92). -/
def Cell.fpstatWord (c : Cell) : Word := BitVec.ofNat 32 c.fpstat.toNat
/-- What a write leaves: bits 5:0 of the word, ORed with flags raised in the same cycle (R92, R93). -/
def Cell.writeFpstat (c : Cell) (v : Word) (raised : Flags) : Cell := { c with fpstat := BitVec.ofNat 6 v.toNat ||| raised }
/-- NV, DZ, OF, UF and NX of a grammar command, in the layout of FPSTAT bits 4:0 (R279). -/
def grammarFlags (f : Flags) : Word := BitVec.ofNat 32 (f.toNat % 32)

end Sys2Proof.Machine
end

