-- ==== Sys2Proof/Decode.lean ====
section
/-! DEFINITION. Sys2Proof/Decode.lean: instruction words to instructions and back: operator words (R173, R175, R177, R183),
route entries (R181, R182), configuration commands (R65, R66) and the Pilot's custom-0 words (R313, R314). Decoding is total
and rejects by name; the encoder stands after it. -/
namespace Sys2Proof
open Sys2Proof.Machine

/-- Why a word is no instruction. -/
inductive Reject
  | reservedOpcode
  | reservedType
  | reservedSource
  | reservedDestination
  | reservedRouterOperator
  | reservedControl
  | notCustom0
  | illegalCustom0
  | unknownLength
  deriving DecidableEq, Repr

/-- Source selectors (R175). -/
def srcOfCode (n : Nat) : Option Src :=
  if h : n < 0x20 then some (.chan ⟨n, h⟩)
  else if n < 0x40 then some (.peek ⟨n % 32, Nat.mod_lt _ (by decide)⟩)
  else if n < 0x50 then some (.reg ⟨n % 16, Nat.mod_lt _ (by decide)⟩)
  else if n < 0x80 then none
  else if n < 0xA0 then some (.konst ⟨n % 32, Nat.mod_lt _ (by decide)⟩)
  else if n < 0xC0 then none
  else if n < 0xE0 then some (.handle ⟨n % 32, Nat.mod_lt _ (by decide)⟩)
  else match n with
    | 0xE0 => some .zero | 0xE1 => some .one | 0xE2 => some .imm | 0xE3 => some .immHi
    | 0xE4 => some .cellX | 0xE5 => some .cellY | 0xE6 => some .patchOrigin | 0xE7 => some .stage
    | 0xE8 => some .idLow | 0xE9 => some .idHigh | 0xEA => some .iter | 0xEB => some .replica
    | 0xFF => some .none
    | _ => none

/-- The code of a source selector (R175). -/
def srcCode : Src → Nat
  | .chan n => n.val
  | .peek n => 0x20 + n.val
  | .reg n => 0x40 + n.val
  | .konst n => 0x80 + n.val
  | .handle n => 0xC0 + n.val
  | .zero => 0xE0 | .one => 0xE1 | .imm => 0xE2 | .immHi => 0xE3
  | .cellX => 0xE4 | .cellY => 0xE5 | .patchOrigin => 0xE6 | .stage => 0xE7
  | .idLow => 0xE8 | .idHigh => 0xE9 | .iter => 0xEA | .replica => 0xEB
  | .none => 0xFF

/-- Destination selectors (R177). -/
def dstOfCode (n : Nat) : Option Dst :=
  if h : n < 0x20 then some (.out ⟨n, h⟩)
  else if n < 0x40 then none
  else if n < 0x50 then some (.reg ⟨n % 16, Nat.mod_lt _ (by decide)⟩)
  else if n < 0xC0 then none
  else if n < 0xE0 then some (.handle ⟨n % 32, Nat.mod_lt _ (by decide)⟩)
  else if n = 0xFF then some .none
  else none

/-- The code of a destination selector (R177). -/
def dstCode : Dst → Nat
  | .out n => n.val
  | .reg n => 0x40 + n.val
  | .handle n => 0xC0 + n.val
  | .none => 0xFF

/-- The opcode map (R183): the operator of OPC, with its site and fields. Codes 0xCC and 0xCD are two operators each, told
apart by MOD[2] (R302). -/
def operatorOf (opc : Nat) (site : Site) (f : OpFields) : Option Instr :=
  match opc with
  | 0x00 => some (.add site f)
  | 0x01 => some (.sub site f)
  | 0x02 => some (.mul site f)
  | 0x03 => some (.mulh site f)
  | 0x04 => some (.mad site f)
  | 0x05 => some (.div site f)
  | 0x06 => some (.rem site f)
  | 0x07 => some (.min site f)
  | 0x08 => some (.max site f)
  | 0x09 => some (.abs site f)
  | 0x0A => some (.and site f)
  | 0x0B => some (.or site f)
  | 0x0C => some (.xor site f)
  | 0x0D => some (.andn site f)
  | 0x0E => some (.shl site f)
  | 0x0F => some (.shr site f)
  | 0x10 => some (.rot site f)
  | 0x11 => some (.clz site f)
  | 0x12 => some (.ffs site f)
  | 0x13 => some (.popc site f)
  | 0x14 => some (.brev site f)
  | 0x15 => some (.bfx site f)
  | 0x16 => some (.bfi site f)
  | 0x17 => some (.sel site f)
  | 0x18 => some (.cmp site f)
  | 0x19 => some (.avg site f)
  | 0x1A => some (.absd site f)
  | 0x1B => some (.sad site f)
  | 0x1C => some (.dot4 site f)
  | 0x1D => some (.addsh site f)
  | 0x1E => some (.move site f)
  | 0x1F => some (.pack site f)
  | 0x20 => some (.fadd site f)
  | 0x21 => some (.fsub site f)
  | 0x22 => some (.fmul site f)
  | 0x23 => some (.fma site f)
  | 0x24 => some (.fms site f)
  | 0x25 => some (.fnma site f)
  | 0x26 => some (.fmin site f)
  | 0x27 => some (.fmax site f)
  | 0x28 => some (.fabs site f)
  | 0x29 => some (.fneg site f)
  | 0x2A => some (.fcmp site f)
  | 0x2B => some (.fclass site f)
  | 0x2C => some (.fdiv site f)
  | 0x2D => some (.fsqrt site f)
  | 0x2E => some (.frcpa site f)
  | 0x2F => some (.frsqa site f)
  | 0x30 => some (.fexp2a site f)
  | 0x31 => some (.flog2a site f)
  | 0x32 => some (.fsinpi site f)
  | 0x33 => some (.fcospi site f)
  | 0x34 => some (.ftanha site f)
  | 0x35 => some (.fsiga site f)
  | 0x36 => some (.cvt site f)
  | 0x37 => some (.cvts site f)
  | 0x38 => some (.frnd site f)
  | 0x39 => some (.fscale site f)
  | 0x3A => some (.fdot2 site f)
  | 0x3B => some (.fhadd site f)
  | 0x3C => some (.fclamp site f)
  | 0x3D => some (.flerp site f)
  | 0x40 => some (.qenc site f)
  | 0x41 => some (.qdec site f)
  | 0x42 => some (.q8enc site f)
  | 0x43 => some (.q8dec site f)
  | 0x44 => some (.amax site f)
  | 0x45 => some (.qscale site f)
  | 0x46 => some (.zcnt site f)
  | 0x47 => some (.zmask site f)
  | 0x48 => some (.lanex site f)
  | 0x49 => some (.lanei site f)
  | 0x4A => some (.splat site f)
  | 0x4B => some (.widen site f)
  | 0x4C => some (.narrow site f)
  | 0x4D => some (.shuf site f)
  | 0x60 => some (.ldh site f)
  | 0x61 => some (.sth site f)
  | 0x62 => some (.lds site f)
  | 0x63 => some (.sts site f)
  | 0x64 => some (.ldr site f)
  | 0x65 => some (.str site f)
  | 0x66 => some (.ldg site f)
  | 0x67 => some (.stg site f)
  | 0x68 => some (.pfg site f)
  | 0x69 => some (.atomh site f)
  | 0x6A => some (.cash site f)
  | 0x6B => some (.atomr site f)
  | 0x6C => some (.casr site f)
  | 0x6D => some (.atomg site f)
  | 0x6E => some (.casg site f)
  | 0x6F => some (.fence site f)
  | 0x70 => some (.hseek site f)
  | 0x71 => some (.htell site f)
  | 0x72 => some (.ldx site f)
  | 0x73 => some (.stx site f)
  | 0x80 => some (.gen site f)
  | 0x81 => some (.gen2 site f)
  | 0x82 => some (.cnt site f)
  | 0x83 => some (.acc site f)
  | 0x84 => some (.scan site f)
  | 0x85 => some (.filt site f)
  | 0x86 => some (.take site f)
  | 0x87 => some (.skip site f)
  | 0x88 => some (.rept site f)
  | 0x89 => some (.mklast site f)
  | 0x8A => some (.done site f)
  | 0x8B => some (.waitd site f)
  | 0x8C => some (.iter site f)
  | 0x8D => some (.trig site f)
  | 0xA0 => some (.mm site f)
  | 0xA1 => some (.mmb site f)
  | 0xA2 => some (.mmg site f)
  | 0xA3 => some (.mmo site f)
  | 0xA4 => some (.accz site f)
  | 0xA5 => some (.accrd site f)
  | 0xA6 => some (.accst site f)
  | 0xA7 => some (.accld site f)
  | 0xA8 => some (.gspmv site f)
  | 0xA9 => some (.gsload site f)
  | 0xAA => some (.gsread site f)
  | 0xAB => some (.gsclr site f)
  | 0xAC => some (.redp site f)
  | 0xAD => some (.redw site f)
  | 0xC0 => some (.copy site f)
  | 0xC1 => some (.copyw site f)
  | 0xC2 => some (.gath site f)
  | 0xC3 => some (.scat site f)
  | 0xC4 => some (.embr site f)
  | 0xC5 => some (.subscribe site f)
  | 0xC6 => some (.unsub site f)
  | 0xC7 => some (.sflush site f)
  | 0xC8 => some (.bari site f)
  | 0xC9 => some (.bara site f)
  | 0xCA => some (.barw site f)
  | 0xCB => some (.ringi site f)
  | 0xCC => some (if f.mod.getLsbD 2 then .ringfP site f else .ringf site f)
  | 0xCD => some (if f.mod.getLsbD 2 then .ringrP site f else .ringr site f)
  | 0xCE => some (.tenq site f)
  | 0xCF => some (.tlnch site f)
  | 0xD0 => some (.send site f)
  | 0xD1 => some (.rgreq site f)
  | 0xD2 => some (.lqpush site f)
  | 0xD3 => some (.rrpop site f)
  | 0xE0 => some (.nop site f)
  | 0xE1 => some (.sreg site f)
  | 0xE2 => some (.swreg site f)
  | 0xE3 => some (.trap site f)
  | 0xE4 => some (.brk site f)
  | 0xE5 => some (.yield site f)
  | 0xE6 => some (.exit site f)
  | 0xE7 => some (.assert site f)
  | 0xE8 => some (.clock site f)
  | 0xE9 => some (.perf site f)
  | 0xEA => some (.swapreq site f)
  | 0xEB => some (.poison site f)
  | _ => none

/-- Decodes an operator word (R173). -/
def decodeOperator (site : Site) (w : BitVec 64) : Except Reject Instr :=
  match tyOfCode (bitsN w.toNat 55 52) with
  | none => .error .reservedType
  | some ty =>
    match srcOfCode (bitsN w.toNat 47 40), srcOfCode (bitsN w.toNat 39 32), srcOfCode (bitsN w.toNat 31 24) with
    | some a, some b, some c =>
      match dstOfCode (bitsN w.toNat 23 16) with
      | none => .error .reservedDestination
      | some d =>
        match operatorOf (bitsN w.toNat 63 56) site
          ⟨ty, BitVec.ofNat 4 (bitsN w.toNat 51 48), a, b, c, d, BitVec.ofNat 16 (bitsN w.toNat 15 0)⟩ with
        | some i => .ok i
        | none => .error .reservedOpcode
    | _, _, _ => .error .reservedSource

/-- A (port, VC) field of a route entry, at its lowest bit (R181). -/
def portVcAt (w lo : Nat) : PortVc :=
  ⟨⟨w / 2 ^ (lo + 5) % 8, Nat.mod_lt _ (by decide)⟩, ⟨w / 2 ^ lo % 32, Nat.mod_lt _ (by decide)⟩⟩

/-- The fields of a route entry (R181). -/
def routeFieldsOf (w : Nat) : RouteFields :=
  ⟨portVcAt w 36, portVcAt w 28, portVcAt w 20, portVcAt w 12, BitVec.ofNat 12 w⟩

/-- Router operators (R182). ROP 0 is off and is no operator. -/
def routerOf (rop : Nat) (site : RouteSite) (f : RouteFields) : Option Instr :=
  match rop with
  | 1 => some (.route site f)
  | 2 => some (.fork site f)
  | 3 => some (.steer site f)
  | 4 => some (.merge site f)
  | 5 => some (.carry site f)
  | 6 => some (.invar site f)
  | 7 => some (.join site f)
  | 8 => some (.drop site f)
  | 9 => some (.comb site f)
  | 10 => some (.part site f)
  | _ => none

/-- Decodes a route entry (R181). -/
def decodeRoute (site : RouteSite) (w : BitVec 48) : Except Reject Instr :=
  match routerOf (bitsN w.toNat 47 44) site (routeFieldsOf w.toNat) with
  | some i => .ok i
  | none => .error .reservedRouterOperator

/-- Decodes a configuration command (R65, R66). `lit` is set when a LIT command came before it: CELL is then a cell index
whatever its value. -/
def decodeConfig (sector : Fin 64) (source : LoadSource) (lit : Bool) (w : BitVec 32) : Except Reject Instr :=
  let cell := BitVec.ofNat 8 (bitsN w.toNat 31 24)
  let field := BitVec.ofNat 8 (bitsN w.toNat 23 16)
  let value := BitVec.ofNat 16 (bitsN w.toNat 15 0)
  if cell = 0xFE ∧ lit = false then
    match field.toNat with
    | 0 => .ok (.cfgNop sector source value)
    | 1 => .ok (.cfgBegin sector source value)
    | 2 => .ok (.cfgOrigin sector source value)
    | 3 => .ok (.cfgBank sector source value)
    | 4 => .ok (.cfgSeal sector source value)
    | 5 => .ok (.cfgLit sector source value)
    | 6 => .ok (.cfgSwap sector source value)
    | _ => .error .reservedControl
  else .ok (.cfgWrite sector source cell field value)

/-- Decodes a Pilot word of custom-0 (R313). `op` is the grant-table operation, rs2 bits 11:8 of the running Pilot (R314);
operations 5 to 15 have no effect and are taken by READ's row. -/
def decodePilot (die : Fin 4) (op : Nat) (w : BitVec 32) : Except Reject Instr :=
  let rd := BitVec.ofNat 5 (bitsN w.toNat 11 7)
  let rs1 := BitVec.ofNat 5 (bitsN w.toNat 19 15)
  let rs2 := BitVec.ofNat 5 (bitsN w.toNat 24 20)
  if bitsN w.toNat 6 0 ≠ 0x0B then .error .notCustom0
  else if bitsN w.toNat 31 25 ≠ 0 then .error .illegalCustom0
  else match bitsN w.toNat 14 12 with
    | 0 => if rs2 = 0 then .ok (.xgQpop die rd rs1 rs2) else .error .illegalCustom0
    | 1 => if rs2 = 0 then .ok (.xgQpeek die rd rs1 rs2) else .error .illegalCustom0
    | 2 => .ok (.xgRpush die rd rs1 rs2)
    | 3 =>
      match op with
      | 1 => .ok (.xgGsetSetexp die rd rs1 rs2)
      | 2 => .ok (.xgGsetSetbase die rd rs1 rs2)
      | 3 => .ok (.xgGsetOpen die rd rs1 rs2)
      | 4 => .ok (.xgGsetClose die rd rs1 rs2)
      | _ => .ok (.xgGsetRead die rd rs1 rs2)
    | 4 => .ok (.xgTlnch die rd rs1 rs2)
    | 5 => .ok (.xgCfgw die rd rs1 rs2)
    | 6 => if rs2 = 0 then .ok (.xgWfe die rd rs1 rs2) else .error .illegalCustom0
    | _ => if rd = 0 then .ok (.xgEvsig die rd rs1 rs2) else .error .illegalCustom0

/-- Decodes bytes as they stand in memory or in a plane, little-endian (R8): 8 bytes are an operator word, 6 a route entry,
4 a configuration command or, with 0001011 in bits 6:0 and 0 in bits 31:25, a Pilot word; any other number is rejected. -/
def decodeBytes (bs : List Byte) : Except Reject Instr :=
  let v := bs.foldr (fun b n => b.toNat + 256 * n) 0
  match bs.length with
  | 8 => decodeOperator ⟨0, 0⟩ (BitVec.ofNat 64 v)
  | 6 => decodeRoute ⟨0, 0⟩ (BitVec.ofNat 48 v)
  | 4 =>
    if bitsN v 31 24 = 0xFE then decodeConfig 0 .pilot false (BitVec.ofNat 32 v)
    else if bitsN v 6 0 = 0x0B ∧ bitsN v 31 25 = 0 then decodePilot 0 0 (BitVec.ofNat 32 v)
    else decodeConfig 0 .pilot false (BitVec.ofNat 32 v)
  | _ => .error .unknownLength

/-- The n low bytes of a number, lowest first. -/
def wordBytes : Nat → Nat → List Byte
  | 0, _ => []
  | n + 1, v => BitVec.ofNat 8 v :: wordBytes n (v / 256)

/-- The instruction the decoder reads from a table word of `nbits` bits. -/
def decodeTableWord (nbits w : Nat) : Option Instr :=
  match decodeBytes (wordBytes (nbits / 8) w) with
  | .ok i => some i
  | .error _ => none

/-! Encoder. -/

/-- The opcode, site and fields of an operator (R183). -/
def operatorFields : Instr → Option (Nat × Site × OpFields)
  | .add site f => some (0x00, site, f)
  | .sub site f => some (0x01, site, f)
  | .mul site f => some (0x02, site, f)
  | .mulh site f => some (0x03, site, f)
  | .mad site f => some (0x04, site, f)
  | .div site f => some (0x05, site, f)
  | .rem site f => some (0x06, site, f)
  | .min site f => some (0x07, site, f)
  | .max site f => some (0x08, site, f)
  | .abs site f => some (0x09, site, f)
  | .and site f => some (0x0A, site, f)
  | .or site f => some (0x0B, site, f)
  | .xor site f => some (0x0C, site, f)
  | .andn site f => some (0x0D, site, f)
  | .shl site f => some (0x0E, site, f)
  | .shr site f => some (0x0F, site, f)
  | .rot site f => some (0x10, site, f)
  | .clz site f => some (0x11, site, f)
  | .ffs site f => some (0x12, site, f)
  | .popc site f => some (0x13, site, f)
  | .brev site f => some (0x14, site, f)
  | .bfx site f => some (0x15, site, f)
  | .bfi site f => some (0x16, site, f)
  | .sel site f => some (0x17, site, f)
  | .cmp site f => some (0x18, site, f)
  | .avg site f => some (0x19, site, f)
  | .absd site f => some (0x1A, site, f)
  | .sad site f => some (0x1B, site, f)
  | .dot4 site f => some (0x1C, site, f)
  | .addsh site f => some (0x1D, site, f)
  | .move site f => some (0x1E, site, f)
  | .pack site f => some (0x1F, site, f)
  | .fadd site f => some (0x20, site, f)
  | .fsub site f => some (0x21, site, f)
  | .fmul site f => some (0x22, site, f)
  | .fma site f => some (0x23, site, f)
  | .fms site f => some (0x24, site, f)
  | .fnma site f => some (0x25, site, f)
  | .fmin site f => some (0x26, site, f)
  | .fmax site f => some (0x27, site, f)
  | .fabs site f => some (0x28, site, f)
  | .fneg site f => some (0x29, site, f)
  | .fcmp site f => some (0x2A, site, f)
  | .fclass site f => some (0x2B, site, f)
  | .fdiv site f => some (0x2C, site, f)
  | .fsqrt site f => some (0x2D, site, f)
  | .frcpa site f => some (0x2E, site, f)
  | .frsqa site f => some (0x2F, site, f)
  | .fexp2a site f => some (0x30, site, f)
  | .flog2a site f => some (0x31, site, f)
  | .fsinpi site f => some (0x32, site, f)
  | .fcospi site f => some (0x33, site, f)
  | .ftanha site f => some (0x34, site, f)
  | .fsiga site f => some (0x35, site, f)
  | .cvt site f => some (0x36, site, f)
  | .cvts site f => some (0x37, site, f)
  | .frnd site f => some (0x38, site, f)
  | .fscale site f => some (0x39, site, f)
  | .fdot2 site f => some (0x3A, site, f)
  | .fhadd site f => some (0x3B, site, f)
  | .fclamp site f => some (0x3C, site, f)
  | .flerp site f => some (0x3D, site, f)
  | .qenc site f => some (0x40, site, f)
  | .qdec site f => some (0x41, site, f)
  | .q8enc site f => some (0x42, site, f)
  | .q8dec site f => some (0x43, site, f)
  | .amax site f => some (0x44, site, f)
  | .qscale site f => some (0x45, site, f)
  | .zcnt site f => some (0x46, site, f)
  | .zmask site f => some (0x47, site, f)
  | .lanex site f => some (0x48, site, f)
  | .lanei site f => some (0x49, site, f)
  | .splat site f => some (0x4A, site, f)
  | .widen site f => some (0x4B, site, f)
  | .narrow site f => some (0x4C, site, f)
  | .shuf site f => some (0x4D, site, f)
  | .ldh site f => some (0x60, site, f)
  | .sth site f => some (0x61, site, f)
  | .lds site f => some (0x62, site, f)
  | .sts site f => some (0x63, site, f)
  | .ldr site f => some (0x64, site, f)
  | .str site f => some (0x65, site, f)
  | .ldg site f => some (0x66, site, f)
  | .stg site f => some (0x67, site, f)
  | .pfg site f => some (0x68, site, f)
  | .atomh site f => some (0x69, site, f)
  | .cash site f => some (0x6A, site, f)
  | .atomr site f => some (0x6B, site, f)
  | .casr site f => some (0x6C, site, f)
  | .atomg site f => some (0x6D, site, f)
  | .casg site f => some (0x6E, site, f)
  | .fence site f => some (0x6F, site, f)
  | .hseek site f => some (0x70, site, f)
  | .htell site f => some (0x71, site, f)
  | .ldx site f => some (0x72, site, f)
  | .stx site f => some (0x73, site, f)
  | .gen site f => some (0x80, site, f)
  | .gen2 site f => some (0x81, site, f)
  | .cnt site f => some (0x82, site, f)
  | .acc site f => some (0x83, site, f)
  | .scan site f => some (0x84, site, f)
  | .filt site f => some (0x85, site, f)
  | .take site f => some (0x86, site, f)
  | .skip site f => some (0x87, site, f)
  | .rept site f => some (0x88, site, f)
  | .mklast site f => some (0x89, site, f)
  | .done site f => some (0x8A, site, f)
  | .waitd site f => some (0x8B, site, f)
  | .iter site f => some (0x8C, site, f)
  | .trig site f => some (0x8D, site, f)
  | .mm site f => some (0xA0, site, f)
  | .mmb site f => some (0xA1, site, f)
  | .mmg site f => some (0xA2, site, f)
  | .mmo site f => some (0xA3, site, f)
  | .accz site f => some (0xA4, site, f)
  | .accrd site f => some (0xA5, site, f)
  | .accst site f => some (0xA6, site, f)
  | .accld site f => some (0xA7, site, f)
  | .gspmv site f => some (0xA8, site, f)
  | .gsload site f => some (0xA9, site, f)
  | .gsread site f => some (0xAA, site, f)
  | .gsclr site f => some (0xAB, site, f)
  | .redp site f => some (0xAC, site, f)
  | .redw site f => some (0xAD, site, f)
  | .copy site f => some (0xC0, site, f)
  | .copyw site f => some (0xC1, site, f)
  | .gath site f => some (0xC2, site, f)
  | .scat site f => some (0xC3, site, f)
  | .embr site f => some (0xC4, site, f)
  | .subscribe site f => some (0xC5, site, f)
  | .unsub site f => some (0xC6, site, f)
  | .sflush site f => some (0xC7, site, f)
  | .bari site f => some (0xC8, site, f)
  | .bara site f => some (0xC9, site, f)
  | .barw site f => some (0xCA, site, f)
  | .ringi site f => some (0xCB, site, f)
  | .ringf site f => some (0xCC, site, f)
  | .ringr site f => some (0xCD, site, f)
  | .tenq site f => some (0xCE, site, f)
  | .tlnch site f => some (0xCF, site, f)
  | .send site f => some (0xD0, site, f)
  | .rgreq site f => some (0xD1, site, f)
  | .lqpush site f => some (0xD2, site, f)
  | .rrpop site f => some (0xD3, site, f)
  | .nop site f => some (0xE0, site, f)
  | .sreg site f => some (0xE1, site, f)
  | .swreg site f => some (0xE2, site, f)
  | .trap site f => some (0xE3, site, f)
  | .brk site f => some (0xE4, site, f)
  | .yield site f => some (0xE5, site, f)
  | .exit site f => some (0xE6, site, f)
  | .assert site f => some (0xE7, site, f)
  | .clock site f => some (0xE8, site, f)
  | .perf site f => some (0xE9, site, f)
  | .swapreq site f => some (0xEA, site, f)
  | .poison site f => some (0xEB, site, f)
  | .ringfP site f => some (0xCC, site, f)
  | .ringrP site f => some (0xCD, site, f)
  | _ => none

/-- The operator word of an opcode and fields (R173). -/
def encodeFields (opc : Nat) (f : OpFields) : BitVec 64 :=
  BitVec.ofNat 64 (opc * 2 ^ 56 + tyCode f.ty * 2 ^ 52 + f.mod.toNat * 2 ^ 48 + srcCode f.sa * 2 ^ 40 + srcCode f.sb * 2 ^ 32
    + srcCode f.sc * 2 ^ 24 + dstCode f.dst * 2 ^ 16 + f.imm.toNat)

/-- A route entry's word (R181). -/
def encodeRouteFields (rop : Nat) (f : RouteFields) : BitVec 48 :=
  BitVec.ofNat 48 (rop * 2 ^ 44 + (f.a.port.val * 32 + f.a.vc.val) * 2 ^ 36 + (f.p.port.val * 32 + f.p.vc.val) * 2 ^ 28
    + (f.x.port.val * 32 + f.x.vc.val) * 2 ^ 20 + (f.y.port.val * 32 + f.y.vc.val) * 2 ^ 12 + f.arg.toNat)

/-- The router operator code, site and fields (R182). -/
def routerFields : Instr → Option (Nat × RouteSite × RouteFields)
  | .route s f => some (1, s, f)
  | .fork s f => some (2, s, f)
  | .steer s f => some (3, s, f)
  | .merge s f => some (4, s, f)
  | .carry s f => some (5, s, f)
  | .invar s f => some (6, s, f)
  | .join s f => some (7, s, f)
  | .drop s f => some (8, s, f)
  | .comb s f => some (9, s, f)
  | .part s f => some (10, s, f)
  | _ => none

/-- A configuration command's word (R65). -/
def encodeConfigWord (cell field : BitVec 8) (value : BitVec 16) : BitVec 32 :=
  BitVec.ofNat 32 (cell.toNat * 2 ^ 24 + field.toNat * 2 ^ 16 + value.toNat)

/-- The word of a configuration command. -/
def configWord : Instr → Option (BitVec 32)
  | .cfgNop _ _ v => some (encodeConfigWord 0xFE 0 v)
  | .cfgBegin _ _ v => some (encodeConfigWord 0xFE 1 v)
  | .cfgOrigin _ _ v => some (encodeConfigWord 0xFE 2 v)
  | .cfgBank _ _ v => some (encodeConfigWord 0xFE 3 v)
  | .cfgSeal _ _ v => some (encodeConfigWord 0xFE 4 v)
  | .cfgLit _ _ v => some (encodeConfigWord 0xFE 5 v)
  | .cfgSwap _ _ v => some (encodeConfigWord 0xFE 6 v)
  | .cfgWrite _ _ c f v => some (encodeConfigWord c f v)
  | _ => none

/-- A Pilot word (R313). -/
def encodePilotWord (funct3 : Nat) (rd rs1 rs2 : BitVec 5) : BitVec 32 :=
  BitVec.ofNat 32 (rs2.toNat * 2 ^ 20 + rs1.toNat * 2 ^ 15 + funct3 * 2 ^ 12 + rd.toNat * 2 ^ 7 + 0x0B)

/-- The word of a Pilot instruction. XG_WFE_TIMEOUT is the same word as XG_WFE, met when its time has passed. -/
def pilotWord : Instr → Option (BitVec 32)
  | .xgQpop _ rd a b => some (encodePilotWord 0 rd a b)
  | .xgQpeek _ rd a b => some (encodePilotWord 1 rd a b)
  | .xgRpush _ rd a b => some (encodePilotWord 2 rd a b)
  | .xgGsetRead _ rd a b => some (encodePilotWord 3 rd a b)
  | .xgGsetSetexp _ rd a b => some (encodePilotWord 3 rd a b)
  | .xgGsetSetbase _ rd a b => some (encodePilotWord 3 rd a b)
  | .xgGsetOpen _ rd a b => some (encodePilotWord 3 rd a b)
  | .xgGsetClose _ rd a b => some (encodePilotWord 3 rd a b)
  | .xgTlnch _ rd a b => some (encodePilotWord 4 rd a b)
  | .xgCfgw _ rd a b => some (encodePilotWord 5 rd a b)
  | .xgWfe _ rd a b => some (encodePilotWord 6 rd a b)
  | .xgWfeTimeout _ rd a b => some (encodePilotWord 6 rd a b)
  | .xgEvsig _ rd a b => some (encodePilotWord 7 rd a b)
  | _ => none

/-- The word of an instruction that has one, and its length in bits. An event has none. -/
def encode (i : Instr) : Option (Nat × Nat) :=
  match operatorFields i, routerFields i, configWord i, pilotWord i with
  | some (opc, _, f), _, _, _ => some (64, (encodeFields opc f).toNat)
  | none, some (rop, _, f), _, _ => some (48, (encodeRouteFields rop f).toNat)
  | none, none, some w, _ => some (32, w.toNat)
  | none, none, none, some w => some (32, w.toNat)
  | none, none, none, none => none

end Sys2Proof
end

