-- ==== Sys2Proof/Machine/Signature.lean ====
section
/-! DEFINITION. Sys2Proof/Machine/Signature.lean: what each operator's description says of its fields: the types it accepts
(R198), the use of SA, SB, SC and DST (R199, R218, R286), the MOD and IMM16 bits it defines and its latency (R184). -/
namespace Sys2Proof.Machine
open Sys2Proof

/-- Use of a source field. -/
inductive Use
  | no        -- shall hold 0xFF
  | val       -- an operand, decoded on arrival
  | raw       -- an operand marked raw
  | rawOpt    -- a raw operand that may be absent
  | ord       -- an ordering input
  | ordOpt    -- an ordering input that may be absent
  deriving DecidableEq, Repr

/-- Use of the destination. -/
inductive DUse
  | no        -- shall hold 0xFF
  | any       -- any destination of R177
  | token     -- an outbound channel or 0xFF
  | out       -- an outbound channel
  deriving DecidableEq, Repr

/-- An operator's signature under given MOD, TY and IMM16. -/
structure OpSig where
  tys : Ty → Bool
  a : Use
  b : Use
  c : Use
  d : DUse
  mods : Nat
  imms : Nat
  lat : Nat

def tyInt (t : Ty) : Bool := tyIsInt t
def tyBits (t : Ty) : Bool := tyIsInt t || t == .raw32
def tyF5 (t : Ty) : Bool := (tyFmt t).isSome
def tyF3 (t : Ty) : Bool := t == .f32 || t == .bf16x2 || t == .f16x2
def tyAll (_ : Ty) : Bool := true
def tyRaw (t : Ty) : Bool := t == .raw32
def tyIn (l : List Ty) (t : Ty) : Bool := l.contains t

/-- The types an atomic function accepts (R233); a reserved AOP is left to the IMM16 check. -/
def atomTys (aop : Nat) (t : Ty) : Bool :=
  match aop with
  | 0 => tyIn [.i32, .u32, .f32, .raw32] t
  | 1 | 2 | 3 => tyIn [.i32, .u32, .i16x2, .u16x2, .f32, .bf16x2, .f16x2] t
  | 4 | 5 | 6 => tyIn [.i32, .u32, .raw32] t
  | 7 => tyIn [.i32, .u32, .f32, .raw32] t
  | 8 => t == .u32
  | _ => true

/-- Kind of MOD bits a conversion defines, by its two types (R216); every bit of some type where the destination type is none of them. -/
def cvtMods (t dt : Ty) : Nat := if !(tyInt dt || tyF5 dt) then 11 else if tyFmt t = none ∧ tyFmt dt = none then 8 else if tyFmt dt = none then 3 else 11

/-- The signature of an opcode (0x00 to 0xEB); none for a reserved code (R183). Of `gen` with an integer TY, MOD[1:0], a rounding mode that R241
defines for f32 alone, may hold any value: the spec does not say that it shall be 0 (DESIGN CHOICE, log 121). Of `brk`, IMM16 holds its c in bits 6:0,
as of `trap` and `assert` (log 144). -/
def sigOf (opc : Nat) (t : Ty) (mod imm : Nat) : Option OpSig :=
  let cur := mod / 2 % 2 == 1
  let dt := (tyOfCode (imm % 16)).getD .raw32
  let idx : Use := if cur then .no else .raw
  match opc with
  | 0x00 | 0x01 => some ⟨tyInt, .val, .val, .no, .any, 8, 0, 1⟩
  | 0x02 => some ⟨tyInt, .val, .val, .no, .any, 8, 0, 2⟩
  | 0x03 => some ⟨tyInt, .val, .val, .no, .any, 0, 0, 2⟩
  | 0x04 => some ⟨tyInt, .val, .val, .val, .any, 8, 0, 2⟩
  | 0x05 => some ⟨tyInt, .val, .val, .no, .any, 8, 0, 10⟩
  | 0x06 => some ⟨tyInt, .val, .val, .no, .any, 0, 0, 10⟩
  | 0x07 | 0x08 => some ⟨tyInt, .val, .val, .no, .any, 0, 0, 1⟩
  | 0x09 => some ⟨tySigned, .val, .no, .no, .any, 8, 0, 1⟩
  | 0x0A | 0x0B | 0x0C | 0x0D => some ⟨tyBits, .val, .val, .no, .any, 0, 0, 1⟩
  | 0x0E => some ⟨tyBits, .val, .val, .no, .any, 8, 0, 1⟩
  | 0x0F => some ⟨tyBits, .val, .val, .no, .any, 0, 0, 1⟩
  | 0x10 => some ⟨tyBits, .val, .val, .no, .any, 4, 0, 1⟩
  | 0x11 | 0x12 | 0x13 | 0x14 => some ⟨tyBits, .val, .no, .no, .any, 0, 0, 1⟩
  | 0x15 => some ⟨tyIn [.i32, .u32, .raw32], .val, .raw, .no, .any, 0, 0, 1⟩
  | 0x16 => some ⟨tyIn [.i32, .u32, .raw32], .val, .raw, .val, .any, 0, 0, 1⟩
  | 0x17 => some ⟨tyAll, .val, .val, .val, .any, 0, 0, 1⟩
  | 0x18 => some ⟨tyInt, .val, .val, .no, .any, 7, 0, 1⟩
  | 0x19 => some ⟨tyInt, .val, .val, .no, .any, 4, 0, 1⟩
  | 0x1A => some ⟨tyInt, .val, .val, .no, .any, 0, 0, 1⟩
  | 0x1B => some ⟨fun t => tyInt t && t != .i32 && t != .u32, .val, .val, .raw, .any, 8, 0, 2⟩
  | 0x1C => some ⟨tyIn [.i8x4, .u8x4, .i4x8], .val, .val, .raw, .any, 12, 0, 2⟩
  | 0x1D => some ⟨tyInt, .val, .val, .no, .any, 8, 0x1F, 1⟩
  | 0x1E => some ⟨tyAll, .val, .no, .no, .any, 0, 0, 1⟩
  | 0x1F => some ⟨tyRaw, .val, .val, .no, .any, 4, 0, 1⟩
  | 0x20 | 0x21 | 0x22 => some ⟨tyF5, .val, .val, .no, .any, 11, 0, 3⟩
  | 0x23 | 0x24 | 0x25 => some ⟨tyF5, .val, .val, .val, .any, 11, 0, 3⟩
  | 0x26 | 0x27 => some ⟨tyF5, .val, .val, .no, .any, 0, 0, 1⟩
  | 0x28 | 0x29 => some ⟨tyF5, .val, .no, .no, .any, 0, 0, 1⟩
  | 0x2A => some ⟨tyF5, .val, .val, .no, .any, 0, 7, 1⟩
  | 0x2B => some ⟨tyF5, .val, .no, .no, .any, 0, 0, 1⟩
  | 0x2C => some ⟨tyF3, .val, .val, .no, .any, 11, 0, 14⟩
  | 0x2D => some ⟨tyF3, .val, .no, .no, .any, 11, 0, 14⟩
  | 0x2E | 0x2F | 0x30 | 0x31 | 0x32 | 0x33 | 0x34 | 0x35 => some ⟨tyF3, .val, .no, .no, .any, 0, 0, 6⟩
  | 0x36 => some ⟨fun t => tyInt t || tyF5 t, .val, if tyLanes dt > tyLanes t then .raw else .no, .no, .any,
      cvtMods t dt, 0x7F, 3⟩
  | 0x37 => some ⟨tyF3, .val, if tyLanes dt > tyLanes t then .raw else .no, .raw, .any, 8, 0x7F, 3⟩
  | 0x38 => some ⟨tyF5, .val, .no, .no, .any, 7, 0, 3⟩
  | 0x39 => some ⟨tyF5, .val, .raw, .no, .any, 11, 0, 3⟩
  | 0x3A => some ⟨tyIn [.bf16x2, .f16x2], .val, .val, .raw, .any, 11, 0, 3⟩
  | 0x3B => some ⟨tyIn [.bf16x2, .f16x2, .e4m3x4, .e5m2x4], .val, .val, .no, .any, 11, 0, 3⟩
  | 0x3C => some ⟨tyF5, .val, .val, .val, .any, 0, 0, 1⟩
  | 0x3D => some ⟨tyF5, .val, .val, .val, .any, 11, 0, 3⟩
  | 0x40 => some ⟨tyIn [.gq4x8], .raw, .raw, .raw, .any, 0, 7, 2⟩
  | 0x41 => some ⟨tyF3, .raw, .raw, .no, .any, 3, 7, 2⟩
  | 0x42 => some ⟨tyIn [.e4m3x4, .e5m2x4], .raw, .raw, .raw, .any, 11, 3, 2⟩
  | 0x43 => some ⟨tyF3, .raw, .raw, .no, .any, 15, 3, 2⟩
  | 0x44 => some ⟨fun t => tyF5 t || tySigned t, .val, .val, .no, .any, 4, 0, 2⟩
  | 0x45 => some ⟨tyIn [.f32], .val, .val, .no, .any, 4, 0, 2⟩
  | 0x46 => some ⟨tyAll, .val, .raw, .no, .any, 0, 0, 2⟩
  | 0x47 => some ⟨tyAll, .val, .no, .no, .any, 0, 0, 2⟩
  | 0x48 => some ⟨tyAll, .val, .raw, .no, .any, 0, 0, 2⟩
  | 0x49 => some ⟨tyAll, .val, .raw, .raw, .any, 0, 0, 2⟩
  | 0x4A => some ⟨tyAll, .val, .no, .no, .any, 0, 7, 2⟩
  | 0x4B => some ⟨tyIn [.i16x2, .u16x2, .i8x4, .u8x4, .i4x8], .val, .no, .no, .any, 4, 0, 2⟩
  | 0x4C => some ⟨tyIn [.i32, .u32, .i16x2, .u16x2, .i8x4, .u8x4], .val, .val, .no, .any, 8, 0, 2⟩
  | 0x4D => some ⟨tyAll, .val, .val, .raw, .any, 0, 0, 2⟩
  | 0x60 => some ⟨tyRaw, .no, .no, .ordOpt, .any, 4, 0xF800, 2⟩
  | 0x61 => some ⟨tyRaw, .raw, .no, .ordOpt, .token, 0, 0xF800, 2⟩
  | 0x62 => some ⟨tyRaw, .raw, .no, .ordOpt, .any, 4, 0xF800, 2⟩
  | 0x63 => some ⟨tyRaw, .raw, .raw, .ordOpt, .token, 0, 0xF800, 2⟩
  | 0x64 | 0x66 => some ⟨tyRaw, idx, .no, .ordOpt, .any, 6, 0xF800, 0⟩
  | 0x65 | 0x67 => some ⟨tyRaw, .raw, idx, .ordOpt, .token, 2, 0xF800, 0⟩
  | 0x68 => some ⟨tyRaw, idx, .no, .no, .token, 2, 0xF800, 0⟩
  | 0x69 | 0x6B | 0x6D => some ⟨atomTys (imm % 32), if imm % 32 = 7 then .no else .raw, idx, .ordOpt, .any, 2, 0xFFFF,
      if opc = 0x69 then 2 else 0⟩
  | 0x6A | 0x6C | 0x6E => some ⟨tyRaw, .raw, .raw, if cur then .ordOpt else .raw, .any, 2, 0xFFE0,
      if opc = 0x6A then 2 else 0⟩
  | 0x6F => some ⟨tyRaw, .no, .no, .ord, .out, 0, 0xFFE0, 0⟩
  | 0x70 => some ⟨tyRaw, .raw, .no, .no, .any, 4, 0xF800, 2⟩
  | 0x71 => some ⟨tyRaw, .no, .no, .ordOpt, .any, 0, 0xF800, 2⟩
  | 0x72 => some ⟨tyRaw, .raw, .no, .ordOpt, .any, 4, 0xF800, 2⟩
  | 0x73 => some ⟨tyRaw, .raw, .raw, .ordOpt, .token, 0, 0xF800, 2⟩
  | 0x80 => some ⟨fun t => tyInt t || t == .f32, .val, .val, .raw, .any, if t = .f32 then 7 else 15, 0, 1⟩
  | 0x81 => some ⟨tyIn [.u32], .raw, .raw, .raw, .any, 4, 0, 1⟩
  | 0x82 => some ⟨tyRaw, .val, .no, .no, .any, 0, 0, 1⟩
  | 0x83 => some ⟨fun t => tyInt t || tyF3 t, .val, .val, .no, .any, if tyIsInt t then 8 else 11, 7, 1⟩
  | 0x84 => some ⟨fun t => tyInt t || tyF3 t, .val, .val, .no, .any, if tyIsInt t then 12 else 15, 7, 1⟩
  | 0x85 | 0x86 | 0x87 | 0x88 => some ⟨tyRaw, .val, .raw, .no, .any, 0, 0, 1⟩
  | 0x89 => some ⟨tyRaw, .val, .raw, .no, .any, 4, 0, 1⟩
  | 0x8A | 0x8B => some ⟨tyRaw, .val, .no, .no, .any, 0, 0, 1⟩
  | 0x8C => some ⟨tyIn [.u32], .raw, .no, .no, .any, 0, 0, 1⟩
  | 0x8D => some ⟨tyRaw, .val, .raw, .no, .any, 0, 0, 1⟩
  | 0xA0 | 0xA1 => some ⟨tyIn [.bf16x2, .e4m3x4, .e5m2x4, .gq4x8], .raw, .no, .ordOpt, .token,
      if t = .e4m3x4 ∨ t = .e5m2x4 then 12 else 8, if t = .gq4x8 then 0xFFFF else 0xFFC1, 0⟩
  | 0xA2 => some ⟨tyIn [.bf16x2, .e4m3x4, .e5m2x4], .raw, .raw, .ordOpt, .token,
      if t = .e4m3x4 ∨ t = .e5m2x4 then 12 else 8, 0xFFFF, 0⟩
  | 0xA3 => some ⟨tyIn [.e4m3x4, .e5m2x4, .gq4x8], .raw, .no, .ordOpt, .token,
      if t = .e4m3x4 ∨ t = .e5m2x4 then 12 else 8, if t = .gq4x8 then 0xFFFF else 0xFFC1, 0⟩
  | 0xA4 => some ⟨tyRaw, .no, .no, .ord, .token, 0, 1, 1⟩
  | 0xA5 => some ⟨tyIn [.f32, .bf16x2], .raw, .no, .ordOpt, .any, if t = .bf16x2 then 3 else 0, 1, 2⟩
  | 0xA6 => some ⟨tyIn [.f32, .bf16x2], .no, .no, .ord, .token, if t = .bf16x2 then 3 else 0, 0xF801, 6⟩
  | 0xA7 => some ⟨tyIn [.f32], .no, .no, .ord, .token, 4, 0xF801, 6⟩
  | 0xA8 => some ⟨tyRaw, .no, .no, .ord, .token, 0, 0xF800, 0⟩
  | 0xA9 => some ⟨tyRaw, .raw, .raw, .ord, .token, 0, 0xF800, 0⟩
  | 0xAA => some ⟨tyIn [.f32], .raw, .no, .no, .any, 4, 3, 0⟩
  | 0xAB => some ⟨tyRaw, .raw, .raw, .ord, .token, 0, 0, 0⟩
  | 0xAC => some ⟨tyIn [.f32, .i32], .val, .no, .no, .any, 3, 0x1FF, 1⟩
  | 0xAD => some ⟨tyIn [.f32, .i32], .val, .no, .no, .any, 3, 0x1FF, 3⟩
  | 0xC0 | 0xC2 | 0xC3 | 0xC4 | 0xC5 | 0xC6 => some ⟨tyRaw, .no, .no, .ordOpt, .token, 0, 0xF800, 0⟩
  | 0xC1 | 0xC7 => some ⟨tyRaw, .no, .no, .ord, .token, 0, 0, 0⟩
  | 0xC8 | 0xCB => some ⟨tyRaw, .raw, .raw, .ordOpt, .token, 0, 0xF800, 0⟩
  | 0xC9 | 0xCA => some ⟨tyRaw, .raw, .raw, .ordOpt, .token, 0, 0xF8E0, 0⟩
  | 0xCC | 0xCD => some ⟨tyRaw, .no, .raw, .ordOpt, .token, 4, 0xF8E0, 0⟩
  | 0xCE => some ⟨tyRaw, .no, .no, .ord, .token, 0, 0xF800, 0⟩
  | 0xCF => some ⟨tyRaw, .raw, .no, .ordOpt, .token, 0, 0xF800, 0⟩
  | 0xD0 | 0xD1 | 0xD2 => some ⟨tyRaw, .raw, .raw, .ordOpt, .token, 0, 0, 0⟩
  | 0xD3 => some ⟨tyRaw, .no, .no, .ordOpt, .token, 0, 0, 0⟩
  | 0xE0 => some ⟨tyRaw, .rawOpt, .no, .no, .no, 0, 0, 1⟩
  | 0xE1 => some ⟨tyRaw, .no, .no, .ordOpt, .any, 0, 0xFF, 1⟩
  | 0xE2 => some ⟨tyRaw, .raw, .no, .ordOpt, .any, 0, 0xFF, 1⟩
  | 0xE3 | 0xE4 | 0xE7 => some ⟨tyRaw, .raw, .no, .no, .no, 0, 0x7F, 1⟩
  | 0xE5 | 0xE6 | 0xEA => some ⟨tyRaw, .raw, .no, .no, .no, 0, 0, 1⟩
  | 0xE8 => some ⟨tyRaw, .no, .no, .ordOpt, .any, 4, 0, 1⟩
  | 0xE9 => some ⟨tyRaw, .raw, .no, .no, .any, 0, 7, 1⟩
  | 0xEB => some ⟨tyRaw, .raw, .no, .no, .any, 0, 0, 1⟩
  | _ => none

/-- A MOD value the operator defines (R174, R207, R283): the bits it leaves undefined are 0 and the value is not reserved. -/
def modOk (opc : Nat) (t : Ty) (mod : Nat) (g : OpSig) : Bool :=
  decide (mod &&& (15 - g.mods) = 0) &&
  (match opc with
    | 0x18 => decide (mod ≤ 5)
    | 0xAC | 0xAD => if t = .f32 then decide (mod ≤ 1) else decide (mod = 2)
    | _ => true)

/-- The operator reads IMM16 through selector 0xE2 or 0xE3 (R178). -/
def usesImm (sa sb sc : Nat) : Bool := [sa, sb, sc].any (fun s => s == 0xE2 || s == 0xE3)

/-- The special registers of R312, and the writable ones. -/
def sregOk (n : Nat) : Bool := decide (n ≤ 0x0A) || (decide (0x10 ≤ n) && decide (n ≤ 0x1F))
def swregOk (n : Nat) : Bool := decide (n = 6) || (decide (0x10 ≤ n) && decide (n ≤ 0x1F))

/-- An IMM16 value the operator defines (R178, R199, R216, R219, R224 to R226, R233, R236, R242, R283, R312). -/
def immOk (opc : Nat) (t : Ty) (mod sa sb sc imm : Nat) (g : OpSig) : Bool :=
  (if g.imms = 0 ∧ usesImm sa sb sc = true then true else decide (imm &&& (0xFFFF - g.imms) = 0)) &&
  (match opc with
    | 0x36 | 0x37 =>
      (match tyOfCode (imm % 16) with
        | none => false
        | some dt =>
          (if opc = 0x36 then tyInt dt || tyF5 dt else tyIn [.bf16x2, .f16x2, .e4m3x4, .e5m2x4] dt) &&
          decide (imm / 16 % 8 < max (tyLanes t) (tyLanes dt) / min (tyLanes t) (tyLanes dt)))
    | 0x41 => decide (imm < 8 / tyLanes t)
    | 0x43 => decide (imm < 4 / tyLanes t)
    | 0x4A => decide (imm < tyLanes t)
    | 0x69 | 0x6B | 0x6D => decide (imm % 32 ≤ 8) && decide (imm / 256 % 8 ≤ 4) &&
        !(imm % 32 == 7 && (imm / 256 % 8 == 2 || imm / 256 % 8 == 3))
    | 0x6A | 0x6C | 0x6E => decide (imm / 256 % 8 ≤ 4)
    | 0x6F => decide (2 ≤ popNat8 (imm / 256))
    | 0x83 | 0x84 => decide (imm ≤ (if tyIsInt t then 5 else 2))
    | 0xAC | 0xAD => decide (mod = 1) || decide (imm = 0)
    | 0xE1 | 0xE2 => sregOk imm
    | _ => true)
where
  /-- Number of ones among eight bits. -/
  popNat8 (n : Nat) : Nat := (List.range 8).foldl (fun k b => k + n / 2 ^ b % 2) 0

/-- A source selector that names an inbound channel, consumed or peeked. -/
def isChan (s : Nat) : Bool := decide (s < 0x40)

/-- A selector value accepted by a use (R175, R178, R199), the handle conditions of R108 apart. -/
def useOk (u : Use) (s : Nat) : Bool :=
  (srcOfCode s).isSome &&
  (match u with
    | .no => decide (s = 0xFF)
    | .val | .raw => decide (s ≠ 0xFF)
    | .rawOpt => true
    | .ord => isChan s
    | .ordOpt => isChan s || decide (s = 0xFF))

/-- A destination value accepted by a use (R177, R228). -/
def dstOk (u : DUse) (d : Nat) : Bool :=
  (dstOfCode d).isSome &&
  (match u with
    | .no => decide (d = 0xFF)
    | .any => true
    | .token => decide (d < 0x20) || decide (d = 0xFF)
    | .out => decide (d < 0x20))

/-- The same inbound channel is named as consumed by an earlier field (R176). -/
def consumedBefore (s : Nat) (earlier : List Nat) : Bool := decide (s < 0x20) && earlier.contains s

/-- H of IMM16. -/
def immHandle (imm : Nat) : Nat := bitsN imm 15 11

end Sys2Proof.Machine
end

