-- ==== Sys2Proof/Machine/Operands.lean ====
section
/-! DEFINITION. Sys2Proof/Machine/Operands.lean: the firing of a slot (R51 to R57): readiness, operands in SA, SB, SC order
(R175, R176), arrival decoding (R95), kinds (R44), consumption, replication (R56), results (R177, R184, R185). -/
namespace Sys2Proof.Machine
open Sys2Proof

/-- Where a slot's channel operands come from (R56): the configured cell, the copy's index j and the number N of copies. -/
structure Feed where
  src : Nat
  j : Nat
  n : Nat
  deriving DecidableEq, Repr

/-- The configured slot that feeds a copy (R55): the nearest cell west (RDIR 0) or north (RDIR 1) whose slot spreads so far. -/
def State.feedFrom (s : State) (i : Inst) (cell slot : Nat) : Nat → Option Feed
  | 0 => none
  | d + 1 =>
    match s.feedFrom i cell slot d with
    | some f => some f
    | none =>
      let j := d + 1
      let look := fun (c : Nat) (dir : Bool) =>
        let h := (s.cell c).active.header slot
        if i.covers c && hdrEn h && decide (j ≤ hdrRepl h) && (hdrRdir h == dir) then some (Feed.mk c j (hdrRepl h + 1)) else none
      match (if j ≤ cellX cell then look (cell - j) false else none) with
      | some f => some f
      | none => if 128 * j ≤ cell then look (cell - 128 * j) true else none

/-- The feed of a slot: its own cell, or for a marked copy the configured cell. -/
def State.feed (s : State) (i : Inst) (cell slot : Nat) : Option Feed :=
  let p := (s.cell cell).active
  if p.marks.getLsbD slot then s.feedFrom i cell slot 63 else some ⟨cell, 0, hdrRepl (p.header slot) + 1⟩

/-- The cell of copy j of a replicated slot configured in a cell (R55). -/
def State.copyCell (s : State) (cell slot j : Nat) : Nat :=
  if hdrRdir ((s.cell cell).active.header slot) then cell + 128 * j else cell + j

/-- The cell whose outbound channels a slot's results leave by: the configured one for a copy (R56). -/
def State.resultCell (s : State) (cell slot : Nat) : Nat :=
  match s.instAt cell with
  | none => cell
  | some i => match s.feed i cell slot with | some fd => fd.src | none => cell

/-- The channel a source names, and whether it is consumed. -/
def srcChan : Src → Option (Nat × Bool)
  | .chan n => some (n.val, true)
  | .peek n => some (n.val, false)
  | _ => none

/-- Every channel operand has a token at its head (R51). -/
def Cell.headsPresent (c : Cell) (f : OpFields) : Bool :=
  [f.sa, f.sb, f.sc].all (fun x => match srcChan x with
    | some (n, _) => !(c.chan n).isEmpty
    | none => true)

/-- The head token of a channel operand. -/
def Cell.headOf (c : Cell) (x : Src) : Option Token :=
  match srcChan x with
  | some (n, _) => (c.chan n).head?
  | none => none

/-- A consumed operand has a DONE at its head. -/
def Cell.doneAtHead (c : Cell) (f : OpFields) : Bool :=
  [f.sa, f.sb, f.sc].any (fun x => match srcChan x with
    | some (_, true) => (c.headOf x).any (fun t => t.kind == .done)
    | _ => false)

/-- The heads that a firing takes give its result the kind POISON or DONE (R44): the operator suppresses its work and emits that token at once
(R374). -/
def Cell.suppresses (c : Cell) (f : OpFields) : Bool :=
  c.doneAtHead f || [f.sa, f.sb, f.sc].any (fun x => (c.headOf x).any (fun t => t.kind == .poison))

/-- The PE of a cell may fire: a resident, running instance, one firing a cycle (R52, R344). -/
def State.cellMayFire (s : State) (i : Inst) (cell : Nat) : Bool :=
  s.sectorRuns (sectorOfCell cell) && !s.held i && !i.debugHeld && !i.retired && !i.parked &&
  decide ((s.cell cell).nextFire ≤ s.cycle (sectorOfCell cell)) && !(s.cell cell).trigDue

/-- A slot whose phase has had all its firings waits for the phase to advance (R57). -/
def Cell.phaseDone (c : Cell) (slot : Nat) : Bool :=
  let h := c.active.header slot
  decide (hdrNph h ≠ 0) && decide (phCount (c.active.phaseEntry (hdrPtbase h + (c.slot slot).phase)) ≤ (c.slot slot).phaseCount)

/-- The destination has room for k tokens (R51): a g register, handle or no destination always has. -/
def State.dstRoom (s : State) (cell : Nat) (d : Dst) (k : Nat) : Bool :=
  match d with
  | .out n => s.outRoom cell n.val k
  | _ => true

/-- What a slot waits for beside its operands: tokens it may emit, a decoupling-queue entry (R123), heads to be read, for
a source (R58) that it has not stopped or finished, room in the unit it sends to (R286), whether it flushes a held element whatever copy
is dealt to next (R244); and the handle whose cursor its access advances, with the number of elements (R107, R230). -/
structure Needs where
  tokens : Nat
  queue : Bool
  heads : Bool
  source : Bool
  room : Bool
  flush : Bool
  cursor : Option (Nat × Nat)
  deriving DecidableEq, Repr

/-- An ordinary operator's needs. -/
def Needs.plain : Needs := ⟨1, false, true, false, true, false, none⟩
/-- A decoupled operator's needs: its token waits for room when it is delivered; one that suppresses its work emits it at once (R374). -/
def Needs.decoupled : Needs := ⟨0, true, true, false, true, false, none⟩
/-- A source's needs. -/
def Needs.generator : Needs := ⟨1, false, true, true, true, false, none⟩

/-- The operator names no inbound channel. -/
def noChannels (f : OpFields) : Bool := [f.sa, f.sb, f.sc].all (fun x => (srcChan x).isNone)

/-- A source may start a segment: not stopped at a boundary of a drain (R58), and not finished under this plane (R232, R241). -/
def sourceOpen (i : Inst) (st : SlotState) (f : OpFields) : Bool :=
  !(i.draining && !st.openSeg) && !(noChannels f && st.f)

/-- Entries of a cell's decoupling queue in use at the start of its cycle, and those taken since (R51, R123). -/
def State.queueUsed (s : State) (cell : Nat) : Nat :=
  (s.reqs.filter (fun r => r.cell == cell)).length + s.vacatedIn (queueOfCell cell) (sectorOfCell cell)

/-- MOD[1], `.cur` (R226). -/
def modCur (f : OpFields) : Bool := f.mod.getLsbD 1
/-- A stream load (R232): no ordering input and no channel operand. -/
def isStreamLoad (f : OpFields) : Bool := f.sc == .none && noChannels f
/-- The level of a handle in the active plane of a site's cell. -/
def State.siteLevel (s : State) (site : Site) (f : OpFields) : Nat := ((s.cell site.cell.val).handle (immHandle f.imm.toNat)).lvl

/-- The opcode of the operators whose work leaves the cell whatever the handle's level (R123, R279, R286). -/
def alwaysDecoupled (opc : Nat) : Bool :=
  decide (0x64 ≤ opc ∧ opc ≤ 0x68) || decide (0x6B ≤ opc ∧ opc ≤ 0x6F) || decide (0xA8 ≤ opc ∧ opc ≤ 0xAB) ||
  decide (0xC0 ≤ opc ∧ opc ≤ 0xC7) || decide (0xCE ≤ opc ∧ opc ≤ 0xD3)

/-- Elements by which a firing advances CUR of the handle it names (R229, R279, R292, R295, R308); `gsload`'s count is an operand. -/
def cursorStep (opc : Nat) (f : OpFields) : Nat :=
  match opc with
  | 0x60 | 0x61 => 1
  | 0x64 | 0x65 | 0x66 | 0x67 | 0x68 | 0x69 | 0x6A | 0x6B | 0x6C | 0x6D | 0x6E => if modCur f then 1 else 0
  | 0x72 => if isStreamLoad f then 1 else 0
  | 0xA8 => 4
  | 0xC0 => 24
  | 0xC2 | 0xC3 | 0xC4 | 0xCE | 0xCF => 8
  | _ => 0

/-- A load that takes its elements from CUR and has neither ordering input nor channel is a source (R58, R232). -/
def isLoadSource (opc : Nat) (f : OpFields) : Bool :=
  isStreamLoad f && (opc == 0x60 || opc == 0x72 || ((opc == 0x64 || opc == 0x66) && modCur f))

/-- Node records on their way to a die's Timetable (R158). -/
def State.recordsSent (s : State) (d : Nat) : Nat :=
  (s.reqs.filter (fun r => dieOfCell r.cell == d && r.stage == .issued && (match r.body with | .tenq _ => true | _ => false))).length

/-- Another copy of a `filt` owes its flush: its element comes before any later one (R56, R244). -/
def State.flushOwed (s : State) (cell slot : Nat) : Bool :=
  match (s.instAt cell).bind (fun i => s.feed i cell slot) with
  | none => false
  | some fd => (List.range fd.n).any (fun j =>
      let c := s.copyCell fd.src slot j
      c != cell && decide (((s.cell c).slot slot).k % 2 = 1))

/-- The fields a slot's firing reads (a flush of `filt` reads none, R244) and its needs. -/
def State.slotNeeds (s : State) (opc : Nat) (site : Site) (f : OpFields) : OpFields × Needs :=
  let c := site.cell.val
  let k := sectorOfCell c
  let d := dieOfCell c
  let base : Needs :=
    if opc = 0x80 ∨ opc = 0x81 ∨ opc = 0x8C then Needs.generator
    else if alwaysDecoupled opc ∨ ((opc = 0x72 ∨ opc = 0x73) ∧ s.siteLevel site f ≠ 0) ∨
        (0xC8 ≤ opc ∧ opc ≤ 0xCD ∧ (s.siteLevel site f ≠ 0 ∨ opc = 0xCA ∨ opc = 0xCC ∨ (opc = 0xC9 ∧ s.pairs ≠ []))) then
      { Needs.decoupled with tokens := if ((s.instAt c).bind (fun i => s.feed i c site.slot.val)).any (fun fd => (s.cell fd.src).suppresses f) then 1 else 0 }
    else Needs.plain
  let step := cursorStep opc f
  let nd := { base with
    tokens := if opc = 0xAC ∧ f.mod.toNat % 4 = 1 then 2 else base.tokens
    source := base.source || isLoadSource opc f
    room := match opc with
      | 0xCE => decide (((s.dieAt d).pool.filter (fun r => r.inPool)).length + s.recordsSent d + s.vacatedIn (queueOfPool d) k < 1024)
      | 0xC0 | 0xC2 | 0xC3 | 0xC4 =>
        decide ((s.cmds.filter (fun m => m.sector == k && m.stage == .queued)).length + s.vacatedIn (queueOfEngine k) k < 16)
      | 0xD2 => decide ((s.dieAt d).pilot.logit.length + s.vacatedIn (queueOfLogit d) k < 1024)
      | 0x85 => !s.flushOwed c site.slot.val
      | _ => true
    cursor := if step = 0 then none else some (immHandle f.imm.toNat, step) }
  if opc = 0x85 ∧ ((s.cell c).slot site.slot.val).k % 2 = 1 then
    ({ f with sa := .none, sb := .none }, { nd with heads := false, flush := true, room := true })
  else (f, nd)

/-- The PE of every other copy of a slot may fire in its cycle: a DONE fires the slot in all of them (R52, R56; log 111). -/
def State.copiesFree (s : State) (src slot n : Nat) : Bool :=
  (List.range (n - 1)).all (fun j =>
    let c := s.copyCell src slot (j + 1)
    decide ((s.cell c).nextFire ≤ s.cycle (sectorOfCell c)) && !(s.cell c).trigDue)

/-- The slot is ready (R51), at the start of the present cycle, with given fields and needs. -/
def State.readyWith (s : State) (site : Site) (f : OpFields) (nd : Needs) : Bool :=
  match s.instAt site.cell.val with
  | none => false
  | some i =>
    match s.feed i site.cell.val site.slot.val with
    | none => false
    | some fd =>
      s.cellMayFire i site.cell.val && !i.heldSites.contains (site.cell.val, site.slot.val) && !s.recWaits site.cell.val site.slot.val 0 &&
      hdrEn ((s.cell site.cell.val).active.header site.slot.val) &&
      !(s.cell site.cell.val).phaseDone site.slot.val &&
      (nd.flush || decide (if (s.cell fd.src).doneAtHead f = true then fd.j = 0
        else ((s.cell fd.src).slot site.slot.val).dealNext % fd.n = fd.j)) &&
      (!nd.heads || (s.cell fd.src).headsPresent f) &&
      (!nd.source || sourceOpen i ((s.cell site.cell.val).slot site.slot.val) f) &&
      (!(decide (1 < fd.n) && (s.cell fd.src).doneAtHead f) || s.copiesFree fd.src site.slot.val fd.n) &&
      s.dstRoom fd.src f.dst nd.tokens &&
      (!nd.queue || decide (s.queueUsed site.cell.val < 32)) && nd.room

/-- The slot is ready to fire an operator (R51). -/
def State.ready (s : State) (opc : Nat) (site : Site) (f : OpFields) : Bool :=
  let e := s.slotNeeds opc site f
  s.readyWith site e.1 e.2

/-! Faults of a firing. -/

/-- A fault a firing meets: what the record says of it. -/
structure FireFault where
  code : Nat
  cont : Nat
  subok : Bool
  d0 : Nat
  d1 : Nat
  deriving DecidableEq, Repr

/-- Holds the instance for a faulting firing (R344): record of source 0 with the slot's operator word; `at_` is the cell the
record names, that of a copy where a copy faults (R372). -/
def State.fireFaultAt (s : State) (i : Inst) (cell slot at_ : Nat) (e : FireFault) : State :=
  let r := (s.baseRec i.die (some i.job) e.code e.cont 0).atCell at_ slot
  let r2 : FaultRec := { r with
    opw := (s.cell at_).active.opWord slot
    subok := e.subok
    detail0 := BitVec.ofNat 64 e.d0
    detail1 := BitVec.ofNat 64 e.d1 }
  (s.takeFault i .firing r2 [(cell, slot)]).updCell cell (fun c => { c with nextFire := max c.nextFire (s.cycle (sectorOfCell cell) + 1) })

/-- Holds the instance for a fault of the firing's own cell. -/
def State.fireFault (s : State) (i : Inst) (cell slot : Nat) (e : FireFault) : State := s.fireFaultAt i cell slot cell e

/-! Operands. -/

/-- One operand as the firing sees it. -/
structure Operand where
  val : Word
  flags : Flags
  tok : Option Token
  chan : Option (Nat × Bool)
  late : Nat
  deriving DecidableEq, Repr

/-- What every operand read of a firing needs. -/
structure ReadCtx where
  cell : Nat
  slot : Nat
  feed : Feed
  inst : Inst
  ty : Ty
  imm : BitVec 16

/-- Reads one source (R175): its operand and the state with a cursor advanced, or the fault it meets (R358, R370). A handle read takes a
cycle, and a bank wait lengthens it (R184, R114); it reads the element at CUR, beyond the region too, and CUR goes on modulo W (R107, log 109).
A channel operand is decoded by the format byte and scale register of the configured cell, whose channel it is, in a copy too (R56, R95,
log 110). -/
def State.readSrc (s : State) (x : ReadCtx) (u : Use) (src : Src) : Except FireFault (Operand × State) :=
  let c := s.cell x.cell
  let plain := fun (v : Word) => Except.ok (Operand.mk v flagNone none none 0, s)
  match src with
  | .none => plain 0
  | .zero => plain 0
  | .one => plain (onePattern x.ty)
  | .imm => plain (x.imm.signExtend 32)
  | .immHi => plain (BitVec.ofNat 32 (x.imm.toNat * 65536))
  | .reg n => plain (c.reg n.val)
  | .konst n => plain (c.active.konst n.val)
  | .cellX => plain (BitVec.ofNat 32 (x.inst.relX x.cell))
  | .cellY => plain (BitVec.ofNat 32 (x.inst.relY x.cell))
  | .patchOrigin =>
    plain (BitVec.ofNat 32 ((sectorPy x.inst.sector + x.inst.y0) * 65536 + sectorPx x.inst.sector + x.inst.x0))
  | .stage => plain (BitVec.ofNat 32 c.stage)
  | .idLow => plain (BitVec.ofNat 32 (c.instId.toNat % 65536))
  | .idHigh => plain (BitVec.ofNat 32 (c.instId.toNat / 65536))
  | .iter => plain (BitVec.ofNat 32 (if 1 < x.feed.n then ((s.cell x.feed.src).slot x.slot).dealNext else (c.slot x.slot).iter))
  | .replica => plain (BitVec.ofNat 32 x.feed.j)
  | .handle n =>
    let h := c.handle n.val
    let off := h.elem h.cur
    if c.anyBad h.swz off h.size then
      .error ⟨0x0D02, if c.anyTagged h.swz off h.size then 1 else 0, true, off % 32768 + Config.syndrome s.draws % 256 * 65536, 0⟩
    else
      let w := s.waitBank x.cell (s.cycle (sectorOfCell x.cell)) h.swz off h.size
      .ok (⟨BitVec.ofNat 32 (c.bytes h.swz off h.size), flagNone, none, none, 1 + w.1⟩,
        w.2.updCell x.cell (fun t => (t.advance n.val 1).count 3 w.1))
  | .chan _ | .peek _ =>
    match srcChan src, (s.cell x.feed.src).headOf src with
    | some ch, some t =>
      if t.ver ≠ (s.cell x.feed.src).active.ver then .error ⟨0x0131, 1, false, t.bits, 0⟩
      else
        let fb := (s.cell x.feed.src).active.fmtByte ch.1
        let dec := u == .val && (t.kind == .data || t.kind == .last)
        let r := if dec then arrivalDecode t.payload ((chFmtOfCode (fb % 16)).getD .raw32)
            ((s.cell x.feed.src).active.scale (fb / 16 % 8)) x.ty
          else (t.payload, flagNone)
        .ok (⟨r.1, r.2, some t, some ch, 0⟩, s)
    | _, _ => .ok (⟨0, flagNone, none, none, 0⟩, s)

/-- A firing at issue: its operands, kind (R44) and what it consumes. -/
structure Firing where
  cell : Nat
  slot : Nat
  feed : Feed
  inst : Inst
  f : OpFields
  a : Word
  b : Word
  c : Word
  ta : Option Token
  tb : Option Token
  tc : Option Token
  kind : Kind
  pay : Word
  flags : Flags
  late : Nat
  cons : List (Nat × Token)
  deps : List Nat
  elem : Nat
  dstOff : Nat
  cyc : Nat
  deriving DecidableEq, Repr

/-- The hops by which the elements dealt to a copy come late (R56, R185). -/
def Firing.deal (F : Firing) : Nat := if F.ta.isSome || F.tb.isSome || F.tc.isSome then F.feed.j else 0
/-- The hops by which a token of a copy goes back to the configured cell (R185). -/
def Firing.backBy (F : Firing) : Nat := match F.f.dst with | .out _ => F.feed.j | _ => 0
/-- The payload a DONE carries on (R240): its own. -/
def Firing.donePay (F : Firing) : Word :=
  match F.cons.find? (fun e => e.2.kind == .done) with
  | some e => e.2.payload
  | none => (F.ta.map Token.payload).getD 0
/-- The payload of the first POISON the firing consumes, if any (R375). -/
def Firing.eaten (F : Firing) : Option Word := (F.cons.find? (fun e => e.2.kind == .poison)).map (fun e => e.2.payload)

/-- A fault's details for a stream-shape fault of a slot (R372): the head tokens of SA and SB. -/
def shapeFault (ta tb : Option Token) (hasDst : Bool) : FireFault :=
  ⟨0x0201, 0, hasDst, (ta.map Token.bits).getD 0, (tb.map Token.bits).getD 0⟩

/-- The kind of a result and its payload (R44): none for a stream-shape fault. -/
def resultKind (ops : List Operand) : Option (Kind × Word) :=
  let toks := ops.filterMap (fun o => o.tok)
  let cons := ops.filterMap (fun o => if o.chan.any (fun c => c.2) then o.tok else none)
  match toks.find? (fun t => t.kind == .poison) with
  | some t => some (.poison, t.payload)
  | none =>
    if cons.any (fun t => t.kind == .done) then
      if cons.all (fun t => t.kind == .done) then some (.done, 0) else none
    else if cons.any (fun t => t.kind == .last) then some (.last, 0) else some (.data, 0)

/-- The version in force. -/
def State.verAt (s : State) (cell : Nat) : BitVec 4 := (s.cell cell).active.ver

/-- Reads the operands of a firing in SA, SB, SC order, takes the element of an access at the cursor (R230), then that of a
handle destination (R176). -/
def State.operands (s : State) (opc : Nat) (site : Site) (f : OpFields) (i : Inst) (fd : Feed) (cursor : Option (Nat × Nat)) :
    Except FireFault (Firing × State) :=
  let cell := site.cell.val
  let slot := site.slot.val
  let x : ReadCtx := ⟨cell, slot, fd, i, f.ty, f.imm⟩
  let g := sigOf opc f.ty f.mod.toNat f.imm.toNat
  let ua := (g.map OpSig.a).getD .raw
  let ub := (g.map OpSig.b).getD .raw
  let uc := (g.map OpSig.c).getD .raw
  let hasDst := f.dst != .none
  if (s.cell cell).active.bad then .error ⟨0x0D05, 1, false, 0, 0⟩ else
  match s.readSrc x ua f.sa with
  | .error e => .error { e with subok := e.cont == 0 && hasDst }
  | .ok (oa, s1) =>
    match s1.readSrc x ub f.sb with
    | .error e => .error { e with subok := e.cont == 0 && hasDst }
    | .ok (ob, s2) =>
      match s2.readSrc x uc f.sc with
      | .error e => .error { e with subok := e.cont == 0 && hasDst }
      | .ok (oc, s3) =>
        match resultKind [oa, ob, oc] with
        | none => .error (shapeFault oa.tok ob.tok hasDst)
        | some (k0, pay) =>
          let F : Firing := {
              cell := cell, slot := slot, feed := fd, inst := i, f := f, a := oa.val, b := ob.val, c := oc.val,
              ta := oa.tok, tb := ob.tok, tc := oc.tok, kind := k0, pay := pay,
              flags := oa.flags ||| ob.flags ||| oc.flags,
              late := max oa.late (max ob.late oc.late),
              cons := [oa, ob, oc].filterMap (fun o => match o.chan, o.tok with
                | some (n, true), some t => some (n, t)
                | _, _ => none),
              deps := ([oa, ob, oc].filterMap (fun o => o.tok)).foldl (fun l t => mergeDeps l t.deps) [],
              elem := 0, dstOff := 0, cyc := s.cycle (sectorOfCell cell) }
          let moved : Firing × State :=
            match cursor with
            | some (n, k) =>
              if k0 = .data ∨ k0 = .last then
                ({ F with elem := ((s3.cell cell).handle n).cur }, s3.updCell cell (fun c => c.advance n k))
              else (F, s3)
            | none => (F, s3)
          let F := moved.1
          let s3 := moved.2
          match f.dst with
          | .handle n =>
            let c := s3.cell cell
            let h := c.handle n.val
            let off := h.elem h.cur
            if (k0 = .data ∨ k0 = .last) ∧ c.anyTagged h.swz off h.size = true then
              .error ⟨0x0707, 0, false, c.bytes h.swz (off / 8 * 8) 8, F.a.toNat + off * 2 ^ 32⟩
            else .ok ({ F with dstOff := off }, s3.setCell cell (c.advance n.val 1))
          | _ => .ok (F, s3)

/-! Counting and consumption. -/

/-- Counts a token for the cell's trigger (R77). -/
def State.countTrig (s : State) (i : Inst) (cell : Nat) (dir : Bool) (ch : Nat) (k : Kind) : State :=
  let c := s.cell cell
  let t := c.active.trigCtl.toNat
  if t / 2 ^ 15 = 1 ∧ (t / 32 % 2 = 1 ↔ dir = true) ∧ t % 32 = ch ∧ k ≠ .poison ∧ i.draining = false then
    s.setCell cell { c with trig := (c.trig + 1) % 2 ^ 32,
                            trigDue := c.trigDue || decide ((c.trig + 1) % 2 ^ 32 = c.active.trigCount) }
  else s

/-- A token enters outbound channel n in the present cycle: port L of the router, or a loop-back FIFO, where it is seen from the next cycle on
(R49, R51). `mark` is the request it comes from, for the slot's results behind it (R53). -/
def State.emitNow (s : State) (cell mark n : Nat) (t : Token) : State :=
  if n < 24 then (s.markArrival cell 4 n).updCell cell (fun c => c.emit n t)
  else
    let at_ := s.cycle (sectorOfCell cell) + 1
    s.updCell cell (fun c => { c with flight := c.flight ++ [⟨at_, 0, .chan n, 0, some t, none, flagNone, [], mark⟩] })

/-- Sends tokens on an outbound channel of a cell at once; the cell `by_` that fired counts them (R312). -/
def State.sendOut (s : State) (i : Inst) (cell by_ mark n : Nat) (deps : List Nat) (l : List (Kind × Word)) : State :=
  l.foldl (fun (a : State) e =>
    ((a.emitNow cell mark n (mkToken (a.cell cell).active.ver e.1 e.2 deps)).updCell by_ (fun c => c.count 6 1)).countTrig i cell true n e.1) s

/-- Removes the head of a channel. -/
def Cell.pop (c : Cell) (n now : Nat) : Cell := (c.setChan n (c.chan n).tail).noteFreed (chanKey n) now

/-- Consumes the tokens of a firing; the firing cell counts them (R312). -/
def State.consume (s : State) (F : Firing) : State :=
  F.cons.foldl (fun (a : State) e =>
    ((a.updCell F.feed.src (fun c => c.pop e.1 s.now)).updCell F.cell (fun c => c.count 5 1)).countTrig F.inst F.feed.src false e.1 e.2.kind) s

/-- One firing of a slot in its cell (R52, R54, R57): the firing pointer and the slot's counters. -/
def Cell.fired (c : Cell) (slot cyc : Nat) : Cell :=
  let st := c.slot slot
  let c1 := { c with ptr := (slot + 1) % 16, nextFire := max c.nextFire (cyc + 1) }
  (c1.setSlot slot { st with iter := (st.iter + 1) % 2 ^ 32,
                             phaseCount := if hdrNph (c.active.header slot) = 0 then 0 else st.phaseCount + 1 }).count 1 1

/-- A slot whose phase has had all its firings moves to the next phase (R57). -/
def Cell.nextPhase (c : Cell) (slot : Nat) : Cell :=
  if c.phaseDone slot then
    let st := c.slot slot
    c.setSlot slot { st with phase := (st.phase + 1) % (hdrNph (c.active.header slot) + 1), phaseCount := 0 }
  else c

/-- The firing consumes a DONE, which is delivered to every copy (R56). -/
def Firing.takesDone (F : Firing) : Bool := decide (1 < F.feed.n) && F.cons.any (fun e => e.2.kind == .done)

/-- The other copies of a slot fire the DONE with copy 0, by which the whole slot is fired (R56, log 111). -/
def State.fireCopies (s : State) (F : Firing) : State :=
  if F.takesDone then
    (List.range (F.feed.n - 1)).foldl (fun (a : State) j =>
      a.updCell (s.copyCell F.feed.src F.slot (j + 1)) (fun c => (c.nextPhase F.slot).fired F.slot F.cyc)) s
  else s

/-- The issue of a firing: its cell's counters, those of the other copies that take a DONE, the instance's first firing. -/
def State.issue (s : State) (F : Firing) : State :=
  let s1 := (s.updCell F.cell (fun c => c.fired F.slot F.cyc)).fireCopies F
  let s2 := if F.inst.started then s1 else
    F.inst.cells.foldl (fun (a : State) c => a.updCell c (fun t => { t with cycle0 := some F.cyc })) s1
  s2.updInst F.inst.id (fun x => { x with started := true, lastActive := s.dev })

/-- Moves the position of dealing on: after a LAST or DONE the next element goes to copy 0 (R56), and the stream index that selector 0xEA
yields starts again at 0 with it (log 112). -/
def State.deal (s : State) (F : Firing) : State :=
  if F.feed.n ≤ 1 then s else
  let ends := F.cons.any (fun e => e.2.kind == .last || e.2.kind == .done)
  s.updCell F.feed.src (fun c =>
    let st := c.slot F.slot
    c.setSlot F.slot { st with dealNext := if ends then 0 else (st.dealNext + 1) % 2 ^ 32 })

/-! Results. -/

/-- The latest result of a slot in flight: results reach their destination in firing order (R53). -/
def Cell.lastDue (c : Cell) (slot : Nat) : Nat :=
  c.flight.foldl (fun m f => if f.slot = slot ∧ f.dst.isResult = true then max m f.due else m) 0

/-- The slot's decoupled entries still to be delivered: a later result comes after them (R53, R123). -/
def State.entriesBefore (s : State) (F : Firing) : List Nat :=
  (s.reqs.filter (fun r => r.slot == F.slot && r.inst == F.inst.id &&
    (r.cell == F.cell || s.resultCell r.cell r.slot == F.feed.src))).map Req.id

/-- What a copy's slot still has to do in its own cell (R271): its token, which leaves from the configured cell, comes after it. -/
def State.effectsBefore (s : State) (F : Firing) : List Nat :=
  if F.cell = F.feed.src then [] else
  ((s.cell F.cell).flight.filter (fun f => f.slot == F.slot && f.mark != 0)).map Flight.mark

/-- The cycle of a result that leaves by a channel: a copy's operands come, and its results leave, by the hops to it (R184, R185). -/
def State.outDue (s : State) (F : Firing) (lat : Nat) : Nat :=
  max (F.cyc + lat + F.late + F.deal + F.feed.j) ((s.cell F.feed.src).lastDue F.slot)
/-- The cycle of a result in the firing cell (R184, R185). -/
def State.ownDue (s : State) (F : Firing) (d : ResDst) (lat : Nat) : Nat :=
  let t := F.cyc + lat + F.late + F.deal
  if d.isResult then max t ((s.cell F.cell).lastDue F.slot) else t

/-- Sends a token on the firing's outbound channel with a latency; the firing cell counts it (R312). -/
def State.emitToken (s : State) (F : Firing) (n : Nat) (k : Kind) (v : Word) (lat : Nat) : State :=
  let c := s.cell F.feed.src
  let t := mkToken c.active.ver k v F.deps
  let fl : Flight := ⟨s.outDue F lat, F.slot, .out n, BitVec.ofNat 64 v.toNat, some t, none, flagNone, s.entriesBefore F ++ s.effectsBefore F, 0⟩
  ((s.setCell F.feed.src { c with flight := c.flight ++ [fl] }).updCell F.cell (fun x => x.count 6 1)).countTrig F.inst F.feed.src true n k

/-- Puts a result in flight in the firing cell. -/
def State.fly (s : State) (F : Firing) (d : ResDst) (v : BitVec 64) (lat : Nat) (fl : Flags)
    (ld : Option Late) : State :=
  let m := if d.isEffect && F.cell != F.feed.src then s.nextId else 0
  let s1 : State := if m = 0 then s else { s with nextId := s.nextId + 1 }
  s1.updCell F.cell (fun c => { c with flight := c.flight ++
    [⟨s.ownDue F d lat, F.slot, d, v, none, ld, fl, if d.isResult then s.entriesBefore F else [], m⟩] })

/-- The result of a firing with a kind and flags (R177): a DONE or POISON writes no register and no handle (R44). -/
def State.result (s : State) (F : Firing) (k : Kind) (v : Word) (fl : Flags) (lat : Nat) : State :=
  let isVal := k == .data || k == .last
  let s1 := if fl = flagNone ∨ (isVal = true ∧ (match F.f.dst with | .reg _ => true | .handle _ => true | _ => false) = true) then s
    else s.fly F .flagsOnly 0 lat fl none
  match F.f.dst with
  | .out n => s1.emitToken F n.val k v lat
  | .reg n =>
    if isVal then s1.fly F (.reg n.val) (BitVec.ofNat 64 v.toNat) lat fl none
    else if k = .poison then s1.absorb F.cell F.slot 0 v else s1
  | .handle n =>
    let h := (s.cell F.cell).handle n.val
    if isVal then s1.fly F (.store F.dstOff h.size h.swz) (BitVec.ofNat 64 v.toNat) lat fl none
    else if k = .poison then s1.absorb F.cell F.slot 0 v else s1
  | .none => if k = .poison then s1.absorb F.cell F.slot 0 v else s1

/-- A result whose value is taken late (R230, R271): on the channel, in the register, or stored at the handle element. -/
def State.lateResult (s : State) (F : Firing) (k : Kind) (lat : Nat) (ld : Late) : State :=
  match F.f.dst with
  | .out n =>
    (s.emitToken F n.val k 0 lat).updCell F.feed.src (fun c => match c.flight.getLast? with
      | some fl => { c with flight := c.flight.dropLast ++ [{ fl with ld := some ld }] }
      | none => c)
  | .reg n => s.fly F (.reg n.val) 0 lat flagNone (some ld)
  | .handle n =>
    let h := (s.cell F.cell).handle n.val
    s.fly F (.store F.dstOff h.size h.swz) 0 lat flagNone (some ld)
  | .none => s.fly F .flagsOnly 0 lat flagNone (some ld)

/-- A firing of an operator that consumes its operands: issue, consumption, dealing. -/
def State.begin (s : State) (F : Firing) : State := ((s.consume F).issue F).deal F

/-! The shared firing. -/

/-- Fires a slot: waits where it is not ready, takes the fault its operands or its own conditions meet, else acts. `pre` is the
operator's own fault test, found at issue (R344). -/
def State.fire (s : State) (opc : Nat) (site : Site) (f : OpFields)
    (pre : State → Firing → Option FireFault) (act : State → Firing → State) : Host.Outcome State Fault Refusal :=
  let f' := (s.slotNeeds opc site f).1
  if s.ready opc site f then
    match s.instAt site.cell.val with
    | none => .next s
    | some i =>
      match s.feed i site.cell.val site.slot.val with
      | none => .next s
      | some fd =>
        match s.operands opc site f' i fd (s.slotNeeds opc site f).2.cursor with
        | .error e => .next (s.fireFault i site.cell.val site.slot.val e)
        | .ok (F, s1) =>
          match pre s1 F with
          | some e => .next (s.fireFault i site.cell.val site.slot.val e)
          | none => .next (act s1 F)
  else .next s

/-- No fault of the operator's own. -/
def noFault (_ : State) (_ : Firing) : Option FireFault := none

/-- The result of a computing operator (R44, R200): a POISON or DONE result computes nothing and raises no flag. -/
def State.compute (s : State) (F : Firing) (lat : Nat) (r : Word × Flags) : State :=
  match F.kind with
  | .poison => s.result F .poison F.pay flagNone lat
  | .done => s.result F .done 0 flagNone lat
  | k => s.result F k r.1 (r.2 ||| F.flags) lat

/-- The firing of an operator that computes one word from its operands (chapters 09 and 10). -/
def State.fireAlu (s : State) (opc : Nat) (alu : AluFn) (lat : Nat) (site : Site) (f : OpFields) :
    Host.Outcome State Fault Refusal :=
  s.fire opc site f noFault (fun s1 F => (s1.begin F).compute F lat (alu f F.a F.b F.c))

end Sys2Proof.Machine
end

