-- ==== Sys2Proof/Machine/SealCheck.lean ====
section
/-! DEFINITION. Sys2Proof/Machine/SealCheck.lean: the checks SEAL makes of every cell of a patch, in the order of R364, each
with its code (R365). -/
namespace Sys2Proof.Machine
open Sys2Proof

/-- A failing check: code, and the fields of DETAIL0 (R367); an item from 0x100 on is a phase-table entry, which is no slot (R368). -/
structure SealFail where
  code : Nat
  bank : Nat
  field : Nat
  item : Nat
  cell : Nat
  val : Nat
  deriving DecidableEq, Repr

/-- The first failure of a list. -/
def firstFail {α : Type} : List (Option α) → Option α
  | [] => none
  | some a :: _ => some a
  | none :: r => firstFail r

/-- A failure at a field of a bank of a plane. -/
def Plane.fail (p : Plane) (code bank field item : Nat) : SealFail :=
  ⟨code, bank, field, item, 0, ((if bank = 0 then p.opField field else if bank = 1 then p.rtField field else p.htField field)).toNat⟩

/-- A source selector that names a handle: it shall be LOC with ESZ below 3 (R108). -/
def Plane.srcHandleOk (p : Plane) (s : Nat) : Bool :=
  if 0xC0 ≤ s ∧ s < 0xE0 then decide ((p.handle (s % 32)).lvl = 0) && decide ((p.handle (s % 32)).esz ≠ 3) else true

/-- The fields of an operator word (R173). -/
structure RawOp where
  opc : Nat
  ty : Nat
  mod : Nat
  sa : Nat
  sb : Nat
  sc : Nat
  dst : Nat
  imm : Nat
  deriving DecidableEq, Repr

def rawOp (w : Nat) : RawOp :=
  ⟨bitsN w 63 56, bitsN w 55 52, bitsN w 51 48, bitsN w 47 40, bitsN w 39 32, bitsN w 31 24, bitsN w 23 16, bitsN w 15 0⟩

/-- The signature in force for a word's opcode and type codes. -/
def RawOp.sig (o : RawOp) : Option OpSig := (tyOfCode o.ty).bind (fun t => sigOf o.opc t o.mod o.imm)

/-- The checks of the fields of a word: (quarter of the word, code), first failure first (R364 item 1). -/
def Plane.wordChecks (p : Plane) (o : RawOp) : Option (Nat × Nat) :=
  match sigOf o.opc .raw32 0 0, tyOfCode o.ty with
  | none, _ => some (3, 0x0110)
  | some _, none => some (3, 0x0111)
  | some _, some t =>
    match sigOf o.opc t o.mod o.imm with
    | none => some (3, 0x0110)
    | some g =>
      firstFail [
        if g.tys t then none else some (3, 0x0111),
        if modOk o.opc t o.mod g then none else some (3, 0x0112),
        if useOk g.a o.sa && p.srcHandleOk o.sa then none else some (2, 0x0113),
        if useOk g.b o.sb && p.srcHandleOk o.sb && !consumedBefore o.sb [o.sa] then none else some (2, 0x0113),
        if useOk g.c o.sc && p.srcHandleOk o.sc && !consumedBefore o.sc [o.sa, o.sb] then none else some (1, 0x0113),
        if decide (0xA0 ≤ o.opc ∧ o.opc ≤ 0xA3) && !(isChan o.sa || isChan o.sc) then some (2, 0x0113) else none,
        if dstOk g.d o.dst && p.srcHandleOk o.dst then none else some (1, 0x0114),
        if immOk o.opc t o.mod o.sa o.sb o.sc o.imm g then none else some (0, 0x0115)]

/-- The word of slot i as phase q sees it. -/
def Plane.phaseOp (p : Plane) (i q : Nat) : RawOp :=
  let o := rawOp (p.opWord i).toNat
  let h := p.header i
  if hdrNph h = 0 then o else
  let e := p.phaseEntry (hdrPtbase h + q)
  { o with opc := phOpc e, ty := phTy e }

/-- The checks of the phase entries of a slot (R180, R365). -/
def Plane.phaseChecks (p : Plane) (i : Nat) : Option SealFail :=
  let h := p.header i
  if hdrNph h = 0 then none else
  firstFail ((List.range (hdrNph h + 1)).map (fun q =>
    let e := hdrPtbase h + q
    match p.wordChecks (p.phaseOp i q) with
    | none => if phReserved (p.phaseEntry e) = 0 then none else some (p.fail 0x0117 0 (0x51 + 2 * e) i)
    | some (_, c) => some (p.fail (if c ≤ 0x0111 then c else 0x0117) 0 (0x51 + 2 * e) i)))

/-- A handle of an element access (R228). -/
def accessHandleOk (opc : Nat) (h : Handle) : Bool :=
  let lvl := match opc with
    | 0x60 | 0x61 | 0x62 | 0x63 | 0x69 | 0x6A => some 0
    | 0x64 | 0x65 | 0x6B | 0x6C => some 1
    | 0x66 | 0x67 | 0x68 | 0x6D | 0x6E => some 2
    | _ => none
  let store := [0x61, 0x63, 0x65, 0x67, 0x73, 0x69, 0x6A, 0x6B, 0x6C, 0x6D, 0x6E].contains opc
  let atomic := [0x69, 0x6A, 0x6B, 0x6C, 0x6D, 0x6E].contains opc
  (match lvl with | some l => decide (h.lvl = l) | none => true) && decide (h.esz ≠ 3) &&
  (!atomic || decide (h.esz = 2)) && (!store || !(h.mir || h.bar || h.ring))

/-- LOC with an element size. -/
def Handle.locEsz (h : Handle) (e : Nat) : Bool := decide (h.lvl = 0) && decide (h.esz = e)

/-- A barrier or ring handle (R300, R302): LOC with the flag set, or REM; ESZ 3. -/
def objHandleOk (h : Handle) (flag : Bool) : Bool := decide (h.esz = 3) && ((decide (h.lvl = 0) && flag) || decide (h.lvl = 1))

/-- Cells of the patch as (cell index, plane). -/
abbrev PatchPlanes := List (Nat × Plane)

/-- A-edge and B-edge cells of a matrix operator (R261). -/
def aEdge (opc x : Nat) : Bool := if opc = 0xA1 then x % 4 == 0 else x == 0
def bEdge (opc y : Nat) : Bool := if opc = 0xA1 then y % 4 == 0 else y == 0

/-- The constraints of a matrix operator (R261): code of the first that is broken. -/
def matrixChecks (ps : PatchPlanes) (w h cell : Nat) (p : Plane) (hdr : Half) (o : RawOp) : Option Nat :=
  let ha := bitsN o.imm 15 11
  let hb := bitsN o.imm 10 6
  let hs := bitsN o.imm 5 1
  let aAll := fun (f : Plane → Bool) => ps.all (fun e => !aEdge o.opc (e.1 % 16) || f e.2)
  let bAll := fun (f : Plane → Bool) => ps.all (fun e => !bEdge o.opc (e.1 / 16) || f e.2)
  let gq := o.ty == 13
  let hd := p.handle hs
  if !(aAll (fun q => (q.handle ha).locEsz 3) && bAll (fun q => (q.handle hb).locEsz 3)) then some 0x011D
  else if gq && !(decide (hs ≤ 30) && aAll (fun q => (q.handle hs).locEsz 2) && bAll (fun q => (q.handle (hs + 1)).locEsz 2)) then
    some 0x011D
  else if o.opc == 0xA3 && !(decide (hb ≤ 30) && bAll (fun q => (q.handle (hb + 1)).locEsz 2)) then some 0x011D
  else if o.opc == 0xA2 && !(hd.locEsz 2 && decide (2 ≤ (hd.rows + 1) * (hd.cols + 1))) then some 0x011D
  else if cell ≠ 0 ∨ hdrRepl hdr ≠ 0 ∨ hdrNph hdr ≠ 0 then some 0x011E
  else if o.opc = 0xA1 ∧ (w % 4 ≠ 0 ∨ h % 4 ≠ 0) then some 0x011E
  else none

/-- The operator's own constraints (R364 item 1): code of the first that is broken. -/
def opChecks (ps : PatchPlanes) (w h cell : Nat) (p : Plane) (hdr : Half) (o : RawOp) : Option Nat :=
  let hd := p.handle (immHandle o.imm)
  let bad := fun (b : Bool) => if b then none else some 0x011D
  match o.opc with
  | 0x60 | 0x61 | 0x62 | 0x63 | 0x64 | 0x65 | 0x66 | 0x67 | 0x68 | 0x69 | 0x6A | 0x6B | 0x6C | 0x6D | 0x6E | 0x72 | 0x73 =>
    bad (accessHandleOk o.opc hd)
  | 0xA0 | 0xA1 | 0xA2 | 0xA3 => matrixChecks ps w h cell p hdr o
  | 0xA6 => bad (hd.locEsz (if o.ty = 8 then 2 else 1) && decide (3 ≤ hd.rows) && decide (7 ≤ hd.cols))
  | 0xA7 => bad (hd.locEsz 2 && decide (3 ≤ hd.rows) && decide (7 ≤ hd.cols))
  | 0xA8 | 0xC0 | 0xC2 | 0xC3 | 0xC4 | 0xCE | 0xCF => bad (hd.locEsz 3)
  | 0xA9 => bad (decide (hd.lvl = 2) && decide (hd.esz = 3))
  | 0xC5 | 0xC6 => bad hd.mir
  | 0xC8 | 0xC9 | 0xCA => bad (objHandleOk hd hd.bar)
  | 0xCB | 0xCC | 0xCD => bad (objHandleOk hd hd.ring)
  | 0xE2 => if swregOk o.imm then none else some 0x011E
  | _ => none

/-- Patch offsets of the copies of a slot in the cell at index `cell` (R55): index of copy j, if inside the patch. -/
def copyCell (w h cell j : Nat) (rdir : Bool) : Option Nat :=
  let x := cell % 16 + (if rdir then 0 else j)
  let y := cell / 16 + (if rdir then j else 0)
  if x < w ∧ y < h then some (16 * y + x) else none

/-- The phase entries that SEAL copies with a slot (R55): PTBASE to PTBASE + NPH. -/
def phasesCopied (h : Half) : List Nat := (List.range (hdrNph h + 1)).map (fun q => hdrPtbase h + q)

/-- The phase entries a slot uses (R57). -/
def phasesOf (h : Half) : List Nat := if hdrNph h = 0 then [] else (List.range (hdrNph h + 1)).map (fun q => hdrPtbase h + q)

/-! Copy marks and expansion (R55). -/

/-- Drops the marked slots: header and operator word cleared, marks dropped. -/
def Plane.dropMarks (p : Plane) : Plane :=
  let q := (List.range 16).foldl (fun (a : Plane) i =>
    if p.marks.getLsbD i then
      ((((a.setOp (4 * i) 0).setOp (4 * i + 1) 0).setOp (4 * i + 2) 0).setOp (4 * i + 3) 0).setOp (0x40 + i) 0
    else a) p
  { q with marks := 0 }

/-- Writes copy j's slot into a copy cell's plane. -/
def Plane.writeCopy (q p : Plane) (i : Nat) : Plane :=
  let hd := p.header i
  let q1 := (List.range 4).foldl (fun (a : Plane) k => a.setOp (4 * i + k) (p.opField (4 * i + k))) q
  let q2 := q1.setOp (0x40 + i) (BitVec.ofNat 16 (hd.toNat % 256 + 2 ^ 15))
  let q3 := (phasesCopied hd).foldl (fun (a : Plane) e =>
    (a.setOp (0x50 + 2 * e) (p.opField (0x50 + 2 * e))).setOp (0x51 + 2 * e) (p.opField (0x51 + 2 * e))) q2
  { q3 with marks := q3.marks ||| BitVec.ofNat 16 (2 ^ i) }

/-- The copy cells of slot i of a configured cell. -/
def copyCells (w h cell i : Nat) (p : Plane) : List Nat :=
  let hd := p.header i
  if hdrEn hd then (List.range (hdrRepl hd)).filterMap (fun j => copyCell w h cell (j + 1) (hdrRdir hd)) else []

/-- The planes once slot i of a configured cell with plane p has spread. -/
def expandSlot (ps : PatchPlanes) (w h cell i : Nat) (p : Plane) : PatchPlanes :=
  let cs := copyCells w h cell i p
  ps.map (fun q => if cs.contains q.1 then (q.1, q.2.writeCopy p i) else q)

/-- The planes once every replicated slot that `sel` names by cell and slot has spread, by ascending cell and slot. -/
def expandWith (sel : Nat → Nat → Bool) (ps : PatchPlanes) (w h : Nat) : PatchPlanes :=
  ps.foldl (fun acc e => (List.range 16).foldl (fun (a : PatchPlanes) i => if sel e.1 i then expandSlot a w h e.1 i e.2 else a) acc) ps

/-- The planes of a patch after expansion, and the number of copy cells written (R80). -/
def expandPatch (ps : PatchPlanes) (w h : Nat) : PatchPlanes × Nat :=
  (expandWith (fun _ _ => true) ps w h,
    (ps.filter (fun q => ps.any (fun e => (List.range 16).any (fun i => (copyCells w h e.1 i e.2).contains q.1)))).length)

/-- The replication checks of a slot (R55): each copy against its cell's configured plane and the copies that earlier slots put there. -/
def replChecks (ps : PatchPlanes) (w h cell i : Nat) (p : Plane) : Option SealFail :=
  let hd := p.header i
  let bad := some (p.fail 0x0116 0 (0x40 + i) i)
  if hdrRepl hd = 0 then none else
  let spread := expandWith (fun c k => decide (c < cell) || (c == cell && decide (k < i))) ps w h
  firstFail ((List.range (hdrRepl hd)).map (fun j =>
    match copyCell w h cell (j + 1) (hdrRdir hd) with
    | none => bad
    | some c =>
      match spread.find? (fun e => e.1 == c) with
      | none => bad
      | some (_, q) =>
        if hdrEn (q.header i) then bad
        else if (phasesCopied hd).any (fun e => q.phaseEntry e != p.phaseEntry e &&
            (List.range 16).any (fun s => hdrEn (q.header s) && (phasesOf (q.header s)).contains e)) then bad
        else none))

/-- The field that holds the value an operator's own constraint fails on (R367): the slot header for the placement of a matrix operator,
IMM16 for the rest. -/
def opCheckField (opc code i : Nat) : Nat :=
  if code = 0x011E ∧ opc ≠ 0xE2 then 0x40 + i else 4 * i

/-- Every check of an enabled slot (R364 item 1). -/
def slotChecks (ps : PatchPlanes) (w h cell i : Nat) (p : Plane) : Option SealFail :=
  let hd := p.header i
  if !hdrEn hd then none else
  let o := rawOp (p.opWord i).toNat
  firstFail [
    if hdrReserved hd ≠ 0 ∨ hdrPtbase hd + hdrNph hd > 7 then some (p.fail 0x0116 0 (0x40 + i) i) else none,
    (p.wordChecks o).map (fun e => p.fail e.2 0 (4 * i + e.1) i),
    p.phaseChecks i,
    firstFail ((List.range (hdrNph hd + 1)).map (fun q =>
      (opChecks ps w h cell p hd (p.phaseOp i q)).map (fun c => p.fail c 0 (opCheckField (p.phaseOp i q).opc c i) i))),
    replChecks ps w h cell i p]

/-- The formats a type accepts on a channel (R97). -/
def fmtOk (t : Ty) (f : ChFmt) : Bool :=
  match t with
  | .raw32 => true
  | .i32 | .u32 | .f32 => f == .raw32
  | .i16x2 | .u16x2 | .bf16x2 | .f16x2 => [ChFmt.raw32, .i16x2, .bf16x2, .f16x2].contains f
  | .i8x4 | .u8x4 | .e4m3x4 | .e5m2x4 => [ChFmt.raw32, .i8x4, .e4m3x4, .e5m2x4].contains f
  | .i4x8 => [ChFmt.raw32, .i4x8].contains f
  | .gq4x8 => [ChFmt.raw32, .gq4x8].contains f

/-- Some phase of slot i reads channel n decoded with a type that does not accept the format (R97, R199, R218). -/
def Plane.slotRejectsFmt (p : Plane) (i n : Nat) (f : ChFmt) : Bool :=
  hdrEn (p.header i) &&
  (List.range (hdrNph (p.header i) + 1)).any (fun q =>
    let o := p.phaseOp i q
    match o.sig, tyOfCode o.ty with
    | some g, some t =>
      let reads := fun (u : Use) (s : Nat) => u == .val && isChan s && s % 32 == n
      (reads g.a o.sa || reads g.b o.sb || reads g.c o.sc) && !fmtOk t f
    | _, _ => false)

/-- Format bytes (R364 item 3). -/
def Plane.fmtChecks (p : Plane) : Option SealFail :=
  firstFail ((List.range 32).map (fun n =>
    let b := p.fmtByte n
    let bad := some (p.fail 0x0119 1 (0x60 + n / 2) n)
    if b ≥ 128 then bad else
    match chFmtOfCode (b % 16) with
    | none => bad
    | some f => if (List.range 16).any (fun i => p.slotRejectsFmt i n f) then bad else none))

/-- The part of each field of a router operator (R182): true for an input, false for an output, none where it is unused. -/
def routeUse (rop : Nat) : List (Option Bool) :=
  match rop with
  | 1 => [some true, none, some false, none]
  | 2 => [some true, none, some false, some false]
  | 3 => [some true, some true, some false, some false]
  | 4 => [some true, some true, some false, some true]
  | 5 => [some true, some true, some false, some true]
  | 6 => [some true, some true, some false, none]
  | 7 => [some true, some true, some false, none]
  | 8 => [some true, none, none, none]
  | 9 => [some true, some true, some false, none]
  | 10 => [some true, none, some false, none]
  | _ => [none, none, none, none]

/-- The fields A, P, X, Y of an entry as (port, VC). -/
def routePvs (w : Nat) : List (Nat × Nat) :=
  [(bitsN w 43 41, bitsN w 40 36), (bitsN w 35 33, bitsN w 32 28), (bitsN w 27 25, bitsN w 24 20), (bitsN w 19 17, bitsN w 16 12)]

/-- The lanes of `part`: 2^LW (R256). -/
def partLanes (arg : Nat) : Nat := 2 ^ (bitsN arg 8 6)

/-- ARG of an entry holds a defined value (R182, R255, R256). -/
def argOk (rop arg xvc : Nat) : Bool :=
  match rop with
  | 8 => true
  | 9 => decide (arg / 4 = 0) && decide (arg ≠ 3)
  | 10 => decide (bitsN arg 11 9 = 0) && decide (bitsN arg 5 5 = 0) && decide (bitsN arg 8 6 ≤ 4) &&
      decide (xvc + partLanes arg - 1 ≤ 23)
  | _ => decide (arg = 0)

/-- The checks of one route entry, field by field (R364 item 4). `present` says whether a mesh port leads anywhere (R18). -/
def Plane.entryChecks (p : Plane) (present : Nat → Bool) (e : Nat) : Option SealFail :=
  let w := (p.routeWord e).toNat
  let rop := bitsN w 47 44
  let at_ := fun (k : Nat) => 3 * e + k
  if rop = 0 then
    if w = 0 then none
    else some (p.fail 0x011A 1 (at_ (if w / 2 ^ 32 ≠ 0 then 2 else if w / 2 ^ 16 ≠ 0 then 1 else 0)) e)
  else if rop > 10 then some (p.fail 0x011A 1 (at_ 2) e)
  else
    let one := fun (k : Nat) (u : Option Bool) (pv : Nat × Nat) =>
      match u with
      | none => if pv = (7, 0) then none else some (p.fail 0x011A 1 (at_ k) e)
      | some _ =>
        if pv.1 ≥ 6 ∨ pv.2 > 23 then some (p.fail 0x011A 1 (at_ k) e)
        else if pv.1 < 4 ∧ present pv.1 = false then some (p.fail 0x011C 1 (at_ k) e)
        else none
    firstFail (
      (List.zipWith (fun k (u : Option Bool × (Nat × Nat)) => one k u.1 u.2) [2, 2, 1, 1] (List.zip (routeUse rop) (routePvs w)))
      ++ [if argOk rop (bitsN w 11 0) (bitsN w 24 20) then none else some (p.fail 0x011A 1 (at_ 0) e)])

/-- The inputs and outputs an entry takes, as FIFO keys; `part` takes all of its lanes (R246). -/
def routeIns (w : Nat) : List (Nat × Nat) :=
  (List.zip (routeUse (bitsN w 47 44)) (routePvs w)).filterMap (fun e => if e.1 = some true then some e.2 else none)
def routeOuts (w : Nat) : List (Nat × Nat) :=
  let l := (List.zip (routeUse (bitsN w 47 44)) (routePvs w)).filterMap (fun e => if e.1 = some false then some e.2 else none)
  if bitsN w 47 44 = 10 then
    l.flatMap (fun e => (List.range (partLanes (bitsN w 11 0))).map (fun i => (e.1, e.2 + i)))
  else l

/-- Whether a list names something twice. -/
def hasDup (l : List (Nat × Nat)) : Bool :=
  match l with
  | [] => false
  | a :: r => r.contains a || hasDup r

/-- The pairwise conflicts of R246: an entry that shares an input or output with an earlier one, with a transit entry, or
within itself. -/
def Plane.conflictChecks (p : Plane) (transit : List (Nat × Nat × Nat × Nat)) : Option SealFail :=
  firstFail ((List.range 32).map (fun e =>
    let w := (p.routeWord e).toNat
    let ins := routeIns w
    let outs := routeOuts w
    let before := (List.range e).map (fun i => (p.routeWord i).toNat)
    -- a merge's, carry's and invar's input Y stands with the outputs' field
    let low := (routeIns w).drop 2
    let meets := fun (l : List (Nat × Nat)) => before.any (fun v => (routeIns v).any (fun a => l.contains a)) ||
      transit.any (fun t => l.contains (t.1, t.2.1))
    let inClash := hasDup (ins.take 2) || meets (ins.take 2)
    let clash := inClash || hasDup ins || meets low || hasDup outs ||
      before.any (fun v => (routeOuts v).any (fun a => outs.contains a)) ||
      transit.any (fun t => outs.contains (t.2.2.1, t.2.2.2))
    if clash then some (p.fail 0x011B 1 (if inClash then 3 * e + 2 else 3 * e + 1) e) else none))

/-- The channels a slot consumes and the one it writes (R48). -/
def Plane.slotConsumes (p : Plane) (i : Nat) : List Nat :=
  let o := rawOp (p.opWord i).toNat
  if hdrEn (p.header i) then [o.sa, o.sb, o.sc].filter (fun s => decide (s < 0x20)) else []
def Plane.slotWrites (p : Plane) (i : Nat) : List Nat :=
  let o := rawOp (p.opWord i).toNat
  if hdrEn (p.header i) ∧ o.dst < 0x20 then [o.dst] else []

/-- Channel ownership (R48): the channels in ascending order, an outbound one before an inbound one; the higher slot is named. -/
def Plane.ownerChecks (p : Plane) : Option SealFail :=
  firstFail ((List.range 32).map (fun ch =>
    let writers := (List.range 16).filter (fun i => (p.slotWrites i).contains ch)
    let users := (List.range 16).filter (fun i => (p.slotConsumes i).contains ch)
    if 1 < writers.length then
      let i := writers.getLastD 0
      some (p.fail 0x0118 0 (4 * i + 1) i)
    else if 1 < users.length then
      let i := users.getLastD 0
      some (p.fail 0x0118 0 (if (rawOp (p.opWord i).toNat).sc = ch then 4 * i + 1 else 4 * i + 2) i)
    else none))

/-- The trigger (R72, R74). -/
def Plane.trigChecks (p : Plane) : Option SealFail :=
  let t := p.trigCtl.toNat
  if bitsN t 14 6 ≠ 0 then some (p.fail 0x011F 1 0x80 0xFF)
  else if t / 2 ^ 15 = 1 ∧ p.trigCount = 0 then some (p.fail 0x011F 1 0x80 0xFF) else none

/-- A handle's own conditions (R108, R304). -/
def Plane.handleOk (p : Plane) (n : Nat) : Bool :=
  let h := p.handle n
  let flags := [h.pub, h.mir, h.bar, h.ring].filter id
  decide (h.lvl ≠ 3) && decide (h.swz ≠ 7) &&
  decide (if h.lvl = 0 then h.base < 2 ^ 15 else if h.lvl = 1 then bitsN h.base 56 51 = 0 ∧ bitsN h.base 29 15 = 0 else True) &&
  (decide (h.lvl = 0) || flags.isEmpty) && decide (flags.length ≤ 1) &&
  decide (h.base % h.size = 0) && decide (h.pitch % h.size = 0) &&
  decide (h.rows = 0 ∨ (h.cols + 1) * h.size ≤ h.pitch) &&
  decide (h.lvl ≠ 0 ∨ h.regionEnd ≤ 32768) &&
  (!h.mir || n == 31 || decide ((p.handle (n + 1)).lvl = 1))

/-- The quarter of a handle's 128 bits that holds the value which breaks R108, in its order (R367): LVL, SWZ and the flags lie in the last, a BASE in the
first, a PITCH from the fourth on (log 28). -/
def Handle.badQuarter (h : Handle) : Nat :=
  let flags := [h.pub, h.mir, h.bar, h.ring].filter id
  let reserved := if h.lvl = 0 then h.base / 2 ^ 15 * 2 ^ 15 else if h.lvl = 1 then h.base / 2 ^ 51 * 2 ^ 51 + bitsN h.base 29 15 * 2 ^ 15 else 0
  if h.lvl = 3 ∨ h.swz = 7 then 7
  else if reserved ≠ 0 then ((List.range 4).find? (fun q => decide (reserved / 2 ^ (16 * q) % 2 ^ 16 ≠ 0))).getD 3
  else if (h.lvl ≠ 0 ∧ flags ≠ []) ∨ 1 < flags.length then 7
  else if h.base % h.size ≠ 0 then 0
  else if h.pitch % h.size ≠ 0 ∨ (h.rows ≠ 0 ∧ h.pitch < (h.cols + 1) * h.size) then 3
  else if h.lvl = 0 ∧ 32768 < h.regionEnd then 0
  else 7

/-- Handles and the Roster count (R364 item 6); a mirror in h31 has no handle after it (R304). -/
def Plane.handleChecks (p : Plane) : Option SealFail :=
  match firstFail ((List.range 32).map (fun n =>
      if !p.handleOk n then some (p.fail 0x011D 2 (8 * n + (p.handle n).badQuarter) n)
      else if n = 31 ∧ (p.handle n).mir = true then some (p.fail 0x011E 2 (8 * n + 7) n) else none)) with
  | some f => some f
  | none =>
    let pubs := (List.range 32).filter (fun n => (p.handle n).pub)
    if pubs.length > 8 then some (p.fail 0x011E 2 0xFF 0xFF) else none

/-- Every check of one cell, in the order of R364. -/
def cellChecks (ps : PatchPlanes) (w h : Nat) (present : Nat → Nat → Bool) (transit : Nat → List (Nat × Nat × Nat × Nat))
    (cell : Nat) (p : Plane) : Option SealFail :=
  (firstFail [
    firstFail ((List.range 16).map (fun i => slotChecks ps w h cell i p)),
    firstFail ((List.range 8).map (fun e => if phReserved (p.phaseEntry e) = 0 then none else some (p.fail 0x0117 0 (0x51 + 2 * e) (0x100 + e)))),
    p.fmtChecks,
    firstFail ((List.range 32).map (fun e => p.entryChecks (present cell) e)),
    p.conflictChecks (transit cell),
    p.ownerChecks,
    p.trigChecks,
    p.handleChecks]).map (fun f => { f with cell := cell })

/-- Every check of a patch but the version (R364). -/
def patchChecks (ps : PatchPlanes) (w h : Nat) (present : Nat → Nat → Bool)
    (transit : Nat → List (Nat × Nat × Nat × Nat)) : Option SealFail :=
  firstFail (ps.map (fun e => cellChecks ps w h present transit e.1 e.2))

end Sys2Proof.Machine
end

