-- ==== Sys2Proof/Machine/MemoryOps.lean ====
section
/-! DEFINITION. Sys2Proof/Machine/MemoryOps.lean: the memory operators 0x60 to 0x73 (R226 to R238): what happens at issue. A LOC
access is made in its cell; a REM or GLB access becomes an entry of the decoupling queue (R123) that the events
PAGE_WALK, HBM_REQUEST, REMOTE_REQUEST and DECOUPLED_RESULT_DELIVERY carry on. -/
namespace Sys2Proof.Machine
open Sys2Proof

/-! Shared operations of decoupled work. -/

/-- What an access names: level, handle number, element as the report names it, address, size, swizzle (R230). For REM the
address is `BASE bits 56:30 * 2^40 + offset`, for GLB the virtual address, for LOC the offset. -/
structure Place where
  lvl : Nat
  handle : Nat
  elem : Nat
  inRange : Bool
  addr : Nat
  size : Nat
  swz : Nat
  deriving DecidableEq, Repr

/-- The displacement of an element added to BASE, by level (R106, R230). -/
def Handle.address (h : Handle) (i j : Nat) : Nat :=
  if h.lvl = 1 then h.base / 2 ^ 30 * 2 ^ 40 + (h.base % 2 ^ 15 + i * h.pitch + j * h.size)
  else h.offset i j

/-- The place of a linear element (R230). -/
def placeElem (h : Handle) (n e : Nat) : Place :=
  ⟨h.lvl, n, e, decide (e < h.wrap), h.address (e / (h.cols + 1)) (e % (h.cols + 1)), h.size, h.swz⟩
/-- The place of a packed row and column (R230). -/
def placePacked (h : Handle) (n : Nat) (p : Word) : Place :=
  let i := bitsN p.toNat 27 16
  let j := bitsN p.toNat 11 0
  ⟨h.lvl, n, p.toNat, decide (i ≤ h.rows) && decide (j ≤ h.cols), h.address i j, h.size, h.swz⟩

/-- REM target fields of a REM address (R106). -/
def remPkg (a : Nat) : Nat := a / 2 ^ 55 % 64
def remDie (a : Nat) : Nat := a / 2 ^ 53 % 4
def remX (a : Nat) : Nat := a / 2 ^ 47 % 64
def remY (a : Nat) : Nat := a / 2 ^ 40 % 128
def remOff (a : Nat) : Nat := a % 2 ^ 40
/-- The package cell number of a REM address. -/
def remCell (a : Nat) : Nat := cellOf (64 * (remDie a % 2) + remX a) (128 * (remDie a / 2) + remY a)

/-- ADDR of a class 0x03 record (R381). -/
def Place.reportAddr (p : Place) : Nat :=
  if p.lvl = 1 then p.addr / 2 ^ 40 % 2 ^ 27 * 2 ^ 30 + remOff p.addr % 2 ^ 15
  else if p.lvl = 0 then p.addr % 2 ^ 15 else p.addr % 2 ^ 57

/-- The fault of class 0x03 at a place (R381). -/
def memFault (code kind wlvl : Nat) (p : Place) (hasDst : Bool) : FireFault :=
  ⟨code, 0, hasDst, kind * 2 ^ 61 + wlvl * 2 ^ 58 + p.reportAddr, p.handle * 2 ^ 40 + p.elem % 2 ^ 40⟩

/-- Links between two cells, and the seams among them. -/
def cellHops (a b : Nat) : Nat :=
  (max (cellX a) (cellX b) - min (cellX a) (cellX b)) + (max (cellY a) (cellY b) - min (cellY a) (cellY b))
def cellSeams (a b : Nat) : Nat :=
  (if cellX a / 64 = cellX b / 64 then 0 else 1) + (if cellY a / 128 = cellY b / 128 then 0 else 1)

/-- The body reaches its unit as a REM access does (R124, R300, R302). -/
def ReqBody.isRemote : ReqBody → Bool
  | .load false _ => true
  | .store false _ => true
  | .atomic false _ _ _ _ _ => true
  | .cas false _ _ _ _ => true
  | .bari _ => true
  | .bara _ _ _ => true
  | .barw _ _ => true
  | .ringi _ => true
  | .ringf _ => true
  | .ringr _ => true
  | _ => false

/-- The unloaded time from issue to delivery that is known at issue (R124), in cycles of the issuing sector: of a REM access the whole, with
the hops of its route where it leaves the package, of a LOC barrier or ring word 2 cycles (R300), of `pfg` and `fence` 10 cycles. -/
def State.entryUnits (s : State) (cell : Nat) (b : ReqBody) (p : Place) : Nat :=
  let u := cycleUnits (s.sector (sectorOfCell cell)).ratio
  match b with
  | .prefetch => 10 * u
  | .fence _ _ _ _ => 10 * u
  | b =>
    if !b.isRemote then 0
    else if p.lvl = 0 then 2 * u
    else
      let t := remCell p.addr
      (10 + 2 * cellHops cell t + 3 * cellSeams cell t) * u + (if remPkg p.addr = s.package then 0 else 60 * podNs (remPkg p.addr))

/-- The tokens that a firing consumes for its operands SA, SB and SC: what the entry holds (R380, R169); a peeked token stays at its head. -/
def Firing.consumed (F : Firing) : List (Option Token) :=
  [(F.f.sa, F.ta), (F.f.sb, F.tb), (F.f.sc, F.tc)].map (fun e => match srcChan e.1 with
    | some (_, true) => e.2
    | _ => none)

/-- The cycles by which a decoupled firing's delivery is later than its entry's (R184, R185): of its handle reads, of the way its operands come to
a copy, and of the way a copy's token goes back to the configured cell. -/
def Firing.lateBy (F : Firing) : Nat := F.late + F.deal + F.backBy

/-- Adds an entry to the decoupling queue for a firing (R123). -/
def State.enqueue (s : State) (F : Firing) (body : ReqBody) (stage : ReqStage) (p : Place) (kind : Kind) (result : BitVec 64) :
    State :=
  let (id, s1) := s.fresh
  let r : Req := {
    id := id, cell := F.cell, slot := F.slot, order := id, inst := F.inst.id, asid := F.inst.asid, body := body, stage := stage,
    handle := p.handle, elem := p.elem, named := (match F.f.dst with | .out _ => true | _ => false), loc := decide (p.lvl = 0),
    addr := p.addr, size := p.size, swz := p.swz, dst := F.f.dst, dstOff := F.dstOff, kind := kind, deps := F.deps,
    result := result, operands := F.consumed, retired := false, remote := false, sentAt := s.dev, wlvl := 7,
    paused := false, arrived := id, readyAt := s.now + s.entryUnits F.cell body p + F.lateBy * cycleUnits (s.sector (sectorOfCell F.cell)).ratio,
    back := F.backBy * cycleUnits (s.sector (sectorOfCell F.cell)).ratio, leaf := 0, atHub := false,
    hops := 0, hopAt := s.now }
  { s1 with reqs := s1.reqs ++ [r] }

/-- No place: an entry that accesses no element. -/
def Place.nowhere : Place := ⟨0, 0, 0, true, 0, 0, 0⟩

/-- A firing whose kind is POISON or DONE does no work; the kind leaves at once on an outbound DST (R374), with latency 1 whatever the
operator's class (log 115), in its slot's order (R53). -/
def State.suppress (s : State) (F : Firing) : State := (s.begin F).result F F.kind F.pay flagNone 1

/-- The work of a firing whose result is a value, or its suppression. -/
def State.unlessSuppressed (s : State) (F : Firing) (act : State → State) : State :=
  match F.kind with
  | .poison => s.suppress F
  | .done => s.suppress F
  | _ => act (s.begin F)

/-- The firing names a destination (SUBOK, R347). -/
def Firing.hasDst (F : Firing) : Bool := F.f.dst != .none
/-- The firing will do its work: its kind is a value's. -/
def Firing.works (F : Firing) : Bool := F.kind == .data || F.kind == .last

/-! Loads and stores. -/

/-- Which element an access takes (R229). -/
inductive Pick | cur | index (w : Word) | packed (w : Word)
  deriving DecidableEq, Repr

/-- The place of a firing's access. -/
def State.place (s : State) (F : Firing) (pk : Pick) : Place :=
  let n := immHandle F.f.imm.toNat
  let h := (s.cell F.cell).handle n
  match pk with
  | .cur => placeElem h n F.elem
  | .index w => placeElem h n w.toNat
  | .packed w => placePacked h n w

/-- The faults of a load at issue (R379, R358). -/
def preLoad (pick : Firing → Pick) (s : State) (F : Firing) : Option FireFault :=
  if !F.works then none else
  let p := s.place F (pick F)
  let c := s.cell F.cell
  if !p.inRange then some (memFault 0x0301 0 7 p F.hasDst)
  else if p.lvl = 0 ∧ c.anyBad p.swz p.addr p.size = true then
    let lvl := if c.anyTagged p.swz p.addr p.size then 1 else 0
    some ⟨0x0D02, lvl, lvl == 0 && F.hasDst, p.addr % 32768 + Config.syndrome s.draws % 256 * 65536, 0⟩
  else none

/-- The fault of a store to a tagged word (R392). -/
def tagFault (c : Cell) (F : Firing) (p : Place) : FireFault :=
  ⟨0x0707, 0, F.hasDst, c.bytes p.swz (p.addr / 8 * 8) 8, F.a.toNat + p.addr % 32768 * 2 ^ 32⟩

/-- The faults of a store or atomic at issue (R379, R392). `kind` is that of R381. -/
def preStore (kind : Nat) (pick : Firing → Pick) (s : State) (F : Firing) : Option FireFault :=
  if !F.works then none else
  let p := s.place F (pick F)
  let c := s.cell F.cell
  if !p.inRange then some (memFault 0x0301 kind 7 p F.hasDst)
  else if p.lvl = 0 ∧ c.anyTagged p.swz p.addr p.size = true then some (tagFault c F p)
  else none

/-- A load with a kind: a LOC load takes its value at its bank in the cycle before its result (R230). -/
def State.load (s : State) (F : Firing) (p : Place) (k : Kind) : State :=
  let sx := modB2 F.f
  if p.lvl = 0 then
    s.lateResult F k 2 (.spad F.cell (F.cyc + 1 + F.late + F.deal) p.addr p.size p.swz sx)
  else s.enqueue F (.load (p.lvl == 2) sx) .issued p k 0

/-- A store: a LOC store is applied in its result cycle, and its completion token leaves then (R230, R231). -/
def State.store (s : State) (F : Firing) (p : Place) (v : Word) : State :=
  if p.lvl = 0 then
    let s1 := s.fly F (.write p.addr p.size p.swz) (BitVec.ofNat 64 v.toNat) 2 flagNone none
    match F.f.dst with
    | .out n => s1.emitToken F n.val F.kind 0 2
    | _ => s1
  else s.enqueue F (.store (p.lvl == 2) (BitVec.ofNat 64 v.toNat)) .issued p F.kind 0

/-- The act of a load from CUR, a stream load among them: the token of element W - 1 is LAST, and the load then fires no more. -/
def actCurLoad (s : State) (F : Firing) : State :=
  s.unlessSuppressed F (fun s1 =>
    let n := immHandle F.f.imm.toNat
    let h := (s1.cell F.cell).handle n
    let p := placeElem h n F.elem
    if isStreamLoad F.f then
      let lastOne := decide (F.elem + 1 = h.wrap)
      let s2 := s1.updCell F.cell (fun c => c.setSlot F.slot { c.slot F.slot with f := lastOne, openSeg := !lastOne })
      s2.load F p (if lastOne then .last else .data)
    else s1.load F p F.kind)

/-- A load of CUR. -/
def State.fireCurLoad (s : State) (opc : Nat) (site : Site) (f : OpFields) : Host.Outcome State Fault Refusal :=
  s.fire opc site f (preLoad (fun _ => .cur)) actCurLoad

/-- A load of an indexed or packed element. -/
def State.fireLoad (s : State) (opc : Nat) (site : Site) (f : OpFields) (pick : Firing → Pick) :
    Host.Outcome State Fault Refusal :=
  s.fire opc site f (preLoad pick)
    (fun s1 F => s1.unlessSuppressed F (fun s2 => s2.load F (s1.place F (pick F)) F.kind))

/-- A store of an element. -/
def State.fireStore (s : State) (opc : Nat) (site : Site) (f : OpFields) (pick : Firing → Pick) :
    Host.Outcome State Fault Refusal :=
  s.fire opc site f (preStore 1 pick)
    (fun s1 F => s1.unlessSuppressed F (fun s2 => s2.store F (s1.place F (pick F)) F.a))

/-- `ldh` (R229). -/
def execLdh (site : Site) (f : OpFields) (s : State) : Host.Outcome State Fault Refusal := s.fireCurLoad 0x60 site f
/-- `sth` (R229). -/
def execSth (site : Site) (f : OpFields) (s : State) : Host.Outcome State Fault Refusal :=
  s.fireStore 0x61 site f (fun _ => .cur)
/-- `lds` (R229). -/
def execLds (site : Site) (f : OpFields) (s : State) : Host.Outcome State Fault Refusal :=
  s.fireLoad 0x62 site f (fun F => .index F.a)
/-- `sts` (R229). -/
def execSts (site : Site) (f : OpFields) (s : State) : Host.Outcome State Fault Refusal :=
  s.fireStore 0x63 site f (fun F => .index F.b)
/-- `ldr` (R229). -/
def execLdr (site : Site) (f : OpFields) (s : State) : Host.Outcome State Fault Refusal :=
  if modCur f then s.fireCurLoad 0x64 site f else s.fireLoad 0x64 site f (fun F => .index F.a)
/-- `str` (R229). -/
def execStr (site : Site) (f : OpFields) (s : State) : Host.Outcome State Fault Refusal :=
  s.fireStore 0x65 site f (fun F => if modCur f then .cur else .index F.b)
/-- `ldg` (R229). -/
def execLdg (site : Site) (f : OpFields) (s : State) : Host.Outcome State Fault Refusal :=
  if modCur f then s.fireCurLoad 0x66 site f else s.fireLoad 0x66 site f (fun F => .index F.a)
/-- `stg` (R229). -/
def execStg (site : Site) (f : OpFields) (s : State) : Host.Outcome State Fault Refusal :=
  s.fireStore 0x67 site f (fun F => if modCur f then .cur else .index F.b)
/-- `ldx` (R229): through a handle of any level; without channels it is a stream load over the cursor's elements (R232). -/
def execLdx (site : Site) (f : OpFields) (s : State) : Host.Outcome State Fault Refusal :=
  if isStreamLoad f then s.fireCurLoad 0x72 site f else s.fireLoad 0x72 site f (fun F => .packed F.a)
/-- `stx` (R229). -/
def execStx (site : Site) (f : OpFields) (s : State) : Host.Outcome State Fault Refusal :=
  s.fireStore 0x73 site f (fun F => .packed F.b)

/-! Atomics. -/

/-- AOP, ORD and SCOPE of IMM16 (R226). -/
def immAop (f : OpFields) : Nat := bitsN f.imm.toNat 4 0
def immOrd (f : OpFields) : Nat := bitsN f.imm.toNat 10 8
def immScope (f : OpFields) : Nat := bitsN f.imm.toNat 7 5

/-- The index operand of an atomic, or CUR. -/
def pickB (f : OpFields) (F : Firing) : Pick := if modCur f then .cur else .index F.b
/-- The index operand of a compare-and-swap, or CUR. -/
def pickC (f : OpFields) (F : Firing) : Pick := if modCur f then .cur else .index F.c

/-- The faults of an atomic or compare-and-swap at issue (R379, R358, R392). -/
def preAtomic (kind : Nat) (pick : Firing → Pick) (s : State) (F : Firing) : Option FireFault :=
  match preLoad pick s F with
  | some e => some (if e.code = 0x0301 then memFault 0x0301 kind 7 (s.place F (pick F)) F.hasDst else e)
  | none => preStore kind pick s F

/-- A LOC atomic: read and written in one access of its bank in its result cycle (R126, R127, R228); latency 2. -/
def State.locAtomic (s : State) (F : Firing) (p : Place) (op : RmwOp) : State :=
  s.lateResult F F.kind 2 (.rmw F.cell (F.cyc + 2 + F.late + F.deal) p.addr p.swz op)

/-- The firing of an atomic (R233). -/
def State.fireAtomic (s : State) (opc lvl : Nat) (site : Site) (f : OpFields) : Host.Outcome State Fault Refusal :=
  s.fire opc site f (preAtomic 2 (pickB f)) (fun s1 F =>
    s1.unlessSuppressed F (fun s2 =>
      let p := s1.place F (pickB f F)
      if lvl = 0 then
        s2.locAtomic F p (.atomic f.ty (immAop f) (immOrd f) (immScope f) F.a)
      else s2.enqueue F (.atomic (lvl == 2) f.ty (immAop f) (immOrd f) (immScope f) F.a) .issued p F.kind 0))

/-- The firing of a compare-and-swap (R234). -/
def State.fireCas (s : State) (opc lvl : Nat) (site : Site) (f : OpFields) : Host.Outcome State Fault Refusal :=
  s.fire opc site f (preAtomic 3 (pickC f)) (fun s1 F =>
    s1.unlessSuppressed F (fun s2 =>
      let p := s1.place F (pickC f F)
      if lvl = 0 then s2.locAtomic F p (.cas (immOrd f) (immScope f) F.a F.b)
      else s2.enqueue F (.cas (lvl == 2) (immOrd f) (immScope f) F.a F.b) .issued p F.kind 0))

/-- `atomh` (R233). -/
def execAtomh (site : Site) (f : OpFields) (s : State) : Host.Outcome State Fault Refusal := s.fireAtomic 0x69 0 site f
/-- `cash` (R234). -/
def execCash (site : Site) (f : OpFields) (s : State) : Host.Outcome State Fault Refusal := s.fireCas 0x6A 0 site f
/-- `atomr` (R233). -/
def execAtomr (site : Site) (f : OpFields) (s : State) : Host.Outcome State Fault Refusal := s.fireAtomic 0x6B 1 site f
/-- `casr` (R234). -/
def execCasr (site : Site) (f : OpFields) (s : State) : Host.Outcome State Fault Refusal := s.fireCas 0x6C 1 site f
/-- `atomg` (R233). -/
def execAtomg (site : Site) (f : OpFields) (s : State) : Host.Outcome State Fault Refusal := s.fireAtomic 0x6D 2 site f
/-- `casg` (R234). -/
def execCasg (site : Site) (f : OpFields) (s : State) : Host.Outcome State Fault Refusal := s.fireCas 0x6E 2 site f

/-! Fence, cursor and prefetch operators. -/

/-- Two cells lie in one instance of a scope (R128): a cell, patch, sector, die, or the package. -/
def State.sameScope (s : State) (scope a b : Nat) : Bool :=
  match scope with
  | 0 => a == b
  | 1 => match s.instAt a with
    | some i => i.covers b
    | none => a == b
  | 2 => sectorOfCell a == sectorOfCell b
  | 3 => dieOfCell a == dieOfCell b
  | _ => true

/-- Closes the held updates of the pairs a test names, and the updates each has closed by now (R141, R142); a publisher in another package is asked for
what came before. -/
def State.closePairs (s : State) (p : Pair → Bool) : State × List (Nat × Nat) :=
  let ask := fun (q : Pair) => if q.isExt then { q with asked := q.asked + 1 } else q.close s.now
  let s1 : State := if s.pairs.isEmpty then s else { s with pairs := s.pairs.map (fun q => if p q then ask q else q) }
  (s1, (s.pairs.filter p).map (fun q => (q.id, if q.isExt then q.asked + 1 else (q.close s.now).closed)))

/-- The subscriptions that a fence or arrival of a cell at a scope covers (R142); at the scopes of one instance, both ends are on
the fabric. -/
def State.covered (s : State) (scope cell : Nat) (q : Pair) : Bool :=
  (if q.isExt then decide (5 ≤ scope) else s.sameScope scope cell q.pub) && s.sameScope scope cell q.sub && (decide (2 ≤ scope) || (q.frame.isNone && q.pubFrame.isNone))

/-- Every update named has been applied, or its pair has ended; another package's publisher has answered, behind the updates before. -/
def State.pairsDone (s : State) (l : List (Nat × Nat)) : Bool :=
  l.all (fun e => match s.pair e.1 with
    | some p => decide (e.2 ≤ if p.isExt then p.synced else p.applied) || p.gone
    | none => true)

/-- `fence` (R236): an entry that FENCE_COMPLETE answers once the accesses before it are done (R140); it closes the held updates it
covers. -/
def execFence (site : Site) (f : OpFields) (s : State) : Host.Outcome State Fault Refusal :=
  s.fire 0x6F site f noFault (fun s1 F => s1.unlessSuppressed F (fun s2 =>
    let c := s2.closePairs (s2.covered (immScope f) F.cell)
    c.1.enqueue F (.fence (bitsN f.imm.toNat 15 8) (immScope f) F.deps c.2) .waiting Place.nowhere F.kind 0))

/-- `hseek` (R237). Where DST is an element at the same handle's cursor, that element is taken and CUR advances first; so in `htell` (log 137). -/
def execHseek (site : Site) (f : OpFields) (s : State) : Host.Outcome State Fault Refusal :=
  s.fire 0x70 site f noFault (fun s1 F => s1.unlessSuppressed F (fun s2 =>
    let n := immHandle f.imm.toNat
    let h := (s2.cell F.cell).handle n
    let cur := if modB2 f then ((h.cur + F.a.toInt) % (h.wrap : Int)).toNat else F.a.toNat % h.wrap
    (s2.updCell F.cell (fun c => c.setCur n cur)).result F F.kind (BitVec.ofNat 32 cur) flagNone 2))
/-- `htell` (R237). -/
def execHtell (site : Site) (f : OpFields) (s : State) : Host.Outcome State Fault Refusal :=
  s.fire 0x71 site f noFault (fun s1 F => s1.unlessSuppressed F (fun s2 =>
    s2.result F F.kind (BitVec.ofNat 32 ((s2.cell F.cell).handle (immHandle f.imm.toNat)).cur) flagNone 2))

/-- `pfg` (R238): never faults; an element beyond W is abandoned with payload 1. -/
def execPfg (site : Site) (f : OpFields) (s : State) : Host.Outcome State Fault Refusal :=
  s.fire 0x68 site f noFault
    (fun s1 F => s1.unlessSuppressed F (fun s2 =>
      let p := s1.place F (if modCur f then .cur else .index F.a)
      if p.inRange then s2.enqueue F .prefetch .issued p F.kind 0 else s2.enqueue F .prefetch .answered p F.kind 1))

end Sys2Proof.Machine
end

