-- ==== Sys2Proof/Machine/EngineAccess.lean ====
section
/-! DEFINITION. Sys2Proof/Machine/EngineAccess.lean: memory accesses of the engines (copy engine, gather path, GVE): translation in
the sector's cache (R121), their faults (R385, R391, R358) and the details of their records (R388), and the holding of a
command (R383). -/
namespace Sys2Proof.Machine
open Sys2Proof

/-- A fault an engine command meets. -/
structure EngFault where
  code : Nat
  lvl : Nat
  d0 : Nat
  d1 : Nat
  deriving DecidableEq, Repr

/-- The fault of R388's layout, no context frame. -/
def engFault (code wlvl side addr cur : Nat) : EngFault :=
  ⟨code, 0, wlvl * 2 ^ 60 + side * 2 ^ 57 + addr % 2 ^ 57, 0xFF * 2 ^ 56 + 0x3FF * 2 ^ 46 + cur % 2 ^ 32⟩

/-- An engine's address space and sector, and as what it reads (R139). -/
structure EngCtx where
  sector : Nat
  asid : Nat
  root : Nat
  codes : Nat → Nat
  reader : Reader

/-- Codes of the copy engine and gather path (R385). -/
def copyCodes (c : Nat) : Nat := if c = 0x0304 then 0x0401 else if c = 0x0306 then 0x0402 else 0x0403
/-- The code of the GVE (R391). -/
def gveCodes (_ : Nat) : Nat := 0x0510

/-- No fault: the access waits for its route (R405). -/
def engWait : EngFault := ⟨0, 0, 0, 0⟩

/-- What an engine's access to a package meets on its way (R331, R383, R405, R406). That no response comes to it in time, or that its port goes
DOWN with it, is the input of the turn (log 46): 0x0904, of level 1 but for a read. -/
def State.engRoute (s : State) (pkg : Nat) (a : Access) : Option EngFault :=
  if pkg = s.package then none else
  match s.routeTo pkg with
  | .open_ =>
    if s.input.flag then some ⟨0x0904, if a = .load then 0 else 1, pkg % 64 + (Map.get 0 s.oroute pkg).toNat % 16 * 256, 0⟩ else none
  | .wait => some engWait
  | .fault code d0 => some ⟨code, 0, d0, 0⟩

/-- Translates a virtual address for an engine; an address of another package needs its route. -/
def State.engXlat (s : State) (x : EngCtx) (va : Nat) (a : Access) (side cur : Nat) : Except EngFault (Nat × State) :=
  match s.translate x.sector x.asid x.root va a with
  | (.ok pa, s1) =>
    if s1.paPresent pa = false then .error (engFault (x.codes 0x0308) 7 side va cur)
    else match if paIsHost pa then none else s1.engRoute (paPackage pa) a with
      | some e => .error e
      | none => .ok (pa, s1)
  | (.bad c l, _) =>
    if c = 0x0D04 then .error ⟨0x0D04, 0, s.walkBad (dieOfSector x.sector) x.asid x.root va, 0⟩ else .error (engFault (x.codes c) l side va cur)
  | (.miss, _) => .error (engFault (x.codes 0x0304) 7 side va cur)

/-- The budget in force of a sector (R334). -/
def Sector.budgetNow (t : Sector) : Nat :=
  if t.budget = 0 then t.boardCap else if t.boardCap = 0 then t.budget else min t.budget t.boardCap

/-- The present interval of device time has begun at the arbiters (R334): what is left of the one before is lost. -/
def State.meterNow (s : State) : Bool := decide (s.deviceNs / 1000 = s.meterAt)

/-- The arbiters admit b bytes of a sector's traffic in this interval (R334). One remainder serves the sector at every port (log 60). -/
def State.admits (s : State) (k b : Nat) : Bool :=
  decide ((s.sector k).budgetNow = 0) || (s.meterNow && decide (b ≤ (s.sector k).rem))
def Sector.spend (t : Sector) (b : Nat) : Sector := { t with rem := if t.budgetNow = 0 then t.rem else t.rem - b, moved := t.moved + b }

/-- Notes n bytes moved at a port of this package's HBM for a sector, in whole 32-byte sectors (R334); a request for another package's
leaves over its link (R331). -/
def State.portMove (s : State) (k pa n : Nat) : State :=
  if paIsHost pa then s
  else if paPackage pa ≠ s.package then s.sendWord (paPackage pa) vcMemory
  else s.updSector k (fun t => { t with moved := t.moved + 32 * ((pa % 32 + n + 31) / 32) })

/-- What waits at the arbiters is still there: a request, an engine command or a grammar command, the frame writes of a parked mirror, or a
request of another package. -/
def State.portAlive (s : State) (k id : Nat) : Bool :=
  s.reqs.any (fun r => r.id == id && (match r.stage with | .translated _ => true | .issued => true | _ => false)) ||
  s.cmds.any (fun c => c.id == id && (c.stage == .active || c.stage == .queued)) || s.pairs.any (fun p => p.id == id && p.parked) ||
  (s.sector k).gve.any (fun g => g.id == id && g.running) || (s.sector k).guests.any (fun g => g.1 == id)

/-- No request of the sector that came before waits: they are admitted in arrival order (R334). -/
def State.portTurn (s : State) (k id : Nat) : Bool :=
  match (s.sector k).portQ.filter (s.portAlive k) with
  | [] => true
  | h :: _ => h == id

/-- A request waits at the arbiter for its turn or for the next interval. -/
def State.portWait (s : State) (k id : Nat) : State :=
  s.updSector k (fun t =>
    let q := t.portQ.filter (s.portAlive k)
    { t with portQ := if q.contains id then q else q ++ [id] })

/-- The metering of a unit of work that takes s to s1 (R334), `paid` bytes of which were admitted in earlier intervals: whether all of it is
admitted, the state, and the bytes admitted so far. The accesses of a unit are admitted one after another, and it is performed with the last. -/
def State.meter (s s1 : State) (k id paid : Nat) : Bool × State × Nat :=
  let t := s.sector k
  let need := (s1.sector k).moved - t.moved - paid
  if t.budgetNow = 0 ∨ (s1.sector k).moved = t.moved then (true, s1, 0)
  else if s.portTurn k id = false ∨ s.meterNow = false then (false, s.portWait k id, paid)
  else if need ≤ t.rem then
    (true, s1.updSector k (fun u => { u with rem := u.rem - need, portQ := u.portQ.filter (fun x => x != id) }), 0)
  else
    let w := s.updSector k (fun u => { u with rem := u.rem % 32, portQ := id :: u.portQ.filter (fun x => x != id) })
    (false, w, paid + t.rem / 32 * 32)

/-- The metering of a request of another package, at the sector of the hub that translates it (R334). -/
def State.meterGuest (s s1 : State) (k id : Nat) : Bool × State :=
  let paid := (((s.sector k).guests.find? (fun g => g.1 == id)).map Prod.snd).getD 0
  let note := fun (a : State) (n : Nat) => a.updSector k (fun t => { t with guests := (id, n) :: t.guests.filter (fun g => g.1 != id) })
  let m := (note s paid).meter (note s1 paid) k id paid
  if m.1 then (true, m.2.1.updSector k (fun t => { t with guests := t.guests.filter (fun g => g.1 != id) }))
  else (false, note m.2.1 m.2.2)

/-- Reads n bytes that lie in one 32-byte sector. -/
def State.engRead (s : State) (x : EngCtx) (va n side cur : Nat) : Except EngFault (List Byte × State) :=
  match s.engXlat x va .load side cur with
  | .error e => .error e
  | .ok (pa, s1) => if s1.memBad pa then .error ⟨0x0D04, 0, pa / 32 * 32, 0⟩ else
      let r := s1.readMem x.reader pa n
      .ok (r.1, r.2.portMove x.sector pa n)

/-- The physical address that a batch's granules give a virtual one (R121, R297). -/
def xlFind (xl : List XlEntry) (va : Nat) : Option Nat := (xl.find? (fun e => e.granule == va / 65536)).map (fun e => e.pa + va % 65536)

/-- Reads a sector of 32 bytes whose granule a batch has translated (R121, R297), or translates it. -/
def State.engReadVia (s : State) (x : EngCtx) (xl : List XlEntry) (va side cur : Nat) : Except EngFault (List Byte × State) :=
  match xlFind xl va with
  | some pa =>
    if s.memBad pa then .error ⟨0x0D04, 0, pa / 32 * 32, 0⟩ else
      let r := s.readMem x.reader pa 32
      .ok (r.1, r.2.portMove x.sector pa 32)
  | none => s.engRead x va 32 side cur

/-- Reads a 32-bit word of a list that the engine goes through more than once: the latest value (log 7). -/
def State.engWord (s : State) (x : EngCtx) (va side cur : Nat) : Except EngFault (Nat × State) :=
  match s.engRead { x with reader := .engine clsGat x.sector s.now } va 4 side cur with
  | .error e => .error e
  | .ok (l, s1) => .ok (bytesNat l, s1)

/-- Bytes that lie in one 32-byte sector, written at a port for a sector; one written whole is no longer uncorrectable (R358). -/
def State.portWrite (s : State) (k pa : Nat) (bs : List Byte) : State :=
  let s1 := (s.memPutList pa bs).portMove k pa bs.length
  if bs.length = 32 ∧ pa % 32 = 0 then s1.healSector pa else s1

/-- Writes bytes that lie in one 32-byte sector. -/
def State.engWrite (s : State) (x : EngCtx) (va side cur : Nat) (bs : List Byte) : Except EngFault State :=
  match s.engXlat x va .store side cur with
  | .error e => .error e
  | .ok (pa, s1) => .ok (s1.portWrite x.sector pa bs)

/-- As `engWrite`, where a batch has translated the granule. -/
def State.engWriteVia (s : State) (x : EngCtx) (xl : List XlEntry) (va side cur : Nat) (bs : List Byte) : Except EngFault State :=
  match xlFind xl va with
  | some pa => .ok (s.portWrite x.sector pa bs)
  | none => s.engWrite x va side cur bs

/-- Reads a block of k 32-byte sectors. -/
def State.engBlock (s : State) (x : EngCtx) (va side cur : Nat) (xl : List XlEntry) : Nat → Except EngFault (List Byte × State)
  | 0 => .ok ([], s)
  | k + 1 =>
    match s.engBlock x va side cur xl k with
    | .error e => .error e
    | .ok (l, s1) =>
      match s1.engReadVia x xl (va + 32 * k) side cur with
      | .error e => .error e
      | .ok (m, s2) => .ok (l ++ m, s2)

/-- Root table of a job. -/
def State.rootOf (s : State) (job : Nat) : Nat := ((s.job job).map Job.root).getD 0

/-- Little-endian fields of a byte list. -/
def listNat (l : List Byte) (off n : Nat) : Nat := bytesNat ((l.drop off).take n)

/-- Records an engine fault of a command and holds it (R383): the state and the HID. `node` names the record of a node command. -/
def State.holdCommand (s : State) (die : Nat) (inst node : Option Nat) (job id cell slot sector srck : Nat) (kind : HoldKind) (e : EngFault) :
    State × Nat :=
  let r0 := (s.baseRec die (some job) e.code e.lvl srck)
  let r1 := match node with
    | none => { r0.atCell cell slot with opw := (s.cell cell).active.opWord slot }
    | some n =>
      match s.poolRec die n with
      | some p => { r0 with sect := sector % 16, gidx := if p.dyn then 0 else p.gidx, dyn := p.dyn }
      | none => { r0 with sect := sector % 16 }
  let r2 : FaultRec := { r1 with detail0 := BitVec.ofNat 64 e.d0, detail1 := BitVec.ofNat 64 e.d1 }
  s.takeCmdFault die inst id kind r2

/-- Answers the decoupling-queue entry of a command (R123, R279, R292). -/
def State.answerCmd (s : State) (p : ReqBody → Bool) (v : BitVec 64) : State :=
  { s with reqs := s.reqs.map (fun r => if p r.body ∧ r.stage = .waiting then r.answered v.toNat s.now else r) }

end Sys2Proof.Machine
end

