-- ==== Sys2Proof/Machine/GrammarOps.lean ====
section
/-! DEFINITION. Sys2Proof/Machine/GrammarOps.lean: the Slate and the Grammar Vector Engine: the operators 0xA8 to 0xAB (R279), the
evaluation of a block (R274 to R277), and the events GRAMMAR_COMMAND_START and GRAMMAR_COMMAND_COMPLETE (R280), with the faults
of R391. -/
namespace Sys2Proof.Machine
open Sys2Proof

/-! Firing. -/

/-- The handle's elements at the cursor before the firing moved it, as bytes: n elements of 8 bytes (R279, R292). -/
def State.cursorBytes (s : State) (F : Firing) (n : Nat) : List Byte :=
  let c := s.cell F.cell
  let h := c.handle (immHandle F.f.imm.toNat)
  (List.range n).flatMap (fun k => c.byteList h.swz (h.elem ((F.elem + k) % h.wrap)) 8)

/-- Where those elements begin, as an engine record names scratchpad (R388). -/
def State.cursorHome (s : State) (F : Firing) : Nat :=
  let h := (s.cell F.cell).handle (immHandle F.f.imm.toNat)
  F.inst.cellIndex F.cell * 2 ^ 15 + h.elem F.elem % 2 ^ 15

/-- An uncorrectable word among the elements at the cursor (R358). -/
def State.cursorFault (s : State) (F : Firing) (n : Nat) : Option FireFault :=
  if !F.works then none else
  let c := s.cell F.cell
  let h := c.handle (immHandle F.f.imm.toNat)
  match ((List.range n).map (fun k => h.elem ((F.elem + k) % h.wrap))).find? (fun o => c.anyBad h.swz o 8) with
  | some o =>
    let lvl := if c.anyTagged h.swz o 8 then 1 else 0
    some ⟨0x0D02, lvl, lvl == 0 && F.hasDst, o % 32768 + Config.syndrome s.draws % 256 * 65536, 0⟩
  | none => none

/-- Queues a grammar command of a firing: its decoupling-queue entry and the command (R279, R280). -/
def State.queueGrammar (s : State) (F : Firing) (op : GveOp) (image : List Byte) (home : Nat) : State :=
  let (id, s1) := s.fresh
  let s2 := s1.enqueue F (.grammar id) .waiting Place.nowhere F.kind 0
  let g : GveCmd := {
    id := id, op := op, running := false, suspended := false, cell := F.cell, slot := F.slot, inst := some F.inst.id, node := none,
    job := F.inst.job, asid := F.inst.asid, image := image, home := home, slateBase := F.inst.slateBase, slateLen := F.inst.slateLen,
    cursor := 0, flags := flagNone, result := 0, hold := none, retry := false, met := none,
    retired := false, paid := 0, deps := F.deps }
  s2.updSector F.inst.sector (fun t => { t with gve := t.gve ++ [g] })

/-- `gspmv` (R279). -/
def execGspmv (site : Site) (f : OpFields) (s : State) : Host.Outcome State Fault Refusal :=
  s.fire 0xA8 site f (fun s1 F => s1.cursorFault F 4) (fun s1 F => s1.unlessSuppressed F (fun s2 =>
    s2.queueGrammar F .eval (s1.cursorBytes F 4) (s1.cursorHome F)))

/-- `gsload` (R279, R417): CUR advances by 4m; the descriptor of its handle goes with the command. -/
def execGsload (site : Site) (f : OpFields) (s : State) : Host.Outcome State Fault Refusal :=
  s.fire 0xA9 site f noFault (fun s1 F => s1.unlessSuppressed F (fun s2 =>
    let n := immHandle f.imm.toNat
    let h := (s1.cell F.cell).handle n
    let image := natBytes 4 F.a.toNat ++ natBytes 4 F.b.toNat ++ natBytes 2 h.cur ++ natBytes 22 n ++
      natBytes 16 ((s1.cell F.cell).active.handleWord n).toNat
    (s2.updCell F.cell (fun c => c.advance n (4 * F.b.toNat))).queueGrammar F .load image 0))

/-- `gsread`'s fault at its firing (R391). -/
def preGsread (_ : State) (F : Firing) : Option FireFault :=
  if F.works ∧ F.inst.slateLen ≤ F.a.toNat then
    let e := engFault 0x0509 7 7 0 0
    some ⟨e.code, 0, F.hasDst, e.d0, e.d1⟩
  else none

/-- `gsread` (R279). -/
def execGsread (site : Site) (f : OpFields) (s : State) : Host.Outcome State Fault Refusal :=
  s.fire 0xAA site f preGsread (fun s1 F => s1.unlessSuppressed F (fun s2 =>
    s2.queueGrammar F .read (natBytes 4 F.a.toNat ++ natBytes 4 (f.imm.toNat % 4 + (if modB2 f then 4 else 0)) ++ natBytes 24 0) 0))

/-- `gsclr` (R279). -/
def execGsclr (site : Site) (f : OpFields) (s : State) : Host.Outcome State Fault Refusal :=
  s.fire 0xAB site f noFault (fun s1 F => s1.unlessSuppressed F (fun s2 =>
    s2.queueGrammar F .clear (natBytes 4 F.a.toNat ++ natBytes 4 F.b.toNat ++ natBytes 24 0) 0))

/-! Evaluation. -/

/-- A symbol (R275). -/
inductive Symbol
  | terminal (c : Nat) (fp8 : Option Bool) (v : Nat)
  | ref (j : Nat)
  | endRule (row : Option Nat)
  | column (cb : Nat)
  | bad
  deriving DecidableEq, Repr

/-- Decodes a symbol, its reserved bits checked (R275, R391). -/
def symbolOf (w : Nat) : Symbol :=
  match bitsN w 31 30 with
  | 0 => .terminal (bitsN w 29 16) none (bitsN w 15 0)
  | 1 => .ref (bitsN w 29 0)
  | 2 =>
    if bitsN w 28 16 ≠ 0 ∨ (bitsN w 29 29 = 0 ∧ bitsN w 15 0 ≠ 0) then .bad
    else .endRule (if bitsN w 29 29 = 1 then some (bitsN w 15 0) else none)
  | _ =>
    match bitsN w 29 28 with
    | 0 => if bitsN w 27 6 ≠ 0 then .bad else .column (bitsN w 5 0)
    | 1 => if bitsN w 26 22 ≠ 0 then .bad else .terminal (bitsN w 21 8) (some (bitsN w 27 27 == 1)) (bitsN w 7 0)
    | _ => .bad

/-- The exact value of a terminal and its flags. -/
def symbolVal (fp8 : Option Bool) (v : Nat) : Ex × Flags :=
  match fp8 with
  | none => (fval fmtBf16 v, snanFlag fmtBf16 v)
  | some false => (fval fmtE4m3 v, flagNone)
  | some true => (fval fmtE5m2 v, flagNone)

/-- The header of a block (R274). -/
structure Block where
  nrule : Nat
  nsym : Nat
  ncol : Nat
  nrow : Nat
  rbase : Nat
  dlim : Nat
  deriving DecidableEq, Repr

def blockOf (h : List Byte) : Block := ⟨listNat h 0 4, listNat h 4 4, listNat h 8 4, listNat h 12 4, listNat h 16 4, listNat h 20 1⟩

/-- The header holds what R274 allows. -/
def blockOk (h : List Byte) (slate : Nat) : Bool :=
  let b := blockOf h
  decide (1 ≤ b.nrule ∧ b.nrule ≤ 32768 ∧ 1 ≤ b.ncol ∧ b.ncol ≤ 1048576 ∧ 1 ≤ b.nrow ∧ b.nrow ≤ 65536 ∧
    1 ≤ b.dlim ∧ b.dlim ≤ 63 ∧ b.rbase + b.nrule ≤ slate) && (h.drop 21).all (fun x => decide (x = 0))

/-- As what a command reads (R139). -/
def State.gveReader (s : State) (g : GveCmd) : Reader :=
  .engine clsGve (sectorOfCell g.cell) (match g.inst.bind s.inst with | some i => i.placedAt | none => s.now)

/-- What one command's run needs. -/
structure GveRun where
  x : EngCtx
  b : Block
  blk : Nat
  vec : Nat
  out : Nat
  nv : Nat
  slateBase : Nat

/-- How a run ends: at its end, stopped after a number of rules, or at a fault with the cursor. -/
inductive GveEnd
  | ended (s : State) (cursor : Nat) (fl : Flags)
  | fault (s : State) (cursor : Nat) (fl : Flags) (e : EngFault)

/-- A Slate entry of a sector. -/
def Sector.slateEntry (t : Sector) (n : Nat) : SlateEntry := Map.get SlateEntry.reset t.slate n

/-- Adds one term to a lane's sum (R276). -/
def laneSum (acc : Word × Flags) (t : Ex × Flags) : Word × Flags :=
  let x := Ex.add .rne (fval fmtF32 acc.1.toNat) t.1
  let r := roundTo fmtF32 .rne false x.1
  (BitVec.ofNat 32 r.1, acc.2 ||| t.2 ||| x.2 ||| r.2)

/-- The four sums after a term for each of the nv lanes. -/
def addTerms (nv : Nat) (sums : List Word) (fl : Flags) (t : Nat → Ex × Flags) : List Word × Flags :=
  (List.range 4).foldl (fun (a : List Word × Flags) l =>
    if l < nv then
      let r := laneSum (sums.getD l 0, a.2) (t l)
      (a.1 ++ [r.1], r.2)
    else (a.1 ++ [sums.getD l 0], a.2)) ([], fl)

/-- Reads the nv lanes of an input column. -/
def State.readColumn (s : State) (r : GveRun) (col cur : Nat) : Nat → Except EngFault (List Nat × State)
  | 0 => .ok ([], s)
  | k + 1 =>
    match s.readColumn r col cur k with
    | .error e => .error e
    | .ok (l, s1) =>
      match s1.engWord r.x (r.vec + 4 * (col * r.nv + k)) 0 cur with
      | .error e => .error e
      | .ok (v, s2) => .ok (l ++ [v], s2)

/-- Writes the nv lanes of an output row. -/
def State.writeRow (s : State) (r : GveRun) (row cur : Nat) (sums : List Word) : Nat → Except EngFault State
  | 0 => .ok s
  | k + 1 =>
    match s.writeRow r row cur sums k with
    | .error e => .error e
    | .ok s1 => s1.engWrite r.x (r.out + 4 * (row * r.nv + k)) 1 cur (natBytes 4 (sums.getD k 0).toNat)

/-- A fault of a rule at a symbol (R391). -/
def ruleFault (code i k d1 : Nat) : EngFault := ⟨code, 0, i % 2 ^ 32 + k * 2 ^ 32, d1⟩

/-- Evaluates symbols from index k on: rule i, its depth d, column block and sums. Rules below `start` are passed over; the run
stops before rule `stop`. `fuel` bounds the symbols left. -/
def State.gveLoop (s : State) (r : GveRun) (start stop : Nat) : Nat → Nat → Nat → Nat → Nat → List Word → Flags → GveEnd
  | 0, k, i, _, _, _, fl => .fault s i fl (ruleFault 0x0507 i k 0)
  | fuel + 1, k, i, d, cb, sums, fl =>
    if stop ≤ i then .ended s i fl else
    match s.engWord r.x (r.blk + 64 + 4 * k) 0 i with
    | .error e => .fault s i fl e
    | .ok (w, s1) =>
      let next := s1.gveLoop r start stop fuel (k + 1)
      match symbolOf w with
      | .bad => if i < start then next i d cb sums fl else .fault s1 i fl (ruleFault 0x0506 i k w)
      | .column c => next i d c sums fl
      | .terminal c fp8 v =>
        if i < start then next i d cb sums fl else
        let col := cb * 16384 + c
        if r.b.ncol ≤ col then .fault s1 i fl (ruleFault 0x0504 i k w) else
        match s1.readColumn r col i r.nv with
        | .error e => .fault s1 i fl e
        | .ok (xs, s2) =>
          let a := addTerms r.nv sums fl (fun l =>
            let xv := xs.getD l 0
            let y := symbolVal fp8 v
            let p := Ex.mul y.1 (fval fmtF32 xv)
            (p.1, y.2 ||| snanFlag fmtF32 xv ||| p.2))
          s2.gveLoop r start stop fuel (k + 1) i d cb a.1 a.2
      | .ref j =>
        if i < start then next i d cb sums fl else
        if r.b.rbase + i ≤ j then .fault s1 i fl (ruleFault 0x0501 i k w) else
        let e := (s1.sector r.x.sector).slateEntry (r.slateBase + j)
        if e.bad then .fault s1 i fl ⟨0x0D03, 1, j, 0⟩
        else if j < r.b.rbase ∧ e.valid = false then .fault s1 i fl (ruleFault 0x0502 i k w)
        else
          let a := addTerms r.nv sums fl (fun l =>
            let v := (e.lanes.getD l 0).toNat
            (fval fmtF32 v, snanFlag fmtF32 v))
          next i (max d (1 + e.depth)) cb a.1 a.2
      | .endRule row =>
        let last := decide (i + 1 = r.b.nrule)
        if i < start then next (i + 1) 1 0 [0, 0, 0, 0] fl
        else if r.b.dlim < d then .fault s1 i fl (ruleFault 0x0503 i k d)
        else if row.any (fun n => decide (r.b.nrow ≤ n)) then .fault s1 i fl (ruleFault 0x0505 i k w)
        else if last && decide (k + 1 ≠ r.b.nsym) then .fault s1 i fl (ruleFault 0x0507 i k w)
        else
          let done := match row with
            | some n => s1.writeRow r n i sums r.nv
            | none => .ok s1
          match done with
          | .error e => .fault s1 i fl e
          | .ok s2 =>
            let entry : SlateEntry := ⟨true, d, (List.range 4).map (fun l => if l < r.nv then sums.getD l 0 else 0), false⟩
            let s3 := s2.updSector r.x.sector (fun t => { t with slate := Map.put t.slate (r.slateBase + r.b.rbase + i) entry })
            if last then .ended s3 (i + 1) fl
            else s3.gveLoop r start stop fuel (k + 1) (i + 1) 1 0 [0, 0, 0, 0] fl

/-- A virtual address field of a command, its reserved bits zero (R278). -/
def cmdVa (l : List Byte) (off : Nat) : Nat := listNat l off 8 % 2 ^ 57

/-- Runs a `gspmv` or node command from its cursor to before rule `stop` (R276, R278): at its end already where every rule was evaluated
before it was suspended (R282). -/
def State.gveEval (s : State) (sector : Nat) (g : GveCmd) (stop : Nat) : GveEnd :=
  let img := g.image
  let bad := .fault s 0 g.flags (engFault 0x0509 7 7 g.home 0)
  let x : EngCtx := ⟨sector, g.asid, s.rootOf g.job, gveCodes, s.gveReader g⟩
  let blk := cmdVa img 0
  let vec := cmdVa img 8
  let out := cmdVa img 16
  let w3 := listNat img 24 8
  if listNat img 0 8 / 2 ^ 57 ≠ 0 ∨ listNat img 8 8 / 2 ^ 57 ≠ 0 ∨ listNat img 16 8 / 2 ^ 57 ≠ 0 ∨ w3 % 2 ^ 62 ≠ 0 then bad
  else if blk % 64 ≠ 0 ∨ vec % 4 ≠ 0 ∨ out % 4 ≠ 0 then bad
  else
    match s.engBlock x blk 0 g.cursor [] 2 with
    | .error e => .fault s g.cursor g.flags e
    | .ok (h, s1) =>
      if blockOk h g.slateLen then
        let b := blockOf h
        let r : GveRun := ⟨x, b, blk, vec, out, w3 / 2 ^ 62 + 1, g.slateBase⟩
        if b.nrule ≤ g.cursor then .ended s1 g.cursor g.flags else
        s1.gveLoop r g.cursor (min stop b.nrule) b.nsym 0 0 1 0 [0, 0, 0, 0] g.flags
      else .fault s1 0 g.flags (engFault 0x0508 7 7 blk 0)

/-- An entry image (R279): none where a reserved bit is set, or DEPTH is 0 with VALID. -/
def imageEntry (l : List Byte) : Option SlateEntry :=
  let b := listNat l 16 1
  let depth := b % 64
  let valid := b / 128 == 1
  if b / 64 % 2 ≠ 0 ∨ (l.drop 17).any (fun x => decide (x ≠ 0)) ∨ (valid = true ∧ depth = 0) then none
  else some ⟨valid, depth, (List.range 4).map (fun i => BitVec.ofNat 32 (listNat l (4 * i) 4)), false⟩

/-- The entries `gsload` or `gsclr` names lie within the allotment (R279). -/
def gveInRange (g : GveCmd) : Bool :=
  let m := listNat g.image 4 4
  decide (m ≠ 0 ∧ m ≤ 32768 ∧ listNat g.image 0 4 + m ≤ g.slateLen)

/-- Loads images q to stop - 1 (R279). -/
def State.gveLoad (s : State) (sector : Nat) (g : GveCmd) (stop : Nat) : Nat → GveEnd
  | 0 => .ended s stop g.flags
  | k + 1 =>
    let q := stop - (k + 1)
    let f := listNat g.image 0 4
    let h := handleOf (listNat g.image 32 16)
    let x : EngCtx := ⟨sector, g.asid, s.rootOf g.job, gveCodes, s.gveReader g⟩
    let el := fun (j : Nat) => h.elem ((listNat g.image 8 2 + 4 * q + j) % h.wrap) % 2 ^ 57
    let rd := (List.range 4).foldl (fun (a : Except EngFault (List Byte × State)) j =>
      match a with
      | .error e => .error e
      | .ok (l, s1) =>
        match s1.engRead x (el j) 8 0 q with
        | .error e => .error e
        | .ok (m, s2) => .ok (l ++ m, s2)) (.ok ([], s))
    match rd with
    | .error e => .fault s q g.flags e
    | .ok (l, s1) =>
      match imageEntry l with
      | none => .fault s1 q g.flags (engFault 0x0509 7 0 (el 0) q)
      | some e =>
        (s1.updSector sector (fun t => { t with slate := Map.put t.slate (g.slateBase + f + q) e })).gveLoad sector g stop k

/-- Clears entries (R279). -/
def State.gveClear (s : State) (sector : Nat) (g : GveCmd) (stop : Nat) : GveEnd :=
  let f := listNat g.image 0 4
  let m := listNat g.image 4 4
  let n := min stop m
  .ended ((List.range (n - g.cursor)).foldl (fun (a : State) k =>
    a.updSector sector (fun t => { t with slate := Map.del t.slate (g.slateBase + f + g.cursor + k) })) s) n g.flags

/-- The units of a command: rules, images or entries to be done. -/
def gveUnits (g : GveCmd) : Nat := match g.op with | .eval => 32768 | .read => 1 | _ => listNat g.image 4 4

/-- The fault of a command whose entries lie outside its allotment (R279, R391). -/
def gveRangeFault (g : GveCmd) : EngFault := engFault 0x0509 7 7 g.home 0

/-- Runs a command from its cursor, at most to unit `stop`. -/
def State.gveRun (s : State) (sector : Nat) (g : GveCmd) (stop : Nat) : GveEnd :=
  match g.op with
  | .eval => s.gveEval sector g stop
  | .load =>
    let n := min stop (listNat g.image 4 4)
    if gveInRange g then s.gveLoad sector g n (n - g.cursor) else .fault s 0 g.flags (gveRangeFault g)
  | .clear => if gveInRange g then s.gveClear sector g stop else .fault s 0 g.flags (gveRangeFault g)
  | .read => .ended s 1 g.flags

/-- Updates a command of a sector. -/
def State.updGve (s : State) (k id : Nat) (f : GveCmd → GveCmd) : State :=
  s.updSector k (fun t => { t with gve := t.gve.map (fun g => if g.id = id then f g else g) })

/-- Two commands wait on each other's hold: one instance's, or one node's (R280). -/
def sameParty (a b : GveCmd) : Bool := (a.inst.isSome && a.inst == b.inst) || (a.node.isSome && a.node == b.node)

/-- The next command in arrival order that no held command of its own party precedes (R280). One that a pre-emption has suspended holds back none:
the `gsread` of its instance that the drain awaits (R169) goes before it (log 140). -/
def nextGve : List GveCmd → List GveCmd → Option GveCmd
  | [], _ => none
  | g :: r, held =>
    if g.hold.isSome then nextGve r (g :: held)
    else if g.suspended || held.any (sameParty g) then nextGve r held
    else some g

/-- GRAMMAR_COMMAND_START: the idle engine of a sector takes the next command (R280). -/
def execGrammarCommandStart (sector : Nat) (s : State) : Host.Outcome State Fault Refusal :=
  let t := s.sector sector
  if s.sectorRuns sector = false ∨ s.engineStalls sector 4 = true ∨ t.gve.any (fun g => g.running) = true then .next s else
  match nextGve t.gve [] with
  | none => .next s
  | some g => .next (s.updGve sector g.id (fun c => { c with running := true }))

/-- The value a `gsread` returns (R279). -/
def gsreadValue (e : SlateEntry) (sel : Nat) : Word :=
  if sel / 4 = 1 then BitVec.ofNat 32 ((if e.valid then 2 ^ 31 else 0) + e.depth) else e.lanes.getD (sel % 4) 0

/-- Holds a faulting command out of the engine (R280, R383), or the instance of a `gsread`. One that waits for its route goes on
from its cursor (R405). -/
def State.gveFault (s : State) (sector : Nat) (g : GveCmd) (cursor : Nat) (fl : Flags) (e : EngFault) : State :=
  if e.code = 0 then s.updGve sector g.id (fun c => { c with cursor := cursor, flags := fl }) else
  if !g.retry && g.op != .read && (g.inst.bind s.inst).any (fun i => i.preempt && !i.retired) then
    s.updGve sector g.id (fun c => { c with
      running := false, suspended := true, cursor := cursor, flags := fl, met := some ⟨e.code, e.lvl, e.d0, e.d1, s.deviceNs⟩ })
  else
  let r := s.holdCommand (dieOfSector sector) g.inst g.node g.job g.id g.cell g.slot sector 4 .grammar e
  r.1.updGve sector g.id (fun c => { c with running := false, cursor := cursor, flags := fl, hold := some r.2, retry := false })

/-- GRAMMAR_COMMAND_COMPLETE: the running command has performed its accesses; its token, with the flags it raised, is
answered (R279), once the arbiter has admitted what it moves (R334); a `gsread` no earlier than 12 cycles after its issue (R280). -/
def execGrammarCommandComplete (command : Nat) (s : State) : Host.Outcome State Fault Refusal :=
  match s.sectors.find? (fun e => e.2.gve.any (fun g => g.id == command)) with
  | none => .next s
  | some (k, t) =>
    match t.gve.find? (fun g => g.id == command) with
    | none => .next s
    | some g =>
      if s.sectorRuns k = false ∨ s.engineStalls k 4 = true ∨ g.running = false then .next s
      else
        let req := s.reqs.find? (fun r => r.body == .grammar command)
        match g.op with
        | .read =>
          let n := listNat g.image 0 4
          let e := t.slateEntry (g.slateBase + n)
          if req.any (fun r => decide (s.now < r.readyAt + 12 * cycleUnits t.ratio)) then .next s
          else if e.bad then .next (s.gveFault k g 0 g.flags ⟨0x0D03, 1, n, 0⟩)
          else
            let v := gsreadValue e (listNat g.image 4 4)
            let s1 := s.answerCmd (fun b => b == .grammar command) (BitVec.ofNat 64 v.toNat)
            .next (s1.updSector k (fun t => { t with gve := t.gve.filter (fun c => c.id != command) }))
        | _ =>
          match s.gveRun k g (gveUnits g) with
          | .fault s1 cur fl e => .next (s1.gveFault k g cur fl e)
          | .ended s0 _ fl =>
            let m := s.meter s0 k command g.paid
            if !m.1 then .next (m.2.1.updGve k command (fun c => { c with paid := m.2.2 })) else
            let s1 := m.2.1
            let pay := if g.op = .eval then grammarFlags fl else 0
            let s2 := s1.answerCmd (fun b => b == .grammar command) (BitVec.ofNat 64 pay.toNat)
            let s3 := s2.updSector k (fun t => { t with gve := t.gve.filter (fun c => c.id != command) })
            .next (match g.node with
              | some n => s3.updPool (dieOfSector k) n (fun r => { r with engineDone := true })
              | none => s3)

end Sys2Proof.Machine
end

