-- ==== Sys2Proof/Machine/SyncOps.lean ====
section
/-! DEFINITION. Sys2Proof/Machine/SyncOps.lean: barrier words (R299), ring headers (R301), their updates with the faults of R392,
their waiters, and the operators 0xC8 to 0xCD (R300, R302). -/
namespace Sys2Proof.Machine
open Sys2Proof

/-! Words. -/

/-- A barrier word (R299). -/
structure Barrier where
  ph : Nat
  arre : Nat
  arrp : Nat
  tx : Int
  deriving DecidableEq, Repr

def barrierOf (w : Nat) : Barrier := ⟨bitsN w 63 63, bitsN w 62 48, bitsN w 47 33, (BitVec.ofNat 32 w).toInt⟩
def Barrier.word (b : Barrier) : Nat :=
  b.ph * 2 ^ 63 + b.arre % 2 ^ 15 * 2 ^ 48 + b.arrp % 2 ^ 15 * 2 ^ 33 + (BitVec.ofInt 32 b.tx).toNat
/-- The completion check after an update (R299). -/
def Barrier.settle (b : Barrier) : Barrier := if b.arrp = 0 ∧ b.tx = 0 then ⟨1 - b.ph, b.arre, b.arre, 0⟩ else b

/-- A ring header (R301). -/
structure Ring where
  logn : Nat
  p : Nat
  w : Nat
  c : Nat
  q : Nat
  deriving DecidableEq, Repr

def ringOf (v : Nat) : Ring := ⟨bitsN v 50 48, bitsN v 47 36, bitsN v 35 24, bitsN v 23 12, bitsN v 11 0⟩
def Ring.word (r : Ring) : Nat :=
  r.logn % 8 * 2 ^ 48 + r.p % 4096 * 2 ^ 36 + r.w % 4096 * 2 ^ 24 + r.c % 4096 * 2 ^ 12 + r.q % 4096
/-- A slot number: a counter mod N (R301). -/
def Ring.slot (r : Ring) (v : Nat) : Nat := v % 2 ^ r.logn

/-! The word at its bank. -/

/-- Where a barrier or ring word lies: cell, byte offset, swizzle. -/
structure WordAt where
  cell : Nat
  off : Nat
  swz : Nat
  deriving DecidableEq, Repr

def State.syncWord (s : State) (a : WordAt) : Nat := (s.cell a.cell).bytes a.swz a.off 8
def State.syncTagged (s : State) (a : WordAt) : Bool := (s.cell a.cell).tagged a.swz a.off
/-- Writes the word whole, its tag as it was (R115). -/
def State.syncPut (s : State) (a : WordAt) (v : Nat) : State := s.spadStoreSeen a.cell a.swz a.off v 8
/-- Sets the tag of the word (R117). -/
def State.syncTag (s : State) (a : WordAt) : State :=
  s.updCell a.cell (fun c => if c.tagged a.swz a.off then c else { c with tags := spadWord a.swz a.off :: c.tags })

/-- The word a request waits at. -/
def Req.wordAt (r : Req) : WordAt :=
  if r.loc then ⟨r.cell, r.addr, r.swz⟩ else ⟨remCell r.addr, remOff r.addr % 32768, r.swz⟩

/-- The request is a `barw` or `ringf` waiting at a word's bank. -/
def Req.waitsAt (r : Req) (a : WordAt) : Bool :=
  r.stage == .waiting && r.wordAt == a &&
  (match r.body with | .barw _ _ => true | .ringf _ => true | _ => false)

/-- What a waiter sees: the payload it is answered with and the ring's new word (R300, R302). -/
def waiterTest (b : ReqBody) (v : Nat) : Option (Nat × Nat) :=
  match b with
  | .barw _ p => if (barrierOf v).ph ≠ p.toNat % 2 then some ((barrierOf v).ph, v) else none
  | .ringf false =>
    let r := ringOf v
    if r.c ≠ r.w then some (r.slot r.c, { r with c := r.c + 1 }.word) else none
  | .ringf true =>
    let r := ringOf v
    if (r.p + 4096 - r.q) % 4096 < 2 ^ r.logn then some (r.slot r.p, { r with p := r.p + 1 }.word) else none
  | _ => none

/-- Places a waiter among others by its arrival at the bank. -/
def insertWaiter (r : Req) : List Req → List Req
  | [] => [r]
  | q :: rest => if r.arrived < q.arrived then r :: q :: rest else q :: insertWaiter r rest

/-- Serves waiters at a word in turn: the answers by request id, and the word after them (R302). -/
def serveWaiters : List Req → Nat → List (Nat × Nat) × Nat
  | [], v => ([], v)
  | r :: rest, v =>
    match waiterTest r.body v with
    | some (pay, v') =>
      let q := serveWaiters rest v'
      ((r.id, pay) :: q.1, q.2)
    | none => serveWaiters rest v

/-- An update of a word: it is written, then its waiters are served in the order in which their requests reached its bank (R302). -/
def State.syncUpdate (s : State) (a : WordAt) (v : Nat) : State :=
  let q := serveWaiters ((s.reqs.filter (fun r => r.waitsAt a)).foldr insertWaiter []) v
  if q.1.isEmpty then s.syncPut a v
  else
    let s1 : State := { s with reqs := s.reqs.map (fun (r : Req) =>
      match q.1.find? (fun (e : Nat × Nat) => e.1 == r.id) with
      | some e => r.answered e.2 s.now
      | none => r) }
    s1.syncPut a q.2

/-! Updates. -/

/-- The outcome of a synchronisation operation at its word: an answer, a wait, or a fault of R392. -/
inductive SyncEnd
  | done (pay : Nat) (s : State)
  | wait
  | fault (code : Nat)

/-- Performs an operation at its word (R299 to R302, R392). -/
def State.syncOp (s : State) (a : WordAt) (b : ReqBody) : SyncEnd :=
  let v := s.syncWord a
  let tagged := s.syncTagged a
  match b with
  | .bari x =>
    if x.toNat = 0 ∨ 32767 < x.toNat then .fault 0x0701
    else if tagged = true ∧ s.reqs.any (fun r => r.waitsAt a) = true then .fault 0x0708
    else .done 0 ((s.syncUpdate a (Barrier.word ⟨0, x.toNat, x.toNat, 0⟩)).syncTag a)
  | .ringi x =>
    if 7 < x.toNat then .fault 0x0701
    else if tagged = true ∧ s.reqs.any (fun r => r.waitsAt a) = true then .fault 0x0708
    else .done 0 ((s.syncUpdate a (Ring.word ⟨x.toNat, 0, 0, 0, 0⟩)).syncTag a)
  | .bara _ x _ =>
    let r := barrierOf v
    if tagged = false then .fault 0x0702
    else
      let t := r.tx + x.toInt
      if t < -(2 ^ 31 : Int) ∨ t ≥ 2 ^ 31 then .fault 0x0703
      else if r.arrp = 0 then .fault 0x0704
      else .done r.ph (s.syncUpdate a (Barrier.settle { r with tx := t, arrp := r.arrp - 1 }).word)
  | .barw _ _ =>
    if tagged = false then .fault 0x0702
    else match waiterTest b v with
      | some (pay, _) => .done pay s
      | none => .wait
  | .ringf _ =>
    if tagged = false then .fault 0x0702
    else match waiterTest b v with
      | some (pay, v') => .done pay (s.syncUpdate a v')
      | none => .wait
  | .ringr false =>
    let r := ringOf v
    if tagged = false then .fault 0x0702
    else if r.q = r.c then .fault 0x0705
    else .done (r.slot ((r.q + 1) % 4096)) (s.syncUpdate a { r with q := r.q + 1 }.word)
  | .ringr true =>
    let r := ringOf v
    if tagged = false then .fault 0x0702
    else if r.w = r.p then .fault 0x0706
    else .done (r.slot ((r.w + 1) % 4096)) (s.syncUpdate a { r with w := r.w + 1 }.word)
  | _ => .wait

/-- The operand A a synchronisation request carries (R392). -/
def ReqBody.operandA : ReqBody → Nat
  | .bari x => x.toNat
  | .ringi x => x.toNat
  | .bara _ x _ => x.toNat
  | .barw _ p => p.toNat
  | .store _ v => v.toNat
  | .atomic _ _ _ _ _ v => v.toNat
  | .cas _ _ _ e _ => e.toNat
  | _ => 0

/-- A decrement of TX by an engine (R291, R299, R392): the new word, or the fault. -/
def State.engineDecrement (s : State) (a : WordAt) (k : Nat) : Except Nat State :=
  if s.syncTagged a = false then .error 0x0702 else
  let r := barrierOf (s.syncWord a)
  let t := r.tx - k
  if t < -(2 ^ 31 : Int) then .error 0x0703
  else .ok (s.syncUpdate a (Barrier.settle { r with tx := t }).word)

/-- An engine's advance of W for a slot (R291, R302): none where it still waits. -/
def State.engineAdvance (s : State) (a : WordAt) (rslot : Nat) : Except Nat (Option State) :=
  if s.syncTagged a = false then .error 0x0702 else
  let r := ringOf (s.syncWord a)
  if r.slot r.w ≠ rslot then .ok none
  else if r.w = r.p then .error 0x0706
  else .ok (some (s.syncUpdate a { r with w := r.w + 1 }.word))

/-! Firing. -/

/-- The place named by SB (R300). -/
def State.syncPlace (s : State) (F : Firing) : Place := s.place F (.index F.b)

/-- The faults of a synchronisation operator at issue: range, and on a LOC word those of the word (R379, R358, R392). -/
def preSync (body : Firing → ReqBody) (s : State) (F : Firing) : Option FireFault :=
  if !F.works then none else
  let p := s.syncPlace F
  let c := s.cell F.cell
  if !p.inRange then some (memFault 0x0301 2 7 p F.hasDst)
  else if p.lvl ≠ 0 then none
  else if c.anyBad p.swz p.addr 8 = true then
    let lvl := if c.tagged p.swz p.addr then 1 else 0
    some ⟨0x0D02, lvl, lvl == 0 && F.hasDst, p.addr % 32768 + Config.syndrome s.draws % 256 * 65536, 0⟩
  else
    match s.syncOp ⟨F.cell, p.addr, p.swz⟩ (body F) with
    | .fault code => some ⟨code, 0, F.hasDst, c.bytes p.swz p.addr 8, F.a.toNat + p.addr % 32768 * 2 ^ 32⟩
    | _ => none

/-- The token of the operation is an acquire: that of a barrier wait or of a ring fill wait (R136). -/
def ReqBody.acquires (b : ReqBody) : Bool :=
  match b with
  | .barw _ _ => true
  | .ringf _ => true
  | _ => false

/-- The firing of a synchronisation operator: performed at a LOC word at once, its token 2 cycles after issue and its bank wait (R114) later; an entry where it
waits or leaves the cell (R300, R302). An arrival that covers subscriptions first waits for their updates (R142). -/
def State.fireSync (s : State) (opc : Nat) (site : Site) (f : OpFields) (body : Firing → ReqBody) : Host.Outcome State Fault Refusal :=
  s.fire opc site f (preSync body) (fun s1 F => s1.unlessSuppressed F (fun s2 =>
    let p := s1.syncPlace F
    let c := match body F with
      | .bara sc x _ =>
        let q := s2.closePairs (s2.covered sc F.cell)
        (q.1, ReqBody.bara sc x q.2, !q.1.pairsDone q.2)
      | b => (s2, b, false)
    if p.lvl ≠ 0 then c.1.enqueue F c.2.1 .issued p F.kind 0
    else if c.2.2 then c.1.enqueue F c.2.1 .waiting p F.kind 0
    else
      match c.1.syncOp ⟨F.cell, p.addr, p.swz⟩ c.2.1 with
      | .done pay s3 =>
        let w := (if c.2.1.acquires then s3.seeNow F.feed.src else s3).waitBank F.cell F.cyc p.swz p.addr 8
        (w.2.updCell F.cell (fun t => t.count 3 w.1)).result F F.kind (BitVec.ofNat 32 pay) flagNone (2 + w.1)
      | _ => c.1.enqueue F c.2.1 .waiting p F.kind 0))

/-- `bari` (R300). -/
def execBari (site : Site) (f : OpFields) (s : State) : Host.Outcome State Fault Refusal :=
  s.fireSync 0xC8 site f (fun F => .bari F.a)
/-- `bara` (R300). -/
def execBara (site : Site) (f : OpFields) (s : State) : Host.Outcome State Fault Refusal :=
  s.fireSync 0xC9 site f (fun F => .bara (immScope f) F.a [])
/-- `barw` (R300). -/
def execBarw (site : Site) (f : OpFields) (s : State) : Host.Outcome State Fault Refusal :=
  s.fireSync 0xCA site f (fun F => .barw (immScope f) F.a)
/-- `ringi` (R302). -/
def execRingi (site : Site) (f : OpFields) (s : State) : Host.Outcome State Fault Refusal :=
  s.fireSync 0xCB site f (fun F => .ringi F.a)
/-- `ringf` (R302). -/
def execRingf (site : Site) (f : OpFields) (s : State) : Host.Outcome State Fault Refusal :=
  s.fireSync 0xCC site f (fun _ => .ringf false)
/-- `ringf.p` (R302). -/
def execRingfP (site : Site) (f : OpFields) (s : State) : Host.Outcome State Fault Refusal :=
  s.fireSync 0xCC site f (fun _ => .ringf true)
/-- `ringr` (R302). -/
def execRingr (site : Site) (f : OpFields) (s : State) : Host.Outcome State Fault Refusal :=
  s.fireSync 0xCD site f (fun _ => .ringr false)
/-- `ringr.p` (R302). -/
def execRingrP (site : Site) (f : OpFields) (s : State) : Host.Outcome State Fault Refusal :=
  s.fireSync 0xCD site f (fun _ => .ringr true)

end Sys2Proof.Machine
end

