-- ==== Sys2Proof/Machine/EngineOps.lean ====
section
/-! DEFINITION. Sys2Proof/Machine/EngineOps.lean: the copy engine and the gather path: the operators 0xC0 to 0xC4 (R292, R295), the
descriptors (R288, R289, R291, R295), their walks (R290, R298), signals (R291), faults (R385 to R388) and the events that carry
a command on (R293 to R297). -/
namespace Sys2Proof.Machine
open Sys2Proof

/-! Tokens that enter an instance from outside (R43, R58, R287). -/

/-- A boundary input admits: no drain, or its segment is open (R58). -/
def State.boundaryOpen (s : State) (i : Inst) (cell port vc : Nat) : Bool :=
  !i.draining || Map.get false (s.cell cell).boundary (pvKey port vc)

/-- A token enters at a boundary input under the instance's version (R43); its segment is open until a LAST or DONE. A `comb` that
reads the input waits from then on for its other (R408). -/
def State.putThrough (s : State) (i : Inst) (cell port vc : Nat) (t : Token) : State :=
  let opened := t.kind == .data || t.kind == .poison
  let s1 := (s.markArrival cell port vc).updCell cell (fun c =>
    let c1 := c.setInFifo port vc (c.inFifo port vc ++ [t.restamp c.active.ver])
    { c1 with boundary := Map.set false c1.boundary (pvKey port vc) opened })
  s1.updInst i.id (fun x => { x with lastActive := s.dev })

/-- Delivers a token at a cell's port H (R287): none while it must wait; discarded where no instance is resident (R286). -/
def State.deliverH (s : State) (cell vc : Nat) (k : Kind) (p : Word) (deps : List Nat) : Option State :=
  match s.instAt cell with
  | none => some s
  | some i =>
    if s.held i = true ∨ i.parked = true ∨ s.sectorRuns i.sector = false then none
    else if decide (((s.cell cell).inFifo 5 vc).length < 4) && s.boundaryOpen i cell 5 vc then
      some ((s.seeNow cell).putThrough i cell 5 vc (mkToken (s.cell cell).active.ver k p deps))
    else none

/-! Completion block (R291). -/

/-- The completion block's fields. -/
structure Completion where
  ben : Bool
  bcell : Nat
  boff : Nat
  ren : Bool
  rcell : Nat
  roff : Nat
  rslot : Nat
  ten : Bool
  tcell : Nat
  tvc : Nat
  deriving DecidableEq, Repr

def completionOf (v : Nat) : Completion where
  ben := bitsN v 127 127 == 1
  bcell := bitsN v 126 119
  boff := bitsN v 118 104
  ren := bitsN v 103 103 == 1
  rcell := bitsN v 102 95
  roff := bitsN v 94 80
  rslot := bitsN v 79 72
  ten := bitsN v 71 71 == 1
  tcell := bitsN v 70 63
  tvc := bitsN v 62 58

def Cmd.completion (c : Cmd) : Completion := completionOf (listNat c.desc (if c.kind = .copy then 32 else 48) 16)

/-- A cell index of the command's patch. -/
def Cmd.cellAt (c : Cmd) (idx : Nat) : Option Nat :=
  if idx % 16 < c.w ∧ idx / 16 < c.h then some (cellInSector c.sector (c.x0 + idx % 16) (c.y0 + idx / 16)) else none

/-- The signals of a completion block lie inside the patch and are aligned (R387). -/
def Cmd.signalsOk (c : Cmd) : Bool :=
  let b := c.completion
  (!b.ben || ((c.cellAt b.bcell).isSome && decide (b.boff % 8 = 0))) &&
  (!b.ren || ((c.cellAt b.rcell).isSome && decide (b.roff % 8 = 0))) &&
  (!b.ten || (c.cellAt b.tcell).isSome)

/-! Copy descriptors. -/

/-- A signed 40-bit stride. -/
def stride40 (v : Nat) : Int := (BitVec.ofNat 40 v).toInt

/-- A dimension (R289). -/
structure Dim where
  ext : Nat
  sstr : Int
  dstr : Int
  clo : Nat
  chi : Nat
  deriving DecidableEq, Repr

/-- Dimension d; one above NDM1 counts as extent 1. -/
def Cmd.dim (c : Cmd) (d : Nat) : Dim :=
  let o := 48 + 16 * d
  if listNat c.desc o 16 = 0 ∧ bitsN (listNat c.desc 16 8) 11 8 < d then ⟨1, 0, 0, 0, 0⟩ else
  let e := listNat c.desc (o + 14) 2
  ⟨if e = 0 then 65536 else e, stride40 (listNat c.desc (o + 9) 5), stride40 (listNat c.desc (o + 4) 5), listNat c.desc (o + 2) 2, listNat c.desc o 2⟩

/-- The nine dimensions. -/
def Cmd.dims (c : Cmd) : List Dim := (List.range 9).map c.dim

/-- Fields of the header's third word (R288). -/
def Cmd.ctl (c : Cmd) : Nat := listNat c.desc 16 8
def Cmd.slvl (c : Cmd) : Bool := bitsN c.ctl 0 0 == 1
def Cmd.dlvl (c : Cmd) : Bool := bitsN c.ctl 1 1 == 1
def Cmd.sswz (c : Cmd) : Nat := bitsN c.ctl 4 2
def Cmd.dswz (c : Cmd) : Nat := bitsN c.ctl 7 5
def Cmd.ndm1 (c : Cmd) : Nat := bitsN c.ctl 11 8
def Cmd.zm (c : Cmd) : Nat := bitsN c.ctl 13 12
def Cmd.zf (c : Cmd) : Nat := bitsN c.ctl 17 14

/-- A scratchpad base is a cell of the patch and an offset (R288). -/
def Cmd.baseOk (c : Cmd) (lvl : Bool) (v : Nat) : Bool :=
  decide (v % 32 = 0) && (!lvl || (decide (v / 2 ^ 23 = 0) && (c.cellAt (v / 2 ^ 15 % 256)).isSome))

/-- The descriptor is valid (R387). -/
def Cmd.copyOk (c : Cmd) : Bool :=
  let src := listNat c.desc 0 8
  let dst := listNat c.desc 8 8
  let mask := listNat c.desc 24 8
  let cb := c.completion
  decide (src < 2 ^ 57) && decide (dst < 2 ^ 57) && decide (mask < 2 ^ 57) && decide (c.ctl < 2 ^ 18) &&
  decide (listNat c.desc 32 16 % 2 ^ 58 = 0) && decide (c.ndm1 ≤ 8) && decide (c.zm ≠ 3) && !(c.zm == 1 && cb.ben) &&
  (c.zm != 1 || (tyOfCode c.zf).isSome) && !(c.slvl && c.sswz == 7) && !(c.dlvl && c.dswz == 7) &&
  c.baseOk c.slvl src && c.baseOk c.dlvl dst && c.signalsOk &&
  (List.range 9).all (fun d => if c.ndm1 < d then decide (listNat c.desc (48 + 16 * d) 16 = 0)
    else decide ((c.dim d).sstr % 32 = 0) && decide ((c.dim d).dstr % 32 = 0))

/-- Indices of a walk number, dimension 0 fastest (R290). -/
def walkIndex : List Dim → Nat → List Nat
  | [], _ => []
  | d :: r, s => s % d.ext :: walkIndex r (s / d.ext)

/-- Base plus the strided displacement of a walk number. -/
def walkAddr (base : Nat) (ds : List Dim) (st : Dim → Int) (ix : List Nat) : Int :=
  (List.zip ds ix).foldl (fun (a : Int) e => a + st e.1 * e.2) base

/-- Some index is outside its window (R290). -/
def walkClipped (ds : List Dim) (ix : List Nat) : Bool := (List.zip ds ix).any (fun e => decide (e.2 < e.1.clo) || decide (e.1.chi < e.2))

/-! Sectors. -/

/-- As what a command reads: its class at its hub, behind what its firing depends on and the placement of its instance; a node's, which no fence of a
cell is ahead of, sees what was performed before (R139, log 7). -/
def State.cmdReader (s : State) (c : Cmd) : Reader :=
  .engine (if c.kind = .copy then clsCpy else clsGat) c.sector
    (match c.inst.bind s.inst with | some i => i.placedAt | none => s.now)

/-- The engine's address space. -/
def State.cmdCtx (s : State) (c : Cmd) : EngCtx := ⟨c.sector, c.asid, s.rootOf c.job, copyCodes, s.cmdReader c⟩

/-- The scratchpad place of an address of the patch, or the fault (R288, R385). -/
def Cmd.spadAt (c : Cmd) (a : Int) (side cur : Nat) : Except EngFault (Nat × Nat) :=
  let n := a.toNat
  if a < 0 ∨ 2 ^ 23 ≤ n then .error (engFault 0x0404 7 side n cur) else
  match c.cellAt (n / 2 ^ 15) with
  | some cell => .ok (cell, n % 2 ^ 15)
  | none => .error (engFault 0x0404 7 side n cur)

/-- Reads a 32-byte sector at a level. -/
def State.readSector (s : State) (c : Cmd) (lvl : Bool) (swz : Nat) (a : Int) (side : Nat) : Except EngFault (List Byte × State) :=
  if lvl then
    match c.spadAt a side c.cursor with
    | .error e => .error e
    | .ok (cell, off) =>
      let t := s.cell cell
      if t.anyBad swz off 32 then
        .error ⟨0x0D02, if t.anyTagged swz off 32 then 1 else 0, off + Config.syndrome s.draws % 256 * 65536, 0⟩
      else .ok (s.readSpad (s.cmdReader c) cell swz off 32)
  else s.engRead (s.cmdCtx c) (a.toNat % 2 ^ 57) 32 side c.cursor

/-- Writes a 32-byte sector at a level; a tagged word faults (R385). -/
def State.writeSector (s : State) (c : Cmd) (lvl : Bool) (swz : Nat) (a : Int) (side : Nat) (bs : List Byte) : Except EngFault State :=
  if lvl then
    match c.spadAt a side c.cursor with
    | .error e => .error e
    | .ok (cell, off) =>
      if (s.cell cell).anyTagged swz off 32 then .error (engFault 0x0406 7 side a.toNat c.cursor)
      else .ok (s.spadPut cell swz off bs)
  else s.engWrite (s.cmdCtx c) (a.toNat % 2 ^ 57) side c.cursor bs

/-- Every lane of a sector is zero in a format (R290, R220). -/
def sectorZero (ty : Ty) (bs : List Byte) : Bool :=
  (List.range 8).all (fun k => decide (zeroLanes ty (BitVec.ofNat 32 (listNat bs (4 * k) 4)) (tyLanes ty) = tyLanes ty))

/-- Sets or clears a mask bit; the first of a byte writes it whole, which its port meters (R290, R334). -/
def State.writeMask (s : State) (c : Cmd) (k : Nat) (b : Bool) : Except EngFault State :=
  let va := listNat c.desc 24 8 + k / 8
  let bit := if b then 2 ^ (k % 8) else 0
  match s.engXlat (s.cmdCtx c) (va % 2 ^ 57) .store 2 c.cursor with
  | .error e => .error e
  | .ok (pa, s1) =>
    let old := if k % 8 = 0 then 0 else (s1.memByte pa).toNat % 2 ^ (k % 8)
    let s2 := s1.memSetByte pa (BitVec.ofNat 8 (old + bit))
    .ok (if k % 8 = 0 then s2.portMove c.sector pa 1 else s2)

/-- One sector of a copy's walk, its mask bit under ZM = 1 aside (R290): the number of sectors written. -/
def State.copySector (s : State) (c : Cmd) : Except EngFault (State × Nat) :=
  let ds := c.dims
  let ix := walkIndex ds c.cursor
  let sa := walkAddr (listNat c.desc 0 8) ds Dim.sstr ix
  let da := walkAddr (listNat c.desc 8 8) ds Dim.dstr ix
  let clip := walkClipped ds ix
  let move := fun (s0 : State) (skip : Bool) =>
    match s0.readSector c c.slvl c.sswz sa 0 with
    | .error e => Except.error e
    | .ok (bs, s1) =>
      if skip && sectorZero ((tyOfCode c.zf).getD .raw32) bs then Except.ok (s1, 0)
      else match s1.writeSector c c.dlvl c.dswz da 1 bs with
        | .error e => Except.error e
        | .ok s2 => Except.ok (s2, 1)
  if clip then .ok (s, 0)
  else if c.zm = 1 then move s true
  else if c.zm = 2 then
    match s.engRead (s.cmdCtx c) ((listNat c.desc 24 8 + c.cursor / 8) % 2 ^ 57) 1 2 c.cursor with
    | .error e => .error e
    | .ok (m, s1) =>
      if listNat m 0 1 / 2 ^ (c.cursor % 8) % 2 = 1 then move s1 false
      else match s1.writeSector c c.dlvl c.dswz da 1 (List.replicate 32 0) with
        | .error e => .error e
        | .ok s2 => .ok (s2, 1)
  else move s false

/-- One sector of a copy's walk with its mask bit (R290): the number of sectors written. -/
def State.copyUnit (s : State) (c : Cmd) : Except EngFault (State × Nat) :=
  match s.copySector c with
  | .error e => .error e
  | .ok (s1, n) =>
    if c.zm = 1 then
      match s1.writeMask c c.cursor (decide (n = 1)) with
      | .error e => .error e
      | .ok s2 => .ok (s2, n)
    else .ok (s1, n)

/-! Gather descriptors (R295). -/

def Cmd.gIdx (c : Cmd) : Nat := listNat c.desc 0 8 % 2 ^ 57
def Cmd.gLvc (c : Cmd) : Nat := bitsN (listNat c.desc 0 8) 61 57
def Cmd.gTbase (c : Cmd) : Nat := listNat c.desc 8 8 % 2 ^ 57
def Cmd.gData (c : Cmd) : Nat := listNat c.desc 16 8 % 2 ^ 57
def Cmd.gDlvl (c : Cmd) : Bool := bitsN (listNat c.desc 16 8) 57 57 == 1
def Cmd.gDswz (c : Cmd) : Nat := bitsN (listNat c.desc 16 8) 60 58
def Cmd.gBoff (c : Cmd) : Nat := listNat c.desc 24 8 % 2 ^ 57
def Cmd.gNidx (c : Cmd) : Nat := listNat c.desc 32 4
def Cmd.gNrow (c : Cmd) : Nat := listNat c.desc 36 4
def Cmd.gRsz (c : Cmd) : Nat := listNat c.desc 40 2
/-- Bits 383:336 of the descriptor. -/
def Cmd.gHi (c : Cmd) : Nat := listNat c.desc 42 6
def Cmd.gNbag (c : Cmd) : Nat := bitsN c.gHi 15 0
def Cmd.gPbase (c : Cmd) : Nat := bitsN c.gHi 21 16
def Cmd.gNpkm1 (c : Cmd) : Nat := bitsN c.gHi 28 22
def Cmd.gShb (c : Cmd) : Nat := bitsN c.gHi 33 29
def Cmd.gOor (c : Cmd) : Nat := bitsN c.gHi 35 34
def Cmd.gIsrc (c : Cmd) : Bool := bitsN c.gHi 36 36 == 1
def Cmd.gDedup (c : Cmd) : Bool := bitsN c.gHi 37 37 == 1
def Cmd.gPool (c : Cmd) : Nat := bitsN c.gHi 39 38
def Cmd.gBf (c : Cmd) : Bool := bitsN c.gHi 40 40 == 1
def Cmd.gAdd (c : Cmd) : Bool := bitsN c.gHi 41 41 == 1
def Cmd.gLw (c : Cmd) : Nat := bitsN c.gHi 44 42
/-- SH, bits 125:121 of the descriptor. -/
def Cmd.gSh (c : Cmd) : Nat := bitsN (listNat c.desc 8 8) 61 57
/-- The bank lane of an index: LW bits from SH on (R296, R256). -/
def Cmd.bankLane (c : Cmd) (r : Nat) : Nat := r / 2 ^ c.gSh % 2 ^ c.gLw
def Cmd.gBtu (c : Cmd) : Bool := bitsN c.gHi 45 45 == 1

/-- The descriptor is valid (R387). -/
def Cmd.gatherOk (c : Cmd) : Bool :=
  decide (listNat c.desc 0 8 < 2 ^ 62) && decide (listNat c.desc 8 8 < 2 ^ 62) && decide (listNat c.desc 16 8 < 2 ^ 61) &&
  decide (listNat c.desc 24 8 < 2 ^ 57) && decide (c.gHi < 2 ^ 46) && decide (listNat c.desc 48 16 % 2 ^ 58 = 0) &&
  decide (c.gLw ≤ 4) && decide (c.gPool ≠ 3) && decide (c.gOor ≠ 3) && decide (c.gNrow ≠ 0) && decide (c.gRsz ≠ 0) &&
  (decide (c.kind = .embr) == decide (c.gNbag ≠ 0)) && !(c.gIsrc && decide (c.kind ≠ .gath)) && !(c.gBtu && c.gIsrc) &&
  !(c.gAdd && decide (c.kind ≠ .scat)) &&
  decide (c.gIdx % 4 = 0) && decide (c.gTbase % 32 = 0) && decide (c.gBoff % 4 = 0) &&
  !(c.gDlvl && c.gDswz == 7) && c.baseOk c.gDlvl c.gData && c.signalsOk

/-- What an index names (R296): a row of the table, a zero row, or a fault. -/
inductive RowPick | row (r : Nat) | zero | fault
  deriving DecidableEq, Repr

def Cmd.pick (c : Cmd) (raw : Nat) : RowPick :=
  if raw < c.gNrow then .row raw
  else match c.gOor with
    | 0 => .zero
    | 1 => .row (c.gNrow - 1)
    | _ => .fault

/-- The package that owns a row (R296). -/
def Cmd.owner (c : Cmd) (r : Nat) : Nat := c.gPbase + r / 2 ^ c.gShb % (c.gNpkm1 + 1)

/-- Index at a list position. -/
def State.listIndex (s : State) (c : Cmd) (k : Nat) : Except EngFault (Nat × State) :=
  s.engWord (s.cmdCtx c) ((c.gIdx + 4 * k) % 2 ^ 57) 3 c.cursor

/-- The bag offset at an index (R298). -/
def State.bagOffset (s : State) (c : Cmd) (b : Nat) : Except EngFault (Nat × State) :=
  s.engWord (s.cmdCtx c) ((c.gBoff + 4 * b) % 2 ^ 57) 4 c.cursor

/-- This package holds a queue-table entry of the command's ASID and root (R296, R385). -/
def State.ownerKnows (s : State) (c : Cmd) : Bool :=
  [0, 1, 2, 3].any (fun d => (s.dieAt d).queueTable.any (fun e =>
    bitsN e.2.toNat 63 48 == c.asid && bitsN e.2.toNat 36 0 == s.rootOf c.job))

/-- What an owner in another package answers to the step's row: 0 is the row itself, another value the fault it met there. -/
def State.rowAnswer (s : State) (answer : BitVec 16) : State :=
  { s with input := { s.input with value := answer.setWidth 512 } }

/-- What row r meets at its owner (R296, R385, R406): a fault of the way there, of this package as owner, or of another package as
owner, whose answer the input of the step holds. -/
def State.ownerMeets (s : State) (c : Cmd) (r : Nat) : Option EngFault :=
  let here := fun code => engFault code 7 5 (c.gTbase + 32 * c.gRsz * r) c.cursor
  if c.gBtu then none
  else if c.owner r = s.package then (if s.ownerKnows c then none else some (here 0x0413))
  else match s.engRoute (c.owner r) (if c.kind = .scat then .store else .load) with
    | some e => some e
    | none => if s.input.value = 0 then none else some (here (s.input.value.toNat % 65536))

/-- The granules that the batch of a list position found (R121). -/
def Cmd.batchOf (c : Cmd) (k : Nat) : List XlEntry := if c.gBtu then c.xl.filter (fun e => e.batch == k / 64) else []

/-- The sectors of the table row of list position k, read at its owner, its batch's translation at hand where the issuer translates (R296, R297), or
read at its port before. -/
def State.readRow (s : State) (c : Cmd) (raw k : Nat) : Except EngFault (List Byte × State) :=
  match c.fetched.find? (fun e => e.1 == k) with
  | some e => .ok (e.2, s)
  | none =>
  match c.pick raw with
  | .zero => .ok (List.replicate (32 * c.gRsz) 0, s)
  | .fault => .error ⟨0x0410, 0, raw + k * 2 ^ 32, 0xFF * 2 ^ 56 + 0x3FF * 2 ^ 46 + c.cursor % 2 ^ 32⟩
  | .row r =>
    match s.ownerMeets c r with
    | some e => .error e
    | none => s.engBlock (s.cmdCtx c) ((c.gTbase + 32 * c.gRsz * r) % 2 ^ 57) 5 c.cursor (c.batchOf k) c.gRsz

/-- Writes a list of sectors from an address on. -/
def State.writeSectors (s : State) (c : Cmd) (lvl : Bool) (swz : Nat) (a : Nat) (side : Nat) : Nat → List Byte → Except EngFault State
  | 0, _ => .ok s
  | n + 1, bs =>
    match s.writeSector c lvl swz (a : Int) side (bs.take 32) with
    | .error e => .error e
    | .ok s1 => s1.writeSectors c lvl swz (a + 32) side n (bs.drop 32)

/-- Writes a table row of sectors, the batch's translation at hand. -/
def State.writeTableRow (s : State) (c : Cmd) (xl : List XlEntry) (a : Nat) : Nat → List Byte → Except EngFault State
  | 0, _ => .ok s
  | n + 1, bs =>
    match s.engWriteVia (s.cmdCtx c) xl (a % 2 ^ 57) 5 c.cursor (bs.take 32) with
    | .error e => .error e
    | .ok s1 => s1.writeTableRow c xl (a + 32) n (bs.drop 32)

/-- Reads a list of sectors at DATA. -/
def State.readSectors (s : State) (c : Cmd) (a : Nat) : Nat → Except EngFault (List Byte × State)
  | 0 => .ok ([], s)
  | n + 1 =>
    match s.readSectors c a n with
    | .error e => .error e
    | .ok (l, s1) =>
      match s1.readSector c c.gDlvl c.gDswz ((a + 32 * n : Nat) : Int) 0 with
      | .error e => .error e
      | .ok (m, s2) => .ok (l ++ m, s2)

/-- Elements of a row: binary32 or BF16 patterns (R295). -/
def rowElements (bf : Bool) (bs : List Byte) : List Nat :=
  let w := if bf then 2 else 4
  (List.range (bs.length / w)).map (fun k => listNat bs (w * k) w)
/-- Elements back to bytes. -/
def elementBytes (bf : Bool) (l : List Nat) : List Byte := l.flatMap (fun v => natBytes (if bf then 2 else 4) v)
/-- The format of elements. -/
def rowFmt (bf : Bool) : Fmt := if bf then fmtBf16 else fmtF32

/-- `scat` ADD: round(old + new) per element (R298). -/
def addRows (bf : Bool) (old new : List Byte) : List Byte :=
  elementBytes bf ((List.zip (rowElements bf old) (rowElements bf new)).map (fun e =>
    (roundTo (rowFmt bf) .rne false (Ex.add .rne (fval (rowFmt bf) e.1) (fval (rowFmt bf) e.2)).1).1))

/-- One row of `gath` or `scat` at the cursor: the sectors written. -/
def State.rowUnit (s : State) (c : Cmd) : Except EngFault (State × Nat) :=
  match s.listIndex c c.cursor with
  | .error e => .error e
  | .ok (raw, s1) =>
    let at_ := c.gData + 32 * c.gRsz * c.cursor
    if c.kind = .gath then
      match s1.readRow c raw c.cursor with
      | .error e => .error e
      | .ok (bs, s2) =>
        match s2.writeSectors c c.gDlvl c.gDswz at_ 1 c.gRsz bs with
        | .error e => .error e
        | .ok s3 => .ok (s3, c.gRsz)
    else
      match c.pick raw with
      | .zero => .ok (s1, 0)
      | .fault => .error ⟨0x0410, 0, raw + c.cursor * 2 ^ 32, 0xFF * 2 ^ 56 + 0x3FF * 2 ^ 46 + c.cursor % 2 ^ 32⟩
      | .row r =>
        match s1.ownerMeets c r with
        | some e => .error e
        | none =>
        let row := (c.gTbase + 32 * c.gRsz * r) % 2 ^ 57
        match s1.readSectors c at_ c.gRsz with
        | .error e => .error e
        | .ok (new, s2) =>
          let put := fun (s3 : State) (bs : List Byte) =>
            match s3.writeTableRow c (c.batchOf c.cursor) row c.gRsz bs with
            | .error e => Except.error e
            | .ok s4 => Except.ok (s4, c.gRsz)
          if c.gAdd then
            match s2.engBlock (s2.cmdCtx c) row 5 c.cursor (c.batchOf c.cursor) c.gRsz with
            | .error e => .error (if e.code = 0x0904 then { e with lvl := 1 } else e)
            | .ok (old, s3) => put s3 (addRows c.gBf old new)
          else put s2 new

/-- The members of a bag as list positions and raw indices, DEDUP applied (R298). -/
def State.bagMembers (s : State) (c : Cmd) (lo : Nat) : Nat → Except EngFault (List (Nat × Nat) × State)
  | 0 => .ok ([], s)
  | n + 1 =>
    match s.bagMembers c lo n with
    | .error e => .error e
    | .ok (l, s1) =>
      match s1.listIndex c (lo + n) with
      | .error e => .error e
      | .ok (raw, s2) => .ok (if c.gDedup && l.any (fun m => m.2 == raw) then l else l ++ [(lo + n, raw)], s2)

/-- The rows of a list of members, in order. -/
def State.memberRows (s : State) (c : Cmd) : List (Nat × Nat) → Except EngFault (List (List Nat) × State)
  | [] => .ok ([], s)
  | m :: r =>
    match s.readRow c m.2 m.1 with
    | .error e => .error e
    | .ok (bs, s1) =>
      match s1.memberRows c r with
      | .error e => .error e
      | .ok (l, s2) => .ok (rowElements c.gBf bs :: l, s2)

/-- The maximum of two patterns as `fmax` gives it (R210). -/
def fmaxPattern (a b : Nat) : Nat :=
  ((aluFmax ⟨.f32, 0, .none, .none, .none, .none, 0⟩ (BitVec.ofNat 32 a) (BitVec.ofNat 32 b) 0).1).toNat

/-- Pools one element over its members (R298), as a binary32 pattern. -/
def poolElement (pool : Nat) (vs : List Nat) : Nat :=
  if pool = 2 then
    match vs with
    | [] => 0
    | a :: r => r.foldl fmaxPattern a
  else
    let sum := vs.foldl (fun acc v => (roundTo fmtF32 .rne false (Ex.add .rne (fval fmtF32 acc) (fval fmtF32 v)).1).1) 0
    if pool = 1 ∧ vs ≠ [] then (roundTo fmtF32 .rne false (Ex.div (fval fmtF32 sum) (Ex.ofInt vs.length)).1).1 else sum

/-- One bag of `embr` at the cursor. -/
def State.bagUnit (s : State) (c : Cmd) : Except EngFault (State × Nat) :=
  match s.bagOffset c c.cursor with
  | .error e => .error e
  | .ok (lo, s1) =>
    match s1.bagOffset c (c.cursor + 1) with
    | .error e => .error e
    | .ok (hi, s2) =>
      match s2.bagMembers c lo (hi - lo) with
      | .error e => .error e
      | .ok (ms, s3) =>
        match s3.memberRows c ms with
        | .error e => .error e
        | .ok (rows, s4) =>
          let n := 32 * c.gRsz / (if c.gBf then 2 else 4)
          let wide := fun (v : Nat) => if c.gBf then v * 65536 else v
          let out := (List.range n).map (fun k =>
            let v := poolElement c.gPool (rows.map (fun r => wide (r.getD k 0)))
            (roundTo (rowFmt c.gBf) .rne false (fval fmtF32 v)).1)
          match s4.writeSectors c c.gDlvl c.gDswz (c.gData + 32 * c.gRsz * c.cursor) 1 c.gRsz (elementBytes c.gBf out) with
          | .error e => .error e
          | .ok s5 => .ok (s5, c.gRsz)

/-! A command's course. -/

/-- Units of a command: sectors of the walk, list positions, or bags. -/
def Cmd.total (c : Cmd) : Nat :=
  match c.kind with
  | .copy => (c.dims).foldl (fun n d => n * d.ext) 1
  | .embr => c.gNbag
  | _ => c.gNidx

/-- Everything is performed: the cursor at the end, or every index lane ended (R298). -/
def Cmd.performed (c : Cmd) : Bool :=
  c.accepted &&
  (if c.kind = .gath ∧ c.gIsrc = true then decide (c.laneDone.length = 2 ^ c.gLw) && c.laneDone.all (fun b => b)
   else decide (c.total ≤ c.cursor))

/-- The unit at the cursor. -/
def State.unit (s : State) (c : Cmd) : Except EngFault (State × Nat) :=
  match c.kind with
  | .copy => s.copyUnit c
  | .embr => s.bagUnit c
  | _ => s.rowUnit c

/-- Subtracts what is written and not yet counted from the barrier (R291): the fault of the signal, if it meets one (R392).
What is toward a retired instance's patch is discarded (R40). -/
def State.countDown (s : State) (c : Cmd) : Except EngFault State :=
  let b := c.completion
  let k := c.written - c.counted
  let counted := fun (x : State) => x.updCmd c.id (fun d => { d with counted := d.written })
  if k = 0 then .ok s else
  if b.ben = false ∨ c.retired = true then .ok (counted s) else
  match c.cellAt b.bcell with
  | none => .ok (counted s)
  | some cell =>
    match s.engineDecrement ⟨cell, b.boff, 0⟩ k with
    | .error code => .error ⟨code, 0, s.syncWord ⟨cell, b.boff, 0⟩, k + b.boff * 2 ^ 32⟩
    | .ok s1 => .ok (counted s1)

/-- Record source of a command's kind (R346). -/
def Cmd.srck (c : Cmd) : Nat := if c.kind = .copy then 2 else 3

/-- A command whose source, destination, signals or token lie in its instance's cells is suspended with it (R168). -/
def Cmd.inPatch (c : Cmd) : Bool :=
  let b := c.completion
  b.ben || b.ren || b.ten || (if c.kind = .copy then c.slvl || c.dlvl else c.gDlvl || c.gIsrc)

/-- A command leaves its engine with the context of its instance: one of its cells (R168), or one that is held (R383, R384). -/
def Cmd.leaves (c : Cmd) : Bool := c.inPatch || c.hold.isSome || c.met.isSome

/-- A pre-emption of its instance is suspending the command (R168): it has not been let try its cursor again by a RESUME since (R382). -/
def State.suspends (s : State) (c : Cmd) : Bool := c.inPatch && !c.retry && (c.inst.bind s.inst).any (fun i => i.preempt && !i.retired)

/-- Holds a faulting command (R383): what is below the cursor is counted first (R386). One that waits for its route stays as it
is (R405). The record of one that a pre-emption is suspending waits for the frame of its save, which it names (R384). -/
def State.engineFault (s : State) (id : Nat) (e : EngFault) : State :=
  if e.code = 0 then s else
  match s.cmd id with
  | none => s
  | some c =>
    let s1 := match s.countDown c with
      | .ok x => x
      | .error _ => s
    if s.suspends c then s1.updCmd id (fun d => { d with stage := .held, met := some ⟨e.code, e.lvl, e.d0, e.d1, s.deviceNs⟩ })
    else
      let r := s1.holdCommand (dieOfSector c.sector) c.inst c.node c.job id c.cell c.slot c.sector c.srck .command e
      r.1.updCmd id (fun d => { d with stage := .held, hold := some r.2, retry := false })

/-- A scratchpad sector of the command's patch, for the banks. -/
def Cmd.bankAt (c : Cmd) (lvl : Bool) (swz : Nat) (a : Int) : Option (Nat × Nat × Nat) :=
  if lvl then
    match c.spadAt a 0 c.cursor with
    | .ok (cell, off) => some (cell, off, swz)
    | .error _ => none
  else none

/-- The hub asks for sector j of the row or bag whose bytes stand at an address of DATA: each in a cycle of its own (R114). `key` names the index
lane, or is 0. True once every sector has had its banks' turn. -/
def State.rowAsk (s : State) (c : Cmd) (key at_ : Nat) : Bool × State :=
  let j := Map.get 0 c.asked key
  if !c.gDlvl || decide (c.gRsz ≤ j) then (true, s) else
  let g := s.hubAsk none (c.bankAt c.gDlvl c.gDswz ((at_ + 32 * j : Nat) : Int))
  if g.1 then (decide (c.gRsz ≤ j + 1), g.2.updCmd c.id (fun d => { d with asked := Map.set 0 d.asked key (j + 1) })) else g

/-- The hub asks for the scratchpad sectors of the unit at the cursor (R114): a copy's source and destination, or those of a row or bag at DATA, one
after another. -/
def State.unitAsk (s : State) (c : Cmd) : Bool × State :=
  if c.kind = .copy then
    let ds := c.dims
    let ix := walkIndex ds c.cursor
    if walkClipped ds ix then (true, s)
    else s.hubAsk (c.bankAt c.slvl c.sswz (walkAddr (listNat c.desc 0 8) ds Dim.sstr ix))
      (c.bankAt c.dlvl c.dswz (walkAddr (listNat c.desc 8 8) ds Dim.dstr ix))
  else s.rowAsk c 0 (c.gData + 32 * c.gRsz * c.cursor)

/-- Units above a faulting one that had been issued by then: each may have been performed, whole and uncounted, without its mask bit (R386, R387);
of a `scat` none. -/
def State.laterUnits (s : State) (c : Cmd) : Nat → State
  | 0 => s
  | n + 1 =>
    let d := (s.laterUnits c n).draw 2
    let later := { c with cursor := c.cursor + n + 1 }
    if d.1 = 0 then d.2 else
    match (if c.kind = .copy then d.2.copySector later else d.2.unit later) with
    | .error _ => d.2
    | .ok (s1, _) =>
      let m := d.2.meter s1 c.sector c.id 0
      if m.1 then m.2.1 else d.2

/-- The state in which a unit's fault is found: up to 63 units above it may have been performed, of the 64 sectors outstanding (R293, R386). -/
def State.unitFault (s : State) (c : Cmd) (e : EngFault) : State :=
  if e.code = 0 ∨ c.kind = .scat then s.engineFault c.id e
  else
    let n := s.draw (min 64 (c.total - c.cursor))
    (n.2.laterUnits c n.1).engineFault c.id e

/-- One unit of a command, once the arbiter has admitted what it moves (R334): the cursor passes it, and what it wrote is counted. -/
def State.runUnit (s : State) (c : Cmd) : State :=
  match s.unit c with
  | .error e => s.unitFault c e
  | .ok (s1, k) =>
    let m := s.meter s1 c.sector c.id c.paid
    if m.1 then m.2.1.updCmd c.id (fun d => { d with cursor := d.cursor + 1, written := d.written + k, paid := 0, retry := false, asked := [] })
    else m.2.1.updCmd c.id (fun d => { d with paid := m.2.2 })

/-- The copies of a sector that have sectors to move, in arrival order. -/
def State.activeCopies (s : State) (k : Nat) : List Cmd :=
  s.cmds.filter (fun c => c.sector == k && c.kind == .copy && c.stage == .active && decide (c.cursor < c.total))

/-- The copy whose sector the engine issues next: round-robin, the first after the one it served last (R293). -/
def State.nextCopy (s : State) (k : Nat) : Option Cmd :=
  let l := s.activeCopies k
  match l.find? (fun c => decide ((s.sector k).copyLast < c.id)) with
  | some c => some c
  | none => l.head?

/-- A sector's copy engine issues n sectors, its active commands in turn; one that waits for its banks lets the next go (R114, R293). -/
def State.runCopies (s : State) (k : Nat) : Nat → State
  | 0 => s
  | n + 1 =>
    match s.nextCopy k with
    | none => s
    | some c =>
      let g := s.unitAsk c
      if g.1 = false then (g.2.updSector k (fun t => { t with copyLast := c.id })).runCopies k n else
      let cyc := s.cycle k
      ((g.2.updSector k (fun t => { t with
        copyLast := c.id
        copyAt := cyc
        copyN := if t.copyAt = cyc then t.copyN + 1 else if 16 * (cyc - t.copyAt - 1) ≤ t.copyN then t.copyN + 1 - 16 * (cyc - t.copyAt - 1) else 1 })).runUnit c).runCopies k n

/-- The sectors a copy engine may still have issued by now: 16 a cycle since the last one, of what its commands have left (R293). -/
def State.copyAllowance (s : State) (k : Nat) : Nat :=
  let t := s.sector k
  let cyc := s.cycle k
  min (((s.activeCopies k).map (fun c => c.total - c.cursor)).sum) (16 * (cyc - t.copyAt + 1) - t.copyN)

/-- The copy engine of a command's sector issues a free number of the sectors it may (R293: when each moves is not fixed, log 9). -/
def State.someUnits (s : State) (c : Cmd) : State :=
  if c.kind ≠ .copy then s else
  let d := s.draw (s.copyAllowance c.sector + 1)
  d.2.runCopies c.sector d.1

/-! Firing. -/

/-- The commands of a cell still at work. -/
def State.cellCmds (s : State) (cell : Nat) : List Nat :=
  (s.cmds.filter (fun c => c.cell == cell && c.node.isNone && !c.retired)).map Cmd.id

/-- Queues an engine command; its token, payload 0, is due (R292). -/
def State.queueEngine (s : State) (F : Firing) (kind : CmdKind) (desc : List Byte) (home : Nat) : State :=
  let (id, s1) := s.fresh
  let i := F.inst
  let c : Cmd := {
    id := id, kind := kind, stage := .queued, sector := i.sector, cell := F.cell, slot := F.slot, inst := some i.id, node := none,
    job := i.job, asid := i.asid, x0 := i.x0, y0 := i.y0, w := i.w, h := i.h, desc := desc, home := home, cursor := 0, written := 0, counted := 0,
    accepted := false, ringDone := false, lanes := [], laneDone := [], shipped := 0, sent := [], fetched := [], translated := 0,
    xl := [], asked := [], paid := 0, hold := none, retry := false, met := none, sentAt := 0,
    deps := F.deps, retired := false }
  let s2 : State := { s1 with cmds := s1.cmds ++ [c] }
  s2.enqueue { F with deps := mergeDeps F.deps [id] } (.engine id) .answered Place.nowhere F.kind 0

/-- The firing of an engine operator whose descriptor is n elements. -/
def State.fireEngine (s : State) (opc n : Nat) (kind : CmdKind) (site : Site) (f : OpFields) : Host.Outcome State Fault Refusal :=
  s.fire opc site f (fun s1 F => s1.cursorFault F n) (fun s1 F => s1.unlessSuppressed F (fun s2 =>
    s2.queueEngine F kind (s1.cursorBytes F n) (s1.cursorHome F)))

/-- `copy` (R292). -/
def execCopy (site : Site) (f : OpFields) (s : State) : Host.Outcome State Fault Refusal := s.fireEngine 0xC0 24 .copy site f
/-- `copyw` (R292). -/
def execCopyw (site : Site) (f : OpFields) (s : State) : Host.Outcome State Fault Refusal :=
  s.fire 0xC1 site f noFault (fun s1 F => s1.unlessSuppressed F (fun s2 =>
    let ws := s2.cellCmds F.cell
    s2.enqueue F (.copyw ws) (if ws.isEmpty then .answered else .waiting) Place.nowhere F.kind 0))
/-- `gath` (R295). -/
def execGath (site : Site) (f : OpFields) (s : State) : Host.Outcome State Fault Refusal := s.fireEngine 0xC2 8 .gath site f
/-- `scat` (R295). -/
def execScat (site : Site) (f : OpFields) (s : State) : Host.Outcome State Fault Refusal := s.fireEngine 0xC3 8 .scat site f
/-- `embr` (R295). -/
def execEmbr (site : Site) (f : OpFields) (s : State) : Host.Outcome State Fault Refusal := s.fireEngine 0xC4 8 .embr site f

/-! Events. -/

/-- The engine may work on the command: its sector runs (R333, R342). -/
def State.cmdRuns (s : State) (c : Cmd) : Bool := s.sectorRuns c.sector && c.stage == .active && !s.engineStalls c.sector c.srck

/-- Reads a COPY node's descriptor from memory (R293): 192 bytes at CFG0. -/
def State.nodeDescriptor (s : State) (c : Cmd) : Except EngFault (List Byte × State) :=
  let va := listNat c.desc 0 8
  if va ≥ 2 ^ 57 ∨ (c.desc.drop 8).any (fun b => decide (b ≠ 0)) ∨ va % 8 ≠ 0 then .error (engFault 0x0405 7 7 (va % 2 ^ 57) 0)
  else
    (List.range 24).foldl (fun (a : Except EngFault (List Byte × State)) k =>
      match a with
      | .error e => .error e
      | .ok (l, s1) =>
        match s1.engRead (s1.cmdCtx c) (va + 8 * k) 8 7 0 with
        | .error e => .error e
        | .ok (m, s2) => .ok (l ++ m, s2)) (.ok ([], s))

/-- The bag offsets are in order and within the list (R298, R385): the fault of the first that is not. -/
def State.bagsOk (s : State) (c : Cmd) : Nat → Except EngFault (Nat × State)
  | 0 => s.bagOffset c 0
  | n + 1 =>
    match s.bagsOk c n with
    | .error e => .error e
    | .ok (prev, s1) =>
      match s1.bagOffset c (n + 1) with
      | .error e => .error e
      | .ok (v, s2) => if v < prev then .error (engFault 0x0411 7 4 (c.gBoff + 4 * (n + 1)) 0) else .ok (v, s2)

/-- The checks at acceptance (R387, R385): the state in which the command is accepted, or the fault. -/
def State.acceptCmd (s : State) (c : Cmd) : Except EngFault State :=
  let acc := fun (x : State) => x.updCmd c.id (fun d =>
    let n := 2 ^ d.gLw
    let done := if d.gIsrc && decide (d.kind = .gath) then (if d.laneDone.isEmpty then List.replicate n false else d.laneDone) else []
    let ls := if d.lanes.isEmpty then List.replicate n 0 else d.lanes
    { d with accepted := true, laneDone := done, lanes := ls })
  let start := match c.node with
    | some _ => if c.accepted then Except.ok (c, s) else
      match s.nodeDescriptor c with
      | .error e => Except.error e
      | .ok (l, s1) => Except.ok ({ c with desc := l }, s1.updCmd c.id (fun d => { d with desc := l }))
    | none => Except.ok (c, s)
  match start with
  | .error e => .error e
  | .ok (c, s1) =>
    let bad := engFault 0x0405 7 7 c.home 0
    match c.kind with
    | .copy =>
      let cb := c.completion
      if !c.copyOk then .error bad
      else if c.node.isSome && (c.slvl || c.dlvl || cb.ben || cb.ren || cb.ten) then .error bad
      else .ok (acc s1)
    | .embr =>
      if !c.gatherOk then .error bad else
      match s1.bagsOk c c.gNbag with
      | .error e => .error e
      | .ok (v, s2) => if c.gNidx < v then .error (engFault 0x0411 7 4 (c.gBoff + 4 * c.gNbag) 0) else .ok (acc s2)
    | _ => if !c.gatherOk then .error bad else .ok (acc s1)

/-- COPY_COMMAND_ACCEPT: the next queued command in arrival order; at most 4 copies are active (R293). -/
def execCopyCommandAccept (sector : Nat) (s : State) : Host.Outcome State Fault Refusal :=
  let mine := s.cmds.filter (fun c => c.sector == sector)
  let copies := (mine.filter (fun c => c.kind == .copy && c.stage == .active)).length
  match mine.find? (fun c => c.stage == .queued && (decide (c.kind ≠ .copy) || decide (copies < 4))) with
  | none => .next s
  | some c =>
    if !s.sectorRuns sector || s.engineStalls sector c.srck then .next s else
    match s.acceptCmd c with
    | .error e => .next (s.engineFault c.id e)
    | .ok s1 =>
      let m := s.meter s1 sector c.id c.paid
      if !m.1 then .next (m.2.1.updCmd c.id (fun d => { d with paid := m.2.2 })) else
      let start := fun (t : Sector) => if copies = 0 then { t with copyAt := s.cycle sector, copyN := 0 } else t
      let s2 := ((m.2.1.updCmd c.id (fun d => { d with stage := .active, paid := 0 })).noteVacated (queueOfEngine sector)).updSector sector start
      match s2.cmd c.id with
      | some d => .next (s2.someUnits d)
      | none => .next s2

/-- ENGINE_BARRIER_DECREMENT: sectors are moved, and those performed and not yet counted are subtracted from TX (R291). -/
def execEngineBarrierDecrement (command : Nat) (s : State) : Host.Outcome State Fault Refusal :=
  match s.cmd command with
  | none => .next s
  | some c =>
    if !s.cmdRuns c then .next s else
    let s1 := s.someUnits c
    match s1.cmd command with
    | none => .next s1
    | some d =>
      if d.stage ≠ .active then .next s1 else
      match s1.countDown d with
      | .error e => .next (s1.engineFault command e)
      | .ok s2 => .next s2

/-- ENGINE_RING_ADVANCE: once every sector is performed, W advances when its slot's turn has come (R291); toward a retired instance's
patch nothing does (R40). -/
def execEngineRingAdvance (command : Nat) (s : State) : Host.Outcome State Fault Refusal :=
  match s.cmd command with
  | none => .next s
  | some c =>
    let b := c.completion
    if !s.cmdRuns c || !c.performed || !b.ren || c.ringDone then .next s
    else if c.retired then .next (s.updCmd command (fun d => { d with ringDone := true })) else
    match c.cellAt b.rcell with
    | none => .next s
    | some cell =>
      match s.engineAdvance ⟨cell, b.roff, 0⟩ b.rslot with
      | .error code => .next (s.engineFault command ⟨code, 0, s.syncWord ⟨cell, b.roff, 0⟩, b.roff * 2 ^ 32⟩)
      | .ok none => .next s
      | .ok (some s1) => .next (s1.updCmd command (fun d => { d with ringDone := true }))

/-- A finished command releases the `copyw` entries that wait on it (R292). -/
def State.releaseCopyw (s : State) (id : Nat) : State :=
  { s with reqs := s.reqs.map (fun r => match r.body with
      | .copyw ws =>
        let rest := ws.filter (fun w => w != id)
        if ws.contains id then { r with body := .copyw rest, stage := if rest.isEmpty && r.stage == .waiting then .answered else r.stage } else r
      | _ => r) }

/-- The command is over: it leaves, waits on it end, a node's work is done (R293). -/
def State.finishCmd (s : State) (c : Cmd) : State :=
  let s1 := (s.delCmd c.id).releaseCopyw c.id
  match c.node with
  | some n => s1.updPool (dieOfSector c.sector) n (fun r => { r with engineDone := true })
  | none => s1

/-- ENGINE_COMPLETION: after all accesses are performed and the barrier and ring signals sent, the completion token (R291). A TVC that names no
dataflow VC sends none (log 138). -/
def execEngineCompletion (command : Nat) (s : State) : Host.Outcome State Fault Refusal :=
  match s.cmd command with
  | none => .next s
  | some c =>
    if !s.cmdRuns c then .next s else
    let s1 := if c.kind = .copy then s.runCopies c.sector (s.copyAllowance c.sector) else s
    match s1.cmd command with
    | none => .next s1
    | some d =>
      let b := d.completion
      if d.stage ≠ .active ∨ d.performed = false ∨ (b.ben = true ∧ d.counted ≠ d.written) ∨ (b.ren = true ∧ d.ringDone = false) then
        .next s1
      else if b.ten && decide (b.tvc ≤ 23) then
        match d.cellAt b.tcell with
        | none => .next (s1.finishCmd d)
        | some cell =>
          match (if d.retired then some s1 else s1.deliverH cell b.tvc .data (BitVec.ofNat 32 d.written) []) with
          | none => .next s1
          | some s2 => .next (s2.finishCmd d)
      else .next (s1.finishCmd d)

/-- The bag that holds a list position (R298): where it begins; none for a position in no bag. `n` bags are left to look at. -/
def State.bagOf (s : State) (c : Cmd) (k : Nat) : Nat → Option Nat
  | 0 => none
  | n + 1 =>
    match s.bagOffset c (c.gNbag - (n + 1)), s.bagOffset c (c.gNbag - n) with
    | .ok (lo, _), .ok (hi, _) => if lo ≤ k ∧ k < hi then some lo else s.bagOf c k n
    | _, _ => none

/-- What the issuing hub sends for a list position (R296, R297, R324): DEDUP first, then the policy for an index out of range; the row to
read, or none, where the position is in no bag, is dropped, is replaced by zeros, or faults. -/
def State.shipRow (s : State) (c : Cmd) (k : Nat) : Option Nat :=
  match s.listIndex c k with
  | .error _ => none
  | .ok (raw, _) =>
    let row := match c.pick raw with
      | .row r => some r
      | _ => none
    if c.kind ≠ .embr then row else
    match s.bagOf c k c.gNbag with
    | none => none
    | some lo =>
      let again := c.gDedup &&
        (List.range (k - lo)).any (fun n => match s.listIndex c (lo + n) with | .ok (v, _) => v == raw | .error _ => false)
      if again then none else row

/-- The list position before which every row has been used: the cursor, or where the next bag begins. -/
def State.usedTo (s : State) (c : Cmd) : Nat :=
  if c.kind = .embr then (match s.bagOffset c c.cursor with | .ok (v, _) => v | .error _ => 0) else c.cursor

/-- A port may read a row ahead of its return: the next of one of its bank lanes, which keep list order each (R296, R324). Which lane, if any, is
free. -/
def State.fetchAhead (s : State) (c : Cmd) : State :=
  let d := s.draw (2 ^ c.gLw + 1)
  if c.kind = .scat ∨ c.paid ≠ 0 then d.2 else
  let next := c.sent.find? (fun e => e.2 == d.1 && decide (s.usedTo c ≤ e.1) && !c.fetched.any (fun x => x.1 == e.1))
  match next with
  | none => d.2
  | some (k, _) =>
    match d.2.listIndex c k with
    | .error _ => d.2
    | .ok (raw, s1) =>
      match s1.readRow c raw k with
      | .error _ => d.2
      | .ok (bs, s2) =>
        let m := d.2.meter s2 c.sector c.id 0
        if m.1 then m.2.1.updCmd c.id (fun x => { x with fetched := x.fetched.filter (fun e => decide (s.usedTo c ≤ e.1)) ++ [(k, bs)] }) else d.2

/-- The root that this package's queue tables give an ASID (R296). -/
def State.ownRoot (s : State) (asid : Nat) : Option Nat :=
  [0, 1, 2, 3].findSome? (fun d => ((s.dieAt d).queueTable.find? (fun e => bitsN e.2.toNat 63 48 == asid)).map (fun e => bitsN e.2.toNat 36 0))

/-- Reads n sectors of a row for another package: whether all could be read. -/
def State.guestSectors (s : State) (k asid root : Nat) : Nat → Nat → Bool × State
  | _, 0 => (true, s)
  | va, n + 1 =>
    match s.translate k asid root (va % 2 ^ 57) .load with
    | (.ok pa, s1) =>
      if s1.paPresent pa = false ∨ s1.memBad pa = true then (false, s1)
      else (s1.portMove k pa 32).guestSectors k asid root (va + 32) n
    | (_, s1) => (false, s1)

/-- The index of a row comes from another package to the hub here that owns it: its address, length, address space, hub and package are the input's.
The hub translates it, its sector is metered for it (R334), and the row, or the code of its fault, goes back over its route (R296, log 46). -/
def State.guestRow (s : State) (id : Nat) : State :=
  let k := s.input.sector % 64
  let pkg := s.input.port % 64
  if !s.input.flag || s.frozen || !s.dieExists (dieOfSector k) || !s.sectorRuns k then s else
  match s.routeTo pkg, s.ownRoot s.input.index with
  | .open_, none => s.sendWord pkg vcSignal
  | .open_, some root =>
    let r := s.guestSectors k s.input.index root s.input.offset ((s.input.size + 31) / 32)
    let m := s.meterGuest r.2 k id
    if m.1 then m.2.sendWord pkg vcSignal else m.2
  | _, _ => s

/-- GATHER_OWNER_REQUEST: the hub goes through a free number of the list positions left and ships the index of each row to be read to its
owner (R296, R324), where it joins the bank lane of LW and SH. One that is no command of this package's is another package's request. -/
def execGatherOwnerRequest (command : Nat) (s : State) : Host.Outcome State Fault Refusal :=
  match s.cmd command with
  | none => .next (s.guestRow command)
  | some c =>
    if !s.cmdRuns c || decide (c.kind = .copy) || c.gBtu || c.gIsrc || decide (c.gNidx ≤ c.shipped) then .next s else
    let n := s.draw (c.gNidx - c.shipped)
    let rows := (List.range (n.1 + 1)).filterMap (fun q => (s.shipRow c (c.shipped + q)).map (fun r => (c.shipped + q, r)))
    let s1 := rows.foldl (fun (a : State) e => if c.owner e.2 = s.package then a else a.sendWord (c.owner e.2) vcSignal) n.2
    let s2 := s1.updCmd command (fun d => { d with
      shipped := d.shipped + n.1 + 1
      sent := d.sent ++ rows.map (fun e => (e.1, c.bankLane e.2))
      sentAt := s.dev })
    .next (match s2.cmd command with
      | some d => s2.fetchAhead d
      | none => s2)

/-- The 64 KiB granules of a row. -/
def Cmd.rowGranules (c : Cmd) (r : Nat) : List Nat :=
  let va := (c.gTbase + 32 * c.gRsz * r) % 2 ^ 57
  (List.range ((va % 65536 + 32 * c.gRsz + 65535) / 65536)).map (fun g => va / 65536 + g)

/-- Translates the granules of a batch one after another, each once (R121): those found, with the time their walks take, in ns. -/
def State.batchGranules (s : State) (c : Cmd) (batch : Nat) : List Nat → List XlEntry → Nat → State × List XlEntry × Nat
  | [], acc, ns => (s, acc, ns)
  | g :: rest, acc, ns =>
    if acc.any (fun e => e.granule == g) then s.batchGranules c batch rest acc ns else
    let va := g * 65536 % 2 ^ 57
    let x := s.cmdCtx c
    let walk := if s.tlbLook c.sector c.asid va .load = .miss then s.walkNs (dieOfSector c.sector) c.asid x.root va else 0
    match s.engXlat x va (if c.kind = .scat then .store else .load) 5 c.cursor with
    | .error _ => (s, acc, ns + walk)
    | .ok (pa, s1) => s1.batchGranules c batch rest (acc ++ [⟨batch, g, pa, s1.leafSize c.sector c.asid va, 0⟩]) (ns + walk)

/-- BATCH_TRANSLATION: the rows of the next 64 list positions are reduced to their distinct granules, in order of first appearance, and each
is translated by the issuing hub (R121, R297); a row whose granule fails is met when its turn comes. The batch is at hand 40 ns and its walks
later (R124). -/
def execBatchTranslation (command : Nat) (s : State) : Host.Outcome State Fault Refusal :=
  match s.cmd command with
  | none => .next s
  | some c =>
    if !s.cmdRuns c || decide (c.kind = .copy) || !c.gBtu || decide (c.gNidx ≤ c.translated) then .next s else
    let n := min 64 (c.gNidx - c.translated)
    let ks := (List.range n).map (fun q => c.translated + q)
    let rows := ks.filterMap (fun k => (s.shipRow c k).map (fun r => (k, r)))
    let q := s.batchGranules c (c.translated / 64) (rows.flatMap (fun e => c.rowGranules e.2)) [] 40
    let found := q.2.1.map (fun e => { e with ready := s.now + 60 * q.2.2 })
    let s2 := q.1.updCmd command (fun d => { d with
      translated := d.translated + n
      xl := d.xl ++ found
      sent := d.sent ++ rows.map (fun e => (e.1, c.bankLane e.2)) })
    .next s2

/-- The batches of the list positions below one are at hand (R124). -/
def State.batchReady (s : State) (c : Cmd) (k : Nat) : Bool := c.xl.all (fun e => decide (k ≤ 64 * e.batch) || decide (e.ready ≤ s.now))

/-- List positions a unit needs before it can be performed: a row's own, or all of a bag. -/
def State.unitReach (s : State) (c : Cmd) : Nat :=
  if c.kind = .embr then
    match s.bagOffset c (c.cursor + 1) with
    | .ok (hi, _) => hi
    | .error _ => 0
  else c.cursor + 1

/-- ROW_RETURN: the rows of the next list position or bag have come back and are written, stored or pooled (R298), once the arbiter has
admitted what they move (R334). An owner in another package answers the row, or the code of the fault it met (R296). -/
def execRowReturn (command : Nat) (answer : BitVec 16) (s0 : State) : Host.Outcome State Fault Refusal :=
  let s := s0.rowAnswer answer
  match s.cmd command with
  | none => .next s
  | some c =>
    if !s.cmdRuns c || decide (c.kind = .copy) || c.gIsrc || decide (c.total ≤ c.cursor) then .next s
    else if (if c.gBtu then c.translated else c.shipped) < s.unitReach c ∨ (c.gBtu = true ∧ s.batchReady c (s.unitReach c) = false) then .next s
    else
      let g := s.unitAsk c
      .next (if g.1 then g.2.runUnit c else g.2)

/-- INDEX_LANE_TOKEN: the next token of an index lane at port H is its next index, and its row is written; DONE ends the lane
(R298). A POISON is an index too, of a value nothing fixes (R42, log 43). The token stays where the row must wait: for its banks, for its route or for
the arbiter. -/
def execIndexLaneToken (command : Nat) (lane : Nat) (s : State) : Host.Outcome State Fault Refusal :=
  match s.cmd command with
  | none => .next s
  | some c =>
    let vc := c.gLvc + lane
    if !s.cmdRuns c || decide (c.kind ≠ .gath) || !c.gIsrc || decide (2 ^ c.gLw ≤ lane) || c.laneDone.getD lane true then .next s else
    match (s.cell c.cell).linkQ 5 vc with
    | [] => .next s
    | t :: rest =>
      if s.now < t.ready then .next s else
      let k := c.lanes.getD lane 0
      let g := if t.tok.kind = .done ∨ c.gNidx ≤ k then (true, s) else s.rowAsk c (lane + 1) (c.gData + 32 * c.gRsz * (lane * c.gNidx + k))
      if g.1 = false then .next g.2 else
      let s := g.2
      let s1 := s.updCell c.cell (fun x => x.setLinkQ 5 vc rest)
      let stop := fun (e : EngFault) => if e.code = 0 then s else s1.engineFault command { e with lvl := 1 }
      if t.tok.kind = .done then
        .next (s1.updCmd command (fun d => { d with laneDone := d.laneDone.set lane true }))
      else
        let idx := if t.tok.kind = .poison then (Config.poisonValue t.tok.payload).toNat else t.tok.payload.toNat
        if c.gNidx ≤ k then .next (stop (engFault 0x0412 7 3 0 0))
        else
          match s1.readRow c idx k with
          | .error e => .next (stop e)
          | .ok (bs, s2) =>
            match s2.writeSectors c c.gDlvl c.gDswz (c.gData + 32 * c.gRsz * (lane * c.gNidx + k)) 1 c.gRsz bs with
            | .error e => .next (stop e)
            | .ok s3 =>
              let m := s.meter s3 c.sector c.id c.paid
              if m.1 then
                .next (m.2.1.updCmd command (fun d => { d with
                  lanes := d.lanes.set lane (k + 1)
                  written := d.written + d.gRsz
                  paid := 0
                  asked := Map.set 0 d.asked (lane + 1) 0 }))
              else .next (m.2.1.updCmd command (fun d => { d with paid := m.2.2 }))

/-- ENGINE_SUSPEND: a command of an instance that drains for a pre-emption stops after what it has begun, counts it, and keeps
its cursor (R168, R386); a grammar command stops after a free number of its units (R282). One that a RESUME restarted tries its cursor first, and
faults anew where the condition still holds (R382, R416). -/
def execEngineSuspend (command : Nat) (s : State) : Host.Outcome State Fault Refusal :=
  let preempted := fun (inst : Option Nat) => (inst.bind s.inst).any (fun i => i.preempt && !i.retired)
  match s.cmd command with
  | some c =>
    if !preempted c.inst || !c.inPatch || !(c.stage == .active || c.stage == .queued) || !s.sectorRuns c.sector then .next s else
    if c.retry ∧ c.accepted = true then .next (s.runUnit c) else
    let s1 := if c.stage = .active then s.someUnits c else s
    match s1.cmd command with
    | none => .next s1
    | some d =>
      if d.stage = .held then .next s1 else
      match s1.countDown d with
      | .error e => .next (s1.engineFault command e)
      | .ok s2 => .next (s2.updCmd command (fun x => { x with stage := .suspended, fetched := [] }))
  | none =>
    match s.sectors.find? (fun e => e.2.gve.any (fun g => g.id == command)) with
    | none => .next s
    | some (k, t) =>
      match t.gve.find? (fun g => g.id == command) with
      | none => .next s
      | some g =>
        if !preempted g.inst || g.hold.isSome || g.suspended || decide (g.op = .read) || !s.sectorRuns k then .next s else
        let stop := fun (x : State) (cur : Nat) (fl : Flags) =>
          x.updGve k command (fun c => { c with running := false, suspended := true, cursor := cur, flags := fl, retry := false })
        let n := if g.running then s.draw (gveUnits g - g.cursor + 1) else (if g.retry then 1 else 0, s)
        match n.2.gveRun k g (g.cursor + n.1) with
        | .fault s1 cur fl e => .next (s1.gveFault k g cur fl e)
        | .ended s1 cur fl =>
          let m := n.2.meter s1 k command g.paid
          if m.1 then .next (stop (m.2.1.updGve k command (fun c => { c with paid := 0 })) cur fl)
          else .next (m.2.1.updGve k command (fun c => { c with paid := m.2.2 }))

end Sys2Proof.Machine
end

