-- ==== Sys2Proof/Machine/MeshOps.lean ====
section
/-! DEFINITION. Sys2Proof/Machine/MeshOps.lean: service traffic (R47): the fault of an entry of the decoupling queue (R380), targets (R307) and routing
records (R309), and the way of requests and updates over the mesh (R17, R45). -/
namespace Sys2Proof.Machine
open Sys2Proof

/-! Faults of decoupled work (R380). -/

/-- The pilot that issued a request, for requests of no cell. -/
def Req.pilot (r : Req) : Option Nat := if 32768 ≤ r.cell then some (r.cell - 32768) else none

/-- The fault of a request found after its issue: the instance is held, the entry keeps its operands (R380). A request of a
retired instance or of no cell ends. `at_` is the cell where the fault was detected, whose die writes the record (R346, R350). -/
def State.faultReqAt (s : State) (r : Req) (at_ code cont srck d0 d1 : Nat) : State :=
  match s.inst r.inst with
  | none => s.delReq r.id
  | some i =>
    if i.retired || r.retired then s.delReq r.id else
    let r0 := (s.baseRec (dieOfCell at_) (some i.job) code cont srck).atCell at_ r.slot
    let r1 : FaultRec := { r0 with
      opw := (s.cell r.cell).active.opWord r.slot
      subok := decide (cont = 0) && r.dst != .none
      detail0 := BitVec.ofNat 64 d0
      detail1 := BitVec.ofNat 64 d1 }
    (s.takeFault i .request r1 [(r.cell, r.slot)]).updReq r.id (fun q => { q with stage := .faulted code })

/-- A fault found on the issuing side: at the cell, or at its hub, for which the spec gives no coordinates (log 119). -/
def State.faultReq (s : State) (r : Req) (code cont srck d0 d1 : Nat) : State := s.faultReqAt r r.cell code cont srck d0 d1

/-! Targets (R307). -/

def tgtPkg (t : Word) : Nat := bitsN t.toNat 31 26
def tgtDie (t : Word) : Nat := bitsN t.toNat 25 24
def tgtPil (t : Word) : Bool := bitsN t.toNat 10 10 == 1
def tgtVc (t : Word) : Nat := bitsN t.toNat 4 0
/-- The package cell number a target names. -/
def tgtCell (t : Word) : Nat := cellOf (64 * (tgtDie t % 2) + bitsN t.toNat 16 11) (128 * (tgtDie t / 2) + bitsN t.toNat 23 17)

/-- A routing record's fields (R309). -/
def rrToken (v : BitVec 64) : Nat := bitsN v.toNat 63 48
def rrExpert (v : BitVec 64) : Nat := bitsN v.toNat 47 40
def rrPkg (v : BitVec 64) : Nat := bitsN v.toNat 39 34
def rrSector (v : BitVec 64) : Nat := bitsN v.toNat 33 32 * 16 + bitsN v.toNat 31 28
def rrPol (v : BitVec 64) : Bool := bitsN v.toNat 27 27 == 1
def rrRound (v : BitVec 64) : Nat := bitsN v.toNat 26 24
def rrWt (v : BitVec 64) : Nat := bitsN v.toNat 15 0

/-- A sector takes nothing from outside (R396). -/
def Sector.shut (t : Sector) : Bool := t.mode == .gated || t.mode == .calib || t.closed

/-! Publishers (R304). -/

/-- The publisher cell and region offset that a mirror's partner handle names (R304): package, cell, offset. -/
def State.publisherOf (s : State) (cell mirror : Nat) : Nat × Nat × Nat :=
  let a := ((s.cell cell).handle (mirror + 1)).address 0 0
  (remPkg a, remCell a, remOff a)

/-! Service traffic on the mesh (R17, R45, R47): a REM access goes on v26 to its target cell and comes back on v27; a `send` goes on v31, and a `sub`, an
`unsub` and an `rgreq` to another sector's hub go there and back; the updates and park markers of a subscription go on v29. Each is one token (log 27). -/

/-- Links between two cells in X and in Y. -/
def gap (a b : Nat) : Nat := max a b - min a b
/-- A coordinate k steps from a toward b. -/
def toward (a b k : Nat) : Nat := if a ≤ b then min b (a + k) else max b (a - k)
/-- The cell k links on from a toward b: X first, then Y (R47). -/
def xyAt (a b k : Nat) : Nat :=
  cellOf (toward (cellX a) (cellX b) k) (toward (cellY a) (cellY b) (k - gap (cellX a) (cellX b)))
/-- The port of the next link from a toward b. -/
def xyPort (a b : Nat) : Option Nat :=
  if cellX a < cellX b then some 1 else if cellX b < cellX a then some 3
  else if cellY a < cellY b then some 2 else if cellY b < cellY a then some 0 else none
/-- The port by which a token that has come k links enters: port L at its source. -/
def xyInPort (a b k : Nat) : Nat :=
  if k = 0 then 4 else match xyPort (xyAt a b (k - 1)) b with
    | some 0 => 2 | some 1 => 3 | some 2 => 0 | _ => 1

/-- The cell at whose router a sector's hub sends and receives what comes from other sectors: its north-west one (log 27). -/
def hubCell (k : Nat) : Nat := cellInSector k 0 0

/-- The cell that a request's service token goes to over the mesh, its VC, and whether an answer comes back. -/
def State.meshTo (s : State) (r : Req) : Option (Nat × Nat × Bool) :=
  if r.pilot.isSome then none else
  let publisher := fun (m : Nat) =>
    let p := s.publisherOf r.cell m
    if p.1 ≠ s.package ∨ s.dieExists (dieOfCell p.2.1) = false then none else some (p.2.1, 31, true)
  match r.body with
  | .send _ _ t => if tgtPil t ∨ tgtPkg t ≠ s.package ∨ s.dieExists (tgtDie t) = false then none else some (tgtCell t, 31, false)
  | .sub m => publisher m
  | .unsub m => publisher m
  | .rgreq v =>
    let k := rrSector v
    if rrPkg v ≠ s.package ∨ s.dieExists (dieOfSector k) = false ∨ k = sectorOfCell r.cell then none else some (hubCell k, 31, true)
  | b => if !b.isRemote || r.loc || remPkg r.addr != s.package || !s.dieExists (remDie r.addr) then none else some (remCell r.addr, 26, true)

/-- A service token at a router: its VC, the router's cell, the port it came in by, and the port it leaves by. -/
structure MeshPlace where
  vc : Nat
  cell : Nat
  port : Nat
  next : Option Nat
  deriving DecidableEq, Repr

/-- Where a request's service token stands: on its way to its target, or on the way back. -/
def State.meshPlace (s : State) (r : Req) : Option MeshPlace :=
  match s.meshTo r with
  | none => none
  | some (t, vc, back) =>
    let d := cellHops r.cell t
    if r.stage = .issued ∧ r.hops ≤ d then
      some ⟨vc, xyAt r.cell t r.hops, xyInPort r.cell t r.hops, xyPort (xyAt r.cell t r.hops) t⟩
    else if back ∧ r.stage = .answered ∧ d ≤ r.hops ∧ r.hops < 2 * d then
      some ⟨if vc = 26 then 27 else vc, xyAt t r.cell (r.hops - d), xyInPort t r.cell (r.hops - d), xyPort (xyAt t r.cell (r.hops - d)) r.cell⟩
    else none

/-- A request has reached its target cell. -/
def State.meshReached (s : State) (r : Req) : Bool :=
  match s.meshTo r with
  | none => true
  | some (t, _, _) => decide (cellHops r.cell t ≤ r.hops)

/-- The answer of a request that was performed at its target is back. -/
def State.meshBack (s : State) (r : Req) : Bool :=
  match s.meshTo r with
  | some (t, _, true) => decide (r.hops < cellHops r.cell t) || decide (2 * cellHops r.cell t ≤ r.hops)
  | _ => true

/-- The pair's updates come over the mesh of this package: its publisher is here, or was. -/
def Pair.onMesh (p : Pair) : Bool := !p.isExt || p.gone

/-- The links between a publisher and its subscriber. -/
def Pair.links (p : Pair) : Nat := cellHops p.pubCell p.sub

/-- The updates up to and with the park marker (R306). -/
def untilMarker : List Update → List Update
  | [] => []
  | u :: rest => if u.marker then [u] else u :: untilMarker rest

/-- The park marker is still to come: what comes before it goes to the mirror (R306). -/
def Pair.markerDue (p : Pair) : Bool := if p.onMesh then p.queue.any Update.marker else decide (p.synced < p.markAt)

/-- The updates of a pair that travel: those a hub has read (R304), of a parked pair those up to its marker. -/
def Pair.travelling (p : Pair) : List Update :=
  if !p.onMesh then []
  else if p.parked then (if p.markerDue then untilMarker p.queue else [])
  else p.queue.takeWhile Update.ready

/-- Where an update stands: on its way, or in the subscriber's input. -/
def Pair.place (p : Pair) (u : Update) : MeshPlace :=
  ⟨29, xyAt p.pubCell p.sub u.hops, xyInPort p.pubCell p.sub u.hops, xyPort (xyAt p.pubCell p.sub u.hops) p.sub⟩

/-- What a service token is: a request, or an update of a pair. -/
inductive MeshRef
  | req (id : Nat)
  | update (pair index : Nat)
  deriving DecidableEq, Repr

/-- A service token on the mesh: `key` orders those of one FIFO, by arrival. -/
structure MeshTok where
  ref : MeshRef
  place : MeshPlace
  key : Nat
  hopAt : Nat
  deriving DecidableEq, Repr

/-- The service tokens on a VC. -/
def State.meshToks (s : State) (vc : Nat) : List MeshTok :=
  if vc = 29 then
    s.pairs.flatMap (fun p => p.travelling.zipIdx.map (fun e => ⟨.update p.id e.2, p.place e.1, e.1.hopAt, e.1.hopAt⟩))
  else
    s.reqs.filterMap (fun r => match s.meshPlace r with
      | some m => if m.vc = vc then some ⟨.req r.id, m, r.arrived, r.hopAt⟩ else none
      | none => none)

end Sys2Proof.Machine
end

