-- ==== Sys2Proof/Machine/SubscriptionOps.lean ====
section
/-! DEFINITION. Sys2Proof/Machine/SubscriptionOps.lean: the Roster, mirrors and updates: `sub`, `unsub` and `sflush` (R303 to R305), the
events of activation, snapshot, updates and parking (R141, R142, R306), and the faults of R393 and R394. -/
namespace Sys2Proof.Machine
open Sys2Proof

/-! Regions (R303). -/

/-- The handles with PUB of a plane, ascending: region entry j is the j-th. -/
def Plane.regions (p : Plane) : List Nat := (List.range 32).filter (fun n => (p.handle n).pub)

/-- Bytes of a handle's region (R108). -/
def Handle.regionLen (h : Handle) : Nat := h.regionEnd - h.base
/-- Bytes of a published region: the handle's, rounded outward to 32-byte sectors (R303). -/
def Handle.publishedLen (h : Handle) : Nat := (h.regionEnd + 31) / 32 * 32 - h.base / 32 * 32

/-- A slot's word (R303). -/
def rosterWord (state reg mh pkg sub : Nat) : Word :=
  BitVec.ofNat 32 (state * 2 ^ 30 + reg * 2 ^ 27 + mh * 2 ^ 22 + pkg * 2 ^ 16 + dieOfCell sub * 2 ^ 14 + cellY sub % 128 * 2 ^ 7 +
    cellX sub % 64 * 2)
/-- The same word in another state. -/
def rosterState (w : Word) (state : Nat) : Word := BitVec.ofNat 32 (w.toNat % 2 ^ 30 + state * 2 ^ 30)

/-- Sets the STATE of a pair's slot: in the Roster, or in the frame image of a pre-empted publisher (R306). -/
def State.setSlotState (s : State) (p : Pair) (st : Nat) : State :=
  if p.isExt then s else
  match p.pubFrame with
  | some pa => s.memWrite pa (rosterState (BitVec.ofNat 32 (s.memRead pa 4)) st).toNat 4
  | none => s.updCell p.pub (fun c => { c with roster := Map.put c.roster p.slot (rosterState (Map.get 0 c.roster p.slot) st) })

/-! Updates at the mirror. -/

/-- Byte positions of an update at the mirror: (offset in the mirror's cell, byte). The update's sectors may reach beyond the handle's bytes
where its BASE or end is not a multiple of 32 (R303): what does not fall in the mirror is not written (log 128). -/
def Pair.targets (p : Pair) (u : Update) : List (Nat × Byte) :=
  (List.range 32).filterMap (fun k =>
    let a : Int := (p.mirrorBase : Int) + ((u.off + k : Nat) : Int) - p.regionBase
    if maskBit u.mask k && decide ((p.mirrorBase : Int) ≤ a) && decide (a < p.mirrorBase + p.mirrorLen) then some (a.toNat, u.bytes.getD k 0) else none)

/-- Writes an update into the mirror as one SUB write: bytes of tagged words are left out, and hold the subscriber (R305, R393). -/
def State.mirrorWrite (s : State) (p : Pair) (u : Update) : State :=
  let ts := p.targets u
  let tagged := fun (a : Nat) => (s.cell p.sub).tagged p.mirrorSwz a
  let s1 := (ts.filter (fun t => !tagged t.1)).foldl (fun (a : State) t => a.spadPut p.sub p.mirrorSwz t.1 [t.2]) s
  match ts.find? (fun t => tagged t.1), s.instAt p.sub with
  | some t, some i =>
    let r := (s1.baseRec i.die (some i.job) 0x0602 1 5).atCell p.sub 0
    s1.takeFault i .request { r with detail0 := BitVec.ofNat 64 (t.1 / 8 * 8) } []
  | _, _ => s1

/-- The head of a pair's stream has been applied; a marker is an acknowledgement of what came before it. -/
def Pair.pop (p : Pair) : Pair :=
  match p.queue with
  | [] => p
  | u :: rest => if u.marker then { p with queue := rest, synced := p.synced + 1 } else { p with queue := rest, applied := p.applied + 1 }

/-- Answers what waits on updates now applied: `sflush`, and arrivals at LOC words (R142). -/
def State.wakePairs (s : State) : State :=
  s.reqs.foldl (fun (a : State) r =>
    if r.stage ≠ .waiting then a else
    match r.body with
    | .sflush ws => if a.pairsDone ws then a.updReq r.id (fun q => q.answered 0 s.now) else a
    | .bara _ _ ws =>
      if r.loc && a.pairsDone ws then
        match a.syncOp r.wordAt r.body with
        | .done pay b => b.updReq r.id (fun q => q.answered pay s.now)
        | .fault code =>
          match a.inst r.inst with
          | none => a
          | some i =>
            let rec0 := (a.baseRec i.die (some i.job) code 0 0).atCell r.cell r.slot
            let rec1 : FaultRec := { rec0 with
              opw := (a.cell r.cell).active.opWord r.slot
              subok := r.dst != .none
              detail0 := BitVec.ofNat 64 (a.syncWord r.wordAt)
              detail1 := BitVec.ofNat 64 (r.body.operandA + r.wordAt.off % 32768 * 2 ^ 32) }
            (a.takeFault i .request rec1 [(r.cell, r.slot)]).updReq r.id (fun q => { q with stage := .faulted code })
        | .wait => a
      else a
    | _ => a) s

/-! Operators. -/

/-- `sub` (R304). -/
def execSubscribe (site : Site) (f : OpFields) (s : State) : Host.Outcome State Fault Refusal :=
  s.fire 0xC5 site f noFault (fun s1 F => s1.unlessSuppressed F (fun s2 =>
    s2.enqueue F (.sub (immHandle f.imm.toNat)) .issued Place.nowhere F.kind 0))
/-- `unsub` (R304). -/
def execUnsub (site : Site) (f : OpFields) (s : State) : Host.Outcome State Fault Refusal :=
  s.fire 0xC6 site f noFault (fun s1 F => s1.unlessSuppressed F (fun s2 =>
    s2.enqueue F (.unsub (immHandle f.imm.toNat)) .issued Place.nowhere F.kind 0))
/-- `sflush` (R304): every region the cell publishes and every region it mirrors (R142). -/
def execSflush (site : Site) (f : OpFields) (s : State) : Host.Outcome State Fault Refusal :=
  s.fire 0xC7 site f noFault (fun s1 F => s1.unlessSuppressed F (fun s2 =>
    let c := s2.closePairs (fun p => (p.pub == F.cell && p.pubFrame.isNone) || (p.sub == F.cell && p.frame.isNone))
    c.1.enqueue F (.sflush c.2) (if c.1.pairsDone c.2 then .answered else .waiting) Place.nowhere F.kind 0))

/-! Events. -/

/-- The pair of a subscriber cell's mirror at a publisher. -/
def State.pairOf (s : State) (cell mirror pub : Nat) : Option Pair :=
  s.pairs.find? (fun p => p.sub == cell && p.mirror == mirror && p.pub == pub && p.frame.isNone)

/-- The number of the publisher that a mirror's partner handle names. -/
def State.publisherId (s : State) (cell mirror : Nat) : Nat :=
  let a := s.publisherOf cell mirror
  if a.1 = s.package then a.2.1 else extPub a.1 a.2.1

/-- Answers a request; its answer goes back from now on. -/
def State.answer (s : State) (id : Nat) (v : Nat) : State :=
  s.updReq id (fun q => q.answered v s.now)

/-- The status of a `sub` (R304), the first of the order that applies: GATED 5, DENIED 6 (R110: also where no instance is resident, and NOREGION where the die is
absent, log 45), NOREGION 1, EXISTS 3, SHORT 4, FULL 2; 0 with
the region entry. -/
def State.subStatus (s : State) (r : Req) (mirror : Nat) : Nat × Nat :=
  let (_, pub, off) := s.publisherOf r.cell mirror
  let k := sectorOfCell pub
  let h := (s.cell r.cell).handle mirror
  if s.dieExists (dieOfCell pub) = false then (1, 0)
  else if (s.sector k).mode = .gated ∨ (s.sector k).mode = .calib ∨ (s.sector k).closed = true then (5, 0)
  else
    match (s.instAt pub).filter (fun i => i.restoreStep != 1) with
    | none => (6, 0)
    | some i =>
      if i.asid ≠ r.asid then (6, 0) else
      let p := (s.cell pub).active
      match (p.regions.zipIdx).find? (fun e => decide ((p.handle e.1).base = off)) with
      | none => (1, 0)
      | some (hn, j) =>
        if (s.pairOf r.cell mirror pub).any (fun q => q.pubFrame.isNone) then (3, 0)
        else if h.regionLen < (p.handle hn).publishedLen ∨ h.live = false then (4, 0)
        else if 16 ≤ (s.cell pub).roster.length then (2, 0)
        else (0, j)

/-- A new pair: the publisher and its region, the subscriber and its mirror, and what heads its stream. -/
def Pair.start (id pub slot sub mirror regionBase regionLen regionSwz : Nat) (mh : Handle) (snap : List Update) : Pair := {
  id := id, pub := pub, slot := slot, sub := sub, mirror := mirror, regionBase := regionBase, regionLen := regionLen,
  regionSwz := regionSwz, mirrorBase := mh.base, mirrorLen := mh.regionLen, mirrorSwz := mh.swz, heldSector := none, heldMask := 0,
  heldBytes := [], heldSince := 0, queue := snap, live := false, parked := false, reserved := false, frame := none, frameLo := 0,
  saved := false, pubFrame := none, closed := snap.length, applied := 0, asked := 0, synced := 0, gone := false, markAt := 0 }

/-- The snapshot of a region: every sector as it is at activation, still to be read by the hub (R304). -/
def Cell.snapshot (c : Cell) (h : Handle) (now : Nat) : List Update :=
  let lo := h.base / 32
  (List.range ((h.regionEnd + 31) / 32 - lo)).map (fun k =>
    ⟨(lo + k) * 32, 2 ^ 32 - 1, c.byteList h.swz ((lo + k) * 32) 32, false, false, 0, now⟩)

/-- The publisher's hub reads the next sector of a snapshot in its banks' turn, where the stream has room (R304, R114). -/
def State.readSnapshot (s : State) (p : Pair) : State :=
  match p.queue.zipIdx.find? (fun e => !e.1.ready) with
  | none => s
  | some (u, n) =>
    if decide (4 + Config.updateRoom ≤ p.waiting) || !s.sectorRuns (sectorOfCell p.pubCell) then s else
    let g := s.hubAsk (some (p.pubCell, u.off, p.regionSwz)) none
    if g.1 then g.2.updPair p.id (fun q => { q with queue := q.queue.set n { u with ready := true, hopAt := s.now } }) else g.2

/-- ACTIVATION: the `sub` has reached its publisher; on success the slot becomes SNAP, and the snapshot heads the pair's stream (R304,
R141), whose sectors the hub then reads in further turns. A publisher of another package answers through the input, and with status 0 the pair waits
for the snapshot from there. -/
def execActivation (request : Nat) (s : State) : Host.Outcome State Fault Refusal :=
  match s.req request with
  | none => .next s
  | some r =>
    match r.body with
    | .sub m =>
      let mh := (s.cell r.cell).handle m
      let (pkg, pub, off) := s.publisherOf r.cell m
      if r.stage = .snapshot then
        match s.pairOf r.cell m (s.publisherId r.cell m) with
        | some p => .next (s.readSnapshot p)
        | none => .next s
      else if r.stage ≠ .issued then .next s
      else if pkg ≠ s.package then
        match s.routeTo pkg with
        | .wait => .next s
        | .fault code d0 => .next (s.faultReq r code 0 0 d0 0)
        | .open_ =>
          let s1 := s.sendWord pkg vcMessage
          let st := s.input.value.toNat % 2 ^ 32
          if st ≠ 0 then .next (s1.answer request st) else
          let (id, s2) := s1.fresh
          .next (({ s2 with pairs := s2.pairs ++ [Pair.start id (extPub pkg pub) 0 r.cell m off 0 0 mh []] }).updReq request (fun q =>
            { q with stage := .snapshot }))
      else if !s.meshReached r then .next s
      else
        let st := s.subStatus r m
        if st.1 ≠ 0 then .next (s.answer request st.1)
        else if !s.sectorRuns (sectorOfCell pub) then .next s
        else
          let c := s.cell pub
          let h := c.active.handle (c.active.regions.getD st.2 0)
          let slot := ((List.range 16).find? (fun n => !(c.roster.any (fun e => e.1 == n)))).getD 0
          let (id, s1) := s.fresh
          let p := Pair.start id pub slot r.cell m h.base h.regionLen h.swz mh (c.snapshot h s.now)
          let s2 := s1.updCell pub (fun t => { t with roster := Map.put t.roster slot (rosterWord 1 st.2 m s.package r.cell) })
          .next (({ s2 with pairs := s2.pairs ++ [p] }).updReq request (fun q => { q with stage := .snapshot }))
    | _ => .next s

/-- SNAPSHOT_COMPLETE: the whole region is in the mirror; the slot becomes LIVE and the status 0 is answered (R304). That all of it has come
from another package, the input's flag says. -/
def execSnapshotComplete (request : Nat) (s : State) : Host.Outcome State Fault Refusal :=
  match s.req request with
  | none => .next s
  | some r =>
    match r.body with
    | .sub m =>
      if r.stage ≠ .snapshot then .next s else
      match s.pairOf r.cell m (s.publisherId r.cell m) with
      | none => .next (s.answer request 1)
      | some p =>
        let there := if p.isExt then s.input.flag && p.queue.isEmpty
          else decide ((p.regionBase + p.regionLen + 31) / 32 - p.regionBase / 32 ≤ p.applied)
        if there then .next (((s.updPair p.id (fun q => { q with live := true })).setSlotState p 2).answer request 0) else .next s
    | _ => .next s

/-- HELD_UPDATE_CLOSE: a held update is closed 16 cycles after it opens (R141). -/
def execHeldUpdateClose (pair : Nat) (s : State) : Host.Outcome State Fault Refusal :=
  match s.pair pair with
  | none => .next s
  | some p =>
    let k := sectorOfCell p.pub
    if p.heldSector.isNone ∨ p.isExt = true ∨ s.cycle k < p.heldSince + 16 ∨ s.sectorRuns k = false then .next s
    else .next (s.updPair pair (fun q => q.close s.now))

/-- The subscriber takes updates: it is resident, and its saved state, if it is being restored, is written: until step 3 of a restore is done, updates wait in v29 (R306). -/
def State.subscriberReady (s : State) (p : Pair) : Bool :=
  match s.instAt p.sub with
  | some i => i.restoreStep == 0 || i.restoreStep == 5
  | none => false

/-- What a publisher of another package sends comes in over v29 with the input: an update, with its sector's offset, mask and bytes (R305), or with
`setting` the acknowledgement of what came before: a fence's or arrival's, or a park marker (R142, R306). -/
def State.takeUpdate (s : State) (p : Pair) : State :=
  let x := s.input
  if p.onMesh then s
  else if x.setting.isSome then
    s.updPair p.id (fun q => if q.synced + (q.queue.filter Update.marker).length < q.asked then
      { q with queue := q.queue ++ [⟨0, 0, [], true, true, 0, s.now⟩] } else q)
  else if x.flag then
    s.updPair p.id (fun q => { q with queue := q.queue ++ [⟨x.offset, x.index % 2 ^ 32, x.bytes, false, true, 0, s.now⟩], closed := q.closed + 1 })
  else s

/-- The head of a pair's stream has reached the subscriber. -/
def Pair.arrived (p : Pair) (u : Update) : Bool := !p.onMesh || (u.ready && decide (p.links ≤ u.hops))

/-- MIRROR_UPDATE: the next update of a pair is applied at its mirror, as one write in its banks' turn (R305, R114); a park marker ends the updates
that come before a drain point (R306). -/
def execMirrorUpdate (pair : Nat) (s0 : State) : Host.Outcome State Fault Refusal :=
  let s := match s0.pair pair with | some p => s0.takeUpdate p | none => s0
  match s.pair pair with
  | none => .next s
  | some p =>
    if (p.parked && !p.markerDue) || !s.subscriberReady p || !s.sectorRuns (sectorOfCell p.sub) then .next s else
    match p.queue with
    | [] => .next s
    | u :: _ =>
      if !p.arrived u then .next s
      else if u.marker then .next (s.updPair pair Pair.pop).wakePairs
      else
        let g := s.hubAsk none (some (p.sub, p.mirrorBase + u.off - p.regionBase, p.mirrorSwz))
        .next (if g.1 then ((g.2.mirrorWrite p u).updPair pair Pair.pop).wakePairs else g.2)

/-- Entries of a hub's park table in use or reserved. -/
def State.parkUsed (s : State) (k : Nat) : Nat := (s.pairs.filter (fun p => p.onMesh && sectorOfCell p.pubCell == k && (p.parked || p.reserved))).length

/-- The pairs whose mirrors lie in an instance's cells. -/
def State.mirrorsOf (s : State) (i : Inst) : List Pair := s.pairs.filter (fun p => i.covers p.sub && p.frame.isNone)

/-- PARK_REQUEST: the publisher closes the held update and sends its marker behind it; the slot is PARKED, and later updates go to the
frame (R306). A publisher of another package acknowledges with its marker. -/
def execParkRequest (pair : Nat) (s : State) : Host.Outcome State Fault Refusal :=
  match s.pair pair with
  | none => .next s
  | some p =>
    if !p.reserved || p.parked || !(s.instAt p.sub).any (fun i => i.preempt && i.parkReserved) || !p.live || s.frozen then .next s else
    let mark := fun (q : Pair) => if q.onMesh
      then let c := q.close s.now; { c with queue := c.queue ++ [⟨0, 0, [], true, true, 0, s.now⟩] }
      else { q with asked := q.asked + 1, markAt := q.asked + 1 }
    .next ((s.updPair pair (fun q => { mark q with parked := true, reserved := false, saved := false })).setSlotState p 3)

/-- Writes one update into the saved image of a mirror, at the ports of the publisher's hub (R306). -/
def State.frameWrite (s : State) (p : Pair) (u : Update) : State :=
  match p.frame with
  | none => s
  | some base =>
    let ts := (p.targets u).map (fun t => (base + (t.1 - p.frameLo), t.2))
    let s1 := ts.foldl (fun (a : State) t => a.memSetByte t.1 t.2) s
    if p.onMesh then (ts.map (fun t => t.1 / 32)).eraseDups.foldl (fun (a : State) k => a.portMove (sectorOfCell p.pubCell) (32 * k) 32) s1 else s1

/-- Performs the next write of a parked pair in the frame, once the publisher's sector may move it (R306, R334). -/
def State.frameUpdate (s : State) (p : Pair) : State :=
  match p.queue with
  | [] => s
  | u :: _ =>
    if u.marker then s.updPair p.id Pair.pop else
    (s.meter ((s.frameWrite p u).updPair p.id Pair.pop) (sectorOfCell p.pubCell) p.id 0).2.1

/-- PARKED_UPDATE_WRITE: once the range is saved, the next update of a parked pair is written into the frame (R306). -/
def execParkedUpdateWrite (pair : Nat) (s : State) : Host.Outcome State Fault Refusal :=
  match s.pair pair with
  | none => .next s
  | some p => if !p.parked || !p.saved || s.frozen then .next s else .next (s.frameUpdate p).wakePairs

/-- UNPARK: on restore every frame write is performed, one at a turn; then the slot becomes LIVE, and later updates go to the cell (R306). Of a
publisher that has retired only the frame writes are left, and the mirror takes no slot (R395); one of another package answers through the input. -/
def execUnpark (pair : Nat) (s : State) : Host.Outcome State Fault Refusal :=
  match s.pair pair with
  | none => .next s
  | some p0 =>
    if !p0.parked || !p0.saved || s.frozen || !(s.instAt p0.sub).any (fun i => decide (0 < i.restoreStep) && s.mirrors i p0) then .next s else
    let p := p0.close s.now
    let s1 := s.updPair pair (fun q => q.close s.now)
    if !p.queue.isEmpty then .next (s1.frameUpdate p).wakePairs
    else if p.gone then .next (({ s1 with pairs := s1.pairs.filter (fun q => q.id != pair) }).wakePairs)
    else if p.isExt && s.input.setting.isNone then .next s1
    else .next (((s1.updPair pair (fun q => { q with parked := false, frame := none, saved := false })).setSlotState p 2).wakePairs)

end Sys2Proof.Machine
end

