-- ==== Sys2Proof/Machine/LaunchOps.lean ====
section
/-! DEFINITION. Sys2Proof/Machine/LaunchOps.lean: device queues (R146 to R149, R399), launch packets and their rejection (R150, R398),
profiles and channels (R153, R154), node records and eligibility (R155 to R158, R400), the completion of nodes and jobs (R32,
R144, R152, R159), and peer launch (R164). -/
namespace Sys2Proof.Machine
open Sys2Proof

/-! Profiles (R153) and channel entries (R154). -/

def profW (p : BitVec 256) : Nat := bitsN p.toNat 3 0 + 1
def profH (p : BitVec 256) : Nat := bitsN p.toNat 7 4 + 1
def profNhnd (p : BitVec 256) : Nat := bitsN p.toNat 13 8
/-- Scratchpad bytes per cell (R38). -/
def profSpad (p : BitVec 256) : Nat := bitsN p.toNat 21 14 * 256
def profSlate (p : BitVec 256) : Nat := bitsN p.toNat 37 22
def profNbar (p : BitVec 256) : Nat := bitsN p.toNat 43 38
def profNring (p : BitVec 256) : Nat := bitsN p.toNat 49 44
def profFixed (p : BitVec 256) : Bool := bitsN p.toNat 50 50 == 1
def profNpre (p : BitVec 256) : Bool := bitsN p.toNat 51 51 == 1
def profSlive (p : BitVec 256) : Bool := bitsN p.toNat 52 52 == 1
def profChan (p : BitVec 256) : Nat := bitsN p.toNat 120 64
def profNch (p : BitVec 256) : Nat := bitsN p.toNat 133 128

/-- Reserved fields zero and every field in its range (R153, R9). -/
def profOk (p : BitVec 256) : Bool :=
  decide (bitsN p.toNat 255 134 = 0) && decide (bitsN p.toNat 127 121 = 0) && decide (bitsN p.toNat 63 53 = 0) &&
  decide (profNch p ≤ 32) && decide (profSlate p ≤ 32768) && decide (profSpad p ≤ 32768) && decide (profNhnd p ≤ 32)

/-- A profile of a job. -/
def Job.profile (j : Job) (n : BitVec 512) : BitVec 256 := j.profiles.getD (nodeProf n) 0

/-- A channel-list entry (R154). -/
structure Chan where
  xidx : Nat
  xnode : Bool
  dic : Nat
  dcell : Nat
  dstg : Nat
  soc : Nat
  scell : Nat
  sstg : Nat
  reserved : Nat
  deriving DecidableEq, Repr

def chanOf (v : Nat) : Chan where
  xidx := bitsN v 50 35
  xnode := bitsN v 34 34 == 1
  dic := bitsN v 33 29
  dcell := bitsN v 28 21
  dstg := bitsN v 20 17
  soc := bitsN v 16 12
  scell := bitsN v 11 4
  sstg := bitsN v 3 0
  reserved := bitsN v 63 51

/-- Every 64 KiB granule of a range translates for an access (R118). -/
def State.rangeOk (s : State) (asid root va n : Nat) (a : Access) : Bool :=
  decide (va + n ≤ 2 ^ 57) &&
  (List.range ((va % 65536 + n + 65535) / 65536)).all (fun k => (s.ttXlat asid root (va / 65536 * 65536 + 65536 * k) a).isSome)

/-- The channel list of a profile: none where an address fails. -/
def State.chanList (s : State) (asid root : Nat) (p : BitVec 256) : Option (List Chan) :=
  if profNch p = 0 then some [] else
  if profChan p % 8 ≠ 0 then none else
  (List.range (profNch p)).foldl (fun (a : Option (List Chan)) k =>
    match a, s.vaBlock asid root (profChan p + 8 * k) 8 with
    | some l, some b => some (l ++ [chanOf (bytesNat b)])
    | _, _ => none) (some [])

/-- Reads graph record i of a job (R150). -/
def State.graphRecord (s : State) (j : Job) (i : Nat) : Option (BitVec 512) :=
  (s.vaBlock j.asid j.root (j.graph + 64 * i) 64).map (fun l => BitVec.ofNat 512 (bytesNat l))

/-! Queue headers (R146, R147, R399). -/

def qEn (e : BitVec 128) : Bool := bitsN e.toNat 45 45 == 1
def qHdr (e : BitVec 128) : Nat := bitsN e.toNat 120 64
def qAsid (e : BitVec 128) : Nat := bitsN e.toNat 63 48
def qPcap (e : BitVec 128) : Nat := bitsN e.toNat 47 46
def qRoot (e : BitVec 128) : Nat := bitsN e.toNat 36 0

def State.queueEntry (s : State) (d q : Nat) : BitVec 128 := Map.get 0 (s.dieAt d).queueTable q
def State.setQueueEntry (s : State) (d q : Nat) (e : BitVec 128) : State :=
  s.updDie d (fun t => { t with queueTable := Map.set 0 t.queueTable q e })

/-- The header of a device queue with the physical address of the slot at RIDX. -/
def State.queueHeader (s : State) (e : BitVec 128) : Except Nat (QHeader × Nat) :=
  match s.readHeader (qAsid e) (qRoot e) (qHdr e) with
  | .error va => .error va
  | .ok h =>
    match s.ttXlat (qAsid e) (qRoot e) (h.slot h.ridx) .store with
    | none => .error (h.slot h.ridx)
    | some pa => if (s.firstBad pa 64).isSome then .error (h.slot h.ridx) else .ok (h, pa)

/-- Raises an MSI-X vector (R326, R352). -/
def State.raiseMsi (s : State) (v : Nat) : State := { s with msix := s.msix ++ [v] }

/-- QUEUE_STOP (R399): EN cleared, a record of no job kept by the Proctor, MSI-X 267. -/
def State.stopQueue (s : State) (d q va : Nat) : State :=
  let e := s.queueEntry d q
  let s1 := s.setQueueEntry d q (e &&& ~~~(BitVec.ofNat 128 (2 ^ 45)))
  let r := s1.baseRec d none 0x0E06 0 7
  (s1.pushRec { r with detail0 := BitVec.ofNat 64 (64 * d + q), detail1 := BitVec.ofNat 64 (va % 2 ^ 57) }).raiseMsi 267

/-! Completion records (R152). -/

/-- A completion record. -/
def completionRecord (tend tstart npre nflt status job seq : Nat) : Nat :=
  tend * 2 ^ 256 + tstart * 2 ^ 192 + npre % 2 ^ 32 * 2 ^ 160 + nflt % 2 ^ 32 * 2 ^ 128 + status * 2 ^ 96 + job * 2 ^ 64 + seq

/-- Writes a completion record at a work area, then counts it in CIDX while the header translates, then interrupts (R152, R399). -/
def State.complete (s : State) (d q asid root work rec_ : Nat) (irq : Bool) : State :=
  let s1 := (s.vaWrite asid root work (natBytes 64 rec_)).getD s
  let e := s1.queueEntry d q
  let s2 := match s1.findHeader (qAsid e) (qRoot e) (qHdr e) with
    | some h => s1.putHeader h 16 (h.cidx + 1)
    | none => s1
  if irq then s2.raiseMsi (64 * d + q) else s2

/-! Node records (R155, R156, R400). -/

/-- Reserved fields, ranges and lists of a node record, for its kind; false is a fault 0x0802. -/
def State.recordOk (s : State) (j : Job) (n : BitVec 512) : Bool :=
  let v := n.toNat
  let fabric := nodeKind n == 0
  let opdBytes := 16 * nodeNopd n
  decide (bitsN v 443 441 = 0) && decide (bitsN v 49 48 = 0) && decide (bitsN v 39 32 = 0) &&
  decide (nodeProf n < j.profiles.length) && decide (nodeNopd n ≤ 8) &&
  (if fabric then
    decide (nodeGx n * nodeGy n * nodeGz n ≤ 2 ^ 32) && (List.range 4).all (fun k => decide (bitsN v (127 + 64 * k) (121 + 64 * k) = 0))
   else decide (bitsN v 383 320 = 0) && decide (bitsN v 55 52 = 0) && decide (bitsN v 51 50 = 0)) &&
  (decide (nodeNopd n = 0) ||
    (decide (nodeOpd n % 16 = 0) && s.rangeOk j.asid j.root (nodeOpd n) opdBytes .load &&
      (List.range (nodeNopd n)).all (fun k =>
        match s.vaBlock j.asid j.root (nodeOpd n + 16 * k) 16 with
        | none => false
        | some l => decide (bitsN (bytesNat l) 127 126 ≠ 0) && decide (bitsN (bytesNat l) 125 96 = 0) && decide (bitsN (bytesNat l) 63 57 = 0))))

/-- Writes a job-level fault record of the Timetable at level 2: the device aborts the job when it is written (R357, R400). -/
def State.jobFault (s : State) (job code gidx : Nat) (dyn : Bool) (d0 d1 : Nat) : State :=
  match s.job job with
  | none => s
  | some j =>
    let r := s.baseRec j.die (some job) code 2 7
    let r2 : FaultRec := { r with
      gidx := gidx
      dyn := dyn
      detail0 := BitVec.ofNat 64 d0
      detail1 := BitVec.ofNat 64 d1 }
    s.pushRec r2

/-- The job-level fault of a list that could not be read: 0x0802, or 0x0D04 where the memory is uncorrectable (R358, R400, log 52). -/
def State.readFault (s : State) (j : Job) (va n gidx : Nat) (dyn : Bool) : State :=
  match s.unreadable j.asid j.root va n with
  | some pa => s.jobFault j.key 0x0D04 gidx dyn pa 0
  | none => s.jobFault j.key 0x0802 gidx dyn 0 0

/-- Records in a die's pool. -/
def Die.poolUsed (t : Die) : Nat := (t.pool.filter (fun r => r.inPool)).length

/-- Where entry n of a job's spill list stands in its work area: 2 bytes per graph record (R151). That an entry is the graph index, and
that entries are not moved as records leave, is the model's choice (log 49). -/
def spillVa (j : Job) (n : Nat) : Nat := j.work + 64 + 64 * ((j.nrec + 63) / 64) + 2 * n

/-- A new record of a job in the pool, or at the tail of its spill list (R157, R158): behind the records that already spilled. -/
def State.addRecord (s : State) (j : Job) (n : BitVec 512) (gidx : Nat) (dyn : Bool) : State :=
  let (key, s1) := s.fresh
  let total := if nodeKind n = 0 then nodeGx n * nodeGy n * nodeGz n else 1
  let room := decide ((s1.dieAt j.die).poolUsed < 1024) && (dyn || s1.jobs.all (fun x => x.die != j.die || x.spill.isEmpty))
  let r : PoolRec := {
    key := key, die := j.die, job := j.key, gidx := gidx, dyn := dyn, node := n, since := s1.dev, inPool := room, total := total,
    nextGp := 0, live := 0, finished := 0, frames := [], running := false, engineDone := false, completed := false, order := key,
    anchors := [], scanned := false }
  let s2 := s1.updDie j.die (fun t => { t with pool := t.pool ++ [r] })
  if room then s2 else
  let j1 := (s2.job j.key).getD j
  let s3 := (s2.vaWrite j.asid j.root (spillVa j1 j1.spilled) (natBytes 2 gidx)).getD s2
  s3.updJob j.key (fun x => { x with spill := x.spill ++ [key], spilled := x.spilled + 1 })

/-- A graph record has become eligible (R157): it is checked (R400), then enters the pool or the spill list. -/
def State.eligible (s : State) (job i : Nat) : State :=
  match s.job job with
  | none => s
  | some j =>
    if j.aborted then s else
    match s.graphRecord j i with
    | none => s.readFault j (j.graph + 64 * i) 64 i false
    | some n => if s.recordOk j n then s.addRecord j n i false else s.readFault j (nodeOpd n) (16 * nodeNopd n) i false

/-- Spilled records enter the pool in list order while entries are free (R157). -/
def State.unspill (s : State) (job : Nat) : Nat → State
  | 0 => s
  | n + 1 =>
    match s.job job with
    | none => s
    | some j =>
      match j.spill with
      | [] => s
      | k :: rest =>
        if 1024 ≤ (s.dieAt j.die).poolUsed then s
        else ((s.updPool j.die k (fun r => { r with inPool := !r.completed })).updJob job (fun x => { x with spill := rest })).unspill job n

/-- Refills a die's pool from its jobs' spill lists. -/
def State.refill (s : State) (d : Nat) : State :=
  (s.jobs.filter (fun j => j.die == d && !j.spill.isEmpty)).foldl (fun (a : State) j => a.unspill j.key j.spill.length) s

/-! Packets (R150, R398). -/

/-- A reserved field of a packet is nonzero. -/
def packetReserved (v : Nat) : Bool :=
  [(511, 505), (447, 441), (383, 377), (319, 281), (255, 249), (191, 165), (79, 73)].any (fun e => decide (bitsN v e.1 e.2 ≠ 0))

/-- ORDER and SWZ agree with R34. -/
def orderOk (order swz : Nat) : Bool := decide (swz ≠ 7) && (decide (order < 2) || decide (swz = 0))

/-- The profiles of a packet. -/
def State.readProfiles (s : State) (asid root va n : Nat) : Option (List (BitVec 256)) :=
  (List.range n).foldl (fun (a : Option (List (BitVec 256))) k =>
    match a, s.vaBlock asid root (va + 32 * k) 32 with
    | some l, some b => some (l ++ [BitVec.ofNat 256 (bytesNat b)])
    | _, _ => none) (some [])

/-- A channel of profile p breaks R154: a cell outside its patch, a channel above 23, a stage or node that does not exist. -/
def State.chanBad (s : State) (j : Job) (p : Nat) (c : Chan) : Bool :=
  let pr := j.profiles.getD p 0
  let inside := fun (q : BitVec 256) (idx : Nat) => decide (idx % 16 < profW q ∧ idx / 16 < profH q)
  let users := (List.range j.nrec).filterMap (fun i => s.graphRecord j i)
  let mine := users.filter (fun n => nodeKind n == 0 && nodeProf n == p)
  decide (c.reserved ≠ 0) || !inside pr c.scell || decide (23 < c.soc) || decide (23 < c.dic) ||
  (if c.xnode then
    decide (j.nrec ≤ c.xidx) ||
    (match s.graphRecord j c.xidx with
      | none => true
      | some n => !inside (j.profile n) c.dcell || decide (nodeStages n ≤ c.dstg))
   else !inside pr c.dcell || mine.any (fun n => decide (nodeStages n ≤ c.dstg)))

/-- Bytes of the work area (R151). -/
def workBytes (nrec : Nat) : Nat := 64 + 64 * ((nrec + 63) / 64) + 64 * ((2 * nrec + 63) / 64)

/-- The job a packet would start. -/
def State.newJob (s : State) (d q key : Nat) (p : BitVec 512) : Job := {
  key := key, die := d, queue := q, packet := p, profiles := [], tstart := s.deviceNs, npre := 0, nflt := 0, aborted := false,
  lost := false, closed := false, recordsDone := 0, spill := [], spilled := 0, debug := false,
  divert := s.proctor.diverted.contains (bitsN p.toNat 95 80, bitsN p.toNat 440 384) }

/-- The checks of a packet: the job with its profiles, or the code of R398. -/
def State.checkPacket (s : State) (e : BitVec 128) (j : Job) : Except Nat Job :=
  let v := j.packet.toNat
  if bitsN v 71 64 ≠ 1 ∨ packetReserved v = true then .error 0x0E01
  else if j.asid ≠ qAsid e ∨ j.root ≠ qRoot e then .error 0x0E02
  else if orderOk j.order j.swz = false then .error 0x0E03
  else
    let np := bitsN v 275 272 + 1
    let prof := bitsN v 376 320
    if j.work % 64 ≠ 0 ∨ j.graph % 64 ≠ 0 ∨ prof % 32 ≠ 0 ∨
        s.rangeOk j.asid j.root j.work (workBytes j.nrec) .store = false ∨ s.rangeOk j.asid j.root j.graph (64 * j.nrec) .load = false then
      .error 0x0E04
    else
      match s.readProfiles j.asid j.root prof np with
      | none => .error 0x0E04
      | some ps =>
        let j1 : Job := { j with profiles := ps }
        let lists := ps.map (fun p => s.chanList j.asid j.root p)
        if !(ps.all profOk) then .error 0x0E05
        else if lists.any (fun l => l.isNone) then .error 0x0E04
        else if (lists.zipIdx).any (fun l => (l.1.getD []).any (fun c => s.chanBad j1 l.2 c)) then .error 0x0E05
        else .ok j1

/-- PACKET_REJECT (R398): a REJECTED completion record, and a class 0x0E record where FQ translates to a valid header; NFLT is 0 where it does not
translate. -/
def State.rejectPacket (s : State) (d q : Nat) (e : BitVec 128) (j : Job) (code : Nat) : State :=
  let asid := qAsid e
  let root := qRoot e
  let fqOk := match s.readHeader asid root j.fq with | .ok _ => true | .error _ => false
  let s1 := s.complete d q asid root j.work
    (completionRecord s.deviceNs s.deviceNs 0 (if (s.ttXlat asid root j.fq .load).isSome then 1 else 0) 2 j.number j.seq) j.irq
  if !fqOk then s1 else
  let r := s1.baseRec d none code 2 7
  let r2 : FaultRec := { r with
    jobNo := j.number
    fq := j.fq
    asid := asid
    root := root
    kept := false
    detail0 := BitVec.ofNat 64 j.seq }
  s1.pushRec r2

/-- Starts a job: count bytes copied from PRED, and every record with PRED = 0 eligible in ascending index (R157). -/
def State.startJob (s : State) (j : Job) : State :=
  let s1 : State := { s with jobs := s.jobs ++ [j], proctor := { s.proctor with launched := true } }
  let preds := (List.range j.nrec).map (fun i => ((s1.graphRecord j i).map nodePred).getD 0)
  let s2 := (s1.vaWrite j.asid j.root (j.work + 64) (preds.map (fun p => BitVec.ofNat 8 p))).getD s1
  ((List.range j.nrec).filter (fun i => preds.getD i 0 == 0)).foldl (fun (a : State) i => a.eligible j.key i) s2

/-- LAUNCH_PACKET_TAKE: one packet copied from its slot. -/
def State.takePacket (s : State) (d q : Nat) (e : BitVec 128) (p : BitVec 512) : State :=
  if bitsN p.toNat 71 64 = 0 then s else
  let (key, s1) := s.fresh
  let j := s1.newJob d q key p
  match s1.checkPacket e j with
  | .error code => s1.rejectPacket d q e j code
  | .ok j1 => s1.startJob j1

/-- Takes packets of a queue in sequence while the slot at RIDX holds the packet of that number (R149). -/
def State.takePackets (s : State) (d q : Nat) : Nat → State
  | 0 => s
  | n + 1 =>
    let e := s.queueEntry d q
    if !qEn e then s else
    match s.queueHeader e with
    | .error va => s.stopQueue d q va
    | .ok (h, pa) =>
      if s.memRead pa 8 ≠ h.ridx then s else
      let p := BitVec.ofNat 512 (s.memRead pa 64)
      ((s.putHeader h 8 (h.ridx + 1)).takePacket d q e p).takePackets d q n

/-- The Timetable serves a queue: at most as many packets as a queue has slots. While it stalls, the doorbell waits (R350). -/
def State.serveQueue (s : State) (d q : Nat) : State :=
  if s.ttStalls d then s.updDie d (fun t => { t with doorbell := if t.doorbell.contains q then t.doorbell else t.doorbell ++ [q] })
  else s.takePackets d q 32768

/-- DOORBELL_WRITE (R149, R326): an 8-byte write at offset 0 of the doorbell page of the package queue named by the input. -/
def execDoorbellWrite (s : State) : Host.Outcome State Fault Refusal :=
  let n := s.input.queue % 256
  if s.input.offset ≠ 0 ∨ s.input.size ≠ 8 ∨ s.dieExists (n / 64) = false then .next s
  else if s.frozen then .next (s.defer .doorbellWrite)
  else .next (s.serveQueue (n / 64) (n % 64))

/-- A queue-table entry is written (R146): reserved bits read 0; a header is checked when EN is set (R399), and its queue is then served
without a doorbell, which the spec does not say (log 122). -/
def State.writeQueueEntry (s : State) (d q : Nat) (e : BitVec 128) : State :=
  let old := s.queueEntry d q
  let new := e &&& BitVec.ofNat 128 (2 ^ 121 - 1 - (2 ^ 45 - 2 ^ 37))
  let s1 := s.setQueueEntry d q new
  if qEn new && !qEn old then
    match s1.queueHeader new with
    | .error va => s1.stopQueue d q va
    | .ok _ => s1.serveQueue d q
  else s1

/-- Bytes `k` to `k + n - 1` of a register's value replaced. -/
def mergeField (old k n v : Nat) : Nat :=
  old % 2 ^ (8 * k) + v % 2 ^ (8 * n) * 2 ^ (8 * k) + old / 2 ^ (8 * (k + n)) * 2 ^ (8 * (k + n))

/-- A naturally aligned access of 8 bytes or fewer (R327). -/
def Input.wholeAccess (x : Input) : Bool := (x.size == 1 || x.size == 2 || x.size == 4 || x.size == 8) && x.offset % x.size == 0

/-- QUEUE_TABLE_WRITE (R146): the bytes written to the table. -/
def execQueueTableWrite (s : State) : Host.Outcome State Fault Refusal :=
  let x := s.input
  let q := x.offset / 16
  if s.dieExists x.die = false ∨ 1024 ≤ x.offset ∨ x.wholeAccess = false then .next s
  else if s.frozen then .next (s.defer .queueTableWrite)
  else .next (s.writeQueueEntry x.die q (BitVec.ofNat 128 (mergeField (s.queueEntry x.die q).toNat (x.offset % 16) x.size x.value.toNat)))

/-! Nodes and jobs complete. -/

/-- Reads the successor list of a record; none where it fails (R400). -/
def State.successors (s : State) (j : Job) (n : BitVec 512) : Option (List Nat) :=
  if nodeNsucc n = 0 then some [] else
  if nodeSucc n % 2 ≠ 0 then none else
  match s.vaBytes j.asid j.root (nodeSucc n) (2 * nodeNsucc n) with
  | none => none
  | some l =>
    let ids := (List.range (nodeNsucc n)).map (fun k => listNat l (2 * k) 2)
    if ids.all (fun i => decide (i < j.nrec)) then some ids else none

/-- Decrements a successor's count byte; at 0 the record becomes eligible (R157). -/
def State.release (s : State) (j : Job) (i : Nat) : State :=
  match s.ttXlat j.asid j.root (j.work + 64 + i) .store with
  | none => s
  | some pa =>
    let b := s.memByte pa - 1
    let s1 := s.memSetByte pa b
    if b = 0 then s1.eligible j.key i else s1

/-- A memory operation that an instance of the record issued is still to be performed: the instance has not retired before it is (R40,
R230). -/
def State.recordBusy (s : State) (r : PoolRec) : Bool := s.reqs.any (fun q => (s.inst q.inst).any (fun i => i.node == r.key))

/-- The record's work is done (R32). -/
def PoolRec.done (r : PoolRec) : Bool :=
  !r.completed && (if nodeKind r.node = 0 then decide (r.nextGp = r.total) && decide (r.live = 0) && r.frames.isEmpty else r.engineDone)

/-- NODE_COMPLETE (R32): the record completes, and its successors' counts fall. A Pilot's report comes with the input's flag. -/
def execNodeComplete (node : Nat) (s : State) : Host.Outcome State Fault Refusal :=
  match (List.range 4).findSome? (fun d => s.poolRec d node) with
  | none => .next s
  | some r =>
    match s.job r.job with
    | none => .next s
    | some j =>
      let reported := decide (nodeKind r.node = 3) && r.running && !r.completed && s.input.flag
      if !(r.done || reported) || s.recordBusy r || s.frozen || s.ttStalls r.die then .next s else
      let s1 := ((s.updPool r.die node (fun x => { x with completed := true, inPool := false })).noteVacated (queueOfPool r.die)).updJob j.key (fun x =>
        { x with recordsDone := x.recordsDone + (if r.dyn then 0 else 1) })
      if j.aborted then .next (s1.refill r.die) else
      match s1.successors j r.node with
      | none => .next (s1.readFault j (nodeSucc r.node) (2 * nodeNsucc r.node) r.gidx r.dyn)
      | some ids => .next ((ids.foldl (fun (a : State) i => a.release j i) s1).refill r.die)

/-- A command of the job is still to end: not one abandoned by an abort (R144, R354). -/
def State.jobBusy (s : State) (key : Nat) : Bool :=
  s.insts.any (fun i => i.job == key && !i.retired) || s.cmds.any (fun c => c.job == key) ||
  s.sectors.any (fun e => e.2.gve.any (fun g => g.job == key)) ||
  [0, 1, 2, 3].any (fun d => (s.dieAt d).frames.any (fun f => f.job == key) || (s.dieAt d).records.any (fun r => r.job == some key) ||
    (s.dieAt d).holds.any (fun h => h.kind == .grant && (h.inst.bind s.inst).any (fun i => i.job == key))) ||
  s.reqs.any (fun r => (s.inst r.inst).any (fun i => i.job == key))

/-- Every record of the job has completed (R159). -/
def State.recordsOver (s : State) (j : Job) : Bool :=
  decide (j.recordsDone = j.nrec) && (s.dieAt j.die).pool.all (fun r => decide (r.job ≠ j.key) || r.completed)

/-- With no job left, nothing is read by one who may not see the last write of a byte (R144). -/
def State.dropPast (s : State) : State :=
  if s.jobs.isEmpty then { s with hist := [], fences := [], seen := [] } else s

/-- JOB_COMPLETE (R144, R152, R159): the completion record, CIDX and the interrupt. -/
def execJobComplete (job : Nat) (s : State) : Host.Outcome State Fault Refusal :=
  match s.job job with
  | none => .next s
  | some j =>
    if s.jobBusy job || s.frozen || !(j.aborted || s.recordsOver j) then .next s else
    let rec_ := completionRecord s.deviceNs j.tstart j.npre j.nflt (if j.aborted then 1 else 0) j.number j.seq
    let s1 := s.complete j.die j.queue j.asid j.root j.work rec_ j.irq
    let s2 := ({ s1 with jobs := s1.jobs.filter (fun x => x.key != job) }).dropPast
    .next ((s2.updDie j.die (fun t => { t with pool := t.pool.filter (fun r => r.job != job) })).refill j.die)

/-! Launch from the device (R158, R164). -/

/-- What a claim of a slot of a queue answers. -/
inductive Claim
  | accepted (seq : Nat) (s : State)
  | full (s : State)
  | denied (s : State)

/-- Claims a free slot of a package queue, writes the packet, and rings the queue (R164, R148). -/
def State.claimQueue (s : State) (n : Nat) (p : BitVec 512) : Claim :=
  let d := n / 64 % 4
  let q := n % 64
  let e := s.queueEntry d q
  if s.dieExists d = false ∨ qEn e = false then .denied s else
  match s.readHeader (qAsid e) (qRoot e) (qHdr e) with
  | .error va => .denied (s.stopQueue d q va)
  | .ok h =>
    if 2 ^ h.logn ≤ h.widx - h.ridx then .full s else
    match s.ttXlat (qAsid e) (qRoot e) (h.slot h.widx) .store with
    | none => .denied (s.stopQueue d q (h.slot h.widx))
    | some pa =>
      let s1 := s.putHeader h 0 (h.widx + 1)
      let s2 := (s1.memWrite pa (p.toNat / 2 ^ 64 * 2 ^ 64 + h.widx) 64).healRange pa 64
      .accepted h.widx (s2.serveQueue d q)

/-- The reply as (status, sequence number). -/
def Claim.reply : Claim → Nat × Nat
  | .accepted n _ => (0, n)
  | .full _ => (1, 0)
  | .denied _ => (2, 0)
def Claim.state : Claim → State
  | .accepted _ s => s
  | .full s => s
  | .denied s => s

/-- The payload of a `tlnch` token (R308). -/
def tlnchPayload (r : Nat × Nat) : Nat := r.1 * 2 ^ 30 + r.2 % 2 ^ 30

/-- The access-control table of die 0 permits a source package a queue (R164). -/
def State.peerAllowed (s : State) (src q : Nat) : Bool :=
  let e := (Map.get 0 (s.dieAt 0).accessTable src).toNat
  decide (bitsN e 16 16 = 1) && decide (bitsN e 7 0 ≤ q) && decide (q ≤ bitsN e 15 8)

/-- Replies to a Pilot that waits (R313). -/
def State.pilotReply (s : State) (d v : Nat) : State :=
  s.updDie d (fun t => { t with pilot := { t.pilot with reply := some (BitVec.ofNat 64 v) } })

/-- Answers a launch request: the cell's token, or the Pilot's rd. -/
def State.answerLaunch (s : State) (r : Req) (v : Nat × Nat) : State :=
  match r.pilot with
  | some d => (s.delReq r.id).pilotReply d (v.2 * 4 + v.1)
  | none => s.answer r.id (tlnchPayload v)

/-- PEER_LAUNCH_REQUEST (R164): the request named by the input's index reaches the Timetable of its queue; a target in another
package answers through the input's value (status and sequence number), over a route that is up, else DENIED (R406). With the
input's flag the request comes from package `index`, with its queue and packet, and the reply goes out with the responses:
the status in bits 1:0, the sequence number above. -/
def execPeerLaunchRequest (s : State) : Host.Outcome State Fault Refusal :=
  let x := s.input
  if s.frozen then .next s
  else if x.flag then
    if !s.peerAllowed x.index x.queue then .next { s with responses := s.responses ++ [BitVec.ofNat 64 2] }
    else
      let c := s.claimQueue (x.queue % 256) x.value
      let s1 := c.state
      .next { s1 with responses := s1.responses ++ [BitVec.ofNat 64 (c.reply.2 * 4 + c.reply.1)] }
  else
    match s.req x.index with
    | none => .next s
    | some r =>
      match r.body with
      | .tlnch target packet =>
        if r.stage ≠ .issued then .next s else
        if target / 256 % 64 = s.package then
          let c := s.claimQueue (target % 256) packet
          .next (c.state.answerLaunch r c.reply)
        else
          match s.routeTo (target / 256 % 64) with
          | .fault _ _ => .next (s.answerLaunch r (2, 0))
          | .wait => .next s
          | .open_ =>
            let st := x.value.toNat % 4
            .next ((s.sendWord (target / 256 % 64) vcMessage).answerLaunch r (if st = 3 then 2 else st, if st = 0 then x.value.toNat / 4 % 2 ^ 64 else 0))
      | _ => .next s

/-- A record passed by R158 is valid: PRED 0 and the checks of R400. -/
def State.dynOk (s : State) (j : Job) (n : BitVec 512) : Bool := decide (nodePred n = 0) && s.recordOk j n

end Sys2Proof.Machine
end

