-- ==== Sys2Proof/Machine/MessageOps.lean ====
section
/-! DEFINITION. Sys2Proof/Machine/MessageOps.lean: the launch, message and routing operators 0xCE to 0xD3 (R307 to R310), with
SEND_DELIVERY, GRANT_REQUEST and TIMETABLE_RECORD_ARRIVAL, between packages over their routes (R331, R406). -/
namespace Sys2Proof.Machine
open Sys2Proof

/-- The place of a sender in the layout of target bits 31:11. -/
def State.senderBits (s : State) (r : Req) : Nat :=
  match r.pilot with
  | some d => (s.package * 2 ^ 26 + d * 2 ^ 24) / 2 ^ 11
  | none => (s.package * 2 ^ 26 + dieOfCell r.cell * 2 ^ 24 + cellY r.cell % 128 * 2 ^ 17 + cellX r.cell % 64 * 2 ^ 11) / 2 ^ 11

/-- An event-queue entry (R313). -/
def eventEntry (src : Nat) (k : Kind) (p : Word) : BitVec 64 :=
  BitVec.ofNat 64 (2 ^ 63 + src % 2 ^ 21 * 2 ^ 34 + kindCode k * 2 ^ 32 + p.toNat)

/-! Routing-record queues (R308, R313). -/

/-- Gives the records of a sector's queue to the waiting `rrpop` requests, in arrival order. -/
def State.serveRouting (s : State) (k : Nat) : Nat → State
  | 0 => s
  | n + 1 =>
    let waits := fun (r : Req) => r.stage == .waiting && r.body == .rrpop && sectorOfCell r.cell == k
    match (s.sector k).rrq, s.reqs.find? waits with
    | item :: rest, some r =>
      let s1 := s.updSector k (fun t => { t with rrq := rest })
      let s2 := match item with
        | .record v => s1.updReq r.id (fun q => { q.answered v.toNat s1.now with kind := .data })
        | .endMarker => s1.updReq r.id (fun q => { q.answered 0 s1.now with kind := .done })
      s2.serveRouting k n
    | _, _ => s

/-! Operators. -/

/-- The 64 bytes at the cursor as a number of 512 bits. -/
def State.cursorRecord (s : State) (F : Firing) : BitVec 512 := BitVec.ofNat 512 (bytesNat (s.cursorBytes F 8))

/-- `tenq` (R308). -/
def execTenq (site : Site) (f : OpFields) (s : State) : Host.Outcome State Fault Refusal :=
  s.fire 0xCE site f (fun s1 F => s1.cursorFault F 8) (fun s1 F => s1.unlessSuppressed F (fun s2 =>
    s2.enqueue F (.tenq (s1.cursorRecord F)) .issued Place.nowhere F.kind 0))
/-- `tlnch` (R308). -/
def execTlnch (site : Site) (f : OpFields) (s : State) : Host.Outcome State Fault Refusal :=
  s.fire 0xCF site f (fun s1 F => s1.cursorFault F 8) (fun s1 F => s1.unlessSuppressed F (fun s2 =>
    s2.enqueue F (.tlnch (F.a.toNat % 2 ^ 14) (s1.cursorRecord F)) .issued Place.nowhere F.kind 0))
/-- `send` (R308): carries A's kind, POISON and DONE included (R374); nothing is sent where the target itself is POISON. -/
def execSend (site : Site) (f : OpFields) (s : State) : Host.Outcome State Fault Refusal :=
  s.fire 0xD0 site f noFault (fun s1 F =>
    let other := [F.tb, F.tc].any (fun t => t.any (fun x => x.kind == .poison))
    let k := match F.ta with | some t => t.kind | none => .data
    let p := match F.ta with | some t => t.payload | none => F.a
    if other then s1.suppress F
    else (s1.begin F).enqueue F (.send p k F.b) .issued Place.nowhere F.kind (if F.kind = .poison then BitVec.ofNat 64 F.pay.toNat else 0))
/-- `rgreq` (R308, R310). -/
def execRgreq (site : Site) (f : OpFields) (s : State) : Host.Outcome State Fault Refusal :=
  s.fire 0xD1 site f noFault (fun s1 F => s1.unlessSuppressed F (fun s2 =>
    s2.enqueue F (.rgreq (BitVec.ofNat 64 (F.b.toNat * 2 ^ 32 + F.a.toNat))) .issued Place.nowhere F.kind 0))
/-- `lqpush` (R308). -/
def execLqpush (site : Site) (f : OpFields) (s : State) : Host.Outcome State Fault Refusal :=
  s.fire 0xD2 site f noFault (fun s1 F => s1.unlessSuppressed F (fun s2 =>
    let v := BitVec.ofNat 64 (F.b.toNat * 2 ^ 32 + F.a.toNat)
    let s3 := s2.updDie (dieOfCell F.cell) (fun t => { t with pilot := { t.pilot with logit := t.pilot.logit ++ [v] } })
    s3.enqueue F .prefetch .answered Place.nowhere F.kind 0))
/-- `rrpop` (R308). -/
def execRrpop (site : Site) (f : OpFields) (s : State) : Host.Outcome State Fault Refusal :=
  s.fire 0xD3 site f noFault (fun s1 F => s1.unlessSuppressed F (fun s2 =>
    (s2.enqueue F .rrpop .waiting Place.nowhere F.kind 0).serveRouting (sectorOfCell F.cell) 64))

/-! Events. -/

/-- An earlier request of the same sender, still on its way, that a test matches: requests of one sender keep their order (R47). -/
def State.earlier (s : State) (r : Req) (p : ReqBody → Bool) : Bool :=
  s.reqs.any (fun q => q.cell == r.cell && decide (q.order < r.order) && q.stage == .issued && p q.body)

/-- What issued the request may send: its sector's clock runs (R333), or it is a Pilot of a package that is not frozen. -/
def State.senderRuns (s : State) (r : Req) : Bool :=
  match r.pilot with
  | some _ => !s.frozen
  | none => s.sectorRuns (sectorOfCell r.cell)

/-- A `send` or `xg.evsig` has reached its end: the cell's token goes, the Pilot's request ends. -/
def State.sendDone (s : State) (r : Req) : State :=
  match r.pilot with
  | some _ => s.delReq r.id
  | none => s.updReq r.id (fun q => q.answered q.result.toNat s.now)

/-- A `send` cannot be delivered: the firing faults; an `xg.evsig` is discarded and counted (R406). -/
def State.sendFail (s : State) (r : Req) (code d0 : Nat) : State :=
  match r.pilot with
  | some _ =>
    let s1 := s.delReq r.id
    { s1 with proctor := { s1.proctor with evsigDropped := s1.proctor.evsigDropped + 1 } }
  | none => s.faultReq r code 0 0 d0 0

/-- SEND_DELIVERY (R308, R313): a payload enters the target's port H, or the Pilot's event queue of 256 entries. A target in another
package answers through the input's value: 0 delivered, or a code. -/
def execSendDelivery (request : Nat) (s : State) : Host.Outcome State Fault Refusal :=
  match s.req request with
  | none => .next s
  | some r =>
    match r.body with
    | .send p k t =>
      let sameTo := fun (b : ReqBody) => match b with | .send _ _ u => u.toNat / 2 ^ 10 == t.toNat / 2 ^ 10 | _ => false
      if r.stage ≠ .issued ∨ s.senderRuns r = false ∨ s.earlier r sameTo = true then .next s
      else if tgtPkg t ≠ s.package then
        match s.routeTo (tgtPkg t) with
        | .wait => .next s
        | .fault code d0 => .next (s.sendFail r code d0)
        | .open_ =>
          let s1 := s.sendWord (tgtPkg t) vcMessage
          if s.input.value = 0 then .next (s1.sendDone r) else .next (s1.sendFail r (s.input.value.toNat % 65536) (tgtPkg t))
      else if s.dieExists (tgtDie t) = false then .next (s.sendFail r 0x0906 (tgtPkg t))
      else if s.meshReached r = false then .next s
      else if tgtPil t then
        let q := (s.dieAt (tgtDie t)).pilot.event
        if 256 ≤ q.length then .next s
        else
          let e := eventEntry (s.senderBits r) k p
          .next ((s.updDie (tgtDie t) (fun d => { d with pilot := { d.pilot with event := d.pilot.event ++ [e] } })).sendDone r)
      else
        let c := tgtCell t
        if (s.sector (sectorOfCell c)).shut = true ∨ 24 ≤ tgtVc t then .next (s.sendFail r 0x0906 (tgtPkg t))
        else if (s.instAt c).all (fun i => r.pilot.isNone && i.asid != r.asid) then .next (s.sendFail r 0x0906 (tgtPkg t))
        else
          match s.deliverH c (tgtVc t) k p r.deps with
          | none => .next s
          | some s1 => .next (s1.sendDone r)
    | _ => .next s

/-- Writes a weight record at the sector's port (R334): a new one, or one raised by a duplicate (R310); otherwise the code and detail of its fault (R409,
R358). -/
def State.weightWrite (s : State) (k wbase : Nat) (w : GrantWrite) : Except (Nat × Nat) State :=
  let va := (wbase + 8 * w.slot) % 2 ^ 57
  match s.translate k w.asid w.root va .store with
  | (.ok pa, s1) =>
    if s1.paPresent pa = false then .error (0x0B03, va) else
    let x := fval fmtBf16 w.wt
    if w.dup then
      if s1.memBad pa then .error (0x0D04, pa / 32 * 32) else
      let old := s1.memRead pa 8
      let sum := (Ex.add .rne (fval fmtF32 (old % 2 ^ 32)) x).1
      let v := (roundTo fmtF32 .rne false sum).1
      .ok (((s1.memWrite pa (v + old / 2 ^ 32 % 65536 * 2 ^ 32 + (old / 2 ^ 48 + 1) % 65536 * 2 ^ 48) 8).portMove k pa 8).portMove k pa 8)
    else .ok ((s1.memWrite pa ((roundTo fmtF32 .rne false x).1 + w.token % 65536 * 2 ^ 32 + 2 ^ 48) 8).portMove k pa 8)
  | (.bad c _, _) => .error (if c = 0x0D04 then (0x0D04, s.walkBad (dieOfSector k) w.asid w.root va) else (0x0B03, va))
  | _ => .error (0x0B03, va)

/-- The lowest entry of a sector's grant table with an EXPERT. -/
def Sector.grantOf (t : Sector) (expert : Nat) : Option (Nat × Grant) :=
  ((List.range 16).map (fun n => (n, Map.get Grant.reset t.grants n))).find? (fun e => e.2.expert == expert)

/-- What an entry decides (R310): the response, the entry after, and the weight write. -/
def Grant.decide (g : Grant) (v : BitVec 64) (asid root : Nat) : Nat × Grant × Option GrantWrite :=
  let w := fun (slot : Nat) (dup : Bool) => some (GrantWrite.mk slot (rrToken v) (rrWt v) dup asid root 0)
  if g.opened = false ∨ rrRound v ≠ g.round then (3 * 2 ^ 30, g, none)
  else
    match g.granted.find? (fun e => e.1 == rrToken v) with
    | some e => (2 * 2 ^ 30 + e.2, g, w e.2 true)
    | none =>
      if g.used < g.cap then
        (g.used, { g with used := g.used + 1, granted := g.granted ++ [(rrToken v, g.used)] }, w g.used false)
      else (2 ^ 30, if rrPol v then { g with defc := (g.defc + 1) % 2 ^ 24 } else g, none)

/-- What a hub makes of a grant request: its response, the code of a fault, or a wait. -/
inductive GrantEnd
  | reply (v : Nat) (s : State)
  | fault (code : Nat)
  | wait (s : State)

/-- A grant entry is held by a failed write of its weight record: it decides nothing more until RESUME writes it (R409). -/
def State.holdGrant (s : State) (k n : Nat) (g : Grant) (w : GrantWrite) (e : Nat × Nat) (inst job : Option Nat) : State :=
  let r := s.baseRec (dieOfSector k) job e.1 0 6
  let h := s.takeCmdFault (dieOfSector k) inst (16 * k + n) .grant { r with sect := k % 16, detail0 := BitVec.ofNat 64 e.2 }
  h.1.setGrant k n { g with stuck := some { w with hid := h.2 } }

/-- The hub of a sector decides a grant request (R310, R409): one in a cycle, and with a weight write once its arbiters admit that (R334). -/
def State.decideGrant (s : State) (k : Nat) (v : BitVec 64) (asid root id : Nat) (inst job : Option Nat) : GrantEnd :=
  let t := s.sector k
  if s.dieExists (dieOfSector k) = false then .fault 0x0B01
  else if t.shut then .fault 0x0B02
  else if s.sectorRuns k = false ∨ t.lastGrant = s.cycle k + 1 then .wait s
  else
    match t.grantOf (rrExpert v) with
    | none => .fault 0x0B01
    | some (n, g) =>
      if g.stuck.isSome then .wait s else
      let e := g.decide v asid root
      let s1 := (s.setGrant k n e.2.1).updSector k (fun x => { x with lastGrant := s.cycle k + 1 })
      match e.2.2 with
      | none => .reply e.1 s1
      | some w =>
        match s1.weightWrite k g.wbase w with
        | .ok s2 =>
          let m := if inst.isSome then ((s.meter s2 k id 0).1, (s.meter s2 k id 0).2.1) else s.meterGuest s2 k id
          if m.1 then .reply e.1 m.2 else .wait m.2
        | .error x => .reply e.1 (s1.holdGrant k n e.2.1 w x inst job)

/-- Another grant request came to the hub first, and waits for no held entry (R409). -/
def State.grantAhead (s : State) (r : Req) (k : Nat) : Bool :=
  s.reqs.any (fun q => q.stage == .issued && decide (q.arrived < r.arrived) && s.meshReached q && (match q.body with
    | .rgreq u => rrPkg u == s.package && rrSector u == k && !((s.sector k).grantOf (rrExpert u)).any (fun e => e.2.stuck.isSome)
    | _ => false))

/-- GRANT_REQUEST (R310, R409): the hub named by the record decides, in the order in which requests come to it. A hub of another package answers with
`answer`, or faults with the code in the input's value. A request from another package, which no entry here holds, comes with the input's flag: the
record in its value, its address space and root in index and offset, the hub in sector, and the package in port; the answer goes back over its route. -/
def execGrantRequest (request : Nat) (answer : BitVec 32) (s : State) : Host.Outcome State Fault Refusal :=
  match s.req request with
  | none =>
    if !s.input.flag || s.frozen then .next s else
    match s.routeTo (s.input.port % 64) with
    | .open_ =>
      match s.decideGrant (s.input.sector % 64) (s.input.value.setWidth 64) s.input.index s.input.offset request none none with
      | .reply _ s1 => .next (s1.sendWord (s.input.port % 64) vcMessage)
      | .fault _ => .next (s.sendWord (s.input.port % 64) vcMessage)
      | .wait s1 => .next s1
    | _ => .next s
  | some r =>
    match r.body with
    | .rgreq v =>
      let sameHub := fun (b : ReqBody) => match b with | .rgreq u => rrSector u == rrSector v && rrPkg u == rrPkg v | _ => false
      if r.stage ≠ .issued ∨ s.senderRuns r = false ∨ s.earlier r sameHub = true then .next s
      else if rrPkg v ≠ s.package then
        match s.routeTo (rrPkg v) with
        | .wait => .next s
        | .fault code d0 => .next (s.faultReq r code 0 0 d0 0)
        | .open_ =>
          let s1 := s.sendWord (rrPkg v) vcMessage
          if s.input.value = 0 then .next (s1.answer request answer.toNat) else .next (s1.faultReq r (s.input.value.toNat % 65536) 0 0 0 0)
      else if s.meshReached r = false ∨ s.grantAhead r (rrSector v) = true then .next s
      else
        let job := (s.inst r.inst).map Inst.job
        match s.decideGrant (rrSector v) v r.asid (s.rootOf (job.getD 0)) r.id (some r.inst) job with
        | .reply a s1 => .next (s1.answer request a)
        | .fault code => .next (s.faultReq r code 0 0 0 0)
        | .wait s1 => .next s1
    | _ => .next s

/-- The PILOT node a die's Pilot runs, whose job its records belong to (R158). -/
def Die.pilotJob (t : Die) : Option Nat :=
  (t.pool.find? (fun r => decide (nodeKind r.node = 3) && r.running && !r.completed)).map PoolRec.job

/-- The job a passed record belongs to. -/
def State.issuerJob (s : State) (r : Req) : Option Nat :=
  match r.pilot with
  | some d => (s.dieAt d).pilotJob
  | none => (s.inst r.inst).map Inst.job

/-- TIMETABLE_RECORD_ARRIVAL (R158): the records of one cell arrive in the order they were sent (R47); a valid record enters the pool; one that breaks R158 faults its firing, or answers 1 to the
Pilot (R400). -/
def execTimetableRecordArrival (request : Nat) (s : State) : Host.Outcome State Fault Refusal :=
  match s.req request with
  | none => .next s
  | some r =>
    match r.body with
    | .tenq n =>
      let tenq := fun (b : ReqBody) => match b with | .tenq _ => true | _ => false
      if r.stage ≠ .issued ∨ s.senderRuns r = false ∨ s.earlier r tenq = true then .next s else
      let fail := match r.pilot with
        | some d => (s.delReq request).pilotReply d 1
        | none => s.faultReq r 0x0806 0 0 0 0
      match (s.issuerJob r).bind s.job with
      | none => .next fail
      | some j =>
        if s.dynOk j n = false then .next fail
        else if 1024 ≤ (s.dieAt j.die).poolUsed ∨ s.ttStalls j.die = true then .next s
        else
          let s1 := if j.aborted then s else s.addRecord j n 0 true
          match r.pilot with
          | some d => .next ((s1.delReq request).pilotReply d 0)
          | none => .next (s1.answer request 0)
    | _ => .next s

end Sys2Proof.Machine
end

