-- ==== Sys2Proof/Machine/RouterOps.lean ====
section
/-! DEFINITION. Sys2Proof/Machine/RouterOps.lean: the ten router operators (R245 to R257) and the reduction time-out's state
(R408). One `exec` is one step of one route entry. -/
namespace Sys2Proof.Machine
open Sys2Proof

/-! Ports. -/

/-- A (port, VC) pair as numbers. -/
def pvOf (p : PortVc) : Nat × Nat := (p.port.val, p.vc.val)

/-- Tokens waiting beyond an output at the start of the sender's cycle: at the neighbour's input and on the link, in the PE's channel, or
at the hub (R45, R51, R246). -/
def State.outUsed (s : State) (cell : Nat) (o : Nat × Nat) : Nat :=
  let z := sectorOfCell cell
  if o.1 < 4 then
    match s.neighbour cell o.1 with
    | some n =>
      let q := oppositePort o.1
      ((s.cell n).inFifo q o.2).length + s.freedIn n (pvKey q o.2) z + ((s.cell cell).linkQ o.1 o.2).length
    | none => 4
  else if o.1 = 4 then ((s.cell cell).chan o.2).length + (s.cell cell).arriving o.2 + s.freedIn cell (chanKey o.2) z
  else ((s.cell cell).linkQ 5 o.2).length

/-- A free credit (R45). -/
def State.hasCredit (s : State) (cell : Nat) (o : Nat × Nat) : Bool := decide (s.outUsed cell o < 4)

/-- The time of a hop out of a port: 1 cycle, 2 more of the receiving sector between sectors at different ratios on a die, 3 more
across a seam (R17), which are the receiving sector's too (log 113). -/
def State.hopUnits (s : State) (cell port : Nat) : Nat :=
  let u := cycleUnits (s.sector (sectorOfCell cell)).ratio
  match s.neighbour cell port with
  | none => u
  | some n =>
    let v := cycleUnits (s.sector (sectorOfCell n)).ratio
    if dieOfCell n ≠ dieOfCell cell then u + 3 * v else if u ≠ v then u + 2 * v else u

/-- Sends a token out of an output, `delay` cycles after the others of its step; `lane` is that of a DONE of `part`. The PE sees a token
from the cycle after on (R51, R185). -/
def State.routeOut (s : State) (cell : Nat) (o : Nat × Nat) (t : Token) (delay : Nat) (lane : Option (Nat × Nat) := none) : State :=
  if o.1 = 4 then
    s.updCell cell (fun c => { c with flight := c.flight ++
      [⟨s.cycle (sectorOfCell cell) + 1 + delay, 0, .chan o.2, 0, some t, none, flagNone, [], 0⟩] })
  else
    let at_ := s.now + s.hopUnits cell o.1 + delay * cycleUnits (s.sector (sectorOfCell cell)).ratio
    s.updCell cell (fun c => c.setLinkQ o.1 o.2 (c.linkQ o.1 o.2 ++ [⟨at_, t, lane⟩]))

/-- The head of an input, and its removal. -/
def State.inHead (s : State) (cell : Nat) (i : Nat × Nat) : Option Token := ((s.cell cell).inFifo i.1 i.2).head?
def State.inPop (s : State) (cell : Nat) (i : Nat × Nat) : State :=
  s.updCell cell (fun c => (c.setInFifo i.1 i.2 (c.inFifo i.1 i.2).tail).noteFreed (pvKey i.1 i.2) s.now)

/-! The step. -/

/-- What one step does: the inputs it consumes, the tokens it sends with their delay, the entry's new state, the cycles it occupies the
entry, the payload of a POISON discarded, and whether the tokens leave in the order listed (the DONE of `part`). -/
structure RouteOut where
  take : List (Nat × Nat)
  send : List ((Nat × Nat) × Token × Nat)
  st : RouteState
  busy : Nat
  absorbed : Option Word
  ordered : Bool

/-- The outcome of looking at the heads: wait, step, or a stream-shape fault with the inputs A and P (R245, R247, R372). -/
inductive RouteStep
  | wait
  | step (o : RouteOut)
  | shape (a p : Nat × Nat)

/-- A step that consumes, sends at once and leaves the state as it is. -/
def RouteOut.plain (st : RouteState) (take : List (Nat × Nat)) (send : List ((Nat × Nat) × Token)) : RouteStep :=
  .step ⟨take, send.map (fun e => (e.1, e.2, 0)), st, 1, none, false⟩

/-- The entry may step: resident running instance, one step a cycle (R245, R344). -/
def State.entryMayStep (s : State) (i : Inst) (cell e : Nat) : Bool :=
  s.sectorRuns (sectorOfCell cell) && !s.held i && !i.debugHeld && !i.retired && !i.parked && !s.recWaits cell e 1 &&
  decide (((s.cell cell).route e).nextStep ≤ s.cycle (sectorOfCell cell))

/-- Holds the instance for a fault of an entry: level 1, source 1, the entry in OPW (R372, R370). -/
def State.routeFault (s : State) (i : Inst) (cell e code d0 d1 : Nat) : State :=
  let r := (s.baseRec i.die (some i.job) code 1 1).atCell cell e
  let r2 : FaultRec := { r with
    opw := BitVec.ofNat 64 ((s.cell cell).active.routeWord e).toNat
    detail0 := BitVec.ofNat 64 d0
    detail1 := BitVec.ofNat 64 d1 }
  (s.takeFault i .route r2 [(cell, e)]).updCell cell (fun c => c.setRoute e { c.route e with nextStep := s.cycle (sectorOfCell cell) + 1 })

/-- Runs a step function of an entry: version check of the heads it reads (R370), credits for all it sends, then the step. -/
def State.routeStep (s : State) (site : RouteSite) (reads : List (Nat × Nat)) (g : RouteState → RouteStep) :
    Host.Outcome State Fault Refusal :=
  let cell := site.cell.val
  let e := site.entry.val
  match s.instAt cell with
  | none => .next s
  | some i =>
    if !s.entryMayStep i cell e then .next s else
    match (reads.filterMap (s.inHead cell)).find? (fun t => t.ver != (s.cell cell).active.ver) with
    | some t => .next (s.routeFault i cell e 0x0131 t.bits 0)
    | none =>
      match g ((s.cell cell).route e) with
      | .wait => .next s
      | .shape a p =>
        let hd := fun (x : Nat × Nat) => ((s.inHead cell x).map Token.bits).getD 0
        .next (s.routeFault i cell e 0x0202 (hd a) (hd p))
      | .step o =>
        if o.send.all (fun x => s.hasCredit cell x.1) then
          let s1 := o.take.foldl (fun (a : State) x => a.inPop cell x) s
          let step := s.cycle (sectorOfCell cell) * 32 + e
          let s2 := (o.send.zipIdx).foldl (fun (a : State) x =>
            a.routeOut cell x.1.1 x.1.2.1 x.1.2.2 (if o.ordered then some (step, x.2) else none)) s1
          let s3 := s2.updCell cell (fun c =>
            c.setRoute e { o.st with nextStep := s.cycle (sectorOfCell cell) + o.busy, waitSince := s.dev })
          let s4 := s3.updInst i.id (fun x => { x with lastActive := s.dev })
          .next (match o.absorbed with | some p => s4.absorb cell e 1 p | none => s4)
        else .next s

/-- A predicate is true (R247). -/
def predTrue (t : Token) : Bool := decide (t.payload ≠ 0)
/-- A token is DATA or LAST. -/
def Token.isValue (t : Token) : Bool := t.kind == .data || t.kind == .last

/-- The kind of two joined tokens (R44, R248): none for a stream-shape fault. -/
def joinKind (a p : Token) : Option (Kind × Word) :=
  if a.kind = .poison then some (.poison, a.payload)
  else if p.kind = .poison then some (.poison, p.payload)
  else if a.kind = .done ∧ p.kind = .done then some (.done, a.payload)
  else if a.kind = .done ∨ p.kind = .done then none
  else if a.kind = .last ∨ p.kind = .last then some (.last, a.payload)
  else some (.data, a.payload)

/-- The dependences of two tokens on one. -/
def Token.withDeps (t : Token) (l : List Nat) : Token := { t with deps := mergeDeps t.deps l }

/-- `route` (R248). -/
def execRoute (site : RouteSite) (f : RouteFields) (s : State) : Host.Outcome State Fault Refusal :=
  s.routeStep site [(pvOf f.a)] (fun st =>
    match s.inHead site.cell.val (pvOf f.a) with
    | none => .wait
    | some t => RouteOut.plain st [(pvOf f.a)] [((pvOf f.x), t)])

/-- `fork` (R248). -/
def execFork (site : RouteSite) (f : RouteFields) (s : State) : Host.Outcome State Fault Refusal :=
  s.routeStep site [(pvOf f.a)] (fun st =>
    match s.inHead site.cell.val (pvOf f.a) with
    | none => .wait
    | some t => RouteOut.plain st [(pvOf f.a)] [((pvOf f.x), t), ((pvOf f.y), t)])

/-- `steer` (R249). -/
def execSteer (site : RouteSite) (f : RouteFields) (s : State) : Host.Outcome State Fault Refusal :=
  s.routeStep site [(pvOf f.a), (pvOf f.p)] (fun st =>
    match s.inHead site.cell.val (pvOf f.a), s.inHead site.cell.val (pvOf f.p) with
    | some d, some p =>
      let both := [(pvOf f.a), (pvOf f.p)]
      let d' := d.withDeps p.deps
      if d.kind = .done ∧ p.kind = .done then RouteOut.plain st both [((pvOf f.x), d'), ((pvOf f.y), d')]
      else if d.kind = .done ∨ p.kind = .done then .shape (pvOf f.a) (pvOf f.p)
      else if p.kind = .poison then RouteOut.plain st both [((pvOf f.y), d'.retag .poison p.payload)]
      else if predTrue p then RouteOut.plain st both [((pvOf f.x), d')]
      else RouteOut.plain st both [((pvOf f.y), d')]
    | _, _ => .wait)

/-- `merge` (R250). -/
def execMerge (site : RouteSite) (f : RouteFields) (s : State) : Host.Outcome State Fault Refusal :=
  let hd := s.inHead site.cell.val
  let chosen := match hd (pvOf f.p) with
    | some p => if p.isValue then (if predTrue p then [(pvOf f.a)] else [(pvOf f.y)]) else if p.kind = .done then [(pvOf f.a), (pvOf f.y)] else [(pvOf f.y)]
    | none => []
  s.routeStep site ([(pvOf f.p)] ++ chosen) (fun st =>
    match hd (pvOf f.p) with
    | none => .wait
    | some p =>
      if p.kind = .done then
        match hd (pvOf f.a), hd (pvOf f.y) with
        | some a, some y =>
          if a.kind = .done ∧ y.kind = .done then
            RouteOut.plain st [(pvOf f.p), (pvOf f.a), (pvOf f.y)] [((pvOf f.x), (p.withDeps a.deps).withDeps y.deps)]
          else .wait
        | _, _ => .wait
      else
        let inp := if p.isValue ∧ predTrue p = true then (pvOf f.a) else (pvOf f.y)
        match hd inp with
        | none => .wait
        | some d =>
          if d.kind = .done then .shape (pvOf f.a) (pvOf f.p)
          else
            let d' := d.withDeps p.deps
            RouteOut.plain st [(pvOf f.p), inp] [((pvOf f.x), if p.kind = .poison then d'.retag .poison p.payload else d')])

/-- `carry` (R251). -/
def execCarry (site : RouteSite) (f : RouteFields) (s : State) : Host.Outcome State Fault Refusal :=
  let hd := s.inHead site.cell.val
  let loop := ((s.cell site.cell.val).route site.entry.val).loop
  let reads := if !loop then [(pvOf f.a)] else
    match hd (pvOf f.p) with
    | some p => if p.isValue && predTrue p then [(pvOf f.p), (pvOf f.y)] else [(pvOf f.p)]
    | none => [(pvOf f.p)]
  s.routeStep site reads (fun st =>
    if st.loop = false then
      match hd (pvOf f.a) with
      | none => .wait
      | some d =>
        if d.kind = .done then RouteOut.plain st [(pvOf f.a)] [((pvOf f.x), d)]
        else RouteOut.plain { st with v := some d, loop := true } [(pvOf f.a)] [((pvOf f.x), d)]
    else
      match hd (pvOf f.p) with
      | none => .wait
      | some p =>
        if p.kind = .done then .shape (pvOf f.a) (pvOf f.p)
        else if p.isValue ∧ predTrue p = true then
          match hd (pvOf f.y) with
          | none => .wait
          | some b =>
            if b.kind = .done then .shape (pvOf f.a) (pvOf f.p)
            else
              let b' := b.withDeps p.deps
              RouteOut.plain { st with v := some b' } [(pvOf f.p), (pvOf f.y)] [((pvOf f.x), b')]
        else RouteOut.plain { st with v := none, loop := false } [(pvOf f.p)] [])

/-- `invar` (R252). -/
def execInvar (site : RouteSite) (f : RouteFields) (s : State) : Host.Outcome State Fault Refusal :=
  let hd := s.inHead site.cell.val
  let held := ((s.cell site.cell.val).route site.entry.val).loop
  s.routeStep site [if held then (pvOf f.p) else (pvOf f.a)] (fun st =>
    if st.loop = false then
      match hd (pvOf f.a) with
      | none => .wait
      | some d =>
        if d.kind = .done then RouteOut.plain st [(pvOf f.a)] [((pvOf f.x), d)]
        else RouteOut.plain { st with v := some d, loop := true } [(pvOf f.a)] []
    else
      match hd (pvOf f.p) with
      | none => .wait
      | some p =>
        if p.kind = .done then .shape (pvOf f.a) (pvOf f.p)
        else if p.isValue ∧ predTrue p = true then
          match st.v with
          | some d => RouteOut.plain st [(pvOf f.p)] [((pvOf f.x), d.withDeps p.deps)]
          | none => RouteOut.plain st [(pvOf f.p)] []
        else RouteOut.plain { st with v := none, loop := false } [(pvOf f.p)] [])

/-- `join` (R248). -/
def execJoin (site : RouteSite) (f : RouteFields) (s : State) : Host.Outcome State Fault Refusal :=
  s.routeStep site [(pvOf f.a), (pvOf f.p)] (fun st =>
    match s.inHead site.cell.val (pvOf f.a), s.inHead site.cell.val (pvOf f.p) with
    | some a, some p =>
      match joinKind a p with
      | none => .shape (pvOf f.a) (pvOf f.p)
      | some (k, w) => RouteOut.plain st [(pvOf f.a), (pvOf f.p)] [((pvOf f.x), (a.withDeps p.deps).retag k w)]
    | _, _ => .wait)

/-- `drop` (R254): with an argument it takes exactly that many tokens under its plane; without, its count of 12 bits goes on from 0 after 4,095
(log 139). -/
def execDrop (site : RouteSite) (f : RouteFields) (s : State) : Host.Outcome State Fault Refusal :=
  s.routeStep site [(pvOf f.a)] (fun st =>
    match s.inHead site.cell.val (pvOf f.a) with
    | none => .wait
    | some t =>
      if f.arg ≠ 0 ∧ f.arg.toNat ≤ st.c then .wait
      else .step ⟨[(pvOf f.a)], [], { st with c := (st.c + 1) % 4096 }, 1, if t.kind = .poison then some t.payload else none, false⟩)

/-- The lanes of `part`, and the lane of a payload (R256). -/
def partLane (arg : Nat) (p : Word) : Nat := p.toNat / 2 ^ (arg % 32) % 2 ^ bitsN arg 8 6

/-- `part` (R256): a DONE takes every lane's credit in its step, and its copies leave two a cycle in ascending lane order. -/
def execPart (site : RouteSite) (f : RouteFields) (s : State) : Host.Outcome State Fault Refusal :=
  s.routeStep site [(pvOf f.a)] (fun st =>
    match s.inHead site.cell.val (pvOf f.a) with
    | none => .wait
    | some t =>
      let lane := fun (l : Nat) => (f.x.port.val, f.x.vc.val + l)
      let n := partLanes f.arg.toNat
      if t.kind = .done then
        .step ⟨[(pvOf f.a)], (List.range n).map (fun l => (lane l, t, l / 2)), st, max 1 ((n + 1) / 2), none, true⟩
      else RouteOut.plain st [(pvOf f.a)] [(lane (partLane f.arg.toNat t.payload), t)])

/-! `comb` (R255, R407, R408). -/

/-- The sum of two tokens in FAST and INT mode. -/
def combValue (mode : Nat) (a c : Word) : Word :=
  if mode = 0 then
    let r := Ex.add .rne (fval fmtF32 a.toNat) (fval fmtF32 c.toNat)
    BitVec.ofNat 32 (roundTo fmtF32 .rne false r.1).1
  else a + c

/-- One step of two value tokens: the result's word and state, and the 64-bit sum where it overflows. -/
def combStep (mode : Nat) (st : RouteState) (a c : Word) : Word × RouteState × Option (BitVec 64) :=
  if mode ≠ 1 then (combValue mode a c, st, none)
  else if st.phase = false then
    let sum := a.toNat + c.toNat
    (BitVec.ofNat 32 sum, { st with phase := true, carry := decide (2 ^ 32 ≤ sum), c := sum % 2 ^ 32 }, none)
  else
    let cy : Nat := if st.carry then 1 else 0
    let exact : Int := a.toInt + c.toInt + cy
    let hi := (a.toNat + c.toNat + cy) % 2 ^ 32
    (BitVec.ofNat 32 hi, { st with phase := false, carry := false, c := 0 },
      if exact < -(2 ^ 31 : Int) ∨ exact ≥ 2 ^ 31 then some (BitVec.ofNat 64 (hi * 2 ^ 32 + st.c)) else none)

/-- The state after a token that is no value: POISON takes its place in the pair of words, DONE does not (R283). -/
def combPass (mode : Nat) (st : RouteState) (k : Kind) : RouteState :=
  if mode = 1 ∧ k = .poison then { st with phase := !st.phase, carry := false, c := 0 } else st

/-- After a time-out (R408): tokens of the waiting input pass alone as POISON until one of kind LAST or DONE has passed. -/
def combAlone (f : RouteFields) (st : RouteState) (emptyP : Bool) (pay : Word) (t : Token) : RouteOut :=
  let inp := if emptyP then (pvOf f.a) else (pvOf f.p)
  let ends := t.kind = .last ∨ t.kind = .done
  let exactHalf := f.arg.toNat % 4 = 1 ∧ t.kind ≠ .done
  let st1 := if exactHalf then { st with phase := !st.phase, carry := false, c := 0 } else st
  let st2 := if ends then { st1 with timeout := none, discard := some emptyP } else st1
  ⟨[inp], [((pvOf f.x), if t.kind = .done then t else t.retag .poison pay, 0)], st2, 1, none, false⟩

/-- `comb`: a step of its own, since an overflow also writes a record; none where its time is out and a token has come since, before REDUCTION_TIMEOUT
has said so (R408). -/
def execComb (site : RouteSite) (f : RouteFields) (s : State) : Host.Outcome State Fault Refusal :=
  let cell := site.cell.val
  let mode := f.arg.toNat % 4
  let hd := s.inHead cell
  let st0 := (s.cell cell).route site.entry.val
  let poison := fun (i : Inst) => poisonPayload 0x0A02 (s.nextSeq (some i.job))
  if st0.late.isSome then .next s else
  match st0.discard, (s.instAt cell) with
  | some emptyP, _ =>
    -- the late input's tokens are discarded up to its first LAST or DONE
    s.routeStep site [if emptyP then (pvOf f.p) else (pvOf f.a)] (fun st =>
      let inp := if emptyP then (pvOf f.p) else (pvOf f.a)
      match hd inp with
      | none => .wait
      | some t => .step ⟨[inp], [], if t.kind = .last ∨ t.kind = .done then { st with discard := none } else st, 1,
          if t.kind = .poison then some t.payload else none, false⟩)
  | none, none => .next s
  | none, some i =>
    match st0.timeout with
    | some (emptyP, pay) =>
      s.routeStep site [if emptyP then (pvOf f.a) else (pvOf f.p)] (fun st =>
        match hd (if emptyP then (pvOf f.a) else (pvOf f.p)) with
        | none => .wait
        | some t => .step (combAlone f st emptyP pay t))
    | none =>
      let tooBig := match hd (pvOf f.a), hd (pvOf f.p) with
        | some a, some c => if a.isValue ∧ c.isValue ∧ a.kind = c.kind then (combStep mode st0 a.payload c.payload).2.2 else none
        | _, _ => none
      let r := s.routeStep site [(pvOf f.a), (pvOf f.p)] (fun st =>
        match hd (pvOf f.a), hd (pvOf f.p) with
        | some a, some c =>
          let a' := a.withDeps c.deps
          if a.isValue ∧ c.isValue ∧ a.kind ≠ c.kind then .shape (pvOf f.a) (pvOf f.p)
          else
            match joinKind a c with
            | none => .shape (pvOf f.a) (pvOf f.p)
            | some (.poison, w) => RouteOut.plain (combPass mode st .poison) [(pvOf f.a), (pvOf f.p)] [((pvOf f.x), a'.retag .poison w)]
            | some (.done, w) => RouteOut.plain st [(pvOf f.a), (pvOf f.p)] [((pvOf f.x), a'.retag .done w)]
            | some (k, _) =>
              let v := combStep mode st a.payload c.payload
              let t := if tooBig.isSome then a'.retag .poison (poison i) else a'.retag k v.1
              RouteOut.plain v.2.1 [(pvOf f.a), (pvOf f.p)] [((pvOf f.x), t)]
        | _, _ => .wait)
      match tooBig, r with
      | some sum, .next s' =>
        -- the record of the overflow, if the step took place (R407)
        if ((s'.cell cell).route site.entry.val).phase = st0.phase then r
        else
          let rec0 := s.recInst ((s.baseRec i.die (some i.job) 0x0A02 0 1).atCell cell site.entry.val) i
          .next (s'.pushClaimed { rec0 with opw := BitVec.ofNat 64 ((s.cell cell).active.routeWord site.entry.val).toNat, detail0 := sum })
      | _, _ => r

end Sys2Proof.Machine
end

