-- ==== Sys2Proof/Machine/FabricOps.lean ====
section
/-! DEFINITION. Sys2Proof/Machine/FabricOps.lean: tokens crossing links (R17, R43, R154, R358), remote and global accesses (R110, R121,
R123, R379 to R382), the delivery of decoupled results (R123), fences (R140), translation invalidation (R122), and the small
events of cells: trigger, phase and reduction time-out (R77, R57, R408). -/
namespace Sys2Proof.Machine
open Sys2Proof

/-! Token hops. -/

/-- The transit entry of a cell that takes an input, as its output (R154). -/
def Cell.transitOut (c : Cell) (port vc : Nat) : Option (Nat × Nat) :=
  (c.transit.find? (fun e => e.1 == port && e.2.1 == vc)).map (fun e => e.2.2)

/-- Holds an instance for a token that fails its parity check at a router input (R358): SUBST and RESUME replace it. -/
def State.parityFault (s : State) (i : Inst) (cell port vc : Nat) (t : Token) : State :=
  let r := (s.baseRec i.die (some i.job) 0x0D01 0 1).atCell cell 0
  s.takeFault i .routerToken { r with subok := true, detail0 := BitVec.ofNat 64 t.bits } [(cell, pvKey port vc)]

/-- A token with bad parity where no instance stands: the record of no job, and POISON in its place (R345, R348). -/
def State.parityOrphan (s : State) (cell : Nat) (t : Token) : State × Token :=
  let r := (s.baseRec (dieOfCell cell) none 0x0D01 0 1).atCell cell 0
  (s.pushRec { r with detail0 := BitVec.ofNat 64 t.bits }, t.retag .poison (poisonPayload 0x0D01 0))

/-- No lower lane of the same DONE of `part` still waits at the port (R256). -/
def State.laneTurn (s : State) (cell port : Nat) (t : LinkTok) : Bool :=
  match t.lane with
  | none => true
  | some (k, l) => !(List.range 32).any (fun v => ((s.cell cell).linkQ port v).any (fun u =>
      u.lane.any (fun m => m.1 == k && decide (m.2 < l))))

/-- The instance's hold keeps the token of a router input (R358). -/
def State.keepsPort (s : State) (i : Inst) (cell pv : Nat) : Bool :=
  i.hold.any (fun hid => (s.hold i.die hid).any (fun h => h.ports.contains (cell, pv)))

/-- The head token of a link's VC may cross: its time has come, the far side runs, a credit is free (R45), and at an instance's
boundary nothing holds it out (R58, R344). -/
def State.canCross (s : State) (cell port vc : Nat) : Bool :=
  match s.neighbour cell port, (s.cell cell).linkQ port vc with
  | some n, t :: _ =>
    let q := oppositePort port
    let c := s.cell n
    decide (t.ready ≤ s.now) && s.laneTurn cell port t && !s.frozen && s.sectorRuns (sectorOfCell n) && decide ((c.inFifo q vc).length < 4) &&
    (match s.instAt n with
      | none => true
      | some i =>
        if t.tok.parityOk = false then !s.held i && !s.keepsPort i n (pvKey q vc)
        else i.covers cell || (c.transitOut q vc).isSome || (!s.held i && !i.parked && s.boundaryOpen i n q vc))
  | _, _ => false

/-- Service tokens in an input FIFO of a router (R45). -/
def State.meshUsed (s : State) (cell port vc : Nat) : Nat :=
  ((s.meshToks vc).filter (fun t => t.place.cell == cell && t.place.port == port)).length

/-- The first of some service tokens. -/
def firstTok (l : List MeshTok) : Option MeshTok :=
  l.foldl (fun (b : Option MeshTok) t => match b with
    | some q => if t.key < q.key then some t else b
    | none => some t) none

/-- The service token a link would send on a VC: of those at the heads of the router's FIFOs that leave by its port, the one that came
first (R45, R47). -/
def State.meshHead (s : State) (cell port vc : Nat) : Option MeshTok :=
  let at_ := (s.meshToks vc).filter (fun t => t.place.cell == cell)
  firstTok (((List.range 5).filterMap (fun p => firstTok (at_.filter (fun t => t.place.port == p)))).filter (fun t => t.place.next == some port))

/-- The service token of a link's VC may cross: its time has come, and the far router has a credit (R17, R45). The routers of a gated sector still carry
service traffic, which is answered there (log 142). -/
def State.meshMayCross (s : State) (cell port vc : Nat) : Bool :=
  match s.neighbour cell port, s.meshHead cell port vc with
  | some n, some t =>
    decide (t.hopAt + s.hopUnits cell port ≤ s.now) && !s.frozen &&
    (s.sectorRuns (sectorOfCell n) || (s.sector (sectorOfCell n)).shut) && decide (s.meshUsed n (oppositePort port) vc < 4)
  | _, _ => false

/-- A link's VC has a token that may cross, of dataflow or of service traffic. -/
def State.vcReady (s : State) (cell port vc : Nat) : Bool := if 24 ≤ vc then s.meshMayCross cell port vc else s.canCross cell port vc

/-- A service token crosses a link. -/
def State.moveService (s : State) (cell port vc : Nat) : State :=
  match (s.meshHead cell port vc).map MeshTok.ref with
  | some (.req id) => (s.fresh.2).updReq id (fun q => { q with hops := q.hops + 1, hopAt := s.now, arrived := s.fresh.1 })
  | some (.update pair n) => s.updPair pair (fun p => { p with queue := p.queue.modify n (fun u => { u with hops := u.hops + 1, hopAt := s.now }) })
  | none => s

/-- Tokens a link has sent in this cycle of its sending side (R50). -/
def State.linkSent (s : State) (cell port : Nat) : Nat :=
  let a := Map.get LinkArb.reset (s.cell cell).arbs port
  if a.cycle = s.cycle (sectorOfCell cell) then a.sent else 0

/-- The VC a link serves next: the first after the one served last whose token may cross (R50). -/
def State.linkNext (s : State) (cell port : Nat) : Option Nat :=
  let a := Map.get LinkArb.reset (s.cell cell).arbs port
  ((List.range 32).map (fun k => (a.last + 1 + k) % 32)).find? (s.vcReady cell port)

/-- Moves the head of a link into the neighbour's input (R17, R45): at an instance's boundary it is admitted under that instance's
version (R43, R58). -/
def State.moveToken (s : State) (cell port vc : Nat) : State :=
  match s.neighbour cell port, (s.cell cell).linkQ port vc with
  | some n, t :: rest =>
    let q := oppositePort port
    if t.tok.parityOk = false then
      match s.instAt n with
      | some i => s.parityFault i n q vc t.tok
      | none =>
        let o := s.parityOrphan n t.tok
        o.1.updCell cell (fun x => x.setLinkQ port vc ({ t with tok := o.2 } :: rest))
    else
      let s1 := (s.updCell cell (fun x => x.setLinkQ port vc rest)).seeNow n
      match s.instAt n with
      | none => s1.updCell n (fun x => x.setInFifo q vc (x.inFifo q vc ++ [t.tok]))
      | some i =>
        if i.covers cell || ((s.cell n).transitOut q vc).isSome then
          (s1.markArrival n q vc).updCell n (fun x => x.setInFifo q vc (x.inFifo q vc ++ [t.tok]))
        else s1.putThrough i n q vc t.tok
  | _, _ => s

/-- A link sends a VC's token when its arbiter comes to it: round-robin over those that may cross, two in a cycle (R50). -/
def State.crossLink (s : State) (cell port vc : Nat) : State :=
  if 2 ≤ s.linkSent cell port ∨ s.linkNext cell port ≠ some vc then s
  else
    (if 24 ≤ vc then s.moveService cell port vc else s.moveToken cell port vc).updCell cell (fun x =>
      { x with arbs := Map.set LinkArb.reset x.arbs port ⟨s.cycle (sectorOfCell cell), s.linkSent cell port + 1, vc⟩ })

/-- A transit entry's step (R154): from an input to a link, or into the destination cell's PE channel, where it is admitted. -/
def State.transitStep (s : State) (cell port vc : Nat) : State :=
  let c := s.cell cell
  match c.transitOut port vc, c.inFifo port vc with
  | some o, t :: _ =>
    if s.frozen = true ∨ s.sectorRuns (sectorOfCell cell) = false ∨ s.hasCredit cell o = false then s
    else if o.1 = 4 then
      match s.instAt cell with
      | none => s
      | some i =>
        if s.held i = true ∨ i.parked = true ∨ s.boundaryOpen i cell 4 o.2 = false then s
        else
          let opened := t.kind == .data || t.kind == .poison
          let s1 := (s.inPop cell (port, vc)).updCell cell (fun x => { x with boundary := Map.set false x.boundary (pvKey 4 o.2) opened })
          (s1.routeOut cell o (t.restamp (s.cell cell).active.ver) 0).updInst i.id (fun x => { x with lastActive := s.dev })
    else (s.inPop cell (port, vc)).routeOut cell o t 0
  | _, _ => s

/-- TOKEN_HOP (R17, R47): ports 0 to 3 name a link out of the cell, of dataflow and service VCs; 8 to 13 the transit entry on input port 0 to 5. -/
def execTokenHop (cell port vc : Nat) (s : State) : Host.Outcome State Fault Refusal :=
  .next (if port < 4 then s.crossLink cell port vc else if 8 ≤ port then s.transitStep cell (port - 8) vc else s)

/-! Decoupled results (R123). -/

/-- The class 0x03 details of a request (R381). -/
def Req.place (r : Req) : Place := ⟨if r.loc then 0 else match r.body with
  | .load true _ => 2 | .store true _ => 2 | .atomic true _ _ _ _ _ => 2 | .cas true _ _ _ _ => 2 | .prefetch => 2 | _ => 1,
  r.handle, r.elem, true, r.addr, r.size, r.swz⟩

/-- KIND of R381 for a request. -/
def ReqBody.memKind : ReqBody → Nat
  | .load _ _ => 0
  | .store _ _ => 1
  | .cas _ _ _ _ _ => 3
  | _ => 2

/-- A fault of class 0x03 of a request, detected at a cell. -/
def State.memReqFaultAt (s : State) (r : Req) (at_ code wlvl : Nat) : State :=
  let e := memFault code r.body.memKind wlvl r.place true
  s.faultReqAt r at_ code 0 0 e.d0 e.d1

/-- A fault of class 0x03 of a request, found on the issuing side. -/
def State.memReqFault (s : State) (r : Req) (code wlvl : Nat) : State := s.memReqFaultAt r r.cell code wlvl

/-- The fault of a REM access that another package answers, with its code in the input's value and the word it found there, or the detail that the
code's class gives, in bits 127:64 (R331, R358, R392, R406, log 46); its flag tells of an uncorrectable word that it is a barrier or ring word. -/
def State.farFault (s : State) (r : Req) : State :=
  let code := s.input.value.toNat % 65536
  let d0 := s.input.value.toNat / 2 ^ 64 % 2 ^ 64
  let reads := match r.body with | .load _ _ => true | _ => false
  if code / 256 = 3 then s.memReqFault r code 7
  else if code / 256 = 7 then s.faultReq r code 0 0 d0 (r.body.operandA + remOff r.addr % 32768 * 2 ^ 32)
  else s.faultReq r code (if (code = 0x0904 ∧ reads = false) ∨ (code = 0x0D02 ∧ s.input.flag = true) then 1 else 0) 0 d0 0

/-- Results of the slot that come before a request's (R53, R123, R56): earlier entries of the slot or of its other copies, and earlier results
in flight. -/
def State.resultBlocked (s : State) (r : Req) : Bool :=
  let src := s.resultCell r.cell r.slot
  let ahead := fun (c : Nat) => (s.cell c).flight.any (fun f => f.slot == r.slot && f.dst.isResult && !f.after.contains r.id)
  s.reqs.any (fun q => q.slot == r.slot && q.id != r.id && decide (q.order < r.order) && q.inst == r.inst &&
    (q.cell == r.cell || s.resultCell q.cell q.slot == src)) || ahead src || ahead r.cell

/-- The tokens of a delivered entry: kind and payload. -/
def Req.tokens (r : Req) : List (Kind × Word) :=
  match r.body, r.kind with
  | .rrpop, .data => [(.data, BitVec.ofNat 32 r.result.toNat), (.data, BitVec.ofNat 32 (r.result.toNat / 2 ^ 32))]
  | _, .done => [(.done, 0)]
  | _, k => [(k, BitVec.ofNat 32 r.result.toNat)]

/-- A value of a delivered entry for a register or handle of its cell is a result of the present cycle (R53, R185). -/
def State.landResult (s : State) (r : Req) (d : ResDst) : State :=
  s.updCell r.cell (fun c => { c with flight := c.flight ++
    [⟨s.cycle (sectorOfCell r.cell), r.slot, d, BitVec.ofNat 64 r.result.toNat, none, none, flagNone, [], 0⟩] })

/-- DECOUPLED_RESULT_DELIVERY (R123): the oldest entry of its slot, answered and its answer back (R124), gives its value or completion token
to the slot's destination and frees the entry. Of a retired instance's entry the token is discarded, and a scratchpad write is made (R40). -/
def execDecoupledResultDelivery (request : Nat) (s : State) : Host.Outcome State Fault Refusal :=
  match s.req request with
  | none => .next s
  | some r =>
    if r.stage ≠ .answered ∨ s.sectorRuns (sectorOfCell r.cell) = false then .next s else
    match s.inst r.inst with
    | none => .next (s.delReq request)
    | some i =>
      if i.retired || r.retired then
        match r.dst with
        | .handle n =>
          let h := (s.cell r.cell).handle n.val
          if s.resultBlocked r then .next s
          else .next ((if r.kind == .data || r.kind == .last then s.landResult r (.store r.dstOff h.size h.swz) else s).delReq request)
        | _ => .next (s.delReq request)
      else if s.resultBlocked r || decide (s.now < r.readyAt) || !s.meshBack r then .next s
      else
        let src := s.resultCell r.cell r.slot
        let done := fun (x : State) => (x.delReq request).updInst i.id (fun y => { y with lastActive := s.dev })
        let value := r.kind == .data || r.kind == .last
        let lost := if r.kind = .poison then s.absorb r.cell r.slot 0 (BitVec.ofNat 32 r.result.toNat) else s
        match r.dst with
        | .out n =>
          let s0 := if r.body.acquires then s.seeNow src else s
          if s.outRoom src n.val r.tokens.length then .next (done (s0.sendOut i src r.cell r.id n.val r.deps r.tokens)) else .next s
        | .reg n => .next (done (if value then s.landResult r (.reg n.val) else lost))
        | .handle n =>
          let h := (s.cell r.cell).handle n.val
          .next (done (if value then s.landResult r (.store r.dstOff h.size h.swz) else lost))
        | .none => .next (done lost)

/-! Remote accesses (R110). -/

/-- A value loaded, zero- or sign-extended (R230). -/
def loadValue (v size : Nat) (sx : Bool) : Nat := if sx then (BitVec.ofInt 64 (laneInt v (8 * size) true)).toNat else v

/-- As what a request writes: its cell, the cell its slot works for, and an atomic's ORD and SCOPE. -/
def State.writerOf (s : State) (r : Req) (atomic : Option (Nat × Nat)) : Writer := ⟨r.cell, s.resultCell r.cell r.slot, atomic⟩

/-- Performs a REM access at its target cell (R230, R233, R234, R300 to R302), with the faults found there. -/
def State.performRemote (s : State) (r : Req) (cell off : Nat) : State :=
  let c := s.cell cell
  let d0 := (c.bytes r.swz (off / 8 * 8) 8)
  let tagFault := fun (a : Nat) => s.faultReqAt r cell 0x0707 0 0 d0 (a % 2 ^ 32 + off % 32768 * 2 ^ 32)
  let bad := c.anyBad r.swz off r.size
  let badFault :=
    let lvl := if c.anyTagged r.swz off r.size then 1 else 0
    s.faultReqAt r cell 0x0D02 lvl 0 (off % 32768 + Config.syndrome s.draws % 256 * 65536) 0
  match r.body with
  | .load _ sx => if bad then badFault else s.answer r.id (loadValue (c.bytes r.swz off r.size) r.size sx)
  | .store _ v =>
    if c.anyTagged r.swz off r.size then tagFault v.toNat
    else (s.spadStoreBy (s.writerOf r none) cell r.swz off v.toNat r.size).answer r.id 0
  | .atomic _ ty aop ord scope v =>
    if bad then badFault
    else if c.anyTagged r.swz off r.size then tagFault v.toNat
    else
      let old := BitVec.ofNat 32 (c.bytes r.swz off 4)
      let w := s.writerOf r (some (ord, scope))
      let s1 := s.acquireFrom w (.cell cell) (Map.find c.hist (spadWord r.swz off))
      (if aop = 7 then s1 else s1.spadStoreBy w cell r.swz off (atomicFn ty aop old v).toNat 4).answer r.id old.toNat
  | .cas _ ord scope e n =>
    if bad then badFault
    else if c.anyTagged r.swz off r.size then tagFault e.toNat
    else
      let old := BitVec.ofNat 32 (c.bytes r.swz off 4)
      let w := s.writerOf r (some (ord, scope))
      let s1 := s.acquireFrom w (.cell cell) (Map.find c.hist (spadWord r.swz off))
      (if old = e then s1.spadStoreBy w cell r.swz off n.toNat 4 else s1).answer r.id old.toNat
  | .bara _ _ ws =>
    if bad then badFault else if !s.pairsDone ws then s else
    match s.syncOp r.wordAt r.body with
    | .done pay s1 => s1.answer r.id pay
    | .wait => s
    | .fault code => s.faultReqAt r cell code 0 0 (s.syncWord r.wordAt) (r.body.operandA + off % 32768 * 2 ^ 32)
  | b =>
    if bad then badFault else
    match s.syncOp r.wordAt b with
    | .done pay s1 => s1.answer r.id pay
    | .wait => (s.fresh.2).updReq r.id (fun q => { q with stage := .waiting, arrived := s.fresh.1 })
    | .fault code => s.faultReqAt r cell code 0 0 (s.syncWord r.wordAt) (b.operandA + off % 32768 * 2 ^ 32)

/-- The access may write the scratchpad of its target. -/
def ReqBody.stores : ReqBody → Bool
  | .load _ _ => false
  | .barw _ _ => false
  | _ => true

/-- An `unsub` at its publisher (R304, R306): every update under way is applied, then the slot is freed and the pair ends. -/
def State.unsubscribe (s : State) (r : Req) (mirror : Nat) : State :=
  match s.pairOf r.cell mirror (s.publisherId r.cell mirror) with
  | none => s.answer r.id 1
  | some p =>
    let s1 := s.updPair p.id (fun q => q.close s.now)
    if ((s1.pair p.id).map (fun q => q.queue.isEmpty)).getD true then
      let s2 := s1.freeSlot p
      ({ s2 with pairs := s2.pairs.filter (fun q => q.id != p.id) }).answer r.id 0
    else s1

/-- REMOTE_REQUEST (R110, R379, R396, R406): a REM access reaches its target cell and is performed there, or faults. A target in
another package answers with `answer`, or with a fault in the input's value. -/
def execRemoteRequest (request : Nat) (answer : BitVec 64) (s : State) : Host.Outcome State Fault Refusal :=
  match s.req request with
  | none => .next s
  | some r =>
    if r.stage ≠ .issued ∨ s.sectorRuns (sectorOfCell r.cell) = false then .next s else
    match r.body with
    | .unsub m =>
      let pkg := (s.publisherOf r.cell m).1
      if pkg = s.package then .next (if s.meshReached r then s.unsubscribe r m else s) else
      match s.routeTo pkg with
      | .wait => .next s
      | .fault code d0 => .next (s.faultReq r code 0 0 d0 0)
      | .open_ =>
        if (s.pairOf r.cell m (s.publisherId r.cell m)).any (fun p => !p.queue.isEmpty) then .next s
        else .next ((s.sendWord pkg vcMessage).unsubscribe r m)
    | b =>
      if !b.isRemote || r.loc then .next s else
      let cell := remCell r.addr
      let off := remOff r.addr
      let sameTarget := fun (q : Req) => q.cell == r.cell && decide (q.order < r.order) && q.stage == .issued && q.body.isRemote && !q.loc &&
        q.addr / 2 ^ 40 == r.addr / 2 ^ 40
      if s.reqs.any sameTarget then .next s
      else if remPkg r.addr ≠ s.package then
        if Config.podHas (remPkg r.addr) = false then .next (s.memReqFault r 0x0303 7) else
        match s.routeTo (remPkg r.addr) with
        | .wait => .next s
        | .fault code d0 => .next (s.faultReq r code 0 0 d0 0)
        | .open_ =>
          let s1 := s.sendWord (remPkg r.addr) vcRemote
          if s.input.value = 0 then .next (s1.answer request answer.toNat)
          else .next (s1.farFault r)
      else if s.dieExists (remDie r.addr) = false then .next (s.memReqFault r 0x0303 7)
      else if s.meshReached r = false then .next s
      else if (s.sector (sectorOfCell cell)).shut then .next (s.memReqFaultAt r cell 0x0320 7)
      else if s.sectorRuns (sectorOfCell cell) = false then .next s
      else
        match s.instAt cell with
        | none => .next (s.memReqFaultAt r cell 0x0302 7)
        | some i =>
          if i.asid ≠ r.asid then .next (s.memReqFaultAt r cell 0x0309 7)
          else if i.spad < off + r.size then .next (s.memReqFaultAt r cell 0x0302 7)
          else
            let g := if r.body.stores && s.streamFull cell off r.size then (false, s)
              else s.askBank cell 1 (s.cycle (sectorOfCell cell)) r.swz off r.size
            .next (if g.1 then g.2.performRemote r cell off else g.2)

/-! Global accesses. -/

/-- The body is a GLB access or a prefetch. -/
def ReqBody.isGlobal : ReqBody → Bool
  | .load true _ => true
  | .store true _ => true
  | .atomic true _ _ _ _ _ => true
  | .cas true _ _ _ _ => true
  | .prefetch => true
  | _ => false

/-- What a GLB access needs of its page (R119, R379). -/
def ReqBody.access : ReqBody → Access
  | .store _ _ => .store
  | .atomic _ _ aop _ _ _ => if aop = 7 then .atomicLoad else .atomicStore
  | .cas _ _ _ _ _ => .atomicStore
  | _ => .load

/-- A request whose translation is known goes on; a prefetch is over (R238). `lg` is the size of the page used, `ns` the time a walk took
(R124). -/
def State.translated (s : State) (r : Req) (pa lg ns : Nat) : State :=
  let s1 := s.updReq r.id (fun q => { q with readyAt := q.readyAt + 60 * ns, leaf := lg })
  if r.body = .prefetch then s1.answer r.id 0 else s1.updReq r.id (fun q => { q with stage := .translated pa })

/-- Root table of a request's job. -/
def State.reqRoot (s : State) (r : Req) : Nat := s.rootOf (((s.inst r.inst).map Inst.job).getD 0)

/-- A translation fault: a prefetch is abandoned (R238), another access faults (R379); at an uncorrectable page-table entry as a read of it does
(R358). -/
def State.xlatFault (s : State) (r : Req) (code wlvl : Nat) : State :=
  if r.body = .prefetch then s.answer r.id 1
  else if code = 0x0D04 then s.faultReq r 0x0D04 0 0 (s.walkBad (dieOfCell r.cell) r.asid (s.reqRoot r) r.addr) 0
  else s.memReqFault r code wlvl

/-- The size of the page that maps an address: of the leaf a walk finds, a granule where it finds none. -/
def Walk.size : Walk → Nat
  | .leaf _ lg _ _ _ => lg
  | .fault _ _ => 16

/-- Translates one request by cache or walk. -/
def State.xlatReq (s : State) (r : Req) : State :=
  let k := sectorOfCell r.cell
  let d := dieOfSector k
  let root := s.reqRoot r
  let lg := (s.walkerWalk d r.asid root r.addr).size
  let ns := if s.tlbLook k r.asid r.addr r.body.access = .miss then s.walkNs d r.asid root r.addr else 0
  match s.translate k r.asid root r.addr r.body.access with
  | (.ok pa, s1) => s1.translated r pa lg ns
  | (.bad code l, s1) => (s1.updReq r.id (fun q => { q with readyAt := q.readyAt + 60 * ns })).xlatFault r code l
  | (.miss, s1) => s1

/-- Places a request among others by cell index, then slot (R345). -/
def insertReq (r : Req) : List Req → List Req
  | [] => [r]
  | q :: rest => if decide (r.cell < q.cell) || (r.cell == q.cell && decide (r.slot < q.slot)) then r :: q :: rest else q :: insertReq r rest

/-- An earlier request of the cell to its hub has not been taken: v24 keeps their order (R47). -/
def State.hubOrder (s : State) (r : Req) : Bool :=
  s.reqs.any (fun q => q.cell == r.cell && decide (q.id < r.id) && q.body.isGlobal && q.stage == .issued && !q.atHub)

/-- The hub takes a request. -/
def State.reachHub (s : State) (r : Req) : State := s.updReq r.id (fun q => { q with atHub := true })

/-- PAGE_WALK (R121, R382): the walk of a request's page completes every request of the die that waits on the same page, or faults
each, in order of cell index and slot (R345). -/
def execPageWalk (request : Nat) (s : State) : Host.Outcome State Fault Refusal :=
  match s.req request with
  | none => .next s
  | some r =>
    if r.stage ≠ .issued ∨ r.body.isGlobal = false ∨ s.sectorRuns (sectorOfCell r.cell) = false ∨ s.hubOrder r = true then .next s else
    let lg := (s.walkerWalk (dieOfCell r.cell) r.asid (s.reqRoot r) r.addr).size
    let merged := s.reqs.filter (fun q => q.id == request || (q.stage == .issued && q.atHub && q.body.isGlobal && q.asid == r.asid &&
      decide (q.addr / 2 ^ lg = r.addr / 2 ^ lg) && dieOfCell q.cell == dieOfCell r.cell))
    .next ((merged.foldr insertReq []).foldl (fun (a : State) q => a.xlatReq q) (s.reachHub r))

/-- As what a cell's GLB read reads, by ORD and SCOPE (R134, R135, R139). -/
def State.reqReader (s : State) (r : Req) (ord scope : Nat) : Reader :=
  .fabric r.cell (s.resultCell r.cell r.slot) (ord == 4) scope (((s.inst r.inst).map Inst.placedAt).getD s.now)

/-- Performs a GLB access at its point of coherence (R230, R233, R234); its answer takes the time of the way there and back (R124). -/
def State.performGlobal (s0 : State) (r : Req) (pa : Nat) : State :=
  let s := s0.updReq r.id (fun q => { q with readyAt := q.readyAt + 60 * s0.glbNs (dieOfCell r.cell) pa })
  let bad := s.memBad pa
  let badFault := s.faultReq r 0x0D04 0 0 (pa / 32 * 32) 0
  match r.body with
  | .load _ sx =>
    if bad then badFault else
    let v := s.readMem (s.reqReader r 0 0) pa r.size
    v.2.answer r.id (loadValue (bytesNat v.1) r.size sx)
  | .store _ v => (s.cellWrite (s.writerOf r none) pa v.toNat r.size).answer r.id 0
  | .atomic _ ty aop ord scope v =>
    if bad then badFault
    else if aop = 7 then
      let x := s.readMem (s.reqReader r ord scope) pa 4
      let x2 := if x.1 = s.memList pa 4 then x.2.acquireFrom (s.writerOf r (some (ord, scope))) (.mem pa) (Map.find s.hist (pa / 8)) else x.2
      x2.answer r.id (bytesNat x.1)
    else
      let old := BitVec.ofNat 32 (s.memRead pa 4)
      let w := s.writerOf r (some (ord, scope))
      ((s.acquireFrom w (.mem pa) (Map.find s.hist (pa / 8))).cellWrite w pa (atomicFn ty aop old v).toNat 4).answer r.id old.toNat
  | .cas _ ord scope e n =>
    if bad then badFault else
    let old := BitVec.ofNat 32 (s.memRead pa 4)
    let w := s.writerOf r (some (ord, scope))
    let s1 := s.acquireFrom w (.mem pa) (Map.find s.hist (pa / 8))
    (if old = e then s1.cellWrite w pa n.toNat 4 else s1).answer r.id old.toNat
  | _ => s

/-- The physical address a request goes to, as far as it is known or a walk would find it. -/
def State.paOf (s : State) (r : Req) : Option Nat :=
  match r.stage with
  | .translated pa => some pa
  | _ => match s.walk r.asid (s.reqRoot r) r.addr with
    | .leaf pa _ _ _ _ => some pa
    | .fault _ _ => none

/-- An earlier write of the slot to the same location is still to be performed: they keep firing order (R127), whatever the virtual
addresses. -/
def State.writeAhead (s : State) (r : Req) (pa : Nat) : Bool :=
  s.reqs.any (fun q => q.cell == r.cell && q.slot == r.slot && decide (q.order < r.order) && q.body.isGlobal &&
    q.body.access != .load && (match q.stage with | .issued => true | .translated _ => true | _ => false) &&
    (match s.paOf q with | some a => decide (a / 8 = pa / 8) | none => false))

/-- The access at its port: absence (R120, R24), the route to another package (R406), metering (R334), then it is performed. -/
def State.atPort (s : State) (r : Req) (pa : Nat) : State :=
  if s.writeAhead r pa then s
  else if s.paPresent pa = false then s.memReqFault r 0x0308 7
  else if paIsHost pa then s.performGlobal r pa
  else if paPackage pa ≠ s.package then
    match s.routeTo (paPackage pa) with
    | .wait => s
    | .fault code d0 => s.faultReq r code 0 0 d0 0
    | .open_ => (s.sendWord (paPackage pa) vcMemory).performGlobal r pa
  else
    let k := sectorOfCell r.cell
    if s.portTurn k r.id && s.admits k 32 then
      (s.updSector k (fun t => { t.spend 32 with portQ := t.portQ.filter (fun x => x != r.id) })).performGlobal r pa
    else (s.updReq r.id (fun q => { q with stage := .translated pa })).portWait k r.id

/-- HBM_REQUEST (R123): a request whose page is in the sector's cache, or whose walk is done, is performed at its memory. -/
def execHbmRequest (request : Nat) (s : State) : Host.Outcome State Fault Refusal :=
  match s.req request with
  | none => .next s
  | some r =>
    if s.frozen || !r.body.isGlobal then .next s else
    match r.stage with
    | .translated pa => if s.sectorRuns (sectorOfCell r.cell) then .next (s.atPort r pa) else .next s
    | .issued =>
      if s.sectorRuns (sectorOfCell r.cell) = false ∨ s.hubOrder r = true then .next s else
      match s.tlbLook (sectorOfCell r.cell) r.asid r.addr r.body.access with
      | .miss => .next (s.reachHub r)
      | .bad code l => .next (s.xlatFault r code l)
      | .ok pa =>
        let s1 := (s.reachHub r).updReq request (fun q => { q with leaf := s.leafSize (sectorOfCell r.cell) r.asid r.addr })
        if r.body = .prefetch then .next (s1.answer request 0) else .next (s1.atPort r pa)
    | _ => .next s

/-- The package a request goes to, where it is another one. -/
def State.foreign (s : State) (r : Req) : Option Nat :=
  let pkg := match r.body with
    | .send _ _ t => some (tgtPkg t)
    | .rgreq v => some (rrPkg v)
    | .sub m => some (s.publisherOf r.cell m).1
    | .unsub m => some (s.publisherOf r.cell m).1
    | .tlnch t _ => some (t / 256 % 64)
    | b =>
      if b.isRemote && !r.loc then some (remPkg r.addr)
      else if b.isGlobal then
        match r.stage with
        | .translated pa => if paIsHost pa then none else some (paPackage pa)
        | _ => none
      else none
  match pkg with
  | some p => if p = s.package then none else some p
  | none => none

/-- RESPONSE_TIMEOUT (R406): no response over Olpour within 10 ms; time in RETRAIN does not count (R405). -/
def execResponseTimeout (request : Nat) (s : State) : Host.Outcome State Fault Refusal :=
  match s.req request with
  | none => .next s
  | some r =>
    match s.foreign r with
    | none => .next s
    | some pkg =>
      let port := (Map.get 0 s.oroute pkg).toNat % 16
      if s.frozen ∨ s.dev < r.sentAt + spanned r.sentAt s.dev (s.retrainsOf port) + 10000 * usUnits then .next s else
      match r.stage with
      | .issued | .translated _ =>
        match r.body with
        | .tlnch _ _ => .next (s.answerLaunch r (2, 0))
        | .send _ _ _ => .next (s.sendFail r 0x0904 (pkg + port * 256))
        | .load _ _ => .next (s.faultReq r 0x0904 0 0 (pkg + port * 256) 0)
        | _ => .next (s.faultReq r 0x0904 1 0 (pkg + port * 256) 0)
      | _ => .next s

/-! Fences (R140). -/

/-- Bit of a class in MASK (R236) for an engine command. -/
def cmdClass (k : CmdKind) : Nat := match k with | .copy => 1 | _ => 2

/-- A command a fence waits for is still there, in its engine or in the saves of a frame (R140, R143). -/
def State.fenceWaits (s : State) (mask id : Nat) : Bool :=
  let copy := fun (c : Cmd) => c.id == id && mask / 2 ^ cmdClass c.kind % 2 == 1
  let grammar := fun (g : GveCmd) => g.id == id && mask / 8 % 2 == 1
  s.cmds.any copy || s.sectors.any (fun e => e.2.gve.any grammar) ||
  s.die.any (fun d => d.2.frames.any (fun f => f.saves.any (fun v => match v.item with
    | .cmd c => copy c
    | .grammar g _ => grammar g
    | _ => false)))

/-- FENCE_COMPLETE (R140, R142). -/
def execFenceComplete (request : Nat) (s : State) : Host.Outcome State Fault Refusal :=
  match s.req request with
  | none => .next s
  | some r =>
    match r.body with
    | .fence mask scope waits pairs =>
      if r.stage ≠ .waiting ∨ s.frozen = true ∨ waits.any (s.fenceWaits mask) = true ∨ s.pairsDone pairs = false then .next s
      else .next (({ s with fences := s.fences ++ [FenceDone.mk request mask scope r.cell s.now] }).answer request 0)
    | _ => .next s

/-! Invalidation (R122). -/

/-- Removes the entries an invalidation names from every cache of the package. -/
def State.invalidate (s : State) (asid : Nat) (granule : Option Nat) : State :=
  let leaf := fun (t : Tlb) => t.asid == asid && (match granule with | none => true | some g => t.va == g * 65536 / 2 ^ t.logSize)
  let node := fun (e : WalkEntry) => e.asid == asid && (match granule with | none => true | some g => e.va == g * 65536 / 2 ^ levelShift e.level)
  { s with
    sectors := s.sectors.map (fun e => (e.1, { e.2 with tlb := e.2.tlb.filter (fun t => !leaf t) }))
    die := s.die.map (fun e => (e.1, { e.2 with walker := e.2.walker.filter (fun w => !node w) })) }

/-- XLINV of a die is written (R122). -/
def State.writeXlinv (s : State) (d asid : Nat) (granule : Option Nat) : State :=
  (s.invalidate asid granule).updDie d (fun t => { t with xlBusy := true, xlPending := t.xlPending ++ [(asid, granule)] })

/-- The host writes XLINV of the die of the input. -/
def State.hostXlinv (s : State) (i : Instr) (asid : Nat) (granule : Option Nat) : Host.Outcome State Fault Refusal :=
  if s.dieExists s.input.die = false then .next s
  else if s.frozen then .next (s.defer i)
  else .next (s.writeXlinv s.input.die asid granule)

/-- XLINV_GRANULE: the input's value is written with ALL = 0. -/
def execXlinvGranule (s : State) : Host.Outcome State Fault Refusal :=
  let v := s.input.value.toNat
  s.hostXlinv .xlinvGranule (bitsN v 63 48) (some (bitsN v 40 0))

/-- XLINV_ALL: the input's value is written with ALL = 1. -/
def execXlinvAll (s : State) : Host.Outcome State Fault Refusal := s.hostXlinv .xlinvAll (bitsN s.input.value.toNat 63 48) none

/-- An access under way used an entry that an invalidation names, a leaf of any size that covers the granule, or a batch translation unit
holds one (R122). -/
def State.usesEntry (s : State) (p : Nat × Option Nat) : Bool :=
  s.reqs.any (fun r => r.asid == p.1 && (match r.stage with | .translated _ => true | _ => false) &&
    (match p.2 with | none => true | some g => decide (r.addr / 2 ^ max r.leaf 16 = g * 65536 / 2 ^ max r.leaf 16))) ||
  s.cmds.any (fun c => c.asid == p.1 && c.stage == .active && decide (c.cursor < c.total) &&
    c.xl.any (fun e => match p.2 with
      | none => true
      | some g => decide (e.granule * 65536 / 2 ^ max e.lg 16 = g * 65536 / 2 ^ max e.lg 16)))

/-- INVALIDATION_COMPLETE: every access that used such an entry is done; BUSY reads 0. -/
def execInvalidationComplete (die : Nat) (s : State) : Host.Outcome State Fault Refusal :=
  let t := s.dieAt die
  if t.xlBusy = false ∨ s.frozen = true ∨ t.xlPending.any s.usesEntry = true then .next s
  else .next (s.updDie die (fun x => { x with xlBusy := false, xlPending := [] }))

/-! Cells. -/

/-- TOKEN_COUNT_TRIGGER (R77): the count has reached N; a swap of the patch is requested. -/
def execTokenCountTrigger (cell : Nat) (s : State) : Host.Outcome State Fault Refusal :=
  match s.instAt cell with
  | none => .next s
  | some i =>
    if (s.cell cell).trigDue = false ∨ s.sectorRuns (sectorOfCell cell) = false then .next s
    else .next ((s.updCell cell (fun c => { c with trigDue := false })).requestSwap i.id .plain)

/-- PHASE_ADVANCE (R57). -/
def execPhaseAdvance (site : Site) (s : State) : Host.Outcome State Fault Refusal :=
  let cell := site.cell.val
  let slot := site.slot.val
  let c := s.cell cell
  if c.phaseDone slot = false ∨ s.sectorRuns (sectorOfCell cell) = false then .next s
  else .next (s.updCell cell (fun x => x.nextPhase slot))

/-- REDUCTION_TIMEOUT (R408): one input of a `comb` has held a token while the other stayed empty for REDUS. -/
def execReductionTimeout (site : RouteSite) (s : State) : Host.Outcome State Fault Refusal :=
  let cell := site.cell.val
  let e := site.entry.val
  let w := ((s.cell cell).active.routeWord e).toNat
  match s.instAt cell with
  | none => .next s
  | some i =>
    if s.sectorRuns (sectorOfCell cell) = false ∨ s.held i = true ∨ i.parked = true ∨ s.recWaits cell e 1 = true then .next s else
    match ((s.cell cell).route e).late.or (s.combOut cell e) with
    | none => .next s
    | some emptyP =>
      let t := s.inHead cell (if emptyP then (bitsN w 43 41, bitsN w 40 36) else (bitsN w 35 33, bitsN w 32 28))
      let pay := poisonPayload 0x0A03 (s.nextSeq (some i.job))
      let r := s.recInst ((s.baseRec i.die (some i.job) 0x0A03 0 1).atCell cell e) i
      let r2 : FaultRec := { r with
        opw := BitVec.ofNat 64 w
        detail0 := BitVec.ofNat 64 ((if emptyP then 2 ^ 63 else 0) + (t.map Token.bits).getD 0) }
      .next ((s.pushClaimed r2).updCell cell (fun x => x.setRoute e { x.route e with timeout := some (emptyP, pay), late := none }))

end Sys2Proof.Machine
end

