-- ==== Sys2Proof/Machine/Fetch.lean ====
section
/-! DEFINITION. Sys2Proof/Machine/Fetch.lean: the instruction an agent takes next: the slot a PE fires (R52) under its phase (R57), a
route entry, a loader's next command (R65), a Pilot's word (R22). -/
namespace Sys2Proof.Machine
open Sys2Proof

/-- The operator word of a slot as its phase sees it (R57). -/
def Cell.slotWord (c : Cell) (slot : Nat) : BitVec 64 :=
  let w := (c.active.opWord slot).toNat
  let h := c.active.header slot
  if hdrNph h = 0 then BitVec.ofNat 64 w else
  let e := c.active.phaseEntry (hdrPtbase h + (c.slot slot).phase)
  BitVec.ofNat 64 (phOpc e * 2 ^ 56 + phTy e * 2 ^ 52 + w % 2 ^ 52)

/-- The instruction in a slot. -/
def State.slotInstr (s : State) (cell slot : Nat) : Option Instr :=
  if hc : cell < 32768 then
    if hs : slot < 16 then
      match decodeOperator ⟨⟨cell, hc⟩, ⟨slot, hs⟩⟩ ((s.cell cell).slotWord slot) with
      | .ok i => some i
      | .error _ => none
    else none
  else none

/-- The slot holds an enabled operator that is ready. -/
def State.slotReady (s : State) (cell slot : Nat) : Bool :=
  hdrEn ((s.cell cell).active.header slot) &&
  match s.slotInstr cell slot with
  | none => false
  | some i =>
    match operatorFields i with
    | some (opc, site, f) => s.ready opc site f
    | none => false

/-- The slot a PE fires: the first ready one from its pointer on, cyclically (R52). -/
def State.peSlot (s : State) (cell : Nat) : Option Nat :=
  ((List.range 16).map (fun k => ((s.cell cell).ptr + k) % 16)).find? (fun i => s.slotReady cell i)

/-- The instruction in a route entry. -/
def State.entryInstr (s : State) (cell e : Nat) : Option Instr :=
  if hc : cell < 32768 then
    if he : e < 32 then
      match decodeRoute ⟨⟨cell, hc⟩, ⟨e, he⟩⟩ ((s.cell cell).active.routeWord e) with
      | .ok i => some i
      | .error _ => none
    else none
  else none

end Sys2Proof.Machine
end

