-- ==== Sys2Proof/Machine/MatrixOps.lean ====
section
/-! DEFINITION. Sys2Proof/Machine/MatrixOps.lean: the matrix operators 0xA0 to 0xA3 (R258 to R270), the accumulator operators
0xA4 to 0xA7 (R271, R272), the reduction leaf and root 0xAC, 0xAD (R283, R284), and the events SLEW_STEP (R335) and
MATRIX_PRODUCT_COMPLETE (R266). -/
namespace Sys2Proof.Machine
open Sys2Proof

/-! Fields of a matrix operator (R259, R260). -/

def mmHA (imm : BitVec 16) : Nat := bitsN imm.toNat 15 11
def mmHB (imm : BitVec 16) : Nat := bitsN imm.toNat 10 6
def mmHS (imm : BitVec 16) : Nat := bitsN imm.toNat 5 1
def immBank (imm : BitVec 16) : Nat := imm.toNat % 2

/-- k per step (R260). -/
def mmKpc (t : Ty) : Nat := if t = .bf16x2 then 1 else if t = .gq4x8 then 4 else 2
/-- K shall be a multiple of this (R262). -/
def mmKmul (t : Ty) : Nat := if t = .gq4x8 then 64 else mmKpc t

/-- The skew of a cell at patch position (x, y) (R258, R268), and the greatest skew plus one. -/
def mmSkew (opc x y : Nat) : Nat := if opc = 0xA1 then x % 4 + y % 4 else x + y
def mmSpan (opc w h : Nat) : Nat := if opc = 0xA1 then 7 else w + h - 1

/-- The edge cells that feed a cell's A and B lanes (R258, R268). -/
def Inst.aCell (i : Inst) (opc x y : Nat) : Nat :=
  cellInSector i.sector (i.x0 + (if opc = 0xA1 then x / 4 * 4 else 0)) (i.y0 + y)
def Inst.bCell (i : Inst) (opc x y : Nat) : Nat :=
  cellInSector i.sector (i.x0 + x) (i.y0 + (if opc = 0xA1 then y / 4 * 4 else 0))
/-- Cells at the A edge and at the B edge (R261). -/
def Inst.aCells (i : Inst) (opc : Nat) : List Nat := i.cells.filter (fun c => aEdge opc (i.relX c))
def Inst.bCells (i : Inst) (opc : Nat) : List Nat := i.cells.filter (fun c => bEdge opc (i.relY c))

/-! The arithmetic of a step (R102, R103). -/

/-- The formats of A and B in FP8 mode (R102, R259). -/
def mmFmtA (f : OpFields) : Fmt := if f.ty = .e4m3x4 then fmtE4m3 else fmtE5m2
def mmFmtB (f : OpFields) : Fmt := if (f.ty == .e4m3x4) != f.mod.getLsbD 2 then fmtE4m3 else fmtE5m2

/-- A product of two exact values with its flags added. -/
def mulF (a b : Ex × Flags) : Ex × Flags :=
  let r := Ex.mul a.1 b.1
  (r.1, a.2 ||| b.2 ||| r.2)
/-- A sum of two exact values with its flags added. -/
def addF (a b : Ex × Flags) : Ex × Flags :=
  let r := Ex.add .rne a.1 b.1
  (r.1, a.2 ||| b.2 ||| r.2)

/-- A binary32 scale as an exact value. -/
def scaleVal (v : Nat) : Ex × Flags := (fval fmtF32 v, snanFlag fmtF32 v)

/-- The exact t of element (i, j) from the lane words of A and B and the scales (R102). -/
def mfuTerm (f : OpFields) (i j aw bw sa sb : Nat) : Ex × Flags :=
  if f.ty = .bf16x2 then
    let a := aw / 2 ^ (16 * i) % 65536
    let b := bw / 2 ^ (16 * j) % 65536
    mulF (fval fmtBf16 a, snanFlag fmtBf16 a) (fval fmtBf16 b, snanFlag fmtBf16 b)
  else if f.ty = .gq4x8 then
    let one := fun (q : Nat) =>
      mulF (gq4Value (aw / 2 ^ (4 * (4 * i + q)) % 16), flagNone) (gq4Value (bw / 2 ^ (4 * (4 * j + q)) % 16), flagNone)
    mulF (mulF (scaleVal sa) (scaleVal sb)) (addF (addF (addF (one 0) (one 1)) (one 2)) (one 3))
  else
    let one := fun (q : Nat) =>
      mulF (fval (mmFmtA f) (aw / 2 ^ (8 * (2 * i + q)) % 256), flagNone) (fval (mmFmtB f) (bw / 2 ^ (8 * (2 * j + q)) % 256), flagNone)
    addF (one 0) (one 1)

/-- One addition into an accumulator element, rounded once (R102). -/
def accAdd (acc : Word) (t : Ex × Flags) : Word × Flags :=
  let x := Ex.add .rne (fval fmtF32 acc.toNat) t.1
  let r := roundTo fmtF32 .rne false x.1
  (BitVec.ofNat 32 r.1, t.2 ||| x.2 ||| r.2 ||| snanFlag fmtF32 acc.toNat)

/-- The exact A element of a k of the step that lies q after the step's first (R270). -/
def mmAval (f : OpFields) (i q aw sa : Nat) : Ex × Flags :=
  if f.ty = .gq4x8 then mulF (scaleVal sa) (gq4Value (aw / 2 ^ (4 * (4 * i + q)) % 16), flagNone)
  else (fval (mmFmtA f) (aw / 2 ^ (8 * (2 * i + q)) % 256), flagNone)

/-! Operand reads (R263, R264, R114). -/

/-- Steps of a product, its passes one after the other (R269). -/
def Product.total (p : Product) : Nat := p.n * p.passes.length
/-- Ticks before the first operand read: the scales of the first GQ4 block move in them (R264). -/
def Product.lead (p : Product) : Nat := if p.f.ty = .gq4x8 then 8 else 0
/-- Waves of a product: one per step and skew, and one for the zeroing. -/
def Product.waves (p : Product) (i : Inst) : Nat := p.total + mmSpan p.opc i.w i.h
/-- Ticks of a product. -/
def Product.ticks (p : Product) (i : Inst) : Nat := p.lead + 4 + p.waves i

/-- A read of element `cur + e` of a handle of an edge cell, wrapping (R263, R107). -/
def State.edgeRead (s : State) (step what c hn cur e : Nat) : EdgeRead :=
  let h := (s.cell c).handle hn
  ⟨step, what, c, h.elem ((cur + e) % h.wrap), h.size, h.swz⟩

/-- The reads of step `st` of a product (R263, R269): the A word of each A-edge cell, the two B words of each B-edge cell. -/
def State.stepReads (s : State) (i : Inst) (p : Product) (st : Nat) : List EdgeRead :=
  match p.passes[st / p.n]? with
  | none => []
  | some (g, _, _) =>
    let e := st % p.n
    (i.aCells p.opc).map (fun c => s.edgeRead st 0 c (mmHA p.f.imm) (Map.get 0 p.curA c) e) ++
    (i.bCells p.opc).flatMap (fun c =>
      let cb := Map.get 0 p.curB c + 2 * (g * p.n + e)
      [s.edgeRead st 1 c (mmHB p.f.imm) cb 0, s.edgeRead st 2 c (mmHB p.f.imm) cb 1])

/-- The scale reads `k` ticks into the 8 before block b (R264): B scale k, and A scale k - 4. -/
def State.scaleReads (s : State) (i : Inst) (p : Product) (b k : Nat) : List EdgeRead :=
  (if 4 ≤ k then (i.aCells p.opc).map (fun c => s.edgeRead b (3 + (k - 4)) c (mmHS p.f.imm) (Map.get 0 p.curSA c) (4 * b + (k - 4))) else []) ++
  (i.bCells p.opc).map (fun c => s.edgeRead b (8 + k) c (mmHS p.f.imm + 1) (Map.get 0 p.curSB c) (8 * b + k))

/-- The reads of a tick. -/
def State.tickReads (s : State) (i : Inst) (p : Product) : List EdgeRead :=
  let t := p.tick - p.lead
  (if p.lead ≤ p.tick ∧ t < p.total then s.stepReads i p t else []) ++
  (if p.lead = 8 ∧ p.tick / 16 * 16 < p.total ∧ p.tick % 16 < 8 then s.scaleReads i p (p.tick / 16) (p.tick % 16) else [])

/-- The key of a latched word by edge cell, and of a scale by block (eight are under way at most, in the widest patch), cell and index. -/
def wordKey (c what : Nat) : Nat := 4 * c + what
def scaleKey (b c what : Nat) : Nat := (b % 8 * 32768 + c) * 16 + what

/-- Latches a word that has been read. -/
def Product.latch (p : Product) (r : EdgeRead) (v : Nat) : Product :=
  if 3 ≤ r.what then { p with scales := Map.set 0 p.scales (scaleKey r.step r.cell r.what) v }
  else
    { p with rows := p.rows.map (fun w => if w.step = r.step then { w with words := Map.set 0 w.words (wordKey r.cell r.what) v } else w) }

def State.updProduct (s : State) (id : Nat) (f : Product → Product) : State :=
  { s with products := s.products.map (fun p => if p.id = id then f p else p) }

/-- Asks the banks for a product's reads: those granted are latched, the others stay to do; none where a word is uncorrectable. -/
def State.doReads (s : State) (p : Product) (cyc : Nat) : List EdgeRead → List EdgeRead → Except (Nat × Nat) (State × Product)
  | [], left => .ok (s, { p with todo := left })
  | r :: rest, left =>
    let g := s.askBank r.cell 2 cyc r.swz r.off r.size
    if g.1 = false then (g.2.updCell r.cell (fun c => c.count 3 1)).doReads p cyc rest (left ++ [r])
    else if (s.cell r.cell).anyBad r.swz r.off r.size then .error (r.cell, r.off)
    else g.2.doReads (p.latch r ((s.cell r.cell).bytes r.swz r.off r.size)) cyc rest left

/-- What a cell needs for one step: the lane words and scales. -/
structure Lanes2 where
  aw : Nat
  bw : Nat
  sa : List Nat
  sb : List Nat

/-- The lane words and scales of step `st` as they pass a cell (R258, R264). -/
def Product.lanes (p : Product) (i : Inst) (x y st : Nat) : Lanes2 :=
  let ac := i.aCell p.opc x y
  let bc := i.bCell p.opc x y
  let w := ((p.rows.find? (fun r => r.step == st)).map LaneRow.words).getD []
  let b := st / 16
  ⟨Map.get 0 w (wordKey ac 0), Map.get 0 w (wordKey bc 1) + Map.get 0 w (wordKey bc 2) * 2 ^ 64,
    (List.range 4).map (fun k => Map.get 0 p.scales (scaleKey b ac (3 + k))),
    (List.range 8).map (fun k => Map.get 0 p.scales (scaleKey b bc (8 + k)))⟩

/-! Outliers of `mmo` (R270, R390). -/

/-- Scans a list from entry `i`: `lo ≤ KX < hi` are applied; the adder looks one entry ahead. -/
def State.outlierScan (s : State) (c hn k lo hi : Nat) : Nat → Nat → Nat → List (Nat × Nat × Nat) → Outliers
  | 0, i, _, _ => .bad i
  | n + 1, i, prev, acc =>
    let t := s.cell c
    let h := t.handle hn
    let off := h.elem i
    if t.anyBad h.swz off 4 then .unread off else
    let v := t.bytes h.swz off 4
    if v = 0xFFFFFFFF then .apply acc
    else
      let kx := bitsN v 15 3
      if kx ≥ k ∨ kx < prev then .bad i
      else if kx ≥ hi then .apply acc
      else s.outlierScan c hn k lo hi n (i + 1) kx (if lo ≤ kx then acc ++ [(kx, v % 8, v / 65536)] else acc)

/-- The outliers of a column for step e. -/
def State.outliers (s : State) (i : Inst) (p : Product) (x e : Nat) : Outliers :=
  if p.opc ≠ 0xA3 then .apply [] else
  let bc := i.bCell p.opc x 0
  let hn := mmHB p.f.imm + 1
  let h := (s.cell bc).handle hn
  let kpc := mmKpc p.f.ty
  s.outlierScan bc hn p.kEls (kpc * e) (kpc * (e + 1)) ((h.rows + 1) * (h.cols + 1)) 0 0 []

/-- The side adder takes up step e: the outliers of every column travel with it. -/
def State.latchOuts (s : State) (i : Inst) (p : Product) (e : Nat) : Product :=
  if p.opc ≠ 0xA3 then p else
  { p with rows := p.rows.map (fun w => if w.step = e then
      { w with outs := (List.range i.w).map (fun x => (x, s.outliers i p x e)) } else w) }

/-- The outliers that travel with a step in a column. -/
def Product.outsAt (p : Product) (x st : Nat) : Outliers :=
  match p.rows.find? (fun r => r.step == st) with
  | some r => Map.get (.apply []) r.outs x
  | none => .apply []

/-- The extra cycles of step e: one outlier a cycle and column (R270). -/
def Product.outlierStall (p : Product) (i : Inst) (e : Nat) : Nat :=
  if p.opc ≠ 0xA3 then 0 else
  (List.range i.w).foldl (fun m x =>
    match p.outsAt x e with
    | .apply l => max m (l.length - 1)
    | _ => m) 0

/-! One wave. -/

/-- A fault a wave meets: code, level, details 0 and 1. -/
abbrev WaveFault := Nat × Nat × Nat × Nat

/-- One element's step, its outliers included. -/
def mmElement (p : Product) (L : Lanes2) (outs : List (Nat × Nat × Nat)) (e i j : Nat) (acc : Word) : Word × Flags :=
  let r := accAdd acc (mfuTerm p.f i j L.aw L.bw (L.sa.getD i 0) (L.sb.getD j 0))
  (outs.filter (fun o => o.2.1 == j)).foldl (fun (a : Word × Flags) o =>
    let q := o.1 - mmKpc p.f.ty * e
    let t := mulF (mmAval p.f i q L.aw (L.sa.getD i 0)) (fval fmtBf16 o.2.2, snanFlag fmtBf16 o.2.2)
    let r2 := accAdd a.1 t
    (r2.1, a.2 ||| r2.2)) r

/-- The step of one cell: rows outside the group's range are not updated (R269); its flags are those of the result cycle (R93). -/
def Cell.mmStep (c : Cell) (p : Product) (L : Lanes2) (outs : List (Nat × Nat × Nat)) (e y lo hi cyc : Nat) : Cell :=
  let bank := immBank p.f.imm
  let r := (List.range 32).foldl (fun (a : Cell × Flags) k =>
    let row := p.wb + 4 * y + k / 8
    if p.opc = 0xA2 ∧ (row < lo ∨ hi ≤ row) then a else
    let v := mmElement p L outs e (k / 8) (k % 8) (a.1.acc bank k)
    (a.1.setAcc bank k v.1, a.2 ||| v.2)) (c, flagNone)
  r.1.raiseAt cyc r.2

/-- The record of an uncorrectable edge word (R358). -/
def badWordFault (s : State) (c off : Nat) : WaveFault :=
  (0x0D02, if (s.cell c).tagged 0 off then 1 else 0, off % 32768 + Config.syndrome s.draws % 256 * 65536, 0)

/-- What wave t does in one cell: the zeroing of `.z`, or a step (R266). -/
def State.waveCell (s : State) (i : Inst) (p : Product) (t c : Nat) : Except WaveFault State :=
  let x := i.relX c
  let y := i.relY c
  let k := mmSkew p.opc x y
  if t < k then .ok s
  else if t = k then
    if p.f.mod.getLsbD 3 then .ok (s.updCell c (fun u => u.zeroBank (immBank p.f.imm))) else .ok s
  else
    let step := t - 1 - k
    if p.total ≤ step then .ok s else
    let e := step % p.n
    match p.passes[step / p.n]? with
    | none => .ok s
    | some (_, lo, hi) =>
      match p.outsAt x step with
      | .unread off => .error (badWordFault s (i.bCell p.opc x y) off)
      | .bad idx =>
        let bc := i.bCell p.opc x y
        let hn := mmHB p.f.imm + 1
        let h := (s.cell bc).handle hn
        .error (0x030A, 1, 5 * 2 ^ 61 + 7 * 2 ^ 58 + h.elem idx % 32768, hn * 2 ^ 40 + x % 32 * 65536 + idx % 8192)
      | .apply outs => .ok (s.updCell c (fun u => u.mmStep p (p.lanes i x y step) outs e y lo hi p.nextAt))

/-- A wave over the cells of the patch: it stops at the first fault, nothing of it done (R390: the array stops). -/
def State.wave (s : State) (i : Inst) (p : Product) (t : Nat) : List Nat → Except WaveFault State
  | [] => .ok s
  | c :: r =>
    match s.waveCell i p t c with
    | .error e => .error e
    | .ok s1 => s1.wave i p t r

/-- A product stops at a fault; its instance is held (R358, R390). One of a retired instance ends (R40). -/
def State.productFault (s : State) (i : Inst) (p : Product) (e : WaveFault) : State :=
  if i.retired then { s with products := s.products.filter (fun q => q.id != p.id) } else
  let s1 := s.updProduct p.id (fun q => { q with failed := true })
  let r := (s.baseRec i.die (some i.job) e.1 e.2.1 0).atCell p.cell p.slot
  let r2 : FaultRec := { r with
    opw := (s.cell p.cell).active.opWord p.slot
    subok := e.2.1 == 0 && p.f.dst != .none
    detail0 := BitVec.ofNat 64 e.2.2.1
    detail1 := BitVec.ofNat 64 e.2.2.2 }
  s1.takeFault i .request r2 [(p.cell, p.slot)]

/-- The whole array of an instance stands still for some cycles (R266). -/
def State.stallArray (s : State) (inst cyc n : Nat) : State :=
  if n = 0 then s else
  { s with products := s.products.map (fun p =>
      if p.inst = inst ∧ p.started = true ∧ cyc ≤ p.nextAt then { p with nextAt := p.nextAt + n } else p) }

/-- The rest of a tick once its reads are in: the outliers of the step that begins at cell (0, 0), the wave, the stall that follows. -/
def State.endTick (s : State) (i : Inst) (p : Product) : State :=
  let e := p.tick - p.lead - 2
  let begins := decide (p.lead + 2 ≤ p.tick) && decide (e < p.total)
  let p1 := if begins then s.latchOuts i p e else p
  let go : Except WaveFault State := if p.tick < p.lead + 4 then .ok s else s.wave i p1 (p.tick - p.lead - 4) i.cells
  match go with
  | .error f => (s.updProduct p.id (fun _ => p1)).productFault i p1 f
  | .ok s1 =>
    let stall := if begins then p1.outlierStall i (e % p.n) else 0
    let s2 := s1.updProduct p.id (fun _ => { p1 with
      tick := p1.tick + 1
      nextAt := p1.nextAt + 1
      rows := p1.rows.take (mmSpan p1.opc i.w i.h + 6) })
    s2.stallArray i.id p1.nextAt stall

/-- One tick of a product (R266): its reads are asked for; while one is not granted, the whole array stands still. -/
def State.doTick (s : State) (i : Inst) (p : Product) : State :=
  let fresh := p.todo.isEmpty
  let reads := if fresh then s.tickReads i p else p.todo
  let p0 := if fresh ∧ p.lead ≤ p.tick ∧ p.tick - p.lead < p.total then { p with rows := ⟨p.tick - p.lead, [], []⟩ :: p.rows } else p
  match s.doReads p0 p.nextAt reads [] with
  | .error (c, off) => s.productFault i p (badWordFault s c off)
  | .ok (s1, p1) =>
    if p1.todo.isEmpty then s1.endTick i p1
    else
      (s1.updProduct p.id (fun _ => p1)).stallArray i.id p.nextAt 1

/-- A product runs, or waits to: no placeholder of a suppressed one. -/
def Product.real (p : Product) : Bool := p.kind == .data || p.kind == .last

/-- The cycle of a product's first tick (R264, R267): T0 is 2 cycles after it, 10 for GQ4. T0 is no earlier than the cycle after the last
step of the product before it at cell (0, 0), which counts with the array's own stalls; none while that is not fixed. -/
def Product.firstTick (p : Product) (prev : Option Product) : Option Nat :=
  let own := p.earliest - 2 - p.lead
  match prev with
  | none => some own
  | some q =>
    let mark : Int := (q.lead : Int) + q.total - p.lead
    if q.started && q.real && !q.failed && decide (mark ≤ q.tick) then some (max own ((q.nextAt : Int) + mark - q.tick).toNat) else none

/-- Starts every granted product whose first tick has a cycle. -/
def State.startProducts (s : State) : State :=
  if s.products.isEmpty then s else
  { s with products := (s.products.foldl (fun (acc : List Product × List Product) p =>
      let p' := if p.granted && !p.started then
          match p.firstTick (acc.2.find? (fun q => q.inst == p.inst)) with
          | some k => { p with started := true, nextAt := k }
          | none => p
        else p
      (acc.1 ++ [p'], p' :: acc.2)) ([], [])).1 }

/-- The earliest tick due at the present: its product. -/
def State.dueTick (s : State) : Option (Inst × Product) :=
  s.products.foldl (fun best p =>
    match s.inst p.inst with
    | none => best
    | some i =>
      if p.started && !(s.products.any (fun q => q.inst == p.inst && q.failed)) && decide (p.tick < p.ticks i) && decide (p.nextAt ≤ s.cycle i.sector) then
        match best with
        | none => some (i, p)
        | some (_, q) => if p.nextAt < q.nextAt then some (i, p) else best
      else best) none

/-- Settles products and results in flight up to the present: the results of a cell of a patch up to the cycle before a tick, then
the tick. -/
def State.settleTicks (s : State) : Nat → State
  | 0 => s
  | n + 1 =>
    let s1 := s.startProducts
    match s1.dueTick with
    | none => s1
    | some (i, p) =>
      let s2 := i.cells.foldl (fun (a : State) c =>
        let fl := (a.cell c).flight
        if fl.isEmpty then a else a.settleCell c (p.nextAt - 1) 0 (settleFuel fl.length)) s1
      (s2.doTick i ((s2.products.find? (fun q => q.id == p.id)).getD p)).settleTicks n

/-- Everything that has come due at the present. -/
def State.settleAll (s : State) : State :=
  let fuel := s.products.foldl (fun m p => m + (4 * p.total + 128)) 0
  ((if s.products.isEmpty then s else s.settleTicks fuel)).settle

/-! Firing. -/

/-- The offset vector of `mmg` (R269): G + 1 elements of HS in cell (0, 0). -/
def State.mmgOffsets (s : State) (cell : Nat) (f : OpFields) : List Nat :=
  let t := s.cell cell
  let h := t.handle (mmHS f.imm)
  (List.range ((h.rows + 1) * (h.cols + 1))).map (fun g => t.bytes h.swz (h.elem g) 4)

/-- The rows M of the concatenated matrix (R269). -/
def mmgRows (b : Word) : Nat := if b.toNat % 65536 = 0 then 65536 else b.toNat % 65536

/-- The first g with off[g] > off[g + 1]. -/
def firstFall : Nat → List Nat → Option (Nat × Nat × Nat)
  | g, a :: b :: r => if a > b then some (g, a, b) else firstFall (g + 1) (b :: r)
  | _, _ => none

/-- The faults of a matrix operator at its firing (R262, R389, R358). -/
def preMatrix (opc : Nat) (s : State) (F : Firing) : Option FireFault :=
  if !F.works then none else
  let k := F.a.toNat
  let n := k / mmKpc F.f.ty
  if k % mmKmul F.f.ty ≠ 0 ∨ 65536 < n ∨ (opc = 0xA3 ∧ 8192 < k) then
    some ⟨0x0203, 0, F.hasDst, k + tyCode F.f.ty * 2 ^ 32, 0⟩
  else if opc = 0xA2 then
    let t := s.cell F.cell
    let h := t.handle (mmHS F.f.imm)
    let off := s.mmgOffsets F.cell F.f
    match ((List.range off.length).map h.elem).find? (fun o => t.anyBad h.swz o 4) with
    | some o => some ⟨0x0D02, if t.anyTagged h.swz o 4 then 1 else 0, F.hasDst, o % 32768 + Config.syndrome s.draws % 256 * 65536, 0⟩
    | none =>
      match firstFall 0 off with
      | some (g, a, b) => some ⟨0x0430, 0, F.hasDst, g + a * 2 ^ 32, b⟩
      | none =>
        if off.getLastD 0 > mmgRows F.b then
          some ⟨0x0431, 0, F.hasDst, (off.length - 1) + off.getLastD 0 * 2 ^ 32, mmgRows F.b⟩
        else none
  else none

/-- The passes of a product: one over every row, or those of `mmg` (R269). -/
def State.mmPasses (s : State) (F : Firing) (opc : Nat) : List (Nat × Nat × Nat) :=
  if opc ≠ 0xA2 then [(0, 0, 0)] else
  let off := s.mmgOffsets F.cell F.f
  let wb := F.b.toNat / 65536
  (List.range (off.length - 1)).filterMap (fun g =>
    let lo := off.getD g 0
    let hi := off.getD (g + 1) 0
    if lo < hi ∧ lo < wb + 4 * F.inst.h ∧ wb < hi then some (g, lo, hi) else none)

/-- The cursors of a handle in some cells. -/
def State.cursors (s : State) (cs : List Nat) (hn : Nat) : Map Nat :=
  cs.foldl (fun (m : Map Nat) c => Map.put m c ((s.cell c).handle hn).cur) []
/-- Advances a handle's cursor in some cells. -/
def State.advanceAll (s : State) (cs : List Nat) (hn k : Nat) : State :=
  if k = 0 then s else cs.foldl (fun (a : State) c => a.updCell c (fun t => t.advance hn k)) s

/-- Starts a product: cursors latched and advanced at issue (R263, R264, R269); it waits for its grant (R335). -/
def State.startProduct (s : State) (F : Firing) (opc : Nat) : State :=
  let i := F.inst
  let n := F.a.toNat / mmKpc F.f.ty
  let gq := decide (F.f.ty = .gq4x8)
  let groups := if opc = 0xA2 then (s.mmgOffsets F.cell F.f).length - 1 else 1
  let ac := i.aCells opc
  let bc := i.bCells opc
  let (id, s0) := s.fresh
  let p : Product := {
    id := id, inst := i.id, cell := F.cell, slot := F.slot, opc := opc, f := F.f, kEls := F.a.toNat, n := n,
    earliest := F.cyc + F.late + (if gq then 11 else 3), granted := false, started := false, tick := 0, nextAt := 0,
    passes := s.mmPasses F opc, wb := F.b.toNat / 65536,
    curA := s.cursors ac (mmHA F.f.imm), curB := s.cursors bc (mmHB F.f.imm),
    curSA := if gq then s.cursors ac (mmHS F.f.imm) else [], curSB := if gq then s.cursors bc (mmHS F.f.imm + 1) else [],
    kind := F.kind, pay := 0, deps := F.deps, todo := [], rows := [], scales := [], failed := false }
  let s1 := (s0.advanceAll ac (mmHA F.f.imm) n).advanceAll bc (mmHB F.f.imm) (2 * groups * n)
  let s2 := if gq then (s1.advanceAll ac (mmHS F.f.imm) (4 * (n / 16))).advanceAll bc (mmHS F.f.imm + 1) (8 * (n / 16)) else s1
  { s2 with products := s2.products ++ [p] }

/-- A suppressed product: its token, of the kind of R44 with payload 0 (R262), behind the products of its slot (R53). Where no
token leaves, what is absorbed is the POISON's own payload (R375). -/
def State.noProduct (s : State) (F : Firing) (opc : Nat) : State :=
  let pay := match F.f.dst with | .out _ => 0 | _ => F.pay
  if s.products.any (fun p => p.cell == F.cell && p.slot == F.slot) then
    let (id, s0) := s.fresh
    { s0 with products := s0.products ++ [{
        id := id, inst := F.inst.id, cell := F.cell, slot := F.slot, opc := opc, f := { F.f with mod := 0 }, kEls := 0, n := 0,
        earliest := F.cyc, granted := true, started := true, tick := 16 + mmSpan opc F.inst.w F.inst.h, nextAt := F.cyc + 1,
        passes := [], wb := 0, curA := [], curB := [], curSA := [], curSB := [], kind := F.kind, pay := pay,
        deps := F.deps, todo := [], rows := [], scales := [], failed := false }] }
  else s.result F F.kind pay flagNone 1

/-- The firing of a matrix operator. -/
def State.fireMatrix (s : State) (opc : Nat) (site : Site) (f : OpFields) : Host.Outcome State Fault Refusal :=
  s.fire opc site f (preMatrix opc) (fun s1 F =>
    let s2 := s1.begin F
    match F.kind with
    | .poison => s2.noProduct F opc
    | .done => s2.noProduct F opc
    | _ => s2.startProduct F opc)

/-- `mm` (R265). -/
def execMm (site : Site) (f : OpFields) (s : State) : Host.Outcome State Fault Refusal := s.fireMatrix 0xA0 site f
/-- `mmb` (R268). -/
def execMmb (site : Site) (f : OpFields) (s : State) : Host.Outcome State Fault Refusal := s.fireMatrix 0xA1 site f
/-- `mmg` (R269). -/
def execMmg (site : Site) (f : OpFields) (s : State) : Host.Outcome State Fault Refusal := s.fireMatrix 0xA2 site f
/-- `mmo` (R270). -/
def execMmo (site : Site) (f : OpFields) (s : State) : Host.Outcome State Fault Refusal := s.fireMatrix 0xA3 site f

/-! Accumulator operators. -/

/-- A completion token of payload 0 for a firing's own destination. -/
def State.completion (s : State) (F : Firing) (lat : Nat) : State :=
  match F.f.dst with
  | .out n => s.emitToken F n.val F.kind 0 lat
  | _ => s

/-- `accz` (R271). -/
def execAccz (site : Site) (f : OpFields) (s : State) : Host.Outcome State Fault Refusal :=
  s.fire 0xA4 site f noFault (fun s1 F => s1.unlessSuppressed F (fun s2 =>
    (s2.fly F (.accZero (immBank f.imm)) 0 1 flagNone none).completion F 1))
/-- `accrd` (R271). -/
def execAccrd (site : Site) (f : OpFields) (s : State) : Host.Outcome State Fault Refusal :=
  s.fire 0xA5 site f noFault (fun s1 F => s1.unlessSuppressed F (fun s2 =>
    let bf := decide (f.ty = .bf16x2)
    let p := if bf then 2 * (F.a.toNat % 16) else F.a.toNat % 32
    s2.lateResult F F.kind 2 (.acc F.cell (F.cyc + 2 + F.late + F.deal) (immBank f.imm) p bf f.mod)))

/-- The handle elements of an accumulator operator: offsets of element (i, j). -/
def accOffsets (h : Handle) : List Nat := (List.range 32).map (fun p => h.offset (p / 8) (p % 8))

/-- The fault of `accst`: a tagged word (R392). -/
def preAccst (s : State) (F : Firing) : Option FireFault :=
  if !F.works then none else
  let c := s.cell F.cell
  let h := c.handle (immHandle F.f.imm.toNat)
  match (accOffsets h).find? (fun o => c.anyTagged h.swz o h.size) with
  | some o => some ⟨0x0707, 0, F.hasDst, c.bytes h.swz (o / 8 * 8) 8, o % 32768 * 2 ^ 32⟩
  | none => none
/-- The fault of `accld`: an uncorrectable word (R358). -/
def preAccld (s : State) (F : Firing) : Option FireFault :=
  if !F.works then none else
  let c := s.cell F.cell
  let h := c.handle (immHandle F.f.imm.toNat)
  match (accOffsets h).find? (fun o => c.anyBad h.swz o 4) with
  | some o =>
    let lvl := if c.anyTagged h.swz o 4 then 1 else 0
    some ⟨0x0D02, lvl, lvl == 0 && F.hasDst, o % 32768 + Config.syndrome s.draws % 256 * 65536, 0⟩
  | none => none

/-- The distinct words of row i of an accumulator operator's fragment. -/
def accRowWords (h : Handle) (i : Nat) : List Nat := ((List.range 8).flatMap (fun j => accessWords h.swz (h.offset i j) h.size)).eraseDups

/-- The accesses of `accst` and `accld`: those of row i of the fragment take their banks in cycle F + 3 + i, or later where these do not grant them,
which lengthens L (R271, R114); each word is one access. Every element is acted on behind the last of them, in the result cycle (R272). -/
def State.accFlights (s : State) (F : Firing) (h : Handle) (d : ResDst) : State :=
  let asks := (List.range 4).flatMap (fun i => (accRowWords h i).map (fun w => (i, w)))
  (asks.foldl (fun (a : State) e => a.fly F (.ask [e.2]) 0 (3 + e.1) flagNone none) s).fly F d 0 6 flagNone none

/-- `accst` (R271). -/
def execAccst (site : Site) (f : OpFields) (s : State) : Host.Outcome State Fault Refusal :=
  s.fire 0xA6 site f preAccst (fun s1 F => s1.unlessSuppressed F (fun s2 =>
    let h := (s1.cell F.cell).handle (immHandle f.imm.toNat)
    (s2.accFlights F h (.accStore (immBank f.imm) h.base h.pitch h.swz h.esz f.mod)).completion F 6))
/-- `accld` (R271). -/
def execAccld (site : Site) (f : OpFields) (s : State) : Host.Outcome State Fault Refusal :=
  s.fire 0xA7 site f preAccld (fun s1 F => s1.unlessSuppressed F (fun s2 =>
    let h := (s1.cell F.cell).handle (immHandle f.imm.toNat)
    (s2.accFlights F h (.accLoad (immBank f.imm) h.base h.pitch h.swz (modB2 f))).completion F 6))

/-! Reductions. -/

/-- The exponent E of IMM16 (R283). -/
def redE (f : OpFields) : Int := (BitVec.ofNat 9 f.imm.toNat).toInt

/-- An exact value times 2^k. -/
def scalePow (x : Ex) (k : Int) : Ex :=
  if 0 ≤ k then (Ex.mul x (Ex.ofInt (2 ^ k.toNat))).1 else (Ex.mul x (.fin false 1 (2 ^ (-k).toNat))).1

/-- `redp` EXACT: q as a 64-bit pattern with its flag, or none on overflow (R283, R407). -/
def redQuantum (e : Int) (a : Word) : Option (BitVec 64) × Flags :=
  match scalePow (fval fmtF32 a.toNat) (-e) with
  | .fin neg num den =>
    let m := rintMag neg num den .rne
    let q : Int := if neg then -(m : Int) else m
    if q < -(2 ^ 63 : Int) ∨ q ≥ 2 ^ 63 then (none, flagNone)
    else (some (BitVec.ofInt 64 q), if m * den = num then flagNone else flagNX)
  | _ => (none, flagNone)

/-- The record of a reduction overflow: a report that holds nothing (R407). -/
def State.redOverflow (s : State) (F : Firing) (d0 : BitVec 64) : State :=
  let r := s.recInst ((s.baseRec F.inst.die (some F.inst.job) 0x0A01 0 0).atCell F.cell F.slot) F.inst
  s.pushClaimed { r with opw := (s.cell F.cell).active.opWord F.slot, detail0 := d0 }

/-- `redp` (R283). -/
def execRedp (site : Site) (f : OpFields) (s : State) : Host.Outcome State Fault Refusal :=
  let exact := decide (f.mod.toNat % 4 = 1)
  s.fire 0xAC site f noFault (fun s1 F =>
    let s2 := s1.begin F
    match F.kind with
    | .done => s2.result F .done F.pay flagNone 1
    | .poison =>
      let s3 := s2.result F .poison F.pay flagNone 1
      if exact then s3.result F .poison F.pay flagNone 2 else s3
    | k =>
      if exact then
        match redQuantum (redE f) F.a with
        | (some q, fl) =>
          (s2.result F .data (BitVec.ofNat 32 q.toNat) (fl ||| F.flags) 1).result F k (BitVec.ofNat 32 (q.toNat / 2 ^ 32)) flagNone 2
        | (none, _) =>
          let pay := poisonPayload 0x0A01 (s2.nextSeq (some F.inst.job))
          ((s2.redOverflow F (BitVec.ofNat 64 F.a.toNat)).result F .poison pay F.flags 1).result F .poison pay flagNone 2
      else if f.mod.toNat % 4 = 0 ∧ fmtF32.isNan F.a.toNat = true then
        s2.result F k (0x7FC00000) (snanFlag fmtF32 F.a.toNat ||| F.flags) 1
      else s2.result F k F.a F.flags 1)

/-- `redw` (R284): in EXACT the low word is held in V, with N = 1 while one is held (log 79) and F where it is a POISON; a DONE is passed
on with its payload. -/
def execRedw (site : Site) (f : OpFields) (s : State) : Host.Outcome State Fault Refusal :=
  let exact := decide (f.mod.toNat % 4 = 1)
  s.fire 0xAD site f noFault (fun s1 F =>
    let s2 := s1.begin F
    let st := (s1.cell F.cell).slot F.slot
    let put := fun (x : State) (v : Word) (held : Nat) (bad : Bool) =>
      x.updCell F.cell (fun c => c.setSlot F.slot { c.slot F.slot with v := v, n := held, f := bad })
    match F.kind with
    | .done => (put s2 0 0 false).result F .done F.donePay flagNone 3
    | .poison =>
      if exact then
        if st.n = 1 then (put s2 0 0 false).result F .poison (if st.f then st.v else F.pay) flagNone 3 else put s2 F.pay 1 true
      else s2.result F .poison F.pay flagNone 3
    | k =>
      if exact then
        if st.n = 1 then
          if st.f then (put s2 0 0 false).result F .poison st.v flagNone 3
          else
            let q := BitVec.ofNat 64 (F.a.toNat * 2 ^ 32 + st.v.toNat)
            let r := if q = 0 then (0, flagNone) else roundTo fmtF32 .rne false (scalePow (Ex.ofInt q.toInt) (redE f))
            (put s2 0 0 false).result F k (BitVec.ofNat 32 r.1) (r.2 ||| F.flags) 3
        else put s2 F.a 1 false
      else s2.result F k F.a F.flags 3)

/-! Events. -/

/-- Cells occupied by granted products (R335): those of one patch once, however many of its products overlap. -/
def State.slewA (s : State) (k : Nat) : Nat :=
  s.insts.foldl (fun n i =>
    if i.sector = k ∧ s.products.any (fun p => p.inst == i.id && p.granted && p.real) = true then n + i.w * i.h else n) 0

/-- Grants waiting products in order while they fit under C, no bypass: the list, A and L (R335). `on` are the instances whose cells
are occupied. -/
def State.slewGrant (s : State) (k b c : Nat) (a l : Nat) (blocked : Bool) (on : List Nat) : List Product → List Product × Nat × Nat × Bool
  | [] => ([], a, l, blocked)
  | p :: r =>
    match s.inst p.inst with
    | none => let q := s.slewGrant k b c a l blocked on r; (p :: q.1, q.2)
    | some i =>
      if i.sector ≠ k ∨ p.granted = true ∨ b < p.earliest - (if p.f.ty = .gq4x8 then 11 else 3) then
        let q := s.slewGrant k b c a l blocked on r; (p :: q.1, q.2)
      else
        let n := if on.contains i.id then 0 else i.w * i.h
        if blocked = false ∧ a + n ≤ c then
          let q := s.slewGrant k b c (a + n) (max l (a + n)) false (i.id :: on) r
          ({ p with granted := true, earliest := max p.earliest b } :: q.1, q.2)
        else
          let q := s.slewGrant k b c a l true on r; (p :: q.1, q.2)

/-- The step at one boundary (R335). -/
def State.slewOnce (s : State) (k b : Nat) : State :=
  let d := s.dieAt (dieOfSector k)
  let t := s.sector k
  let cbase := bitsN d.rampctl.toNat 25 16
  let dstep := bitsN d.rampctl.toNat 9 0
  let a := s.slewA k
  let l := if dstep = 0 then a else max a (t.slewL - dstep)
  let g := s.slewGrant k b t.slewC a l false
    ((s.products.filter (fun p => p.granted && p.real)).map Product.inst) s.products
  let c := if g.2.2.2 then min 512 (t.slewC + bitsN (Map.get 512 d.ramp (min t.slewI 15)).toNat 9 0) else max cbase g.2.2.1
  ({ s with products := g.1 }).updSector k (fun u => { u with
    slewL := g.2.2.1
    slewC := c
    slewI := if g.2.2.2 then u.slewI + 1 else 0
    slewAt := b + 4 })

/-- SLEW_STEP: the limiter of a sector acts at each step boundary that has come, every 4 cycles of its clock (R335). -/
def execSlewStep (sector : Nat) (s : State) : Host.Outcome State Fault Refusal :=
  let t := s.sector sector
  let cyc := s.cycle sector
  if s.sectorRuns sector = false ∨ cyc < t.slewAt then .next s
  else .next ((List.range ((cyc - t.slewAt) / 4 + 1)).foldl (fun (a : State) j => a.slewOnce sector (t.slewAt + 4 * j)) s)

/-- MATRIX_PRODUCT_COMPLETE: the token of a product leaves once every element is final and there is room (R266, R51); that of a
retired instance is discarded (R40). -/
def execMatrixProductComplete (product : Nat) (s : State) : Host.Outcome State Fault Refusal :=
  match s.products.find? (fun p => p.id == product) with
  | none => .next s
  | some p =>
    match s.inst p.inst with
    | none => .next s
    | some i =>
      let first := (s.products.find? (fun q => q.inst == p.inst)).any (fun q => q.id == product)
      if !p.started || p.failed || decide (p.tick < p.ticks i) || decide (s.cycle i.sector < p.nextAt) || !first ||
          !s.sectorRuns i.sector then .next s
      else
        let s1 := ({ s with products := s.products.filter (fun q => q.id != product) } : State).updInst i.id (fun x => { x with lastActive := s.dev })
        match p.f.dst with
        | .out n =>
          if i.retired then .next s1
          else if s1.outRoom p.cell n.val 1 then
            .next (s1.sendOut i p.cell p.cell 0 n.val p.deps [(p.kind, p.pay)])
          else .next s
        | _ =>
          .next (if p.kind = .poison then s1.absorb p.cell p.slot 0 p.pay else s1)

end Sys2Proof.Machine
end

