-- ==== Sys2Proof/Machine/ReissueOps.lean ====
section
/-! DEFINITION. Sys2Proof/Machine/ReissueOps.lean: what the handler's actions do to a faulting firing or request: RESUME reissues it, SUBST
completes it with a value (R354, R372, R373, R380), and a restore reissues what a context saved (R169, R172, R355). -/
namespace Sys2Proof.Machine
open Sys2Proof

/-- Reissues a request from its entry, with the operands it had (R380, R169): at its unit, or at its word if that lies in the cell. -/
def State.reissue (s : State) (id : Nat) : State :=
  match s.req id with
  | none => s
  | some r =>
    let goTo := fun (a : State) (st : ReqStage) => a.updReq id (fun q => { q with stage := st, sentAt := a.dev, hops := 0, hopAt := a.now })
    match r.body with
    | .fence _ _ _ _ => goTo s .waiting
    | .sflush ws => if s.pairsDone ws then s.answer id 0 else goTo s .waiting
    | .copyw ws =>
      let rest := ws.filter (fun w => (s.cmd w).isSome || (s.dieAt (dieOfCell r.cell)).frames.any (fun f => f.saves.any (fun v => v.faulted &&
        match v.item with | .cmd c => c.id == w | _ => false)))
      (goTo s (if rest.isEmpty then .answered else .waiting)).updReq id (fun q => { q with body := .copyw rest })
    | .rrpop => (goTo s .waiting).serveRouting (sectorOfCell r.cell) 64
    | .grammar _ => goTo s .waiting
    | .engine _ => goTo s .answered
    | b =>
      if r.loc && b.isRemote then
        match s.syncOp r.wordAt b with
        | .done pay s1 => s1.answer id pay
        | .wait => goTo s .waiting
        | .fault code => s.faultReq r code 0 0 (s.syncWord r.wordAt) (b.operandA + r.wordAt.off % 32768 * 2 ^ 32)
      else goTo s .issued

/-- The firing of a slot that a handler completes: what it consumes, its destination's cursor and the kind of its result (R44 over the
consumed operands that are not DONE, R372). Cursors advance as at issue (R354). -/
def State.heldFiring (s : State) (cell slot : Nat) : Option (Firing × State) :=
  match s.instAt cell, (s.instAt cell).bind (fun i => s.feed i cell slot), (s.slotInstr cell slot).bind operatorFields with
  | some i, some fd, some (opc, site, f0) =>
    let nd := s.slotNeeds opc site f0
    let f := nd.1
    let srcs := [f.sa, f.sb, f.sc]
    let src := s.cell fd.src
    let toks := srcs.filterMap src.headOf
    let cons := srcs.filterMap (fun x => match srcChan x, src.headOf x with
      | some (n, true), some t => some (n, t)
      | _, _ => none)
    let vals := (cons.map (fun e => e.2)).filter (fun t => t.kind != .done)
    let kind : Kind :=
      if toks.any (fun t => t.kind == .poison) then .poison
      else if vals.any (fun t => t.kind == .last) then .last else .data
    let s1 := srcs.foldl (fun (a : State) x => match x with
      | .handle n => a.updCell cell (fun c => c.advance n.val 1)
      | _ => a) s
    let s2 := match nd.2.cursor with
      | some (n, k) => if kind = .poison then s1 else s1.updCell cell (fun c => c.advance n k)
      | none => s1
    let moved : Nat × State := match f.dst with
      | .handle n =>
        let h := (s2.cell cell).handle n.val
        (h.elem h.cur, s2.updCell cell (fun c => c.advance n.val 1))
      | _ => (0, s2)
    some ({
      cell := cell, slot := slot, feed := fd, inst := i, f := f, a := 0, b := 0, c := 0, ta := src.headOf f.sa, tb := src.headOf f.sb,
      tc := src.headOf f.sc, kind := kind, pay := 0, flags := flagNone, late := 0, cons := cons,
      deps := toks.foldl (fun l t => mergeDeps l t.deps) [], elem := 0, dstOff := moved.1, cyc := s.cycle (sectorOfCell cell) }, moved.2)
  | _, _, _ => none

/-- SUBST of a PE firing (R354): it consumes its operands and its result is the value. -/
def State.substFiring (s : State) (cell slot : Nat) (v : Word) : State :=
  match s.heldFiring cell slot with
  | none => s
  | some (F, s1) => (s1.begin F).result F F.kind v flagNone 1

/-- The code of a `trap` or `assert` (R373). -/
def isSoftware (code : Nat) : Bool := decide (0x0280 ≤ code) && decide (code ≤ 0x02FF)

/-- RESUME of a software fault (R373): the firing consumes SA and has no further effect. -/
def State.consumeFiring (s : State) (cell slot : Nat) : State :=
  match s.heldFiring cell slot with
  | none => s
  | some (F, s1) => s1.begin F

/-- SUBST of a product that a fault stopped after it fired: its completion token carries the value, and it runs no further. -/
def State.substProduct (s : State) (p : Product) (v : Word) : State :=
  let s1 : State := { s with products := s.products.filter (fun q => q.id != p.id) }
  match p.f.dst, s1.inst p.inst with
  | .out n, some i =>
    s1.sendOut i p.cell p.cell 0 n.val p.deps [(p.kind, v)]
  | _, _ => s1

/-- The faulted requests of an instance at a site. -/
def State.faultedAt (s : State) (inst cell slot : Nat) : List Req :=
  s.reqs.filter (fun r => r.inst == inst && r.cell == cell && r.slot == slot && (match r.stage with | .faulted _ => true | _ => false))

end Sys2Proof.Machine
end

