-- ==== Sys2Proof/Machine/LoaderOps.lean ====
section
/-! DEFINITION. Sys2Proof/Machine/LoaderOps.lean: a sector's loader: the configuration commands (R65 to R68, R74, R78 to R80), stream
faults (R361, R362) and SEAL (R363, R364). -/
namespace Sys2Proof.Machine
open Sys2Proof

/-- What the loader answers to a command: the state, the result in the codes of `xg.cfgw` (0 accepted, 1 fault or discarded, 2 SEAL
failed; R313, R368), and what a record would say of a failure (R367), `val` then being the 32-bit VAL. -/
structure LoadAnswer where
  state : State
  result : Nat
  fail : Option SealFail

/-- Changes a sector's loader. -/
def State.updLoader (s : State) (k : Nat) (f : Loader → Loader) : State := s.updSector k (fun t => { t with loader := f t.loader })

/-- The command occupies the loader for n cycles (R80). -/
def State.loaderBusy (s : State) (k n : Nat) : State := s.updLoader k (fun l => { l with busyUntil := max l.busyUntil (s.cycle k) + n })

/-- A source's commands are accepted now (R78, R80): its sector runs, the loader is free, and no other source is served. -/
def State.loaderAccepts (s : State) (k : Nat) (src : LoadSource) : Bool :=
  let l := (s.sector k).loader
  s.sectorRuns k && decide (l.busyUntil ≤ s.cycle k) && (l.serving.isNone || l.serving == some src)

/-- The rank of a source among BEGINs of one cycle (R78). -/
def loadRank : LoadSource → Nat
  | .timetable => 0
  | .pilot => 1
  | .proctor => 2

/-- A source's BEGIN has come: it joins those that wait, by arrival, then by rank (R78). -/
def Loader.arrive (l : Loader) (src : LoadSource) (cyc : Nat) : Loader :=
  if l.waiting.any (fun e => e.1 == src) then l else
  let before := fun (e : LoadSource × Nat) => decide (e.2 < cyc) || (e.2 == cyc && decide (loadRank e.1 < loadRank src))
  { l with waiting := l.waiting.takeWhile before ++ (src, cyc) :: l.waiting.dropWhile before }

/-- It is the turn of a source's BEGIN: it came first, in an earlier cycle (R78). -/
def Loader.firstWaiting (l : Loader) (src : LoadSource) (cyc : Nat) : Bool :=
  match l.waiting with
  | [] => false
  | e :: _ => e.1 == src && decide (e.2 < cyc)

/-- A command from a source, by its fields, is accepted now: a BEGIN of a source that is not served waits for its turn (R78). -/
def State.loaderTakes (s : State) (k : Nat) (src : LoadSource) (begin_ : Bool) : Bool :=
  let l := (s.sector k).loader
  s.loaderAccepts k src && (!begin_ || l.serving == some src || l.firstWaiting src (s.cycle k))

/-- A command that is not accepted waits: of a BEGIN, the loader notes the arrival. -/
def State.loaderWaits (s : State) (k : Nat) (src : LoadSource) (begin_ : Bool) : State :=
  if begin_ then s.updLoader k (fun l => if l.serving == some src then l else l.arrive src (s.cycle k)) else s

/-- The command as a 32-bit word. -/
def cmdWord (cell field value : Nat) : Nat := cell * 2 ^ 24 + field * 2 ^ 16 + value

/-- A stream fault (R361, R362): the command is discarded, the stream it interrupts is cut, its rectangle's shadow planes become
STALE, and the source's later commands are discarded up to the next SEAL. -/
def State.streamFault (s : State) (k : Nat) (src : LoadSource) (code cell bank field word : Nat) : LoadAnswer :=
  let l := (s.sector k).loader
  let mine := l.serving == some src
  let s1 := if mine && l.opened then s.stale k l.x0 l.y0 l.w l.h else s
  let s2 := s1.updLoader k (fun l =>
    let l1 := l.discard src 1
    let l2 : Loader := { l1 with
      ended := l1.ended.filter (fun e => e.1 != src)
      lit := l1.lit.filter (fun e => e != src) }
    if mine then { l2 with serving := none, begun := false, opened := false } else l2)
  ⟨s2.loaderBusy k 1, 1, some ⟨code, bank, field, 0xFF, cell, word⟩⟩

/-- A fault of a control command. -/
def State.controlFault (s : State) (k : Nat) (src : LoadSource) (code field value : Nat) : LoadAnswer :=
  s.streamFault k src code 0 3 field (cmdWord 0xFE field value)

/-- How a command meets discarding (R362): a BEGIN ends it, a SEAL is the last but a SWAP at once, others are discarded. `none`: the
command is executed, by the state returned. -/
def State.discards (s : State) (k : Nat) (src : LoadSource) (isBegin isSeal isSwap : Bool) : Option LoadAnswer × State :=
  let l := (s.sector k).loader
  match l.discarding.find? (fun e => e.1 == src) with
  | none => (none, s)
  | some (_, ph) =>
    let goPhase := fun (p : Nat) => s.updLoader k (fun l => l.discard src p)
    if isBegin then (none, goPhase 0)
    else if ph = 1 then (some ⟨((if isSeal then goPhase 2 else s).loaderBusy k 1), 1, none⟩, s)
    else if isSwap then (some ⟨(goPhase 0).loaderBusy k 1, 1, none⟩, s)
    else (none, goPhase 0)

/-- A command other than SWAP ends what a SEAL left for a SWAP. -/
def State.notSwap (s : State) (k : Nat) (src : LoadSource) : State :=
  s.updLoader k (fun l => { l with ended := l.ended.filter (fun e => e.1 != src) })

/-- The source's stream has passed ORIGIN. -/
def Loader.isOpen (l : Loader) (src : LoadSource) : Bool := l.serving == some src && l.opened

/-- NOP (R66). -/
def State.cfgNop (s : State) (k : Nat) (src : LoadSource) (value : Nat) : LoadAnswer :=
  match (s.notSwap k src).discards k src false false false with
  | (some a, _) => a
  | (none, s1) =>
    if (s1.sector k).loader.isOpen src = false then s1.controlFault k src 0x0101 0 value
    else if value ≠ 0 then s1.controlFault k src 0x0102 0 value
    else ⟨s1.loaderBusy k 1, 0, none⟩

/-- BEGIN (R66, R67), which no longer waits: a BEGIN of the source whose stream is open is a form fault and then opens a new stream (R362). -/
def State.cfgBegin (s : State) (k : Nat) (src : LoadSource) (value : Nat) : LoadAnswer :=
  match (s.notSwap k src).discards k src true false false with
  | (some a, _) => a
  | (none, s1) =>
    let form := (s1.sector k).loader.serving == some src
    let s2 := (if form then (s1.controlFault k src 0x0101 1 value).state.updLoader k (fun l => l.discard src 0) else s1).updLoader k
      (fun l => { l with waiting := l.waiting.filter (fun e => e.1 != src) })
    if bitsN value 15 14 = 3 ∨ bitsN value 13 8 ≠ 0 then s2.controlFault k src (if form then 0x0101 else 0x0102) 1 value
    else
      let s3 := s2.updLoader k (fun l => { l with
        serving := some src
        begun := true
        opened := false
        base := bitsN value 15 14
        w := bitsN value 7 4 + 1
        h := bitsN value 3 0 + 1 })
      ⟨if form then s3 else s3.loaderBusy k 1, if form then 1 else 0,
        if form then some ⟨0x0101, 3, 1, 0xFF, 0, cmdWord 0xFE 1 value⟩ else none⟩

/-- A rectangle is one patch: a resident instance's, or reserved by the Timetable (R67). -/
def State.isPatch (s : State) (k x0 y0 w h : Nat) : Bool :=
  s.insts.any (fun i => !i.retired && i.sector == k && i.x0 == x0 && i.y0 == y0 && i.w == w && i.h == h) ||
  (s.dieAt (dieOfSector k)).reserved.any (fun r => r.rects.contains (k, x0, y0, w, h))

/-- BASE on a cell (R68). -/
def Cell.openShadow (c : Cell) (base : Nat) : Cell :=
  { c with
    shadow := if base = 0 then { Plane.clear with ver := c.shadow.ver } else if base = 1 then c.active else c.shadow
    shadowState := .opened }

/-- ORIGIN (R66 to R68). -/
def State.cfgOrigin (s : State) (k : Nat) (src : LoadSource) (value : Nat) : LoadAnswer :=
  match (s.notSwap k src).discards k src false false false with
  | (some a, _) => a
  | (none, s1) =>
    let l := (s1.sector k).loader
    let y0 := bitsN value 12 8
    let x0 := bitsN value 3 0
    if !(l.serving == some src && l.begun && !l.opened) then s1.controlFault k src 0x0101 2 value
    else if bitsN value 15 13 ≠ 0 ∨ bitsN value 7 4 ≠ 0 then s1.controlFault k src 0x0102 2 value
    else if 16 < x0 + l.w ∨ 32 < y0 + l.h ∨ s1.isPatch k x0 y0 l.w l.h = false then s1.controlFault k src 0x0103 2 value
    else
      let s2 := (patchCells k x0 y0 l.w l.h).foldl (fun (a : State) c => a.updCell c (fun t => t.openShadow l.base)) s1
      let s3 := s2.updLoader k (fun t => { t with x0 := x0, y0 := y0, opened := true, bank := 0 })
      ⟨s3.loaderBusy k (if l.base = 0 then 8 else if l.base = 1 then 40 else 1), 0, none⟩

/-- BANK (R66). -/
def State.cfgBank (s : State) (k : Nat) (src : LoadSource) (value : Nat) : LoadAnswer :=
  match (s.notSwap k src).discards k src false false false with
  | (some a, _) => a
  | (none, s1) =>
    if (s1.sector k).loader.isOpen src = false then s1.controlFault k src 0x0101 3 value
    else if 3 ≤ value then s1.controlFault k src 0x0102 3 value
    else ⟨(s1.updLoader k (fun l => { l with bank := value })).loaderBusy k 1, 0, none⟩

/-- LIT (R66): the next command's CELL is a cell index. -/
def State.cfgLit (s : State) (k : Nat) (src : LoadSource) (value : Nat) : LoadAnswer :=
  let lit := fun (a : State) => a.updLoader k (fun l => { l with lit := src :: l.lit })
  match (s.notSwap k src).discards k src false false false with
  | (some a, _) => { a with state := lit a.state }
  | (none, s1) =>
    if (s1.sector k).loader.isOpen src = false then s1.controlFault k src 0x0101 5 value
    else if value ≠ 0 then s1.controlFault k src 0x0102 5 value
    else ⟨(lit s1).loaderBusy k 1, 0, none⟩

/-- A write of one field into a plane: operator words and headers drop the slot's mark (R55). -/
def Plane.write (p : Plane) (bank field : Nat) (v : Half) : Plane :=
  let unmark := fun (i : Nat) => p.marks &&& ~~~(BitVec.ofNat 16 (2 ^ i))
  if bank = 0 then
    let q := p.setOp field v
    if field < 0x40 then { q with marks := unmark (field / 4) }
    else if field < 0x50 then { q with marks := unmark (field - 0x40) } else q
  else if bank = 1 then p.setRt field v else p.setHt field v

/-- A bank's field is reserved (R69, R70, R73). -/
def fieldReserved (bank field : Nat) : Bool := (bank == 0 && decide (0xA0 ≤ field)) || (bank == 1 && decide (0x83 ≤ field))

/-- A write command (R65): one cell, or every cell of the patch; `lit` says that CELL is a cell index (R66). -/
def State.cfgWrite (s : State) (k : Nat) (src : LoadSource) (lit : Bool) (cell field value : Nat) : LoadAnswer :=
  let s0 := (s.notSwap k src).updLoader k (fun l => { l with lit := l.lit.filter (fun e => e != src) })
  match s0.discards k src false false false with
  | (some a, _) => a
  | (none, s1) =>
    let l := (s1.sector k).loader
    let all := cell == 0xFF && !lit
    let fault := fun (code : Nat) => s1.streamFault k src code cell l.bank field (cmdWord cell field value)
    if l.isOpen src = false then fault 0x0101
    else if !all && decide (l.w ≤ cell % 16 ∨ l.h ≤ cell / 16) then fault 0x0104
    else if fieldReserved l.bank field then fault 0x0105
    else
      let cs := if all then patchCells k l.x0 l.y0 l.w l.h else [cellInSector k (l.x0 + cell % 16) (l.y0 + cell / 16)]
      let s2 := cs.foldl (fun (a : State) c => a.updCell c (fun t => { t with shadow := t.shadow.write l.bank field (BitVec.ofNat 16 value) })) s1
      ⟨s2.loaderBusy k 1, 0, none⟩

/-- The shadow planes of a rectangle by cell index. -/
def State.shadows (s : State) (k x0 y0 w h : Nat) : PatchPlanes :=
  (List.range h).flatMap (fun y => (List.range w).map (fun x => (16 * y + x, (s.cell (cellInSector k (x0 + x) (y0 + y))).shadow)))

/-- The checks of SEAL with version v over planes whose marks are dropped (R364): every cell's, then the version. -/
def State.sealFails (s : State) (k x0 y0 w h v : Nat) (ps : PatchPlanes) : Option SealFail :=
  let at_ := fun (i : Nat) => cellInSector k (x0 + i % 16) (y0 + i / 16)
  match patchChecks ps w h (fun i p => (s.neighbour (at_ i) p).isSome) (fun i => (s.cell (at_ i)).transit) with
  | some f => some f
  | none =>
    match ps.find? (fun e => (s.cell (at_ e.1)).active.ver == BitVec.ofNat 4 v) with
    | some e => some ⟨0x0120, 3, 4, 0xFF, e.1, v⟩
    | none => none

/-- SEAL (R74, R364): every shadow plane of the patch is SEALED(v), once the command has taken its cycles (R80), or every one becomes
STALE and a SWAP that follows is discarded. The loader is free for another source's stream from here on, also where a SWAP follows: R78
serves a stream "to its SEAL or SWAP", and the model takes the SEAL (DESIGN CHOICE, log 124). -/
def State.cfgSeal (s : State) (k : Nat) (src : LoadSource) (value : Nat) : LoadAnswer :=
  match (s.notSwap k src).discards k src false true false with
  | (some a, _) => a
  | (none, s1) =>
    let l := (s1.sector k).loader
    if l.isOpen src = false then s1.controlFault k src 0x0101 4 value
    else if bitsN value 15 4 ≠ 0 then s1.controlFault k src 0x0102 4 value
    else
      let at_ := fun (i : Nat) => cellInSector k (l.x0 + i % 16) (l.y0 + i / 16)
      let ps := (s1.shadows k l.x0 l.y0 l.w l.h).map (fun e => (e.1, e.2.dropMarks))
      let fail := s1.sealFails k l.x0 l.y0 l.w l.h value ps
      let note := fun (i : Inst) =>
        if i.sector = k ∧ i.x0 = l.x0 ∧ i.y0 = l.y0 ∧ i.w = l.w ∧ i.h = l.h ∧ i.retired = false then
          { i with
            lastSeal := some (BitVec.ofNat 4 value, fail.isNone)
            barred := i.barred || (fail.isNone && src != .timetable) }
        else i
      let s2 : State := { s1 with insts := s1.insts.map note }
      let fin := fun (a : State) (f : Loader → Loader) => a.updLoader k (fun t =>
        f { t with serving := none, begun := false, opened := false })
      match fail with
      | some f =>
        let s3 := ps.foldl (fun (a : State) e => a.updCell (at_ e.1) (fun t => { t with shadow := e.2, shadowState := .stale })) s2
        ⟨(fin s3 (fun t => t.discard src 2)).loaderBusy k 24, 2, some f⟩
      | none =>
        let x := expandPatch ps l.w l.h
        let v := BitVec.ofNat 4 value
        let s3 := x.1.foldl (fun (a : State) e => a.updCell (at_ e.1) (fun t =>
          { t with shadow := { e.2 with ver := v, source := src, stream := 0 }, shadowState := .sealed v })) s2
        let s4 := (fin s3 (fun t => { t with ended := (src, l.x0, l.y0, l.w, l.h) :: t.ended })).loaderBusy k (24 + (x.2 + 15) / 16)
        ⟨s4.updLoader k (fun t => { t with sealing := some (l.x0, l.y0, l.w, l.h, t.busyUntil) }), 0, none⟩

/-- SWAP (R66, R75): a swap token leaves for the patch just sealed. -/
def State.cfgSwap (s : State) (k : Nat) (src : LoadSource) (value : Nat) : LoadAnswer :=
  match s.discards k src false false true with
  | (some a, _) => a
  | (none, s1) =>
    match (s1.sector k).loader.ended.find? (fun e => e.1 == src) with
    | none => s1.controlFault k src 0x0101 6 value
    | some (_, x0, y0, w, h) =>
      if bitsN value 15 4 ≠ 0 then (s1.stale k x0 y0 w h).controlFault k src 0x0102 6 value
      else
        let s2 := (s1.notSwap k src).updSector k (fun t =>
          { t with swapTokens := t.swapTokens ++ [⟨x0, y0, w, h, BitVec.ofNat 4 value, src⟩] })
        ⟨s2.loaderBusy k 1, 0, none⟩

/-- A reserved control code (R66). -/
def State.cfgReserved (s : State) (k : Nat) (src : LoadSource) (field value : Nat) : LoadAnswer :=
  match (s.notSwap k src).discards k src false false false with
  | (some a, _) => a
  | (none, s1) =>
    s1.controlFault k src (if (s1.sector k).loader.isOpen src then 0x0102 else 0x0101) field value

/-- The source's next command is literal. -/
def State.isLit (s : State) (k : Nat) (src : LoadSource) : Bool := (s.sector k).loader.lit.contains src

/-- The fields of a command are those of a BEGIN (R66). -/
def State.isBegin (s : State) (k : Nat) (src : LoadSource) (cell field : Nat) : Bool := !s.isLit k src && cell == 0xFE && field == 1

/-- One command of a source, from its fields (R65, R66). -/
def State.loaderStep (s : State) (k : Nat) (src : LoadSource) (cell field value : Nat) : LoadAnswer :=
  let lit := s.isLit k src
  if lit || cell != 0xFE then s.cfgWrite k src lit cell field value
  else
    match field with
    | 0 => s.cfgNop k src value
    | 1 => s.cfgBegin k src value
    | 2 => s.cfgOrigin k src value
    | 3 => s.cfgBank k src value
    | 4 => s.cfgSeal k src value
    | 5 => s.cfgLit k src value
    | 6 => s.cfgSwap k src value
    | _ => s.cfgReserved k src field value

end Sys2Proof.Machine
end

