-- ==== Sys2Proof/Machine/TimetableOps.lean ====
section
/-! DEFINITION. Sys2Proof/Machine/TimetableOps.lean: what the Timetable uses to place: the order of grid points (R33 to R35), levels and
interlocks (R156, R160), positions and channels (R154, R161), the loading of streams (R162, R165, R195, R322) and the flip
of a patch's planes (R60, R76). -/
namespace Sys2Proof.Machine
open Sys2Proof

/-! Grid points (R33 to R35). -/

/-- The n-th point of a plane of nx columns taken in bands of w columns, each band row by row: (column, row). -/
def bandPoint (w nx ny n : Nat) : Nat × Nat :=
  let b := n / (w * ny)
  let r := n - b * w * ny
  let wb := max 1 (min w (nx - b * w))
  (b * w + r % wb, r / wb)

/-- Every second bit of m, from bit 0. -/
def evenBits : Nat → Nat → Nat
  | 0, _ => 0
  | k + 1, m => m % 2 + 2 * evenBits k (m / 4)

/-- The point of a Morton code. -/
def mortonPoint (m : Nat) : Nat × Nat := (evenBits 16 m, evenBits 16 (m / 2))

/-- The point of a Hilbert position, from the smallest square outward: k squares of side s, 2s, ... are left. -/
def hilbertPoint : Nat → Nat → Nat → Nat × Nat → Nat × Nat
  | 0, _, _, p => p
  | k + 1, s, t, (x, y) =>
    let rx := t / 2 % 2
    let ry := (t + rx) % 2
    let q := if ry = 0 then
        let f := if rx = 1 then (s - 1 - x, s - 1 - y) else (x, y)
        (f.2, f.1)
      else (x, y)
    hilbertPoint k (2 * s) (t / 4) (q.1 + s * rx, q.2 + s * ry)

/-- The least k with 2^k at least n. -/
def log2Up (n : Nat) : Nat := ((List.range 17).find? (fun k => decide (n ≤ 2 ^ k))).getD 16

/-- The n-th point inside the grid along a curve, from code c on. -/
def curvePoint (pt : Nat → Nat × Nat) (gx gy : Nat) : Nat → Nat → Nat → Nat × Nat
  | 0, _, _ => (0, 0)
  | fuel + 1, c, n =>
    let p := pt c
    if p.1 < gx ∧ p.2 < gy then (if n = 0 then p else curvePoint pt gx gy fuel (c + 1) (n - 1))
    else curvePoint pt gx gy fuel (c + 1) n

/-- The n-th grid point of a node in key order: (x, y, z). -/
def gridPoint (order swz gx gy gz n : Nat) : Nat × Nat × Nat :=
  let plane := gx * gy
  let m := n % plane
  let z := n / plane % gz
  let side := log2Up (max gx gy)
  let xy : Nat × Nat := match order with
    | 0 => bandPoint (if swz = 0 then gx else 2 ^ swz) gx gy m
    | 1 => let p := bandPoint (if swz = 0 then gy else 2 ^ swz) gy gx m; (p.2, p.1)
    | 2 => curvePoint mortonPoint gx gy (2 ^ (2 * side)) 0 m
    | _ => curvePoint (fun d => hilbertPoint side 1 d (0, 0)) gx gy (2 ^ (2 * side)) 0 m
  (xy.1, xy.2, z)

/-- The instance id of the n-th grid point of a job's node (R33). -/
def Job.gid (j : Job) (node : BitVec 512) (n : Nat) : Nat :=
  let p := gridPoint j.order j.swz (nodeGx node) (nodeGy node) (nodeGz node) n
  p.1 + nodeGx node * (p.2.1 + nodeGy node * p.2.2)

/-! Priority, level and interlock (R156, R160). -/

/-- Units of 1 ms. -/
def msUnits : Nat := 1000 * usUnits

/-- A record's priority, lowered to PCAP of its queue (R155). -/
def State.prio (s : State) (r : PoolRec) : Nat :=
  match s.job r.job with
  | some j => min (nodePrio r.node) (qPcap (s.queueEntry j.die j.queue))
  | none => nodePrio r.node

def State.level (s : State) (r : PoolRec) : Nat := min 3 (s.prio r + (s.dev - r.since) / msUnits)
def State.pinned (s : State) (r : PoolRec) : Bool := decide ((4 - s.prio r) * msUnits ≤ s.dev - r.since)

/-- The operands of a record: (first byte, length, written). -/
def State.operandsOf (s : State) (j : Job) (n : BitVec 512) : List (Nat × Nat × Bool) :=
  (List.range (nodeNopd n)).filterMap (fun k =>
    (s.vaBlock j.asid j.root (nodeOpd n + 16 * k) 16).map (fun l =>
      let v := bytesNat l
      (bitsN v 56 0, bitsN v 95 64 + 1, decide (2 ≤ bitsN v 127 126))))

/-- An earlier record of the job, not completed, has an operand that overlaps one of the record's, written on a side (R156). -/
def State.interlocked (s : State) (j : Job) (r : PoolRec) : Bool :=
  let mine := s.operandsOf j r.node
  !mine.isEmpty && (s.dieAt r.die).pool.any (fun q =>
    q.job == r.job && decide (q.order < r.order) && !q.completed &&
    (s.operandsOf j q.node).any (fun a => mine.any (fun b =>
      (a.2.2 || b.2.2) && decide (a.1 < b.1 + b.2.1) && decide (b.1 < a.1 + a.2.1))))

/-! Other nodes of the job (R154, R322). -/

/-- The pool record of a graph index of a job. -/
def State.graphPool (s : State) (j : Job) (idx : Nat) : Option PoolRec :=
  (s.dieAt j.die).pool.find? (fun q => q.job == j.key && !q.dyn && q.gidx == idx)

/-- The resident instance of a stage of a grid point. -/
def State.stageInst (s : State) (node gid stage : Nat) : Option Inst :=
  s.insts.find? (fun i => i.node == node && i.gid == gid && i.stage == stage && !i.retired)

/-- Where an anchor stands (R322). -/
inductive Anchor
  | here (i : Inst)
  | wait
  | gone

/-- The anchor instance of a graph index under an active version. -/
def State.anchor (s : State) (j : Job) (idx av : Nat) : Anchor :=
  match s.graphPool j idx with
  | none => .wait
  | some q =>
    match s.insts.find? (fun i => i.node == q.key && !i.retired) with
    | some i => if i.cells.all (fun c => (s.cell c).active.ver == BitVec.ofNat 4 av) && i.restoreStep == 0 then .here i else .wait
    | none => if 0 < q.finished ∨ q.completed = true then .gone else .wait

/-- An anchored handle (R322): REM with BASE bit 56. -/
def Handle.anchored (h : Handle) : Bool := h.lvl == 1 && decide (h.base / 2 ^ 56 = 1)

/-- Bits 56:0 of a rewritten handle (R106, R322). -/
def anchorBase (pkg base : Nat) (i : Inst) : Nat :=
  let x := (sectorPx i.sector + i.x0) % 64 + bitsN base 42 37
  let y := (sectorPy i.sector + i.y0) % 128 + bitsN base 36 30
  pkg % 64 * 2 ^ 45 + i.die * 2 ^ 43 + x % 64 * 2 ^ 37 + y % 128 * 2 ^ 30 + base % 2 ^ 15

/-- Rewrites bits 56:0 of a handle. -/
def Plane.setBase (p : Plane) (n v : Nat) : Plane :=
  let w := (p.handleWord n).toNat / 2 ^ 57 * 2 ^ 57 + v % 2 ^ 57
  (List.range 4).foldl (fun (a : Plane) q => a.setHt (8 * n + q) (BitVec.ofNat 16 (w / 2 ^ (16 * q)))) p

/-- The outcome of a load (R162, R165): done, waiting for an anchor, an anchor that has retired, or a failing stream. -/
inductive LoadRes
  | ok (s : State)
  | wait
  | gone
  | bad (s : State) (f : SealFail)

/-- The anchored handles of a plane. -/
def Plane.anchors (p : Plane) : List Nat := (List.range 32).filter (fun n => (p.handle n).anchored)

/-- Where an anchor stands for a stream that is loaded: placing waits for its active version, a preload (R165) only for the instance, whose
place alone it needs; R400 finds a retired anchor at selection only, and the spec does not say what a preload then does: it waits
(DESIGN CHOICE, log 127). -/
def State.anchorFor (s : State) (placing : Bool) (j : Job) (idx av : Nat) : Anchor :=
  if placing then s.anchor j idx av else
  match (s.graphPool j idx).bind (fun q => s.insts.find? (fun i => i.node == q.key && !i.retired)) with
  | some i => .here i
  | none => .wait

/-- Rewrites every anchored handle of the shadow planes of some cells (R322). -/
def State.rewriteAnchors (s : State) (placing : Bool) (j : Job) : List Nat → LoadRes
  | [] => .ok s
  | c :: rest =>
    let p := (s.cell c).shadow
    let go := p.anchors.foldl (fun (a : Option Plane × Bool) n =>
      match a.1 with
      | none => a
      | some q =>
        let b := (p.handle n).base
        match s.anchorFor placing j (bitsN b 29 15) (bitsN b 55 52) with
        | .here i => (some (q.setBase n (anchorBase s.package b i)), a.2)
        | .wait => (none, a.2)
        | .gone => (none, true)) (some p, false)
    match go with
    | (some q, _) => (if p.anchors.isEmpty then s else s.updCell c (fun t => { t with shadow := q })).rewriteAnchors placing j rest
    | (none, true) => .gone
    | (none, false) => .wait

/-! Streams. -/

/-- The stamp of a stream: its address and address space; never 0. -/
def streamStamp (asid va : Nat) : Nat := asid * 2 ^ 57 + va + 1

/-- The address of stream k of a stage (R155). -/
def streamVa (n : BitVec 512) (k stage : Nat) : Nat := nodeCfg n k % 2 ^ 57 + 256 * nodeCstr n * stage
/-- The number of streams. -/
def streamCount (n : BitVec 512) : Nat := nodeStreams n

/-- A stream of the Timetable is cut, and the loader is free (R361): at a fetch that fails, and at a stream fault, after which the
Timetable, placing nothing further of the job (R368), sends no more of it; so what a second BEGIN opened (R362) does not stay open. -/
def State.cutTimetable (s : State) (i : Inst) : State :=
  (s.cutStream i.sector i.x0 i.y0 i.w i.h).updLoader i.sector (fun l =>
    if l.serving = some .timetable then { l with serving := none, begun := false, opened := false } else l)

/-- What a stream's commands make of the shadow planes from word p on, up to its SEAL (R162), as the Timetable finds out before it places; ORIGIN
names the patch (R195), and anchored handles are rewritten before SEAL (R322). A fetch that fails ends it (R361). -/
def State.ttRun (s : State) (placing : Bool) (i : Inst) (j : Job) (va : Nat) : Nat → Nat → LoadRes
  | 0, _ => .wait
  | fuel + 1, p =>
    match (if va % 4 = 0 then s.ttXlat j.asid j.root (va + 4 * p) .load else none) with
    | none => .bad (s.cutTimetable i) ⟨0x0106, 0, 0, 0, 0, 0⟩
    | some pa =>
      if s.memBad pa then .bad (s.cutTimetable i) ⟨0x0D04, 0, 0, 0, pa / 32 * 32, 0⟩ else
      let w := s.memRead pa 4
      let ctl := !s.isLit i.sector .timetable && decide (w / 2 ^ 24 = 0xFE)
      let fld := bitsN w 23 16
      let val := if ctl && fld == 2 then i.y0 * 256 + i.x0 else bitsN w 15 0
      let step := fun (a : State) => a.loaderStep i.sector .timetable (w / 2 ^ 24) fld val
      if ctl && fld == 4 then
        match s.rewriteAnchors placing j i.cells with
        | .ok s1 =>
          let anchored := i.cells.any (fun c => !(s.cell c).shadow.anchors.isEmpty)
          let a := step s1
          match a.fail with
          | some f => .bad a.state f
          | none =>
            let stamp := if anchored then 0 else streamStamp j.asid va
            .ok (i.cells.foldl (fun (b : State) c => b.updCell c (fun t => { t with shadow := { t.shadow with stream := stamp } })) a.state)
        | r => r
      else
        let a := step s
        match a.fail with
        | some f => .bad (a.state.cutTimetable i) f
        | none => a.state.ttRun placing i j va fuel (p + 1)

/-- The version a stream seals: that of its first SEAL. -/
def State.streamVersion (s : State) (j : Job) (va : Nat) : Nat → Nat → Bool → Option Nat
  | 0, _, _ => none
  | fuel + 1, p, lit =>
    match s.ttXlat j.asid j.root (va + 4 * p) .load with
    | none => none
    | some pa =>
      let w := s.memRead pa 4
      let ctl := !lit && decide (w / 2 ^ 24 = 0xFE)
      if ctl && bitsN w 23 16 == 4 then some (w % 16)
      else s.streamVersion j va fuel (p + 1) (ctl && bitsN w 23 16 == 5)

/-- Commands read at most from one stream: those of the whole address space, past which no fetch translates. -/
def streamFuel : Nat := 2 ^ 56

/-- Field f of a cell after writes of bank HT, the latest first; cell 256 stands for every cell that only broadcasts reach. -/
def scanField (ws : List (Nat × Nat × Nat)) (c f : Nat) : Half :=
  BitVec.ofNat 16 (((ws.find? (fun e => e.2.1 == f && (e.1 == c || e.1 == 256))).map (fun e => e.2.2)).getD 0)

/-- The anchors that the handles written name (R322). -/
def scanAnchors (ws : List (Nat × Nat × Nat)) : List (Nat × Nat) :=
  ((256 :: ws.map Prod.fst).eraseDups.flatMap (fun c =>
    (ws.map (fun e => e.2.1 / 8)).eraseDups.filterMap (fun n =>
      let h := handleOf (joinFields (scanField ws c) (8 * n) 8)
      if h.anchored then some (bitsN h.base 29 15, bitsN h.base 55 52) else none))).eraseDups

/-- Reads a stream for the writes of bank HT it makes, up to its SEAL; a BASE that does not clear keeps those of the streams before. -/
def State.scanStream (s : State) (j : Job) (va : Nat) : Nat → Nat → Bool → Nat → List (Nat × Nat × Nat) → List (Nat × Nat × Nat)
  | 0, _, _, _, ws => ws
  | fuel + 1, p, lit, bank, ws =>
    match s.ttXlat j.asid j.root (va + 4 * p) .load with
    | none => ws
    | some pa =>
      let w := s.memRead pa 4
      let cell := w / 2 ^ 24
      let f := bitsN w 23 16
      if !lit && cell == 0xFE then
        match f with
        | 1 => s.scanStream j va fuel (p + 1) false 0 (if bitsN w 15 14 = 0 then [] else ws)
        | 3 => s.scanStream j va fuel (p + 1) false (w % 4) ws
        | 4 => ws
        | 5 => s.scanStream j va fuel (p + 1) true bank ws
        | _ => s.scanStream j va fuel (p + 1) false bank ws
      else
        s.scanStream j va fuel (p + 1) false bank
          (if bank = 2 then (if cell = 0xFF ∧ lit = false then 256 else cell, f, bitsN w 15 0) :: ws else ws)

/-- The anchors of a stage's stream k. -/
def State.streamAnchors (s : State) (j : Job) (n : BitVec 512) (stage k : Nat) : List (Nat × Nat) :=
  scanAnchors ((List.range (k + 1)).foldl (fun (ws : List (Nat × Nat × Nat)) q =>
    s.scanStream j (streamVa n q stage) streamFuel 0 false 0 ws) [])

/-- The anchors of all streams of a record's stages. -/
def State.recordAnchors (s : State) (j : Job) (n : BitVec 512) : List (Nat × Nat) :=
  if nodeKind n ≠ 0 then [] else
  ((List.range (nodeStages n)).flatMap (fun stage =>
    ((List.range (streamCount n)).foldl (fun (a : List (Nat × Nat) × List (Nat × Nat × Nat)) k =>
      let ws := s.scanStream j (streamVa n k stage) streamFuel 0 false 0 a.2
      (a.1 ++ scanAnchors ws, ws)) ([], [])).1)).eraseDups

/-- The Timetable reads the anchors of its pool's records once (R322). -/
def State.findAnchors (s : State) (d : Nat) : State :=
  if (s.dieAt d).pool.all (fun r => r.scanned || !r.inPool) then s else
  s.updDie d (fun t => { t with pool := t.pool.map (fun r =>
    if r.scanned || !r.inPool then r else
    { r with scanned := true, anchors := ((s.job r.job).map (fun j => s.recordAnchors j r.node)).getD [] }) })

/-! The flip (R60, R76). -/

/-- One cell's planes flip: the counters, phases, stream states and route states are reset (R39, R54, R60). -/
def Cell.flip (c : Cell) (cyc : Nat) : Cell :=
  { c with
    active := c.shadow
    shadow := c.active
    shadowState := .stale
    slots := []
    routes := []
    trig := 0
    trigDue := false
    nextFire := cyc + 3 }

/-- The cycle from which a rectangle's SEALED planes stand: the present one, or a later one while its SEAL takes its cycles (R80). -/
def State.sealedFrom (s : State) (k x0 y0 w h : Nat) : Nat :=
  match (s.sector k).loader.sealing with
  | some e => if e.1 = x0 ∧ e.2.1 = y0 ∧ e.2.2.1 = w ∧ e.2.2.2.1 = h then max (s.cycle k) e.2.2.2.2 else s.cycle k
  | none => s.cycle k

/-- Every cell of a rectangle flips (R76). -/
def State.flipRect (s : State) (k x0 y0 w h : Nat) : State :=
  (patchCells k x0 y0 w h).foldl (fun (a : State) c => a.updCell c (fun t => t.flip (s.cycle k))) s

/-- Every shadow plane of a rectangle is SEALED, or will be once its SEAL has taken its cycles. -/
def State.shadowsSealed (s : State) (k x0 y0 w h : Nat) : Bool :=
  (patchCells k x0 y0 w h).all (fun c => match (s.cell c).shadowState with | .sealed _ => true | _ => false)

/-- Every shadow plane of a rectangle is SEALED: its version. -/
def State.allSealed (s : State) (k x0 y0 w h : Nat) : Option (BitVec 4) :=
  if s.cycle k < s.sealedFrom k x0 y0 w h then none else
  match (patchCells k x0 y0 w h).map (fun c => (s.cell c).shadowState) with
  | .sealed v :: rest => if rest.all (fun t => match t with | .sealed _ => true | _ => false) then some v else none
  | _ => none

/-- The stream index whose stamp a plane carries. -/
def streamIndex (j : Job) (n : BitVec 512) (stage stamp : Nat) : Option Nat :=
  (List.range (streamCount n)).find? (fun k => streamStamp j.asid (streamVa n k stage) == stamp)

/-- The planes of an instance flip: the swap is done, the next preload is due where the Timetable loaded the plane (R165, R166). -/
def State.flipInst (s : State) (i : Inst) : State :=
  let s1 := s.flipRect i.sector i.x0 i.y0 i.w i.h
  let p := (s1.cell (cellInSector i.sector i.x0 i.y0)).active
  let tt := decide (p.source = .timetable)
  let streams := ((s.job i.job).bind (fun j => (s.poolRec i.die i.node).map (fun r =>
    (streamCount r.node, streamIndex j r.node i.stage p.stream)))).getD (1, none)
  s1.updInst i.id (fun x => { x with
    swap := none
    atPoint := none
    lastSeal := none
    barred := !tt
    actIdx := if tt then (streams.2.getD ((x.actIdx + 1) % streams.1)) else x.actIdx
    needPreload := tt && decide (1 < streams.1)
    lastActive := s.dev })

/-! Loading a stage. -/

/-- The shadow planes already hold this stream SEALED from a Timetable load (R162). -/
def State.holdsStream (s : State) (i : Inst) (j : Job) (va : Nat) : Bool :=
  i.cells.all (fun c =>
    let t := s.cell c
    (match t.shadowState with | .sealed _ => true | _ => false) && t.shadow.source == .timetable &&
    t.shadow.stream == streamStamp j.asid va)

/-- The least version that no cell of the patch has active, and not v (R162). -/
def State.spareVersion (s : State) (i : Inst) (v : Nat) : Nat :=
  let used := v :: i.cells.map (fun c => (s.cell c).active.ver.toNat)
  ((List.range 16).find? (fun n => !used.contains n)).getD 0

/-- The version under which a cleared plane is swapped in before a stream: where some cell's active version is the stream's (R162). -/
def State.clearBefore (s : State) (i : Inst) (j : Job) (va : Nat) : Option Nat :=
  match s.streamVersion j va streamFuel 0 false with
  | some v => if i.cells.any (fun c => (s.cell c).active.ver.toNat == v) then some (s.spareVersion i v) else none
  | none => none

/-- What a cleared plane makes of the patch. -/
def State.swapCleared (s : State) (i : Inst) (u : Nat) : State :=
  (i.cells.foldl (fun (a : State) c => a.updCell c (fun t =>
    { t with shadow := { Plane.clear with ver := BitVec.ofNat 4 u }, shadowState := .sealed (BitVec.ofNat 4 u) })) s).flipRect i.sector i.x0 i.y0 i.w i.h

/-- What a stream makes of an instance's shadow planes (R162). -/
def State.ttLoad (s : State) (placing : Bool) (i : Inst) (j : Job) (va : Nat) (mayClear : Bool) : LoadRes :=
  if s.holdsStream i j va then .ok s else
  let s1 := match (if mayClear then s.clearBefore i j va else none) with
    | some u => s.swapCleared i u
    | none => s
  (s1.updLoader i.sector (fun _ => Loader.idle)).ttRun placing i j va streamFuel 0

/-- Every LOC handle of the instance lies in its scratchpad allotment (R109): also one of zero bits, a region of one byte (R108), where it is
among the NHND handles that the profile gives a cell; the zero ones above, which R153 asks for, are none of the instance's (log 74). -/
def State.spadOk (s : State) (i : Inst) : Bool :=
  i.cells.all (fun c =>
    let p := (s.cell c).shadow
    (List.range 32).all (fun n => (p.handle n).lvl != 0 || (decide (i.nhnd ≤ n) && p.handleWord n == 0) || decide ((p.handle n).regionEnd ≤ i.spad)))

/-- The Timetable writes a record at level 2 and places nothing further of the job (R357, R368, R400). -/
def State.placeFault (s : State) (i : Inst) (code slot : Nat) (cell : Option Nat) (opw : BitVec 64) (d0 d1 : Nat) : State :=
  let r0 := (s.baseRec i.die (some i.job) code 2 7).atCell (cell.getD (cellInSector i.sector i.x0 i.y0)) slot
  let r1 := s.recInst r0 i
  let r2 : FaultRec := { r1 with
    opw := opw
    detail0 := BitVec.ofNat 64 d0
    detail1 := BitVec.ofNat 64 d1 }
  (s.pushRec r2).updJob i.job (fun j => { j with closed := true })

/-- A failing stream of the Timetable is reported (R367, R368): a check on the whole patch or stream at the patch's origin, one on a cell at the cell. -/
def State.streamFail (s : State) (i : Inst) (f : SealFail) (va : Nat) : State :=
  let whole := (decide (f.item = 0xFF) && decide (f.code ≠ 0x011E ∧ f.code ≠ 0x011F)) || decide (f.code = 0x0106)
  let at_ := cellInSector i.sector (i.x0 + f.cell % 16) (i.y0 + f.cell / 16)
  let p := (s.cell at_).shadow
  let isSlot := !whole && f.bank == 0 && decide (f.field < 0x60) && decide (f.item < 16)
  let isEntry := !whole && f.bank == 1 && decide (f.field < 0x60) && decide (f.item < 32)
  let opw := if isSlot then p.opWord f.item else if isEntry then BitVec.ofNat 64 (p.routeWord f.item).toNat else 0
  s.placeFault i f.code (if isSlot || isEntry then f.item else 0) (if whole then none else some at_) opw
    (f.val % 2 ^ 32 * 2 ^ 32 + f.item % 256 * 2 ^ 24 + f.cell % 256 * 2 ^ 16 + f.bank % 4 * 2 ^ 8 + f.field % 256) (va % 2 ^ 57)

/-! The Timetable's streams, command by command (R78, R80, R162, R165). -/

/-- The Timetable begins to send a stream: its BEGIN has come (R78). -/
def State.startLoad (s : State) (k : Nat) (t : TtLoad) : State :=
  (s.updLoader k (fun l => { l with tt := some t })).loaderWaits k .timetable true

/-- The preload of R165: the stream after the active one, once the instances that it names stand. `none`: it waits. -/
def State.preload (s : State) (i : Inst) : Option State :=
  match s.job i.job, s.poolRec i.die i.node with
  | some j, some r =>
    let k := (i.actIdx + 1) % streamCount r.node
    let va := streamVa r.node k i.stage
    if s.holdsStream i j va then some (s.updInst i.id (fun x => { x with needPreload := false }))
    else if (s.sector i.sector).loader.tt.isSome ∨ j.aborted = true ∨ j.closed = true then none
    else if (s.streamAnchors j r.node i.stage k).all (fun e => match s.anchorFor false j e.1 e.2 with | .here _ => true | _ => false) then
      some (s.startLoad i.sector ⟨i.id, va, 0, none, false, false⟩)
    else none
  | _, _ => none

/-- The Timetable's next act for an instance that is being placed or restored (R162, R172 steps 1 and 2): it sends the next stream, or a cleared plane
before it; checks the LOC handles against SPAD (R109) and swaps in what is SEALED; or has done all. -/
def State.loadStep (s : State) (i : Inst) : Option State :=
  match i.loads, s.job i.job, s.poolRec i.die i.node with
  | [], _, _ =>
    if i.restoreStep ≠ 1 then none
    else if i.frame.isSome then some (s.updInst i.id (fun x => { x with restoreStep := 3, needPreload := false }))
    else some (s.updInst i.id (fun x => { x with restoreStep := 0, parked := false, lastActive := s.dev }))
  | l :: rest, some j, some r =>
    let at_ := fun (k : Nat) => streamVa r.node k i.stage
    let done := fun (a : State) (f : Inst → Inst) => (a.flipInst i).updInst i.id (fun x => f { x with loads := rest, loaded := false })
    let holds := match l with
      | .clear _ => i.loaded
      | .stream k _ => i.loaded || s.holdsStream i j (at_ k)
    if j.aborted ∨ j.closed then none
    else if holds && (s.allSealed i.sector i.x0 i.y0 i.w i.h).isSome then
      match l with
      | .clear _ => some (done s id)
      | .stream k _ => if s.spadOk i then some (done s (fun x => { x with actIdx := k })) else some (s.placeFault i 0x0803 0 none 0 0 0)
    else if holds && s.shadowsSealed i.sector i.x0 i.y0 i.w i.h then none
    else if (s.sector i.sector).loader.tt.isSome then none
    else
      let s1 := if i.loaded then s.updInst i.id (fun x => { x with loaded := false }) else s
      match l with
      | .clear u => some (s1.startLoad i.sector ⟨i.id, 0, 0, some u, true, false⟩)
      | .stream k mayClear =>
        match (if mayClear then s.clearBefore i j (at_ k) else none) with
        | some u => some (s1.updInst i.id (fun x => { x with loads := .clear u :: x.loads }))
        | none => some (s1.startLoad i.sector ⟨i.id, at_ k, 0, none, true, false⟩)
  | _, _, _ => none

/-- The next command that the Timetable sends: a word, or a fetch that fails (R361). A cleared plane takes a BEGIN, an ORIGIN with BASE clear and
a SEAL. -/
def State.ttFetch (s : State) (i : Inst) (j : Job) (t : TtLoad) : Except SealFail Nat :=
  match t.clear with
  | some u => .ok ([cmdWord 0xFE 1 (16 * (i.w - 1) + (i.h - 1)), cmdWord 0xFE 2 0].getD t.pos (cmdWord 0xFE 4 u))
  | none =>
    match (if t.va % 4 = 0 then s.ttXlat j.asid j.root (t.va + 4 * t.pos) .load else none) with
    | none => .error ⟨0x0106, 0, 0, 0, 0, 0⟩
    | some pa => if s.memBad pa then .error ⟨0x0D04, 0, 0, 0, pa / 32 * 32, 0⟩ else .ok (s.memRead pa 4)

/-- The Timetable stops sending: its stream is cut, and the loader is free (R361, R79). -/
def State.ttStop (s : State) (i : Inst) : State := (s.cutTimetable i).updLoader i.sector (fun l => l.dropLoad i.id)

/-- The Timetable's stream, its instance and its job, while it sends: not while it stalls (R350) or the job is aborted. -/
def State.ttSends (s : State) (k : Nat) : Option (TtLoad × Inst × Job) :=
  match (s.sector k).loader.tt with
  | none => none
  | some t =>
    match s.inst t.inst with
    | none => none
    | some i =>
      match s.job i.job with
      | none => none
      | some j => if i.retired || j.aborted || j.closed || s.ttStalls (dieOfSector k) then none else some (t, i, j)

/-- A SEAL is about to be sent: anchored handles are rewritten first (R322); where an anchor does not stand, the stream is cut and sent anew later,
or, where one has retired, the placement fails (R400). -/
def State.beforeSeal (s : State) (k : Nat) (t : TtLoad) (i : Inst) (j : Job) : State × Bool :=
  match s.rewriteAnchors t.placing j i.cells with
  | .ok s1 =>
    (s1.updLoader k (fun l => { l with tt := some { t with anchored := i.cells.any (fun c => !(s.cell c).shadow.anchors.isEmpty) } }), true)
  | .gone => ((s.ttStop i).placeFault i 0x0805 0 none 0 0 0, false)
  | _ => (s.ttStop i, false)

/-- What the Timetable does on the loader's answer to its command: a failure is reported and ends the stream (R368); after SEAL the plane carries the
stream it came from, which an anchored one's does not. -/
def LoadAnswer.sent (a : LoadAnswer) (k : Nat) (src : LoadSource) : State :=
  match (if src = .timetable then (a.state.sector k).loader.tt else none) with
  | none => a.state
  | some t =>
    match a.state.inst t.inst with
    | none => a.state
    | some i =>
      match a.fail with
      | some f => (a.state.ttStop i).streamFail i f t.va
      | none =>
        if (a.state.sector k).loader.serving = some .timetable then a.state.updLoader k (fun l => { l with tt := some { t with pos := t.pos + 1 } })
        else
          let stamp := if t.anchored ∨ t.clear.isSome then 0 else streamStamp i.asid t.va
          let s1 := i.cells.foldl (fun (b : State) c => b.updCell c (fun x => { x with shadow := { x.shadow with stream := stamp } })) a.state
          (s1.updLoader k (fun l => { l with tt := none })).updInst i.id (fun x =>
            if t.placing then { x with loaded := true } else { x with needPreload := false })

/-- A control command arrives at the loader: it waits until it is accepted; after LIT it is a write (R66). -/
def State.runControl (s : State) (k : Nat) (src : LoadSource) (field value : Nat) (f : State → LoadAnswer) :
    Host.Outcome State Fault Refusal :=
  let begin_ := s.isBegin k src 0xFE field
  if !s.loaderTakes k src begin_ then .next (s.loaderWaits k src begin_)
  else if s.isLit k src then .next ((s.cfgWrite k src true 0xFE field value).sent k src)
  else .next ((f s).sent k src)

/-- NOP. -/
def execCfgNop (sector : Fin 64) (source : LoadSource) (value : BitVec 16) (s : State) : Host.Outcome State Fault Refusal :=
  s.runControl sector.val source 0 value.toNat (fun a => a.cfgNop sector.val source value.toNat)
/-- BEGIN. -/
def execCfgBegin (sector : Fin 64) (source : LoadSource) (value : BitVec 16) (s : State) : Host.Outcome State Fault Refusal :=
  s.runControl sector.val source 1 value.toNat (fun a => a.cfgBegin sector.val source value.toNat)
/-- ORIGIN. -/
def execCfgOrigin (sector : Fin 64) (source : LoadSource) (value : BitVec 16) (s : State) : Host.Outcome State Fault Refusal :=
  s.runControl sector.val source 2 value.toNat (fun a => a.cfgOrigin sector.val source value.toNat)
/-- BANK. -/
def execCfgBank (sector : Fin 64) (source : LoadSource) (value : BitVec 16) (s : State) : Host.Outcome State Fault Refusal :=
  s.runControl sector.val source 3 value.toNat (fun a => a.cfgBank sector.val source value.toNat)
/-- SEAL. -/
def execCfgSeal (sector : Fin 64) (source : LoadSource) (value : BitVec 16) (s : State) : Host.Outcome State Fault Refusal :=
  s.runControl sector.val source 4 value.toNat (fun a => a.cfgSeal sector.val source value.toNat)
/-- LIT. -/
def execCfgLit (sector : Fin 64) (source : LoadSource) (value : BitVec 16) (s : State) : Host.Outcome State Fault Refusal :=
  s.runControl sector.val source 5 value.toNat (fun a => a.cfgLit sector.val source value.toNat)
/-- SWAP. -/
def execCfgSwap (sector : Fin 64) (source : LoadSource) (value : BitVec 16) (s : State) : Host.Outcome State Fault Refusal :=
  s.runControl sector.val source 6 value.toNat (fun a => a.cfgSwap sector.val source value.toNat)
/-- A write command: CELL 0xFF is a broadcast, and CELL 0xFE with a control code a control command, unless LIT came before. -/
def execCfgWrite (sector : Fin 64) (source : LoadSource) (cell field : BitVec 8) (value : BitVec 16) (s : State) :
    Host.Outcome State Fault Refusal :=
  let begin_ := s.isBegin sector.val source cell.toNat field.toNat
  if !s.loaderTakes sector.val source begin_ then .next (s.loaderWaits sector.val source begin_)
  else if cell = 0xFE ∧ s.isLit sector.val source = false then
    .next ((s.cfgReserved sector.val source field.toNat value.toNat).sent sector.val source)
  else .next ((s.cfgWrite sector.val source (s.isLit sector.val source) cell.toNat field.toNat value.toNat).sent sector.val source)

/-! Positions (R161). -/

/-- A rectangle of cells: sector, x0, y0, w, h. -/
abbrev Rect := Nat × Nat × Nat × Nat × Nat

/-- Two rectangles share a cell. -/
def rectsMeet (a b : Rect) : Bool :=
  a.1 == b.1 && decide (a.2.1 < b.2.1 + b.2.2.2.1) && decide (b.2.1 < a.2.1 + a.2.2.2.1) &&
  decide (a.2.2.1 < b.2.2.1 + b.2.2.2.2) && decide (b.2.2.1 < a.2.2.1 + a.2.2.2.2)

/-- An instance's patch. -/
def Inst.rect (i : Inst) : Rect := (i.sector, i.x0, i.y0, i.w, i.h)

/-- The Timetable places on the sector (R338, R410). -/
def State.sectorTakes (s : State) (k : Nat) : Bool :=
  let t := s.sector k
  t.mode == .inService && !t.closed && !t.oosreq && !t.tripped

/-- Slate entries of a sector in allotments or held for other records. -/
def State.slateUsed (s : State) (key k : Nat) : Nat :=
  ((s.sector k).slateAllot.map (fun e => e.2.2)).sum +
  (((s.dieAt (dieOfSector k)).reserved.filter (fun r => r.key != key)).map (fun r => ((r.slate.filter (fun e => e.1 == k)).map Prod.snd).sum)).sum

/-- A rectangle is free for a record: no patch, cleared or not yet, and nothing held for another record meets it. -/
def State.rectFree (s : State) (key : Nat) (taken : List Rect) (r : Rect) : Bool :=
  !s.insts.any (fun i => rectsMeet i.rect r) && !taken.any (fun t => rectsMeet t r) &&
  !(s.dieAt (dieOfSector r.1)).reserved.any (fun v => v.key != key && v.rects.any (fun t => rectsMeet t r))

/-- The sectors of a die in the order tried (R161). -/
def State.sectorOrder (s : State) (d : Nat) : List Nat :=
  let first := match (s.dieAt d).lastSector with | some k => k + 1 | none => 0
  (List.range 16).map (fun n => 16 * d + (first + n) % 16)

/-- The first position for a patch of w × h cells with `slate` Slate entries. -/
def State.findSpot (s : State) (d key w h slate : Nat) (taken : List (Rect × Nat)) : Option Rect :=
  (s.sectorOrder d).findSome? (fun k =>
    let used := s.slateUsed key k + ((taken.filter (fun t => t.1.1 == k)).map Prod.snd).sum
    if s.sectorTakes k = false ∨ 32768 < used + slate then none else
    (List.range (33 - h)).findSome? (fun y0 =>
      (List.range (17 - w)).findSome? (fun x0 =>
        if s.rectFree key (taken.map Prod.fst) (k, x0, y0, w, h) then some (k, x0, y0, w, h) else none)))

/-- Positions for n stages, stage 0 first. -/
def State.findSpots (s : State) (d key w h slate : Nat) : Nat → Option (List Rect)
  | 0 => some []
  | n + 1 =>
    match s.findSpots d key w h slate n with
    | none => none
    | some l => (s.findSpot d key w h slate (l.map (fun r => (r, slate)))).map (fun r => l ++ [r])

/-! Channels (R154). -/

/-- Hops through a router that are held for other records than `key` (R160) and not laid. -/
def State.heldHops (s : State) (key cell : Nat) : List (Nat × Nat × Nat × Nat) :=
  ((s.dieAt (dieOfCell cell)).reserved.filter (fun v => v.key != key)).flatMap (fun v =>
    (v.hops.filter (fun h => h.1 == cell && !(s.cell cell).transit.contains h.2)).map Prod.snd)

/-- Transit entries of a router that are laid or held (R154, R160). -/
def State.transitUsed (s : State) (key cell : Nat) : Nat := (s.cell cell).transit.length + (s.heldHops key cell).length

/-- A VC of a link out of a cell is free for a record: no transit entry, laid or held, and no route entry of a plane at either end uses
it. -/
def State.vcFree (s trial : State) (key cell port vc : Nat) : Bool :=
  let uses := fun (c : Cell) (out : Bool) (pv : Nat × Nat) =>
    [c.active, c.shadow].any (fun p => (List.range 32).any (fun e =>
      let w := (p.routeWord e).toNat
      (if out then routeOuts w else routeIns w).contains pv))
  !((s.cell cell).transit.any (fun t => t.2.2.1 == port && t.2.2.2 == vc)) &&
  !((s.heldHops key cell).any (fun t => t.2.2.1 == port && t.2.2.2 == vc)) && !uses (trial.cell cell) true (port, vc) &&
  (match s.neighbour cell port with
    | none => false
    | some n => !uses (trial.cell n) false (oppositePort port, vc) && ((s.cell n).inFifo (oppositePort port) vc).isEmpty &&
        ((s.cell cell).linkQ port vc).isEmpty)

/-- The ports of the path from a cell to another: X first, then Y. -/
def pathPorts (a b : Nat) : List Nat :=
  List.replicate (cellX b - cellX a) 1 ++ List.replicate (cellX a - cellX b) 3 ++
  List.replicate (cellY b - cellY a) 2 ++ List.replicate (cellY a - cellY b) 0

/-- Lays a path from a cell and an input to L:DIC: its transit entries, or none where a link has no free VC or a router no entry. -/
def State.layPath (s trial : State) (key cell ip iv dic : Nat) : List Nat → Option (List (Nat × Nat × Nat × Nat × Nat))
  | [] => if 8 ≤ s.transitUsed key cell then none else some [(cell, ip, iv, 4, dic)]
  | p :: rest =>
    if 8 ≤ s.transitUsed key cell then none else
    match (List.range 24).find? (fun v => s.vcFree trial key cell p v), s.neighbour cell p with
    | some v, some n => (s.layPath trial key n (oppositePort p) v dic rest).map (fun l => (cell, ip, iv, p, v) :: l)
    | _, _ => none

/-- Claims the entries of a path. -/
def State.claim (s : State) (hops : List (Nat × Nat × Nat × Nat × Nat)) : State :=
  hops.foldl (fun (a : State) h => a.updCell h.1 (fun c => { c with transit := c.transit ++ [h.2] })) s

/-- Releases the entries of a channel; tokens left on it are discarded with its grid point. -/
def State.unclaim (s : State) (ch : LaidChan) : State :=
  ch.hops.foldl (fun (a : State) h => a.updCell h.1 (fun c =>
    let c1 := if h.2.1 < 4 then c.setInFifo h.2.1 h.2.2.1 [] else c
    let c2 := if h.2.2.2.1 < 4 then c1.setLinkQ h.2.2.2.1 h.2.2.2.2 [] else c1
    { c2 with transit := c2.transit.filter (fun t => t != h.2) })) s

/-- The instance of a stage among those placed: stages that had already retired are not among them. -/
def stageOf (stages : List Inst) (k : Nat) : Option Inst := stages.find? (fun i => i.stage == k)

/-- Lays one channel of a grid point whose stages are `stages`; none where it cannot be laid. R398 checks DSTG and not SSTG: of an entry
whose source stage does not exist nothing is laid, which the spec does not say (DESIGN CHOICE, log 120). -/
def State.layChan (s trial : State) (key : Nat) (j : Job) (stages : List Inst) (gid : Nat) (c : Chan) : Option State :=
  match stageOf stages c.sstg with
  | none => some s
  | some src =>
    let dest := if c.xnode then (s.graphPool j c.xidx).bind (fun q => s.stageInst q.key gid c.dstg) else stageOf stages c.dstg
    match dest with
    | none => if c.xnode then none else some s
    | some di =>
      match src.cellAt c.scell, di.cellAt c.dcell with
      | some a, some b =>
        (s.layPath trial key a 4 c.soc c.dic (pathPorts a b)).map (fun hops =>
          let ch : LaidChan := { hops := hops, src := a, soc := c.soc, dest := di.id, xnode := c.xnode }
          (s.claim hops).updInst src.id (fun x => { x with chans := x.chans ++ [ch] }))
      | _, _ => some s

/-- Lays every channel of a grid point. -/
def State.layAll (s trial : State) (key : Nat) (j : Job) (stages : List Inst) (gid : Nat) : List Chan → Option State
  | [] => some s
  | c :: rest =>
    match s.layChan trial key j stages gid c with
    | none => none
    | some s1 => s1.layAll trial key j stages gid rest

end Sys2Proof.Machine
end

