-- ==== Sys2Proof/Machine/ContextOps.lean ====
section
/-! DEFINITION. Sys2Proof/Machine/ContextOps.lean: the context frame (R168 to R171, R294, R328, R355, R384): what a pre-emption saves of
an instance and its commands, and what a restore writes back (R172). -/
namespace Sys2Proof.Machine
open Sys2Proof

/-! The pool (R328). -/

/-- Frames of the pool: none where CTXLOG2 is out of range. -/
def Die.ctxNum (t : Die) : Nat := if 16 ≤ t.ctxLog ∧ t.ctxLog ≤ 24 then min 1024 (bitsN t.ctxcfg.toNat 58 48) else 0

/-- A frame is in use: not restored, or its instance has not fired, or a save in it awaits service (R172). -/
def State.frameUsed (s : State) (f : Frame) : Bool :=
  f.saves.any (fun v => v.faulted) ||
  (match f.restored with
    | none => true
    | some id => (s.inst id).any (fun i => !i.retired && !i.started))

/-- Frees the frames of a die that are no longer in use. -/
def State.tidyFrames (s : State) (d : Nat) : State :=
  if (s.dieAt d).frames.all s.frameUsed then s else s.updDie d (fun t => { t with frames := t.frames.filter s.frameUsed })

/-- The free frames of a die. -/
def Die.freeFrames (t : Die) : List Nat := (List.range t.ctxNum).filter (fun n => !(t.frames.any (fun f => f.idx == n)))

/-! Sizes and ranges (R170, R171). -/

/-- The handles whose regions are saved (R111). -/
def Plane.savedHandles (p : Plane) : List Handle :=
  ((List.range 32).map p.handle).filter (fun h => h.lvl == 0 && (h.live || h.bar || h.ring))

/-- LO and HI of a cell's saved range: both 0 if none. -/
def Plane.savedRange (p : Plane) : Nat × Nat :=
  match p.savedHandles with
  | [] => (0, 0)
  | h :: r =>
    (r.foldl (fun m x => min m x.base) h.base / 32 * 32, (r.foldl (fun m x => max m x.regionEnd) h.regionEnd + 31) / 32 * 32)

/-- Bytes of a cell's range with its tag bits. -/
def rangeBytes (r : Nat × Nat) : Nat := (r.2 - r.1) + ((r.2 - r.1) / 8 + 63) / 64 * 8

/-- The saved regions with the swizzles they are read through (R113, R170). -/
def Plane.covers (p : Plane) : List (Nat × Nat × Nat) := p.savedHandles.map (fun h => (h.base, h.regionEnd, h.swz))

/-- The swizzle by which a byte offset of the range is read and written back: that of the first saved region that covers it (R170). -/
def coverSwz (l : List (Nat × Nat × Nat)) (a : Nat) : Option Nat :=
  (l.find? (fun e => decide (e.1 ≤ a) && decide (a < e.2.1))).map (fun e => e.2.2)

/-- Bytes of a frame with n command saves. The parts are those the cells' own BAR, RING and LIVE regions have: NBAR and NRING of the profile,
for which no formula is given, are not read (R153, R170, log 117). -/
def State.frameSize (s : State) (i : Inst) (n : Nat) : Nat :=
  let cells := i.w * i.h
  let upto := 256 + 1024 * cells + 256 * n + (i.cells.map (fun c => rangeBytes (s.cell c).active.savedRange)).sum
  if i.slive then (upto + 31) / 32 * 32 + 32 * i.slateLen else upto

/-! Command saves (R294, R355, R384). -/

/-- A list of bytes cut or filled with zeros to n. -/
def padBytes (n : Nat) (l : List Byte) : List Byte := (l ++ List.replicate n 0).take n

/-- The fields of a command save. -/
structure SaveImage where
  image : List Byte
  cursor : Nat
  written : Nat
  kind : Nat
  status : Nat
  cell : Nat
  code : Nat
  d0 : Nat
  d1 : Nat
  time : Nat
  gslot : Nat
  gdst : Nat
  owed : Nat

/-- The 256 bytes of a command save. -/
def SaveImage.bytes (x : SaveImage) : List Byte :=
  padBytes 192 x.image ++ natBytes 8 x.cursor ++ natBytes 4 x.written ++ natBytes 1 x.kind ++ natBytes 1 x.status ++
  natBytes 1 x.cell ++ natBytes 1 0 ++ natBytes 2 x.code ++ natBytes 6 0 ++ natBytes 8 x.d0 ++ natBytes 8 x.d1 ++ natBytes 8 x.time ++
  natBytes 4 0 ++ natBytes 1 x.gslot ++ natBytes 1 x.gdst ++ natBytes 1 x.owed ++ natBytes 9 0

/-- A token with its VALID bit, as 8 bytes (R355). -/
def tokenBytes (t : Token) : List Byte := natBytes 8 (2 ^ 39 + t.bits)

/-- The saved tokens of one operand, at most 4. -/
def operandBytes (l : List Token) : List Byte := padBytes 32 ((l.take 4).flatMap tokenBytes)

/-- Number of a command's kind (R294). -/
def cmdKindCode : CmdKind → Nat
  | .copy => 0 | .gath => 1 | .scat => 2 | .embr => 3

/-- What the save of a command keeps of its fault: code, details, time; of its hold, or of what it met while it was being suspended (R384). -/
def State.cmdFault (s : State) (d : Nat) (hold : Option Nat) (met : Option MetFault) : Option (Nat × Nat × Nat × Nat) :=
  match met with
  | some m => some (m.code, m.d0, m.d1, m.time)
  | none => (hold.bind (s.hold d)).map (fun h => (h.code, h.detail0.toNat, h.detail1.toNat, (h.recs.head?.map FaultRec.time).getD 0))

/-- The tokens of the three operands that a firing's channels hold. -/
def State.headLists (s : State) (cell slot : Nat) : List (Option Nat × List Token) :=
  match (s.slotInstr cell slot).bind operatorFields, (s.instAt cell).bind (fun i => s.feed i cell slot) with
  | some (_, _, f), some fd =>
    [f.sa, f.sb, f.sc].map (fun x => match srcChan x with
      | some (n, _) => (some n, ((s.cell fd.src).chan n).take 4)
      | none => (none, []))
  | _, _ => []

/-- The record of a site in a hold. -/
def Hold.recAt (h : Hold) (cell slot : Nat) : Option FaultRec := h.recs.find? (fun r => r.site == some (cell, slot))

/-- The image of a save. -/
def State.saveImage (s : State) (i : Inst) (v : Save) : SaveImage :=
  let z : SaveImage := ⟨[], 0, 0, 0, if v.faulted then 1 else 0, 0, 0, 0, 0, 0, 0, 0, 0⟩
  let withFault := fun (x : SaveImage) (f : Option (Nat × Nat × Nat × Nat)) =>
    match f with
    | some (c, d0, d1, t) => { x with code := c, d0 := d0, d1 := d1, time := t }
    | none => x
  let recAt := fun (cell slot : Nat) => (i.releasing.bind (s.hold i.die)).bind (fun h => h.recAt cell slot)
  let recFor := fun (cell slot : Nat) =>
    match recAt cell slot with
    | some r => natBytes 64 (r.bits s.package)
    | none => List.replicate 64 0
  let codeFor := fun (cell slot : Nat) => if v.faulted then ((recAt cell slot).map FaultRec.code).getD 0 else 0
  match v.item with
  | .cmd c =>
    withFault { z with image := c.desc, cursor := c.cursor, written := c.counted, kind := cmdKindCode c.kind, cell := i.cellIndex c.cell }
      (s.cmdFault i.die c.hold c.met)
  | .grammar g r =>
    let img := padBytes 32 (if g.op = .eval then g.image else g.image.take 11) ++
      natBytes 1 (match g.op with | .eval => 0 | .load => 1 | _ => 2)
    withFault { z with
      image := img
      cursor := if i.slive then g.cursor else 0
      kind := 4
      cell := i.cellIndex g.cell
      gslot := (r.map Req.slot).getD 0
      gdst := (r.map (fun q => dstCode q.dst)).getD 0
      owed := if r.isSome then 1 else 0 } (s.cmdFault i.die g.hold g.met)
  | .firing cell slot _ toks =>
    let ops := (toks.map (fun e => operandBytes e.2)).flatten
    { z with
      image := recFor cell slot ++ padBytes 96 ops ++ natBytes 4 ((v.subst.map BitVec.toNat).getD 0)
      cursor := slot
      kind := 5
      code := codeFor cell slot
      cell := i.cellIndex cell }
  | .access r =>
    let ops := (r.operands.map (fun t => operandBytes t.toList)).flatten
    let names := r.body.isRemote || r.body.isGlobal
    { z with
      image := (if v.faulted then recFor r.cell r.slot else List.replicate 64 0) ++ padBytes 96 ops ++ natBytes 4 0 ++
        natBytes 4 (if names then r.elem else 0) ++ natBytes 1 (if names then 1 else 0)
      cursor := r.slot
      kind := if v.faulted then 5 else 6
      code := if v.faulted then codeFor r.cell r.slot else 0
      cell := i.cellIndex r.cell }
  | .product p => { z with
      image := recFor p.cell p.slot
      cursor := p.slot
      kind := 5
      code := codeFor p.cell p.slot
      cell := i.cellIndex p.cell }

/-! The image of a cell (R171). -/

/-- Operator state and held token of a route entry (R257). -/
def Cell.routeImage (c : Cell) (e : Nat) : Nat :=
  let st := c.route e
  let b := fun (x : Bool) => if x then 1 else 0
  let op := match bitsN (c.active.routeWord e).toNat 47 44 with
    | 5 => b st.loop
    | 6 => b st.loop
    | 8 => st.c % 4096
    | 9 => b st.phase + 2 * b st.carry
    | _ => 0
  op * 2 ^ 40 + (match st.v with | some t => 2 ^ 39 + t.bits | none => 0)

/-- A slot's 16 bytes. -/
def SlotState.bytes (t : SlotState) : List Byte :=
  natBytes 4 t.iter ++ natBytes 2 t.phaseCount ++ natBytes 1 (t.phase % 4) ++ natBytes 1 0 ++ natBytes 4 t.v.toNat ++
  natBytes 4 (t.k % 4 * 2 ^ 30 + (if t.f then 2 ^ 29 else 0) + t.n % 2 ^ 29)

/-- `CYCLE` of a cell (R312). -/
def State.cycleOf (s : State) (c : Nat) : Nat :=
  let t := s.cell c
  (t.cycleSaved + (match t.cycle0 with | some z => s.cycle (sectorOfCell c) - z | none => 0)) % 2 ^ 32

/-- The state record of a cell. -/
def State.cellImage (s : State) (c : Nat) : List Byte :=
  let t := s.cell c
  let r := t.active.savedRange
  (List.range 16).flatMap (fun n => natBytes 4 (t.reg n).toNat) ++
  (List.range 32).flatMap (fun n => natBytes 4 (t.acc 0 n).toNat) ++
  (List.range 32).flatMap (fun n => natBytes 4 (t.acc 1 n).toNat) ++
  (List.range 8).flatMap (fun n => natBytes 4 (t.active.scale n).toNat) ++
  (List.range 32).flatMap (fun n => natBytes 2 (t.active.handle n).cur) ++
  natBytes 4 t.fpstat.toNat ++ natBytes 1 (t.ptr % 16) ++ natBytes 3 0 ++ natBytes 4 t.trig ++ natBytes 4 (s.cycleOf c) ++
  (List.range 16).flatMap (fun n => (t.slot n).bytes) ++
  (List.range 32).flatMap (fun e => natBytes 8 (t.routeImage e)) ++
  (List.range 16).flatMap (fun n => natBytes 4 (Map.get 0 t.roster n).toNat) ++
  natBytes 2 r.1 ++ natBytes 2 r.2 ++ natBytes 12 0

/-- A cell's saved range with its tag bits. -/
def Cell.rangeImage (c : Cell) : List Byte :=
  let r := c.active.savedRange
  let swz := fun (a : Nat) => (coverSwz c.active.covers a).getD 0
  let words := (r.2 - r.1) / 8
  let tags := (List.range words).foldl (fun (n : Nat) k =>
    let a := r.1 + 8 * k
    if c.tagged (swz a) a then n + 2 ^ k else n) 0
  (List.range (r.2 - r.1)).map (fun k => c.byte (swz (r.1 + k)) (r.1 + k)) ++ natBytes ((words + 63) / 64 * 8) tags

/-- The offsets of the words of a cell's saved range that are uncorrectable: they stay so (R358, log 118). -/
def Cell.badOffsets (c : Cell) : List Nat :=
  if c.badWords.isEmpty then [] else
  let r := c.active.savedRange
  ((List.range ((r.2 - r.1) / 8)).map (fun k => r.1 + 8 * k)).filter (fun a =>
    match coverSwz c.active.covers a with
    | some z => c.badWords.contains (spadWord z a)
    | none => false)

/-- An entry of the Slate in the layout of R279. -/
def SlateEntry.image (e : SlateEntry) : List Byte :=
  e.lanes.flatMap (fun w => natBytes 4 w.toNat) ++ natBytes 1 (e.depth % 64 + if e.valid then 128 else 0) ++ natBytes 15 0

/-! Saving. -/

/-- What is saved of an instance's commands, held firings and waits (R168, R169, R355). -/
def State.savesOf (s : State) (i : Inst) : List Save :=
  let mine := s.cmds.filter (fun c => c.inst == some i.id && c.leaves)
  let gves := (s.sector i.sector).gve.filter (fun g => g.inst == some i.id)
  let sites := i.heldSites
  mine.map (fun c => ⟨.cmd c, c.hold.isSome || c.met.isSome, none⟩) ++
  gves.map (fun g => ⟨.grammar g (s.reqs.find? (fun r => r.body == .grammar g.id)), g.hold.isSome || g.met.isSome, none⟩) ++
  sites.flatMap (fun e =>
    match s.faultedAt i.id e.1 e.2, s.products.filter (fun p => p.inst == i.id && p.cell == e.1 && p.slot == e.2 && p.failed) with
    | [], [] =>
      let r := (i.releasing.bind (s.hold i.die)).bind (fun h => h.recAt e.1 e.2)
      [⟨.firing e.1 e.2 ((r.map FaultRec.code).getD 0) (s.headLists e.1 e.2), true, none⟩]
    | rs, ps => rs.map (fun r => ⟨.access r, true, none⟩) ++ ps.map (fun p => ⟨.product p, true, none⟩)) ++
  i.withdrawn.map (fun r => ⟨.access r, false, none⟩)

/-- The frame header (R170). -/
def State.frameHeader (s : State) (i : Inst) (j : Job) (r : PoolRec) (saves : List Save) : Nat :=
  let b := fun (x : Bool) => if x then 1 else 0
  r.node.toNat * 2 ^ 1536 + saves.length % 256 * 2 ^ 128 + i.die * 2 ^ 125 + i.sector % 16 * 2 ^ 121 + i.y0 * 2 ^ 116 + i.x0 * 2 ^ 112 +
  b (saves.any (fun v => v.faulted)) * 2 ^ 109 + (i.actIdx + 1) % streamCount r.node * 2 ^ 107 + b i.swap.isSome * 2 ^ 106 +
  i.actIdx % 4 * 2 ^ 104 + (s.cell (cellInSector i.sector i.x0 i.y0)).active.ver.toNat * 2 ^ 100 + i.stage % 16 * 2 ^ 96 +
  i.gid % 2 ^ 32 * 2 ^ 64 + b r.dyn * 2 ^ 48 + (if r.dyn then 0 else r.gidx % 2 ^ 16) * 2 ^ 32 + j.number

/-- Some handle of the instance ties it to its patch (R172). -/
def State.tiedToPatch (s : State) (i : Inst) : Bool :=
  i.fixed || i.cells.any (fun c => (List.range 32).any (fun n => ((s.cell c).handle n).pub || ((s.cell c).handle n).mir))

/-- What the tokens held in a cell's route entries depend on. -/
def Cell.heldDeps (c : Cell) : List (Nat × List Nat) :=
  c.routes.filterMap (fun e => e.2.v.bind (fun t => if t.deps.isEmpty then none else some (e.1, t.deps)))

/-- Puts the dependences of the held tokens back (R143). -/
def Cell.putDeps (c : Cell) (l : List (Nat × List Nat)) : Cell :=
  l.foldl (fun (a : Cell) e => a.setRoute e.1 { a.route e.1 with v := (a.route e.1).v.map (fun t => { t with deps := e.2 }) }) c

/-- The record that a save of a faulted command writes (R384): of the code it had when it was held, naming the frame and the command, and its hold ends;
or, of a fault met while it was being suspended, its own record, which names them. -/
def State.saveRecord (s : State) (i : Inst) (idx : Nat) (v : Save) (k : Nat) : State :=
  let place := k % 256 * 2 ^ 56 + idx % 1024 * 2 ^ 46
  let made := fun (a : State) (hold : Option Nat) (met : Option MetFault) (code srck cell slot cur : Nat) =>
    match met, hold with
    | some m, _ =>
      let r0 := a.recInst ((a.baseRec i.die (some i.job) m.code m.lvl srck).atCell cell slot) i
      let named := decide (m.d1 / 2 ^ 46 % 2 ^ 18 = 2 ^ 18 - 1)
      a.pushRec { r0 with
        opw := (a.cell cell).active.opWord slot
        time := m.time
        detail0 := BitVec.ofNat 64 m.d0
        detail1 := BitVec.ofNat 64 (if named then place + m.d1 % 2 ^ 46 else m.d1) }
    | none, some hid =>
      let orig := ((a.hold i.die hid).map Hold.code).getD 0
      let r0 := a.recInst ((a.baseRec i.die (some i.job) code 0 7).atCell cell 0) i
      (a.delHold i.die hid).pushRec { r0 with
        detail0 := BitVec.ofNat 64 orig
        detail1 := BitVec.ofNat 64 (place + cur % 2 ^ 32) }
    | none, none => a
  match v.item with
  | .cmd c => made s c.hold c.met 0x0440 c.srck c.cell c.slot c.cursor
  | .grammar g _ => made s g.hold g.met 0x0540 4 g.cell g.slot g.cursor
  | _ => s

/-- Writes the instance into frame `idx` and takes it off the fabric: its mirrors and Roster slots live in the frame from now on
(R306), its commands and waits with it. -/
def State.saveInst (s : State) (i : Inst) (j : Job) (r : PoolRec) (idx : Nat) : State :=
  let pa := (s.dieAt i.die).ctxPa idx
  let saves := s.savesOf i
  let n := i.w * i.h
  let cmdAt := pa + 256 + 1024 * n
  let rangeAt := cmdAt + 256 * saves.length
  let starts := i.cells.foldl (fun (a : List (Nat × Nat) × Nat) c =>
    (a.1 ++ [(c, a.2)], a.2 + rangeBytes (s.cell c).active.savedRange)) ([], rangeAt)
  let body := natBytes 256 (s.frameHeader i j r saves) ++ i.cells.flatMap s.cellImage ++ saves.flatMap (fun v => (s.saveImage i v).bytes) ++
    i.cells.flatMap (fun c => (s.cell c).rangeImage)
  let s1 := (s.memPutList pa body).healRange pa body.length
  let s2 := if i.slive then
      s1.memPutList (pa + (starts.2 - pa + 31) / 32 * 32)
        ((List.range i.slateLen).flatMap (fun k => (Map.get SlateEntry.reset (s.sector i.sector).slate (i.slateBase + k)).image))
    else s1
  let place := fun (c : Nat) => (starts.1.find? (fun e => e.1 == c)).map Prod.snd
  let s3 : State := { s2 with
    pairs := s2.pairs.map (fun p =>
      let p1 := if s.mirrors i p then
          { p with frame := place p.sub, frameLo := (s.cell p.sub).active.savedRange.1, saved := true }
        else p
      if i.covers p.pub && p1.pubFrame.isNone then
        { p1 with pubFrame := some (pa + 256 + 1024 * (i.relY p.pub * i.w + i.relX p.pub) + 944 + 4 * p.slot) }
      else p1)
    reqs := s2.reqs.filter (fun q => q.inst != i.id)
    cmds := s2.cmds.filter (fun c => !(c.inst == some i.id && c.leaves))
    products := s2.products.filter (fun p => p.inst != i.id) }
  let f : Frame := {
    die := i.die, idx := idx, node := i.node, gid := i.gid, stage := i.stage, job := i.job, sector := i.sector, x0 := i.x0, y0 := i.y0,
    fixed := s.tiedToPatch i, rangeAt := rangeAt, covers := i.cells.map (fun c => (s.cell c).active.covers), bad := i.cells.map (fun c => (s.cell c).badOffsets),
    deps := i.cells.map (fun c => (s.cell c).heldDeps),
    saves := saves, restored := none, absorbed := i.absorbed }
  let s4 := s3.updSector i.sector (fun t => { t with gve := t.gve.filter (fun g => g.inst != some i.id) })
  let s5 := s4.updDie i.die (fun t => { t with frames := t.frames ++ [f] })
  let s6 := (saves.zipIdx).foldl (fun (a : State) e => a.saveRecord i idx e.1 e.2) s5
  let s7 := match i.releasing with
    | some hid => s6.delHold i.die hid
    | none => s6
  s7.updInst i.id (fun x => { x with
    retired := true
    hold := none
    swap := none
    preempt := false
    yielding := false
    parked := false
    withdrawn := []
    releasing := none
    heldSites := [] })

/-- A FACT action that waited for a pre-emption ends (R354). -/
def State.factEnd (s : State) (d hid res : Nat) : State :=
  s.updDie d (fun t => if t.factBusy = some hid then { t with factBusy := none, factRes := res, factDone := t.factDone + 1 } else t)

/-- Saves every stage of a grid point into free frames, whichever they are (R168), and returns the record to the pool. -/
def State.saveGridPoint (s : State) (stages : List Inst) (j : Job) (r : PoolRec) : State :=
  let s1 := stages.foldl (fun (a : State) i =>
    let free := (a.dieAt i.die).freeFrames
    let d := a.draw (max 1 free.length)
    let b := d.2.saveInst i j r (free.getD d.1 0)
    match (b.dieAt i.die).factBusy with
    | some h => if (b.hold i.die h).isNone then b.factEnd i.die h 0 else b
    | none => b) s
  let gid := (stages.head?.map Inst.gid).getD 0
  let s2 := s1.updPool r.die r.key (fun x => { x with
    live := x.live - stages.length
    frames := gid :: x.frames
    since := s.dev
    inPool := true })
  s2.updJob j.key (fun x => { x with npre := x.npre + 1 })

/-! Restoring (R172). -/

/-- Where a cell of the saved patch lies in the restored one. -/
def Frame.place (f : Frame) (i : Inst) (c : Nat) : Nat :=
  cellInSector i.sector (i.x0 + (cellX c % 16 - f.x0)) (i.y0 + (cellY c % 32 - f.y0))

/-- Reads a token with its VALID bit. -/
def tokenAt (v : Nat) : Option Token := if bitsN v 39 39 = 1 then some (tokenOfBits (v % 2 ^ 39)) else none

/-- The state of a route entry from its image (R257). -/
def routeOfImage (rop v : Nat) : RouteState :=
  { RouteState.zero with
    v := tokenAt v
    loop := (rop == 5 || rop == 6) && bitsN v 40 40 == 1
    c := if rop = 8 then bitsN v 51 40 else 0
    carry := rop == 9 && bitsN v 41 41 == 1
    phase := rop == 9 && bitsN v 40 40 == 1 }

/-- Writes a cell's saved state from its image at `pa`, its range from `at_` through the swizzles it was read by, its uncorrectable words still
so. With a swap done on the way only the part of R172 that is always written. -/
def State.restoreCell (s : State) (c pa at_ : Nat) (cov : List (Nat × Nat × Nat)) (bad : List Nat) (swapped : Bool) : State :=
  let rd := fun (o n : Nat) => s.memRead (pa + o) n
  let words := fun (o n : Nat) => (List.range n).foldl (fun (m : Map Word) k => Map.set 0 m k (BitVec.ofNat 32 (rd (o + 4 * k) 4))) []
  let lo := rd 1008 2
  let hi := rd 1010 2
  let t := s.cell c
  let t1 := { t with
    g := words 0 16
    a0 := words 64 32
    a1 := words 192 32
    fpstat := BitVec.ofNat 6 (rd 416 4)
    cycleSaved := rd 428 4
    cycle0 := none
    roster := words 944 16
    perf := []
    psel := [] }
  let p := t1.active
  let t2 := (List.range (hi - lo)).foldl (fun (a : Cell) k =>
    match coverSwz cov (lo + k) with
    | some z => { a with spad := Map.set 0 a.spad (spadKey z (lo + k)) (s.memByte (at_ + k)) }
    | none => a) t1
  let t3 := (List.range ((hi - lo) / 8)).foldl (fun (a : Cell) k =>
    match coverSwz cov (lo + 8 * k) with
    | some z =>
      let w := spadWord z (lo + 8 * k)
      let a1 := if bad.contains (lo + 8 * k) then { a with badWords := w :: a.badWords } else a
      if (s.memByte (at_ + (hi - lo) + k / 8)).toNat / 2 ^ (k % 8) % 2 = 1 then { a1 with tags := w :: a1.tags } else a1
    | none => a) t2
  if swapped then s.setCell c t3 else
  let p1 := (List.range 8).foldl (fun (q : Plane) n =>
    (q.setRt (0x70 + 2 * n) (BitVec.ofNat 16 (rd (320 + 4 * n) 2))).setRt (0x71 + 2 * n) (BitVec.ofNat 16 (rd (322 + 4 * n) 2))) p
  let p2 := (List.range 32).foldl (fun (q : Plane) n => q.setCur n (rd (352 + 2 * n) 2)) p1
  let slot := fun (n : Nat) =>
    let o := 432 + 16 * n
    let w := rd (o + 12) 4
    { SlotState.zero with
      iter := rd o 4
      phaseCount := rd (o + 4) 2
      phase := rd (o + 6) 1 % 4
      v := BitVec.ofNat 32 (rd (o + 8) 4)
      k := bitsN w 31 30
      f := bitsN w 29 29 == 1
      n := bitsN w 28 0 }
  s.setCell c { t3 with
    active := p2
    ptr := rd 420 1 % 16
    trig := rd 424 4
    slots := (List.range 16).foldl (fun (m : Map SlotState) n => if slot n = SlotState.zero then m else Map.put m n (slot n)) []
    routes := (List.range 32).foldl (fun (m : Map RouteState) e =>
      let st := routeOfImage (bitsN (p2.routeWord e).toNat 47 44) (rd (688 + 8 * e) 8)
      if st = RouteState.zero then m else Map.put m e st) [] }

/-- Adds a request to an instance again under a new place in its slot's order. -/
def State.readdReq (s : State) (f : Frame) (i : Inst) (r : Req) : Nat × State :=
  let (id, s1) := s.fresh
  let q : Req := { r with
    id := id
    order := id
    inst := i.id
    cell := f.place i r.cell
    hops := 0
    hopAt := s.now
    retired := i.retired }
  (id, { s1 with reqs := s1.reqs ++ [q] })

/-- Puts saved tokens back at the heads of a cell's channels, under the version in force (R355): a channel that two operands name has them
once. -/
def Cell.putBack (c : Cell) (toks : List (Option Nat × List Token)) : Cell :=
  (toks.filterMap (fun e => e.1.map (fun n => (n, e.2)))).eraseDups.foldl (fun (a : Cell) e =>
    a.setChan e.1 (e.2.map (fun t => t.restamp c.active.ver) ++ a.chan e.1)) c

/-- Puts the saved tokens of a held firing back. -/
def State.putBackSave (s : State) (f : Frame) (i : Inst) (v : Save) : State :=
  match v.item with
  | .firing cell slot _ toks =>
    let c := f.place i cell
    let src := ((s.feed i c slot).map Feed.src).getD c
    s.updCell src (fun t => t.putBack toks)
  | _ => s

/-- Resumes one save at its restored instance (R172 step 4, R294, R355): the tokens of a held firing have been put back. -/
def State.resumeSave (s : State) (f : Frame) (i : Inst) (v : Save) : State :=
  match v.item with
  | .cmd c =>
    { s with cmds := s.cmds ++ [{ c with
        stage := .queued
        hold := none
        retry := false
        met := none
        asked := []
        inst := some i.id
        sector := i.sector
        cell := f.place i c.cell
        x0 := i.x0
        y0 := i.y0
        retired := i.retired }] }
  | .grammar g r =>
    let cell := f.place i g.cell
    let h := listNat g.image 10 1 % 32
    let image := if g.op = .load then g.image.take 32 ++ natBytes 16 ((s.cell cell).active.handleWord h).toNat else g.image
    let g1 : GveCmd := { g with
      running := false
      suspended := false
      cell := cell
      inst := some i.id
      slateBase := i.slateBase
      slateLen := i.slateLen
      image := image
      cursor := if i.slive then g.cursor else 0
      hold := none
      retry := false
      met := none
      retired := i.retired }
    let s1 := s.updSector i.sector (fun t => { t with gve := t.gve ++ [g1] })
    match r with
    | some q => (s1.readdReq f i { q with stage := .waiting }).2
    | none => s1
  | .firing cell slot code _ =>
    match v.subst with
    | some w => s.substFiring (f.place i cell) slot w
    | none => if isSoftware code then s.consumeFiring (f.place i cell) slot else s
  | .access r =>
    let q := s.readdReq f i r
    match v.subst with
    | some w => q.2.answer q.1 w.toNat
    | none => q.2.reissue q.1
  | .product p =>
    let p1 : Product := { p with inst := i.id, cell := f.place i p.cell, failed := false }
    match v.subst with
    | some w => s.substProduct p1 w
    | none => { s with products := s.products ++ [p1] }

/-- A save of a held firing, product or access, which holds the instance until it is serviced (R172). -/
def Save.holds (v : Save) : Bool :=
  v.faulted && (match v.item with | .cmd _ => false | .grammar _ _ => false | _ => true)

/-- The last step of a restore: the next stream is preloaded and the sources resume (R172 step 5). -/
def State.endRestore (s : State) (i : Inst) : State :=
  let multi := ((s.poolRec i.die i.node).map (fun r => decide (1 < streamCount r.node))).getD false
  s.updInst i.id (fun x => { x with
    restoreStep := 0
    parked := false
    needPreload := multi
    lastActive := s.dev })

/-- Holds a restored instance whose held firing still awaits service (R172 step 4): no record is written. -/
def State.holdSaved (s : State) (i : Inst) : State :=
  let (hid, s1) := s.newHid i.die
  let h : Hold := {
    hid := hid, die := i.die, inst := some i.id, cmd := none, kind := .savedFiring, more := [], code := 0, cont := 0, subok := false, sites := [],
    ports := [],
    since := s.dev, written := false, detail0 := 0, detail1 := 0, preempting := false, recs := [] }
  (s1.updDie i.die (fun t => { t with holds := t.holds ++ [h] })).updInst i.id (fun x => { x with hold := some hid, restoreStep := 5 })

/-- Steps 3 to 5 of a restore, once every mirror of the instance is unparked (R172, R306). -/
def State.continueRestore (s : State) (i : Inst) (f : Frame) : State :=
  let pa := (s.dieAt f.die).ctxPa f.idx
  let swapped := bitsN (s.memRead pa 256) 106 106 == 1
  let rect := i.cells.foldl (fun (a : State × Nat × Nat) c =>
    let at_ := pa + 256 + 1024 * a.2.1
    let lo := a.1.memRead (at_ + 1008) 2
    let hi := a.1.memRead (at_ + 1010) 2
    (a.1.restoreCell c at_ a.2.2 (f.covers.getD a.2.1 []) (f.bad.getD a.2.1 []) swapped, a.2.1 + 1, a.2.2 + rangeBytes (lo, hi))) (s, 0, f.rangeAt)
  let s1 := if swapped then rect.1 else (i.cells.zipIdx).foldl (fun (a : State) e => a.updCell e.1 (fun c => c.putDeps (f.deps.getD e.2 []))) rect.1
  let slateAt := pa + (rect.2.2 - pa + 31) / 32 * 32
  let s2 := if i.slive then
      (List.range i.slateLen).foldl (fun (a : State) k =>
        match imageEntry (a.memList (slateAt + 32 * k) 32) with
        | some e => a.updSector i.sector (fun t => { t with slate := Map.set SlateEntry.reset t.slate (i.slateBase + k) e })
        | none => a) s1
    else s1
  let s3 : State := { s2 with pairs := s2.pairs.map (fun p => if s2.publishes i p then { p with pubFrame := none } else p) }
  let s4 := f.saves.foldl (fun (a : State) v => a.putBackSave f i v) s3
  let s5 := f.saves.foldl (fun (a : State) v => if v.faulted then a else a.resumeSave f i v) s4
  if f.saves.any Save.holds then s5.holdSaved i else s5.endRestore i

end Sys2Proof.Machine
end

