-- ==== Sys2Proof/Machine/PlacementOps.lean ====
section
/-! DEFINITION. Sys2Proof/Machine/PlacementOps.lean: placement, restore and the choice of victims (R37, R160 to R162, R167, R172), drain
points and what happens at them (R59, R60, R76), the flip, and the clearing of patches and Slate allotments (R40). -/
namespace Sys2Proof.Machine
open Sys2Proof

/-! Placing a grid point. -/

/-- The outcome of a placement: done, waiting, or failed with its record written. -/
inductive Placing
  | placed (s : State)
  | wait
  | failed (s : State)

/-- Cells of a new instance as R39 leaves them, with its identity (R162). -/
def Cell.start (c : Cell) (gid stage narg : Nat) : Cell :=
  { c.drop with
    flight := []
    g := []
    a0 := []
    a1 := []
    fpstat := 0
    ptr := 0
    slots := []
    routes := []
    spad := []
    hist := []
    tags := []
    badWords := []
    trig := 0
    narg := BitVec.ofNat 32 narg
    instId := BitVec.ofNat 32 gid
    stage := stage
    cycle0 := none
    cycleSaved := 0
    perf := []
    psel := []
    roster := []
    boundary := [] }

/-- The streams that a stage starts under: stream 0, or those its frame names (R162, R172 steps 1 and 2). -/
def State.stageLoads (s : State) (f : Option Frame) : List PlaneLoad :=
  match f with
  | none => [.stream 0 true]
  | some fr =>
    let h := s.memRead ((s.dieAt fr.die).ctxPa fr.idx) 256
    .stream (bitsN h 105 104) true :: (if bitsN h 106 106 = 1 then [.stream (bitsN h 108 107) false] else [])

/-- A new instance on a patch that the Timetable reserves, with its allotments (R38, R162): nothing of it runs until its planes are in. -/
def State.newInst (s : State) (j : Job) (r : PoolRec) (gid stage : Nat) (rect : Rect) (f : Option Frame) : Inst × State :=
  let p := j.profile r.node
  let (id, s1) := s.fresh
  let i : Inst := {
    id := id, job := j.key, node := r.key, gid := gid, stage := stage, sector := rect.1, x0 := rect.2.1, y0 := rect.2.2.1,
    w := rect.2.2.2.1, h := rect.2.2.2.2, spad := profSpad p, slateBase := 32768 * id, slateLen := profSlate p, nhnd := profNhnd p,
    nbar := profNbar p, nring := profNring p, slive := profSlive p, npre := profNpre p, fixed := profFixed p, asid := j.asid,
    swap := none, preempt := false, drainSince := 0, atPoint := none, yielding := false, hold := none, retired := false,
    started := false, absorbed := f.any Frame.absorbed, actIdx := 0, lastActive := s.dev, parkReserved := false, parked := true,
    placedAt := s.now, restoreStep := 1, frame := f.map Frame.idx, lastSeal := none, debugHeld := false,
    barred := false, needPreload := false, loads := s.stageLoads f, loaded := false, chans := [], withdrawn := [], releasing := none, heldSites := [] }
  let s2 := i.cells.foldl (fun (a : State) c => a.updCell c (fun t => t.start gid stage (nodeArg r.node).toNat)) s1
  let s3 := if i.slateLen = 0 then s2 else
    s2.updSector i.sector (fun t => { t with slateAllot := t.slateAllot ++ [(id, i.slateBase, i.slateLen)] })
  (i, { s3 with insts := s3.insts ++ [i] })

/-- What loading a grid point's streams and swapping them in will come to, before it is done: its planes; a wait for an anchor (R322); or a fault of an
instance's, of a LOC handle beyond SPAD (R109) or an anchor that has retired (R400). -/
inductive Trial
  | planes (s : State)
  | wait
  | fails (i : Inst) (code : Nat)

/-- What a stage's loads will come to. -/
def State.tryLoads (s : State) (i : Inst) (j : Job) (r : PoolRec) : List PlaneLoad → Trial
  | [] => .planes s
  | .clear u :: rest => (s.swapCleared i u).tryLoads i j r rest
  | .stream k mayClear :: rest =>
    match s.ttLoad true i j (streamVa r.node k i.stage) mayClear with
    | .ok s1 => if s1.spadOk i then (s1.flipInst i).tryLoads i j r rest else .fails i 0x0803
    | .wait => .wait
    | .gone => .fails i 0x0805
    | .bad s1 _ => .planes s1

/-- What loading every stage will come to. -/
def State.tryStages (s : State) (j : Job) (r : PoolRec) : List Inst → Trial
  | [] => .planes s
  | i :: rest =>
    match s.tryLoads i j r i.loads with
    | .planes s1 => s1.tryStages j r rest
    | o => o

/-- Preloads translations of up to 16 granules from the start of each operand into a sector's cache (R156). -/
def State.preloadOperands (s : State) (k : Nat) (j : Job) (n : BitVec 512) : State :=
  (s.operandsOf j n).foldl (fun (a : State) o =>
    (List.range (min 16 ((o.1 % 65536 + o.2.1 + 65535) / 65536))).foldl (fun (b : State) g =>
      match b.translate k j.asid j.root (o.1 / 65536 * 65536 + 65536 * g) .load with
      | (_, b1) => b1) a) s

/-- Places or restores a grid point on given patches by stage (R37, R162, R172): its patches and allotments are reserved and its channels laid; its
streams are loaded and swapped in from then on. A LOC handle beyond SPAD is found before any of it (R400). -/
def State.placePoint (s : State) (j : Job) (r : PoolRec) (gid : Nat) (spots : List (Nat × Rect)) (frames : List Frame) : Placing :=
  let made := spots.foldl (fun (a : List Inst × State) e =>
    let n := a.2.newInst j r gid e.1 e.2 (frames.find? (fun f => f.stage == e.1))
    (a.1 ++ [n.1], n.2)) ([], s)
  let stages := made.1
  match made.2.tryStages j r stages with
  | .wait => .wait
  | .fails i code => .failed (s.placeFault i code 0 none 0 0 0)
  | .planes trial =>
    match made.2.layAll trial r.key j stages gid ((s.chanList j.asid j.root (j.profile r.node)).getD []) with
    | none => .wait
    | some s2 =>
      let s3 := stages.foldl (fun (a : State) i => a.preloadOperands i.sector j r.node) s2
      let s4 := s3.updPool r.die r.key (fun x =>
        let x1 : PoolRec := { x with
          live := x.live + stages.length
          frames := x.frames.filter (fun g => g != gid)
          nextGp := if frames.isEmpty then x.nextGp + 1 else x.nextGp }
        { x1 with inPool := !(decide (x1.nextGp = x1.total) && x1.frames.isEmpty) })
      let s5 := s4.updDie r.die (fun t => { t with
        lastSector := (spots.getLast?).map (fun e => e.2.1 % 16)
        reserved := t.reserved.filter (fun v => v.key != r.key)
        frames := t.frames.map (fun f =>
          match frames.find? (fun g => g.idx == f.idx), stages.find? (fun i => i.stage == f.stage) with
          | some _, some i => { f with restored := some i.id }
          | _, _ => f) })
      .placed (s5.refill r.die)

/-- The next grid point of a FABRIC record: a pre-empted one first, else the next in key order (R160). -/
def PoolRec.nextPoint (r : PoolRec) (j : Job) : Nat × Bool :=
  match r.frames.getLast? with
  | some g => (g, true)
  | none => (j.gid r.node r.nextGp, false)

/-- The frames of a grid point to be restored, by stage. -/
def State.framesOf (s : State) (r : PoolRec) (gid : Nat) : List Frame :=
  (s.dieAt r.die).frames.filter (fun f => f.node == r.key && f.gid == gid && f.restored.isNone)

/-- The patches of a FABRIC record's next grid point by stage, if free: its own again where it is tied to them (R172), else by R161. The
stages of a grid point that had retired before it was pre-empted need none. -/
def State.spotsFor (s : State) (j : Job) (r : PoolRec) (gid : Nat) (restore : Bool) : Option (List (Nat × Rect)) :=
  let p := j.profile r.node
  let fs := s.framesOf r gid
  let stages := (List.range (nodeStages r.node)).filter (fun k => !restore || fs.any (fun f => f.stage == k))
  if restore && fs.any (fun f => f.fixed) then
    let spots := stages.filterMap (fun k => (fs.find? (fun f => f.stage == k)).map (fun f => (k, f.sector, f.x0, f.y0, profW p, profH p)))
    let ok := spots.all (fun e => s.sectorTakes e.2.1 && s.rectFree r.key [] e.2 &&
      decide (s.slateUsed r.key e.2.1 + profSlate p * (spots.filter (fun x => x.2.1 == e.2.1)).length ≤ 32768))
    if ok then some spots else none
  else (s.findSpots r.die r.key (profW p) (profH p) (profSlate p) stages.length).map (fun l => stages.zip l)

/-- Places the next grid point of a FABRIC record. -/
def State.placeFabric (s : State) (j : Job) (r : PoolRec) : Placing :=
  let g := r.nextPoint j
  match s.spotsFor j r g.1 g.2 with
  | none => .wait
  | some spots => s.placePoint j r g.1 spots (if g.2 then s.framesOf r g.1 else [])

/-- The command bytes of an engine node (R155). -/
def nodeCommand (n : BitVec 512) : List Byte := natBytes 32 (bitsN n.toNat 319 64)

/-- Places a GRAMMAR, COPY or PILOT record (R161): the first unit that can take its command. -/
def State.placeEngine (s : State) (j : Job) (r : PoolRec) : Placing :=
  let p := j.profile r.node
  let started := fun (a : State) => (a.updPool r.die r.key (fun x => { x with running := true, inPool := false, nextGp := 1 })).noteVacated (queueOfPool r.die)
  let serves := fun (k : Nat) => let t := s.sector k; t.mode == .inService && !t.closed && !t.tripped
  match nodeKind r.node with
  | 1 =>
    match (s.sectorOrder r.die).find? (fun k => serves k && decide (s.slateUsed r.key k + profSlate p ≤ 32768)) with
    | none => .wait
    | some k =>
      let (id, s1) := s.fresh
      let g : GveCmd := {
        id := id, op := .eval, running := false, suspended := false, cell := cellInSector k 0 0, slot := 0, inst := none,
        node := some r.key, job := j.key, asid := j.asid, image := nodeCommand r.node, home := 0, slateBase := 32768 * r.key,
        slateLen := profSlate p, cursor := 0, flags := flagNone, result := 0, hold := none, retry := false, met := none,
        retired := false, paid := 0, deps := [] }
      let s2 := s1.updSector k (fun t => { t with
        gve := t.gve ++ [g]
        slateAllot := if profSlate p = 0 then t.slateAllot else t.slateAllot ++ [(r.key, 32768 * r.key, profSlate p)] })
      .placed ((started (s2.preloadOperands k j r.node)).refill r.die)
  | 2 =>
    match (s.sectorOrder r.die).find? (fun k => serves k &&
        decide ((s.cmds.filter (fun c => c.sector == k && c.stage == .queued)).length < 16)) with
    | none => .wait
    | some k =>
      let (id, s1) := s.fresh
      let c : Cmd := {
        id := id, kind := .copy, stage := .queued, sector := k, cell := cellInSector k 0 0, slot := 0, inst := none, node := some r.key,
        job := j.key, asid := j.asid, x0 := 0, y0 := 0, w := 0, h := 0, desc := nodeCommand r.node,
        home := bitsN r.node.toNat 120 64, cursor := 0, written := 0,
        counted := 0, accepted := false, ringDone := false, lanes := [], laneDone := [], shipped := 0, sent := [], fetched := [], translated := 0,
        xl := [], asked := [], paid := 0, hold := none, retry := false, met := none, sentAt := 0,
        deps := [], retired := false }
      .placed ((started (({ s1 with cmds := s1.cmds ++ [c] }).preloadOperands k j r.node)).refill r.die)
  | _ =>
    if (s.dieAt r.die).pool.any (fun q => nodeKind q.node == 3 && q.running && !q.completed && q.key != r.key) then .wait
    else .placed ((started s).refill r.die)

/-- An anchor of the record's streams has retired (R322). -/
def State.anchorGone (s : State) (j : Job) (r : PoolRec) : Bool :=
  r.anchors.any (fun e => match s.anchor j e.1 e.2 with | .gone => true | _ => false)

/-- Places a record's next work: one whose anchor has retired, whichever of its streams names it, is rejected when it is selected (R400). -/
def State.place1 (s : State) (j : Job) (r : PoolRec) : Placing :=
  if nodeKind r.node ≠ 0 then s.placeEngine j r
  else if s.anchorGone j r then
    .failed (((s.pushRec { s.baseRec r.die (some j.key) 0x0805 2 7 with
      gid := r.nextPoint j |>.1
      gidx := if r.dyn then 0 else r.gidx
      dyn := r.dyn })).updJob j.key (fun x => { x with closed := true }))
  else s.placeFabric j r

/-! Victims (R167, R168). -/

/-- The resident stages of a grid point. -/
def State.stagesOf (s : State) (node gid : Nat) : List Inst := s.insts.filter (fun i => i.node == node && i.gid == gid && !i.retired)

/-- Cancels the waits of an instance that drains for a pre-emption (R169): they leave their units and their entries. -/
def State.withdrawWaits (s : State) (id : Nat) : State :=
  let waits := fun (r : Req) => r.inst == id && (r.stage == .waiting || r.stage == .issued) && (match r.body with
    | .barw _ _ => true
    | .ringf _ => true
    | .rrpop => true
    | .copyw _ => true
    | .fence _ _ _ _ => true
    | _ => false)
  if s.reqs.any waits then
    ({ s with reqs := s.reqs.filter (fun r => !waits r) }).updInst id (fun i => { i with withdrawn := i.withdrawn ++ s.reqs.filter waits })
  else s

/-- Requests the pre-emption of every stage of a grid point (R167, R168). -/
def State.preemptPoint (s : State) (stages : List Inst) : State :=
  stages.foldl (fun (a : State) i => (a.requestPreempt i.id).withdrawWaits i.id) s

/-- Command saves an instance would need now. -/
def State.saveCount (s : State) (i : Inst) : Nat :=
  (s.cmds.filter (fun c => c.inst == some i.id && c.inPatch)).length +
  ((s.sector i.sector).gve.filter (fun g => g.inst == some i.id)).length +
  (s.reqs.filter (fun r => r.inst == i.id)).length + i.heldSites.length

/-- R167 allows the grid point as a victim, whatever its priority: not NPRE, no XNODE channel ends at it, not barred by R166, no stage
held (R402) or draining for a pre-emption, and frames for every stage. One whose restore is not done is not yet taken as resident (DESIGN
CHOICE, log 125). -/
def State.mayPreempt (s : State) (stages : List Inst) : Bool :=
  match stages with
  | [] => false
  | i0 :: _ =>
    let t := s.dieAt i0.die
    let pending := (s.insts.filter (fun i => i.die == i0.die && i.preempt && !i.retired)).length
    stages.all (fun i => !i.npre && !i.barred && i.hold.isNone && !i.debugHeld && !i.preempt && i.restoreStep == 0 &&
      decide (s.frameSize i (s.saveCount i) ≤ 2 ^ t.ctxLog) &&
      !s.insts.any (fun o => !o.retired && o.chans.any (fun c => c.xnode && c.dest == i.id))) &&
    decide (stages.length + pending ≤ t.freeFrames.length)

/-- The state with a grid point gone at once, to see what would fit (R167). -/
def State.without (s : State) (stages : List Inst) : State :=
  let ids := stages.map Inst.id
  let s1 := stages.foldl (fun (a : State) i => i.chans.foldl (fun (b : State) c => b.unclaim c) a) s
  let s2 := stages.foldl (fun (a : State) i =>
    a.updSector i.sector (fun t => { t with slateAllot := t.slateAllot.filter (fun e => e.1 != i.id) })) s1
  { s2 with insts := s2.insts.filter (fun i => !ids.contains i.id) }

/-- The record's next grid point would fit. -/
def State.wouldFit (s : State) (r : PoolRec) : Bool :=
  match s.job r.job with
  | none => false
  | some j => match s.placeFabric j r with | .wait => false | _ => true

/-- The grid points resident on a die, one list of stages each. -/
def State.residentPoints (s : State) (d : Nat) : List (List Inst) :=
  let heads := s.insts.filter (fun i => i.die == d && !i.retired)
  (heads.foldl (fun (a : List (Nat × Nat)) i => if a.contains (i.node, i.gid) then a else a ++ [(i.node, i.gid)]) []).map (fun e =>
    s.stagesOf e.1 e.2)

/-- Priority of a resident grid point's record. -/
def State.pointPrio (s : State) (stages : List Inst) : Nat :=
  match stages with
  | [] => 0
  | i :: _ => ((s.poolRec i.die i.node).map s.prio).getD 0

/-- The latest placement time of a grid point. -/
def placedAtMax (stages : List Inst) : Nat := stages.foldl (fun m i => max m i.placedAt) 0

/-- The victim for a record (R167): of the candidates the lowest priority, then the most recently placed. -/
def State.victimFor (s : State) (r : PoolRec) : Option (List Inst) :=
  if nodeKind r.node ≠ 0 then none else
  let cands := (s.residentPoints r.die).filter (fun g => decide (s.pointPrio g < s.level r) && s.mayPreempt g && (s.without g).wouldFit r)
  cands.foldl (fun (best : Option (List Inst)) g =>
    match best with
    | none => some g
    | some b =>
      if s.pointPrio g < s.pointPrio b ∨ (s.pointPrio g = s.pointPrio b ∧ placedAtMax b < placedAtMax g) then some g else best) none

/-- Holds a victim's resources for the record it yields to (R160). -/
def State.reserveFor (s : State) (r : PoolRec) (g : List Inst) : State :=
  match g with
  | [] => s
  | i0 :: _ =>
    let v : Reservation := {
      key := r.key, victim := i0.node, gid := i0.gid, rects := g.map Inst.rect,
      slate := g.map (fun i => (i.sector, i.slateLen)), hops := g.flatMap (fun i => i.chans.flatMap LaidChan.hops) }
    s.updDie r.die (fun t => { t with reserved := t.reserved ++ [v] })

/-! The placement step (R160). -/

/-- The instances that the next grid point's channels to other nodes end at are resident (R154). -/
def State.xnodesStand (s : State) (j : Job) (r : PoolRec) : Bool :=
  nodeKind r.node != 0 ||
  ((s.chanList j.asid j.root (j.profile r.node)).getD []).all (fun c =>
    !c.xnode || ((s.graphPool j c.xidx).bind (fun q => s.stageInst q.key (r.nextPoint j).1 c.dstg)).isSome)

/-- Every anchor of a record's streams stands under the version it names (R322): a record whose anchor has not waits; one whose anchor has
retired is selected, and fails (R400). -/
def State.anchorsStand (s : State) (j : Job) (r : PoolRec) : Bool :=
  r.anchors.all (fun e => match s.anchor j e.1 e.2 with | .wait => false | _ => true)

/-- The record has work to place and is not held back (R154, R156, R322). -/
def State.placeable (s : State) (r : PoolRec) : Bool :=
  r.inPool && !r.completed && (nodeKind r.node != 0 || decide (r.nextGp < r.total) || !r.frames.isEmpty) &&
  (nodeKind r.node == 0 || !r.running) &&
  (match s.job r.job with
    | none => false
    | some j => !j.aborted && !j.closed && s.anchorsStand j r && s.xnodesStand j r && !s.interlocked j r)

/-- The candidates of a die by level descending, then age descending. -/
def State.candidates (s : State) (d : Nat) : List PoolRec :=
  (((s.dieAt d).pool.filter s.placeable).mergeSort (fun a b =>
    decide (s.level b < s.level a) || (decide (s.level a = s.level b) && decide (a.since ≤ b.since))))

/-- Considers the candidates in order until one is placed, or a pinned one is not (R160). -/
def State.consider (s : State) : List PoolRec → State
  | [] => s
  | r :: rest =>
    match s.job r.job with
    | none => s.consider rest
    | some j =>
      match s.place1 j r with
      | .placed s1 => s1
      | .failed s1 => s1
      | .wait =>
        let s1 := if (s.dieAt r.die).reserved.any (fun v => v.key == r.key) then s else
          match s.victimFor r with
          | some g => (s.preemptPoint g).reserveFor r g
          | none => s
        if s1.pinned r then s1 else s1.consider rest

/-- Reservations of records that are gone, or whose victim no longer drains and no longer stands, end. -/
def State.tidyReserved (s : State) (d : Nat) : State :=
  let keep := fun (v : Reservation) => (s.poolRec d v.key).any (fun r => !r.completed && (s.job r.job).any (fun j => !j.aborted && !j.closed)) &&
    ((s.stagesOf v.victim v.gid).isEmpty || (s.stagesOf v.victim v.gid).any (fun i => i.preempt))
  if (s.dieAt d).reserved.all keep then s else s.updDie d (fun t => { t with reserved := t.reserved.filter keep })

/-- A resident grid point of a sector that closes with EVAC, which R167 allows as a victim (R338). -/
def State.evacPoint (s : State) (d : Nat) : Option (List Inst) :=
  (s.residentPoints d).find? (fun g =>
    g.any (fun i => let t := s.sector i.sector; t.mode == .closing && t.evac) && s.mayPreempt g)

/-- A restored instance whose mirrors are all unparked. -/
def State.restoreReady (s : State) (d : Nat) : Option (Inst × Frame) :=
  (s.insts.filter (fun i => i.die == d && !i.retired && i.restoreStep == 3 && i.hold.isNone)).findSome? (fun i =>
    if s.pairs.any (fun p => s.mirrors i p && p.parked) then none
    else ((s.dieAt d).frames.find? (fun f => f.restored == some i.id)).map (fun f => (i, f)))

/-- The instances whose next stream is to be loaded (R165). -/
def State.preloadsDue (s : State) (d : Nat) : List Inst :=
  s.insts.filter (fun i => i.die == d && i.needPreload && !i.retired && !i.parked && s.sectorRuns i.sector &&
    !(s.sector i.sector).loader.tt.any (fun t => t.inst == i.id))

/-- The next act for an instance of a die whose streams are being loaded (R162, R172). -/
def State.loadDue (s : State) (d : Nat) : Option State :=
  (s.insts.filter (fun i => i.die == d && !i.retired && i.restoreStep == 1 && s.sectorRuns i.sector)).findSome? s.loadStep

/-- PLACEMENT_STEP: a doorbell that came while the Timetable stalled is served, a restore goes on, an instance's streams are loaded, a preload is
made, a closing sector is evacuated, else the ready pool is considered (R160, R162, R165, R172, R338, R350). -/
def execPlacementStep (die : Nat) (s : State) : Host.Outcome State Fault Refusal :=
  if s.dieExists die = false ∨ s.frozen = true ∨ s.ttStalls die = true then .next s else
  match (s.dieAt die).doorbell with
  | q :: rest => .next ((s.updDie die (fun t => { t with doorbell := rest })).serveQueue die q)
  | [] =>
  let s0 := ((s.tidyFrames die).tidyReserved die).refill die
  match s0.restoreReady die with
  | some (i, f) => .next (s0.continueRestore i f)
  | none =>
    match (s0.loadDue die).or ((s0.preloadsDue die).findSome? s0.preload) with
    | some s1 => .next s1
    | none =>
      match s0.evacPoint die with
      | some g => .next (s0.preemptPoint g)
      | none =>
        let s1 := s0.findAnchors die
        .next (s1.consider (s1.candidates die))

/-! Drain points (R59). -/

/-- A slot is a source (R58). -/
def State.isSource (s : State) (cell slot : Nat) : Bool :=
  match (s.slotInstr cell slot).bind operatorFields with
  | some (opc, site, f) => (s.slotNeeds opc site f).2.source
  | none => false

/-- Every source of the instance has stopped (R58): no generator, stream load or boundary input stands inside a segment. -/
def State.sourcesStopped (s : State) (i : Inst) : Bool :=
  i.cells.all (fun c =>
    let t := s.cell c
    t.boundary.all (fun e => !e.2) &&
    (List.range 16).all (fun n => !(t.slot n).openSeg || !hdrEn (t.active.header n) || !s.isSource c n || i.heldSites.contains (c, n)))

/-- Channels of a cell whose head tokens a held firing keeps (R354). -/
def State.heldChans (s : State) (i : Inst) (cell : Nat) : List (Nat × Nat) :=
  i.heldSites.flatMap (fun e =>
    if e.1 = cell then (s.headLists e.1 e.2).filterMap (fun h => h.1.map (fun n => (n, h.2.length))) else [])

/-- Every FIFO and link of the instance is empty (R59), but for what a held firing keeps; a hop's FIFO of a channel that only passes is
not the instance's. -/
def State.fifosEmpty (s : State) (i : Inst) : Bool :=
  i.cells.all (fun c =>
    let t := s.cell c
    let passes := fun (key : Nat) (out : Bool) => t.transit.any (fun h =>
      decide (h.1 < 4) && (if out then pvKey h.2.2.1 h.2.2.2 == key else pvKey h.1 h.2.1 == key))
    t.rin.all (fun e => passes e.1 false || e.2.isEmpty) &&
    t.link.all (fun e => passes e.1 true || e.2.isEmpty) &&
    t.pin.all (fun e => e.2.isEmpty || (s.heldChans i c).any (fun h => h.1 == e.1 && decide (e.2.length ≤ h.2)))) &&
  i.chans.all (fun ch => ch.hops.all (fun h =>
    let t := s.cell h.1
    (t.inFifo h.2.1 h.2.2.1).isEmpty && (decide (4 ≤ h.2.2.2.1) || (t.linkQ h.2.2.2.1 h.2.2.2.2).isEmpty)))

/-- The instance is at a drain point (R59): its engine commands, grammar commands too, do not delay it, and entries that a hold keeps do
not count (R168, R354); a swap that a trigger has called for is requested first (R77). -/
def State.quiet (s : State) (i : Inst) : Bool :=
  let keeps := fun (r : Req) => (i.heldSites.contains (r.cell, r.slot) && (match r.stage with | .faulted _ => true | _ => false)) ||
    (match r.body with | .grammar _ => r.stage == .waiting | _ => false)
  i.cells.all (fun c => !(s.cell c).trigDue) && s.sourcesStopped i && s.fifosEmpty i &&
  i.cells.all (fun c => (s.cell c).flight.isEmpty) &&
  s.reqs.all (fun r => r.inst != i.id || keeps r) &&
  s.products.all (fun p => p.inst != i.id || (p.failed && i.heldSites.contains (p.cell, p.slot)))

/-- PARK_RESERVE: at its drain point, every publisher of a draining subscriber reserves a park entry, or one refuses, all reservations of the drain are
released and the instance is held (R306, R394). A hub of another package refuses through the input's flag. -/
def execParkReserve (inst : Nat) (s : State) : Host.Outcome State Fault Refusal :=
  match s.inst inst with
  | none => .next s
  | some i =>
    if !i.preempt || i.retired || i.parkReserved || i.hold.isSome || !s.quiet i then .next s else
    let go := (s.mirrorsOf i).foldl (fun (a : State × Option Pair) p =>
      match a.2 with
      | some _ => a
      | none =>
        if (if p.isExt then s.input.flag else decide (64 ≤ a.1.parkUsed (sectorOfCell p.pub))) then (a.1, some p)
        else (a.1.updPair p.id (fun q => { q with reserved := true }), none)) (s, none)
    match go.2 with
    | none => .next (go.1.updInst inst (fun x => { x with parkReserved := true }))
    | some p =>
      let r := s.baseRec i.die (some i.job) 0x0601 0 5
      let pkg := if p.isExt then p.pub / 2 ^ 15 - 32 else s.package
      let c := p.pub % 2 ^ 15
      let target := pkg * 2 ^ 26 + dieOfCell c * 2 ^ 24 + cellY c % 128 * 2 ^ 17 + cellX c % 64 * 2 ^ 11
      .next (s.takeFault i .park { r with sect := i.sector % 16, detail0 := BitVec.ofNat 64 target } [])

/-- Everything a pre-emption of the instance waits for has come (R168, R306). -/
def State.mayBeSaved (s : State) (i : Inst) : Bool :=
  i.preempt && i.hold.isNone && !i.debugHeld && s.quiet i &&
  s.cmds.all (fun c => c.inst != some i.id || !c.inPatch || c.stage == .suspended || c.stage == .held) &&
  (s.sector i.sector).gve.all (fun g => g.inst != some i.id || g.suspended || (g.hold.isSome && g.op != .read)) &&
  ((s.mirrorsOf i).isEmpty || (i.parkReserved && (s.mirrorsOf i).all (fun p => p.parked && !p.markerDue)))

/-- The cells of a die outside some patches, as rectangles. -/
def cellsOutside (d : Nat) (keep : List Rect) : List Rect :=
  (List.range 16).flatMap (fun n => (patchCells (16 * d + n) 0 0 16 32).filterMap (fun c =>
    let r : Rect := (16 * d + n, cellX c % 16, cellY c % 32, 1, 1)
    if keep.any (rectsMeet r) then none else some r))

/-- The record's next grid point would fit on the patches of a grid point that has gone, all others held (R311). -/
def State.wouldFitOn (s : State) (g : List Inst) (q : PoolRec) : Bool :=
  let v : Reservation := {
    key := q.key + 1, victim := 0, gid := 0, rects := cellsOutside q.die (g.map Inst.rect), slate := [], hops := [] }
  ((s.without g).updDie q.die (fun t => { t with reserved := t.reserved ++ [v] })).wouldFit q

/-- A record of equal or higher level waits and fits on the patches of the instance's grid point (R311). -/
def State.yieldsTo (s : State) (i : Inst) : Bool :=
  let g := s.stagesOf i.node i.gid
  match s.poolRec i.die i.node with
  | none => false
  | some r =>
    s.mayPreempt g && ((s.dieAt i.die).pool.any (fun q => q.key != r.key && s.placeable q && nodeKind q.node == 0 &&
      decide (s.prio r ≤ s.level q) && s.wouldFitOn g q))

/-- The version conflict of a swap token, once the SEAL has taken its cycles (R80): the shadow version (R369). -/
def State.swapConflict (s : State) (i : Inst) : Option (BitVec 4 × BitVec 4) :=
  match (if s.cycle i.sector < s.sealedFrom i.sector i.x0 i.y0 i.w i.h then none else i.swap) with
  | some (.token v) =>
    (i.cells.findSome? (fun c => match (s.cell c).shadowState with
      | .sealed u => if u ≠ v then some (u, v) else none
      | _ => none))
  | _ => none

/-- DRAIN_POINT_REACHED (R59, R60): a `yield` is decided; a pre-emption saves the grid point once every stage may be saved; a swap is
checked against its token and then waits for PLANE_FLIP. -/
def execDrainPointReached (inst : Nat) (s : State) : Host.Outcome State Fault Refusal :=
  match s.inst inst with
  | none => .next s
  | some i0 =>
    if i0.retired || !i0.draining || i0.hold.isSome || !s.sectorRuns i0.sector then .next s else
    let s1 := if i0.preempt then s.withdrawWaits inst else s
    match s1.inst inst with
    | none => .next s1
    | some i =>
      if !s1.quiet i then .next s1
      else if i.yielding && !i.preempt then
        let s2 := s1.updInst inst (fun x => { x with yielding := false, lastActive := s.dev })
        .next (if s1.yieldsTo i then s2.preemptPoint (s2.stagesOf i.node i.gid) else s2)
      else if i.preempt then
        let g := s1.stagesOf i.node i.gid
        match s1.job i.job, s1.poolRec i.die i.node with
        | some j, some r =>
          if g.all s1.mayBeSaved && decide (g.length ≤ (s1.dieAt i.die).freeFrames.length) then
            .next ((g.foldl (fun (a : State) x => a.cutLoads x) s1).saveGridPoint g j r)
          else .next s1
        | _, _ => .next s1
      else
        match s1.swapConflict i with
        | some (u, v) =>
          let r := (s1.baseRec i.die (some i.job) 0x0130 0 7).atCell (cellInSector i.sector i.x0 i.y0) 0
          .next (s1.takeFault i .swap { r with detail0 := BitVec.ofNat 64 (u.toNat * 2 ^ 32 + v.toNat * 2 ^ 36) } [])
        | none => .next (if i.atPoint.isSome then s1 else s1.updInst inst (fun x => { x with atPoint := some s.dev }))

/-- PLANE_FLIP (R60, R76): at the drain point of a swap, when every shadow plane is SEALED, every cell's planes flip. -/
def execPlaneFlip (inst : Nat) (s : State) : Host.Outcome State Fault Refusal :=
  match s.inst inst with
  | none => .next s
  | some i =>
    if i.retired || i.swap.isNone || i.preempt || i.yielding || i.hold.isSome || !s.sectorRuns i.sector || !s.quiet i then .next s
    else
      match s.allSealed i.sector i.x0 i.y0 i.w i.h, s.swapConflict i with
      | some _, none => .next (s.flipInst i)
      | _, _ => .next s

/-- A swap token reaches its patch (R75, R76): it requests a swap of the resident instance; with none, the planes flip at once if all are
SEALED with its version, and the request is discarded otherwise. The flag says that it was discarded. -/
def State.swapArrives (s : State) (k : Nat) (t : SwapToken) : State × Bool :=
  match s.insts.find? (fun i => !i.retired && i.restoreStep != 1 && i.rect == (k, t.x0, t.y0, t.w, t.h)) with
  | some i => (s.requestSwap i.id (.token t.v), false)
  | none =>
    if (s.allSealed k t.x0 t.y0 t.w t.h).isSome && (patchCells k t.x0 t.y0 t.w t.h).all (fun c => (s.cell c).shadowState == .sealed t.v) then
      (s.flipRect k t.x0 t.y0 t.w t.h, false)
    else (s.updLoader k (fun l => { l with status := 1 }), true)

/-- SWAP_TOKEN_ARRIVAL: the oldest swap token of a sector reaches its patch. -/
def execSwapTokenArrival (sector : Nat) (s : State) : Host.Outcome State Fault Refusal :=
  match (s.sector sector).swapTokens with
  | [] => .next s
  | t :: rest =>
    if !s.sectorRuns sector then .next s
    else .next ((s.updSector sector (fun x => { x with swapTokens := rest })).swapArrives sector t).1

/-! Clearing (R40). -/

/-- PATCH_CLEAR: after retirement, once the commands that reach the patch have ended, its scratchpad and tags are cleared and it is
free; the channels of a grid point that is wholly gone are released (R154). -/
def execPatchClear (inst : Nat) (s : State) : Host.Outcome State Fault Refusal :=
  match s.inst inst with
  | none => .next s
  | some i =>
    if !i.retired || s.frozen || s.cmds.any (fun c => c.inst == some inst && c.inPatch) || s.reqs.any (fun r => r.inst == inst) ||
        s.products.any (fun p => p.inst == inst) || i.cells.any (fun c => !(s.cell c).flight.isEmpty) then .next s
    else
      let s1 := i.cells.foldl (fun (a : State) c => a.updCell c (fun t => { t.drop with spad := [], hist := [], tags := [], badWords := [] })) s
      let s2 : State := { s1 with insts := s1.insts.filter (fun x => x.id != inst) }
      match s2.insts.find? (fun x => x.node == i.node && x.gid == i.gid && !x.retired && decide (x.placedAt = i.placedAt)) with
      | some x => .next (s2.updInst x.id (fun y => { y with chans := y.chans ++ i.chans }))
      | none => .next (i.chans.foldl (fun (a : State) c => a.unclaim c) s2)

/-- SLATE_ALLOTMENT_RESET: once no command runs in the allotment of an instance that has gone, or of a node that has completed, its
entries return to their reset state and are free. -/
def execSlateAllotmentReset (allotment : Nat) (s : State) : Host.Outcome State Fault Refusal :=
  if s.frozen then .next s else
  match s.sectors.find? (fun e => e.2.slateAllot.any (fun a => a.1 == allotment)) with
  | none => .next s
  | some (k, t) =>
    match t.slateAllot.find? (fun a => a.1 == allotment) with
    | none => .next s
    | some (_, base, len) =>
      let owned := s.insts.any (fun i => i.id == allotment && !i.retired) ||
        (s.dieAt (dieOfSector k)).pool.any (fun r => r.key == allotment && r.running && !r.engineDone && !r.completed)
      if owned || t.gve.any (fun g => g.slateBase == base) then .next s
      else .next (s.updSector k (fun x => { x with
        slate := x.slate.filter (fun e => !(decide (base ≤ e.1) && decide (e.1 < base + len)))
        slateAllot := x.slateAllot.filter (fun a => a.1 != allotment) }))

end Sys2Proof.Machine
end

