-- ==== Sys2Proof/Machine/PowerOps.lean ====
section
/-! DEFINITION. Sys2Proof/Machine/PowerOps.lean: sector ratios (R332, R333), metering (R334), the Almanac's caps (R336, R337), sectors
out of service (R338), module power (R341) and power and thermal records (R410). -/
namespace Sys2Proof.Machine
open Sys2Proof

/-- The package sector index that the input names: sector 0 to 15 of a die. -/
def State.inSector (s : State) : Nat := 16 * s.input.die + s.input.sector % 16

/-- A power or thermal record: no job, no hold, kept by the Proctor (R410). -/
def State.powerRecord (s : State) (k code level d0 : Nat) : State :=
  let r := s.baseRec (dieOfSector k) none code level 9
  s.pushRec { r with sect := k % 16, detail0 := BitVec.ofNat 64 d0 }

/-- The sectors of the dies present. -/
def State.allSectors (s : State) : List Nat := List.range (16 * s.dies)

/-- Changes every sector present. -/
def State.eachSector (s : State) (f : Nat → Sector → Sector) : State :=
  s.allSectors.foldl (fun (a : State) k => a.updSector k (f k)) s

/-! SCTL (R332, R338). -/

/-- STATE of SCTL. -/
def SectorMode.code : SectorMode → Nat
  | .inService => 0 | .closing => 1 | .gated => 2 | .calib => 3

/-- SCTL as it reads (R332). -/
def Sector.sctl (t : Sector) : Nat :=
  t.mode.code * 2 ^ 30 + (if t.oosreq then 2 ^ 27 else 0) + (if t.evac then 2 ^ 26 else 0) + t.ratio * 2 ^ 22 + t.ratioReq * 2 ^ 20

/-- A sector's cells after CALIB begins: planes reset, scratchpad and tags zeroed (R63, R338). -/
def Cell.calib (c : Cell) : Cell :=
  { c with active := Plane.clear, shadow := Plane.clear, shadowState := .stale, spad := [], hist := [], tags := [], badWords := [] }

/-- The cells of a sector. -/
def sectorCells (k : Nat) : List Nat := patchCells k 0 0 16 32

/-- Follows OOSREQ (R338). -/
def State.followOos (s : State) (k : Nat) : State :=
  let t := s.sector k
  match t.mode with
  | .inService => if t.oosreq then s.setSector k { t with mode := .closing } else s
  | .closing => if t.oosreq then s else s.setSector k { t with mode := .inService, closed := false }
  | .gated =>
    if t.oosreq then s else
    let s1 := s.setSector k { t with mode := .calib, calibSince := s.dev, slate := [] }
    (sectorCells k).foldl (fun (a : State) c => if a.cell c = Cell.reset then a else a.updCell c Cell.calib) s1
  | .calib => s

/-- A write of SCTL: OOSREQ, EVAC and RATIO are taken; a RATIO of 3 is ignored (R332). -/
def State.writeSctl (s : State) (k v : Nat) (oos : Bool) : State :=
  (s.updSector k (fun t => { t with
    oosreq := oos
    evac := bitsN v 26 26 == 1
    ratioReq := if bitsN v 21 20 = 3 then t.ratioReq else bitsN v 21 20 })).followOos k

/-- SECTOR_OUT_OF_SERVICE_REQUEST: SCTL is written with OOSREQ = 1. -/
def execSectorOutOfServiceRequest (s : State) : Host.Outcome State Fault Refusal :=
  if s.dieExists s.input.die = false then .next s
  else if s.frozen then .next (s.defer .sectorOutOfServiceRequest)
  else .next (s.writeSctl s.inSector s.input.value.toNat true)

/-- SECTOR_RETURN_REQUEST: SCTL is written with OOSREQ = 0. -/
def execSectorReturnRequest (s : State) : Host.Outcome State Fault Refusal :=
  if s.dieExists s.input.die = false then .next s
  else if s.frozen then .next (s.defer .sectorReturnRequest)
  else .next (s.writeSctl s.inSector s.input.value.toNat false)

/-- RATIO_REQUEST: SCTL is written with OOSREQ as it stands. -/
def execRatioRequest (s : State) : Host.Outcome State Fault Refusal :=
  if s.dieExists s.input.die = false then .next s
  else if s.frozen then .next (s.defer .ratioRequest)
  else .next (s.writeSctl s.inSector s.input.value.toNat (s.sector s.inSector).oosreq)

/-- Requests that a sector has admitted are still to complete: patches not yet clear, engine and grammar commands, weight records. -/
def State.sectorBusy (s : State) (k : Nat) : Bool :=
  s.insts.any (fun i => i.sector == k) || s.cmds.any (fun c => c.sector == k) || !(s.sector k).gve.isEmpty ||
  (s.sector k).grants.any (fun e => e.2.stuck.isSome)

/-- GATING_SEQUENCE (R338): with no instance resident in a CLOSING sector admission closes; once every admitted request is complete the
grant table and the routing-record queue are emptied and the sector is gated. -/
def execGatingSequence (sector : Nat) (s : State) : Host.Outcome State Fault Refusal :=
  let t := s.sector sector
  if t.mode ≠ .closing ∨ s.frozen = true ∨ t.changing.isSome = true ∨ s.insts.any (fun i => i.sector == sector && !i.retired) = true then .next s
  else if t.closed = false then .next (s.setSector sector { t with closed := true })
  else if s.sectorBusy sector then .next s
  else .next (s.setSector sector { t with mode := .gated, grants := [], rrq := [], tlb := [], slate := [], swapTokens := [], loader := Loader.idle })

/-- A CALIB that fails leaves the sector gated with OOSREQ set and a record of the failing unit (R338, R410). -/
def State.calibFail (s : State) (k unit : Nat) : State :=
  (s.updSector k (fun t => { t with mode := .gated, oosreq := true })).powerRecord k 0x0C06 3 unit

/-- The limit of a CALIB (R338). -/
def calibLimit : Nat := 50000 * usUnits

/-- CALIB_COMPLETE (R338): the self-test of the sector named by the input passes, or names the failing unit in the input's value.
Where OOSREQ was set to 1 meanwhile, the sector enters IN with it set (log 146). -/
def execCalibComplete (s : State) : Host.Outcome State Fault Refusal :=
  let k := s.inSector
  let t := s.sector k
  if t.mode ≠ .calib ∨ s.frozen = true ∨ t.calibSince + calibLimit < s.dev then .next s
  else if s.input.value = 0 then .next (s.setSector k { t with mode := .inService, closed := false })
  else .next (s.calibFail k (s.input.value.toNat % 16))

/-- CALIB_TIMEOUT (R338). -/
def execCalibTimeout (sector : Nat) (s : State) : Host.Outcome State Fault Refusal :=
  let t := s.sector sector
  if t.mode ≠ .calib ∨ s.frozen = true ∨ s.dev ≤ t.calibSince + calibLimit then .next s else .next (s.calibFail sector 5)

/-! Ratio changes (R333). -/

/-- The ratio a sector should run at: the lower-voltage of RATIO and the cap. -/
def Sector.ratioWanted (t : Sector) : Nat := max t.ratioReq t.ratioCap

/-- A bulk transfer is in progress in a sector: an engine command's, or that of a snapshot or an update (R21, R114). -/
def State.bulkBusy (s : State) (k : Nat) : Bool :=
  s.cmds.any (fun c => c.sector == k && (c.stage == .active || c.stage == .suspending)) ||
  s.pairs.any (fun p => sectorOfCell p.sub == k && !p.parked && !p.isExt && !p.queue.isEmpty && p.frame.isNone)

/-- RATIO_CHANGE: the sector's clock stops at its next cycle boundary; `timeBase` is when. -/
def execRatioChange (sector : Nat) (s : State) : Host.Outcome State Fault Refusal :=
  let t := s.sector sector
  if s.sectorRuns sector = false ∨ t.ratioWanted = t.ratio ∨ s.bulkBusy sector = true then .next s
  else
    let u := cycleUnits t.ratio
    .next (s.setSector sector { t with
      cycBase := t.cycBase + (s.now - t.timeBase + u - 1) / u
      timeBase := s.now
      stoppedAt := s.dev
      changing := some t.ratioWanted })

/-- RATIO_CHANGE_COMPLETE: the clock restarts at the new frequency (R27). -/
def execRatioChangeComplete (sector : Nat) (s : State) : Host.Outcome State Fault Refusal :=
  let t := s.sector sector
  match t.changing with
  | none => .next s
  | some r =>
    if s.frozen then .next s else
    let past := if s.insts.any (fun i => i.sector == sector) then t.stops else []
    .next (s.setSector sector { t with ratio := r, changing := none, timeBase := s.now, stops := (t.stoppedAt, s.dev) :: past })

/-! Metering (R334). -/

/-- METER_INTERVAL: a new 1 µs interval of device time (R343); what is left of a budget is lost. -/
def execMeterInterval (s : State) : Host.Outcome State Fault Refusal :=
  if s.frozen = true ∨ s.deviceNs / 1000 = s.meterAt then .next s
  else
    let s1 : State := { s with meterAt := s.deviceNs / 1000 }
    .next (s1.eachSector (fun _ t => { t with rem := 256 * t.budgetNow, movedLast := t.moved, moved := 0 }))

/-! The Almanac (R336, R337) and the module (R341). -/

/-- Caps of ratio and board in force, from the Almanac's and the Proctor's own, unless the brake's are held. -/
def Sector.applyCaps (t : Sector) (brake : Bool) : Sector :=
  if brake then { t with ratioCap := 2, boardCap := 16 } else { t with ratioCap := t.almCap, boardCap := t.procCap }

/-- One sector's cap after a prediction: lowered above TWARN, raised after 10 updates below TWARN − 5, L above TTRIP; placement is
barred from a trip until the prediction falls below TWARN (R337, R410). -/
def Sector.almanac (t : Sector) (temp twarn ttrip : Int) : Sector :=
  let cool := if temp < twarn - 5 then t.coolRun + 1 else 0
  let cap := if ttrip < temp then 2
    else if twarn < temp then min 2 (t.almCap + 1)
    else if 10 ≤ cool then t.almCap - 1 else t.almCap
  { t with
    almCap := cap
    coolRun := if 10 ≤ cool then 0 else cool
    hotRun := if ttrip < temp ∧ t.ratio = 2 then t.hotRun + 1 else 0
    tripped := if ttrip < temp then true else if temp < twarn then false else t.tripped }

/-- The Almanac's update of one sector, with its records. -/
def State.almanacSector (s : State) (k : Nat) (temp : Int) : State :=
  let d := s.dieAt (dieOfSector k)
  let t := s.sector k
  let u := (t.almanac temp d.twarn d.ttrip).applyCaps s.proctor.brake
  let s1 := s.setSector k { u with hotRun := if 10 ≤ u.hotRun then 0 else u.hotRun }
  let s2 := if d.ttrip < temp ∧ t.tripped = false then s1.powerRecord k 0x0C01 0 0 else s1
  if 10 ≤ u.hotRun then s2.powerRecord k 0x0C02 3 0 else s2

/-- ALMANAC_UPDATE (R336): once a millisecond, with the predicted junction temperatures of the sectors, which the input brings. -/
def execAlmanacUpdate (s : State) : Host.Outcome State Fault Refusal :=
  if s.frozen = true ∨ s.dev < s.proctor.almanacAt + 1000 * usUnits then .next s
  else
    let p := s.input.ints
    let s1 : State := { s with proctor := { s.proctor with almanacAt := s.dev, predictions := p, brakeCaps := s.proctor.brake } }
    .next (s.allSectors.foldl (fun (a : State) k => a.almanacSector k (p.getD k 0)) s1)

/-- The board power limit in W, as the FRU EEPROM holds it: 1,500 on a GX4-M (R2, R341). -/
def State.boardLimit (s : State) : Nat := s.proctor.fru.powerLimit

/-- Sets the Proctor's caps, in force at once unless the brake's are held. -/
def State.setCaps (s : State) (f : Nat → Sector → Nat) : State :=
  let held := s.proctor.brakeCaps
  s.eachSector (fun k t => let u : Sector := { t with procCap := f k t }
    if held then u else { u with boardCap := u.procCap })

/-- Half of a sector's budget in force, or of what it moved in the last interval (R410). -/
def Sector.halfCap (t : Sector) : Nat := if t.budgetNow = 0 then max 1 (t.movedLast / 256 / 2) else max 1 (t.budgetNow / 2)

/-- Every ratio and board cap is applied: no sector runs above its cap. -/
def State.capsApplied (s : State) : Bool := s.allSectors.all (fun k => let t := s.sector k; decide (t.ratioCap ≤ t.ratio))

/-- POWER_MONITOR_SAMPLE (R341, R410): every 100 µs, with the measured power in the input's value and the caps the Proctor chooses in
its numbers, 0 for none. -/
def execPowerMonitorSample (s : State) : Host.Outcome State Fault Refusal :=
  if s.frozen = true ∨ s.dev < s.proctor.powerAt + 100 * usUnits then .next s
  else
    let w := s.input.value.toNat
    let high := decide (s.boardLimit < w) && s.capsApplied
    let since := if high then (match s.proctor.powerHighSince with | some t => some t | none => some s.dev) else none
    let released := s.proctor.halved && decide (100 * w < 95 * s.boardLimit)
    let s1 : State := { s with proctor := { s.proctor with
      powerAt := s.dev
      power := w
      powerHighSince := since
      halved := s.proctor.halved && !released } }
    match since with
    | some t =>
      if t + 10000 * usUnits ≤ s.dev ∧ s.proctor.halved = false then
        let s2 : State := { s1 with proctor := { s1.proctor with halved := true } }
        .next ((s2.setCaps (fun _ t => t.halfCap)).powerRecord 0 0x0C03 0 0)
      else .next (if s1.proctor.halved then s1 else s1.setCaps (fun k _ => (s.input.ints.getD k 0).toNat))
    | none => .next (if s1.proctor.halved then s1 else s1.setCaps (fun k _ => (s.input.ints.getD k 0).toNat))

/-- SENSOR_OVERTEMP (R410): the input's first number is the reading; with its flag it is a package sensor's. -/
def execSensorOvertemp (s : State) : Host.Outcome State Fault Refusal :=
  let t := s.input.ints.getD 0 0
  if s.input.flag then (if 125 < t then .next (s.powerRecord s.inSector 0x0C05 4 0) else .next s)
  else if 115 < t then .next (s.powerRecord s.inSector 0x0C02 3 0) else .next s

/-- CONVERTER_FAULT (R410). -/
def execConverterFault (s : State) : Host.Outcome State Fault Refusal := .next (s.powerRecord s.inSector 0x0C04 3 0)

/-- POWER_BRAKE_ASSERT (R341). -/
def execPowerBrakeAssert (s : State) : Host.Outcome State Fault Refusal :=
  let s1 : State := { s with proctor := { s.proctor with brake := true, brakeCaps := true } }
  .next (s1.eachSector (fun _ t => t.applyCaps true))

/-- POWER_BRAKE_RELEASE (R341): the caps resume at the Almanac's next update. -/
def execPowerBrakeRelease (s : State) : Host.Outcome State Fault Refusal :=
  .next { s with proctor := { s.proctor with brake := false } }

end Sys2Proof.Machine
end

