-- ==== Sys2Proof/Machine/FaultOps.lean ====
section
/-! DEFINITION. Sys2Proof/Machine/FaultOps.lean: writing fault records (R349, R350, R399) and what the device does at levels 2 to 4
(R357), the package reset (R24, R63), the handler's registers and actions (R351 to R355, R383), and the time limits (R356, R377, R401);
scrubbing (R359). -/
namespace Sys2Proof.Machine
open Sys2Proof

/-! Reset (R24, R63, R343). -/

/-- The package after a reset: every register at its reset value, device time 0; memory, the straps, the fuse, the levels of FRZ_N and of the power
brake, with the caps that hold while it is asserted (R341), and what lies outside the package stay. A level-4 reset keeps the Proctor's records (R357). -/
def State.resetPackage (s : State) (dies hbmStacks : Nat) (keep : Bool) : State :=
  let s1 : State := { State.reset with
    turns := s.turns
    input := s.input
    draws := s.draws
    nextId := s.nextId
    dies := dies
    hbmStacks := hbmStacks
    cut := s.cut
    deferred := s.deferred
    package := s.package
    mem := s.mem
    badMem := s.badMem
    msix := s.msix
    responses := s.responses
    proctor := { Proctor.reset with
      kept := if keep then s.proctor.kept else []
      freezeFuse := s.proctor.freezeFuse
      brake := s.proctor.brake
      brakeCaps := s.proctor.brake
      frzPin := s.proctor.frzPin } }
  if s.proctor.brake then s1.eachSector (fun _ t => t.applyCaps true) else s1

/-- DEVICE_RESET: the straps are read from the input: the die count, the populated stacks as a bit mask (R24), and the seams that the carrier
leaves unconnected (R18). -/
def execDeviceReset (s : State) : Host.Outcome State Fault Refusal :=
  .next { s.resetPackage s.input.size s.input.index false with cut := s.input.port }

/-! Writing records (R350). -/

/-- A sector leaves service at level 3 (R357): every job with an instance resident there is lost. -/
def State.sectorOut (s : State) (k : Nat) : State :=
  let s1 := (s.updSector k (fun t => { t with oosreq := true })).followOos k
  let jobs := ((s1.insts.filter (fun i => i.sector == k && !i.retired)).map Inst.job).eraseDups
  jobs.foldl (fun (a : State) j => a.abortJob j) s1

/-- The loss that a record's level brings (R357): of its job, of its sector, or of the package. -/
def State.lossOf (s : State) (r : FaultRec) : State :=
  match r.cont with
  | 2 => match r.job with
    | some j => s.abortJob j
    | none => s
  | 3 => s.sectorOut (16 * r.die + r.sect)
  | 4 => s.resetPackage s.dies s.hbmStacks true
  | _ => s

/-- A record is written or kept: it freezes the package as FRZLVL says, and its loss then waits for the release; otherwise the loss follows at once (R357,
R411). -/
def State.lossAfter (s : State) (r : FaultRec) : State :=
  if s.proctor.freezeEnable && decide ((s.dieAt r.die).frzlvl ≤ r.cont) && decide ((s.dieAt r.die).frzlvl ≤ 4) then
    { s with proctor := { s.proctor with
      frzProctor := match s.proctor.frzProctor with | some p => some p | none => some 2
      lossDue := s.proctor.lossDue ++ [r] } }
  else s.lossOf r

/-- What the device does once a record is written (R352, R357, R411): interrupts, freeze, and the fate of job, sector and package. -/
def State.afterRecord (s : State) (r : FaultRec) : State :=
  let s1 := if r.code / 256 = 0x0C then s.raiseMsi 266 else s
  let s2 := if r.cont = 2 ∨ r.cont = 3 then s1.raiseMsi (256 + r.die) else s1
  let s3 := if r.cont = 4 ∧ r.kept = true then s2.raiseMsi 264 else s2
  s3.lossAfter r

/-- Takes a record off its die's list. -/
def State.dropRec (s : State) (d idx : Nat) : State := s.updDie d (fun t => { t with records := t.records.eraseIdx idx })

/-- Marks a hold's record as written: its sequence number, and the start of the hold limit (R356). -/
def Hold.noteWritten (h : Hold) (r : FaultRec) (seq now : Nat) : Hold :=
  { h with
    written := true
    since := if h.written then h.since else now
    recs := h.recs.map (fun x => if x.code = r.code ∧ x.x = r.x ∧ x.y = r.y ∧ x.slot = r.slot ∧ x.site = r.site ∧ x.port = r.port ∧ x.found = r.found then { x with seq := seq } else x) }

/-- Keeps a record at the Proctor (R345, R357, R399). -/
def State.keepRec (s : State) (r : FaultRec) : State :=
  { s with proctor := { s.proctor with kept := s.proctor.kept ++ [r] } }

/-- A notice of the die's list (R351). -/
def noticeOf (r : FaultRec) : BitVec 64 :=
  BitVec.ofNat 64 (2 ^ 63 + r.hid % 1024 * 2 ^ 48 + r.code % 65536 * 2 ^ 32 + r.jobNo % 2 ^ 32)

/-- Diverts a record whose fault queue is unusable (R399): kept by the Proctor, and its job lost under a second kept record. -/
def State.divertRec (s : State) (r : FaultRec) : State :=
  let s1 := s.keepRec { r with kept := true }
  match r.job.bind s.job with
  | none => (s1.raiseMsi 267).lossAfter r
  | some j =>
    let again := j.lost
    let r2 : FaultRec := { s1.baseRec r.die (some j.key) 0x0E07 2 7 with kept := true }
    let s2 := if again then s1 else s1.keepRec r2
    let named := fun (l : List (Nat × Nat)) => if l.contains (j.asid, j.fq) then l else (j.asid, j.fq) :: l
    let s3 : State := { s2 with
      jobs := s2.jobs.map (fun x =>
        if x.key = j.key then { x with nflt := x.nflt + (if again then 1 else 2), lost := true, divert := true }
        else if x.asid = j.asid ∧ x.fq = j.fq then { x with divert := true } else x)
      proctor := { s2.proctor with diverted := named s2.proctor.diverted } }
    let s4 := (s3.raiseMsi 267).lossAfter r
    if again then s4 else s4.lossAfter r2

/-- Writes a record with its sequence number into its slot (R349, R350), and appends the notice. -/
def State.storeRec (s : State) (r : FaultRec) (pa seq : Nat) : State :=
  let r1 : FaultRec := { r with seq := seq }
  let s1 := (s.memWrite pa (r1.bits s.package) 64).healRange pa 64
  let s2 := (s1.updDie r.die (fun t => { t with notices := t.notices ++ [noticeOf r1] })).updDie r.holdDie (fun t => { t with
    holds := t.holds.map (fun h => if h.hid = r.hid then h.noteWritten r seq s.dev else h) })
  let s3 := match r.job with | some j => s2.updJob j (fun x => { x with nflt := x.nflt + 1 }) | none => s2
  s3.afterRecord r1

/-- The first record of a die that does not wait for its slot, with its place: one whose cycle is over, since those of one cycle are written in order
(R345). -/
def State.nextRec (s : State) (d : Nat) : Option (FaultRec × Nat) :=
  (s.dieAt d).records.zipIdx.find? (fun e => !e.1.tried && decide (e.1.found < s.cycleStart (16 * d + e.1.sect)))

/-- FAULT_RECORD_WRITE (R350): the next record of a die is kept by the Proctor, diverted, or claimed in its fault queue and, if the
slot is free, written. -/
def execFaultRecordWrite (die : Nat) (s : State) : Host.Outcome State Fault Refusal :=
  let t := s.dieAt die
  if s.frozen then .next s else
  match s.nextRec die with
  | none => .next s
  | some (r, idx) =>
    if r.kept then .next (((s.dropRec die idx).keepRec r).afterRecord r)
    else if 256 ≤ t.notices.length then .next s
    else if (r.job.bind s.job).any (fun j => j.divert) then .next ((s.dropRec die idx).divertRec r)
    else
      match s.readHeader r.asid r.root r.fq with
      | .error _ => .next ((s.dropRec die idx).divertRec r)
      | .ok h =>
        let seq := if r.claimed then r.seq else h.widx
        match s.ttXlat r.asid r.root (h.slot seq) .store with
        | none => .next ((s.dropRec die idx).divertRec r)
        | some pa =>
          let s1 := if r.claimed then s else s.putHeader h 0 (h.widx + 1)
          if seq - h.ridx < 2 ^ h.logn then .next ((s1.dropRec die idx).storeRec r pa seq)
          else .next (s1.updDie die (fun x => { x with
            retryAt := s.dev + usUnits
            records := x.records.set idx { r with claimed := true, tried := true, seq := seq } }))

/-- The first waiting record whose slot is free by now, or whose queue no longer translates. -/
def State.retryRec (s : State) (d : Nat) : Option (FaultRec × Nat × Option Nat) :=
  (s.dieAt d).records.zipIdx.findSome? (fun e =>
    if !e.1.tried then none else
    match s.readHeader e.1.asid e.1.root e.1.fq with
    | .error _ => some (e.1, e.2, none)
    | .ok h =>
      if e.1.seq - h.ridx < 2 ^ h.logn then some (e.1, e.2, s.ttXlat e.1.asid e.1.root (h.slot e.1.seq) .store) else none)

/-- FAULT_QUEUE_RETRY (R350): every 1 µs RIDX is read again for the records that wait for their slots. -/
def execFaultQueueRetry (die : Nat) (s : State) : Host.Outcome State Fault Refusal :=
  let t := s.dieAt die
  if s.frozen = true ∨ s.dev < t.retryAt ∨ 256 ≤ t.notices.length then .next s
  else
    let s1 := s.updDie die (fun x => { x with retryAt := s.dev + usUnits })
    match s.retryRec die with
    | none => .next s1
    | some (r, idx, none) => .next ((s1.dropRec die idx).divertRec r)
    | some (r, idx, some pa) => .next ((s1.dropRec die idx).storeRec r pa r.seq)

/-- A read of FNOTE takes the oldest notice, 0 if there is none (R351). -/
def State.popNote (s : State) (d : Nat) : BitVec 64 × State :=
  let v := (s.dieAt d).notices.headD 0
  (v, s.updDie d (fun t => { t with notices := t.notices.tail, lastNote := v }))

/-- FNOTE_READ (R351): the oldest notice of the die named by the input, or 0. -/
def execFnoteRead (s : State) : Host.Outcome State Fault Refusal :=
  let d := s.input.die
  if s.dieExists d = false then .next s
  else if s.frozen then .next (s.defer .fnoteRead)
  else
    let r := s.popNote d
    .next { r.2 with responses := r.2.responses ++ [r.1] }

/-! Cancelling a pre-emption. -/

/-- The pre-emption of an instance is abandoned: its sources resume, park reservations and slots return, its withdrawn waits are
reissued, and no record keeps its patch (R354, R394). -/
def State.cancelPreempt (s : State) (i : Inst) : State :=
  let parked := (s.mirrorsOf i).filter (fun p => p.parked)
  let s1 := (s.mirrorsOf i).foldl (fun (a : State) p => a.updPair p.id (fun q => { q with reserved := false, parked := false })) s
  let s2 := parked.foldl (fun (a : State) p => a.setSlotState p 2) s1
  let s3 := s2.updInst i.id (fun x => { x with preempt := false, parkReserved := false, withdrawn := [], lastActive := s.dev })
  let s4 : State := { s3 with reqs := s3.reqs ++ i.withdrawn }
  let s5 := i.withdrawn.foldl (fun (a : State) r => a.reissue r.id) s4
  let s6 : State := { s5 with cmds := s5.cmds.map (fun c => if c.inst = some i.id then c.goOn else c) }
  let s7 := s6.updSector i.sector (fun t => { t with gve := t.gve.map (fun g => if g.inst = some i.id then { g with suspended := false, running := false, met := none } else g) })
  s7.updDie i.die (fun t => { t with reserved := t.reserved.filter (fun v => !(v.victim == i.node && v.gid == i.gid)) })

/-- The pre-emption of a grid point is abandoned. -/
def State.cancelPoint (s : State) (i : Inst) : State :=
  ((s.stagesOf i.node i.gid).filter (fun x => x.preempt)).foldl (fun (a : State) x => a.cancelPreempt x) s

/-! Handler actions (R353, R354). -/

/-- What FACT's write names. -/
def factIdx (v : BitVec 512) : Nat := bitsN v.toNat 57 48
def factCmd (v : BitVec 512) : Nat := bitsN v.toNat 47 40
def factValue (v : BitVec 512) : Word := BitVec.ofNat 32 v.toNat

/-- Ends a FACT write with a result (R351): 0 DONE, 1 REFUSED, 2 BADID, 3 FAILED. -/
def State.factDo (s : State) (d res : Nat) : State := s.updDie d (fun t => { t with factRes := res, factDone := (t.factDone + 1) % 2 ^ 32 })

/-- FSTAT as it reads (R351). -/
def Die.fstat (t : Die) : Nat := t.factDone % 2 ^ 32 * 2 ^ 32 + t.factRes % 4

/-- Replaces the token that stands before a router input (R358). -/
def State.replaceToken (s : State) (cell port vc : Nat) (k : Kind) (v : Word) : State :=
  match s.neighbour cell port with
  | none => s
  | some n => s.updCell n (fun c => match c.linkQ (oppositePort port) vc with
    | t :: rest => c.setLinkQ (oppositePort port) vc ({ t with tok := t.tok.retag k v } :: rest)
    | [] => c)

/-- The sequence number of the record of the token that a hold keeps at a router input. -/
def Hold.portSeq (h : Hold) (e : Nat × Nat) : Nat := ((h.recs.find? (fun r => r.port == some e)).map FaultRec.seq).getD 0

/-- Puts POISON in place of the tokens a hold keeps at router inputs (R348, R358). -/
def State.poisonSites (s : State) (h : Hold) : State :=
  h.ports.foldl (fun (a : State) e => a.replaceToken e.1 (e.2 / 32) (e.2 % 32) .poison (poisonPayload 0x0D01 (h.portSeq e))) s

/-- RESUME of one faulting firing or of the requests and products of its site (R354, R373, R380). -/
def State.resumeSite (s : State) (i : Inst) (h : Hold) (cell slot : Nat) : State :=
  let code := ((h.recAt cell slot).map FaultRec.code).getD 0
  let reqs := s.faultedAt i.id cell slot
  let here := fun (p : Product) => p.inst == i.id && p.cell == cell && p.slot == slot && p.failed
  if !reqs.isEmpty then reqs.foldl (fun (a : State) r => a.reissue r.id) s
  else if s.products.any here then { s with products := s.products.map (fun p => if here p then { p with failed := false } else p) }
  else if isSoftware code then s.consumeFiring cell slot
  else s.updCell cell (fun c => { c with ptr := slot })

/-- SUBST of the one site of a hold (R354, R380). -/
def State.substSite (s : State) (i : Inst) (cell slot : Nat) (v : Word) : State :=
  match s.faultedAt i.id cell slot, s.products.find? (fun p => p.inst == i.id && p.cell == cell && p.slot == slot && p.failed) with
  | r :: _, _ => s.answer r.id v.toNat
  | [], some p => s.substProduct p v
  | [], none => s.substFiring cell slot v

/-- RESUME of a held grant entry: the weight record is written again (R409). -/
def State.resumeGrant (s : State) (d : Nat) (h : Hold) (id : Nat) : State :=
  let k := id / 16
  let n := id % 16
  let g := Map.get Grant.reset (s.sector k).grants n
  let s0 := s.delHold d h.hid
  match g.stuck with
  | none => s0
  | some w =>
    match s0.weightWrite k g.wbase w with
    | .ok s1 => s1.setGrant k n { g with stuck := none }
    | .error e => s0.holdGrant k n g w e h.inst (s.cmdJob h)

/-- A GVE command of any sector. -/
def State.onGve (s : State) (id : Nat) (f : GveCmd → GveCmd) : State :=
  { s with sectors := s.sectors.map (fun e =>
      if e.2.gve.any (fun g => g.id == id) then (e.1, { e.2 with gve := e.2.gve.map (fun g => if g.id = id then f g else g) }) else e) }

/-- RESUME of an instance's hold (R354, R369, R378, R394, R401): whatever faults it covers, the tokens it keeps become POISON, its firings and
requests are reissued, a drain's clock starts again, a pending swap is dropped and a pre-emption that could not park is abandoned. -/
def State.resumeInst (s : State) (d : Nat) (h : Hold) (i : Inst) : State :=
  let s1 := (s.poisonSites h).endHold d h.hid
  let s2 := h.sites.eraseDups.foldl (fun (a : State) e => a.resumeSite i h e.1 e.2) s1
  let s3 := if h.has .drain then s2.updInst i.id (fun x => { x with drainSince := s.dev }) else s2
  let s4 := if h.has .swap || h.has .swapStuck then s3.updInst i.id (fun x => { x with swap := none, atPoint := none }) else s3
  if h.has .park then s4.cancelPoint i else s4

/-- RESUME ends a hold that it may end (R354, R383, R409). -/
def State.resumeHold (s : State) (d : Nat) (h : Hold) : State :=
  match h.kind, h.cmd, h.inst.bind s.inst with
  | .command, some id, _ => (s.updCmd id (fun c => { c with stage := .queued, hold := none, retry := true })).delHold d h.hid
  | .grammar, some id, _ => (s.onGve id (fun g => { g with running := false, hold := none, retry := true })).delHold d h.hid
  | .grant, some id, _ => s.resumeGrant d h id
  | _, _, some i => s.resumeInst d h i
  | _, _, none => s.endHold d h.hid

/-- An action of FACT with FRM = 0 (R354): BADID where its HID names no hold. -/
def State.factHold (s : State) (d hid : Nat) (act : Hold → State) : State :=
  match s.hold d hid with
  | none => s.factDo d 2
  | some h => act h

/-- RESUME of a hold. -/
def State.factResume (s : State) (d hid : Nat) : State :=
  s.factHold d hid (fun h => if h.cont ≠ 0 ∨ h.kind = .savedFiring then s.factDo d 1 else (s.resumeHold d h).factDo d 0)

/-- SUBST: the firing, access, product or token completes with the value. -/
def State.substHold (s : State) (d : Nat) (h : Hold) (v : Word) : State :=
  match h.inst.bind s.inst, h.ports, h.sites with
  | _, (cell, pv) :: _, _ => (s.replaceToken cell (pv / 32) (pv % 32) .data v).endHold d h.hid
  | some i, [], (cell, slot) :: _ => (s.endHold d h.hid).substSite i cell slot v
  | _, _, _ => s.endHold d h.hid

/-- SUBST of a hold. -/
def State.factSubst (s : State) (d hid : Nat) (v : Word) : State :=
  s.factHold d hid (fun h => if h.cont ≠ 0 ∨ h.subok = false then s.factDo d 1 else (s.substHold d h v).factDo d 0)

/-- Frames stand free for every stage of a grid point, large enough for each. -/
def State.framesFit (s : State) (g : List Inst) (d : Nat) : Bool :=
  decide (g.length ≤ (s.dieAt d).freeFrames.length) && g.all (fun i => decide (s.frameSize i (s.saveCount i) ≤ 2 ^ (s.dieAt d).ctxLog))

/-- PREEMPT of a held instance: every slot but the faulting ones is released and its grid point drains; the action is under way until
the save is complete (R354). -/
def State.preemptHeld (s : State) (d : Nat) (h : Hold) (i : Inst) (sites : List (Nat × Nat)) : State :=
  let g := s.stagesOf i.node i.gid
  let s1 := s.updInst i.id (fun x => { x with
    hold := none
    releasing := some h.hid
    heldSites := sites
    drainSince := s.dev
    lastActive := s.dev })
  (s1.preemptPoint g).updDie d (fun t => { t with factBusy := some h.hid })

/-- PREEMPT of a hold: none where it is refused. -/
def State.preemptHold (s : State) (d : Nat) (h : Hold) : Option State :=
  match h.inst.bind s.inst with
  | none => none
  | some i =>
    let g := s.stagesOf i.node i.gid
    if h.cont ≠ 0 ∨ s.framesFit g d = false ∨ i.retired = true then none else
    match h.kind with
    | .command | .grammar => some ((s.preemptPoint g).updDie d (fun t => { t with factBusy := some h.hid }))
    | .grant | .savedFiring => none
    | _ =>
      if h.has .drain || h.has .park || h.has .plane then none
      else
        let s1 := if h.has .swap || h.has .swapStuck then s.updInst i.id (fun x => { x with swap := none, atPoint := none }) else s
        some ((s1.poisonSites h).preemptHeld d h i h.sites.eraseDups)

/-- PREEMPT of a hold. -/
def State.factPreempt (s : State) (d hid : Nat) : State :=
  s.factHold d hid (fun h => match s.preemptHold d h with
    | none => s.factDo d 1
    | some t => t)

/-- The job a hold concerns. -/
def State.holdJob (s : State) (h : Hold) : Option Nat :=
  match h.inst.bind s.inst with
  | some i => some i.job
  | none => s.cmdJob h

/-- ABORT of a hold (R354): its instance, or the one that issued its command, retires, and with it the other stages of a grid point
that drains for a pre-emption (R402); a node command's job is aborted. The job's
other resident instances run to retirement or are aborted too, which is not specified. -/
def State.abortHold (s : State) (d : Nat) (h : Hold) : State :=
  let job := s.holdJob h
  let s0 := s.dropGrant h
  let whole : Inst → List Inst := fun i => (s0.stagesOf i.node i.gid).filter (fun x => x.id == i.id || i.preempt)
  let s1 := match h.inst.bind s0.inst with
    | some i => (whole i).foldl (fun (a : State) (x : Inst) => a.retire x.id) s0
    | none => s0
  let s2 := s1.delHold d h.hid
  match job with
  | none => s2
  | some j =>
    let c := s2.draw 2
    if (h.inst.isNone ∧ h.kind ≠ .grant) ∨ c.1 = 1 then c.2.abortJob j else c.2.abandonJob j

/-- ABORT of a hold. -/
def State.factAbort (s : State) (d hid : Nat) : State := s.factHold d hid (fun h => (s.abortHold d h).factDo d 0)

/-! Saved commands (R355). -/

/-- The instance a frame was restored into, if it stands. -/
def State.restoredInst (s : State) (f : Frame) : Option Inst := (f.restored.bind s.inst).bind (fun i => if i.retired then none else some i)

/-- Physical address of a save in its frame. -/
def Frame.saveAt (f : Frame) (k : Nat) : Nat := f.rangeAt - 256 * f.saves.length + 256 * k

/-- An action of FACT with FRM = 1 (R355) on save `cmd` of frame `idx`: BADID where they name none, REFUSED where the save awaits no
service. -/
def State.factFrame (s : State) (d idx cmd : Nat) (act : Frame → Save → State) : State :=
  match (s.dieAt d).frames.find? (fun f => f.idx == idx && s.frameUsed f) with
  | none => s.factDo d 2
  | some f =>
    match f.saves[cmd]? with
    | none => s.factDo d 2
    | some v => if v.faulted then act f v else s.factDo d 1

/-- A save is serviced: SUSPENDED, with the substitute value if there is one; at a restored instance it goes on at once, and the hold of
its saved firings ends with the last of them (R172, R355). -/
def State.serviceSave (s : State) (d : Nat) (f : Frame) (v : Save) (cmd : Nat) (val : Option Word) : State :=
  let v1 : Save := { v with faulted := false, subst := val }
  let f1 : Frame := { f with saves := f.saves.set cmd v1 }
  let pa := f.saveAt cmd
  let s1 := s.memWrite (pa + 205) 0 1
  let s2 := match val with
    | some w => (s1.memWrite (pa + 160) w.toNat 4).memWrite (pa + 207) 1 1
    | none => s1
  let s3 := s2.updDie d (fun t => { t with frames := t.frames.map (fun x => if x.idx = f.idx then f1 else x) })
  match s3.restoredInst f1 with
  | none => s3
  | some i =>
    if i.restoreStep = 1 ∨ i.restoreStep = 3 then s3 else
    let s4 := (s3.updInst i.id (fun x => { x with lastActive := s.dev })).resumeSave f1 i v1
    if i.restoreStep = 5 ∧ f1.saves.any Save.holds = false then
      match i.hold with
      | some hid => (s4.endHold d hid).endRestore i
      | none => s4.endRestore i
    else s4

/-- ABORT of a saved command: the grid point is aborted as by ABORT. -/
def State.abortSave (s : State) (f : Frame) : State :=
  let s1 := match s.restoredInst f with | some i => s.retire i.id | none => s
  let c := s1.draw 2
  if c.1 = 1 then c.2.abortJob f.job else c.2.abandonJob f.job

/-- What one FACT write does (R353 to R355): its ACT and FRM are bits 63:62 and 61 of the value. Only a held firing or access takes a value,
and PREEMPT of a saved command is refused. -/
def State.factAct (s : State) (d : Nat) (v : BitVec 512) : State :=
  let act := bitsN v.toNat 63 62
  if bitsN v.toNat 61 61 = 0 then
    match act with
    | 0 => s.factResume d (factIdx v)
    | 1 => s.factSubst d (factIdx v) (factValue v)
    | 2 => s.factPreempt d (factIdx v)
    | _ => s.factAbort d (factIdx v)
  else
    s.factFrame d (factIdx v) (factCmd v) (fun f x => match act with
      | 0 => (s.serviceSave d f x (factCmd v) none).factDo d 0
      | 1 => (s.serviceSave d f x (factCmd v) (some (factValue v))).factDo d 0
      | 2 => s.factDo d 1
      | _ => (s.abortSave f).factDo d 0)

/-- A FACT write names a hold of which a record is still to be written: the hold lasts while a record waits (R350), and the action with it (log 143). -/
def State.factEarly (s : State) (d : Nat) (v : BitVec 64) : Bool := bitsN v.toNat 61 61 == 0 && s.recPending d (factIdx (v.setWidth 512))

/-- Performs the FACT writes of a die that wait, in arrival order, as far as no action is under way (R353). -/
def State.pumpFact (s : State) (d : Nat) : Nat → State
  | 0 => s
  | n + 1 =>
    if (s.dieAt d).factBusy.isSome then s else
    match (s.dieAt d).factQueue with
    | [] => s
    | v :: rest => if s.factEarly d v then s else ((s.updDie d (fun t => { t with factQueue := rest })).factAct d (v.setWidth 512)).pumpFact d n

/-- Performs what waits of FACT writes on every die, once the action they waited for has ended (R353). -/
def State.pumpFacts (s : State) : State :=
  if s.frozen || s.die.all (fun e => e.2.factQueue.isEmpty) then s
  else [0, 1, 2, 3].foldl (fun (a : State) d => a.pumpFact d (a.dieAt d).factQueue.length) s

/-- A FACT write reaches a die: it waits behind those not yet performed, and while an action is under way (R353, R354). -/
def State.writeFact (s : State) (d : Nat) (v : BitVec 64) : State :=
  let s1 := s.updDie d (fun t => { t with factQueue := t.factQueue ++ [v] })
  s1.pumpFact d (s1.dieAt d).factQueue.length

/-- The host writes FACT of the die of the input, with an ACT and FRM. -/
def State.hostFact (s : State) (i : Instr) (act : Nat) : Host.Outcome State Fault Refusal :=
  if s.dieExists s.input.die = false then .next s
  else if s.frozen then .next (s.defer i)
  else .next (s.writeFact s.input.die (BitVec.ofNat 64 (act * 2 ^ 61 + s.input.value.toNat % 2 ^ 61)))

/-- FACT_RESUME. -/
def execFactResume (s : State) : Host.Outcome State Fault Refusal := s.hostFact .factResume 0
/-- FACT_SUBST. -/
def execFactSubst (s : State) : Host.Outcome State Fault Refusal := s.hostFact .factSubst 2
/-- FACT_PREEMPT. -/
def execFactPreempt (s : State) : Host.Outcome State Fault Refusal := s.hostFact .factPreempt 4
/-- FACT_ABORT. -/
def execFactAbort (s : State) : Host.Outcome State Fault Refusal := s.hostFact .factAbort 6
/-- FACT_FRAME_RESUME. -/
def execFactFrameResume (s : State) : Host.Outcome State Fault Refusal := s.hostFact .factFrameResume 1
/-- FACT_FRAME_SUBST. -/
def execFactFrameSubst (s : State) : Host.Outcome State Fault Refusal := s.hostFact .factFrameSubst 3
/-- FACT_FRAME_PREEMPT. -/
def execFactFramePreempt (s : State) : Host.Outcome State Fault Refusal := s.hostFact .factFramePreempt 5
/-- FACT_FRAME_ABORT. -/
def execFactFrameAbort (s : State) : Host.Outcome State Fault Refusal := s.hostFact .factFrameAbort 7

/-! Limits. -/

/-- HOLD_LIMIT_EXPIRY (R356): 1 s after its record was written a hold becomes a loss of the job, under a record 0x0801. -/
def execHoldLimitExpiry (die : Nat) (hid : Nat) (s : State) : Host.Outcome State Fault Refusal :=
  match s.hold die hid with
  | none => .next s
  | some h =>
    if s.frozen = true ∨ h.written = false ∨ s.dev < h.since + 1000000 * usUnits then .next s else
    let job := s.holdJob h
    let r := s.baseRec die job 0x0801 2 7
    let r1 := match h.inst.bind s.inst with | some i => s.recInst r i | none => r
    let s1 := (s.raiseMsi (260 + die)).pushRec r1
    match job with
    | some j => .next (((s1.abortJob j).dropGrant h).delHold die hid)
    | none => .next (s1.delHold die hid)

/-- Which channel operands of an enabled slot stand at its inputs: (some, all). -/
def State.operandsStand (s : State) (i : Inst) (cell slot : Nat) : Bool × Bool :=
  match (s.slotInstr cell slot).bind operatorFields, s.feed i cell slot with
  | some (opc, site, f0), some fd =>
    let f := (s.slotNeeds opc site f0).1
    let chans := [f.sa, f.sb, f.sc].filterMap srcChan
    let here := chans.map (fun e => !((s.cell fd.src).chan e.1).isEmpty)
    (here.any (fun b => b), here.all (fun b => b))
  | _, _ => (false, true)

/-- The enabled slots of a cell that a test picks, as a bit mask. -/
def State.slotMask (s : State) (cell : Nat) (p : Nat → Bool) : Nat :=
  (List.range 16).foldl (fun n k => if hdrEn ((s.cell cell).active.header k) && p k then n + 2 ^ k else n) 0

/-- An enabled slot has its operands but no room (R51). -/
def State.lacksRoom (s : State) (i : Inst) (cell slot : Nat) : Bool :=
  (s.operandsStand i cell slot).2 && (match (s.slotInstr cell slot).bind operatorFields with
    | none => false
    | some (opc, site, f0) =>
      let e := s.slotNeeds opc site f0
      !(s.dstRoom (s.resultCell cell slot) e.1.dst e.2.tokens && (!e.2.queue || decide (s.queueUsed cell < 32)) && e.2.room))

/-- Details of the watchdog and the drain limit (R377, R401). -/
def State.stallDetails (s : State) (i : Inst) : Nat × Nat :=
  let tokens := (i.cells.map (fun c =>
    let t := s.cell c
    (t.rin.map (fun e => e.2.length)).sum + (t.pin.map (fun e => e.2.length)).sum)).sum
  let entries := (s.reqs.filter (fun r => r.inst == i.id)).length
  let partly := i.cells.findSome? (fun c => ((List.range 16).find? (fun k =>
    hdrEn ((s.cell c).active.header k) && (s.operandsStand i c k).1 && !(s.operandsStand i c k).2)).map (fun k => (c, k)))
  let low := tokens % 2 ^ 32 + entries % 65536 * 2 ^ 32
  match partly with
  | none => (low + 0xFFFF * 2 ^ 48, 0)
  | some (c, k) =>
    (low + i.cellIndex c % 256 * 2 ^ 48 + k * 2 ^ 56,
      s.slotMask c (s.lacksRoom i c) + s.slotMask c (fun n => !(s.operandsStand i c n).2) * 2 ^ 16)

/-- A record of the Timetable at an instance's patch origin. -/
def State.originRec (s : State) (i : Inst) (code d0 d1 : Nat) : FaultRec :=
  let r := (s.baseRec i.die (some i.job) code 0 7).atCell (cellInSector i.sector i.x0 i.y0) 0
  { r with detail0 := BitVec.ofNat 64 d0, detail1 := BitVec.ofNat 64 d1 }

/-- The time that the ports of an instance's outstanding requests spent in RETRAIN (R405). None of them was issued or answered within a span of the
watchdog, which either would end. -/
def State.onRetrain (s : State) (i : Inst) : List (Nat × Nat) :=
  s.reqs.flatMap (fun r => if r.inst = i.id then
    match s.foreign r with
    | some pkg => s.retrainsOf ((Map.get 0 s.oroute pkg).toNat % 16)
    | none => [] else [])

/-- A span of the instance that began at a time ran out before the present cycle: a fault of the cycle of its expiry comes first (R378). -/
def State.spanOver (s : State) (i : Inst) (since limit : Nat) : Bool :=
  limit != 0 && decide (limit * usUnits + (s.now - s.cycleStart i.sector) ≤ s.spanTime i.sector since (s.onRetrain i))

/-- A saved command of the instance's frame awaits service: the watchdog counts no span meanwhile (R402). -/
def State.saveWaits (s : State) (i : Inst) : Bool :=
  (s.dieAt i.die).frames.any (fun f => f.restored == some i.id && f.saves.any Save.faulted)

/-- WATCHDOG_EXPIRY (R377): an instance still for TWUS, or at a drain point for TWUS before a plane that is not SEALED; a reduction whose time is out first
has its time-out (R408). -/
def execWatchdogExpiry (inst : Nat) (s : State) : Host.Outcome State Fault Refusal :=
  match s.inst inst with
  | none => .next s
  | some i =>
    let t := s.dieAt i.die
    if i.retired || i.hold.isSome || i.debugHeld || i.parked || !s.sectorRuns i.sector || s.saveWaits i then .next s
    else if i.draining then
      match i.atPoint with
      | none => .next s
      | some since =>
        if i.swap.isNone || i.preempt || !s.spanOver i since (limitAt t.wdOld t.wdcfg since) || (s.allSealed i.sector i.x0 i.y0 i.w i.h).isSome then .next s
        else
          let d0 := match i.lastSeal with
            | some (v, ok) => v.toNat + 16 + (if ok then 32 else 0)
            | none => 0
          .next (s.takeFault i .swapStuck (s.originRec i 0x0221 d0 0) [])
    else if !s.spanOver i i.lastActive (limitAt t.wdOld t.wdcfg i.lastActive) ||
        i.cells.any (fun c => (List.range 32).any (fun e => (s.combOut c e).isSome)) then .next s
    else
      let d := s.stallDetails i
      .next (s.takeFault i .watchdog (s.originRec i 0x0220 d.1 d.2) [])

/-- A PREEMPT under way fails: the instance is held again under its HID, with what it met meanwhile (R354). -/
def State.preemptFailed (s : State) (i : Inst) (hid : Nat) : State :=
  let s1 := s.cancelPoint i
  let s2 := match i.hold.bind (s1.hold i.die) with
    | some h2 => (s1.delHold i.die h2.hid).updDie i.die (fun t => { t with holds := t.holds.map (fun (h : Hold) =>
        if h.hid = hid then h.merge h2 else h) })
    | none => s1
  (s2.updInst i.id (fun x => { x with
    hold := if i.releasing = some hid then some hid else x.hold
    releasing := none
    heldSites := [] })).factEnd i.die hid 3

/-- The PREEMPT action under way on the grid point of an instance. -/
def State.factOn (s : State) (i : Inst) : Option Nat :=
  (s.dieAt i.die).factBusy.bind (fun hid => (s.hold i.die hid).bind (fun h =>
    if (h.inst.bind s.inst).any (fun x => x.node == i.node && x.gid == i.gid) then some hid else none))

/-- DRAIN_LIMIT_EXPIRY (R354, R401): a drain has not reached its drain point within DRUS. -/
def execDrainLimitExpiry (inst : Nat) (s : State) : Host.Outcome State Fault Refusal :=
  match s.inst inst with
  | none => .next s
  | some i =>
    let t := s.dieAt i.die
    let dr := limitAt t.drOld t.drus i.drainSince
    if i.retired || !i.draining || i.debugHeld || !s.sectorRuns i.sector || i.atPoint.isSome || dr == 0 ||
        decide (s.spanTime i.sector i.drainSince [] < dr * usUnits) then .next s
    else
      match s.factOn i with
      | some hid =>
        match (s.hold i.die hid).bind (fun h => h.inst.bind s.inst) with
        | some x => .next (s.preemptFailed x hid)
        | none => .next s
      | none =>
        if i.hold.isSome || s.quiet i then .next s
        else
          let d := s.stallDetails i
          .next (s.takeFault i .drain (s.originRec i 0x0804 d.1 d.2) [])

/-! Scrubbing (R358, R359). -/

/-- The resident instance whose allotment holds a scrubbed place: a scratchpad byte (kind 0) or a Slate entry (kind 1). -/
def State.scrubOwner (s : State) (kind place address : Nat) : Option Inst :=
  if kind = 0 then (s.instAt place).bind (fun i => if address < i.spad then some i else none)
  else if kind = 1 then
    s.insts.find? (fun i => !i.retired && i.sector == place && decide (i.slateBase ≤ address) && decide (address < i.slateBase + i.slateLen))
  else none

/-- Marks a location uncorrectable. -/
def State.markBad (s : State) (kind place address : Nat) : State :=
  match kind with
  | 0 => s.updCell place (fun c => { c with badWords := if c.badWords.contains (address / 8) then c.badWords else address / 8 :: c.badWords })
  | 1 => s.updSector place (fun t => { t with
      slate := Map.put t.slate address { Map.get SlateEntry.reset t.slate address with bad := true } })
  | _ => { s with badMem := if s.badMem.contains (address / 32) then s.badMem else address / 32 :: s.badMem }

/-- SCRUB_PASS: a scrub of scratchpad (kind 0, `place` a cell, a byte offset), Slate (kind 1, `place` a sector, an entry) or HBM (kind 2,
a physical address) corrects an error, or finds an uncorrectable one. -/
def execScrubPass (kind place address : Nat) (uncorrectable : Bool) (s : State) : Host.Outcome State Fault Refusal :=
  if s.frozen then .next s
  else if !uncorrectable then .next { s with proctor := { s.proctor with corrected := s.proctor.corrected + 1 } }
  else
    let s1 := s.markBad kind place address
    let c := s1.draw 256
    let d0 := if kind = 0 then address % 32768 + c.1 * 65536 else address
    let die := if kind = 0 then dieOfCell place else if kind = 1 then dieOfSector place else s.stackOf (paOffset address) / 2
    match s.scrubOwner kind place address with
    | some i =>
      let r := s1.baseRec i.die (some i.job) 0x0D06 1 10
      let r1 := if kind = 0 then r.atCell place 0 else { r with sect := place % 16 }
      .next (c.2.takeFault i .plane { r1 with detail0 := BitVec.ofNat 64 d0 } [])
    | none =>
      let r := s1.baseRec die none 0x0D06 0 10
      let r1 := if kind = 0 then r.atCell place 0 else if kind = 1 then { r with sect := place % 16 } else r
      .next (c.2.pushRec { r1 with detail0 := BitVec.ofNat 64 d0 })

end Sys2Proof.Machine
end

