-- ==== Sys2Proof/Machine/Approx.lean ====
section
/-! DEFINITION. Sys2Proof/Machine/Approx.lean: the approximation operators (09_ops_integer_float.md R214, R215).
The exact function is bracketed by fixed-point arithmetic with 400 fractional bits; the implementation's own result is a
free value (Config.approxPattern) used where it lies within the bound of R215. -/
namespace Sys2Proof.Machine
open Sys2Proof

/-- Fractional bits of the fixed-point reference values. -/
def fxBits : Nat := 400
/-- One in fixed point. -/
def fxOne : Nat := 2 ^ fxBits
/-- ln 2 and pi in fixed point (truncated). -/
def fxLn2 : Nat := 1789879222497203190815761498240779176894896805856420935579692301363062920687047601279850318367644315849030039181347319086
def fxPi : Nat := 8112377246730971238862271351300894519161151600179265203591191037615230905373990498745523360926816815427566779727327576236

/-- Sum of y^k / k! from term k on (y below 1 in fixed point). -/
def fxExpSum (y : Nat) : Nat → Nat → Nat → Nat
  | 0, _, _ => 0
  | n + 1, k, t => t + fxExpSum y n (k + 1) (t * y / fxOne / (k + 1))

/-- e^y for y in [0, 1). -/
def fxExp (y : Nat) : Nat := fxExpSum y 110 0 fxOne

/-- A fixed-point value times a power of two, as an exact value. -/
def fxScaled (v : Nat) (e : Int) : Ex :=
  if e ≥ 0 then .fin false (v * 2 ^ e.toNat) fxOne else .fin false v (fxOne * 2 ^ (-e).toNat)

/-- 2^x for a rational x with |x| at most 256. -/
def refExp2 (neg : Bool) (n d : Nat) : Ex :=
  let v : Int := if neg then -(n : Int) else n
  let k := v / (d : Int)
  let r := (v % (d : Int)).toNat
  fxScaled (fxExp (r * fxOne / d * fxLn2 / fxOne)) k

/-- e^y for a fixed-point y, as mantissa in fixed point and exponent of two. -/
def fxExpBig (y : Nat) : Nat × Nat := (fxExp (y % fxLn2), y / fxLn2)

/-- Sum of z^(2k+1) / (2k+1). -/
def fxAtanhSum (z2 : Nat) : Nat → Nat → Nat → Nat
  | 0, _, _ => 0
  | n + 1, k, t => t / (2 * k + 1) + fxAtanhSum z2 n (k + 1) (t * z2 / fxOne)

/-- log2 of n/d > 0. -/
def refLog2 (n d : Nat) : Ex :=
  let e := log2Ratio n d
  let (n1, d1) := scaleDown n d e
  let z := (n1 - d1) * fxOne / (n1 + d1)
  let lnm := 2 * fxAtanhSum (z * z / fxOne) 140 0 z
  let v : Int := e * (fxOne : Int) + ((lnm * fxOne / fxLn2 : Nat) : Int)
  .fin (decide (v < 0)) v.natAbs fxOne

/-- Alternating sum y - y^3/3! + ... : `t` is the current term, `k` its order. -/
def fxSinSum (y2 : Nat) : Nat → Nat → Nat → Int
  | 0, _, _ => 0
  | n + 1, k, t => (t : Int) - fxSinSum y2 n (k + 2) (t * y2 / fxOne / ((k + 1) * (k + 2)))

/-- sin(pi t) for t = r/d in [0, 1/2]. -/
def fxSinPi (r d : Nat) : Nat :=
  let y := r * fxPi / d
  (fxSinSum (y * y / fxOne) 70 1 y).toNat

/-- sin(pi x) for x = n/d at least 0: the sign and the magnitude in fixed point. -/
def refSinPi (n d : Nat) : Bool × Nat :=
  let r := n % (2 * d)
  let s := decide (r ≥ d)
  let h := r % d
  (s, if 2 * h ≤ d then fxSinPi h d else fxSinPi (d - h) d)

/-- tanh of n/d > 0. -/
def refTanh (n d : Nat) : Ex :=
  let (m, k) := fxExpBig (2 * n * fxOne / d)
  let e := m * 2 ^ k
  .fin false (e - fxOne) (e + fxOne)

/-- 1/(1 + e^-x) for x of magnitude n/d at most 256. -/
def refSig (neg : Bool) (n d : Nat) : Ex :=
  let (m, k) := fxExpBig (n * fxOne / d)
  let e := m * 2 ^ k
  if neg then .fin false fxOne (e + fxOne) else .fin false e (e + fxOne)

/-- The approximation operators. -/
inductive Approx | rcp | rsq | exp2 | log2 | sinpi | cospi | tanh | sig
  deriving DecidableEq, Repr

/-- The OPC of an approximation operator (R183). -/
def approxOpc : Approx → Nat
  | .rcp => 0x2E | .rsq => 0x2F | .exp2 => 0x30 | .log2 => 0x31
  | .sinpi => 0x32 | .cospi => 0x33 | .tanh => 0x34 | .sig => 0x35

/-- What R215 fixes for an input: an exact or special result with its flag, or a reference value and a bound given in half
ulps of binary32 or as an absolute 2^-k. -/
inductive ApproxRef
  | exact (x : Ex) (fl : Flags)
  | ulps (x : Ex) (halves : Nat)
  | abs (x : Ex) (k : Nat)

/-- A power of two: its denominator or numerator alone, after cancelling. -/
def isPow2 (n : Nat) : Bool := n != 0 && n == 2 ^ Nat.log2 n

/-- n/d is a power of two. -/
def isPow2Ratio (n d : Nat) : Bool :=
  let e := log2Ratio n d
  let (n1, d1) := scaleDown n d e
  n1 == d1

/-- R215, row by row, on a NaN-free input whose subnormals are already zeros (R214). -/
def approxRef (op : Approx) (x : Ex) : ApproxRef :=
  match op, x with
  | _, .nan => .exact .nan flagNone
  | .rcp, .inf s => .exact (.fin s 0 1) flagNone
  | .rcp, .fin s n d =>
    if n = 0 then .exact (.inf s) flagDZ
    else if isPow2Ratio n d then .exact (.fin s d n) flagNone
    else .ulps (.fin s d n) 3
  | .rsq, .inf s => if s then .exact .nan flagNV else .exact Ex.zero flagNone
  | .rsq, .fin s n d =>
    if n = 0 then .exact (.inf s) flagDZ
    else if s then .exact .nan flagNV
    else if isPow2Ratio n d && log2Ratio n d % 2 == 0 then .exact ((Ex.sqrt (.fin false d n)).1) flagNone
    else .ulps (exScale (Ex.sqrt (.fin false (d * 2 ^ 400) n)).1 (-200)) 3
  | .exp2, .inf s => if s then .exact Ex.zero flagNone else .exact (.inf false) flagNone
  | .exp2, .fin s n d =>
    if n = 0 then .exact (.fin false 1 1) flagNone
    else if !s && decide (n ≥ 128 * d) then .exact (.inf false) flagOF
    else if s && decide (n ≥ 200 * d) then .exact Ex.zero flagNone
    else if n % d = 0 then .exact (exScale (.fin false 1 1) (if s then -((n / d : Nat) : Int) else ((n / d : Nat) : Int))) flagNone
    else .ulps (refExp2 s n d) 4
  | .log2, .inf s => if s then .exact .nan flagNV else .exact (.inf false) flagNone
  | .log2, .fin s n d =>
    if n = 0 then .exact (.inf true) flagDZ
    else if s then .exact .nan flagNV
    else if isPow2Ratio n d then .exact (Ex.ofInt (log2Ratio n d)) flagNone
    else if 2 * n ≥ d ∧ n < 2 * d then .abs (refLog2 n d) 21
    else .ulps (refLog2 n d) 4
  | .sinpi, .inf _ => .exact .nan flagNV
  | .sinpi, .fin s n d =>
    if n % d = 0 then .exact (.fin s 0 1) flagNone
    else if 2 * n % d = 0 then .exact (.fin (s != decide (2 * n / d % 4 = 3)) 1 1) flagNone
    else
      let (t, v) := refSinPi n d
      .abs (.fin (s != t) v fxOne) 22
  | .cospi, .inf _ => .exact .nan flagNV
  | .cospi, .fin _ n d =>
    if n % d = 0 then .exact (.fin (decide (n / d % 2 = 1)) 1 1) flagNone
    else if 2 * n % d = 0 then .exact Ex.zero flagNone
    else
      let (t, v) := refSinPi (2 * n + d) (2 * d)
      .abs (.fin t v fxOne) 22
  | .tanh, .inf s => .exact (.fin s 1 1) flagNone
  | .tanh, .fin s n d =>
    if n = 0 then .exact (.fin s 0 1) flagNone
    else if n ≥ 9 * d then .exact (.fin s 1 1) flagNone
    else match refTanh n d with
      | .fin _ p q => .ulps (.fin s p q) 4
      | y => .ulps y 4
  | .sig, .inf s => if s then .exact Ex.zero flagNone else .exact (.fin false 1 1) flagNone
  | .sig, .fin s n d =>
    if n = 0 then .exact (.fin false 1 2) flagNone
    else if !s && decide (n ≥ 17 * d) then .exact (.fin false 1 1) flagNone
    else if s && decide (n ≥ 200 * d) then .exact Ex.zero flagNone
    else .ulps (refSig s n d) 4

/-- |y - x| at most num/den. -/
def withinBy (x y : Ex) (num den : Nat) : Bool :=
  match x, y with
  | .fin _ _ d, .fin _ _ e =>
    decide ((x.signedNum * e - y.signedNum * d).natAbs * den ≤ num * (d * e))
  | _, _ => false

/-- |y - x| at most h half ulps of a format at x. -/
def withinUlps (t : Fmt) (x y : Ex) (h : Nat) : Bool :=
  match x with
  | .fin _ n d =>
    let e : Int := max (log2Ratio n d) (1 - (t.bias : Int)) - (t.f : Int)
    if e ≥ 0 then withinBy x y (h * 2 ^ e.toNat) 2 else withinBy x y h (2 * 2 ^ (-e).toNat)
  | _ => false

/-- Whether a candidate lies within the bound of R215. The reference is nearer to f(x) than 2^-90 of it, and f(x) is irrational
there or, for `rcp` and `rsq`, a bound's end is no nearer to it than 2^-80: the test on the reference is the test on f(x) (log 8). -/
def withinBound (r : ApproxRef) (y : Ex) : Bool :=
  match r with
  | .exact _ _ => false
  | .ulps x h => withinUlps fmtF32 x y h
  | .abs x k => withinBy x y 1 (2 ^ k)

/-- The reference value of a bounded result. -/
def ApproxRef.val : ApproxRef → Ex
  | .exact x _ => x
  | .ulps x _ => x
  | .abs x _ => x

/-- One lane of an approximation operator (R214): a narrow lane's result lies within 1 ulp of the lane format of f(x). -/
def approxLane (op : Approx) (f : OpFields) (a : Word) (i : Nat) : Nat × Flags :=
  let t := opFmt f
  let p := lane a (tyWidth f.ty) i
  if t.isNan p then (t.cnan, snanFlag t p) else
  let x := if t.expo p = 0 then Ex.fin (t.sgn p) 0 1 else fval t p
  let finish := fun (y : Ex) (neg : Bool) (fl : Flags) =>
    let (q, fo) := roundTo t .rne false y
    if t.expo q = 0 then (t.signBit neg, fl)
    else (q, if op = .exp2 && (fo &&& flagOF) != 0 then fl ||| flagOF else fl)
  match approxRef op x with
  | .exact .nan fl => (t.cnan, fl)
  | .exact (.inf s) fl => ((roundTo t .rne false (.inf s)).1, fl)
  | .exact y fl => finish y y.sign fl
  | r =>
    let cx := fval fmtF32 (Config.approxPattern (approxOpc op) (tyCode f.ty) p).toNat
    let own := finish (fval fmtF32 (roundTo fmtF32 .rne false r.val).1) r.val.sign flagNone
    let got := finish cx r.val.sign flagNone
    if withinBound r cx && (t.w == 32 || got.1 == own.1 || withinUlps t r.val (fval t got.1) 2) then got else own

/-- An approximation operator on every lane. -/
def aluApprox (op : Approx) : AluFn := fun f a _ _ => perLane f.ty (approxLane op f a)

end Sys2Proof.Machine
end

