-- ==== Sys2Proof/Machine/FloatOps.lean ====
section
/-! DEFINITION. Sys2Proof/Machine/FloatOps.lean: the floating-point and special-function operators 0x20 to 0x3D. Each computes one word from its
operands and raises flags (R197 to R200); latencies are those of R184. -/
namespace Sys2Proof.Machine
open Sys2Proof

/-- `fadd` (R208). -/
def execFadd (site : Site) (f : OpFields) (s : State) : Host.Outcome State Fault Refusal :=
  s.fireAlu 0x20 aluFadd 3 site f
/-- `fsub` (R208). -/
def execFsub (site : Site) (f : OpFields) (s : State) : Host.Outcome State Fault Refusal :=
  s.fireAlu 0x21 aluFsub 3 site f
/-- `fmul` (R208). -/
def execFmul (site : Site) (f : OpFields) (s : State) : Host.Outcome State Fault Refusal :=
  s.fireAlu 0x22 aluFmul 3 site f
/-- `fma` (R208). -/
def execFma (site : Site) (f : OpFields) (s : State) : Host.Outcome State Fault Refusal :=
  s.fireAlu 0x23 aluFma 3 site f
/-- `fms` (R208). -/
def execFms (site : Site) (f : OpFields) (s : State) : Host.Outcome State Fault Refusal :=
  s.fireAlu 0x24 aluFms 3 site f
/-- `fnma` (R208). -/
def execFnma (site : Site) (f : OpFields) (s : State) : Host.Outcome State Fault Refusal :=
  s.fireAlu 0x25 aluFnma 3 site f
/-- `fmin` (R210). -/
def execFmin (site : Site) (f : OpFields) (s : State) : Host.Outcome State Fault Refusal :=
  s.fireAlu 0x26 aluFmin 1 site f
/-- `fmax` (R210). -/
def execFmax (site : Site) (f : OpFields) (s : State) : Host.Outcome State Fault Refusal :=
  s.fireAlu 0x27 aluFmax 1 site f
/-- `fabs` (R210). -/
def execFabs (site : Site) (f : OpFields) (s : State) : Host.Outcome State Fault Refusal :=
  s.fireAlu 0x28 aluFabs 1 site f
/-- `fneg` (R210). -/
def execFneg (site : Site) (f : OpFields) (s : State) : Host.Outcome State Fault Refusal :=
  s.fireAlu 0x29 aluFneg 1 site f
/-- `fcmp` (R211). -/
def execFcmp (site : Site) (f : OpFields) (s : State) : Host.Outcome State Fault Refusal :=
  s.fireAlu 0x2A aluFcmp 1 site f
/-- `fclass` (R212). -/
def execFclass (site : Site) (f : OpFields) (s : State) : Host.Outcome State Fault Refusal :=
  s.fireAlu 0x2B aluFclass 1 site f
/-- `fdiv` (R208). -/
def execFdiv (site : Site) (f : OpFields) (s : State) : Host.Outcome State Fault Refusal :=
  s.fireAlu 0x2C aluFdiv 14 site f
/-- `fsqrt` (R208). -/
def execFsqrt (site : Site) (f : OpFields) (s : State) : Host.Outcome State Fault Refusal :=
  s.fireAlu 0x2D aluFsqrt 14 site f
/-- `frcpa` (R214, R215). -/
def execFrcpa (site : Site) (f : OpFields) (s : State) : Host.Outcome State Fault Refusal :=
  s.fireAlu 0x2E (aluApprox .rcp) 6 site f
/-- `frsqa` (R214, R215). -/
def execFrsqa (site : Site) (f : OpFields) (s : State) : Host.Outcome State Fault Refusal :=
  s.fireAlu 0x2F (aluApprox .rsq) 6 site f
/-- `fexp2a` (R214, R215). -/
def execFexp2a (site : Site) (f : OpFields) (s : State) : Host.Outcome State Fault Refusal :=
  s.fireAlu 0x30 (aluApprox .exp2) 6 site f
/-- `flog2a` (R214, R215). -/
def execFlog2a (site : Site) (f : OpFields) (s : State) : Host.Outcome State Fault Refusal :=
  s.fireAlu 0x31 (aluApprox .log2) 6 site f
/-- `fsinpi` (R214, R215). -/
def execFsinpi (site : Site) (f : OpFields) (s : State) : Host.Outcome State Fault Refusal :=
  s.fireAlu 0x32 (aluApprox .sinpi) 6 site f
/-- `fcospi` (R214, R215). -/
def execFcospi (site : Site) (f : OpFields) (s : State) : Host.Outcome State Fault Refusal :=
  s.fireAlu 0x33 (aluApprox .cospi) 6 site f
/-- `ftanha` (R214, R215). -/
def execFtanha (site : Site) (f : OpFields) (s : State) : Host.Outcome State Fault Refusal :=
  s.fireAlu 0x34 (aluApprox .tanh) 6 site f
/-- `fsiga` (R214, R215). -/
def execFsiga (site : Site) (f : OpFields) (s : State) : Host.Outcome State Fault Refusal :=
  s.fireAlu 0x35 (aluApprox .sig) 6 site f
/-- `cvt` (R216). -/
def execCvt (site : Site) (f : OpFields) (s : State) : Host.Outcome State Fault Refusal :=
  s.fireAlu 0x36 aluCvt 3 site f
/-- `cvts` (R217). -/
def execCvts (site : Site) (f : OpFields) (s : State) : Host.Outcome State Fault Refusal :=
  s.fireAlu 0x37 aluCvts 3 site f
/-- `frnd` (R213). -/
def execFrnd (site : Site) (f : OpFields) (s : State) : Host.Outcome State Fault Refusal :=
  s.fireAlu 0x38 aluFrnd 3 site f
/-- `fscale` (R208). -/
def execFscale (site : Site) (f : OpFields) (s : State) : Host.Outcome State Fault Refusal :=
  s.fireAlu 0x39 aluFscale 3 site f
/-- `fdot2` (R209). -/
def execFdot2 (site : Site) (f : OpFields) (s : State) : Host.Outcome State Fault Refusal :=
  s.fireAlu 0x3A aluFdot2 3 site f
/-- `fhadd` (R208). -/
def execFhadd (site : Site) (f : OpFields) (s : State) : Host.Outcome State Fault Refusal :=
  s.fireAlu 0x3B aluFhadd 3 site f
/-- `fclamp` (R210). -/
def execFclamp (site : Site) (f : OpFields) (s : State) : Host.Outcome State Fault Refusal :=
  s.fireAlu 0x3C aluFclamp 1 site f
/-- `flerp` (R208). -/
def execFlerp (site : Site) (f : OpFields) (s : State) : Host.Outcome State Fault Refusal :=
  s.fireAlu 0x3D aluFlerp 3 site f

end Sys2Proof.Machine
end

