-- ==== Sys2Proof/Machine/HostOps.lean ====
section
/-! DEFINITION. Sys2Proof/Machine/HostOps.lean: the die control block as the host reads and writes it (R327) and host access to HBM
(R326). -/
namespace Sys2Proof.Machine
open Sys2Proof

/-- The register of the control block that a byte offset lies in: the offset of its first byte and its size (R327, R351). -/
def registerAt (o : Nat) : Option (Nat × Nat) :=
  if o < 0x418 then some (o / 8 * 8, 8)
  else if (0x420 ≤ o ∧ o < 0x4A4) ∨ (0x4C0 ≤ o ∧ o < 0x500) ∨ (0x600 ≤ o ∧ o < 0x620) ∨ (0x800 ≤ o ∧ o < 0x900) then some (o / 4 * 4, 4)
  else if 0x700 ≤ o ∧ o < 0x740 then some (o, 1)
  else if 0x900 ≤ o ∧ o < 0x928 then some (o / 8 * 8, 8)
  else none

/-- The registers that n bytes from an offset meet. -/
def registersIn (off n : Nat) : List (Nat × Nat) := ((List.range n).filterMap (fun k => registerAt (off + k))).eraseDups

/-- LCTL as it reads (R329). -/
def Port.lctl (p : Port) : Nat := (if p.enabled then 2 ^ 31 else 0) + p.wmax * 2 ^ 29 + (if p.auto then 2 ^ 28 else 0)
/-- LSTAT as it reads (R329). -/
def Port.lstat (p : Port) : Nat := p.state * 2 ^ 30 + p.width * 2 ^ 28 + p.sheds % 256 * 2 ^ 12 + p.replays % 4096

/-- A register of the control block of die d, by the offset of its first byte (R327): the blocks of die 0 read 0 elsewhere, a write-only
register reads 0, and FNOTE shows its oldest notice. -/
def State.controlRegister (s : State) (d off : Nat) : Nat :=
  let t := s.dieAt d
  if off < 0x400 then bitsN (s.queueEntry d (off / 16)).toNat (off % 16 * 8 + 63) (off % 16 * 8)
  else if off = 0x408 then (if t.xlBusy then 1 else 0)
  else if off = 0x410 then t.ctxcfg.toNat
  else if 0x420 ≤ off ∧ off < 0x460 then (s.sector (16 * d + (off - 0x420) / 4)).sctl
  else if 0x460 ≤ off ∧ off < 0x4A0 then (s.sector (16 * d + (off - 0x460) / 4)).budget
  else if off = 0x4A0 then t.rampctl.toNat
  else if 0x4C0 ≤ off ∧ off < 0x500 then (Map.get 512 t.ramp ((off - 0x4C0) / 4)).toNat
  else if 0x600 ≤ off ∧ off < 0x620 then
    (if off % 8 = 0 then (s.port (4 * d + (off - 0x600) / 8)).lctl else (s.port (4 * d + (off - 0x600) / 8)).lstat)
  else if 0x700 ≤ off ∧ off < 0x740 then (if d = 0 then (Map.get 0 s.oroute (off - 0x700)).toNat else 0)
  else if 0x800 ≤ off ∧ off < 0x900 then (if d = 0 then (Map.get 0 t.accessTable ((off - 0x800) / 4)).toNat else 0)
  else if off = 0x908 then t.fstat
  else if off = 0x910 then (t.notices.headD 0).toNat
  else if off = 0x918 then t.wdcfg
  else if off = 0x920 then t.frzlvl * 2 ^ 61 + t.redus * 2 ^ 20 + t.drus
  else 0

/-- Keeps the value a limit had until now (R376, R397). -/
def keepOld (old : List (Nat × Nat)) (now was new : Nat) : List (Nat × Nat) := if was = new then old else old ++ [(now, was)]

/-- Sets one register that only holds what is written to it; reserved bits read 0. -/
def State.setRegister (s : State) (d off v : Nat) : State :=
  if off = 0x410 then s.updDie d (fun t => { t with ctxcfg := BitVec.ofNat 64 (bitsN v 63 48 * 2 ^ 48 + bitsN v 39 0) })
  else if 0x460 ≤ off ∧ off < 0x4A0 then s.updSector (16 * d + (off - 0x460) / 4) (fun t => { t with budget := bitsN v 15 0 })
  else if off = 0x4A0 then s.updDie d (fun t => { t with rampctl := BitVec.ofNat 32 (bitsN v 25 16 * 2 ^ 16 + bitsN v 9 0) })
  else if 0x4C0 ≤ off ∧ off < 0x500 then
    s.updDie d (fun t => { t with ramp := Map.set 512 t.ramp ((off - 0x4C0) / 4) (BitVec.ofNat 32 (bitsN v 9 0)) })
  else if 0x700 ≤ off ∧ off < 0x740 then
    if d = 0 then s.setRoute (off - 0x700) (BitVec.ofNat 8 (bitsN v 7 7 * 128 + bitsN v 3 0)) else s
  else if 0x800 ≤ off ∧ off < 0x900 then
    if d = 0 then s.updDie d (fun t => { t with accessTable := Map.set 0 t.accessTable ((off - 0x800) / 4) (BitVec.ofNat 32 (bitsN v 16 0)) }) else s
  else if off = 0x918 then s.updDie d (fun t => { t with wdcfg := bitsN v 19 0, wdOld := keepOld t.wdOld s.dev t.wdcfg (bitsN v 19 0) })
  else if off = 0x920 then s.updDie d (fun t => { t with
    frzlvl := bitsN v 63 61
    redus := bitsN v 39 20
    drus := bitsN v 19 0
    redOld := keepOld t.redOld s.dev t.redus (bitsN v 39 20)
    drOld := keepOld t.drOld s.dev t.drus (bitsN v 19 0) })
  else s

/-- An HBM offset that the host or a Pilot reads or writes, n bytes (R326, R358): what a read gives, with the record of an uncorrectable
sector (log 98). -/
def State.hbmRead (s : State) (pa n : Nat) : Nat × State :=
  if s.memBad pa then
    let c := s.draw (2 ^ (8 * n))
    let r := c.2.baseRec (s.stackOf (paOffset pa) / 2) none 0x0D04 0 10
    (c.1, c.2.pushRec { r with detail0 := BitVec.ofNat 64 (pa / 32 * 32) })
  else (s.memRead pa n, s)

end Sys2Proof.Machine
end

