-- ==== Sys2Proof/Machine/IntegerOps.lean ====
section
/-! DEFINITION. Sys2Proof/Machine/IntegerOps.lean: the integer, logic and move operators 0x00 to 0x1F. Each computes one word from its
operands and raises flags (R197 to R200); latencies are those of R184. -/
namespace Sys2Proof.Machine
open Sys2Proof

/-- `add` (R201). -/
def execAdd (site : Site) (f : OpFields) (s : State) : Host.Outcome State Fault Refusal :=
  s.fireAlu 0x00 aluAdd 1 site f
/-- `sub` (R201). -/
def execSub (site : Site) (f : OpFields) (s : State) : Host.Outcome State Fault Refusal :=
  s.fireAlu 0x01 aluSub 1 site f
/-- `mul` (R201). -/
def execMul (site : Site) (f : OpFields) (s : State) : Host.Outcome State Fault Refusal :=
  s.fireAlu 0x02 aluMul 2 site f
/-- `mulh` (R201). -/
def execMulh (site : Site) (f : OpFields) (s : State) : Host.Outcome State Fault Refusal :=
  s.fireAlu 0x03 aluMulh 2 site f
/-- `mad` (R201). -/
def execMad (site : Site) (f : OpFields) (s : State) : Host.Outcome State Fault Refusal :=
  s.fireAlu 0x04 aluMad 2 site f
/-- `div` (R202). -/
def execDiv (site : Site) (f : OpFields) (s : State) : Host.Outcome State Fault Refusal :=
  s.fireAlu 0x05 aluDiv 10 site f
/-- `rem` (R202). -/
def execRem (site : Site) (f : OpFields) (s : State) : Host.Outcome State Fault Refusal :=
  s.fireAlu 0x06 aluRem 10 site f
/-- `min` (R201). -/
def execMin (site : Site) (f : OpFields) (s : State) : Host.Outcome State Fault Refusal :=
  s.fireAlu 0x07 aluMin 1 site f
/-- `max` (R201). -/
def execMax (site : Site) (f : OpFields) (s : State) : Host.Outcome State Fault Refusal :=
  s.fireAlu 0x08 aluMax 1 site f
/-- `abs` (R201). -/
def execAbs (site : Site) (f : OpFields) (s : State) : Host.Outcome State Fault Refusal :=
  s.fireAlu 0x09 aluAbs 1 site f
/-- `and` (R204). -/
def execAnd (site : Site) (f : OpFields) (s : State) : Host.Outcome State Fault Refusal :=
  s.fireAlu 0x0A aluAnd 1 site f
/-- `or` (R204). -/
def execOr (site : Site) (f : OpFields) (s : State) : Host.Outcome State Fault Refusal :=
  s.fireAlu 0x0B aluOr 1 site f
/-- `xor` (R204). -/
def execXor (site : Site) (f : OpFields) (s : State) : Host.Outcome State Fault Refusal :=
  s.fireAlu 0x0C aluXor 1 site f
/-- `andn` (R204). -/
def execAndn (site : Site) (f : OpFields) (s : State) : Host.Outcome State Fault Refusal :=
  s.fireAlu 0x0D aluAndn 1 site f
/-- `shl` (R204). -/
def execShl (site : Site) (f : OpFields) (s : State) : Host.Outcome State Fault Refusal :=
  s.fireAlu 0x0E aluShl 1 site f
/-- `shr` (R204). -/
def execShr (site : Site) (f : OpFields) (s : State) : Host.Outcome State Fault Refusal :=
  s.fireAlu 0x0F aluShr 1 site f
/-- `rot` (R204). -/
def execRot (site : Site) (f : OpFields) (s : State) : Host.Outcome State Fault Refusal :=
  s.fireAlu 0x10 aluRot 1 site f
/-- `clz` (R205). -/
def execClz (site : Site) (f : OpFields) (s : State) : Host.Outcome State Fault Refusal :=
  s.fireAlu 0x11 aluClz 1 site f
/-- `ffs` (R205). -/
def execFfs (site : Site) (f : OpFields) (s : State) : Host.Outcome State Fault Refusal :=
  s.fireAlu 0x12 aluFfs 1 site f
/-- `popc` (R205). -/
def execPopc (site : Site) (f : OpFields) (s : State) : Host.Outcome State Fault Refusal :=
  s.fireAlu 0x13 aluPopc 1 site f
/-- `brev` (R204). -/
def execBrev (site : Site) (f : OpFields) (s : State) : Host.Outcome State Fault Refusal :=
  s.fireAlu 0x14 aluBrev 1 site f
/-- `bfx` (R206). -/
def execBfx (site : Site) (f : OpFields) (s : State) : Host.Outcome State Fault Refusal :=
  s.fireAlu 0x15 aluBfx 1 site f
/-- `bfi` (R206). -/
def execBfi (site : Site) (f : OpFields) (s : State) : Host.Outcome State Fault Refusal :=
  s.fireAlu 0x16 aluBfi 1 site f
/-- `sel` (R204). -/
def execSel (site : Site) (f : OpFields) (s : State) : Host.Outcome State Fault Refusal :=
  s.fireAlu 0x17 aluSel 1 site f
/-- `cmp` (R207). -/
def execCmp (site : Site) (f : OpFields) (s : State) : Host.Outcome State Fault Refusal :=
  s.fireAlu 0x18 aluCmp 1 site f
/-- `avg` (R201). -/
def execAvg (site : Site) (f : OpFields) (s : State) : Host.Outcome State Fault Refusal :=
  s.fireAlu 0x19 aluAvg 1 site f
/-- `absd` (R201). -/
def execAbsd (site : Site) (f : OpFields) (s : State) : Host.Outcome State Fault Refusal :=
  s.fireAlu 0x1A aluAbsd 1 site f
/-- `sad` (R203). -/
def execSad (site : Site) (f : OpFields) (s : State) : Host.Outcome State Fault Refusal :=
  s.fireAlu 0x1B aluSad 2 site f
/-- `dot4` (R203). -/
def execDot4 (site : Site) (f : OpFields) (s : State) : Host.Outcome State Fault Refusal :=
  s.fireAlu 0x1C aluDot4 2 site f
/-- `addsh` (R201). -/
def execAddsh (site : Site) (f : OpFields) (s : State) : Host.Outcome State Fault Refusal :=
  s.fireAlu 0x1D aluAddsh 1 site f
/-- `move` (R204). -/
def execMove (site : Site) (f : OpFields) (s : State) : Host.Outcome State Fault Refusal :=
  s.fireAlu 0x1E aluMove 1 site f
/-- `pack` (R204). -/
def execPack (site : Site) (f : OpFields) (s : State) : Host.Outcome State Fault Refusal :=
  s.fireAlu 0x1F aluPack 1 site f

end Sys2Proof.Machine
end

