-- ==== Sys2Proof/Machine/LinkOps.lean ====
section
/-! DEFINITION. Sys2Proof/Machine/LinkOps.lean: Olpour ports: flits, replay, width changes, DOWN (R329 to R331, R404 to R406), and device
time kept with other packages (R343). A width is coded as LCTL.WMAX: 0 for 8 lanes, 1 for 4, 2 for 2. -/
namespace Sys2Proof.Machine
open Sys2Proof

/-- An IDLE flit: device time at transmission, and device time at which the last IDLE came (R343). -/
def Port.sendIdle (p : Port) (ns : Nat) : Port :=
  { (p.send (mkFlit p.txSeq p.rxSeq 1 [BitVec.ofNat 64 ns, BitVec.ofNat 64 p.idleSeen])) with idleSent := some ns }

/-- A frozen package's port that is UP sends IDLE and acknowledges nothing (R342). -/
def State.idleWhileFrozen (s : State) (port : Nat) : State :=
  if s.frozen ∧ s.dieExists (port / 4) ∧ (s.port port).state = 2 then s.updPort port (fun p => p.sendIdle s.deviceNs) else s

/-- ACK: the flits up to it leave the replay buffer (R329). -/
def Port.acked (p : Port) (ack now : Nat) : Port :=
  match p.replay.findIdx? (fun e => e.1 == ack) with
  | none => p
  | some k => { p with replay := p.replay.drop (k + 1), lastAck := ack, ackAt := now, resent := (p.replay.take (k + 1)).foldl (fun m e => Map.del m e.1) p.resent }

/-! Width changes and DOWN (R330, R404, R405). -/

/-- Step 1 of a width change: WIDTH is sent and the port retrains (R330). -/
def Port.startWidth (p : Port) (w now : Nat) : Port :=
  if p.state = 2 then { (p.send (mkFlit p.txSeq p.rxSeq 3 [])) with state := 3, target := some w, retrainAt := now } else p

/-- A port leaves RETRAIN: the span it spent there is noted, and what no request outstanding spans any more is dropped (R405). -/
def State.endRetrain (s : State) (n : Nat) : State :=
  s.updPort n (fun p => if p.state = 3 then { p with
    retrains := ((p.retrainAt, s.dev) :: p.retrains).filter (fun e => s.reqs.any (fun r => decide (r.sentAt < e.2))) } else p)

/-- A faulted answer for the requests that used a port when it went DOWN: those in the replay buffer, which are not specified (R406). -/
def State.answerDown (s : State) (port : Nat) : State :=
  let used := fun (r : Req) => match s.foreign r, r.stage with
    | some pkg, .issued => (Map.get 0 s.oroute pkg).toNat % 16 == port
    | some pkg, .translated _ => (Map.get 0 s.oroute pkg).toNat % 16 == port
    | _, _ => false
  (s.reqs.filter used).foldl (fun (a : State) r =>
    let c := a.draw 2
    let d0 := (s.foreign r).getD 0 + port * 256
    if c.1 = 0 then c.2 else
    match r.body with
    | .tlnch _ _ => c.2.answerLaunch r (2, 0)
    | .send _ _ _ => c.2.sendFail r 0x0904 d0
    | .load _ _ => c.2.faultReq r 0x0904 0 0 d0 0
    | _ => c.2.faultReq r 0x0904 1 0 d0 0) s

/-- A port goes DOWN: MSI-X 265, and its requests are answered (R352, R406); device time runs free where it led to the time source (R343). -/
def State.portDown (s : State) (port : Nat) : State :=
  let s0 := s.answerDown port
  let s1 : State := if s.timePort = some port then { s0 with ppm := 0 } else s0
  ((s1.endRetrain port).updPort port (fun p => { p with
    state := 0
    replay := []
    outWords := []
    target := none
    pendingDown := 0
    exhausted := false
    nakSent := false
    resent := [] })).raiseMsi 265

/-- The record of exhaustion, kept by the Proctor, and DOWN (R404). -/
def State.exhaust (s : State) (port : Nat) : State :=
  let p := s.port port
  let r := s.baseRec (port / 4) none 0x0905 0 8
  (s.pushRec { r with detail0 := BitVec.ofNat 64 (port % 16 + p.replays % 4096 * 2 ^ 16) }).portDown port

/-- One width step down, where AUTO allows it and there is one; else the port goes DOWN (R404). -/
def State.stepDown (s : State) (port : Nat) : State :=
  let p := s.port port
  if p.auto ∧ p.width < 2 then s.updPort port (fun q => { q.startWidth (q.width + 1) s.dev with resent := [], ackAt := s.dev, exhausted := false })
  else s.exhaust port

/-- A frozen package's ports do not acknowledge (R342); the port of an event stands in the input or the instruction. -/
def State.linkRuns (s : State) (port : Nat) : Bool := !s.frozen && s.dieExists (port / 4)

/-- Writes EN of LCTL (R329): enabling starts training, disabling takes the port DOWN. -/
def State.setPortEnable (s : State) (n : Nat) (en : Bool) : State :=
  if en then s.updPort n (fun p => if p.state = 0 then { p with enabled := true, state := 1 } else { p with enabled := true })
  else (if (s.port n).state = 0 then s else s.portDown n).updPort n (fun p => { p with enabled := false })

/-- Writes WMAX of LCTL (R330): 3 is reserved and ignored; a width above it is given up. -/
def State.setWmax (s : State) (n w : Nat) : State :=
  if w = 3 then s else
  s.updPort n (fun p =>
    let q : Port := { p with wmax := w }
    if p.width < w then q.startWidth (p.width + 1) s.dev else q)

/-- PORT_ENABLE (R329): EN of LCTL is written from bit 31 of the input's value. -/
def execPortEnable (s : State) : Host.Outcome State Fault Refusal :=
  let n := s.input.port
  if s.dieExists (n / 4) = false then .next s
  else if s.frozen then .next (s.defer .portEnable)
  else .next (s.setPortEnable n (bitsN s.input.value.toNat 31 31 == 1))

/-- TRAINING_COMPLETE (R329): the port is UP at its widest permitted width, its sequences begun anew. -/
def execTrainingComplete (s : State) : Host.Outcome State Fault Refusal :=
  let n := s.input.port
  if s.linkRuns n = false ∨ (s.port n).state ≠ 1 then .next s
  else .next (s.updPort n (fun p => { p with
    state := 2
    width := p.wmax
    txSeq := 0
    rxSeq := 4095
    lastAck := 4095
    replay := []
    resent := []
    nakSent := false
    ackAt := s.dev
    regainAt := s.dev }))

/-- PEER_PORT_DOWN (R404). -/
def execPeerPortDown (s : State) : Host.Outcome State Fault Refusal :=
  let n := s.input.port
  if s.linkRuns n = false ∨ (s.port n).state = 0 then .next s else .next (s.portDown n)

/-- WMAX_WRITE (R330): WMAX is written from bits 30:29 of the input's value. -/
def execWmaxWrite (s : State) : Host.Outcome State Fault Refusal :=
  let n := s.input.port
  if s.dieExists (n / 4) = false then .next s
  else if s.frozen then .next (s.defer .wmaxWrite)
  else .next (s.setWmax n (bitsN s.input.value.toNat 30 29))

/-- LANE_ERROR (R330, R404): with AUTO one width step down is requested, of a port in RETRAIN for after the change; a port that cannot
hold 2 lanes goes DOWN. -/
def execLaneError (s : State) : Host.Outcome State Fault Refusal :=
  let n := s.input.port
  let p := s.port n
  if s.linkRuns n = false ∨ p.auto = false ∨ p.state < 2 then .next s
  else if p.state = 3 then .next (s.updPort n (fun q => { q with pendingDown := q.pendingDown + 1 }))
  else if p.width < 2 then .next (s.updPort n (fun q => q.startWidth (q.width + 1) s.dev))
  else .next (s.exhaust n)

/-- After a change one width step more is taken where a lane error asked for it meanwhile, or WMAX lies below the new width (R330); a
port that would go below 2 lanes goes DOWN (R404). -/
def State.afterWidth (s : State) (port : Nat) : State :=
  let p := s.port port
  if 0 < p.pendingDown then
    if p.width < 2 then s.updPort port (fun q => { q with pendingDown := q.pendingDown - 1 }.startWidth (q.width + 1) s.dev) else s.exhaust port
  else if p.width < p.wmax then s.updPort port (fun q => q.startWidth (q.width + 1) s.dev)
  else s

/-- RETRAIN_COMPLETE (R330): the new width; every unacknowledged flit is sent again; what was found or asked during the change is acted
on. With the input's flag the lanes could not be held. -/
def execRetrainComplete (s : State) : Host.Outcome State Fault Refusal :=
  let n := s.input.port
  let p := s.port n
  match p.target with
  | none => .next s
  | some w =>
    if s.linkRuns n = false ∨ p.state ≠ 3 then .next s
    else if s.input.flag then .next (s.exhaust n)
    else
      let q : Port := { (s.endRetrain n).port n with state := 2, width := w, target := none, sheds := (p.sheds + 1) % 256, ackAt := s.dev }
      let s1 := (s.setPort n (q.resend.pump s.dev 1024)).afterWidth n
      .next (if p.exhausted ∧ (s1.port n).state = 2 then s1.stepDown n else s1)

/-- WIDTH_REGAIN_TEST (R330): every 100 ms with AUTO shed lanes are tested, and with the input's flag, good, one width step is regained up
to WMAX. -/
def execWidthRegainTest (s : State) : Host.Outcome State Fault Refusal :=
  let n := s.input.port
  let p := s.port n
  if s.linkRuns n = false ∨ p.auto = false ∨ p.state ≠ 2 ∨ p.width ≤ p.wmax ∨ s.dev < p.regainAt + 100000 * usUnits then .next s
  else
    let q : Port := { p with regainAt := s.dev }
    .next (s.setPort n (if s.input.flag then q.startWidth (p.width - 1) s.dev else q))

/-- WIDTH_FLIT_RECEIVE (R330): the peer begins a width change to the width in the input's value. -/
def execWidthFlitReceive (s : State) : Host.Outcome State Fault Refusal :=
  let n := s.input.port
  if s.linkRuns n = false ∨ flitOk s.input.words = false ∨ flitType s.input.words ≠ 3 ∨ (s.port n).state ≠ 2 then .next s
  else .next (s.updPort n (fun p => (p.acked (flitAck s.input.words) s.dev).startWidth (s.input.value.toNat % 3) s.dev))

/-! Receiving. -/

/-- A discarded flit: one NAK names the last good SEQ (R329), and none more is sent for those discarded until its successor comes (log 145). -/
def Port.nak (p : Port) : Port :=
  if p.nakSent then p else { (p.send (mkFlit p.txSeq p.rxSeq 2 [])) with nakSent := true }

/-- The port on which a link word goes on, none for a word of this package or an empty one (R331). -/
def State.onward (s : State) (w : BitVec 64) : Option Nat :=
  let dst := bitsN w.toNat 60 55
  if w = 0 ∨ dst = s.package then none else some ((Map.get 0 s.oroute dst).toNat % 16)

/-- A word goes out of a port. -/
def State.sendOn (s : State) (port : Nat) (w : BitVec 64) : State :=
  s.updPort port (fun p => ({ p with outWords := p.outWords ++ [w] }).pump s.dev 1)

/-- One link word of a good flit: kept for this package, by its VC and die, or sent on by the route of its destination (R329, R331). A request
whose route ends here (V = 0, or a port that is disabled, DOWN or TRAINING) goes no further: the answer 0x0901 or 0x0903 goes back by the port it came
by (R406, log 46), as a word of its VC whose destination and token the link's format does not give (log 131). -/
def State.linkWord (s : State) (port : Nat) (w : BitVec 64) : State :=
  match s.onward w with
  | none =>
    if w = 0 then s else
    s.updPort port (fun p => { p with inbox := p.inbox ++ [(24 + bitsN w.toNat 63 61, bitsN w.toNat 54 53, BitVec.ofNat 39 (bitsN w.toNat 38 0))] })
  | some out =>
    match s.routeTo (bitsN w.toNat 60 55) with
    | .fault _ _ =>
      let d := s.draw (2 ^ 61)
      d.2.sendOn port (BitVec.ofNat 64 (bitsN w.toNat 63 61 * 2 ^ 61 + d.1))
    | _ => s.sendOn out w

/-- A word of a flit that no full replay buffer holds up (R329). -/
def State.wordRoom (s : State) (w : BitVec 64) : Bool :=
  match s.onward w with
  | none => true
  | some out => decide ((s.port out).replay.length < 1024)

/-- FLIT_RECEIVE (R329): a DATA flit in order is taken, its words delivered and its ACK counted; one out of order or with a bad CRC is discarded with
a NAK; a good flit of another type comes by its own event. A flit
with a word for a port whose replay buffer is full is not taken yet. -/
def execFlitReceive (s : State) : Host.Outcome State Fault Refusal :=
  let n := s.input.port
  let f := s.input.words
  let p := s.port n
  if s.linkRuns n = false ∨ p.state ≠ 2 then .next (s.idleWhileFrozen n)
  else if flitOk f = true ∧ flitType f ≠ 0 then .next s
  else if flitOk f = false ∨ flitSeq f ≠ (p.rxSeq + 1) % 4096 then .next (s.setPort n p.nak)
  else
    let ws := (f.drop 1).take 30
    if ws.all s.wordRoom = false then .next s else
    let q := ({ p with rxSeq := flitSeq f, nakSent := false }).acked (flitAck f) s.dev
    let s1 := ws.foldl (fun (a : State) w => a.linkWord n w) (s.setPort n q)
    .next (s1.updPort n (fun x =>
      let y := x.pump s.dev 1024
      if y.sent.length = q.sent.length then y.sendIdle s.deviceNs else y))

/-- NAK_RECEIVE (R329): everything after its ACK is sent again. -/
def execNakReceive (s : State) : Host.Outcome State Fault Refusal :=
  let n := s.input.port
  let f := s.input.words
  let p := s.port n
  if s.linkRuns n = false ∨ p.state ≠ 2 ∨ flitOk f = false ∨ flitType f ≠ 2 then .next (s.idleWhileFrozen n)
  else
    let q := p.acked (flitAck f) s.dev
    if q.replay.isEmpty then .next (s.setPort n q)
    else .next (s.setPort n ({ q with replays := (q.replays + 1) % 4096 }).resend)

/-- Device time against the other end's, from an exchange of IDLE flits (R343): theirs at transmission and at their last receipt, ours at our
last transmission and now. Their lead is the mean of the two differences, where both ends have heard the other (log 100). -/
def timeLead (theirSent theirSeen now : Nat) (sent : Option Nat) : Int :=
  let back : Int := (theirSent : Int) - now
  match sent with
  | some t => if theirSeen = 0 then back else (((theirSeen : Int) - t) + back) / 2
  | none => back

/-- Steers device time toward the time source's: by at most 100 ppm, faster or slower as the difference stands (R343, log 100). -/
def State.steer (s : State) (lead : Int) : State :=
  { s with ppm := max (-100) (min 100 lead), proctor := { s.proctor with timeDiff := lead } }

/-- IDLE_RECEIVE (R329, R343): its ACK counts, and on the port toward the time source its first word steers device time. -/
def execIdleReceive (s : State) : Host.Outcome State Fault Refusal :=
  let n := s.input.port
  let f := s.input.words
  let p := s.port n
  if s.linkRuns n = false ∨ p.state ≠ 2 ∨ flitOk f = false ∨ flitType f ≠ 1 then .next (s.idleWhileFrozen n)
  else
    let s1 := s.setPort n { (p.acked (flitAck f) s.dev) with idleSeen := s.deviceNs }
    if s.timePort = some n then .next (s1.steer (timeLead (f.getD 1 0).toNat (f.getD 2 0).toNat s.deviceNs p.idleSent)) else .next s1

/-- A flit of the replay buffer has been sent again 8 times without acknowledgement (R404). -/
def Port.wornOut (p : Port) : Bool := p.replay.any (fun e => decide (8 ≤ Map.get 0 p.resent e.1))

/-- REPLAY_EXHAUSTED (R404, R405): a flit resent 8 times, or no ACK for 100 µs while flits are unacknowledged. -/
def execReplayExhausted (port : Nat) (s : State) : Host.Outcome State Fault Refusal :=
  let p := s.port port
  if s.linkRuns port = false ∨ p.state < 2 ∨ p.replay.isEmpty = true ∨ (p.wornOut = false ∧ s.dev < p.ackAt + 100 * usUnits) then .next s
  else if p.state = 3 then .next (s.updPort port (fun q => { q with exhausted := true }))
  else .next (s.stepDown port)

end Sys2Proof.Machine
end

