-- ==== Sys2Proof/Machine/PackedOps.lean ====
section
/-! DEFINITION. Sys2Proof/Machine/PackedOps.lean: the packed and quantisation operators 0x40 to 0x4D. Each computes one word from its
operands and raises flags (R197 to R200); latencies are those of R184. -/
namespace Sys2Proof.Machine
open Sys2Proof

/-- `qenc` (R223). -/
def execQenc (site : Site) (f : OpFields) (s : State) : Host.Outcome State Fault Refusal :=
  s.fireAlu 0x40 aluQenc 2 site f
/-- `qdec` (R224). -/
def execQdec (site : Site) (f : OpFields) (s : State) : Host.Outcome State Fault Refusal :=
  s.fireAlu 0x41 aluQdec 2 site f
/-- `q8enc` (R225). -/
def execQ8enc (site : Site) (f : OpFields) (s : State) : Host.Outcome State Fault Refusal :=
  s.fireAlu 0x42 aluQ8enc 2 site f
/-- `q8dec` (R225). -/
def execQ8dec (site : Site) (f : OpFields) (s : State) : Host.Outcome State Fault Refusal :=
  s.fireAlu 0x43 aluQ8dec 2 site f
/-- `amax` (R221). -/
def execAmax (site : Site) (f : OpFields) (s : State) : Host.Outcome State Fault Refusal :=
  s.fireAlu 0x44 aluAmax 2 site f
/-- `qscale` (R222). -/
def execQscale (site : Site) (f : OpFields) (s : State) : Host.Outcome State Fault Refusal :=
  s.fireAlu 0x45 aluQscale 2 site f
/-- `zcnt` (R220). -/
def execZcnt (site : Site) (f : OpFields) (s : State) : Host.Outcome State Fault Refusal :=
  s.fireAlu 0x46 aluZcnt 2 site f
/-- `zmask` (R220). -/
def execZmask (site : Site) (f : OpFields) (s : State) : Host.Outcome State Fault Refusal :=
  s.fireAlu 0x47 aluZmask 2 site f
/-- `lanex` (R219). -/
def execLanex (site : Site) (f : OpFields) (s : State) : Host.Outcome State Fault Refusal :=
  s.fireAlu 0x48 aluLanex 2 site f
/-- `lanei` (R219). -/
def execLanei (site : Site) (f : OpFields) (s : State) : Host.Outcome State Fault Refusal :=
  s.fireAlu 0x49 aluLanei 2 site f
/-- `splat` (R219). -/
def execSplat (site : Site) (f : OpFields) (s : State) : Host.Outcome State Fault Refusal :=
  s.fireAlu 0x4A aluSplat 2 site f
/-- `widen` (R219). -/
def execWiden (site : Site) (f : OpFields) (s : State) : Host.Outcome State Fault Refusal :=
  s.fireAlu 0x4B aluWiden 2 site f
/-- `narrow` (R219). -/
def execNarrow (site : Site) (f : OpFields) (s : State) : Host.Outcome State Fault Refusal :=
  s.fireAlu 0x4C aluNarrow 2 site f
/-- `shuf` (R219). -/
def execShuf (site : Site) (f : OpFields) (s : State) : Host.Outcome State Fault Refusal :=
  s.fireAlu 0x4D aluShuf 2 site f

end Sys2Proof.Machine
end

