-- ==== Sys2Proof/Machine/BlockOps.lean ====
section
/-! DEFINITION. Sys2Proof/Machine/BlockOps.lean: reads and writes of a die's control block, by the host through BAR 0 and by the die's Pilot
(R327, R351), and the host's other windows (R326). -/
namespace Sys2Proof.Machine
open Sys2Proof

/-! The control block (R327). -/

/-- LCTL is written: EN, WMAX and AUTO (R329). -/
def State.writeLctl (s : State) (n v : Nat) : State :=
  ((s.updPort n (fun p => { p with auto := bitsN v 28 28 == 1 })).setWmax n (bitsN v 30 29)).setPortEnable n (bitsN v 31 31 == 1)

/-- One register of the control block of die d is written whole; a read-only one keeps its value (R327). -/
def State.writeRegister (s : State) (d off v : Nat) : State :=
  if off < 0x400 then s.writeQueueEntry d (off / 16) (BitVec.ofNat 128 (mergeField (s.queueEntry d (off / 16)).toNat (off % 16) 8 v))
  else if off = 0x400 then s.writeXlinv d (bitsN v 63 48) (if bitsN v 47 47 = 1 then none else some (bitsN v 40 0))
  else if 0x420 ≤ off ∧ off < 0x460 then s.writeSctl (16 * d + (off - 0x420) / 4) v (bitsN v 27 27 == 1)
  else if 0x600 ≤ off ∧ off < 0x620 then (if off % 8 = 0 then s.writeLctl (4 * d + (off - 0x600) / 8) v else s)
  else if off = 0x900 then s.writeFact d (BitVec.ofNat 64 v)
  else s.setRegister d off v

/-- n bytes are written at an offset of the control block of die d: every register they meet takes its part, at once (R327). -/
def State.blockWrite (s : State) (d off n v : Nat) : State :=
  (registersIn off n).foldl (fun (a : State) r =>
    let lo := max r.1 off
    let hi := min (r.1 + r.2) (off + n)
    let old := if r.1 = 0x910 then 0 else a.controlRegister d r.1
    a.writeRegister d r.1 (mergeField old (lo - r.1) (hi - lo) (v / 2 ^ (8 * (lo - off))))) s

/-- n bytes are read at an offset of the control block of die d: a read of FNOTE pops its notice (R351); a reserved offset reads 0. -/
def State.blockRead (s : State) (d off n : Nat) : Nat × State :=
  let regs := registersIn off n
  let v := regs.foldl (fun (x : Nat) r =>
    let lo := max r.1 off
    let hi := min (r.1 + r.2) (off + n)
    x + s.controlRegister d r.1 / 2 ^ (8 * (lo - r.1)) % 2 ^ (8 * (hi - lo)) * 2 ^ (8 * (lo - off))) 0
  (v, if regs.any (fun r => r.1 == 0x910) then (s.popNote d).2 else s)

/-- REGISTER_WRITE (R327): the input's value, of its size, is written at its offset of a die's control block. -/
def execRegisterWrite (s : State) : Host.Outcome State Fault Refusal :=
  let x := s.input
  if s.dieExists x.die = false ∨ x.wholeAccess = false then .next s
  else if s.frozen then .next (s.defer .registerWrite)
  else .next (s.blockWrite x.die x.offset x.size x.value.toNat)

/-! The host's windows (R326). -/

/-- An answer to the host. -/
def State.respond (s : State) (v : Nat) : State := { s with responses := s.responses ++ [BitVec.ofNat 64 v] }

/-- A read of BAR 0: the control block of the die at its offset. -/
def State.hostBar0Read (s : State) (off n : Nat) : State :=
  if s.dieExists (off / 2 ^ 20) then
    let r := s.blockRead (off / 2 ^ 20) (off % 2 ^ 20) n
    r.2.respond r.1
  else s.respond 0

/-- An access of BAR 2: a read beyond the HBM present returns all ones, and a write there is dropped. -/
def State.hostBar2 (s : State) (off n : Nat) (write : Bool) (v : Nat) : State :=
  let pa := s.package * 2 ^ 45 + off
  if write then (if s.hbmBytes ≤ off then s else s.memWrite pa v n)
  else if s.hbmBytes ≤ off then s.respond (2 ^ (8 * n) - 1)
  else
    let r := s.hbmRead pa n
    r.2.respond r.1

/-- HOST_HBM_ACCESS (R326, R127): a naturally aligned access of 8 bytes or fewer to BAR 2, a write with the input's flag; with port 1 a read
of BAR 0, and with port 2 one of a doorbell page, which reads 0. -/
def execHostHbmAccess (s : State) : Host.Outcome State Fault Refusal :=
  let x := s.input
  if x.wholeAccess = false then .next s
  else if s.frozen then .next (s.defer .hostHbmAccess)
  else if x.port = 1 then (if x.offset < 2 ^ 22 then .next (s.hostBar0Read x.offset x.size) else .next s)
  else if x.port = 2 then (if x.offset < 2 ^ 20 then .next (s.respond 0) else .next s)
  else if x.offset < 2 ^ 39 then .next (s.hostBar2 x.offset x.size x.flag x.value.toNat)
  else .next s

end Sys2Proof.Machine
end

