-- ==== Sys2Proof/Machine/PilotOps.lean ====
section
/-! DEFINITION. Sys2Proof/Machine/PilotOps.lean: the Pilot's custom instructions (R313, R314) and the exception of an encoding that is not
one of them. -/
namespace Sys2Proof.Machine
open Sys2Proof

def State.pilot (s : State) (d : Nat) : Pilot := (s.dieAt d).pilot
def State.updPilot (s : State) (d : Nat) (f : Pilot → Pilot) : State := s.updDie d (fun t => { t with pilot := f t.pilot })

/-- A Pilot register: x0 reads zero. -/
def Pilot.reg (p : Pilot) (n : BitVec 5) : BitVec 64 := if n = 0 then 0 else Map.get 0 p.x n.toNat
/-- Writes a Pilot register: a write of x0 is dropped. -/
def Pilot.setReg (p : Pilot) (n : BitVec 5) (v : BitVec 64) : Pilot := if n = 0 then p else { p with x := Map.set 0 p.x n.toNat v }

/-- The value of a source register. -/
def State.pilotReg (s : State) (d : Nat) (n : BitVec 5) : Nat := ((s.pilot d).reg n).toNat

/-- The instruction is done: its result in rd, and the next instruction. -/
def State.pilotDone (s : State) (d : Nat) (rd : BitVec 5) (v : Nat) : State :=
  s.updPilot d (fun p => { p.setReg rd (BitVec.ofNat 64 v) with pc := p.pc + 4, instret := p.instret + 1 })

/-- `mstatus` with the bits MIE (3) and MPIE (7) given and MPP (12:11) machine mode (log 12). -/
def mstatusOf (mie mpie : Bool) : BitVec 64 := BitVec.ofNat 64 ((if mie then 8 else 0) + (if mpie then 128 else 0) + 0x1800)
/-- `mstatus` as it stands. -/
def Pilot.mstatus (p : Pilot) : BitVec 64 := Map.get 0x1800 p.csr 0x300
/-- Where a trap goes: the base of `mtvec`, and for an interrupt in vectored mode 4 bytes a cause beyond it (log 12). -/
def Pilot.vector (p : Pilot) (cause : Nat) : BitVec 64 :=
  let base := p.mtvec.toNat / 4 * 4
  BitVec.ofNat 64 (if 2 ^ 63 ≤ cause ∧ p.mtvec.toNat % 4 = 1 then base + 4 * (cause % 2 ^ 63) else base)

/-- TAKING AN EXCEPTION of a Pilot: the pc, the cause and a value are saved, interrupts are barred, and the pc goes to the trap vector (R313,
log 12). -/
def State.pilotTrap (s : State) (d cause tval : Nat) : State :=
  s.updPilot d (fun p => { p with
    mepc := p.pc
    mcause := BitVec.ofNat 64 cause
    mtval := BitVec.ofNat 64 tval
    csr := Map.set 0x1800 p.csr 0x300 (mstatusOf false (p.mstatus.getLsbD 3))
    wfeSince := none
    pc := p.vector cause })

/-- Bytes of a Pilot's scratch (R22). -/
def scratchBytes : Nat := 262144

/-- Where a Pilot sees its die's control block, and its size (R351, R326). -/
def pilotBlock : Nat := 0x4000000000
def pilotBlockBytes : Nat := 0x100000

/-- An access of a Pilot meets the control block. -/
def inPilotBlock (a n : Nat) : Bool := decide (pilotBlock < a + n) && decide (a < pilotBlock + pilotBlockBytes)

/-- A Pilot address holds bytes: its scratch, or memory. -/
def State.pilotPresent (s : State) (a n : Nat) : Bool :=
  !inPilotBlock a n && (decide (a + n ≤ scratchBytes) || (s.paPresent a && s.paPresent (a + n - 1)))

/-- One byte as a Pilot reads it: its scratch lies at address 0 (log 14). -/
def State.pilotByte (s : State) (d a : Nat) : Byte := if a < scratchBytes then Map.get 0 (s.pilot d).scratch a else s.memByte a

/-- n bytes as a Pilot reads them, little-endian. -/
def State.pilotRead (s : State) (d a : Nat) : Nat → Nat
  | 0 => 0
  | n + 1 => s.pilotRead d a n + (s.pilotByte d (a + n)).toNat * 2 ^ (8 * n)

/-- One byte as a Pilot writes it. -/
def State.pilotPut (s : State) (d a : Nat) (b : Byte) : State :=
  if a < scratchBytes then s.updPilot d (fun p => { p with scratch := Map.set 0 p.scratch a b }) else s.memSetByte a b

/-- The n low bytes of a value as a Pilot writes them. -/
def State.pilotWrite (s : State) (d a v : Nat) : Nat → State
  | 0 => s
  | n + 1 => (s.pilotWrite d a v n).pilotPut d (a + n) (BitVec.ofNat 8 (v / 2 ^ (8 * n)))

/-- The Pilot of a die runs. -/
def State.pilotRuns (s : State) (d : Nat) : Bool := s.dieExists d && !s.frozen

/-- A Pilot's interrupt is pending: its die's notice list is not empty (R351). -/
def Die.meip (t : Die) : Bool := !t.notices.isEmpty

/-! Queues. -/

/-- The queue that rs1 bit 0 names: 0 logit, 1 event. -/
def Pilot.queue (p : Pilot) (n : Nat) : List (BitVec 64) := if n % 2 = 0 then p.logit else p.event
def Pilot.setQueue (p : Pilot) (n : Nat) (q : List (BitVec 64)) : Pilot := if n % 2 = 0 then { p with logit := q } else { p with event := q }

/-- `xg.qpop`: waits until the queue is not empty. -/
def execXgQpop (die : Fin 4) (rd rs1 _rs2 : BitVec 5) (s : State) : Host.Outcome State Fault Refusal :=
  let d := die.val
  let n := s.pilotReg d rs1
  match s.pilotRuns d, (s.pilot d).queue n with
  | true, v :: rest => .next ((if n % 2 = 0 then (s.updPilot d (fun p => p.setQueue n rest)).noteVacated (queueOfLogit d)
      else s.updPilot d (fun p => p.setQueue n rest)).pilotDone d rd v.toNat)
  | _, _ => .next s

/-- `xg.qpeek`. -/
def execXgQpeek (die : Fin 4) (rd rs1 _rs2 : BitVec 5) (s : State) : Host.Outcome State Fault Refusal :=
  let d := die.val
  if s.pilotRuns d then .next (s.pilotDone d rd ((s.pilot d).queue (s.pilotReg d rs1)).length) else .next s

/-- The sector that rs2 bits 3:0 name. -/
def pilotSector (d v : Nat) : Nat := 16 * d + v % 16

/-- `xg.rpush`: a record or an end marker, unless the queue holds 64. -/
def execXgRpush (die : Fin 4) (rd rs1 rs2 : BitVec 5) (s : State) : Host.Outcome State Fault Refusal :=
  let d := die.val
  let k := pilotSector d (s.pilotReg d rs2)
  if !s.pilotRuns d || (s.sector k).changing.isSome then .next s
  else if 64 ≤ (s.sector k).rrq.length ∨ (s.sector k).mode = .gated ∨ (s.sector k).mode = .calib then .next (s.pilotDone d rd 1)
  else
    let item := if bitsN (s.pilotReg d rs2) 8 8 = 1 then RoutingItem.endMarker else RoutingItem.record ((s.pilot d).reg rs1)
    .next (((s.updSector k (fun t => { t with rrq := t.rrq ++ [item] })).serveRouting k 64).pilotDone d rd 0)

/-! Grant tables (R314). -/

/-- The entry that rs2 bits 7:4 name. -/
def State.grantAt (s : State) (d v : Nat) : Grant := Map.get Grant.reset (s.sector (pilotSector d v)).grants (bitsN v 7 4)

/-- An entry as READ gives it. -/
def Grant.word (g : Grant) : Nat :=
  (if g.opened then 2 ^ 63 else 0) + g.round * 2 ^ 56 + g.defc * 2 ^ 32 + g.used * 2 ^ 16 + g.expert

/-- `xg.gset` READ; an operation of 5 to 15 has no effect and gives all ones. -/
def execXgGsetRead (die : Fin 4) (rd _rs1 rs2 : BitVec 5) (s : State) : Host.Outcome State Fault Refusal :=
  let d := die.val
  let v := s.pilotReg d rs2
  if !s.pilotRuns d then .next s
  else .next (s.pilotDone d rd (if 5 ≤ bitsN v 11 8 then 2 ^ 64 - 1 else (s.grantAt d v).word))

/-- Changes the entry and gives a result. -/
def State.gset (s : State) (d : Nat) (rd rs2 : BitVec 5) (f : Grant → Grant) (r : Nat) : Host.Outcome State Fault Refusal :=
  let v := s.pilotReg d rs2
  if !s.pilotRuns d then .next s
  else .next ((s.setGrant (pilotSector d v) (bitsN v 7 4) (f (s.grantAt d v))).pilotDone d rd r)

/-- `xg.gset` SETEXP: the entry is closed and emptied. -/
def execXgGsetSetexp (die : Fin 4) (rd rs1 rs2 : BitVec 5) (s : State) : Host.Outcome State Fault Refusal :=
  let a := s.pilotReg die.val rs1
  s.gset die.val rd rs2 (fun g => { g with
    expert := bitsN a 7 0
    cap := bitsN a 28 16
    used := 0
    defc := 0
    opened := false
    granted := [] }) 0
/-- `xg.gset` SETBASE. -/
def execXgGsetSetbase (die : Fin 4) (rd rs1 rs2 : BitVec 5) (s : State) : Host.Outcome State Fault Refusal :=
  let a := s.pilotReg die.val rs1
  s.gset die.val rd rs2 (fun g => { g with wbase := a }) 0
/-- `xg.gset` OPEN. -/
def execXgGsetOpen (die : Fin 4) (rd rs1 rs2 : BitVec 5) (s : State) : Host.Outcome State Fault Refusal :=
  let a := s.pilotReg die.val rs1
  s.gset die.val rd rs2 (fun g => { g with round := bitsN a 2 0, used := 0, defc := 0, granted := [], opened := true }) 0
/-- `xg.gset` CLOSE: closes at once, and waits until every weight record is performed. -/
def execXgGsetClose (die : Fin 4) (rd _rs1 rs2 : BitVec 5) (s : State) : Host.Outcome State Fault Refusal :=
  let d := die.val
  let v := s.pilotReg d rs2
  let g := s.grantAt d v
  if g.stuck.isSome && s.pilotRuns d then .next (s.setGrant (pilotSector d v) (bitsN v 7 4) { g with opened := false })
  else s.gset d rd rs2 (fun g => { g with opened := false }) (g.defc * 2 ^ 16 + g.used)

/-! Sending. -/

/-- A request of the Pilot of a die. -/
def State.pilotRequest (s : State) (d : Nat) (b : ReqBody) : State :=
  let (id, s1) := s.fresh
  let r : Req := {
    id := id, cell := 32768 + d, slot := 0, order := id, inst := 0, asid := 0, body := b, stage := .issued, handle := 0, elem := 0,
    named := false, loc := false, addr := 0, size := 0, swz := 0, dst := .none, dstOff := 0, kind := .data, deps := [], result := 0,
    operands := [], retired := false, remote := true, sentAt := s.dev, wlvl := 7, paused := false, arrived := id, readyAt := s.now,
    back := 0, leaf := 0, atHub := false, hops := 0, hopAt := s.now }
  { s1 with reqs := s1.reqs ++ [r] }

/-- A request of the Pilot that a test picks is under way. -/
def State.pilotAwaits (s : State) (d : Nat) (p : ReqBody → Bool) : Bool := s.reqs.any (fun r => r.pilot == some d && p r.body)

/-- `xg.tlnch`: sends the 64 bytes at rs1 as a record or packet and waits for the reply; an address that holds nothing is a load
access fault of the Pilot (log 12). -/
def execXgTlnch (die : Fin 4) (rd rs1 rs2 : BitVec 5) (s : State) : Host.Outcome State Fault Refusal :=
  let d := die.val
  if !s.pilotRuns d then .next s else
  match (s.pilot d).reply with
  | some v => .next ((s.updPilot d (fun p => { p with reply := none })).pilotDone d rd v.toNat)
  | none =>
    if s.pilotAwaits d (fun b => match b with | .tenq _ => true | .tlnch _ _ => true | _ => false) then .next s else
    let a := s.pilotReg d rs1
    let v := s.pilotReg d rs2
    if !s.pilotPresent a 64 then .next (s.pilotTrap d 5 a) else
    let rec_ := BitVec.ofNat 512 (s.pilotRead d a 64)
    .next (s.pilotRequest d (if v % 2 = 0 then .tenq rec_ else .tlnch (bitsN v 21 8) rec_))

/-- `xg.cfgw`: one configuration command, once the loader accepts it; rd as R313 and R76 say. -/
def execXgCfgw (die : Fin 4) (rd rs1 rs2 : BitVec 5) (s : State) : Host.Outcome State Fault Refusal :=
  let d := die.val
  let k := pilotSector d (s.pilotReg d rs2)
  let w := s.pilotReg d rs1
  let begin_ := s.isBegin k .pilot (bitsN w 31 24) (bitsN w 23 16)
  if !s.pilotRuns d then .next s
  else if !s.loaderTakes k .pilot begin_ then .next (s.loaderWaits k .pilot begin_) else
  let swap := !s.isLit k .pilot && bitsN w 31 24 == 0xFE && bitsN w 23 16 == 6
  let a := s.loaderStep k .pilot (bitsN w 31 24) (bitsN w 23 16) (bitsN w 15 0)
  if swap && a.result == 0 then
    match (a.state.sector k).swapTokens.getLast? with
    | none => .next (a.state.pilotDone d rd 0)
    | some t =>
      let s1 := a.state.updSector k (fun x => { x with swapTokens := x.swapTokens.dropLast })
      let o := s1.swapArrives k t
      .next (o.1.pilotDone d rd (if o.2 then 1 else 0))
  else .next (a.state.pilotDone d rd a.result)

/-- The time that rs1 Pilot cycles take: 40 units each (R27). -/
def pilotUnits (n : Nat) : Nat := 40 * n

/-- `xg.wfe`: pops an event, or ends with 0 on a pending interrupt; else it waits, from now on. -/
def execXgWfe (die : Fin 4) (rd _rs1 _rs2 : BitVec 5) (s : State) : Host.Outcome State Fault Refusal :=
  let d := die.val
  if !s.pilotRuns d then .next s else
  let ended := fun (a : State) => a.updPilot d (fun p => { p with wfeSince := none })
  match (s.pilot d).event with
  | v :: rest => .next ((ended (s.updPilot d (fun p => { p with event := rest }))).pilotDone d rd v.toNat)
  | [] =>
    if (s.dieAt d).meip then .next ((ended s).pilotDone d rd 0)
    else .next (s.updPilot d (fun p => { p with wfeSince := match p.wfeSince with | some t => some t | none => some s.now }))

/-- XG_WFE_TIMEOUT: the wait of `xg.wfe` ends after rs1 Pilot cycles, 0 being no limit, with rd := 0. -/
def execXgWfeTimeout (die : Fin 4) (rd rs1 _rs2 : BitVec 5) (s : State) : Host.Outcome State Fault Refusal :=
  let d := die.val
  let n := s.pilotReg d rs1
  match (s.pilot d).wfeSince with
  | none => .next s
  | some t =>
    if !s.pilotRuns d || decide (n = 0) || decide (s.now < t + pilotUnits n) || !(s.pilot d).event.isEmpty || (s.dieAt d).meip then .next s
    else .next ((s.updPilot d (fun p => { p with wfeSince := none })).pilotDone d rd 0)

/-- `xg.evsig`: sends a payload and a kind to a target; it waits while an earlier signal of the Pilot is still on its way. -/
def execXgEvsig (die : Fin 4) (_rd rs1 rs2 : BitVec 5) (s : State) : Host.Outcome State Fault Refusal :=
  let d := die.val
  let v := s.pilotReg d rs1
  if !s.pilotRuns d || s.pilotAwaits d (fun b => match b with | .send _ _ _ => true | _ => false) then .next s
  else if bitsN v 33 32 = 3 then .fault .reservedSignalKind
  else
    .next ((s.pilotRequest d (.send (BitVec.ofNat 32 v) (kindOfCode (bitsN v 33 32)) (BitVec.ofNat 32 (s.pilotReg d rs2)))).pilotDone d 0 0)

end Sys2Proof.Machine
end

