-- ==== Sys2Proof/Machine/ProctorOps.lean ====
section
/-! DEFINITION. Sys2Proof/Machine/ProctorOps.lean: the Proctor: attestation (R339), firmware (R340), the Drezil objects (R340, R343),
freeze and readout (R342, R411). -/
namespace Sys2Proof.Machine
open Sys2Proof

def State.updProctor (s : State) (f : Proctor → Proctor) : State := { s with proctor := f s.proctor }

/-- A response of the Proctor; while Proctor firmware is being replaced requests are held, and answered after it (R340). -/
def State.doe (s : State) (i : Instr) (f : State → State × List Byte) : Host.Outcome State Fault Refusal :=
  if s.proctor.doeHeld then .next { s with doeQueue := s.doeQueue ++ [⟨0, .event i, s.input⟩] }
  else
    let r := f s
    .next (r.1.updProctor (fun p => { p with lastResponse := r.2 }))

/-! SPDM 1.3 (R339): a response begins with the version, its code and two parameters (log 65). -/

/-- A response header. -/
def spdm (code p1 p2 : Nat) : List Byte := [0x13, BitVec.ofNat 8 code, BitVec.ofNat 8 p1, BitVec.ofNat 8 p2]

/-- The error response to a request before its turn. -/
def spdmError : List Byte := spdm 0x7F 0x04 0

/-- GET_VERSION: version 1.3 alone. -/
def execGetVersion (s : State) : Host.Outcome State Fault Refusal := s.doe .getVersion (fun a => (a, spdm 0x04 0 0 ++ [0, 1, 0x00, 0x13]))
/-- GET_CAPABILITIES: certificates, challenge and measurements, and no secured sessions. -/
def execGetCapabilities (s : State) : Host.Outcome State Fault Refusal := s.doe .getCapabilities (fun a => (a, spdm 0x61 0 0 ++ natBytes 4 0x16))
/-- NEGOTIATE_ALGORITHMS: the signature ML-DSA-65 and the measurement hash SHAKE256, by name. -/
def execNegotiateAlgorithms (s : State) : Host.Outcome State Fault Refusal :=
  s.doe .negotiateAlgorithms (fun a => (a.updProctor (fun p => { p with negotiated := true }),
    spdm 0x63 0 0 ++ ("ML-DSA-65 SHAKE256".toList.map (fun c => BitVec.ofNat 8 c.toNat))))
/-- GET_DIGESTS: the digest of the certificate chain. -/
def execGetDigests (s : State) : Host.Outcome State Fault Refusal :=
  s.doe .getDigests (fun a => (a, if a.proctor.negotiated then spdm 0x01 0 1 ++ natBytes 64 (Config.shake256 Config.certificate).toNat else spdmError))
/-- GET_CERTIFICATE: the part of the chain from the input's offset, of its size. -/
def execGetCertificate (s : State) : Host.Outcome State Fault Refusal :=
  s.doe .getCertificate (fun a => (a, if a.proctor.negotiated then spdm 0x02 0 0 ++ (Config.certificate.drop a.input.offset).take a.input.size else spdmError))
/-- CHALLENGE: a signature over the request; the requester is authenticated for freeze control (R340, R342). -/
def execChallenge (s : State) : Host.Outcome State Fault Refusal :=
  s.doe .challenge (fun a =>
    if a.proctor.negotiated then
      (a.updProctor (fun p => { p with challenged := true }), spdm 0x03 0 1 ++ Config.sign a.input.bytes)
    else (a, spdmError))

/-- The digest of a measurement block: 5 covers the fuses, the debug enable and the freeze enable in force (R339, R342). -/
def Proctor.measurement (p : Proctor) (k : Nat) : Nat :=
  if k = 5 then
    (Config.shake256 (natBytes 64 (Config.factoryDigest 5).toNat ++ [if p.debugEnable then 1 else 0, if p.freezeEnable then 1 else 0])).toNat
  else Map.get (Config.factoryDigest k).toNat p.fwk.measured k

/-- GET_MEASUREMENTS: blocks 1 to 5. -/
def execGetMeasurements (s : State) : Host.Outcome State Fault Refusal :=
  s.doe .getMeasurements (fun a => (a, if a.proctor.negotiated then
    spdm 0x60 5 0 ++ [1, 2, 3, 4, 5].flatMap (fun k => BitVec.ofNat 8 k :: natBytes 64 (a.proctor.measurement k)) else spdmError))

/-! Firmware (R340). Status codes (log 66): 0 done, 1 REJECTED, 2 BUSY, 3 refused, 4 under way. -/

/-- The image kinds: 2 Proctor, 3 Pilot, 4 Timetable and loader microcode. -/
def imageKind (k : Nat) : Bool := decide (2 ≤ k ∧ k ≤ 4)

/-- STAGE: up to 4 KiB of the image of kind `index` at the input's offset. -/
def execStage (s : State) : Host.Outcome State Fault Refusal :=
  s.doe .stage (fun a =>
    let x := a.input
    let f := a.proctor.fwk
    if !imageKind x.index || decide (4096 < x.bytes.length) || f.pending.isSome then (a, [3])
    else
      let old := if f.kind = x.index then f.staged else []
      let new := padBytes x.offset old ++ x.bytes ++ old.drop (x.offset + x.bytes.length)
      (a.updProctor (fun p => { p with fwk := { f with staged := new, kind := x.index, status := 0 } }), [0]))

/-- ACTIVATE: the staged image is verified; a failure leaves the old image active, REJECTED. The response comes once the handover is done or
refused (FIRMWARE_HANDOVER, ACTIVATE_TIMEOUT); until then the mailbox shows what it held. -/
def execActivate (s : State) : Host.Outcome State Fault Refusal :=
  s.doe .activate (fun a =>
    let k := a.input.index
    let f := a.proctor.fwk
    let ended := fun (st : Nat) => (a.updProctor (fun p => { p with fwk := { f with status := st } }), [BitVec.ofNat 8 st])
    if !imageKind k || f.kind != k || f.pending.isSome then (a, [3])
    else if Config.signatureOk k f.staged = false ∨ Config.securityVersion f.staged < Config.minimumVersion k then ended 1
    else (a.updProctor (fun p => { p with
      doeHeld := decide (k = 2)
      fwk := { f with pending := some k, since := a.dev, status := 4 } }), a.proctor.lastResponse))

/-- The quiesce point of an image kind (R340). -/
def State.quiesced (s : State) (k : Nat) : Bool :=
  if k = 3 then
    (List.range s.dies).all (fun d => (s.pilot d).wfeSince.isSome && (s.pilot d).event.isEmpty)
  else if k = 4 then s.allSectors.all (fun n => let l := (s.sector n).loader; l.serving.isNone && l.queue.isEmpty && decide (l.busyUntil ≤ s.cycle n))
  else true

/-- The requests to the Proctor that were held come to it now (R340). -/
def State.freeDoe (s : State) : State :=
  { s with deferred := s.deferred ++ s.doeQueue, doeQueue := [], proctor := { s.proctor with doeHeld := false } }

/-- How long ACTIVATE waits for a quiesce point. -/
def activateLimit : Nat := 100000 * usUnits

/-- FIRMWARE_HANDOVER: at the quiesce point the new image is active and its measurement in force. -/
def execFirmwareHandover (s : State) : Host.Outcome State Fault Refusal :=
  let f := s.proctor.fwk
  match f.pending with
  | none => .next s
  | some k =>
    if !s.quiesced k || decide (f.since + activateLimit < s.dev) then .next s
    else
      let v := Config.securityVersion f.staged
      let s1 := s.freeDoe.updProctor (fun p => { p with
        lastResponse := [0]
        fwk := { f with
          pending := none
          status := 0
          version := Map.put f.version k v
          measured := Map.put f.measured k (Config.shake256 f.staged).toNat } })
      .next ((List.range s.dies).foldl (fun (a : State) d => a.updDie d (fun t =>
        if k = 3 then { t with firmwarePilot := v } else if k = 4 then { t with firmwareMicro := v } else t)) s1)

/-- ACTIVATE_TIMEOUT: no quiesce point within 100 ms: the old image stays, BUSY. -/
def execActivateTimeout (s : State) : Host.Outcome State Fault Refusal :=
  let f := s.proctor.fwk
  if f.pending.isNone ∨ s.dev ≤ f.since + activateLimit then .next s
  else .next (s.freeDoe.updProctor (fun p => { p with lastResponse := [2], fwk := { f with pending := none, status := 2 } }))

/-- STATUS: staged size, verification state, active security versions, Almanac figures, measured power, corrected errors, dropped
signals, kept records, straps. -/
def execStatus (s : State) : Host.Outcome State Fault Refusal :=
  s.doe .status (fun a =>
    let p := a.proctor
    (a, natBytes 8 p.fwk.staged.length ++ [BitVec.ofNat 8 p.fwk.status] ++
      [2, 3, 4].flatMap (fun k => natBytes 8 (Map.get 0 p.fwk.version k)) ++
      a.allSectors.flatMap (fun k => natBytes 2 ((p.predictions.getD k 0) % 65536).toNat ++
        natBytes 1 (a.sector k).ratioCap ++ natBytes 4 (a.sector k).boardCap) ++
      natBytes 8 p.power ++ natBytes 8 p.corrected ++ natBytes 8 p.evsigDropped ++ natBytes 4 p.kept.length ++
      p.kept.flatMap (fun r => natBytes 64 (r.bits a.package)) ++ [BitVec.ofNat 8 a.dies, BitVec.ofNat 8 a.hbmStacks]))

/-- THERMCFG (R337): TWARN and TTRIP of the input's die from its two numbers, or a query with its flag. -/
def execThermcfg (s : State) : Host.Outcome State Fault Refusal :=
  s.doe .thermcfg (fun a =>
    let d := a.input.die
    let w := a.input.ints.getD 0 0
    let t := a.input.ints.getD 1 0
    let ok := decide (60 ≤ w) && decide (w ≤ 100) && decide (w + 5 ≤ t) && decide (t ≤ 110) && a.dieExists d
    let a1 := if a.input.flag || !ok then a else a.updDie d (fun x => { x with twarn := w, ttrip := t })
    let x := a1.dieAt d
    (a1, [if a.input.flag || ok then 0 else 3, BitVec.ofInt 8 x.twarn, BitVec.ofInt 8 x.ttrip]))

/-- TIME (R343): device time is set once after reset and before the first launch; the time source is named; both are queried. -/
def execTime (s : State) : Host.Outcome State Fault Refusal :=
  s.doe .time (fun a =>
    let p := a.proctor
    let answer := fun (b : State) (st : Nat) =>
      (b, [BitVec.ofNat 8 st] ++ natBytes 8 b.deviceNs ++ [BitVec.ofNat 8 b.proctor.timeSource] ++ natBytes 8 (b.proctor.timeDiff % 2 ^ 64).toNat)
    match a.input.time with
    | .set ns =>
      if p.timeSet || p.launched then answer a 3
      else answer { a with timeOff := (ns.toNat + 2 ^ 64 - a.dev / 60 % 2 ^ 64) % 2 ^ 64, proctor := { p with timeSet := true } } 0
    | .source n => answer { (a.updProctor (fun q => { q with timeSource := n.val })) with ppm := if n.val = a.proctor.timeSource then a.ppm else 0 } 0
    | .query => answer a 0)

/-- FREEZE (R340): the run-time freeze enable is set or cleared after a CHALLENGE, or queried. -/
def execFreeze (s : State) : Host.Outcome State Fault Refusal :=
  s.doe .freeze (fun a =>
    let p := a.proctor
    let b := fun (x : Bool) => (if x then 1 else 0 : Byte)
    let answer := fun (c : State) (st : Nat) =>
      (c, [BitVec.ofNat 8 st, b c.proctor.freezeFuse, b c.proctor.freezeRun, b c.proctor.freezeEnable])
    match a.input.setting with
    | none => answer a 0
    | some v => if p.challenged then answer (a.updProctor (fun q => { q with freezeRun := v })) 0 else answer a 3)

/-! Freeze (R342). -/

/-- After a freeze source has ended: the losses that waited for the release follow (R411). -/
def State.afterRelease (s : State) : State :=
  if s.proctor.lossDue.isEmpty || s.frozen then s
  else s.proctor.lossDue.foldl State.lossOf (s.updProctor (fun p => { p with lossDue := [] }))

/-- When a freeze begins, the Olpour transmitters send IDLE and acknowledge nothing more (R342). -/
def State.freezeBegins (s : State) (was : Bool) : State :=
  if was then s else (List.range (4 * s.dies)).foldl (fun (a : State) n => a.idleWhileFrozen n) s

/-- FRZ_N_ASSERT: the pin is low. -/
def execFrzNAssert (s : State) : Host.Outcome State Fault Refusal :=
  .next ((s.updProctor (fun p => { p with frzPin := true })).freezeBegins s.frozen)
/-- FRZ_N_RELEASE: the pin is high. -/
def execFrzNRelease (s : State) : Host.Outcome State Fault Refusal := .next (s.updProctor (fun p => { p with frzPin := false })).afterRelease
/-- PROCTOR_FREEZE_REQUEST: the party in the input's index (0 DOE, 1 TAP) asks for a freeze; nothing without the enable. -/
def execProctorFreezeRequest (s : State) : Host.Outcome State Fault Refusal :=
  if s.proctor.freezeEnable = false ∨ s.proctor.frzProctor.isSome = true then .next s
  else .next ((s.updProctor (fun p => { p with frzProctor := some (s.input.index % 2) })).freezeBegins s.frozen)
/-- FRZREL: the party that asked releases: over DOE after a CHALLENGE, or through the TAP. A freeze after a fault record is released by
either (log 67). -/
def execFrzrel (s : State) : Host.Outcome State Fault Refusal :=
  let p := s.proctor
  let party := s.input.index % 2
  let mine := p.frzProctor == some party || p.frzProctor == some 2
  if mine && (party == 1 || p.challenged) then .next (s.updProctor (fun q => { q with frzProctor := none })).afterRelease
  else .next s

/-! Readout (R342). -/

/-- A bank of n 16-bit fields as bytes. -/
def bankBytes (f : Nat → Half) (n : Nat) : List Byte := (List.range n).flatMap (fun k => natBytes 2 (f k).toNat)

/-- A plane as bytes: its three banks, its version. -/
def Plane.bytes (p : Plane) : List Byte := bankBytes p.opField 0xA0 ++ bankBytes p.rtField 0x83 ++ bankBytes p.htField 0x100 ++ natBytes 1 p.ver.toNat

/-- A FIFO as bytes: its tokens, each with a VALID bit. -/
def fifoBytes (l : List Token) : List Byte := natBytes 1 l.length ++ l.flatMap (fun t => natBytes 8 (2 ^ 39 + t.bits))

/-- What the instrument of a cell presents: its state in the layout of R171, both planes, every FIFO. -/
def State.cellReadout (s : State) (c : Nat) : List Byte :=
  let t := s.cell c
  s.cellImage c ++ t.active.bytes ++ t.shadow.bytes ++ (List.range 192).flatMap (fun k => fifoBytes (Map.get [] t.rin k)) ++
  (List.range 32).flatMap (fun k => fifoBytes (t.chan k))

/-- The segment of a sector: the instruments of its cells, row by row (R342). -/
def State.sectorReadout (s : State) (k : Nat) : List Byte := (sectorCells k).flatMap s.cellReadout

/-- Numbers as 8-byte words. -/
def numbers (l : List Nat) : List Byte := l.flatMap (natBytes 8)

/-- A request as the readout shows it. -/
def Req.readout (r : Req) : List Byte :=
  let stage := match r.stage with
    | .issued => 0 | .translated _ => 1 | .waiting => 2 | .snapshot => 3 | .answered => 4 | .faulted c => 256 + c
  numbers [r.id, r.cell, r.slot, r.inst, stage, r.handle, r.elem, r.addr, r.size, r.body.operandA, r.result.toNat, kindCode r.kind, r.hops] ++
  r.operands.flatMap (fun o => natBytes 8 (match o with | some t => 2 ^ 39 + t.bits | none => 0))

/-- A sector's hub as the readout shows it: registers, grant table, routing-record queue, loader, translation cache, commands of its engines and its GVE,
and the requests of its cells. -/
def State.hubReadout (s : State) (k : Nat) : List Byte :=
  let t := s.sector k
  numbers [t.ratio, t.budget, t.boardCap, t.rem, t.moved, t.loader.status, t.loader.busyUntil, t.loader.base] ++
  (List.range 16).flatMap (fun n =>
    let g := Map.get Grant.reset t.grants n
    numbers ([g.expert, g.cap, g.used, g.defc, g.round, if g.opened then 1 else 0, g.wbase, g.granted.length] ++ g.granted.flatMap (fun e => [e.1, e.2]))) ++
  t.rrq.flatMap (fun x => match x with | .record v => natBytes 8 v.toNat | .endMarker => List.replicate 8 0xFF) ++
  t.loader.queue.flatMap (fun e => natBytes 4 e.2.toNat) ++
  t.tlb.flatMap (fun e => numbers [e.asid, e.va, e.logSize, e.pa, (if e.w then 1 else 0) + (if e.atm then 2 else 0)]) ++
  (s.cmds.filter (fun c => c.sector == k)).flatMap (fun c => numbers [c.id, c.cell, c.slot, c.cursor, c.written, c.counted] ++ c.desc) ++
  t.gve.flatMap (fun g => numbers [g.id, g.cell, g.slot, g.cursor] ++ g.image) ++
  (s.reqs.filter (fun r => sectorOfCell r.cell == k)).flatMap Req.readout

/-- A die's Timetable and hold table as the readout shows them: queue table, pool, frames, holds, records that wait, notices and walker cache. -/
def State.dieReadout (s : State) (d : Nat) : List Byte :=
  let t := s.dieAt d
  (List.range 64).flatMap (fun q => natBytes 16 (s.queueEntry d q).toNat) ++
  t.pool.flatMap (fun r => numbers [r.key, r.job, r.gidx, r.total, r.nextGp, r.live, r.finished] ++ natBytes 64 r.node.toNat) ++
  t.frames.flatMap (fun f => numbers [f.idx, f.node, f.gid, f.stage, f.job, f.sector, f.x0, f.y0]) ++
  t.holds.flatMap (fun h => numbers ([h.hid, h.code, h.cont, h.since, h.detail0.toNat, h.detail1.toNat] ++ h.sites.flatMap (fun e => [e.1, e.2]))) ++
  t.records.flatMap (fun r => natBytes 64 (r.bits s.package)) ++ t.notices.flatMap (fun n => natBytes 8 n.toNat) ++
  t.walker.flatMap (fun e => numbers [e.asid, e.level, e.va, e.next])

/-- A port as the readout shows it: control and status, replay buffer, and the words that wait. -/
def State.portReadout (s : State) (n : Nat) : List Byte :=
  let p := s.port n
  numbers [if p.enabled then 1 else 0, p.wmax, p.state, p.width, p.sheds, p.replays, p.txSeq, p.rxSeq, p.lastAck] ++
  p.replay.flatMap (fun e => natBytes 8 e.1 ++ e.2.flatMap (fun w => natBytes 8 w.toNat)) ++ p.outWords.flatMap (fun w => natBytes 8 w.toNat) ++
  p.inbox.flatMap (fun e => numbers [e.1, e.2.1, e.2.2.toNat])

/-- The rest of the state as the TAP presents it, for which the spec gives no layout (log 67): a die's control block, a Pilot with its scratch, a sector's
Slate, a hub, a die's Timetable, a port, and 64 bytes of memory. -/
def State.otherReadout (s : State) (what n a : Nat) : List Byte :=
  match what with
  | 2 => (List.range 0x940).filterMap registerAt |>.eraseDups |>.flatMap (fun r => natBytes r.2 (s.controlRegister n r.1))
  | 3 =>
    let p := s.pilot n
    (List.range 32).flatMap (fun r => natBytes 8 (Map.get 0 p.x r).toNat) ++ natBytes 8 p.pc.toNat ++
      (List.range 64).map (fun i => Map.get 0 p.scratch (a + i)) ++ p.event.flatMap (fun e => natBytes 8 e.toNat) ++
      p.logit.flatMap (fun e => natBytes 8 e.toNat)
  | 4 =>
    let e := (s.sector n).slateEntry a
    natBytes 4 e.depth ++ e.lanes.flatMap (fun w => natBytes 4 w.toNat) ++ [if e.valid then 1 else 0]
  | 5 => s.hubReadout n
  | 6 => s.dieReadout n
  | 7 => s.portReadout n
  | _ => s.memList a 64

/-- TAP_READOUT: while frozen the whole state can be read out. The input's port chooses the instrument of cell `index` (0), the segment of
sector `index` (1), or another part of the state. -/
def execTapReadout (s : State) : Host.Outcome State Fault Refusal :=
  let x := s.input
  if s.frozen then
    .next (s.updProctor (fun p => { p with
      readout := if x.port = 0 then s.cellReadout x.index else if x.port = 1 then s.sectorReadout (x.index % 64)
        else s.otherReadout x.port x.index x.offset }))
  else .next s

end Sys2Proof.Machine
end

