-- ==== Sys2Proof/Machine/StreamOps.lean ====
section
/-! DEFINITION. Sys2Proof/Machine/StreamOps.lean: the stream-control operators 0x80 to 0x8D (R239 to R244). -/
namespace Sys2Proof.Machine
open Sys2Proof

/-- What one firing of a stream-control operator does: the new state V, K, F, N and segment mark, the tokens emitted, whether
the operands are consumed, the flags, and the payload of a POISON that ends here (R375). -/
structure StreamOut where
  v : Word
  k : Nat
  f : Bool
  n : Nat
  openSeg : Bool
  emits : List (Kind × Word)
  take : Bool
  flags : Flags
  absorbed : Option Word
  deriving DecidableEq, Repr

/-- Nothing changes, the operands are consumed. -/
def SlotState.keep (st : SlotState) : StreamOut := ⟨st.v, st.k, st.f, st.n, st.openSeg, [], true, flagNone, none⟩
/-- The state is reset (R240). -/
def SlotState.cleared (st : SlotState) : StreamOut := ⟨0, 0, false, 0, st.openSeg, [], true, flagNone, none⟩
/-- The count held in full in V, its low 29 bits in N (R239). -/
def StreamOut.count (o : StreamOut) (v : Nat) : StreamOut := { o with v := BitVec.ofNat 32 v, n := v % 2 ^ 29 }

/-- The kind of element A: that of its token, DATA where SA names no channel. -/
def Firing.kindA (F : Firing) : Kind := if F.kind = .done then .done else (F.ta.map Token.kind).getD .data
/-- The value a count or a bound is taken from: a POISON's value is unknown (R42, R240), so it is a free value (log 23). -/
def countVal (t : Option Token) (v : Word) : Nat :=
  if t.any (fun x => x.kind == .poison) then (Config.poisonValue v).toNat else v.toNat
/-- Some operand of the firing is POISON. -/
def Firing.isPoison (F : Firing) : Bool := F.kind == .poison

/-- Applies a stream firing. -/
def State.streamApply (s : State) (F : Firing) (o : StreamOut) (lat : Nat) : State :=
  let s1 := if o.take then (s.consume F).issue F else s.issue F
  let s2 := if o.take then s1.deal F else s1
  let s3 := s2.updCell F.cell (fun c => c.setSlot F.slot { c.slot F.slot with v := o.v, k := o.k, f := o.f, n := o.n, openSeg := o.openSeg })
  let s4 := match o.emits with
    | [] => if o.flags = flagNone then s3 else s3.fly F .flagsOnly 0 lat o.flags none
    | es => (es.zipIdx).foldl (fun (a : State) e => a.result F e.1.1 e.1.2 (if e.2 = 0 then o.flags else flagNone) (lat + e.2)) s3
  match o.absorbed with
  | some p => s4.absorb F.cell F.slot 0 p
  | none => s4

/-- A stream-control operator as a function of the fields, the firing and the slot's state. -/
abbrev StreamFn := OpFields → Firing → SlotState → StreamOut

/-- A segment is open (R240): F, or N > 0; a count held in full in V is N (R239). -/
def segOpen (full : Bool) (st : SlotState) : Bool := st.f || decide (0 < st.n) || (full && decide (st.v ≠ 0))

/-- The operators that hold a count in full in V: all that count but `acc`, whose V is the value, and `filt`, whose V is the element it
holds back (R239, R242, R244). -/
def fullCount (opc : Nat) : Bool := opc != 0x83 && opc != 0x85

/-- A DONE at the operands meets an open segment (R240). `counts` is set for the operators that count segments. -/
def openAtDone (counts full : Bool) (s : State) (F : Firing) : Option FireFault :=
  if counts = true ∧ F.kindA = .done ∧ segOpen full ((s.cell F.cell).slot F.slot) = true then
    some (shapeFault F.ta F.tb (F.f.dst != .none))
  else none

/-- The first other copy that a DONE finds with an open segment (R56, R240). -/
def State.openCopy (s : State) (F : Firing) (counts full : Bool) : Option Nat :=
  if !counts || F.kindA != .done then none else
  ((List.range (F.feed.n - 1)).map (fun j => s.copyCell F.cell F.slot (j + 1))).find? (fun c =>
    segOpen full ((s.cell c).slot F.slot))

/-- The other copies of a replicated slot take a DONE too; their values come first, one DONE leaves (R56). -/
def State.doneCopies (s : State) (F : Firing) (g : StreamFn) : State × List (Kind × Word) :=
  if F.feed.n ≤ 1 ∨ F.kindA ≠ .done then (s, []) else
  (List.range (F.feed.n - 1)).foldl (fun (acc : State × List (Kind × Word)) j =>
    let c := s.copyCell F.cell F.slot (j + 1)
    let o := g F.f F ((s.cell c).slot F.slot)
    (acc.1.updCell c (fun t => t.setSlot F.slot { t.slot F.slot with v := o.v, k := o.k, f := o.f, n := o.n }),
      acc.2 ++ o.emits.filter (fun e => e.1 != .done))) (s, [])

/-- R240: what a stream-control operator emits; a DONE whose other consumed operands hold a POISON passes that POISON on. -/
def Firing.streamOut (F : Firing) (o : StreamOut) : StreamOut :=
  if F.kindA = .done ∧ F.eaten ≠ none then { o with emits := [(.poison, F.pay)] } else o

/-- The firing of a stream-control operator. -/
def State.fireStream (s : State) (opc : Nat) (g : StreamFn) (counts : Bool) (site : Site) (f : OpFields) :
    Host.Outcome State Fault Refusal :=
  s.fire opc site f (openAtDone counts (fullCount opc)) (fun s1 F =>
    let o := F.streamOut (g f F ((s1.cell F.cell).slot F.slot))
    match s.openCopy F counts (fullCount opc) with
    | some c => s.fireFaultAt F.inst F.cell F.slot c (shapeFault F.ta F.tb (F.f.dst != .none))
    | none =>
      let r := s1.doneCopies F g
      r.1.streamApply F { o with emits := o.emits.filter (fun e => e.1 != .done) ++ r.2 ++ o.emits.filter (fun e => e.1 == .done) } 1)

/-! Generators (R241). -/

/-- One firing of a set of `n` values followed, with `done`, by a DONE. A POISON operand makes every token POISON (R44, R240). -/
def genStep (noChan : Bool) (n : Nat) (done : Bool) (F : Firing) (st : SlotState) (val : Nat → Word × Flags) : StreamOut :=
  let k := st.v.toNat
  let fin := { st.cleared with f := noChan, openSeg := false }
  if F.kindA = .done then { fin with emits := [(.done, F.donePay)] }
  else if k < n then
    let r := val k
    let lastOne := decide (k + 1 = n)
    let kind := if F.isPoison then Kind.poison else if lastOne then .last else .data
    let w := if F.isPoison then F.pay else r.1
    let fl := if F.isPoison then flagNone else r.2 ||| F.flags
    if lastOne && !done then { fin with emits := [(kind, w)], flags := fl }
    else { ({ st.keep with emits := [(kind, w)], take := false, flags := fl, openSeg := !lastOne }).count (k + 1) with f := st.f }
  else if done then { fin with emits := [if F.isPoison then (.poison, F.pay) else (.done, 0)] }
  else { fin with absorbed := F.eaten, flags := if F.isPoison then flagNone else F.flags }

/-- The value of `gen` at k (R241). -/
def genVal (f : OpFields) (a b : Word) (k : Nat) : Word × Flags :=
  if f.ty = .f32 then
    float2 { f with mod := f.mod &&& 3 } a b (fun x y =>
      let p := Ex.mul (Ex.ofInt k) y
      let q := Ex.add (modRm f) x p.1
      (q.1, p.2 ||| q.2))
  else intFit f a b 0 (fun x y _ => x + k * y)

def streamGen : StreamFn := fun f F st =>
  genStep (noChannels f) (countVal F.tc F.c) (modB2 f) F st (genVal f F.a F.b)

def streamGen2 : StreamFn := fun f F st =>
  let ext := countVal F.tb F.b
  let rows := ext / 65536
  let cols := ext % 65536
  genStep (noChannels f) (rows * cols) (modB2 f) F st
    (fun k => (BitVec.ofNat 32 (F.a.toNat + k / cols * F.c.toNat + k % cols), flagNone))

def streamIter : StreamFn := fun f F st =>
  genStep (noChannels f) (countVal F.ta F.a + 1) false F st (fun k => (if k < F.a.toNat then 1 else 0, flagNone))

/-! Reductions (R242). -/

/-- `combine(V, A)` of `acc` and `scan`. -/
def streamCombine (f : OpFields) (v a : Word) : Word × Flags :=
  let isInt := tyIsInt f.ty
  match f.imm.toNat % 8 with
  | 0 => if isInt then aluAdd f v a 0 else aluFadd f v a 0
  | 1 => if isInt then aluMin f v a 0 else aluFmin f v a 0
  | 2 => if isInt then aluMax f v a 0 else aluFmax f v a 0
  | 3 => (v &&& a, flagNone)
  | 4 => (v ||| a, flagNone)
  | _ => (v ^^^ a, flagNone)

/-- The state after one element: V, F, N with N stopping at 2^29 - 1, and the value before (R239, R240, R242). -/
def reduceElem (f : OpFields) (F : Firing) (st : SlotState) : StreamOut × Word :=
  let v0 := if st.n = 0 ∧ st.f = false then F.b else st.v
  let n' := min (st.n + 1) (2 ^ 29 - 1)
  if st.f then ({ st.keep with n := n' }, v0)
  else if F.isPoison then ({ st.keep with v := F.pay, f := true, n := n' }, v0)
  else
    let r := streamCombine f v0 F.a
    ({ st.keep with v := r.1, n := n', flags := r.2 ||| F.flags }, v0)

def streamAcc : StreamFn := fun f F st =>
  if F.kindA = .done then { st.cleared with emits := [(.done, F.donePay)] }
  else
    let (o, _) := reduceElem f F st
    if F.kindA = .last then { o with emits := [(if o.f then .poison else .data, o.v)], n := 0, f := false } else o

def streamScan : StreamFn := fun f F st =>
  if F.kindA = .done then { st.cleared with emits := [(.done, F.donePay)] }
  else
    let (o, prev) := reduceElem f F st
    let e : Kind × Word := if o.f then (.poison, o.v) else (F.kindA, if modB2 f then prev else o.v)
    if F.kindA = .last then { o with emits := [e], n := 0, f := false } else { o with emits := [e] }

/-! Counting and re-cutting (R243). -/

/-- `cnt`: the elements of a segment. While F = 1, V keeps the payload of the segment's first POISON in place of the count; so it does in `waitd`,
`acc` and `scan` (log 136). -/
def streamCnt : StreamFn := fun _ F st =>
  if F.kindA = .done then { st.cleared with emits := [(.done, F.donePay)] }
  else
    let o : StreamOut := if st.f then { st.keep with n := (st.n + 1) % 2 ^ 29 }
      else if F.isPoison then { st.keep with v := F.pay, f := true, n := (st.n + 1) % 2 ^ 29 }
      else st.keep.count ((st.v.toNat + 1) % 2 ^ 32)
    if F.kindA = .last then { o with emits := [(if o.f then .poison else .data, o.v)], v := 0, n := 0, f := false } else o

/-- One more in a count that stops at 2^32 - 1. -/
def sat32 (v : Nat) : Nat := min (v + 1) (2 ^ 32 - 1)

def streamTake : StreamFn := fun _ F st =>
  if F.kindA = .done then { st.cleared with emits := [(.done, F.donePay)] }
  else
    let n := st.v.toNat
    let o := st.keep.count (if F.kindA = .last then 0 else sat32 n)
    if F.isPoison then
      if n < countVal F.tb F.b then { o with emits := [(.poison, F.pay)] } else { o with absorbed := F.eaten }
    else if n < F.b.toNat then
      { o with emits := [(if n + 1 = F.b.toNat ∨ F.kindA = .last then .last else .data, F.a)] }
    else o

def streamSkip : StreamFn := fun _ F st =>
  if F.kindA = .done then { st.cleared with emits := [(.done, F.donePay)] }
  else
    let n := st.v.toNat
    let o := st.keep.count (if F.kindA = .last then 0 else sat32 n)
    if F.isPoison then
      if countVal F.tb F.b ≤ n then { o with emits := [(.poison, F.pay)] } else { o with absorbed := F.eaten }
    else if F.b.toNat ≤ n then { o with emits := [(F.kindA, F.a)] }
    else o

def streamRept : StreamFn := fun _ F st =>
  if F.kindA = .done then { st.cleared with emits := [(.done, F.donePay)] }
  else
    let k := st.v.toNat
    let b := countVal F.tb F.b
    if b = 0 then { st.cleared with absorbed := F.eaten }
    else
      let kind := if F.isPoison then Kind.poison else if k + 1 < b then .data else F.kindA
      let w := if F.isPoison then F.pay else F.a
      if k + 1 < b then { st.keep.count (k + 1) with emits := [(kind, w)], take := false }
      else { st.cleared with emits := [(kind, w)] }

def streamMklast : StreamFn := fun f F st =>
  if F.kindA = .done then { st.cleared with emits := [(.done, F.donePay)] }
  else
    let n := (st.v.toNat + 1) % 2 ^ 32
    let b := countVal F.tb F.b
    let cut := (decide (b ≠ 0) && decide (n = b)) || (modB2 f && F.kindA == .last)
    let o := st.keep.count (if cut then 0 else n)
    if F.isPoison then { o with emits := [(.poison, F.pay)] } else { o with emits := [(if cut then .last else .data, F.a)] }

def streamDone : StreamFn := fun _ F st =>
  if F.kindA = .done then { st.keep with emits := [(.done, F.donePay)] }
  else if F.isPoison then { st.keep with emits := [(.poison, F.pay)] }
  else { st.keep with emits := [(.done, F.a)] }

def streamWaitd : StreamFn := fun _ F st =>
  if F.kindA = .done then { st.cleared with emits := [(if st.f then .poison else .data, st.v)] }
  else if st.f then st.keep
  else if F.isPoison then { st.keep with v := F.pay, f := true }
  else { st.keep with v := st.v + 1 }

def streamTrig : StreamFn := fun _ F st =>
  if F.kindA = .done then { st.cleared with emits := [(.done, F.donePay)] }
  else
    let n := (st.v.toNat + 1) % 2 ^ 32
    if max (countVal F.tb F.b) 1 ≤ n then
      { st.keep.count 0 with emits := [if F.isPoison then (.poison, F.pay) else (F.kindA, F.a)] }
    else { st.keep.count n with absorbed := F.eaten }

/-- An operand's token is POISON. -/
def tokPoison (t : Option Token) : Bool := t.any (fun x => x.kind == .poison)

/-- `filt` (R244). K bit 0 asks for the flush, bit 1 marks a held POISON. -/
def streamFilt : StreamFn := fun _ F st =>
  let held : Kind → Kind × Word := fun k => (if st.k / 2 % 2 = 1 then .poison else k, st.v)
  if st.k % 2 = 1 then { st.keep with emits := [held .last], f := false, k := 0, take := false }
  else if F.kindA = .done then { st.cleared with emits := [(.done, F.donePay)] }
  else
    let keep := decide (F.b ≠ 0) || tokPoison F.tb
    let w := if F.isPoison then F.pay else F.a
    let mark := if F.isPoison then 2 else 0
    if F.kindA = .last then
      if keep then
        if st.f then { st.keep with emits := [held .data], v := w, k := 1 + mark }
        else { st.keep with emits := [(if F.isPoison then .poison else .last, w)] }
      else if st.f then { st.keep with emits := [held .last], f := false, k := 0 }
      else st.keep
    else if keep then { st.keep with emits := if st.f then [held .data] else [], v := w, f := true, k := mark }
    else { st.keep with absorbed := F.eaten }

/-! Meanings. -/

/-- `gen` (R241). -/
def execGen (site : Site) (f : OpFields) (s : State) : Host.Outcome State Fault Refusal :=
  s.fireStream 0x80 streamGen false site f
/-- `gen2` (R241). -/
def execGen2 (site : Site) (f : OpFields) (s : State) : Host.Outcome State Fault Refusal :=
  s.fireStream 0x81 streamGen2 false site f
/-- `cnt` (R243). -/
def execCnt (site : Site) (f : OpFields) (s : State) : Host.Outcome State Fault Refusal :=
  s.fireStream 0x82 streamCnt true site f
/-- `acc` (R242). -/
def execAcc (site : Site) (f : OpFields) (s : State) : Host.Outcome State Fault Refusal :=
  s.fireStream 0x83 streamAcc true site f
/-- `scan` (R242). -/
def execScan (site : Site) (f : OpFields) (s : State) : Host.Outcome State Fault Refusal :=
  s.fireStream 0x84 streamScan false site f
/-- `filt` (R244): its flush reads no operand. -/
def execFilt (site : Site) (f : OpFields) (s : State) : Host.Outcome State Fault Refusal :=
  if ((s.cell site.cell.val).slot site.slot.val).k % 2 = 1 then
    s.fireStream 0x85 streamFilt false site f
  else s.fireStream 0x85 streamFilt true site f
/-- `take` (R243). -/
def execTake (site : Site) (f : OpFields) (s : State) : Host.Outcome State Fault Refusal :=
  s.fireStream 0x86 streamTake true site f
/-- `skip` (R243). -/
def execSkip (site : Site) (f : OpFields) (s : State) : Host.Outcome State Fault Refusal :=
  s.fireStream 0x87 streamSkip true site f
/-- `rept` (R243). -/
def execRept (site : Site) (f : OpFields) (s : State) : Host.Outcome State Fault Refusal :=
  s.fireStream 0x88 streamRept true site f
/-- `mklast` (R243). -/
def execMklast (site : Site) (f : OpFields) (s : State) : Host.Outcome State Fault Refusal :=
  s.fireStream 0x89 streamMklast false site f
/-- `done` (R243). -/
def execDone (site : Site) (f : OpFields) (s : State) : Host.Outcome State Fault Refusal :=
  s.fireStream 0x8A streamDone false site f
/-- `waitd` (R243). -/
def execWaitd (site : Site) (f : OpFields) (s : State) : Host.Outcome State Fault Refusal :=
  s.fireStream 0x8B streamWaitd false site f
/-- `iter` (R241). -/
def execIter (site : Site) (f : OpFields) (s : State) : Host.Outcome State Fault Refusal :=
  s.fireStream 0x8C streamIter false site f
/-- `trig` (R243). -/
def execTrig (site : Site) (f : OpFields) (s : State) : Host.Outcome State Fault Refusal :=
  s.fireStream 0x8D streamTrig false site f

end Sys2Proof.Machine
end

