-- ==== Sys2Proof/Machine/SystemOps.lean ====
section
/-! DEFINITION. Sys2Proof/Machine/SystemOps.lean: the system operators 0xE0 to 0xEB (R311) and the special registers (R312). -/
namespace Sys2Proof.Machine
open Sys2Proof

/-- The value of special register n as a firing reads it (R312). -/
def State.sreg (s : State) (F : Firing) (n : Nat) : Word :=
  let c := s.cell F.cell
  let i := F.inst
  let w := fun (v : Nat) => BitVec.ofNat 32 v
  match n with
  | 0x00 => w (cellY F.cell * 65536 + cellX F.cell)
  | 0x01 => w (i.relX F.cell + i.relY F.cell * 16 + (i.w - 1) * 256 + (i.h - 1) * 4096)
  | 0x02 => w c.stage
  | 0x03 => c.instId
  | 0x04 => w ((s.job i.job).map Job.number |>.getD 0)
  | 0x05 => w (c.slot F.slot).iter
  | 0x06 => c.fpstatWord
  | 0x07 => w (c.cycleSaved + (match c.cycle0 with | some z => F.cyc - z | none => 0))
  | 0x08 => c.narg
  | 0x09 => w c.active.ver.toNat
  | 0x0A => w (s.package + dieOfCell F.cell * 64 + sectorOfCell F.cell % 16 * 256)
  | _ =>
    if 0x10 ≤ n ∧ n ≤ 0x17 then Map.get 0 c.perf (n - 0x10)
    else if 0x18 ≤ n ∧ n ≤ 0x1F then Map.get 0 c.psel (n - 0x18) else 0

/-- Writes special register n; FPSTAT takes its value in the result cycle (R93, R312). -/
def State.swreg (s : State) (F : Firing) (n : Nat) (v : Word) : State :=
  if n = 6 then s.fly F .fpstat (BitVec.ofNat 64 v.toNat) 1 flagNone none
  else s.updCell F.cell (fun c =>
    if 0x10 ≤ n ∧ n ≤ 0x17 then { c with perf := Map.set 0 c.perf (n - 0x10) v }
    else if 0x18 ≤ n ∧ n ≤ 0x1F then { c with psel := Map.set 0 c.psel (n - 0x18) v } else c)

/-- A POISON the firing consumes ends here (R375). -/
def State.absorbIf (s : State) (F : Firing) : State :=
  match F.eaten with
  | some p => s.absorb F.cell F.slot 0 p
  | none => s

/-- The firing of an operator with DST 0xFF that acts on a token of any kind. -/
def State.fireSink (s : State) (opc : Nat) (site : Site) (f : OpFields) (act : State → Firing → State) :
    Host.Outcome State Fault Refusal :=
  s.fire opc site f noFault (fun s1 F => act ((s1.begin F).absorbIf F) F)

/-- The software fault of `trap` and `assert` (R373). -/
def trapFault (F : Firing) : FireFault :=
  ⟨0x0280 + F.f.imm.toNat % 128, 0, false,
    (match F.ta with | some t => t.payload | none => F.a).toNat + kindCode ((F.ta.map Token.kind).getD .data) * 2 ^ 32, 0⟩

/-- `nop`. -/
def execNop (site : Site) (f : OpFields) (s : State) : Host.Outcome State Fault Refusal :=
  s.fireSink 0xE0 site f (fun s1 _ => s1)
/-- `sreg`. -/
def execSreg (site : Site) (f : OpFields) (s : State) : Host.Outcome State Fault Refusal :=
  s.fire 0xE1 site f noFault (fun s1 F => (s1.begin F).compute F 1 (s1.sreg F (f.imm.toNat % 256), flagNone))
/-- `swreg`. -/
def execSwreg (site : Site) (f : OpFields) (s : State) : Host.Outcome State Fault Refusal :=
  s.fire 0xE2 site f noFault (fun s1 F =>
    let s2 := s1.begin F
    (if F.works then s2.swreg F (f.imm.toNat % 256) F.a else s2).compute F 1 (F.a, flagNone))
/-- `trap`: takes the software fault on a token of any kind; RESUME consumes it (R373). -/
def execTrap (site : Site) (f : OpFields) (s : State) : Host.Outcome State Fault Refusal :=
  s.fire 0xE3 site f (fun _ F => some (trapFault F)) (fun s1 _ => s1)
/-- A is a value: `assert` and `brk` let a POISON or DONE pass, consumed or peeked (R311, R374). -/
def Firing.checksA (F : Firing) : Bool := F.ta.all (fun t => t.kind == .data || t.kind == .last)

/-- `brk`: a debug hold where the job's debug enable is set (R311); a POISON or DONE is only consumed
(R374, log 31), and R375 names no report for it. -/
def execBrk (site : Site) (f : OpFields) (s : State) : Host.Outcome State Fault Refusal :=
  s.fire 0xE4 site f noFault (fun s1 F =>
    let s2 := s1.begin F
    if F.checksA && (s2.proctor.debugEnable || (s2.job F.inst.job).any (fun j => j.debug)) then
      s2.updInst F.inst.id (fun i => { i with debugHeld := true })
    else s2)
/-- `yield`: requests a drain (R311). -/
def execYield (site : Site) (f : OpFields) (s : State) : Host.Outcome State Fault Refusal :=
  s.fireSink 0xE5 site f (fun s1 F => s1.updInst F.inst.id (fun i => { i.drainFrom s1.dev with yielding := true }))
/-- `exit`: retires the instance (R40). -/
def execExit (site : Site) (f : OpFields) (s : State) : Host.Outcome State Fault Refusal :=
  s.fireSink 0xE6 site f (fun s1 F => s1.retire F.inst.id)
/-- `assert`: faults on a DATA or LAST with payload 0 (R311, R373). -/
def execAssert (site : Site) (f : OpFields) (s : State) : Host.Outcome State Fault Refusal :=
  s.fire 0xE7 site f (fun _ F => if F.checksA && decide (F.a = 0) then some (trapFault F) else none)
    (fun s1 F => (s1.begin F).absorbIf F)
/-- `clock`: device time in ns. -/
def execClock (site : Site) (f : OpFields) (s : State) : Host.Outcome State Fault Refusal :=
  s.fire 0xE8 site f noFault (fun s1 F =>
    (s1.begin F).compute F 1 (BitVec.ofNat 32 (if modB2 f then s1.deviceNs / 2 ^ 32 else s1.deviceNs), flagNone))
/-- `perf`: adds to a counter. -/
def execPerf (site : Site) (f : OpFields) (s : State) : Host.Outcome State Fault Refusal :=
  s.fire 0xE9 site f noFault (fun s1 F =>
    let s2 := s1.begin F
    let n := f.imm.toNat % 8
    let v := Map.get 0 (s2.cell F.cell).perf n + F.a
    (if F.works then s2.updCell F.cell (fun c => { c with perf := Map.set 0 c.perf n v }) else s2).compute F 1 (v, flagNone))
/-- `swapreq`: requests a swap (R75). -/
def execSwapreq (site : Site) (f : OpFields) (s : State) : Host.Outcome State Fault Refusal :=
  s.fireSink 0xEA site f (fun s1 F => s1.requestSwap F.inst.id .plain)
/-- `poison`: emits A as POISON. -/
def execPoison (site : Site) (f : OpFields) (s : State) : Host.Outcome State Fault Refusal :=
  s.fire 0xEB site f noFault (fun s1 F =>
    (s1.begin F).result F .poison (match F.ta with | some t => t.payload | none => F.a) flagNone 1)

end Sys2Proof.Machine
end

