-- ==== Sys2Proof/Machine/Dispatch.lean ====
section
/-! DEFINITION. Sys2Proof/Machine/Dispatch.lean: one arm per instruction, each a direct call of its meaning. -/
namespace Sys2Proof.Machine
open Sys2Proof

def exec (i : Instr) (s : State) : Host.Outcome State Fault Refusal :=
  match i with
  | .invalidationComplete die => Sys2Proof.Machine.execInvalidationComplete die s
  | .tokenHop cell port vc => Sys2Proof.Machine.execTokenHop cell port vc s
  | .placementStep die => Sys2Proof.Machine.execPlacementStep die s
  | .engineSuspend command => Sys2Proof.Machine.execEngineSuspend command s
  | .drainPointReached inst => Sys2Proof.Machine.execDrainPointReached inst s
  | .planeFlip inst => Sys2Proof.Machine.execPlaneFlip inst s
  | .swapTokenArrival sector => Sys2Proof.Machine.execSwapTokenArrival sector s
  | .tokenCountTrigger cell => Sys2Proof.Machine.execTokenCountTrigger cell s
  | .phaseAdvance site => Sys2Proof.Machine.execPhaseAdvance site s
  | .nodeComplete node => Sys2Proof.Machine.execNodeComplete node s
  | .jobComplete job => Sys2Proof.Machine.execJobComplete job s
  | .patchClear inst => Sys2Proof.Machine.execPatchClear inst s
  | .slateAllotmentReset allotment => Sys2Proof.Machine.execSlateAllotmentReset allotment s
  | .timetableRecordArrival request => Sys2Proof.Machine.execTimetableRecordArrival request s
  | .remoteRequest request answer => Sys2Proof.Machine.execRemoteRequest request answer s
  | .hbmRequest request => Sys2Proof.Machine.execHbmRequest request s
  | .pageWalk request => Sys2Proof.Machine.execPageWalk request s
  | .batchTranslation command => Sys2Proof.Machine.execBatchTranslation command s
  | .decoupledResultDelivery request => Sys2Proof.Machine.execDecoupledResultDelivery request s
  | .fenceComplete request => Sys2Proof.Machine.execFenceComplete request s
  | .slewStep sector => Sys2Proof.Machine.execSlewStep sector s
  | .matrixProductComplete product => Sys2Proof.Machine.execMatrixProductComplete product s
  | .copyCommandAccept sector => Sys2Proof.Machine.execCopyCommandAccept sector s
  | .engineBarrierDecrement command => Sys2Proof.Machine.execEngineBarrierDecrement command s
  | .engineRingAdvance command => Sys2Proof.Machine.execEngineRingAdvance command s
  | .engineCompletion command => Sys2Proof.Machine.execEngineCompletion command s
  | .gatherOwnerRequest command => Sys2Proof.Machine.execGatherOwnerRequest command s
  | .rowReturn command answer => Sys2Proof.Machine.execRowReturn command answer s
  | .indexLaneToken command lane => Sys2Proof.Machine.execIndexLaneToken command lane s
  | .grammarCommandStart sector => Sys2Proof.Machine.execGrammarCommandStart sector s
  | .grammarCommandComplete command => Sys2Proof.Machine.execGrammarCommandComplete command s
  | .grantRequest request answer => Sys2Proof.Machine.execGrantRequest request answer s
  | .sendDelivery request => Sys2Proof.Machine.execSendDelivery request s
  | .activation request => Sys2Proof.Machine.execActivation request s
  | .snapshotComplete request => Sys2Proof.Machine.execSnapshotComplete request s
  | .heldUpdateClose pair => Sys2Proof.Machine.execHeldUpdateClose pair s
  | .mirrorUpdate pair => Sys2Proof.Machine.execMirrorUpdate pair s
  | .parkReserve inst => Sys2Proof.Machine.execParkReserve inst s
  | .parkRequest pair => Sys2Proof.Machine.execParkRequest pair s
  | .parkedUpdateWrite pair => Sys2Proof.Machine.execParkedUpdateWrite pair s
  | .unpark pair => Sys2Proof.Machine.execUnpark pair s
  | .gatingSequence sector => Sys2Proof.Machine.execGatingSequence sector s
  | .calibTimeout sector => Sys2Proof.Machine.execCalibTimeout sector s
  | .ratioChange sector => Sys2Proof.Machine.execRatioChange sector s
  | .ratioChangeComplete sector => Sys2Proof.Machine.execRatioChangeComplete sector s
  | .replayExhausted port => Sys2Proof.Machine.execReplayExhausted port s
  | .responseTimeout request => Sys2Proof.Machine.execResponseTimeout request s
  | .faultRecordWrite die => Sys2Proof.Machine.execFaultRecordWrite die s
  | .faultQueueRetry die => Sys2Proof.Machine.execFaultQueueRetry die s
  | .holdLimitExpiry die hid => Sys2Proof.Machine.execHoldLimitExpiry die hid s
  | .watchdogExpiry inst => Sys2Proof.Machine.execWatchdogExpiry inst s
  | .drainLimitExpiry inst => Sys2Proof.Machine.execDrainLimitExpiry inst s
  | .reductionTimeout site => Sys2Proof.Machine.execReductionTimeout site s
  | .scrubPass kind place address uncorrectable => Sys2Proof.Machine.execScrubPass kind place address uncorrectable s
  | .cfgNop sector source value => Sys2Proof.Machine.execCfgNop sector source value s
  | .cfgBegin sector source value => Sys2Proof.Machine.execCfgBegin sector source value s
  | .cfgOrigin sector source value => Sys2Proof.Machine.execCfgOrigin sector source value s
  | .cfgBank sector source value => Sys2Proof.Machine.execCfgBank sector source value s
  | .cfgSeal sector source value => Sys2Proof.Machine.execCfgSeal sector source value s
  | .cfgLit sector source value => Sys2Proof.Machine.execCfgLit sector source value s
  | .cfgSwap sector source value => Sys2Proof.Machine.execCfgSwap sector source value s
  | .cfgWrite sector source cell field value => Sys2Proof.Machine.execCfgWrite sector source cell field value s
  | .xgQpop die rd rs1 rs2 => Sys2Proof.Machine.execXgQpop die rd rs1 rs2 s
  | .xgQpeek die rd rs1 rs2 => Sys2Proof.Machine.execXgQpeek die rd rs1 rs2 s
  | .xgRpush die rd rs1 rs2 => Sys2Proof.Machine.execXgRpush die rd rs1 rs2 s
  | .xgGsetRead die rd rs1 rs2 => Sys2Proof.Machine.execXgGsetRead die rd rs1 rs2 s
  | .xgGsetSetexp die rd rs1 rs2 => Sys2Proof.Machine.execXgGsetSetexp die rd rs1 rs2 s
  | .xgGsetSetbase die rd rs1 rs2 => Sys2Proof.Machine.execXgGsetSetbase die rd rs1 rs2 s
  | .xgGsetOpen die rd rs1 rs2 => Sys2Proof.Machine.execXgGsetOpen die rd rs1 rs2 s
  | .xgGsetClose die rd rs1 rs2 => Sys2Proof.Machine.execXgGsetClose die rd rs1 rs2 s
  | .xgTlnch die rd rs1 rs2 => Sys2Proof.Machine.execXgTlnch die rd rs1 rs2 s
  | .xgCfgw die rd rs1 rs2 => Sys2Proof.Machine.execXgCfgw die rd rs1 rs2 s
  | .xgWfe die rd rs1 rs2 => Sys2Proof.Machine.execXgWfe die rd rs1 rs2 s
  | .xgWfeTimeout die rd rs1 rs2 => Sys2Proof.Machine.execXgWfeTimeout die rd rs1 rs2 s
  | .xgEvsig die rd rs1 rs2 => Sys2Proof.Machine.execXgEvsig die rd rs1 rs2 s
  | .route site f => Sys2Proof.Machine.execRoute site f s
  | .fork site f => Sys2Proof.Machine.execFork site f s
  | .steer site f => Sys2Proof.Machine.execSteer site f s
  | .merge site f => Sys2Proof.Machine.execMerge site f s
  | .carry site f => Sys2Proof.Machine.execCarry site f s
  | .invar site f => Sys2Proof.Machine.execInvar site f s
  | .join site f => Sys2Proof.Machine.execJoin site f s
  | .drop site f => Sys2Proof.Machine.execDrop site f s
  | .comb site f => Sys2Proof.Machine.execComb site f s
  | .part site f => Sys2Proof.Machine.execPart site f s
  | .add site f => Sys2Proof.Machine.execAdd site f s
  | .sub site f => Sys2Proof.Machine.execSub site f s
  | .mul site f => Sys2Proof.Machine.execMul site f s
  | .mulh site f => Sys2Proof.Machine.execMulh site f s
  | .mad site f => Sys2Proof.Machine.execMad site f s
  | .div site f => Sys2Proof.Machine.execDiv site f s
  | .rem site f => Sys2Proof.Machine.execRem site f s
  | .min site f => Sys2Proof.Machine.execMin site f s
  | .max site f => Sys2Proof.Machine.execMax site f s
  | .abs site f => Sys2Proof.Machine.execAbs site f s
  | .and site f => Sys2Proof.Machine.execAnd site f s
  | .or site f => Sys2Proof.Machine.execOr site f s
  | .xor site f => Sys2Proof.Machine.execXor site f s
  | .andn site f => Sys2Proof.Machine.execAndn site f s
  | .shl site f => Sys2Proof.Machine.execShl site f s
  | .shr site f => Sys2Proof.Machine.execShr site f s
  | .rot site f => Sys2Proof.Machine.execRot site f s
  | .clz site f => Sys2Proof.Machine.execClz site f s
  | .ffs site f => Sys2Proof.Machine.execFfs site f s
  | .popc site f => Sys2Proof.Machine.execPopc site f s
  | .brev site f => Sys2Proof.Machine.execBrev site f s
  | .bfx site f => Sys2Proof.Machine.execBfx site f s
  | .bfi site f => Sys2Proof.Machine.execBfi site f s
  | .sel site f => Sys2Proof.Machine.execSel site f s
  | .cmp site f => Sys2Proof.Machine.execCmp site f s
  | .avg site f => Sys2Proof.Machine.execAvg site f s
  | .absd site f => Sys2Proof.Machine.execAbsd site f s
  | .sad site f => Sys2Proof.Machine.execSad site f s
  | .dot4 site f => Sys2Proof.Machine.execDot4 site f s
  | .addsh site f => Sys2Proof.Machine.execAddsh site f s
  | .move site f => Sys2Proof.Machine.execMove site f s
  | .pack site f => Sys2Proof.Machine.execPack site f s
  | .fadd site f => Sys2Proof.Machine.execFadd site f s
  | .fsub site f => Sys2Proof.Machine.execFsub site f s
  | .fmul site f => Sys2Proof.Machine.execFmul site f s
  | .fma site f => Sys2Proof.Machine.execFma site f s
  | .fms site f => Sys2Proof.Machine.execFms site f s
  | .fnma site f => Sys2Proof.Machine.execFnma site f s
  | .fmin site f => Sys2Proof.Machine.execFmin site f s
  | .fmax site f => Sys2Proof.Machine.execFmax site f s
  | .fabs site f => Sys2Proof.Machine.execFabs site f s
  | .fneg site f => Sys2Proof.Machine.execFneg site f s
  | .fcmp site f => Sys2Proof.Machine.execFcmp site f s
  | .fclass site f => Sys2Proof.Machine.execFclass site f s
  | .fdiv site f => Sys2Proof.Machine.execFdiv site f s
  | .fsqrt site f => Sys2Proof.Machine.execFsqrt site f s
  | .frcpa site f => Sys2Proof.Machine.execFrcpa site f s
  | .frsqa site f => Sys2Proof.Machine.execFrsqa site f s
  | .fexp2a site f => Sys2Proof.Machine.execFexp2a site f s
  | .flog2a site f => Sys2Proof.Machine.execFlog2a site f s
  | .fsinpi site f => Sys2Proof.Machine.execFsinpi site f s
  | .fcospi site f => Sys2Proof.Machine.execFcospi site f s
  | .ftanha site f => Sys2Proof.Machine.execFtanha site f s
  | .fsiga site f => Sys2Proof.Machine.execFsiga site f s
  | .cvt site f => Sys2Proof.Machine.execCvt site f s
  | .cvts site f => Sys2Proof.Machine.execCvts site f s
  | .frnd site f => Sys2Proof.Machine.execFrnd site f s
  | .fscale site f => Sys2Proof.Machine.execFscale site f s
  | .fdot2 site f => Sys2Proof.Machine.execFdot2 site f s
  | .fhadd site f => Sys2Proof.Machine.execFhadd site f s
  | .fclamp site f => Sys2Proof.Machine.execFclamp site f s
  | .flerp site f => Sys2Proof.Machine.execFlerp site f s
  | .qenc site f => Sys2Proof.Machine.execQenc site f s
  | .qdec site f => Sys2Proof.Machine.execQdec site f s
  | .q8enc site f => Sys2Proof.Machine.execQ8enc site f s
  | .q8dec site f => Sys2Proof.Machine.execQ8dec site f s
  | .amax site f => Sys2Proof.Machine.execAmax site f s
  | .qscale site f => Sys2Proof.Machine.execQscale site f s
  | .zcnt site f => Sys2Proof.Machine.execZcnt site f s
  | .zmask site f => Sys2Proof.Machine.execZmask site f s
  | .lanex site f => Sys2Proof.Machine.execLanex site f s
  | .lanei site f => Sys2Proof.Machine.execLanei site f s
  | .splat site f => Sys2Proof.Machine.execSplat site f s
  | .widen site f => Sys2Proof.Machine.execWiden site f s
  | .narrow site f => Sys2Proof.Machine.execNarrow site f s
  | .shuf site f => Sys2Proof.Machine.execShuf site f s
  | .ldh site f => Sys2Proof.Machine.execLdh site f s
  | .sth site f => Sys2Proof.Machine.execSth site f s
  | .lds site f => Sys2Proof.Machine.execLds site f s
  | .sts site f => Sys2Proof.Machine.execSts site f s
  | .ldr site f => Sys2Proof.Machine.execLdr site f s
  | .str site f => Sys2Proof.Machine.execStr site f s
  | .ldg site f => Sys2Proof.Machine.execLdg site f s
  | .stg site f => Sys2Proof.Machine.execStg site f s
  | .pfg site f => Sys2Proof.Machine.execPfg site f s
  | .atomh site f => Sys2Proof.Machine.execAtomh site f s
  | .cash site f => Sys2Proof.Machine.execCash site f s
  | .atomr site f => Sys2Proof.Machine.execAtomr site f s
  | .casr site f => Sys2Proof.Machine.execCasr site f s
  | .atomg site f => Sys2Proof.Machine.execAtomg site f s
  | .casg site f => Sys2Proof.Machine.execCasg site f s
  | .fence site f => Sys2Proof.Machine.execFence site f s
  | .hseek site f => Sys2Proof.Machine.execHseek site f s
  | .htell site f => Sys2Proof.Machine.execHtell site f s
  | .ldx site f => Sys2Proof.Machine.execLdx site f s
  | .stx site f => Sys2Proof.Machine.execStx site f s
  | .gen site f => Sys2Proof.Machine.execGen site f s
  | .gen2 site f => Sys2Proof.Machine.execGen2 site f s
  | .cnt site f => Sys2Proof.Machine.execCnt site f s
  | .acc site f => Sys2Proof.Machine.execAcc site f s
  | .scan site f => Sys2Proof.Machine.execScan site f s
  | .filt site f => Sys2Proof.Machine.execFilt site f s
  | .take site f => Sys2Proof.Machine.execTake site f s
  | .skip site f => Sys2Proof.Machine.execSkip site f s
  | .rept site f => Sys2Proof.Machine.execRept site f s
  | .mklast site f => Sys2Proof.Machine.execMklast site f s
  | .done site f => Sys2Proof.Machine.execDone site f s
  | .waitd site f => Sys2Proof.Machine.execWaitd site f s
  | .iter site f => Sys2Proof.Machine.execIter site f s
  | .trig site f => Sys2Proof.Machine.execTrig site f s
  | .mm site f => Sys2Proof.Machine.execMm site f s
  | .mmb site f => Sys2Proof.Machine.execMmb site f s
  | .mmg site f => Sys2Proof.Machine.execMmg site f s
  | .mmo site f => Sys2Proof.Machine.execMmo site f s
  | .accz site f => Sys2Proof.Machine.execAccz site f s
  | .accrd site f => Sys2Proof.Machine.execAccrd site f s
  | .accst site f => Sys2Proof.Machine.execAccst site f s
  | .accld site f => Sys2Proof.Machine.execAccld site f s
  | .gspmv site f => Sys2Proof.Machine.execGspmv site f s
  | .gsload site f => Sys2Proof.Machine.execGsload site f s
  | .gsread site f => Sys2Proof.Machine.execGsread site f s
  | .gsclr site f => Sys2Proof.Machine.execGsclr site f s
  | .redp site f => Sys2Proof.Machine.execRedp site f s
  | .redw site f => Sys2Proof.Machine.execRedw site f s
  | .copy site f => Sys2Proof.Machine.execCopy site f s
  | .copyw site f => Sys2Proof.Machine.execCopyw site f s
  | .gath site f => Sys2Proof.Machine.execGath site f s
  | .scat site f => Sys2Proof.Machine.execScat site f s
  | .embr site f => Sys2Proof.Machine.execEmbr site f s
  | .subscribe site f => Sys2Proof.Machine.execSubscribe site f s
  | .unsub site f => Sys2Proof.Machine.execUnsub site f s
  | .sflush site f => Sys2Proof.Machine.execSflush site f s
  | .bari site f => Sys2Proof.Machine.execBari site f s
  | .bara site f => Sys2Proof.Machine.execBara site f s
  | .barw site f => Sys2Proof.Machine.execBarw site f s
  | .ringi site f => Sys2Proof.Machine.execRingi site f s
  | .ringf site f => Sys2Proof.Machine.execRingf site f s
  | .ringfP site f => Sys2Proof.Machine.execRingfP site f s
  | .ringr site f => Sys2Proof.Machine.execRingr site f s
  | .ringrP site f => Sys2Proof.Machine.execRingrP site f s
  | .tenq site f => Sys2Proof.Machine.execTenq site f s
  | .tlnch site f => Sys2Proof.Machine.execTlnch site f s
  | .send site f => Sys2Proof.Machine.execSend site f s
  | .rgreq site f => Sys2Proof.Machine.execRgreq site f s
  | .lqpush site f => Sys2Proof.Machine.execLqpush site f s
  | .rrpop site f => Sys2Proof.Machine.execRrpop site f s
  | .nop site f => Sys2Proof.Machine.execNop site f s
  | .sreg site f => Sys2Proof.Machine.execSreg site f s
  | .swreg site f => Sys2Proof.Machine.execSwreg site f s
  | .trap site f => Sys2Proof.Machine.execTrap site f s
  | .brk site f => Sys2Proof.Machine.execBrk site f s
  | .yield site f => Sys2Proof.Machine.execYield site f s
  | .exit site f => Sys2Proof.Machine.execExit site f s
  | .assert site f => Sys2Proof.Machine.execAssert site f s
  | .clock site f => Sys2Proof.Machine.execClock site f s
  | .perf site f => Sys2Proof.Machine.execPerf site f s
  | .swapreq site f => Sys2Proof.Machine.execSwapreq site f s
  | .poison site f => Sys2Proof.Machine.execPoison site f s
  | .deviceReset => Sys2Proof.Machine.execDeviceReset s
  | .doorbellWrite => Sys2Proof.Machine.execDoorbellWrite s
  | .queueTableWrite => Sys2Proof.Machine.execQueueTableWrite s
  | .registerWrite => Sys2Proof.Machine.execRegisterWrite s
  | .xlinvGranule => Sys2Proof.Machine.execXlinvGranule s
  | .xlinvAll => Sys2Proof.Machine.execXlinvAll s
  | .hostHbmAccess => Sys2Proof.Machine.execHostHbmAccess s
  | .peerLaunchRequest => Sys2Proof.Machine.execPeerLaunchRequest s
  | .sectorOutOfServiceRequest => Sys2Proof.Machine.execSectorOutOfServiceRequest s
  | .sectorReturnRequest => Sys2Proof.Machine.execSectorReturnRequest s
  | .calibComplete => Sys2Proof.Machine.execCalibComplete s
  | .ratioRequest => Sys2Proof.Machine.execRatioRequest s
  | .meterInterval => Sys2Proof.Machine.execMeterInterval s
  | .almanacUpdate => Sys2Proof.Machine.execAlmanacUpdate s
  | .powerMonitorSample => Sys2Proof.Machine.execPowerMonitorSample s
  | .sensorOvertemp => Sys2Proof.Machine.execSensorOvertemp s
  | .converterFault => Sys2Proof.Machine.execConverterFault s
  | .powerBrakeAssert => Sys2Proof.Machine.execPowerBrakeAssert s
  | .powerBrakeRelease => Sys2Proof.Machine.execPowerBrakeRelease s
  | .wmaxWrite => Sys2Proof.Machine.execWmaxWrite s
  | .laneError => Sys2Proof.Machine.execLaneError s
  | .retrainComplete => Sys2Proof.Machine.execRetrainComplete s
  | .widthRegainTest => Sys2Proof.Machine.execWidthRegainTest s
  | .flitReceive => Sys2Proof.Machine.execFlitReceive s
  | .nakReceive => Sys2Proof.Machine.execNakReceive s
  | .idleReceive => Sys2Proof.Machine.execIdleReceive s
  | .widthFlitReceive => Sys2Proof.Machine.execWidthFlitReceive s
  | .fnoteRead => Sys2Proof.Machine.execFnoteRead s
  | .factResume => Sys2Proof.Machine.execFactResume s
  | .factSubst => Sys2Proof.Machine.execFactSubst s
  | .factPreempt => Sys2Proof.Machine.execFactPreempt s
  | .factAbort => Sys2Proof.Machine.execFactAbort s
  | .factFrameResume => Sys2Proof.Machine.execFactFrameResume s
  | .factFrameSubst => Sys2Proof.Machine.execFactFrameSubst s
  | .factFrameAbort => Sys2Proof.Machine.execFactFrameAbort s
  | .factFramePreempt => Sys2Proof.Machine.execFactFramePreempt s
  | .firmwareHandover => Sys2Proof.Machine.execFirmwareHandover s
  | .activateTimeout => Sys2Proof.Machine.execActivateTimeout s
  | .frzNAssert => Sys2Proof.Machine.execFrzNAssert s
  | .frzNRelease => Sys2Proof.Machine.execFrzNRelease s
  | .proctorFreezeRequest => Sys2Proof.Machine.execProctorFreezeRequest s
  | .frzrel => Sys2Proof.Machine.execFrzrel s
  | .tapReadout => Sys2Proof.Machine.execTapReadout s
  | .getVersion => Sys2Proof.Machine.execGetVersion s
  | .getCapabilities => Sys2Proof.Machine.execGetCapabilities s
  | .negotiateAlgorithms => Sys2Proof.Machine.execNegotiateAlgorithms s
  | .getDigests => Sys2Proof.Machine.execGetDigests s
  | .getCertificate => Sys2Proof.Machine.execGetCertificate s
  | .challenge => Sys2Proof.Machine.execChallenge s
  | .getMeasurements => Sys2Proof.Machine.execGetMeasurements s
  | .stage => Sys2Proof.Machine.execStage s
  | .activate => Sys2Proof.Machine.execActivate s
  | .status => Sys2Proof.Machine.execStatus s
  | .thermcfg => Sys2Proof.Machine.execThermcfg s
  | .time => Sys2Proof.Machine.execTime s
  | .freeze => Sys2Proof.Machine.execFreeze s
  | .portEnable => Sys2Proof.Machine.execPortEnable s
  | .trainingComplete => Sys2Proof.Machine.execTrainingComplete s
  | .peerPortDown => Sys2Proof.Machine.execPeerPortDown s

end Sys2Proof.Machine
end

