-- ==== Sys2Proof/Machine/RiscV.lean ====
section
/-! DEFINITION. Sys2Proof/Machine/RiscV.lean: the Pilot's base instruction set, RV64IMAC with Zicsr, Zifencei, Zba and Zbb (R22), which the spec
names and does not describe: it is taken from the RISC-V architecture (log 22). Its loads, stores and atomics are the accesses of class PIL (R125).
A word of 16 bits is first written out as the 32-bit word it stands for. -/
namespace Sys2Proof.Machine
open Sys2Proof

/-! Fields. -/

/-- Sign-extends the n low bits of a value to 64. -/
def signExt (n v : Nat) : BitVec 64 := BitVec.ofInt 64 (laneInt (v % 2 ^ n) n true)
/-- The 32-bit result of a W instruction. -/
def wordExt (v : BitVec 64) : BitVec 64 := signExt 32 v.toNat

def rvRd (w : Nat) : BitVec 5 := BitVec.ofNat 5 (w / 2 ^ 7)
def rvRs1 (w : Nat) : BitVec 5 := BitVec.ofNat 5 (w / 2 ^ 15)
def rvRs2 (w : Nat) : BitVec 5 := BitVec.ofNat 5 (w / 2 ^ 20)
def rvF3 (w : Nat) : Nat := bitsN w 14 12
def rvF7 (w : Nat) : Nat := bitsN w 31 25
def rvImmI (w : Nat) : BitVec 64 := signExt 12 (w / 2 ^ 20)
def rvImmS (w : Nat) : BitVec 64 := signExt 12 (bitsN w 31 25 * 32 + bitsN w 11 7)
def rvImmB (w : Nat) : BitVec 64 :=
  signExt 13 (bitsN w 31 31 * 4096 + bitsN w 7 7 * 2048 + bitsN w 30 25 * 32 + bitsN w 11 8 * 2)
def rvImmU (w : Nat) : BitVec 64 := signExt 32 (w / 4096 * 4096)
def rvImmJ (w : Nat) : BitVec 64 :=
  signExt 21 (bitsN w 31 31 * 2 ^ 20 + bitsN w 19 12 * 4096 + bitsN w 20 20 * 2048 + bitsN w 30 21 * 2)

/-! Compressed words. -/

def encR (f7 rs2 rs1 f3 rd op : Nat) : Nat := f7 * 2 ^ 25 + rs2 * 2 ^ 20 + rs1 * 2 ^ 15 + f3 * 2 ^ 12 + rd * 2 ^ 7 + op
def encI (imm rs1 f3 rd op : Nat) : Nat := imm % 4096 * 2 ^ 20 + rs1 * 2 ^ 15 + f3 * 2 ^ 12 + rd * 2 ^ 7 + op
def encS (imm rs2 rs1 f3 : Nat) : Nat := imm % 4096 / 32 * 2 ^ 25 + rs2 * 2 ^ 20 + rs1 * 2 ^ 15 + f3 * 2 ^ 12 + imm % 32 * 2 ^ 7 + 0x23
def encB (imm rs1 f3 : Nat) : Nat :=
  bitsN imm 12 12 * 2 ^ 31 + bitsN imm 10 5 * 2 ^ 25 + rs1 * 2 ^ 15 + f3 * 2 ^ 12 + bitsN imm 4 1 * 2 ^ 8 + bitsN imm 11 11 * 2 ^ 7 + 0x63
def encJ (imm rd : Nat) : Nat :=
  bitsN imm 20 20 * 2 ^ 31 + bitsN imm 10 1 * 2 ^ 21 + bitsN imm 11 11 * 2 ^ 20 + bitsN imm 19 12 * 2 ^ 12 + rd * 2 ^ 7 + 0x6F

/-- The immediate of a CI word: bits 12 and 6:2, sign-extended to 21 bits. -/
def ciImm (h : Nat) : Nat := (signExt 6 (bitsN h 12 12 * 32 + bitsN h 6 2)).toNat % 2 ^ 21
/-- The offset of `c.j`. -/
def cjImm (h : Nat) : Nat :=
  (signExt 12 (bitsN h 12 12 * 2048 + bitsN h 8 8 * 1024 + bitsN h 10 9 * 256 + bitsN h 6 6 * 128 + bitsN h 7 7 * 64 + bitsN h 2 2 * 32 +
    bitsN h 11 11 * 16 + bitsN h 5 3 * 2)).toNat % 2 ^ 21
/-- The offset of `c.beqz` and `c.bnez`. -/
def cbImm (h : Nat) : Nat :=
  (signExt 9 (bitsN h 12 12 * 256 + bitsN h 6 5 * 64 + bitsN h 2 2 * 32 + bitsN h 11 10 * 8 + bitsN h 4 3 * 2)).toNat % 2 ^ 13

/-- Quadrant 0. -/
def expand0 (h : Nat) : Option Nat :=
  let rdc := 8 + bitsN h 4 2
  let r1c := 8 + bitsN h 9 7
  let uw := bitsN h 12 10 * 8 + bitsN h 6 6 * 4 + bitsN h 5 5 * 64
  let ud := bitsN h 12 10 * 8 + bitsN h 6 5 * 64
  match bitsN h 15 13 with
  | 0 =>
    let imm := bitsN h 12 11 * 16 + bitsN h 10 7 * 64 + bitsN h 6 6 * 4 + bitsN h 5 5 * 8
    if imm = 0 then none else some (encI imm 2 0 rdc 0x13)
  | 2 => some (encI uw r1c 2 rdc 0x03)
  | 3 => some (encI ud r1c 3 rdc 0x03)
  | 6 => some (encS uw rdc r1c 2)
  | 7 => some (encS ud rdc r1c 3)
  | _ => none

/-- The arithmetic words of quadrant 1. -/
def expandArith (h : Nat) : Option Nat :=
  let r := 8 + bitsN h 9 7
  let r2 := 8 + bitsN h 4 2
  let sh := bitsN h 12 12 * 32 + bitsN h 6 2
  match bitsN h 11 10, bitsN h 12 12, bitsN h 6 5 with
  | 0, _, _ => some (encI sh r 5 r 0x13)
  | 1, _, _ => some (encI (0x400 + sh) r 5 r 0x13)
  | 2, _, _ => some (encI (ciImm h) r 7 r 0x13)
  | _, 0, 0 => some (encR 0x20 r2 r 0 r 0x33)
  | _, 0, 1 => some (encR 0 r2 r 4 r 0x33)
  | _, 0, 2 => some (encR 0 r2 r 6 r 0x33)
  | _, 0, _ => some (encR 0 r2 r 7 r 0x33)
  | _, _, 0 => some (encR 0x20 r2 r 0 r 0x3B)
  | _, _, 1 => some (encR 0 r2 r 0 r 0x3B)
  | _, _, _ => none

/-- Quadrant 1. -/
def expand1 (h : Nat) : Option Nat :=
  let rd := bitsN h 11 7
  match bitsN h 15 13 with
  | 0 => some (encI (ciImm h) rd 0 rd 0x13)
  | 1 => if rd = 0 then none else some (encI (ciImm h) rd 0 rd 0x1B)
  | 2 => some (encI (ciImm h) 0 0 rd 0x13)
  | 3 =>
    if rd = 2 then
      let imm := (signExt 10 (bitsN h 12 12 * 512 + bitsN h 6 6 * 16 + bitsN h 5 5 * 64 + bitsN h 4 3 * 128 + bitsN h 2 2 * 32)).toNat % 4096
      if imm = 0 then none else some (encI imm 2 0 2 0x13)
    else if ciImm h = 0 then none
    else some (ciImm h % 2 ^ 20 * 4096 + rd * 2 ^ 7 + 0x37)
  | 4 => expandArith h
  | 5 => some (encJ (cjImm h) 0)
  | 6 => some (encB (cbImm h) (8 + bitsN h 9 7) 0)
  | _ => some (encB (cbImm h) (8 + bitsN h 9 7) 1)

/-- Quadrant 2. -/
def expand2 (h : Nat) : Option Nat :=
  let rd := bitsN h 11 7
  let r2 := bitsN h 6 2
  match bitsN h 15 13 with
  | 0 => some (encI (bitsN h 12 12 * 32 + r2) rd 1 rd 0x13)
  | 2 => if rd = 0 then none else some (encI (bitsN h 12 12 * 32 + bitsN h 6 4 * 4 + bitsN h 3 2 * 64) 2 2 rd 0x03)
  | 3 => if rd = 0 then none else some (encI (bitsN h 12 12 * 32 + bitsN h 6 5 * 8 + bitsN h 4 2 * 64) 2 3 rd 0x03)
  | 4 =>
    if bitsN h 12 12 = 0 then
      if r2 = 0 then (if rd = 0 then none else some (encI 0 rd 0 0 0x67)) else some (encR 0 r2 0 0 rd 0x33)
    else if r2 = 0 then (if rd = 0 then some 0x00100073 else some (encI 0 rd 0 1 0x67))
    else some (encR 0 r2 rd 0 rd 0x33)
  | 6 => some (encS (bitsN h 12 9 * 4 + bitsN h 8 7 * 64) r2 2 2)
  | 7 => some (encS (bitsN h 12 10 * 8 + bitsN h 9 7 * 64) r2 2 3)
  | _ => none

/-- The 32-bit word that a 16-bit word stands for; none for a reserved or floating-point one. -/
def expandC (h : Nat) : Option Nat :=
  match h % 4 with
  | 0 => expand0 h
  | 1 => expand1 h
  | _ => expand2 h

/-! Arithmetic. -/

/-- Leading zeros of an n-bit value, and trailing zeros. -/
def leadZeros (n v : Nat) : Nat := if v = 0 then n else n - 1 - Nat.log2 v
def trailZeros (n v : Nat) : Nat := ((List.range n).find? (fun k => v / 2 ^ k % 2 == 1)).getD n

/-- Rotates the n low bits of a value right. -/
def rotRight (n v k : Nat) : Nat := (v % 2 ^ n) / 2 ^ (k % n) + (v % 2 ^ n) * 2 ^ (n - k % n) % 2 ^ n

/-- OP (0x33): the result, none for a reserved encoding. -/
def rvOp (f7 f3 : Nat) (a b : BitVec 64) : Option (BitVec 64) :=
  let sh := b.toNat % 64
  match f7, f3 with
  | 0x00, 0 => some (a + b)
  | 0x20, 0 => some (a - b)
  | 0x00, 1 => some (a <<< sh)
  | 0x00, 2 => some (if a.toInt < b.toInt then 1 else 0)
  | 0x00, 3 => some (if a.toNat < b.toNat then 1 else 0)
  | 0x00, 4 => some (a ^^^ b)
  | 0x00, 5 => some (a >>> sh)
  | 0x20, 5 => some (a.sshiftRight sh)
  | 0x00, 6 => some (a ||| b)
  | 0x00, 7 => some (a &&& b)
  | 0x01, 0 => some (a * b)
  | 0x01, 1 => some (BitVec.ofInt 64 (a.toInt * b.toInt / 2 ^ 64))
  | 0x01, 2 => some (BitVec.ofInt 64 (a.toInt * (b.toNat : Int) / 2 ^ 64))
  | 0x01, 3 => some (BitVec.ofNat 64 (a.toNat * b.toNat / 2 ^ 64))
  | 0x01, 4 => some (if b = 0 then BitVec.allOnes 64 else BitVec.ofInt 64 (a.toInt.tdiv b.toInt))
  | 0x01, 5 => some (if b = 0 then BitVec.allOnes 64 else BitVec.ofNat 64 (a.toNat / b.toNat))
  | 0x01, 6 => some (if b = 0 then a else BitVec.ofInt 64 (a.toInt.tmod b.toInt))
  | 0x01, 7 => some (if b = 0 then a else BitVec.ofNat 64 (a.toNat % b.toNat))
  | 0x20, 7 => some (a &&& ~~~b)
  | 0x20, 6 => some (a ||| ~~~b)
  | 0x20, 4 => some (~~~(a ^^^ b))
  | 0x05, 4 => some (if a.toInt < b.toInt then a else b)
  | 0x05, 5 => some (if a.toNat < b.toNat then a else b)
  | 0x05, 6 => some (if a.toInt < b.toInt then b else a)
  | 0x05, 7 => some (if a.toNat < b.toNat then b else a)
  | 0x30, 1 => some (BitVec.ofNat 64 (rotRight 64 a.toNat (64 - sh)))
  | 0x30, 5 => some (BitVec.ofNat 64 (rotRight 64 a.toNat sh))
  | 0x10, 2 => some (a * 2 + b)
  | 0x10, 4 => some (a * 4 + b)
  | 0x10, 6 => some (a * 8 + b)
  | _, _ => none

/-- OP-32 (0x3B). -/
def rvOp32 (f7 f3 : Nat) (rs2 : BitVec 5) (a b : BitVec 64) : Option (BitVec 64) :=
  let sh := b.toNat % 32
  let ua := a.toNat % 2 ^ 32
  let ub := b.toNat % 2 ^ 32
  let sa := laneInt ua 32 true
  let sb := laneInt ub 32 true
  let w := fun (n : Nat) => signExt 32 n
  let z := BitVec.ofNat 64 ua
  match f7, f3 with
  | 0x00, 0 => some (wordExt (a + b))
  | 0x20, 0 => some (wordExt (a - b))
  | 0x00, 1 => some (w (ua * 2 ^ sh))
  | 0x00, 5 => some (w (ua / 2 ^ sh))
  | 0x20, 5 => some (BitVec.ofInt 64 (sa / 2 ^ sh))
  | 0x01, 0 => some (wordExt (a * b))
  | 0x01, 4 => some (if ub = 0 then BitVec.allOnes 64 else wordExt (BitVec.ofInt 64 (sa.tdiv sb)))
  | 0x01, 5 => some (if ub = 0 then BitVec.allOnes 64 else w (ua / ub))
  | 0x01, 6 => some (if ub = 0 then w ua else wordExt (BitVec.ofInt 64 (sa.tmod sb)))
  | 0x01, 7 => some (if ub = 0 then w ua else w (ua % ub))
  | 0x04, 0 => some (z + b)
  | 0x04, 4 => if rs2 = 0 then some (BitVec.ofNat 64 (a.toNat % 65536)) else none
  | 0x10, 2 => some (z * 2 + b)
  | 0x10, 4 => some (z * 4 + b)
  | 0x10, 6 => some (z * 8 + b)
  | 0x30, 1 => some (w (rotRight 32 ua (32 - sh)))
  | 0x30, 5 => some (w (rotRight 32 ua sh))
  | _, _ => none

/-- The bytes of a value reversed; each byte all ones if it is not zero. -/
def rev8 (v : Nat) : Nat := (List.range 8).foldl (fun n k => n + v / 2 ^ (8 * k) % 256 * 2 ^ (56 - 8 * k)) 0
def orcB (v : Nat) : Nat := (List.range 8).foldl (fun n k => n + (if v / 2 ^ (8 * k) % 256 = 0 then 0 else 255) * 2 ^ (8 * k)) 0

/-- OP-IMM (0x13) with a shift or a one-operand function: bits 31:20 of the word, funct3 1 or 5. -/
def rvShiftImm (i12 f3 : Nat) (a : BitVec 64) : Option (BitVec 64) :=
  let sh := i12 % 64
  match i12 / 64, f3 with
  | 0x00, 1 => some (a <<< sh)
  | 0x00, 5 => some (a >>> sh)
  | 0x10, 5 => some (a.sshiftRight sh)
  | 0x18, 5 => some (BitVec.ofNat 64 (rotRight 64 a.toNat sh))
  | _, 1 =>
    match i12 with
    | 0x600 => some (BitVec.ofNat 64 (leadZeros 64 a.toNat))
    | 0x601 => some (BitVec.ofNat 64 (trailZeros 64 a.toNat))
    | 0x602 => some (BitVec.ofNat 64 (popNat 64 a.toNat))
    | 0x604 => some (signExt 8 a.toNat)
    | 0x605 => some (signExt 16 a.toNat)
    | _ => none
  | _, _ =>
    match i12 with
    | 0x287 => some (BitVec.ofNat 64 (orcB a.toNat))
    | 0x6B8 => some (BitVec.ofNat 64 (rev8 a.toNat))
    | _ => none

/-- OP-IMM (0x13). -/
def rvOpImm (w : Nat) (a : BitVec 64) : Option (BitVec 64) :=
  let imm := rvImmI w
  match rvF3 w with
  | 0 => some (a + imm)
  | 2 => some (if a.toInt < imm.toInt then 1 else 0)
  | 3 => some (if a.toNat < imm.toNat then 1 else 0)
  | 4 => some (a ^^^ imm)
  | 6 => some (a ||| imm)
  | 7 => some (a &&& imm)
  | f3 => rvShiftImm (w / 2 ^ 20 % 4096) f3 a

/-- OP-IMM-32 (0x1B). -/
def rvOpImm32 (w : Nat) (a : BitVec 64) : Option (BitVec 64) :=
  let ua := a.toNat % 2 ^ 32
  let i12 := w / 2 ^ 20 % 4096
  let sh := i12 % 32
  match rvF3 w, i12 / 32 with
  | 0, _ => some (wordExt (a + rvImmI w))
  | 1, 0x00 => some (signExt 32 (ua * 2 ^ sh))
  | 1, 0x04 => some (BitVec.ofNat 64 (ua * 2 ^ sh))
  | 1, 0x05 => some (BitVec.ofNat 64 (ua * 2 ^ (32 + sh)))
  | 1, 0x30 =>
    match sh with
    | 0 => some (BitVec.ofNat 64 (leadZeros 32 ua))
    | 1 => some (BitVec.ofNat 64 (trailZeros 32 ua))
    | 2 => some (BitVec.ofNat 64 (popNat 32 ua))
    | _ => none
  | 5, 0x00 => some (signExt 32 (ua / 2 ^ sh))
  | 5, 0x20 => some (BitVec.ofInt 64 (laneInt ua 32 true / 2 ^ sh))
  | 5, 0x30 => some (signExt 32 (rotRight 32 ua sh))
  | _, _ => none

/-- A branch is taken; none for a reserved encoding. -/
def rvBranch (f3 : Nat) (a b : BitVec 64) : Option Bool :=
  match f3 with
  | 0 => some (a == b)
  | 1 => some (a != b)
  | 4 => some (decide (a.toInt < b.toInt))
  | 5 => some (decide (b.toInt ≤ a.toInt))
  | 6 => some (decide (a.toNat < b.toNat))
  | 7 => some (decide (b.toNat ≤ a.toNat))
  | _ => none

/-! Memory (R125 PIL, R351). -/

/-- The outcome of an access: a value with the state, a wait, or an exception cause. -/
inductive PilotMem
  | ok (v : Nat) (s : State)
  | wait
  | bad (cause : Nat)

/-- The route to another package's memory: open, waiting, or absent (R331, R406). -/
def State.pilotRoute (s : State) (a : Nat) : RouteTo :=
  if a < scratchBytes ∨ paIsHost a = true ∨ paPackage a = s.package then .open_ else s.routeTo (paPackage a)

/-- An access to another package's memory leaves as a link word (R329). -/
def State.pilotLeaves (s : State) (a : Nat) : State :=
  if a < scratchBytes ∨ paIsHost a = true ∨ paPackage a = s.package then s else s.sendWord (paPackage a) vcMemory

/-- A load of n bytes: of the control block naturally aligned, as device memory; an address that holds nothing, and an uncorrectable sector,
is a load access fault. -/
def State.pilotLoad (s : State) (d a n : Nat) : PilotMem :=
  if inPilotBlock a n then
    if a % n = 0 then .ok (s.blockRead d (a - pilotBlock) n).1 (s.blockRead d (a - pilotBlock) n).2 else .bad 5
  else if s.pilotPresent a n = false then .bad 5
  else
    match s.pilotRoute a with
    | .wait => .wait
    | .fault _ _ => .bad 5
    | .open_ => if scratchBytes ≤ a ∧ s.memBad a = true then .bad 5 else .ok (s.pilotRead d a n) (s.pilotLeaves a)

/-- A store of n bytes. A FACT write is performed when the block takes it (R353). -/
def State.pilotStore (s : State) (d a n v : Nat) : PilotMem :=
  if inPilotBlock a n then (if a % n = 0 then .ok 0 (s.blockWrite d (a - pilotBlock) n v) else .bad 7)
  else if s.pilotPresent a n = false then .bad 7
  else
    match s.pilotRoute a with
    | .wait => .wait
    | .fault _ _ => .bad 7
    | .open_ => .ok 0 ((s.pilotLeaves a).pilotWrite d a v n)

/-- What an AMO of a width in bits writes back. -/
def rvAmo (f5 n old v : Nat) : Option Nat :=
  let so := laneInt old n true
  let sv := laneInt v n true
  match f5 with
  | 0x00 => some ((old + v) % 2 ^ n)
  | 0x01 => some v
  | 0x04 => some (old ^^^ v)
  | 0x08 => some (old ||| v)
  | 0x0C => some (old &&& v)
  | 0x10 => some (if so < sv then old else v)
  | 0x14 => some (if so < sv then v else old)
  | 0x18 => some (min old v)
  | 0x1C => some (max old v)
  | _ => none

/-! Control and status registers (log 12). -/

/-- A register's value; none if the Pilot has no such register. -/
def State.pilotCsr (s : State) (d n : Nat) : Option (BitVec 64) :=
  let p := s.pilot d
  match n with
  | 0x300 => some p.mstatus
  | 0x301 => some 0x8000000000001105
  | 0x304 | 0x306 | 0x320 | 0x340 => some (Map.get 0 p.csr n)
  | 0x305 => some p.mtvec
  | 0x341 => some p.mepc
  | 0x342 => some p.mcause
  | 0x343 => some p.mtval
  | 0x344 => some (if (s.dieAt d).meip then 0x800 else 0)
  | 0xB00 | 0xC00 => some (BitVec.ofNat 64 (s.now / 40) + Map.get 0 p.csr 0xB00)
  | 0xB02 | 0xC02 => some p.instret
  | 0xF11 | 0xF12 | 0xF13 | 0xF15 => some 0
  | 0xF14 => some (BitVec.ofNat 64 d)
  | _ => none

/-- Writes a register; the read-only ones have numbers from 0xC00 on. -/
def State.setPilotCsr (s : State) (d n : Nat) (v : BitVec 64) : State :=
  match n with
  | 0x300 => s.updPilot d (fun p => { p with csr := Map.set 0x1800 p.csr 0x300 (mstatusOf (v.getLsbD 3) (v.getLsbD 7)) })
  | 0x304 => s.updPilot d (fun p => { p with csr := Map.set 0 p.csr 0x304 (v &&& 0x888) })
  | 0x306 | 0x320 | 0x340 => s.updPilot d (fun p => { p with csr := Map.set 0 p.csr n v })
  | 0x305 => s.updPilot d (fun p => { p with mtvec := v &&& ~~~(2 : BitVec 64) })
  | 0x341 => s.updPilot d (fun p => { p with mepc := v &&& ~~~(1 : BitVec 64) })
  | 0x342 => s.updPilot d (fun p => { p with mcause := v })
  | 0x343 => s.updPilot d (fun p => { p with mtval := v })
  | 0xB00 => s.updPilot d (fun p => { p with csr := Map.set 0 p.csr 0xB00 (v - BitVec.ofNat 64 (s.now / 40)) })
  | 0xB02 => s.updPilot d (fun p => { p with instret := v })
  | _ => s

/-- The Pilot's external interrupt is pending and enabled (R351). -/
def State.pilotInterrupt (s : State) (d : Nat) : Bool :=
  (s.dieAt d).meip && (s.pilot d).mstatus.getLsbD 3 && (Map.get 0 (s.pilot d).csr 0x304).getLsbD 11

/-! Execution. -/

/-- An instruction of `len` bytes is done. -/
def State.rvDone (s : State) (d len : Nat) (rd : BitVec 5) (v : BitVec 64) : State :=
  s.updPilot d (fun p => { p.setReg rd v with pc := p.pc + BitVec.ofNat 64 len, instret := p.instret + 1 })

/-- An instruction ends with a jump. -/
def State.rvJump (s : State) (d : Nat) (rd : BitVec 5) (link target : BitVec 64) : State :=
  s.updPilot d (fun p => { p.setReg rd link with pc := target, instret := p.instret + 1 })

/-- A result in rd, or the illegal-instruction exception of a reserved encoding. -/
def State.rvResult (s : State) (d len w : Nat) (r : Option (BitVec 64)) : State :=
  match r with
  | some v => s.rvDone d len (rvRd w) v
  | none => s.pilotTrap d 2 w

/-- LOAD (0x03). -/
def State.rvLoad (s : State) (d len w : Nat) (a : BitVec 64) : State :=
  let at_ := (a + rvImmI w).toNat
  let n := 2 ^ (rvF3 w % 4)
  if rvF3 w = 7 then s.pilotTrap d 2 w else
  match s.pilotLoad d at_ n with
  | .wait => s
  | .bad c => s.pilotTrap d c at_
  | .ok v s1 => s1.rvDone d len (rvRd w) (if rvF3 w < 4 then signExt (8 * n) v else BitVec.ofNat 64 v)

/-- STORE (0x23). -/
def State.rvStore (s : State) (d len w : Nat) (a b : BitVec 64) : State :=
  let at_ := (a + rvImmS w).toNat
  if 4 ≤ rvF3 w then s.pilotTrap d 2 w else
  match s.pilotStore d at_ (2 ^ rvF3 w) b.toNat with
  | .wait => s
  | .bad c => s.pilotTrap d c at_
  | .ok _ s1 => s1.rvDone d len 0 0

/-- The reservation of a load-reserved holds: the same address and width, and the bytes stand as they were read (log 22). -/
def State.resvHolds (s : State) (d at_ n : Nat) : Bool :=
  match (s.pilot d).resv with
  | some (a, k, v) => a == at_ && k == n && s.pilotRead d at_ n == v
  | none => false

/-- AMO (0x2F): LR, SC and the atomics, of 4 or 8 bytes, naturally aligned and not in device memory. -/
def State.rvAtomic (s : State) (d len w : Nat) (a b : BitVec 64) : State :=
  let at_ := a.toNat
  let f5 := bitsN w 31 27
  let n := 2 ^ rvF3 w
  let isLr := f5 == 2
  let ext := fun (v : Nat) => signExt (8 * n) v
  let clear := fun (x : State) => x.updPilot d (fun p => { p with resv := none })
  if (rvF3 w ≠ 2 ∧ rvF3 w ≠ 3) ∨ (isLr = true ∧ rvRs2 w ≠ 0) then s.pilotTrap d 2 w
  else if at_ % n ≠ 0 then s.pilotTrap d (if isLr then 4 else 6) at_
  else if inPilotBlock at_ n then s.pilotTrap d (if isLr then 5 else 7) at_
  else if f5 = 3 then
    if s.resvHolds d at_ n then
      match s.pilotStore d at_ n b.toNat with
      | .wait => s
      | .bad c => s.pilotTrap d c at_
      | .ok _ s1 => (clear s1).rvDone d len (rvRd w) 0
    else (clear s).rvDone d len (rvRd w) 1
  else
    match s.pilotLoad d at_ n with
    | .wait => s
    | .bad c => s.pilotTrap d (if isLr then c else 7) at_
    | .ok v s1 =>
      if isLr then (s1.updPilot d (fun p => { p with resv := some (at_, n, v) })).rvDone d len (rvRd w) (ext v)
      else
        match rvAmo f5 (8 * n) v (b.toNat % 2 ^ (8 * n)) with
        | none => s.pilotTrap d 2 w
        | some x => (s1.pilotWrite d at_ x n).rvDone d len (rvRd w) (ext v)

/-- SYSTEM (0x73): Zicsr, `ecall`, `ebreak`, `mret` and `wfi`, which may end at once. -/
def State.rvSystem (s : State) (d len w : Nat) (a : BitVec 64) : State :=
  let n := w / 2 ^ 20 % 4096
  let f3 := rvF3 w
  if f3 = 0 then
    if w = 0x00000073 then s.pilotTrap d 11 0
    else if w = 0x00100073 then s.pilotTrap d 3 (s.pilot d).pc.toNat
    else if w = 0x30200073 then
      s.updPilot d (fun p => { p with
        csr := Map.set 0x1800 p.csr 0x300 (mstatusOf (p.mstatus.getLsbD 7) true)
        pc := p.mepc
        instret := p.instret + 1 })
    else if w = 0x10500073 then s.rvDone d len 0 0
    else s.pilotTrap d 2 w
  else if f3 = 4 then s.pilotTrap d 2 w
  else
    let src : BitVec 64 := if 4 ≤ f3 then BitVec.ofNat 64 (bitsN w 19 15) else a
    let writes := f3 % 4 == 1 || bitsN w 19 15 != 0
    match s.pilotCsr d n with
    | none => s.pilotTrap d 2 w
    | some old =>
      if writes && decide (0xC00 ≤ n) then s.pilotTrap d 2 w
      else
        let new := match f3 % 4 with
          | 1 => src
          | 2 => old ||| src
          | _ => old &&& ~~~src
        let s1 := s.rvDone d len (rvRd w) old
        if writes then s1.setPilotCsr d n new else s1

/-- One instruction of the base set, written as a 32-bit word, `len` bytes long where it stands. -/
def State.rvExec (s : State) (d len w : Nat) : State :=
  let p := s.pilot d
  let a := p.reg (rvRs1 w)
  let b := p.reg (rvRs2 w)
  let next := p.pc + BitVec.ofNat 64 len
  match w % 128 with
  | 0x37 => s.rvDone d len (rvRd w) (rvImmU w)
  | 0x17 => s.rvDone d len (rvRd w) (p.pc + rvImmU w)
  | 0x6F => s.rvJump d (rvRd w) next (p.pc + rvImmJ w)
  | 0x67 => if rvF3 w = 0 then s.rvJump d (rvRd w) next ((a + rvImmI w) &&& ~~~(1 : BitVec 64)) else s.pilotTrap d 2 w
  | 0x63 =>
    match rvBranch (rvF3 w) a b with
    | none => s.pilotTrap d 2 w
    | some t => s.rvJump d 0 0 (if t then p.pc + rvImmB w else next)
  | 0x03 => s.rvLoad d len w a
  | 0x23 => s.rvStore d len w a b
  | 0x13 => s.rvResult d len w (rvOpImm w a)
  | 0x1B => s.rvResult d len w (rvOpImm32 w a)
  | 0x33 => s.rvResult d len w (rvOp (rvF7 w) (rvF3 w) a b)
  | 0x3B => s.rvResult d len w (rvOp32 (rvF7 w) (rvF3 w) (rvRs2 w) a b)
  | 0x2F => s.rvAtomic d len w a b
  | 0x0F => if rvF3 w ≤ 1 then s.rvDone d len 0 0 else s.pilotTrap d 2 w
  | 0x73 => s.rvSystem d len w a
  | _ => s.pilotTrap d 2 w

end Sys2Proof.Machine
end

