-- ==== Sys2Proof/Machine/Turns.lean ====
section
/-! DEFINITION. Sys2Proof/Machine/Turns.lean: whose turn it is, what passes before it, and the instruction it takes (R22, R52, R65):
the order of the machine's agents, of which the spec fixes none, is a list of turns, and free where the list is empty (log 9, log 68). -/
namespace Sys2Proof.Machine
open Sys2Proof

/-! Free turns. -/

/-- The internal agents and events by a number and three free arguments. -/
def agentOf (n a b c : Nat) : Agent :=
  let site : Site := ⟨⟨a % 32768, Nat.mod_lt _ (by decide)⟩, ⟨b % 16, Nat.mod_lt _ (by decide)⟩⟩
  let entry : RouteSite := ⟨⟨a % 32768, Nat.mod_lt _ (by decide)⟩, ⟨b % 32, Nat.mod_lt _ (by decide)⟩⟩
  let ev := fun (i : Instr) => Agent.event i
  match n with
  | 0 => .pe (a % 32768)
  | 1 => .entry (a % 32768) (b % 32)
  | 2 => .loader (a % 64)
  | 3 => .pilot (a % 4)
  | 4 => ev (.invalidationComplete a)
  | 5 => ev (.tokenHop a b c)
  | 6 => ev (.placementStep a)
  | 7 => ev (.engineSuspend a)
  | 8 => ev (.drainPointReached a)
  | 9 => ev (.planeFlip a)
  | 10 => ev (.swapTokenArrival a)
  | 11 => ev (.tokenCountTrigger a)
  | 12 => ev (.phaseAdvance site)
  | 13 => ev (.nodeComplete a)
  | 14 => ev (.jobComplete a)
  | 15 => ev (.patchClear a)
  | 16 => ev (.slateAllotmentReset a)
  | 17 => ev (.timetableRecordArrival a)
  | 18 => ev (.remoteRequest a (BitVec.ofNat 64 b))
  | 19 => ev (.hbmRequest a)
  | 20 => ev (.pageWalk a)
  | 21 => ev (.batchTranslation a)
  | 22 => ev (.decoupledResultDelivery a)
  | 23 => ev (.fenceComplete a)
  | 24 => ev (.slewStep a)
  | 25 => ev (.matrixProductComplete a)
  | 26 => ev (.copyCommandAccept a)
  | 27 => ev (.engineBarrierDecrement a)
  | 28 => ev (.engineRingAdvance a)
  | 29 => ev (.engineCompletion a)
  | 30 => ev (.gatherOwnerRequest a)
  | 31 => ev (.rowReturn a (BitVec.ofNat 16 b))
  | 32 => ev (.indexLaneToken a b)
  | 33 => ev (.grammarCommandStart a)
  | 34 => ev (.grammarCommandComplete a)
  | 35 => ev (.grantRequest a (BitVec.ofNat 32 b))
  | 36 => ev (.sendDelivery a)
  | 37 => ev (.activation a)
  | 38 => ev (.snapshotComplete a)
  | 39 => ev (.heldUpdateClose a)
  | 40 => ev (.mirrorUpdate a)
  | 41 => ev (.parkReserve a)
  | 42 => ev (.parkRequest a)
  | 43 => ev (.parkedUpdateWrite a)
  | 44 => ev (.unpark a)
  | 45 => ev (.gatingSequence a)
  | 46 => ev (.calibTimeout a)
  | 47 => ev (.ratioChange a)
  | 48 => ev (.ratioChangeComplete a)
  | 49 => ev (.replayExhausted a)
  | 50 => ev (.responseTimeout a)
  | 51 => ev (.faultRecordWrite a)
  | 52 => ev (.faultQueueRetry a)
  | 53 => ev (.holdLimitExpiry a b)
  | 54 => ev (.watchdogExpiry a)
  | 55 => ev (.drainLimitExpiry a)
  | 56 => ev (.reductionTimeout entry)
  | 57 => ev .meterInterval
  | 58 => ev .firmwareHandover
  | _ => ev .activateTimeout

/-- The next turn: an access of the host that a freeze held up (R342), the head of the list, or a free one. -/
def State.nextTurn (s : State) : Turn × State :=
  match (if s.frozen then [] else s.deferred), s.turns with
  | t :: rest, _ => (t, { s with deferred := rest })
  | [], t :: rest => (t, { s with turns := rest })
  | [], [] =>
    let f := fun (k : Nat) => Config.freeNat (s.draws + k)
    (⟨f 0, agentOf (f 1 % 60) (f 2) (f 3) (f 4), Input.none⟩, { s with draws := s.draws + 5 })

/-! Time passes. -/

/-- The cell has a slot whose operands stand and that lacks room (R312, event 2). -/
def State.lackingRoom (s : State) (cell : Nat) : Bool :=
  match s.instAt cell with
  | none => false
  | some i => (List.range 16).any (fun k => hdrEn ((s.cell cell).active.header k) && s.lacksRoom i cell k)

/-- Counts the cycles that passed, by the events that counters select (R312): 7 cycles, 4 a full decoupling queue, 2 a lack of room. -/
def State.countCycles (s : State) (was : State) : State :=
  s.cells.foldl (fun (a : State) e =>
    if e.2.psel.isEmpty then a else
    let k := sectorOfCell e.1
    let n := s.cycle k - was.cycle k
    if n = 0 then a else
    let c1 := e.2.count 7 n
    let c2 := if 32 ≤ s.queueUsed e.1 then c1.count 4 n else c1
    let c3 := if s.lackingRoom e.1 then c2.count 2 n else c2
    a.setCell e.1 c3) s

/-- Device time runs with the reference clock, steered by `ppm`, and never back (R343). -/
def State.runDevice (s : State) (dt : Nat) : State :=
  let fine := s.devRem + dt * (1000000 + s.ppm).toNat
  { s with dev := s.dev + fine / 1000000, devRem := fine % 1000000 }

/-- Time passes before a turn, but not in a frozen package (R342, R343); what has come due is settled. -/
def State.advance (s : State) (t : Turn) : State :=
  let s1 : State := if s.frozen then { s with input := t.input } else { s with input := t.input, now := s.now + t.dt }.runDevice t.dt
  (if s1.now = s.now then s1 else s1.countCycles s).settleAll.pumpFacts

/-! What an agent takes. -/

/-- What a turn gives: an instruction with the state it runs in, or a state in which none runs: nothing to do, a trap of a Pilot, or an
instruction of its base set done. -/
inductive Taken
  | run (i : Instr) (s : State)
  | idle (s : State)

/-- A command of the Proctor that the turn brings joins the loader's queue: its program is outside the machine (R78, log 126). -/
def State.bringCommand (s : State) (k : Nat) : State :=
  if s.input.flag then s.updLoader k (fun l => { l with queue := l.queue ++ [(.proctor, BitVec.ofNat 32 s.input.value.toNat)] }) else s

/-- The instruction that a command of a source is. -/
def State.commandOf (s : State) (k : Fin 64) (src : LoadSource) (w : BitVec 32) : Instr :=
  match decodeConfig k src (s.isLit k.val src) w with
  | .ok i => i
  | .error _ => .cfgWrite k src (BitVec.ofNat 8 (w.toNat / 2 ^ 24)) (BitVec.ofNat 8 (w.toNat / 2 ^ 16)) (BitVec.ofNat 16 w.toNat)

/-- The fields of a command are those of a control command with a code. -/
def State.isControl (s : State) (k : Nat) (src : LoadSource) (w code : Nat) : Bool :=
  !s.isLit k src && decide (w / 2 ^ 24 = 0xFE) && bitsN w 23 16 == code

/-- The Timetable's next command at a loader (R162, R165): ORIGIN names the patch (R195), SEAL comes after the rewriting of anchored handles (R322). -/
def State.takeTimetable (s : State) (k : Fin 64) : Taken :=
  match s.ttSends k.val with
  | none => .idle s
  | some (t, i, j) =>
    match s.ttFetch i j t with
    | .error f => if s.loaderTakes k.val .timetable (t.pos == 0) then .idle ((s.ttStop i).streamFail i f t.va) else .idle s
    | .ok w =>
      let begin_ := s.isControl k.val .timetable w 1
      if s.loaderTakes k.val .timetable begin_ = false then .idle (s.loaderWaits k.val .timetable begin_)
      else if s.isControl k.val .timetable w 4 then
        let b := s.beforeSeal k.val t i j
        if b.2 then .run (b.1.commandOf k .timetable (BitVec.ofNat 32 w)) b.1 else .idle b.1
      else
        let w1 := if s.isControl k.val .timetable w 2 then w / 65536 * 65536 + i.y0 * 256 + i.x0 else w
        .run (s.commandOf k .timetable (BitVec.ofNat 32 w1)) s

/-- A loader's next command: the first that waits in its queue leaves it when the loader accepts it; else the Timetable's. -/
def State.takeCommand (s0 : State) (k : Nat) : Taken :=
  if hk : k < 64 then
    let s := s0.bringCommand k
    match (s.sector k).loader.queue with
    | [] => s.takeTimetable ⟨k, hk⟩
    | (src, w) :: rest =>
      let begin_ := s.isBegin k src (w.toNat / 2 ^ 24) (bitsN w.toNat 23 16)
      if s.loaderTakes k src begin_ = false then (s.loaderWaits k src begin_).takeTimetable ⟨k, hk⟩
      else .run (s.commandOf ⟨k, hk⟩ src w) (s.updLoader k (fun l => { l with queue := rest }))
  else .idle s0

/-- The word a Pilot fetches. -/
def State.pilotWordAt (s : State) (d : Nat) : BitVec 32 := BitVec.ofNat 32 (s.pilotRead d (s.pilot d).pc.toNat 4)

/-- An instruction's bytes lie in an uncorrectable sector of memory: the fetch faults (R358). -/
def State.pilotFetchBad (s : State) (a n : Nat) : Bool :=
  (List.range n).any (fun k => decide (scratchBytes ≤ a + k) && s.memBad (a + k))

/-- A Pilot's instruction of the base set (R22): a word of 16 bits, or one of 32. -/
def State.takeBase (s : State) (d : Nat) : Taken :=
  let w := (s.pilotWordAt d).toNat
  if w % 4 = 3 then .idle (s.rvExec d 4 w)
  else
    match expandC (w % 65536) with
    | some x => .idle (s.rvExec d 2 x)
    | none => .idle (s.pilotTrap d 2 (w % 65536))

/-- A Pilot's next instruction (R22, R313): a pending interrupt that is enabled is taken first (R351); an `xg.wfe` whose time has passed is
XG_WFE_TIMEOUT; a custom-0 encoding that is none of them takes the illegal-instruction exception; another word is of the base set. -/
def State.takePilot (s : State) (d : Nat) : Taken :=
  if hd : d < 4 then
    if s.pilotRuns d = false then .idle s
    else if s.pilotInterrupt d then .idle (s.pilotTrap d (2 ^ 63 + 11) 0)
    else if s.pilotPresent (s.pilot d).pc.toNat 2 = false ∨
        (bitsN (s.pilotWordAt d).toNat 1 0 = 3 ∧ s.pilotPresent (s.pilot d).pc.toNat 4 = false) then
      .idle (s.pilotTrap d 1 (s.pilot d).pc.toNat)
    else if s.pilotFetchBad (s.pilot d).pc.toNat (if bitsN (s.pilotWordAt d).toNat 1 0 = 3 then 4 else 2) then
      .idle (s.pilotTrap d 1 (s.pilot d).pc.toNat)
    else
      let w := s.pilotWordAt d
      if bitsN w.toNat 6 0 ≠ 0x0B then s.takeBase d
      else
        let rs2 := BitVec.ofNat 5 (bitsN w.toNat 24 20)
        match decodePilot ⟨d, hd⟩ (bitsN (s.pilotReg d rs2) 11 8) w with
        | .error _ => .idle (s.pilotTrap d 2 w.toNat)
        | .ok (.xgWfe e rd rs1 _) =>
          let timedOut := match (s.pilot d).wfeSince with
            | some t => decide (s.pilotReg d rs1 ≠ 0) && decide (t + pilotUnits (s.pilotReg d rs1) ≤ s.now) && (s.pilot d).event.isEmpty &&
                !(s.dieAt d).meip
            | none => false
          .run (if timedOut then .xgWfeTimeout e rd rs1 rs2 else .xgWfe e rd rs1 rs2) s
        | .ok i => .run i s
  else .idle s

/-- A token under another version than its cell's at the head of a channel that an enabled slot reads, ready or not (R370): the slot and the token. -/
def State.staleSlot (s : State) (cell : Nat) : Option (Nat × Token) :=
  let c := s.cell cell
  (List.range 16).findSome? (fun k =>
    if !hdrEn (c.active.header k) then none else
    match (s.slotInstr cell k).bind operatorFields with
    | none => none
    | some (_, _, f) => ([f.sa, f.sb, f.sc].findSome? (fun x => (c.headOf x).filter (fun t => t.ver != c.active.ver))).map (fun t => (k, t)))

/-- The instance at a cell runs: its operators take steps. -/
def State.runsAt (s : State) (cell : Nat) : Option Inst :=
  (s.instAt cell).filter (fun i => s.sectorRuns (sectorOfCell cell) && !s.held i && !i.debugHeld && !i.parked)

/-- A version fault at a PE (R370, R371): found when the token reaches the head, whatever else the slot waits for. -/
def State.staleFault (s : State) (cell : Nat) : Option State :=
  match s.runsAt cell, s.staleSlot cell with
  | some i, some (k, t) => some (s.fireFault i cell k ⟨0x0131, 1, false, t.bits, 0⟩)
  | _, _ => none

/-- A version fault at a route entry (R370): of the heads that it reads. -/
def State.staleEntry (s : State) (cell e : Nat) : Option State :=
  match s.runsAt cell with
  | none => none
  | some i =>
    ((routeIns ((s.cell cell).active.routeWord e).toNat).filterMap (s.inHead cell)).findSome? (fun t =>
      if t.ver != (s.cell cell).active.ver then some (s.routeFault i cell e 0x0131 t.bits 0) else none)

/-- What an agent takes: the slot a PE fires (R52), a route entry's operator, a command, a Pilot's word, or an event, which has no word
of its own. -/
def State.take (s : State) (g : Agent) : Taken :=
  match g with
  | .pe cell =>
    match s.staleFault cell with
    | some s1 => .idle s1
    | none =>
      match (s.peSlot cell).bind (s.slotInstr cell) with
      | some i => .run i s
      | none => .idle s
  | .entry cell e =>
    match s.staleEntry cell e with
    | some s1 => .idle s1
    | none =>
      match s.entryInstr cell e with
      | some i => .run i s
      | none => .idle s
  | .loader k => s.takeCommand k
  | .pilot d => s.takePilot d
  | .event i => if (encode i).isNone then .run i s else .idle s

/-! Placing an instruction where the next step fetches it. -/

/-- Gives its turn to an agent, at once or after a time. -/
def State.turnFor (s : State) (g : Agent) (dt : Nat := 0) : State := { s with turns := ⟨dt, g, Input.none⟩ :: s.turns }

/-- A DATA token of 0 under a version. -/
def dataZero (v : BitVec 4) : Token := mkToken v .data 0 []

/-- A sector that runs. -/
def State.power (s : State) (k : Nat) : State := s.updSector k (fun t => { t with mode := .inService, changing := none })

/-- A job and a 1 × 1 instance on cell 0, running. -/
def State.placeOne (s : State) : State :=
  let (id, s1) := s.fresh
  let i : Inst := {
    id := id, job := 0, node := 0, gid := 0, stage := 0, sector := 0, x0 := 0, y0 := 0, w := 1, h := 1, spad := 32768, slateBase := 0,
    slateLen := 0, nhnd := 32, nbar := 63, nring := 63, slive := false, npre := false, fixed := false, asid := 0, swap := none,
    preempt := false, drainSince := 0, atPoint := none, yielding := false, hold := none, retired := false, started := true, absorbed := false,
    actIdx := 0, lastActive := s.dev, parkReserved := false, parked := false, placedAt := s.now, restoreStep := 0, frame := none,
    lastSeal := none, debugHeld := false, barred := false, needPreload := false, loads := [], loaded := false, chans := [], withdrawn := [], releasing := none,
    heldSites := [] }
  { (s1.power 0) with insts := i :: s1.insts }

/-- An operator word in slot 0 of cell 0, enabled, with a token in each channel it names. -/
def State.placeOperator (s : State) (w : Nat) : State :=
  let s1 := s.placeOne
  let put := fun (c : Cell) (code : Nat) => if code < 0x40 then c.setChan (code % 32) [dataZero c.active.ver] else c
  (s1.updCell 0 (fun c =>
    let p1 := (List.range 4).foldl (fun (p : Plane) k => p.setOp k (BitVec.ofNat 16 (w / 2 ^ (16 * k)))) c.active
    let p2 := { p1.setOp 0x40 0x8000 with marks := 0 }
    let c1 := (({ c with active := p2, ptr := 0, nextFire := 0, trigDue := false }).setSlot 0 SlotState.zero)
    put (put (put c1 (bitsN w 47 40)) (bitsN w 39 32)) (bitsN w 31 24))).turnFor (.pe 0)

/-- A route entry 0 of cell 0, with a token at each input it names. -/
def State.placeRoute (s : State) (w : Nat) : State :=
  let s1 := s.placeOne
  let put := fun (c : Cell) (pv : Nat) => if pv / 32 < 6 then c.setInFifo (pv / 32) (pv % 32) [dataZero c.active.ver] else c
  (s1.updCell 0 (fun c =>
    let p1 := (List.range 3).foldl (fun (p : Plane) k => p.setRt k (BitVec.ofNat 16 (w / 2 ^ (16 * k)))) c.active
    put (put (({ c with active := p1 }).setRoute 0 RouteState.zero) (bitsN w 43 36)) (bitsN w 35 28))).turnFor (.entry 0 0)

/-- A configuration command of the Pilot at sector 0's loader, which is idle, a cycle after its arrival: a BEGIN is accepted then (R78). -/
def State.placeCommand (s : State) (w : Nat) : State :=
  let s1 := s.power 0
  (s1.updLoader 0 (fun _ => { Loader.idle with queue := [(.pilot, BitVec.ofNat 32 w)], waiting := [(.pilot, s1.cycle 0)] })).turnFor (.loader 0)
    (cycleUnits (s1.sector 0).ratio)

/-- A word where die 0's Pilot fetches next. -/
def State.placePilot (s : State) (w : Nat) : State :=
  let pc := if (s.pilot 0).pc.toNat + 4 ≤ scratchBytes then (s.pilot 0).pc else 0
  (s.updPilot 0 (fun p => { p with
    pc := pc
    wfeSince := none
    scratch := (List.range 4).foldl (fun (m : Map Byte) k => Map.set 0 m (pc.toNat + k) (BitVec.ofNat 8 (w / 2 ^ (8 * k)))) p.scratch })).turnFor
    (.pilot 0)

end Sys2Proof.Machine
end

