-- ==== Sys2Proof/Machine/Step.lean ====
section
/-! DEFINITION. Sys2Proof/Machine/Step.lean: one step of the machine: the next turn's time passes, its agent takes an instruction, the
instruction runs; and where a word is placed so that the next step runs it. -/
namespace Sys2Proof.Machine
open Sys2Proof

/-- Runs what an agent has taken. -/
def runTaken (t : Taken) : Host.Outcome State Fault Refusal :=
  match t with
  | .run i s => exec i s
  | .idle s => .next s

/-- One step. -/
def step (s : State) : Host.Outcome State Fault Refusal :=
  let e := s.nextTurn
  runTaken ((e.2.advance e.1).take e.1.agent)

/-- The state with a table word placed where the next step fetches it (log 69): 64 bits an operator, 48 a route entry, 32 a configuration
command or a Pilot word. -/
def State.withFetchWord (s : State) (nbits w : Nat) : State :=
  if nbits = 64 then s.placeOperator w
  else if nbits = 48 then s.placeRoute w
  else if bitsN w 31 24 ≠ 0xFE ∧ bitsN w 6 0 = 0x0B ∧ bitsN w 31 25 = 0 then s.placePilot w
  else s.placeCommand w

end Sys2Proof.Machine
end

