-- ==== Sys2Proof/Safety.lean ====
section
/-! DEFINITION. Sys2Proof/Safety.lean: the terms in which claims speak: what a next state is, when a slot fires and what its firing
shows, what a state that keeps its invariants looks like. -/
namespace Sys2Proof
open Sys2Proof.Machine

/-- The outcome is this next state. -/
def Answers (o : Host.Outcome State Fault Refusal) (t : State) : Prop := o = .next t

/-- The memory keeps its canonical form: addresses strictly rising, no byte listed that an unlisted address reads as. -/
abbrev MemoryWf (s : State) : Prop := Map.wf memDefault s.mem = true

/-- The outcome of a step is a next state, neither a fault nor a refusal. -/
def Proceeds (o : Host.Outcome State Fault Refusal) : Prop := ∃ t, o = .next t

/-- The instruction answers a next state, of which `P` holds. -/
def Gives (i : Instr) (s : State) (P : State → Prop) : Prop := ∃ t, exec i s = .next t ∧ P t

/-- The slot at `site` fires an operator: it is ready (R51) and its operands read without a fault. `F` is what the firing holds, `s1`
the state with the cursors of its handles moved. -/
def Fires (s : State) (opc : Nat) (site : Site) (f : OpFields) (F : Firing) (s1 : State) : Prop :=
  s.ready opc site f = true ∧ ∃ i fd, s.instAt site.cell.val = some i ∧ s.feed i site.cell.val site.slot.val = some fd ∧
    s.operands opc site (s.slotNeeds opc site f).1 i fd (s.slotNeeds opc site f).2.cursor = .ok (F, s1)

/-- What issue shows in the firing cell: the pointer stands behind the slot (R52), the slot's iteration counter has advanced (R54), and
the PE fires again from the next cycle. -/
def Issued (s t : State) (F : Firing) : Prop :=
  (t.cell F.cell).ptr = (F.slot + 1) % 16 ∧ (t.cell F.cell).nextFire = F.cyc + 1 ∧
  ((t.cell F.cell).slot F.slot).iter = (((s.cell F.cell).slot F.slot).iter + 1) % 2 ^ 32

/-- Each inbound channel of the feeding cell has lost the tokens the firing consumed, and no more. -/
def Consumed (s t : State) (F : Firing) : Prop :=
  ∀ n, (t.cell F.feed.src).chan n = ((s.cell F.feed.src).chan n).drop (F.cons.filter (fun e => e.1 == n)).length

/-- No inbound channel of the feeding cell has lost a token. -/
def NotConsumed (s t : State) (F : Firing) : Prop := ∀ n, (t.cell F.feed.src).chan n = (s.cell F.feed.src).chan n

/-- A token of a kind and payload is on its way to an outbound channel, due no earlier than the latency says (R53, R184). -/
def TokenSent (t : State) (F : Firing) (n : Nat) (k : Kind) (v : Word) (lat : Nat) : Prop :=
  ∃ x ∈ (t.cell F.feed.src).flight, x.dst = .out n ∧ x.slot = F.slot ∧ F.cyc + lat ≤ x.due ∧ x.val = BitVec.ofNat 64 v.toNat ∧ x.ld = none ∧
    ∃ tok, x.tok = some tok ∧ tok.kind = k ∧ tok.payload = v ∧ tok.ver = (t.cell F.feed.src).active.ver

/-- A result without a token is on its way in the firing cell, due with its latency, or with the slot's latest result where that comes later
(R53, R184). -/
def Flies (s1 t : State) (F : Firing) (d : ResDst) (v : BitVec 64) (ld : Option Late) (fl : Flags) (lat : Nat) : Prop :=
  ∃ x ∈ (t.cell F.cell).flight, x.dst = d ∧ x.slot = F.slot ∧ x.val = v ∧ x.tok = none ∧ x.ld = ld ∧ x.flags = fl ∧ x.due = s1.ownDue F d lat

/-- A result of a kind, word and flags is on its way to the destination (R44, R177): a DONE or POISON reaches a channel only. -/
def ResultSent (s1 t : State) (F : Firing) (k : Kind) (v : Word) (fl : Flags) (lat : Nat) : Prop :=
  match F.f.dst with
  | .out n => TokenSent t F n.val k v lat ∧ (fl ≠ 0 → Flies s1 t F .flagsOnly 0 none fl lat)
  | .reg n => (k = .data ∨ k = .last) → Flies s1 t F (.reg n.val) (BitVec.ofNat 64 v.toNat) none fl lat
  | .handle n => (k = .data ∨ k = .last) →
      Flies s1 t F (.store F.dstOff ((s1.cell F.cell).handle n.val).size ((s1.cell F.cell).handle n.val).swz) (BitVec.ofNat 64 v.toNat) none fl lat
  | .none => fl ≠ 0 → Flies s1 t F .flagsOnly 0 none fl lat

/-- One request has joined the decoupling queue behind the others (R123): its body, stage, place and kind. -/
def Queued (s t : State) (F : Firing) (body : ReqBody) (stage : ReqStage) (p : Place) (k : Kind) : Prop :=
  ∃ r, t.reqs = s.reqs ++ [r] ∧ r.body = body ∧ r.stage = stage ∧ r.addr = p.addr ∧ r.size = p.size ∧ r.swz = p.swz ∧
    r.cell = F.cell ∧ r.slot = F.slot ∧ r.inst = F.inst.id ∧ r.dst = F.f.dst ∧ r.kind = k

/-- Registers, accumulators, FPSTAT, scratchpad, tags and identity of every cell, the memory and the units outside the cells are as
they were: what an operator's issue leaves alone. -/
def Untouched (s t : State) : Prop :=
  (∀ k, (t.cell k).g = (s.cell k).g ∧ (t.cell k).a0 = (s.cell k).a0 ∧ (t.cell k).a1 = (s.cell k).a1 ∧
    (t.cell k).fpstat = (s.cell k).fpstat ∧ (t.cell k).spad = (s.cell k).spad ∧ (t.cell k).tags = (s.cell k).tags ∧
    (t.cell k).narg = (s.cell k).narg ∧ (t.cell k).instId = (s.cell k).instId ∧ (t.cell k).stage = (s.cell k).stage ∧
    (t.cell k).roster = (s.cell k).roster ∧ (t.cell k).shadow = (s.cell k).shadow ∧ (t.cell k).active.op = (s.cell k).active.op ∧
    (t.cell k).active.rt = (s.cell k).active.rt) ∧
  (∀ a, t.memByte a = s.memByte a) ∧ t.sectors = s.sectors ∧ t.ports = s.ports ∧ t.jobs = s.jobs ∧ t.cmds = s.cmds ∧
  t.products = s.products ∧ t.pairs = s.pairs ∧ t.proctor = s.proctor

/-- An instance but for what a firing or a fault of one notes in it: that it has started, when it was last active, its hold, and its first absorption. -/
def Inst.beside (i : Inst) : Inst := { i with started := false, lastActive := 0, hold := none, absorbed := false }

/-- The accumulators of a cell are as they were. -/
def SameAcc (s t : State) (c : Nat) : Prop := (t.cell c).a0 = (s.cell c).a0 ∧ (t.cell c).a1 = (s.cell c).a1

/-- An operator that computes one word: its constructor, opcode, function and latency (R184, R197 to R225). -/
structure AluRow where
  make : Site → OpFields → Instr
  opc : Nat
  alu : AluFn
  lat : Nat

/-- The integer, logic and move operators. -/
def integerRows : List AluRow :=
  [⟨.add, 0x00, aluAdd, 1⟩,
    ⟨.sub, 0x01, aluSub, 1⟩,
    ⟨.mul, 0x02, aluMul, 2⟩,
    ⟨.mulh, 0x03, aluMulh, 2⟩,
    ⟨.mad, 0x04, aluMad, 2⟩,
    ⟨.div, 0x05, aluDiv, 10⟩,
    ⟨.rem, 0x06, aluRem, 10⟩,
    ⟨.min, 0x07, aluMin, 1⟩,
    ⟨.max, 0x08, aluMax, 1⟩,
    ⟨.abs, 0x09, aluAbs, 1⟩,
    ⟨.and, 0x0A, aluAnd, 1⟩,
    ⟨.or, 0x0B, aluOr, 1⟩,
    ⟨.xor, 0x0C, aluXor, 1⟩,
    ⟨.andn, 0x0D, aluAndn, 1⟩,
    ⟨.shl, 0x0E, aluShl, 1⟩,
    ⟨.shr, 0x0F, aluShr, 1⟩] ++
  [⟨.rot, 0x10, aluRot, 1⟩,
    ⟨.clz, 0x11, aluClz, 1⟩,
    ⟨.ffs, 0x12, aluFfs, 1⟩,
    ⟨.popc, 0x13, aluPopc, 1⟩,
    ⟨.brev, 0x14, aluBrev, 1⟩,
    ⟨.bfx, 0x15, aluBfx, 1⟩,
    ⟨.bfi, 0x16, aluBfi, 1⟩,
    ⟨.sel, 0x17, aluSel, 1⟩,
    ⟨.cmp, 0x18, aluCmp, 1⟩,
    ⟨.avg, 0x19, aluAvg, 1⟩,
    ⟨.absd, 0x1A, aluAbsd, 1⟩,
    ⟨.sad, 0x1B, aluSad, 2⟩,
    ⟨.dot4, 0x1C, aluDot4, 2⟩,
    ⟨.addsh, 0x1D, aluAddsh, 1⟩,
    ⟨.move, 0x1E, aluMove, 1⟩,
    ⟨.pack, 0x1F, aluPack, 1⟩]

/-- The floating-point and special-function operators. -/
def floatRows : List AluRow :=
  [⟨.fadd, 0x20, aluFadd, 3⟩,
    ⟨.fsub, 0x21, aluFsub, 3⟩,
    ⟨.fmul, 0x22, aluFmul, 3⟩,
    ⟨.fma, 0x23, aluFma, 3⟩,
    ⟨.fms, 0x24, aluFms, 3⟩,
    ⟨.fnma, 0x25, aluFnma, 3⟩,
    ⟨.fmin, 0x26, aluFmin, 1⟩,
    ⟨.fmax, 0x27, aluFmax, 1⟩,
    ⟨.fabs, 0x28, aluFabs, 1⟩,
    ⟨.fneg, 0x29, aluFneg, 1⟩,
    ⟨.fcmp, 0x2A, aluFcmp, 1⟩,
    ⟨.fclass, 0x2B, aluFclass, 1⟩,
    ⟨.fdiv, 0x2C, aluFdiv, 14⟩,
    ⟨.fsqrt, 0x2D, aluFsqrt, 14⟩,
    ⟨.frcpa, 0x2E, (aluApprox .rcp), 6⟩,
    ⟨.frsqa, 0x2F, (aluApprox .rsq), 6⟩] ++
  [⟨.fexp2a, 0x30, (aluApprox .exp2), 6⟩,
    ⟨.flog2a, 0x31, (aluApprox .log2), 6⟩,
    ⟨.fsinpi, 0x32, (aluApprox .sinpi), 6⟩,
    ⟨.fcospi, 0x33, (aluApprox .cospi), 6⟩,
    ⟨.ftanha, 0x34, (aluApprox .tanh), 6⟩,
    ⟨.fsiga, 0x35, (aluApprox .sig), 6⟩,
    ⟨.cvt, 0x36, aluCvt, 3⟩,
    ⟨.cvts, 0x37, aluCvts, 3⟩,
    ⟨.frnd, 0x38, aluFrnd, 3⟩,
    ⟨.fscale, 0x39, aluFscale, 3⟩,
    ⟨.fdot2, 0x3A, aluFdot2, 3⟩,
    ⟨.fhadd, 0x3B, aluFhadd, 3⟩,
    ⟨.fclamp, 0x3C, aluFclamp, 1⟩,
    ⟨.flerp, 0x3D, aluFlerp, 3⟩]

/-- The packed and quantisation operators. -/
def packedRows : List AluRow :=
  [⟨.qenc, 0x40, aluQenc, 2⟩,
    ⟨.qdec, 0x41, aluQdec, 2⟩,
    ⟨.q8enc, 0x42, aluQ8enc, 2⟩,
    ⟨.q8dec, 0x43, aluQ8dec, 2⟩,
    ⟨.amax, 0x44, aluAmax, 2⟩,
    ⟨.qscale, 0x45, aluQscale, 2⟩,
    ⟨.zcnt, 0x46, aluZcnt, 2⟩,
    ⟨.zmask, 0x47, aluZmask, 2⟩,
    ⟨.lanex, 0x48, aluLanex, 2⟩,
    ⟨.lanei, 0x49, aluLanei, 2⟩,
    ⟨.splat, 0x4A, aluSplat, 2⟩,
    ⟨.widen, 0x4B, aluWiden, 2⟩,
    ⟨.narrow, 0x4C, aluNarrow, 2⟩,
    ⟨.shuf, 0x4D, aluShuf, 2⟩]

/-- A value to be taken late is on its way to the destination (R230, R271). -/
def LateSent (s1 t : State) (F : Firing) (k : Kind) (l : Late) : Prop :=
  match F.f.dst with
  | .out n => ∃ x ∈ (t.cell F.feed.src).flight, x.dst = .out n.val ∧ x.slot = F.slot ∧ x.ld = some l ∧ F.cyc + 2 ≤ x.due ∧
      ∃ tok, x.tok = some tok ∧ tok.kind = k
  | .reg n => Flies s1 t F (.reg n.val) 0 (some l) 0 2
  | .handle n => Flies s1 t F (.store F.dstOff ((s1.cell F.cell).handle n.val).size ((s1.cell F.cell).handle n.val).swz) 0 (some l) 0 2
  | .none => Flies s1 t F .flagsOnly 0 (some l) 0 2

/-- The operators that pass a POISON or DONE on in one way (R374): those of 0x60 to 0x73, 0xA4 to 0xAB and 0xC0 to 0xD3 but `send`. -/
def suppressRows : List ((Site → OpFields → Instr) × Nat) :=
  [(.ldh, 0x60), (.sth, 0x61), (.lds, 0x62), (.sts, 0x63), (.ldr, 0x64), (.str, 0x65), (.ldg, 0x66), (.stg, 0x67), (.pfg, 0x68), (.atomh, 0x69),
    (.cash, 0x6A), (.atomr, 0x6B), (.casr, 0x6C), (.atomg, 0x6D), (.casg, 0x6E), (.fence, 0x6F), (.hseek, 0x70), (.htell, 0x71), (.ldx, 0x72), (.stx, 0x73)] ++
  [(.accz, 0xA4), (.accrd, 0xA5), (.accst, 0xA6), (.accld, 0xA7), (.gspmv, 0xA8), (.gsload, 0xA9), (.gsread, 0xAA), (.gsclr, 0xAB)] ++
  [(.copy, 0xC0), (.copyw, 0xC1), (.gath, 0xC2), (.scat, 0xC3), (.embr, 0xC4), (.subscribe, 0xC5), (.unsub, 0xC6), (.sflush, 0xC7), (.bari, 0xC8),
    (.bara, 0xC9), (.barw, 0xCA), (.ringi, 0xCB), (.ringf, 0xCC), (.ringfP, 0xCC), (.ringr, 0xCD), (.ringrP, 0xCD), (.tenq, 0xCE), (.tlnch, 0xCF),
    (.rgreq, 0xD1), (.lqpush, 0xD2), (.rrpop, 0xD3)]

/-- A load (R229): its constructor, opcode, the element it takes and whether its fields make it a stream load (R232). -/
structure LoadRow where
  make : Site → OpFields → Instr
  opc : Nat
  pick : OpFields → Firing → Pick
  stream : OpFields → Bool

/-- The loads. -/
def loadRows : List LoadRow :=
  [⟨.ldh, 0x60, fun _ _ => .cur, isStreamLoad⟩,
   ⟨.lds, 0x62, fun _ F => .index F.a, fun _ => false⟩,
   ⟨.ldr, 0x64, fun f F => if modCur f then .cur else .index F.a, fun f => modCur f && isStreamLoad f⟩,
   ⟨.ldg, 0x66, fun f F => if modCur f then .cur else .index F.a, fun f => modCur f && isStreamLoad f⟩,
   ⟨.ldx, 0x72, fun f F => if isStreamLoad f then .cur else .packed F.a, isStreamLoad⟩]

/-- A store (R229): its constructor, opcode and the element it writes. -/
structure StoreRow where
  make : Site → OpFields → Instr
  opc : Nat
  pick : OpFields → Firing → Pick

/-- The stores. -/
def storeRows : List StoreRow :=
  [⟨.sth, 0x61, fun _ _ => .cur⟩, ⟨.sts, 0x63, fun _ F => .index F.b⟩,
   ⟨.str, 0x65, fun f F => if modCur f then .cur else .index F.b⟩,
   ⟨.stg, 0x67, fun f F => if modCur f then .cur else .index F.b⟩, ⟨.stx, 0x73, fun _ F => .packed F.b⟩]

/-- A stream-control operator: its constructor, opcode, function, and whether a DONE in an open segment is its fault (R240). -/
structure StreamRow where
  make : Site → OpFields → Instr
  opc : Nat
  fn : StreamFn
  counts : Bool

/-- The stream-control operators, `filt` apart from its flush. -/
def streamRows : List StreamRow :=
  [⟨.gen, 0x80, streamGen, false⟩, ⟨.gen2, 0x81, streamGen2, false⟩, ⟨.cnt, 0x82, streamCnt, true⟩, ⟨.acc, 0x83, streamAcc, true⟩,
   ⟨.scan, 0x84, streamScan, false⟩, ⟨.take, 0x86, streamTake, true⟩, ⟨.skip, 0x87, streamSkip, true⟩, ⟨.rept, 0x88, streamRept, true⟩,
   ⟨.mklast, 0x89, streamMklast, false⟩, ⟨.done, 0x8A, streamDone, false⟩, ⟨.waitd, 0x8B, streamWaitd, false⟩,
   ⟨.iter, 0x8C, streamIter, false⟩, ⟨.trig, 0x8D, streamTrig, false⟩]

/-- What a firing of a stream-control operator shows: the slot's state is the new one, each value it emits is on its way. -/
def StreamShown (t : State) (F : Firing) (o : StreamOut) : Prop :=
  ((t.cell F.cell).slot F.slot).v = o.v ∧ ((t.cell F.cell).slot F.slot).k = o.k ∧ ((t.cell F.cell).slot F.slot).f = o.f ∧
  ((t.cell F.cell).slot F.slot).n = o.n ∧ ((t.cell F.cell).slot F.slot).openSeg = o.openSeg ∧
  ∀ e ∈ o.emits, ∀ n, F.f.dst = .out n → ∃ x ∈ (t.cell F.feed.src).flight, x.dst = .out n.val ∧ x.slot = F.slot ∧
    x.val = BitVec.ofNat 64 e.2.toNat ∧ ∃ tok, x.tok = some tok ∧ tok.kind = e.1 ∧ tok.payload = e.2

/-- One record more waits on a die than waited before, of a code with a first detail and of a job (R346, R350). -/
def OneRecord (s t : State) (d code : Nat) (d0 : BitVec 64) (job : Option Nat) : Prop :=
  (t.dieAt d).records.length = (s.dieAt d).records.length + 1 ∧ ∃ r ∈ (t.dieAt d).records, r.code = code ∧ r.detail0 = d0 ∧ r.job = job

/-- The instance is held for a fault, which a record waiting to be written tells of (R344, R346): under a hold of the fault's code where it was in
none, else the fault has joined its hold (R345). -/
def HeldFor (s t : State) (i : Inst) (code : Nat) (d0 : BitVec 64) : Prop :=
  (∃ h ∈ (t.dieAt i.die).holds, (∃ r ∈ h.recs, r.code = code ∧ r.detail0 = d0 ∧ r.job = some i.job) ∧
    (i.hold = none → h.code = code ∧ h.inst = some i.id ∧ h.detail0 = d0 ∧ ∀ j ∈ t.insts, j.id = i.id → j.hold = some h.hid)) ∧
  OneRecord s t i.die code d0 (some i.job)

/-- No cell has changed but in the cycle from which its PE fires again. -/
def OnlyBusy (s t : State) : Prop := ∀ k, ∃ n, t.cell k = { s.cell k with nextFire := n }

/-- A route entry may step (R245): its instance is resident and runs, and the tokens at the heads named stand under the plane's
version. -/
def EntryReady (s : State) (site : RouteSite) (reads : List PortVc) : Prop :=
  ∃ i, s.instAt site.cell.val = some i ∧ s.entryMayStep i site.cell.val site.entry.val = true ∧
    ∀ p ∈ reads, ∀ t, s.inHead site.cell.val (pvOf p) = some t → t.ver = (s.cell site.cell.val).active.ver

/-- An output has got tokens behind those it had; those for the PE's channel are in flight to it (R51, R185). -/
def OutGot (s t : State) (cell : Nat) (p : PortVc) (toks : List Token) : Prop :=
  let sent := fun (x : State) => ((x.cell cell).flight.filter (fun f => f.dst == .chan p.vc.val)).filterMap Flight.tok
  if p.port.val = 4 then sent t = sent s ++ toks
  else ((t.cell cell).linkQ p.port.val p.vc.val).map LinkTok.tok = ((s.cell cell).linkQ p.port.val p.vc.val).map LinkTok.tok ++ toks

/-- An input has lost its head. -/
def InLost (s t : State) (cell : Nat) (p : PortVc) : Prop :=
  (t.cell cell).inFifo p.port.val p.vc.val = ((s.cell cell).inFifo p.port.val p.vc.val).tail

/-- A synchronisation operator other than `bara` (R300, R302): its constructor, opcode and request. -/
structure SyncRow where
  make : Site → OpFields → Instr
  opc : Nat
  body : Firing → ReqBody

/-- The synchronisation operators but `bara`. -/
def syncRows : List SyncRow :=
  [⟨.bari, 0xC8, fun F => .bari F.a⟩, ⟨.barw, 0xCA, fun F => .barw (immScope F.f) F.a⟩, ⟨.ringi, 0xCB, fun F => .ringi F.a⟩,
   ⟨.ringf, 0xCC, fun _ => .ringf false⟩, ⟨.ringfP, 0xCC, fun _ => .ringf true⟩, ⟨.ringr, 0xCD, fun _ => .ringr false⟩,
   ⟨.ringrP, 0xCD, fun _ => .ringr true⟩]

/-- A Pilot instruction is done: its result stands in rd, x0 reading 0, every other register is as it was, and the pc is past it. -/
def PilotAdvanced (s t : State) (d : Nat) (rd : BitVec 5) (v : Nat) : Prop :=
  (t.pilot d).pc = (s.pilot d).pc + 4 ∧ (t.pilot d).reg rd = (if rd = 0 then 0 else BitVec.ofNat 64 v) ∧
  ∀ r, r ≠ rd → (t.pilot d).reg r = (s.pilot d).reg r

/-- A record of a code with a first detail waits to be written on a die, behind those that waited. -/
def Recorded (s t : State) (d code d0 : Nat) : Prop :=
  ∃ r, (t.dieAt d).records = (s.dieAt d).records ++ [r] ∧ r.code = code ∧ r.detail0 = BitVec.ofNat 64 d0

/-- A source's commands reach its sector's loader: they are accepted, none is discarded, no LIT came before, and those of the Timetable are of no
stream of a resident instance, at whose last command the Timetable does more. -/
def LoaderTakes (s : State) (k : Nat) (src : LoadSource) : Prop :=
  s.loaderAccepts k src = true ∧ (s.sector k).loader.discarding = [] ∧ (s.sector k).loader.lit = [] ∧
  (src = .timetable → (s.sector k).loader.tt = none)

/-- A request of the decoupling queue has been answered with a value. -/
def Replied (t : State) (id v : Nat) : Prop := ∃ q, t.req id = some q ∧ q.stage = .answered ∧ q.result = BitVec.ofNat 64 v

/-- A FACT write of a die has ended with a result: 0 DONE, 1 REFUSED, 2 BADID (R351). -/
def FactEnded (s t : State) (d res : Nat) : Prop := (t.dieAt d).factRes = res ∧ (t.dieAt d).factDone = ((s.dieAt d).factDone + 1) % 2 ^ 32

/-- No request waits in the decoupling queue. -/
def NoneWaits (s : State) : Prop := ∀ r ∈ s.reqs, r.stage ≠ .waiting

/-- A request of a resident instance, issued, in a sector that runs. -/
def Asked (s : State) (id : Nat) (r : Req) : Prop :=
  s.req id = some r ∧ r.stage = .issued ∧ s.frozen = false ∧ s.sectorRuns (sectorOfCell r.cell) = true

/-- An engine that reads n bytes of one sector at a virtual address finds these: the page is in its sector's cache, the bytes are there and correctable, and
no earlier value of them is kept. -/
def Readable (s : State) (x : EngCtx) (va n : Nat) (l : List Byte) : Prop :=
  ∃ pa, s.tlbLook x.sector x.asid va .load = .ok pa ∧ s.paPresent pa = true ∧ paIsHost pa = false ∧ paPackage pa = s.package ∧ s.memBad pa = false ∧
    l = s.memList pa n ∧ ∀ k, k < n → Map.find s.hist ((pa + k) / 8) = none

/-- An engine may write at a virtual address, and this is where. -/
def Writable (s : State) (x : EngCtx) (va pa : Nat) : Prop :=
  s.tlbLook x.sector x.asid va .store = .ok pa ∧ s.paPresent pa = true ∧ paIsHost pa = false ∧ paPackage pa = s.package

/-- One rounded addition of each lane in use (R276). -/
def addLanes (nv : Nat) (sums : List Word) (t : Nat → Ex) : List Word :=
  (List.range 4).map (fun l =>
    if l < nv then BitVec.ofNat 32 (roundTo fmtF32 .rne false (Ex.add .rne (fval fmtF32 (sums.getD l 0).toNat) (t l)).1).1 else sums.getD l 0)

/-- What waits for a command has been answered with a value. -/
def CmdAnswered (s t : State) (b : ReqBody) (v : Nat) : Prop := ∀ r ∈ s.reqs, r.body = b → r.stage = .waiting → r.answered v s.now ∈ t.reqs

/-- A command of an engine that is active in a sector that runs. -/
def AtWork (s : State) (id : Nat) (c : Cmd) : Prop := s.cmd id = some c ∧ s.cmdRuns c = true

/-- The command stands with a property. -/
def CmdIs (t : State) (id : Nat) (P : Cmd → Prop) : Prop := ∃ c, t.cmd id = some c ∧ P c

end Sys2Proof
end

