-- ==== Sys2Proof/WellFormed.lean ====
section
/-! DEFINITION. Sys2Proof/WellFormed.lean: which instructions the device accepts by their own fields: the checks of an operator
word (R197 to R200, R364 item 1), of a route entry (R181, R182, R246) and of a Pilot word (R313). What depends on the rest of a
plane or patch is checked by SEAL (Machine/SealCheck.lean). -/
namespace Sys2Proof
open Sys2Proof.Machine

/-- An operator's fields: type, modifiers, operand and destination uses, no channel consumed twice, immediate. Handles named by
selectors are judged with the plane. -/
def OpFields.wf (opc : Nat) (f : OpFields) : Bool :=
  match sigOf opc f.ty f.mod.toNat f.imm.toNat with
  | none => false
  | some g =>
    g.tys f.ty && modOk opc f.ty f.mod.toNat g &&
    useOk g.a (srcCode f.sa) && useOk g.b (srcCode f.sb) && useOk g.c (srcCode f.sc) &&
    !consumedBefore (srcCode f.sb) [srcCode f.sa] && !consumedBefore (srcCode f.sc) [srcCode f.sa, srcCode f.sb] &&
    dstOk g.d (dstCode f.dst) && immOk opc f.ty f.mod.toNat (srcCode f.sa) (srcCode f.sb) (srcCode f.sc) f.imm.toNat g

/-- A route entry's fields: used pairs name a port below 6 and a VC of 0 to 23, unused ones hold port 7, VC 0; ARG is defined; no
input or output stands twice (R181, R182, R246). -/
def RouteFields.wf (rop : Nat) (f : RouteFields) : Bool :=
  let pvs := [f.a, f.p, f.x, f.y].map (fun p => (p.port.val, p.vc.val))
  let w := (encodeRouteFields rop f).toNat
  (List.zip (routeUse rop) pvs).all (fun e => match e.1 with
    | none => decide (e.2 = (7, 0))
    | some _ => decide (e.2.1 < 6) && decide (e.2.2 ≤ 23)) &&
  argOk rop f.arg.toNat f.x.vc.val && !hasDup (routeIns w) && !hasDup (routeOuts w)

/-- MOD[2] tells the producer forms of `ringf` and `ringr` from the consumer forms (R302). -/
def Instr.ringForm : Instr → Bool
  | .ringf _ f => !f.mod.getLsbD 2
  | .ringr _ f => !f.mod.getLsbD 2
  | .ringfP _ f => f.mod.getLsbD 2
  | .ringrP _ f => f.mod.getLsbD 2
  | _ => true

/-- A Pilot word's unused register fields are 0 (R313). -/
def Instr.pilotForm : Instr → Bool
  | .xgQpop _ _ _ rs2 => rs2 == 0
  | .xgQpeek _ _ _ rs2 => rs2 == 0
  | .xgWfe _ _ _ rs2 => rs2 == 0
  | .xgWfeTimeout _ _ _ rs2 => rs2 == 0
  | .xgEvsig _ rd _ _ => rd == 0
  | _ => true

/-- A configuration write outside a LIT names a cell other than the control code 0xFE (R65, R66). -/
def Instr.configForm : Instr → Bool
  | .cfgWrite _ _ cell _ _ => cell != 0xFE
  | _ => true

/-- The instruction is well formed. An event of the part has no fields to check. -/
def Instr.wellFormed (i : Instr) : Bool :=
  (match operatorFields i with
    | some (opc, _, f) => f.wf opc
    | none => true) &&
  (match routerFields i with
    | some (rop, _, f) => f.wf rop
    | none => true) &&
  i.ringForm && i.pilotForm && i.configForm

end Sys2Proof
end

