-- ==== Sys2Proof/Certificates/Slice0/Obligations.lean ====
section
/-! DEFINITION. Sys2Proof/Certificates/Slice0/Obligations.lean: the statements for the provers. -/
open Sys2Proof Sys2Proof.Machine

/-! Encoding. -/

/-- R173, R175, R177, R183: the decoder reads back every operator from its word, whatever its fields. -/
def Obligations.OperatorWordsRoundTrip : Prop :=
  ∀ (i : Instr) (opc : Nat) (site : Site) (f : OpFields), operatorFields i = some (opc, site, f) → i.ringForm = true →
    decodeOperator site (encodeFields opc f) = .ok i

/-- R181, R182: the decoder reads back every router operator from its route entry. -/
def Obligations.RouteEntriesRoundTrip : Prop :=
  ∀ (i : Instr) (rop : Nat) (site : RouteSite) (f : RouteFields), routerFields i = some (rop, site, f) →
    decodeRoute site (encodeRouteFields rop f) = .ok i

/-- R65, R66: the decoder reads back every configuration command, a write of a LIT's cell index included; R313, R314: and every Pilot
instruction, given the operation number the running Pilot holds. -/
def Obligations.CommandAndPilotWordsRoundTrip : Prop :=
  (∀ (sector : Fin 64) (source : LoadSource) (v : BitVec 16),
    decodeConfig sector source false (encodeConfigWord 0xFE 0 v) = .ok (.cfgNop sector source v) ∧
    decodeConfig sector source false (encodeConfigWord 0xFE 1 v) = .ok (.cfgBegin sector source v) ∧
    decodeConfig sector source false (encodeConfigWord 0xFE 2 v) = .ok (.cfgOrigin sector source v) ∧
    decodeConfig sector source false (encodeConfigWord 0xFE 3 v) = .ok (.cfgBank sector source v) ∧
    decodeConfig sector source false (encodeConfigWord 0xFE 4 v) = .ok (.cfgSeal sector source v) ∧
    decodeConfig sector source false (encodeConfigWord 0xFE 5 v) = .ok (.cfgLit sector source v) ∧
    decodeConfig sector source false (encodeConfigWord 0xFE 6 v) = .ok (.cfgSwap sector source v)) ∧
  (∀ (sector : Fin 64) (source : LoadSource) (lit : Bool) (cell field : BitVec 8) (v : BitVec 16), (cell ≠ 0xFE ∨ lit = true) →
    decodeConfig sector source lit (encodeConfigWord cell field v) = .ok (.cfgWrite sector source cell field v)) ∧
  (∀ (die : Fin 4) (op : Nat) (rd rs1 rs2 : BitVec 5),
    decodePilot die op (encodePilotWord 0 rd rs1 0) = .ok (.xgQpop die rd rs1 0) ∧
    decodePilot die op (encodePilotWord 1 rd rs1 0) = .ok (.xgQpeek die rd rs1 0) ∧
    decodePilot die op (encodePilotWord 2 rd rs1 rs2) = .ok (.xgRpush die rd rs1 rs2) ∧
    decodePilot die 0 (encodePilotWord 3 rd rs1 rs2) = .ok (.xgGsetRead die rd rs1 rs2) ∧
    decodePilot die 1 (encodePilotWord 3 rd rs1 rs2) = .ok (.xgGsetSetexp die rd rs1 rs2) ∧
    decodePilot die 2 (encodePilotWord 3 rd rs1 rs2) = .ok (.xgGsetSetbase die rd rs1 rs2) ∧
    decodePilot die 3 (encodePilotWord 3 rd rs1 rs2) = .ok (.xgGsetOpen die rd rs1 rs2) ∧
    decodePilot die 4 (encodePilotWord 3 rd rs1 rs2) = .ok (.xgGsetClose die rd rs1 rs2) ∧
    decodePilot die op (encodePilotWord 4 rd rs1 rs2) = .ok (.xgTlnch die rd rs1 rs2) ∧
    decodePilot die op (encodePilotWord 5 rd rs1 rs2) = .ok (.xgCfgw die rd rs1 rs2) ∧
    decodePilot die op (encodePilotWord 6 rd rs1 0) = .ok (.xgWfe die rd rs1 0) ∧
    decodePilot die op (encodePilotWord 7 0 rs1 rs2) = .ok (.xgEvsig die 0 rs1 rs2))

/-- R173, R181: a word the decoder accepts is the word its instruction encodes to, so no two words are one operator. -/
def Obligations.DecodedWordsEncodeBack : Prop :=
  (∀ (site : Site) (w : BitVec 64) (i : Instr), decodeOperator site w = .ok i →
    ∃ opc f, operatorFields i = some (opc, site, f) ∧ encodeFields opc f = w ∧ i.ringForm = true) ∧
  (∀ (site : RouteSite) (w : BitVec 48) (i : Instr), decodeRoute site w = .ok i →
    ∃ rop f, routerFields i = some (rop, site, f) ∧ encodeRouteFields rop f = w)

/-- Words written out from the encodings of R173 to R183, R181, R66 and R313 decode to the instructions they stand for. -/
def Obligations.WrittenOutWordsDecode : Prop :=
  -- mad.i32 i0, k1, g2 -> o3: OPC 0x04, TY 0, MOD 0, SA 0x00, SB 0x81, SC 0x42, DST 0x03, IMM 0x0000
  decodeOperator ⟨0, 0⟩ 0x0400008142030000 = .ok (.mad ⟨0, 0⟩ ⟨.i32, 0, .chan 0, .konst 1, .reg 2, .out 3, 0⟩) ∧
  -- route L.5 to E.7: ROP 1, A port 4 VC 5, P port 7 VC 0, X port 1 VC 7, Y port 7 VC 0, ARG 0
  decodeRoute ⟨0, 0⟩ 0x185E027E0000 = .ok (.route ⟨0, 0⟩ ⟨⟨4, 5⟩, ⟨7, 0⟩, ⟨1, 7⟩, ⟨7, 0⟩, 0⟩) ∧
  -- BEGIN of a copy of the active planes, 4 wide, 2 high
  decodeConfig 0 .timetable false 0xFE014031 = .ok (.cfgBegin 0 .timetable 0x4031) ∧
  -- xg.rpush x5, x6, x7
  decodePilot 0 0 0x0073228B = .ok (.xgRpush 0 5 6 7)

/-! The step. -/

/-- R22, R52, R65, R370: a step runs the instruction its turn's agent takes, once the turn's time has passed: the slot a PE fires, a route
entry's operator, a loader's next command, a Pilot's word, an event. A token of another version at a head is a fault first. The Timetable's command, where the loader's queue is
empty, is the next of its stream, an ORIGIN naming the patch placed. The model's choice: the base set of a Pilot's words outside custom-0 is PRESUMED (log 22); the next turn is
the next listed, behind an access of the host that a freeze held up (log 68 DESIGN CHOICE, log 103 DEDUCED). -/
def Obligations.StepRunsDecodedInstruction : Prop :=
  (∀ (s s0 : State) (u : Turn), s.nextTurn = (u, s0) →
    let a := s0.advance u
    let g := u.agent
    (∀ cell slot i, g = .pe cell → a.staleFault cell = none → a.peSlot cell = some slot → a.slotInstr cell slot = some i → step s = exec i a) ∧
    (∀ cell i k x, g = .pe cell → a.runsAt cell = some i → a.staleSlot cell = some (k, x) →
      step s = .next (a.fireFault i cell k ⟨0x0131, 1, false, x.bits, 0⟩)) ∧
    (∀ cell e i, g = .entry cell e → a.staleEntry cell e = none → a.entryInstr cell e = some i → step s = exec i a) ∧
    (∀ cell e t, g = .entry cell e → a.staleEntry cell e = some t → step s = .next t) ∧
    (∀ (k : Fin 64) src w r i, g = .loader k.val → let b := a.bringCommand k.val
      (b.sector k.val).loader.queue = (src, w) :: r → b.loaderTakes k.val src (b.isBegin k.val src (w.toNat / 2 ^ 24) (bitsN w.toNat 23 16)) = true →
      decodeConfig k src (b.isLit k.val src) w = .ok i →
      step s = exec i (b.updLoader k.val (fun l => { l with queue := r }))) ∧
    (∀ (k : Fin 64) x j jb w i, g = .loader k.val → let b := a.bringCommand k.val
      (b.sector k.val).loader.queue = [] → b.ttSends k.val = some (x, j, jb) → b.ttFetch j jb x = .ok w →
      b.loaderTakes k.val .timetable (b.isControl k.val .timetable w 1) = true → b.isControl k.val .timetable w 4 = false →
      decodeConfig k .timetable (b.isLit k.val .timetable)
        (BitVec.ofNat 32 (if b.isControl k.val .timetable w 2 then w / 65536 * 65536 + j.y0 * 256 + j.x0 else w)) = .ok i →
      step s = exec i b) ∧
    (∀ (d : Fin 4), g = .pilot d.val → a.pilotRuns d.val = true → a.pilotInterrupt d.val = false →
      a.pilotPresent (a.pilot d.val).pc.toNat 2 = true → a.pilotPresent (a.pilot d.val).pc.toNat 4 = true →
      a.pilotFetchBad (a.pilot d.val).pc.toNat 2 = false → a.pilotFetchBad (a.pilot d.val).pc.toNat 4 = false →
      let w := a.pilotWordAt d.val
      (∀ i, bitsN w.toNat 6 0 = 0x0B → decodePilot d (bitsN (a.pilotReg d.val (BitVec.ofNat 5 (bitsN w.toNat 24 20))) 11 8) w = .ok i →
        ((∀ rd rs1 rs2, i ≠ .xgWfe d rd rs1 rs2) ∨ (a.pilot d.val).wfeSince = none → step s = exec i a) ∧
        (∀ rd rs1 rs2 t, i = .xgWfe d rd rs1 rs2 → (a.pilot d.val).wfeSince = some t → a.pilotReg d.val rs1 ≠ 0 →
          t + pilotUnits (a.pilotReg d.val rs1) ≤ a.now → (a.pilot d.val).event = [] → (a.dieAt d.val).meip = false →
          step s = exec (.xgWfeTimeout d rd rs1 (BitVec.ofNat 5 (bitsN w.toNat 24 20))) a)) ∧
      (bitsN w.toNat 1 0 = 3 → bitsN w.toNat 6 0 ≠ 0x0B → step s = .next (a.rvExec d.val 4 w.toNat)) ∧
      (∀ x, bitsN w.toNat 1 0 ≠ 3 → expandC (w.toNat % 65536) = some x → step s = .next (a.rvExec d.val 2 x))) ∧
    (∀ i, g = .event i → encode i = none → step s = exec i a)) ∧
  (∀ (s : State) (u : Turn) (rest : List Turn),
    (s.turns = u :: rest → (s.frozen = true ∨ s.deferred = []) → s.nextTurn = (u, { s with turns := rest })) ∧
    (s.frozen = false → s.deferred = u :: rest → s.nextTurn = (u, { s with deferred := rest })))

/-! Memory's canonical form. -/

/-- The reset state's memory is in canonical form, and every byte of it reads 0: the model's choice, which no rule states (log 6). -/
def Obligations.ResetMemoryCanonical : Prop := MemoryWf State.reset ∧ ∀ a, State.reset.memByte a = 0

/-- Every step keeps the memory's canonical form, whatever the state: equal memories are equal data. -/
def Obligations.StepKeepsMemoryCanonical : Prop :=
  ∀ s t, MemoryWf s → step s = .next t → MemoryWf t

/-- R8: n bytes written at an address are read back there, little-endian, and every byte outside them is as it was. -/
def Obligations.MemoryReadAfterWrite : Prop :=
  ∀ (s : State) (a v n : Nat), (s.memWrite a v n).memRead a n = v % 2 ^ (8 * n) ∧
    ∀ x, (x < a ∨ a + n ≤ x) → (s.memWrite a v n).memByte x = s.memByte x

/-! Operators that compute one word. -/

/-- What an operator of a table computes and sends when it fires: result, issue and consumption. -/
def AluRowFires (row : AluRow) : Prop :=
  ∀ (site : Site) (f : OpFields) (s : State) (F : Firing) (s1 : State), Fires s row.opc site f F s1 →
    Gives (row.make site f) s (fun t => Issued s t F ∧ Consumed s t F ∧
      (F.works = true → ResultSent s1 t F F.kind (row.alu f F.a F.b F.c).1 ((row.alu f F.a F.b F.c).2 ||| F.flags) row.lat) ∧
      (F.kind = .done → ResultSent s1 t F .done 0 0 row.lat) ∧ (F.kind = .poison → ResultSent s1 t F .poison F.pay 0 row.lat))

/-- R197 to R225, R184, R44: every integer, logic, move, floating-point, special-function, packed and quantisation operator, on a ready slot whose
operands read without a fault, sends its result with the latency of its row; a DONE or POISON operand computes nothing and passes its kind.
Forms that complete here: `add`, `sub`, `mul`, `mulh`, `mad`, `div`, `rem`, `min`, `max`, `abs`, `and`, `or`, `xor`, `andn`, `shl`, `shr`, `rot`, `clz`, `ffs`,
`popc`, `brev`, `bfx`, `bfi`, `sel`, `cmp`, `avg`, `absd`, `sad`, `dot4`, `addsh`, `move`, `pack`, `fadd`, `fsub`, `fmul`, `fma`, `fms`, `fnma`, `fmin`, `fmax`,
`fabs`, `fneg`, `fcmp`, `fclass`, `fdiv`, `fsqrt`, `frcpa`, `frsqa`, `fexp2a`, `flog2a`, `fsinpi`, `fcospi`, `ftanha`, `fsiga`, `cvt`, `cvts`, `frnd`, `fscale`,
`fdot2`, `fhadd`, `fclamp`, `flerp`, `qenc`, `qdec`, `q8enc`, `q8dec`, `amax`, `qscale`, `zcnt`, `zmask`, `lanex`, `lanei`, `splat`, `widen`, `narrow`, `shuf`. -/
def Obligations.ComputingOperatorsComplete : Prop :=
  ∀ row ∈ integerRows ++ floatRows ++ packedRows, AluRowFires row

/-- R51, R53, R123: the frame of the operators that compute one word. Whatever the path to a next state (a firing, a wait or a taken
fault), no register, accumulator, flag, scratchpad byte, tag, configuration bank, byte of memory or unit outside the cell changes at
issue: results land later (ResultsLand). No handle, register configuration, job, instance or Pilot changes but by the firing itself: of a handle only CUR
moves, the instance only notes that it runs or is held. -/
def Obligations.ComputingOperatorsFrame : Prop :=
  ∀ row ∈ integerRows ++ floatRows ++ packedRows, ∀ (site : Site) (f : OpFields) (s t : State),
    exec (row.make site f) s = .next t → Untouched s t ∧ t.reqs = s.reqs ∧
      (∀ k n, { (t.cell k).handle n with cur := 0 } = { (s.cell k).handle n with cur := 0 }) ∧ (∀ d, (t.dieAt d).pilot = (s.dieAt d).pilot) ∧
      t.insts.map Inst.beside = s.insts.map Inst.beside

/-- R201, R83: with MOD 0, add, sub and mul of i32 give the exact result reduced modulo 2^32 and no flag; add of i8x4 adds its lanes on their own. -/
def Obligations.IntegerArithmeticWraps : Prop :=
  (∀ (f : OpFields) (a b c : Word), f.ty = .i32 → f.mod = 0 →
    (aluAdd f a b c).1 = a + b ∧ (aluSub f a b c).1 = a - b ∧ (aluMul f a b c).1 = a * b ∧
    (aluAdd f a b c).2 = 0 ∧ (aluSub f a b c).2 = 0 ∧ (aluMul f a b c).2 = 0) ∧
  (∀ (f : OpFields) (a b c : Word), f.ty = .i8x4 → f.mod = 0 → ∀ l, l < 4 →
    BitVec.extractLsb' (8 * l) 8 (aluAdd f a b c).1 = BitVec.extractLsb' (8 * l) 8 a + BitVec.extractLsb' (8 * l) 8 b)

/-- R202: `div` and `rem` of every integer type, lane by lane, as exact integers. By zero the quotient is all ones and the remainder the dividend, SAT not
consulted and no flag; otherwise the quotient goes toward zero and the remainder has the dividend's sign. Only the most negative value by -1 overflows: it
wraps, or saturates with IS. -/
def Obligations.DivisionRule : Prop :=
  (∀ f : OpFields, (f.wf 0x05 = true → tyIsInt f.ty = true) ∧ (f.wf 0x06 = true → tyIsInt f.ty = true ∧ f.mod.getLsbD 3 = false)) ∧
  ∀ (f : OpFields) (a b c : Word), tyIsInt f.ty = true →
    let w := tyWidth f.ty
    let num := fun (x : Word) (l : Nat) => if tySigned f.ty then (x.extractLsb' (w * l) w).toInt else ((x.extractLsb' (w * l) w).toNat : Int)
    let tops := fun (l : Nat) => tySigned f.ty = true ∧ num a l = -(2 ^ (w - 1) : Int) ∧ num b l = -1
    (∀ l, l < tyLanes f.ty →
      (num b l = 0 → (aluDiv f a b c).1.extractLsb' (w * l) w = BitVec.allOnes w ∧
        (aluRem f a b c).1.extractLsb' (w * l) w = a.extractLsb' (w * l) w) ∧
      (num b l ≠ 0 → (aluRem f a b c).1.extractLsb' (w * l) w = BitVec.ofInt w (num a l - (num a l).tdiv (num b l) * num b l)) ∧
      (num b l ≠ 0 → (f.mod.getLsbD 3 = false ∨ ¬ tops l) →
        (aluDiv f a b c).1.extractLsb' (w * l) w = BitVec.ofInt w ((num a l).tdiv (num b l))) ∧
      (f.mod.getLsbD 3 = true → tops l → (aluDiv f a b c).1.extractLsb' (w * l) w = BitVec.ofInt w (2 ^ (w - 1) - 1))) ∧
    (aluRem f a b c).2 = 0 ∧
    (aluDiv f a b c).2 = (if f.mod.getLsbD 3 = true ∧ ∃ l, l < tyLanes f.ty ∧ tops l then flagIS else 0)

/-- R52: the PE fires the first ready slot from its pointer on, cyclically; the pointer is 0 when an instance starts and stands behind the slot fired; consumed
operands lose their heads, peeked ones keep theirs; nothing of the PE is ready again in that cycle. -/
def Obligations.FiringOrderRule : Prop :=
  (∀ (s : State) (cell k : Nat), s.peSlot cell = some k → ∃ d, d < 16 ∧ k = ((s.cell cell).ptr + d) % 16 ∧ s.slotReady cell k = true ∧
    ∀ e, e < d → s.slotReady cell (((s.cell cell).ptr + e) % 16) = false) ∧
  (∀ (s : State) (cell : Nat), s.peSlot cell = none → ∀ k, k < 16 → s.slotReady cell k = false) ∧
  (∀ (c : Cell) (gid stage narg : Nat), (c.start gid stage narg).ptr = 0) ∧
  ∀ row ∈ integerRows ++ floatRows ++ packedRows, ∀ (site : Site) (f : OpFields) (s : State) (F : Firing) (s1 : State), Fires s row.opc site f F s1 →
    Gives (row.make site f) s (fun t => (t.cell site.cell.val).ptr = (site.slot.val + 1) % 16 ∧ Consumed s t F ∧
      (∀ e ∈ F.cons, ∃ src, (src = F.f.sa ∨ src = F.f.sb ∨ src = F.f.sc) ∧ srcChan src = some (e.1, true)) ∧
      ∀ opc site2 f2, site2.cell = site.cell → t.ready opc site2 f2 = false)

/-- R54: the slot iteration counter is 0 when an instance starts and after a plane swap, and a firing adds 1 modulo 2^32; selector 0xEA reads it as it stands before
the firing's own increment. A replicated copy reads its element's index instead (R56). -/
def Obligations.SlotCounterRule : Prop :=
  (∀ (c : Cell) (n gid stage narg cyc : Nat), ((c.start gid stage narg).slot n).iter = 0 ∧ ((c.flip cyc).slot n).iter = 0) ∧
  (∀ (s : State) (x : ReadCtx) (u : Use), x.feed.n ≤ 1 → ∃ o, s.readSrc x u .iter = .ok (o, s) ∧
    o.val = BitVec.ofNat 32 ((s.cell x.cell).slot x.slot).iter) ∧
  srcOfCode 0xEA = some .iter ∧
  (∀ row ∈ integerRows ++ floatRows ++ packedRows, ∀ (site : Site) (f : OpFields) (s : State) (F : Firing) (s1 : State), Fires s row.opc site f F s1 →
    Gives (row.make site f) s (fun t =>
      ((t.cell site.cell.val).slot site.slot.val).iter = (((s.cell site.cell.val).slot site.slot.val).iter + 1) % 2 ^ 32))

/-- R53, R177, R93, R115, R228, R271, R272: a register result delivered in its cell sets that register and no other, and its flags are ORed into FPSTAT; a store changes
the scratchpad bytes it names and no other, its flags on their way to FPSTAT; `accz` zeroes its bank and leaves the other; an atomic whose banks grant it takes
the old word as its value and writes the new one in the same access. A token enters its outbound channel, or the PE's channel it comes to, and nothing else changes; `swreg`'s
value becomes FPSTAT; `accst` writes every element of its bank, rounded as it says, and `accld` loads or adds every element, both at once, flags on their way. -/
def Obligations.ResultsLand : Prop :=
  (∀ (s : State) (c cyc : Nat) (x : Flight) (n : Nat), x.dst = .reg n →
    let t := s.deliver c x cyc
    (t.cell c).reg n = BitVec.ofNat 32 x.val.toNat ∧ (∀ k, k ≠ n → (t.cell c).reg k = (s.cell c).reg k) ∧
    (t.cell c).fpstat = (s.cell c).fpstat ||| x.flags ∧ (t.cell c).spad = (s.cell c).spad ∧ SameAcc s t c ∧ (t.cell c).tags = (s.cell c).tags ∧
    (∀ k, k ≠ c → t.cell k = s.cell k) ∧ (∀ a, t.memByte a = s.memByte a)) ∧
  (∀ (s : State) (c cyc : Nat) (x : Flight) (n : Nat) (tok : Token), x.dst = .out n → x.tok = some tok → x.flags = 0 →
    let t := s.deliver c x cyc
    let sent := tok.retag tok.kind (if tok.kind = .data ∨ tok.kind = .last then BitVec.ofNat 32 x.val.toNat else tok.payload)
    (if n < 24 then (t.cell c).inFifo 4 n = (s.cell c).inFifo 4 n ++ [sent] ∧ (t.cell c).pin = (s.cell c).pin
      else (t.cell c).chan n = (s.cell c).chan n ++ [sent] ∧ (t.cell c).rin = (s.cell c).rin) ∧
    (t.cell c).g = (s.cell c).g ∧ (t.cell c).spad = (s.cell c).spad ∧ SameAcc s t c ∧ (t.cell c).tags = (s.cell c).tags ∧
    (t.cell c).fpstat = (s.cell c).fpstat ∧ (∀ k, k ≠ c → t.cell k = s.cell k) ∧ (∀ a, t.memByte a = s.memByte a)) ∧
  (∀ (s : State) (c cyc : Nat) (x : Flight) (n : Nat) (tok : Token), x.dst = .chan n → x.tok = some tok → x.flags = 0 →
    s.deliver c x cyc = s.updCell c (fun z => z.setChan n (z.chan n ++ [tok]))) ∧
  (∀ (s : State) (c cyc : Nat) (x : Flight), x.dst = .fpstat →
    let t := s.deliver c x cyc
    (t.cell c).fpstat = BitVec.ofNat 6 x.val.toNat ∧ (t.cell c).g = (s.cell c).g ∧ (t.cell c).spad = (s.cell c).spad ∧ SameAcc s t c ∧
    (∀ k, k ≠ c → t.cell k = s.cell k) ∧ (∀ a, t.memByte a = s.memByte a)) ∧
  (∀ (s : State) (c cyc bank off pitch swz esz : Nat) (mod : BitVec 4) (x : Flight), x.dst = .accStore bank off pitch swz esz mod → x.flags = 0 →
    let t := s.deliver c x cyc
    let at_ := fun (p : Nat) => off + p / 8 * pitch + p % 8 * 2 ^ esz
    let fl := (List.range 32).foldl (fun (a : Flags) p => a ||| ((s.cell c).accOut bank p esz mod).2) flagNone
    (t.cell c).spad = ((List.range 32).foldl (fun (z : Cell) p => z.putBytes swz (at_ p) ((s.cell c).accOut bank p esz mod).1 (2 ^ esz)) (s.cell c)).spad ∧
    (∀ b, (∀ p i, p < 32 → i < 2 ^ esz → b ≠ spadKey swz (at_ p + i)) → Map.get 0 (t.cell c).spad b = Map.get 0 (s.cell c).spad b) ∧
    (fl ≠ 0 → ⟨cyc, 0, .flagsOnly, 0, none, none, fl, [], 0⟩ ∈ (t.cell c).flight) ∧ (t.cell c).g = (s.cell c).g ∧ SameAcc s t c ∧
    (t.cell c).tags = (s.cell c).tags ∧ (∀ k, k ≠ c → t.cell k = s.cell k) ∧ (∀ a, t.memByte a = s.memByte a)) ∧
  (∀ (s : State) (c cyc bank off pitch swz : Nat) (add : Bool) (x : Flight), x.dst = .accLoad bank off pitch swz add → x.flags = 0 → bank < 2 →
    let t := s.deliver c x cyc
    (∀ p, p < 32 → let v := (s.cell c).bytes swz (off + p / 8 * pitch + p % 8 * 4) 4
      (add = false → (t.cell c).acc bank p = BitVec.ofNat 32 v) ∧
      (add = true → (t.cell c).acc bank p = BitVec.ofNat 32 (roundTo fmtF32 .rne false
        (Ex.add .rne (fval fmtF32 ((s.cell c).acc bank p).toNat) (fval fmtF32 v)).1).1) ∧
      (t.cell c).acc (1 - bank) p = (s.cell c).acc (1 - bank) p) ∧
    (t.cell c).g = (s.cell c).g ∧ (t.cell c).spad = (s.cell c).spad ∧ (t.cell c).tags = (s.cell c).tags ∧
    (∀ k, k ≠ c → t.cell k = s.cell k) ∧ (∀ a, t.memByte a = s.memByte a)) ∧
  (∀ (s : State) (c cyc : Nat) (x : Flight), x.dst = .flagsOnly →
    let t := s.deliver c x cyc
    (t.cell c).fpstat = (s.cell c).fpstat ||| x.flags ∧ (t.cell c).g = (s.cell c).g ∧ (t.cell c).spad = (s.cell c).spad ∧
    (∀ k, k ≠ c → t.cell k = s.cell k) ∧ (∀ a, t.memByte a = s.memByte a)) ∧
  (∀ (s : State) (c cyc off size swz : Nat) (x : Flight), (x.dst = .store off size swz ∨ x.dst = .write off size swz) →
    let t := s.deliver c x cyc
    (t.cell c).spad = ((s.cell c).putBytes swz off x.val.toNat size).spad ∧
    (∀ b, (∀ i, i < size → b ≠ spadKey swz (off + i)) → Map.get 0 (t.cell c).spad b = Map.get 0 (s.cell c).spad b) ∧
    (x.flags ≠ 0 → ⟨cyc, 0, .flagsOnly, 0, none, none, x.flags, [], 0⟩ ∈ (t.cell c).flight) ∧ (t.cell c).fpstat = (s.cell c).fpstat ∧
    (t.cell c).g = (s.cell c).g ∧ SameAcc s t c ∧ (t.cell c).tags = (s.cell c).tags ∧ (∀ k, k ≠ c → t.cell k = s.cell k) ∧ (∀ a, t.memByte a = s.memByte a)) ∧
  (∀ (s : State) (c cyc b : Nat) (x : Flight), x.dst = .accZero b → b < 2 →
    let t := s.deliver c x cyc
    (∀ p, (t.cell c).acc b p = 0 ∧ (t.cell c).acc (1 - b) p = (s.cell c).acc (1 - b) p) ∧
    (t.cell c).g = (s.cell c).g ∧ (t.cell c).spad = (s.cell c).spad ∧ (∀ a, t.memByte a = s.memByte a)) ∧
  (∀ (s : State) (c i z k off swz : Nat) (op : RmwOp) (x : Flight), s.streamFull z off 4 = false → (s.askWords z 3 k (accessWords swz off 4)).1 = true →
    let t := s.takeLate c i x (.rmw z k off swz op)
    let old := (s.cell z).bytes swz off 4
    (t.cell z).spad = (match op.new (BitVec.ofNat 32 old) with
      | some w => ((s.cell z).putBytes swz off w.toNat 4).spad
      | none => (s.cell z).spad) ∧
    (i < (s.cell c).flight.length → ∃ y, (t.cell c).flight[i]? = some y ∧ y.val = BitVec.ofNat 64 old ∧ y.dst = x.dst ∧ y.ld = none))

/-- R44: a firing has the kind of its operands. A DONE or POISON result computes nothing and, in a g register or a handle, writes nothing. The first operand with a POISON makes it POISON with that payload; without one, a consumed DONE makes it
DONE, unless another consumed operand is no DONE, which is a stream-shape fault; else a consumed LAST makes it LAST; else it is DATA. -/
def Obligations.ResultKindRule : Prop :=
  (∀ (s s1 : State) (opc : Nat) (site : Site) (f : OpFields) (i : Inst) (fd : Feed) (cur : Option (Nat × Nat)) (F : Firing),
    s.operands opc site f i fd cur = .ok (F, s1) → ∃ oa ob oc : Operand, resultKind [oa, ob, oc] = some (F.kind, F.pay) ∧ F.ta = oa.tok ∧
      F.tb = ob.tok ∧ F.tc = oc.tok) ∧
  (∀ (s : State) (F : Firing) (lat : Nat) (r q : Word × Flags), (F.kind = .done ∨ F.kind = .poison) →
    s.compute F lat r = s.compute F lat q ∧
    ((∀ n, F.f.dst ≠ .out n) → ∀ k, ((s.compute F lat r).cell k).flight = (s.cell k).flight)) ∧
  (∀ (ops : List Operand),
    (∀ pre o post t, ops = pre ++ o :: post → (∀ q ∈ pre, ∀ u, q.tok = some u → u.kind ≠ .poison) → o.tok = some t →
      t.kind = .poison → resultKind ops = some (.poison, t.payload)) ∧
    ((∀ o ∈ ops, ∀ t, o.tok = some t → t.kind ≠ .poison) →
      let cons := ops.filterMap (fun o => if o.chan.any (fun c => c.2) then o.tok else none)
      ((∃ t ∈ cons, t.kind = .done) → (∃ t ∈ cons, t.kind ≠ .done) → resultKind ops = none) ∧
      ((∃ t ∈ cons, t.kind = .done) → (∀ t ∈ cons, t.kind = .done) → resultKind ops = some (.done, 0)) ∧
      ((∀ t ∈ cons, t.kind ≠ .done) → (∃ t ∈ cons, t.kind = .last) → (resultKind ops).map Prod.fst = some .last) ∧
      ((∀ t ∈ cons, t.kind ≠ .done ∧ t.kind ≠ .last) → (resultKind ops).map Prod.fst = some .data)))

/-! Memory operators. -/

/-- R229, R230, R232: every load, on a ready slot whose element is in range and readable, issues: from a LOC handle its value is taken
at the bank for the destination, from another level a request joins the queue. A stream load's token is LAST at the last element, after
which it fires no more.
Forms that complete here: `ldh`, `lds`, `ldr`, `ldg`, `ldx`. -/
def Obligations.LoadsComplete : Prop :=
  ∀ row ∈ loadRows, ∀ (site : Site) (f : OpFields) (s : State) (F : Firing) (s1 : State), Fires s row.opc site f F s1 →
    F.works = true → preLoad (row.pick f) s1 F = none →
    let p := s1.place F (row.pick f F)
    let last := decide (F.elem + 1 = ((s1.cell F.cell).handle (immHandle F.f.imm.toNat)).wrap)
    let k := if row.stream F.f then (if last then Kind.last else .data) else F.kind
    Gives (row.make site f) s (fun t => Issued s t F ∧ Consumed s t F ∧ Untouched s t ∧
      (row.stream F.f = true → ((t.cell F.cell).slot F.slot).f = last) ∧
      (p.lvl ≠ 0 → Queued s t F (.load (p.lvl == 2) (modB2 F.f)) .issued p k) ∧
      (p.lvl = 0 → t.reqs = s.reqs ∧ LateSent s1 t F k (.spad F.cell (F.cyc + 1 + F.late + F.deal) p.addr p.size p.swz (modB2 F.f))))

/-- R229 to R231: every store, on a ready slot whose element is in range and untagged, issues: at a LOC handle the bytes are on their
way to its bank and the completion token to its channel, at another level a request joins the queue.
Forms that complete here: `sth`, `sts`, `str`, `stg`, `stx`. -/
def Obligations.StoresComplete : Prop :=
  ∀ row ∈ storeRows, ∀ (site : Site) (f : OpFields) (s : State) (F : Firing) (s1 : State), Fires s row.opc site f F s1 →
    F.works = true → preStore 1 (row.pick f) s1 F = none →
    let p := s1.place F (row.pick f F)
    Gives (row.make site f) s (fun t => Issued s t F ∧ Consumed s t F ∧ Untouched s t ∧
      (p.lvl ≠ 0 → Queued s t F (.store (p.lvl == 2) (BitVec.ofNat 64 F.a.toNat)) .issued p F.kind) ∧
      (p.lvl = 0 → t.reqs = s.reqs ∧
        Flies s1 t F (.write p.addr p.size p.swz) (BitVec.ofNat 64 F.a.toNat) none 0 2 ∧
        (∀ n, F.f.dst = .out n → TokenSent t F n.val F.kind 0 2)))

/-- R226, R228, R233, R234: every atomic and compare-and-swap, on a ready slot whose word is in range, readable and untagged: a LOC
word (`atomh`, `cash`) is read and written in one access of its bank in the result cycle, its ORD and SCOPE with it, and its old value answered (the cycle is the
model's choice, log 17 DESIGN CHOICE; what an arrival or store waits for, log 47 DEDUCED); the others join the queue with their
order and scope. What the access writes: an atomic its function of the old word and A, a load nothing, a swap the new word where the old one is the expected.
Forms that complete here: `atomh`, `atomr`, `atomg`, `cash`, `casr`, `casg`. -/
def Obligations.AtomicsComplete : Prop :=
  (∀ (e : (Site → OpFields → Instr) × Nat × Nat), e ∈ [(.atomh, 0x69, 0), (.atomr, 0x6B, 1), (.atomg, 0x6D, 2)] →
    ∀ (site : Site) (f : OpFields) (s : State) (F : Firing) (s1 : State), Fires s e.2.1 site f F s1 → F.works = true →
    preAtomic 2 (pickB f) s1 F = none →
    let p := s1.place F (pickB f F)
    Gives (e.1 site f) s (fun t => Issued s t F ∧ Consumed s t F ∧ Untouched s t ∧
      (e.2.2 ≠ 0 → Queued s t F (.atomic (e.2.2 == 2) f.ty (immAop f) (immOrd f) (immScope f) F.a) .issued p F.kind) ∧
      (e.2.2 = 0 → t.reqs = s.reqs ∧
        LateSent s1 t F F.kind (.rmw F.cell (F.cyc + 2 + F.late + F.deal) p.addr p.swz (.atomic f.ty (immAop f) (immOrd f) (immScope f) F.a))))) ∧
  (∀ (e : (Site → OpFields → Instr) × Nat × Nat), e ∈ [(.cash, 0x6A, 0), (.casr, 0x6C, 1), (.casg, 0x6E, 2)] →
    ∀ (site : Site) (f : OpFields) (s : State) (F : Firing) (s1 : State), Fires s e.2.1 site f F s1 → F.works = true →
    preAtomic 3 (pickC f) s1 F = none →
    let p := s1.place F (pickC f F)
    Gives (e.1 site f) s (fun t => Issued s t F ∧ Consumed s t F ∧ Untouched s t ∧
      (e.2.2 ≠ 0 → Queued s t F (.cas (e.2.2 == 2) (immOrd f) (immScope f) F.a F.b) .issued p F.kind) ∧
      (e.2.2 = 0 → t.reqs = s.reqs ∧
        LateSent s1 t F F.kind (.rmw F.cell (F.cyc + 2 + F.late + F.deal) p.addr p.swz (.cas (immOrd f) (immScope f) F.a F.b))))) ∧
  (∀ (ty : Ty) (aop o sc : Nat) (a old : Word),
    (aop ≠ 7 → (RmwOp.atomic ty aop o sc a).new old = some (atomicFn ty aop old a)) ∧ (RmwOp.atomic ty 7 o sc a).new old = none ∧
    (∀ n, (RmwOp.cas o sc a n).new old = if old = a then some n else none))

/-- R236 to R238: `hseek` sets the cursor and sends it, `htell` sends the cursor, `fence` and `pfg` join the queue; a prefetch beyond the
region is answered at once.
Forms that complete here: `hseek`, `htell`, `fence`, `pfg`. -/
def Obligations.CursorFencePrefetchComplete : Prop :=
  ∀ (site : Site) (f : OpFields) (s : State) (F : Firing) (s1 : State), F.works = true →
    (let h := (s1.cell F.cell).handle (immHandle f.imm.toNat)
     let cur := if modB2 f then ((h.cur + F.a.toInt) % (h.wrap : Int)).toNat else F.a.toNat % h.wrap
     Fires s 0x70 site f F s1 → Gives (.hseek site f) s (fun t => Issued s t F ∧ Consumed s t F ∧
      ((t.cell F.cell).handle (immHandle f.imm.toNat)).cur = cur % 65536 ∧
      ResultSent s1 t F F.kind (BitVec.ofNat 32 cur) 0 2)) ∧
    (Fires s 0x71 site f F s1 → Gives (.htell site f) s (fun t => Issued s t F ∧ Consumed s t F ∧ Untouched s t ∧
      ResultSent s1 t F F.kind (BitVec.ofNat 32 ((s1.cell F.cell).handle (immHandle f.imm.toNat)).cur) 0 2)) ∧
    (Fires s 0x6F site f F s1 → Gives (.fence site f) s (fun t => Issued s t F ∧ Consumed s t F ∧
      ∃ w, Queued s t F (.fence (bitsN f.imm.toNat 15 8) (immScope f) F.deps w) .waiting Place.nowhere F.kind)) ∧
    (let p := s1.place F (if modCur f then .cur else .index F.a)
     Fires s 0x68 site f F s1 → Gives (.pfg site f) s (fun t => Issued s t F ∧ Consumed s t F ∧ Untouched s t ∧
      Queued s t F .prefetch (if p.inRange then .issued else .answered) p F.kind))

/-- R374, R262, R283, R284, R308: a firing of an operator of 0x60 to 0x73, 0xA0 to 0xAD or 0xC0 to 0xD3 whose kind is POISON or DONE is issued and consumed and does no
work: nothing changes but counters, and no request, command or product joins. Its kind leaves on an outbound DST at once; of a matrix operator behind the products of its slot.
`redp` and `redw` carry it on as their words, and `send` carries its operand's kind to its target.
Forms that complete here: `redp`, `redw`, `send`. -/
def Obligations.SuppressedFiringPassesItsKind : Prop :=
  (∀ e ∈ suppressRows, ∀ (site : Site) (f : OpFields) (s : State) (F : Firing) (s1 : State), Fires s e.2 site f F s1 → F.works = false →
    Gives (e.1 site f) s (fun t => Issued s t F ∧ Consumed s t F ∧ Untouched s t ∧ t.reqs = s.reqs ∧
      ∀ n, F.f.dst = .out n → TokenSent t F n.val F.kind F.pay 1)) ∧
  (∀ (e : (Site → OpFields → Instr) × Nat), e ∈ [(.mm, 0xA0), (.mmb, 0xA1), (.mmg, 0xA2), (.mmo, 0xA3)] →
    ∀ (site : Site) (f : OpFields) (s : State) (F : Firing) (s1 : State), Fires s e.2 site f F s1 → F.works = false →
    let behind := s.products.any (fun p => p.cell == F.cell && p.slot == F.slot)
    Gives (e.1 site f) s (fun t => Issued s t F ∧ Consumed s t F ∧ t.mem = s.mem ∧ t.reqs = s.reqs ∧ t.sectors = s.sectors ∧
      (behind = false → Untouched s t ∧ ∀ n, F.f.dst = .out n → TokenSent t F n.val F.kind 0 1) ∧
      (behind = true → ∃ p, t.products = s.products ++ [p] ∧ p.cell = F.cell ∧ p.slot = F.slot ∧ p.n = 0 ∧ p.passes = [] ∧ p.kind = F.kind ∧
        ∀ n, F.f.dst = .out n → p.pay = 0))) ∧
  (∀ (site : Site) (f : OpFields) (s : State) (F : Firing) (s1 : State), Fires s 0xAC site f F s1 → F.works = false →
    Gives (.redp site f) s (fun t => Issued s t F ∧ Consumed s t F ∧ Untouched s t ∧ t.reqs = s.reqs ∧
      ∀ n, F.f.dst = .out n → TokenSent t F n.val F.kind F.pay 1 ∧ (F.kind = .poison → f.mod.toNat % 4 = 1 → TokenSent t F n.val .poison F.pay 2))) ∧
  (∀ (site : Site) (f : OpFields) (s : State) (F : Firing) (s1 : State), Fires s 0xAD site f F s1 → F.works = false →
    let st := (s1.cell F.cell).slot F.slot
    Gives (.redw site f) s (fun t => Issued s t F ∧ Consumed s t F ∧ Untouched s t ∧ t.reqs = s.reqs ∧
      let new := (t.cell F.cell).slot F.slot
      (F.kind = .done → new.n = 0 ∧ ∀ n, F.f.dst = .out n → TokenSent t F n.val .done F.donePay 3) ∧
      (F.kind = .poison → f.mod.toNat % 4 ≠ 1 → ∀ n, F.f.dst = .out n → TokenSent t F n.val .poison F.pay 3) ∧
      (F.kind = .poison → f.mod.toNat % 4 = 1 → st.n ≠ 1 → new.n = 1 ∧ new.f = true ∧ new.v = F.pay) ∧
      (F.kind = .poison → f.mod.toNat % 4 = 1 → st.n = 1 → new.n = 0 ∧
        ∀ n, F.f.dst = .out n → TokenSent t F n.val .poison (if st.f then st.v else F.pay) 3))) ∧
  (∀ (site : Site) (f : OpFields) (s : State) (F : Firing) (s1 : State), Fires s 0xD0 site f F s1 → F.works = false →
    let other := [F.tb, F.tc].any (fun t => t.any (fun x => x.kind == .poison))
    Gives (.send site f) s (fun t => Issued s t F ∧ Consumed s t F ∧ Untouched s t ∧
      (other = true → t.reqs = s.reqs ∧ ∀ n, F.f.dst = .out n → TokenSent t F n.val F.kind F.pay 1) ∧
      (other = false → Queued s t F (.send (match F.ta with | some k => k.payload | none => F.a) (match F.ta with | some k => k.kind | none => .data) F.b)
        .issued Place.nowhere F.kind)))

/-! Stream control. -/

/-- R239 to R244: every stream-control operator, `filt` and its flush included, on a ready slot: its new state stands in the slot and what it emits is on its
way; operands are consumed where its function takes them, and a DONE that finds the segment of the slot or of one of its copies open is not one of these cases,
and a DONE whose other operands hold a POISON emits that POISON (log 23 DEDUCED: R240 alone passes the DONE on). `acc` of i32 with ADD: an element of kind
DATA adds to the value and emits nothing; the LAST emits the sum as DATA and closes the segment; the first element of a segment starts from B.
Forms that complete here: `filt`, `gen`, `gen2`, `cnt`, `acc`, `scan`, `take`, `skip`, `rept`, `mklast`, `done`, `waitd`, `iter`, `trig`. -/
def Obligations.StreamOperatorsComplete : Prop :=
  (∀ row ∈ streamRows, ∀ (site : Site) (f : OpFields) (s : State) (F : Firing) (s1 : State), Fires s row.opc site f F s1 →
    openAtDone row.counts (row.opc != 0x83) s1 F = none → s.openCopy F row.counts (row.opc != 0x83) = none →
    let o := F.streamOut (row.fn f F ((s1.cell F.cell).slot F.slot))
    Gives (row.make site f) s (fun t => Issued s t F ∧ (if o.take then Consumed s t F else NotConsumed s t F) ∧ StreamShown t F o ∧
      Untouched s t)) ∧
  (∀ (site : Site) (f : OpFields) (s : State) (F : Firing) (s1 : State), Fires s 0x85 site f F s1 →
    let flush := decide (((s.cell site.cell.val).slot site.slot.val).k % 2 = 1)
    openAtDone (!flush) true s1 F = none → s.openCopy F (!flush) true = none →
    let o := F.streamOut (streamFilt f F ((s1.cell F.cell).slot F.slot))
    Gives (.filt site f) s (fun t => Issued s t F ∧ (if o.take then Consumed s t F else NotConsumed s t F) ∧ StreamShown t F o ∧
      Untouched s t)) ∧
  (∀ (f : OpFields) (F : Firing) (st : SlotState), f.ty = .i32 → f.mod = 0 → f.imm = 0 → st.f = false → F.isPoison = false →
    let v0 := if st.n = 0 then F.b else st.v
    (F.kindA = .data → (streamAcc f F st).emits = [] ∧ (streamAcc f F st).v = v0 + F.a) ∧
    (F.kindA = .last → (streamAcc f F st).emits = [(.data, v0 + F.a)] ∧ (streamAcc f F st).n = 0))

/-! System operators and faults. -/

/-- R311, R312, R93: the system operators on a ready slot. `nop` only consumes; `sreg` sends the register's value, `swreg` writes PERF (whose counter the token
it sends may count on, event 6) and PSEL and sends FPSTAT its value for the result cycle; `clock` sends device time; `perf` adds to its counter; `poison` sends its operand as POISON.
Forms that complete here: `nop`, `sreg`, `swreg`, `clock`, `perf`, `poison`. -/
def Obligations.SystemOperatorsComplete : Prop :=
  ∀ (site : Site) (f : OpFields) (s : State) (F : Firing) (s1 : State),
    (Fires s 0xE0 site f F s1 → Gives (.nop site f) s (fun t => Issued s t F ∧ Consumed s t F ∧ Untouched s t ∧ t.reqs = s.reqs)) ∧
    (Fires s 0xE1 site f F s1 → F.works = true → Gives (.sreg site f) s (fun t => Issued s t F ∧ Consumed s t F ∧ Untouched s t ∧
      ResultSent s1 t F F.kind (s1.sreg F (f.imm.toNat % 256)) F.flags 1)) ∧
    (Fires s 0xE2 site f F s1 → F.works = true → Gives (.swreg site f) s (fun t => Issued s t F ∧ Consumed s t F ∧ Untouched s t ∧
      ResultSent s1 t F F.kind F.a F.flags 1 ∧
      (f.imm.toNat % 256 = 6 → Flies s1 t F .fpstat (BitVec.ofNat 64 F.a.toNat) none 0 1) ∧
      (∀ n, n < 8 → f.imm.toNat % 256 = 0x18 + n → Map.get 0 (t.cell F.cell).psel n = F.a) ∧
      (∀ n, n < 8 → f.imm.toNat % 256 = 0x10 + n → Map.get 0 (s.cell F.cell).psel n ≠ 6 → Map.get 0 (t.cell F.cell).perf n = F.a))) ∧
    (Fires s 0xE8 site f F s1 → F.works = true → Gives (.clock site f) s (fun t => Issued s t F ∧ Consumed s t F ∧ Untouched s t ∧
      ResultSent s1 t F F.kind (BitVec.ofNat 32 (if modB2 f then s.deviceNs / 2 ^ 32 else s.deviceNs)) F.flags 1)) ∧
    (Fires s 0xE9 site f F s1 → F.works = true → (s.cell F.cell).psel = [] → Gives (.perf site f) s (fun t => Issued s t F ∧
      Consumed s t F ∧ Untouched s t ∧
      (let v := Map.get 0 (s.cell F.cell).perf (f.imm.toNat % 8) + F.a
       Map.get 0 (t.cell F.cell).perf (f.imm.toNat % 8) = v ∧ ResultSent s1 t F F.kind v F.flags 1))) ∧
    (Fires s 0xEB site f F s1 → Gives (.poison site f) s (fun t => Issued s t F ∧ Consumed s t F ∧ Untouched s t ∧
      ResultSent s1 t F .poison (match F.ta with | some k => k.payload | none => F.a) 0 1))

/-- R311, R40, R58, R75, R374: the system operators that act on the instance, on a ready slot, each issued and its operand consumed. `brk` holds the instance for a debugger where
debugging is enabled and A is a value, `yield` asks for a drain, `swapreq` asks for a swap; `exit` retires it: it holds no fault and no request, its channels are empty, and no job,
port or, where it has no subscription, byte of memory changes.
Forms that complete here: `brk`, `yield`, `exit`, `swapreq`. -/
def Obligations.InstanceOperatorsComplete : Prop :=
  ∀ (site : Site) (f : OpFields) (s : State) (F : Firing) (s1 : State),
    (Fires s 0xE4 site f F s1 → Gives (.brk site f) s (fun t => Issued s t F ∧ Consumed s t F ∧ Untouched s t ∧
      (F.checksA = true → (s.proctor.debugEnable = true ∨ (∃ j, s.job F.inst.job = some j ∧ j.debug = true)) →
        ∃ i, t.inst F.inst.id = some i ∧ i.debugHeld = true) ∧
      (F.checksA = false → ∀ i, s.inst F.inst.id = some i → ∃ j, t.inst F.inst.id = some j ∧ j.debugHeld = i.debugHeld))) ∧
    (Fires s 0xE5 site f F s1 → Gives (.yield site f) s (fun t => Issued s t F ∧ Consumed s t F ∧ Untouched s t ∧
      ∃ i, t.inst F.inst.id = some i ∧ i.yielding = true)) ∧
    (Fires s 0xE6 site f F s1 → s.inst F.inst.id = some F.inst → Gives (.exit site f) s (fun t => Issued s t F ∧
      (∃ i, t.inst F.inst.id = some i ∧ i.retired = true ∧ i.hold = none ∧ i.swap = none ∧ i.preempt = false ∧ i.yielding = false) ∧
      (∀ c ∈ F.inst.cells, (t.cell c).pin = []) ∧ t.jobs = s.jobs ∧ t.ports = s.ports ∧ (s.pairs = [] → t.mem = s.mem))) ∧
    (Fires s 0xEA site f F s1 → Gives (.swapreq site f) s (fun t => Issued s t F ∧ Consumed s t F ∧ Untouched s t ∧
      ∃ i, t.inst F.inst.id = some i ∧ i.swap.isSome = true))

/-- R311, R373, R344, R346: `trap` takes its software fault on any token, and `assert` on a value of 0: the instance is held, a record waits,
and nothing is consumed; an `assert` of another value, or of a POISON or DONE, consumed or peeked, only consumes (R374).
Forms that complete here: `trap`, `assert`. -/
def Obligations.SoftwareFaultsHoldTheInstance : Prop :=
  ∀ (site : Site) (f : OpFields) (s : State) (F : Firing) (s1 : State),
    (Fires s 0xE3 site f F s1 → Gives (.trap site f) s (fun t =>
      HeldFor s t F.inst (0x0280 + f.imm.toNat % 128) (BitVec.ofNat 64 (trapFault F).d0) ∧ OnlyBusy s t ∧ t.mem = s.mem ∧ t.reqs = s.reqs)) ∧
    (Fires s 0xE7 site f F s1 → F.checksA = true → F.a = 0 → Gives (.assert site f) s (fun t =>
      HeldFor s t F.inst (0x0280 + f.imm.toNat % 128) (BitVec.ofNat 64 (trapFault F).d0) ∧ OnlyBusy s t ∧ t.mem = s.mem ∧ t.reqs = s.reqs)) ∧
    (Fires s 0xE7 site f F s1 → (F.checksA = false ∨ F.a ≠ 0) → Gives (.assert site f) s (fun t =>
      Issued s t F ∧ Consumed s t F ∧ Untouched s t))

/-- R344, R345: a firing whose operands meet a fault, or that the operator itself finds at fault at issue, has had no effect on any cell or memory: the instance is
held for the fault's code, or the fault joins its hold, and a record of it waits; from the next cycle on no operator fires in an instance that is held. -/
def Obligations.FaultsHaveNoEffect : Prop :=
  (∀ (s : State) (opc : Nat) (site : Site) (f : OpFields) (pre : State → Firing → Option FireFault) (act : State → Firing → State)
    (i : Inst) (fd : Feed) (e : FireFault), s.ready opc site f = true → s.instAt site.cell.val = some i →
    s.feed i site.cell.val site.slot.val = some fd →
    (s.operands opc site (s.slotNeeds opc site f).1 i fd (s.slotNeeds opc site f).2.cursor = .error e ∨
      ∃ F s1, s.operands opc site (s.slotNeeds opc site f).1 i fd (s.slotNeeds opc site f).2.cursor = .ok (F, s1) ∧ pre s1 F = some e) →
    ∃ t, s.fire opc site f pre act = .next t ∧ HeldFor s t i e.code (BitVec.ofNat 64 e.d0) ∧ OnlyBusy s t ∧ t.mem = s.mem ∧
      t.reqs = s.reqs ∧ t.sectors = s.sectors) ∧
  (∀ (s : State) (opc : Nat) (site : Site) (f : OpFields) (i : Inst) (pre : State → Firing → Option FireFault) (act : State → Firing → State),
    s.instAt site.cell.val = some i → s.held i = true → s.fire opc site f pre act = .next s)

/-! Barriers and rings. -/

/-- R300, R302, R142: the synchronisation operators on a ready slot, without a fault at issue. A word elsewhere gets a request; at a LOC word the
operation is made at once and answered (the model's choice, log 17), or waits in the queue; `bara` also waits for the updates it covers (deduced, log 47).
Forms that complete here: `bara`, `bari`, `barw`, `ringi`, `ringf`, `ringfP`, `ringr`, `ringrP`. -/
def Obligations.SynchronisationOperatorsComplete : Prop :=
  (∀ row ∈ syncRows, ∀ (site : Site) (f : OpFields) (s : State) (F : Firing) (s1 : State), Fires s row.opc site f F s1 →
    F.works = true → preSync row.body s1 F = none →
    let p := s1.syncPlace F
    Gives (row.make site f) s (fun t => Issued s t F ∧ Consumed s t F ∧
      (p.lvl ≠ 0 → Untouched s t ∧ Queued s t F (row.body F) .issued p F.kind) ∧
      (p.lvl = 0 → (s1.begin F).syncOp ⟨F.cell, p.addr, p.swz⟩ (row.body F) = .wait →
        Untouched s t ∧ Queued s t F (row.body F) .waiting p F.kind) ∧
      (∀ pay s3, p.lvl = 0 → (s1.begin F).syncOp ⟨F.cell, p.addr, p.swz⟩ (row.body F) = .done pay s3 →
        (t.cell F.cell).spad = (s3.cell F.cell).spad ∧ (t.cell F.cell).tags = (s3.cell F.cell).tags ∧
        ResultSent s1 t F F.kind (BitVec.ofNat 32 pay) 0 (2 + (s3.waitBank F.cell F.cyc p.swz p.addr 8).1)))) ∧
  (∀ (site : Site) (f : OpFields) (s : State) (F : Firing) (s1 : State), Fires s 0xC9 site f F s1 → F.works = true →
    preSync (fun F => .bara (immScope f) F.a []) s1 F = none →
    let p := s1.syncPlace F
    let q := (s1.begin F).closePairs ((s1.begin F).covered (immScope f) F.cell)
    Gives (.bara site f) s (fun t => Issued s t F ∧ Consumed s t F ∧
      (p.lvl ≠ 0 → Queued s t F (.bara (immScope f) F.a q.2) .issued p F.kind) ∧
      (p.lvl = 0 → q.1.pairsDone q.2 = false → Queued s t F (.bara (immScope f) F.a q.2) .waiting p F.kind) ∧
      (∀ pay s3, p.lvl = 0 → q.1.pairsDone q.2 = true →
        q.1.syncOp ⟨F.cell, p.addr, p.swz⟩ (.bara (immScope f) F.a q.2) = .done pay s3 →
        (t.cell F.cell).spad = (s3.cell F.cell).spad ∧
        ResultSent s1 t F F.kind (BitVec.ofNat 32 pay) 0 (2 + (s3.waitBank F.cell F.cyc p.swz p.addr 8).1))))

/-- R299, R300, R392: an arrival at a barrier word. On an untagged word, with no pending arrival, or with an overflow of the transaction
count it is a fault; otherwise the phase before it is answered, and the word it leaves has one arrival less, its transaction count moved,
and, where both are then zero, its phase turned and its arrivals back at the expected number. -/
def Obligations.BarrierArrivalRule : Prop :=
  ∀ (s : State) (a : WordAt) (sc : Nat) (x : Word) (w : List (Nat × Nat)),
    let b := barrierOf (s.syncWord a)
    (s.syncTagged a = false → s.syncOp a (.bara sc x w) = .fault 0x0702) ∧
    (s.syncTagged a = true → b.arrp = 0 → -2 ^ 31 ≤ b.tx + x.toInt → b.tx + x.toInt < 2 ^ 31 →
      s.syncOp a (.bara sc x w) = .fault 0x0704) ∧
    (s.syncTagged a = true → b.arrp ≠ 0 → (b.tx + x.toInt < -2 ^ 31 ∨ b.tx + x.toInt ≥ 2 ^ 31) →
      s.syncOp a (.bara sc x w) = .fault 0x0703) ∧
    (s.syncTagged a = true → b.arrp ≠ 0 → -2 ^ 31 ≤ b.tx + x.toInt → b.tx + x.toInt < 2 ^ 31 →
      ∃ t, s.syncOp a (.bara sc x w) = .done b.ph t ∧
        (s.reqs = [] → t = s.syncPut a (if b.arrp = 1 ∧ b.tx + x.toInt = 0 then Barrier.word ⟨1 - b.ph, b.arre, b.arre, 0⟩
          else Barrier.word ⟨b.ph, b.arre, b.arrp - 1, b.tx + x.toInt⟩)))

/-! Router operators. -/

/-- R248 to R250, R45, R247: `route`, `fork`, `join`, `steer` and `merge`, on an entry that may step, with tokens at their inputs and credit at their outputs: the tokens
leave the inputs and stand at the outputs; `join`'s under the joined kind with the first input's payload; a predicate names the output or the input and is consumed.
Forms that complete here: `route`, `fork`, `join`, `steer`, `merge`. -/
def Obligations.PassingAndChoosingRoutersComplete : Prop :=
  (∀ (site : RouteSite) (f : RouteFields) (s : State) (a : Token), s.inHead site.cell.val (pvOf f.a) = some a →
    s.hasCredit site.cell.val (pvOf f.x) = true →
    (EntryReady s site [f.a] → Gives (.route site f) s (fun t => InLost s t site.cell.val f.a ∧ OutGot s t site.cell.val f.x [a])) ∧
    (EntryReady s site [f.a] → f.x ≠ f.y → s.hasCredit site.cell.val (pvOf f.y) = true → Gives (.fork site f) s (fun t =>
      InLost s t site.cell.val f.a ∧ OutGot s t site.cell.val f.x [a] ∧ OutGot s t site.cell.val f.y [a])) ∧
    (∀ p k w, EntryReady s site [f.a, f.p] → f.a ≠ f.p → s.inHead site.cell.val (pvOf f.p) = some p → joinKind a p = some (k, w) →
      Gives (.join site f) s (fun t => InLost s t site.cell.val f.a ∧ InLost s t site.cell.val f.p ∧
        OutGot s t site.cell.val f.x [(a.withDeps p.deps).retag k w]))) ∧
  (∀ (site : RouteSite) (f : RouteFields) (s : State) (d p : Token), s.inHead site.cell.val (pvOf f.p) = some p →
    p.isValue = true → d.kind ≠ .done → EntryReady s site [f.a, f.p, f.y] →
    (f.a ≠ f.p → f.x ≠ f.y → s.inHead site.cell.val (pvOf f.a) = some d →
      s.hasCredit site.cell.val (pvOf (if predTrue p then f.x else f.y)) = true → Gives (.steer site f) s (fun t => InLost s t site.cell.val f.a ∧ InLost s t site.cell.val f.p ∧
        OutGot s t site.cell.val (if predTrue p then f.x else f.y) [d.withDeps p.deps] ∧
        OutGot s t site.cell.val (if predTrue p then f.y else f.x) [])) ∧
    (f.a ≠ f.p → f.p ≠ f.y → s.inHead site.cell.val (pvOf (if predTrue p then f.a else f.y)) = some d → s.hasCredit site.cell.val (pvOf f.x) = true →
      Gives (.merge site f) s (fun t => InLost s t site.cell.val (if predTrue p then f.a else f.y) ∧ InLost s t site.cell.val f.p ∧
        OutGot s t site.cell.val f.x [d.withDeps p.deps])))

/-- R254: `drop` discards the head of its input, whatever its kind, and counts it in 12 bits, from 0 after a plane swap; with ARG = N it takes exactly N, and
later tokens wait; with ARG = 0 it takes every one.
Forms that complete here: `drop`. -/
def Obligations.DropRule : Prop :=
  (∀ (site : RouteSite) (f : RouteFields) (s : State) (x : Token), s.inHead site.cell.val (pvOf f.a) = some x → EntryReady s site [f.a] →
    let c := ((s.cell site.cell.val).route site.entry.val).c
    ((f.arg = 0 ∨ c < f.arg.toNat) → Gives (.drop site f) s (fun t => InLost s t site.cell.val f.a ∧ OutGot s t site.cell.val f.x [] ∧
      ((t.cell site.cell.val).route site.entry.val).c = (c + 1) % 4096)) ∧
    (f.arg ≠ 0 → f.arg.toNat ≤ c → exec (.drop site f) s = .next s)) ∧
  (∀ (c : Cell) (cyc e : Nat), ((c.flip cyc).route e).c = 0)

/-- R251, R252, R255, R256, R407: `carry`, `invar`, `part` and `comb` on an entry that may step. A loop takes a token and holds it, passes or sends it again under a
true predicate and ends under a false one; `part` sends to the lane its payload names; `comb` sends a sum, in EXACT mode of two words with their carry.
Forms that complete here: `carry`, `invar`, `part`, `comb`. -/
def Obligations.LoopAndReducingRoutersComplete : Prop :=
  (∀ (site : RouteSite) (f : RouteFields) (s : State) (d p : Token), EntryReady s site [f.a, f.p, f.y] →
    s.hasCredit site.cell.val (pvOf f.x) = true →
    let st := (s.cell site.cell.val).route site.entry.val
    let new := fun (t : State) => (t.cell site.cell.val).route site.entry.val
    (st.loop = false → s.inHead site.cell.val (pvOf f.a) = some d → d.kind ≠ .done →
      Gives (.carry site f) s (fun t => InLost s t site.cell.val f.a ∧ OutGot s t site.cell.val f.x [d] ∧ (new t).loop = true ∧ (new t).v = some d) ∧
      Gives (.invar site f) s (fun t => InLost s t site.cell.val f.a ∧ OutGot s t site.cell.val f.x [] ∧ (new t).loop = true ∧ (new t).v = some d)) ∧
    (st.loop = true → s.inHead site.cell.val (pvOf f.p) = some p → p.isValue = true → predTrue p = true →
      (f.p ≠ f.y → s.inHead site.cell.val (pvOf f.y) = some d → d.kind ≠ .done → Gives (.carry site f) s (fun t => InLost s t site.cell.val f.p ∧
        InLost s t site.cell.val f.y ∧ OutGot s t site.cell.val f.x [d.withDeps p.deps] ∧ (new t).loop = true)) ∧
      (st.v = some d → Gives (.invar site f) s (fun t => InLost s t site.cell.val f.p ∧
        OutGot s t site.cell.val f.x [d.withDeps p.deps] ∧ (new t).loop = true ∧ (new t).v = some d))) ∧
    (st.loop = true → s.inHead site.cell.val (pvOf f.p) = some p → p.isValue = true → predTrue p = false →
      Gives (.carry site f) s (fun t => InLost s t site.cell.val f.p ∧ OutGot s t site.cell.val f.x [] ∧ (new t).loop = false) ∧
      Gives (.invar site f) s (fun t => InLost s t site.cell.val f.p ∧ OutGot s t site.cell.val f.x [] ∧ (new t).loop = false))) ∧
  (∀ (site : RouteSite) (f : RouteFields) (s : State) (a : Token), s.inHead site.cell.val (pvOf f.a) = some a →
    let st := (s.cell site.cell.val).route site.entry.val
    (∀ (h : f.x.vc.val + partLane f.arg.toNat a.payload < 32), EntryReady s site [f.a] → a.kind ≠ .done →
      let lane : PortVc := ⟨f.x.port, ⟨f.x.vc.val + partLane f.arg.toNat a.payload, h⟩⟩
      s.hasCredit site.cell.val (pvOf lane) = true →
      Gives (.part site f) s (fun t => InLost s t site.cell.val f.a ∧ OutGot s t site.cell.val lane [a])) ∧
    (∀ c, EntryReady s site [f.a, f.p] → f.a ≠ f.p → s.inHead site.cell.val (pvOf f.p) = some c → a.isValue = true → c.kind = a.kind →
      st.discard = none → st.timeout = none → st.late = none → s.hasCredit site.cell.val (pvOf f.x) = true →
      (combStep (f.arg.toNat % 4) st a.payload c.payload).2.2 = none →
      Gives (.comb site f) s (fun t => InLost s t site.cell.val f.a ∧ InLost s t site.cell.val f.p ∧
        OutGot s t site.cell.val f.x [(a.withDeps c.deps).retag a.kind (combStep (f.arg.toNat % 4) st a.payload c.payload).1]))) ∧
  (∀ (st : RouteState) (a c a2 c2 : Word), st.phase = false →
    (combStep 2 st a c).1 = a + c ∧
    (let r := combStep 1 st a c
     let q := combStep 1 r.2.1 a2 c2
     r.2.1.phase = true ∧ q.2.1.phase = false ∧
     q.1.toNat * 2 ^ 32 + r.1.toNat = ((a2.toNat * 2 ^ 32 + a.toNat) + (c2.toNat * 2 ^ 32 + c.toNat)) % 2 ^ 64))

/-! Matrix, accumulator and reduction operators. -/

/-- R262 to R266, R268 to R270, R102, R335: the matrix operators on a ready slot with admissible K and, for `mmg`, offsets: a product joins the products, not
granted yet, with its K, steps, kind and the cursors latched at issue, CUR of A's handle moves by n and that of B's by 2n for every group; nothing else of a cell changes but cursors.
The arithmetic: a wave reaches each cell at its skew; the first zeroes under `.z`, each later one is the next step, which adds one exact term to every element in the rows its pass
covers, rounded once; the outliers of its column are added behind it in order; no wave changes a cell but by its own step.
Forms that complete here: `mm`, `mmb`, `mmg`, `mmo`. -/
def Obligations.MatrixOperatorsComplete : Prop :=
  (∀ (e : (Site → OpFields → Instr) × Nat), e ∈ [(.mm, 0xA0), (.mmb, 0xA1), (.mmg, 0xA2), (.mmo, 0xA3)] →
    ∀ (site : Site) (f : OpFields) (s : State) (F : Firing) (s1 : State), Fires s e.2 site f F s1 → F.works = true →
    preMatrix e.2 s1 F = none →
    let n := F.a.toNat / mmKpc f.ty
    let ac := F.inst.aCells e.2
    let bc := F.inst.bCells e.2
    let hA := mmHA f.imm
    let hB := mmHB f.imm
    let hS := mmHS f.imm
    let groups := if e.2 = 0xA2 then (s1.mmgOffsets F.cell f).length - 1 else 1
    Gives (e.1 site f) s (fun t => Issued s t F ∧ Consumed s t F ∧ t.mem = s.mem ∧ t.reqs = s.reqs ∧
      (∀ k, (t.cell k).g = (s.cell k).g ∧ (t.cell k).a0 = (s.cell k).a0 ∧ (t.cell k).a1 = (s.cell k).a1 ∧ (t.cell k).spad = (s.cell k).spad) ∧
      (∃ p, t.products = s.products ++ [p] ∧ p.opc = e.2 ∧ p.cell = F.cell ∧ p.slot = F.slot ∧ p.inst = F.inst.id ∧
        p.kEls = F.a.toNat ∧ p.n = n ∧ p.granted = false ∧ p.started = false ∧ p.kind = F.kind ∧
        p.earliest = F.cyc + F.late + (if F.f.ty = .gq4x8 then 11 else 3) ∧ p.curA = s1.cursors ac hA ∧ p.curB = s1.cursors bc hB ∧
        (f.ty = .gq4x8 → p.curSA = s1.cursors ac hS ∧ p.curSB = s1.cursors bc (hS + 1))) ∧
      (0 < n → F.inst.cells.Nodup → hA ≠ hB → (f.ty = .gq4x8 → [hA, hB, hS, hS + 1].Nodup) →
        (∀ c ∈ ac, ((t.cell c).handle hA).cur = (((s1.cell c).handle hA).cur + n) % ((s1.cell c).handle hA).wrap) ∧
        (0 < groups → ∀ c ∈ bc, ((t.cell c).handle hB).cur = (((s1.cell c).handle hB).cur + 2 * groups * n) % ((s1.cell c).handle hB).wrap) ∧
        (f.ty = .gq4x8 → 16 ≤ n →
          (∀ c ∈ ac, ((t.cell c).handle hS).cur = (((s1.cell c).handle hS).cur + 4 * (n / 16)) % ((s1.cell c).handle hS).wrap) ∧
          (∀ c ∈ bc, ((t.cell c).handle (hS + 1)).cur = (((s1.cell c).handle (hS + 1)).cur + 8 * (n / 16)) % ((s1.cell c).handle (hS + 1)).wrap))))) ∧
  (∀ (s u : State) (i : Inst) (p : Product) (t c : Nat), s.waveCell i p t c = .ok u →
    let bank := immBank p.f.imm
    let k := mmSkew p.opc (i.relX c) (i.relY c)
    (∀ d, d ≠ c → u.cell d = s.cell d) ∧ u.mem = s.mem ∧ (u.cell c).g = (s.cell c).g ∧ (u.cell c).spad = (s.cell c).spad ∧
    (bank < 2 → ∀ q, (u.cell c).acc (1 - bank) q = (s.cell c).acc (1 - bank) q) ∧
    ((t < k ∨ k + p.total < t ∨ (t = k ∧ p.f.mod.getLsbD 3 = false)) → u.cell c = s.cell c) ∧
    (t = k → p.f.mod.getLsbD 3 = true → ∀ q, (u.cell c).acc bank q = 0) ∧
    (∀ step g lo hi outs, t = k + 1 + step → step < p.total → p.passes[step / p.n]? = some (g, lo, hi) → p.outsAt (i.relX c) step = .apply outs →
      ∀ q, q < 32 → let row := p.wb + 4 * i.relY c + q / 8
        (u.cell c).acc bank q = (if p.opc = 0xA2 ∧ (row < lo ∨ hi ≤ row) then (s.cell c).acc bank q
          else (mmElement p (p.lanes i (i.relX c) (i.relY c) step) outs (step % p.n) (q / 8) (q % 8) ((s.cell c).acc bank q)).1))) ∧
  (∀ (i : Inst) (p : Product) (t : Nat) (cs : List Nat) (s u : State), cs.Nodup → s.wave i p t cs = .ok u →
    (∀ c ∈ cs, ∃ v, s.waveCell i p t c = .ok v ∧ u.cell c = v.cell c) ∧ (∀ c, c ∉ cs → u.cell c = s.cell c) ∧ u.mem = s.mem) ∧
  (∀ (p : Product) (L : Lanes2) (e i j : Nat) (acc : Word),
    let term := mfuTerm p.f i j L.aw L.bw (L.sa.getD i 0) (L.sb.getD j 0)
    (mmElement p L [] e i j acc).1 = BitVec.ofNat 32 (roundTo fmtF32 .rne false (Ex.add .rne (fval fmtF32 acc.toNat) term.1).1).1 ∧
    (∀ o : Nat × Nat × Nat, (o.2.1 ≠ j → mmElement p L [o] e i j acc = mmElement p L [] e i j acc) ∧
      (o.2.1 = j → (mmElement p L [o] e i j acc).1 = (accAdd (mmElement p L [] e i j acc).1
        (mulF (mmAval p.f i (o.1 - mmKpc p.f.ty * e) L.aw (L.sa.getD i 0)) (fval fmtBf16 o.2.2, snanFlag fmtBf16 o.2.2))).1)) ∧
    (p.f.ty = .bf16x2 → term.1 = (Ex.mul (fval fmtBf16 (L.aw / 2 ^ (16 * i) % 65536)) (fval fmtBf16 (L.bw / 2 ^ (16 * j) % 65536))).1) ∧
    ((p.f.ty = .e4m3x4 ∨ p.f.ty = .e5m2x4) → let one := fun (q : Nat) =>
        (Ex.mul (fval (mmFmtA p.f) (L.aw / 2 ^ (8 * (2 * i + q)) % 256)) (fval (mmFmtB p.f) (L.bw / 2 ^ (8 * (2 * j + q)) % 256))).1
      term.1 = (Ex.add .rne (one 0) (one 1)).1) ∧
    (p.f.ty = .gq4x8 → let one := fun (q : Nat) =>
        (Ex.mul (gq4Value (L.aw / 2 ^ (4 * (4 * i + q)) % 16)) (gq4Value (L.bw / 2 ^ (4 * (4 * j + q)) % 16))).1
      term.1 = (Ex.mul (Ex.mul (fval fmtF32 (L.sa.getD i 0)) (fval fmtF32 (L.sb.getD j 0))).1
        (Ex.add .rne (Ex.add .rne (Ex.add .rne (one 0) (one 1)).1 (one 2)).1 (one 3)).1).1)) ∧
  (∀ (opc x y : Nat), mmSkew opc x y = if opc = 0xA1 then x % 4 + y % 4 else x + y)

/-- R271, R272, R283, R284: `accz` and `accrd` act in their result cycle; `accst` and `accld` ask the banks of row i's words in cycle 3 + i and act on every element at once in the
result cycle, each with its token. In EXACT `redp` sends the quantised value as two words and
`redw` keeps a first word and sends the sum at the second; otherwise each sends its operand, `redp` FAST a NaN as the canonical one.
Forms that complete here: `accz`, `accrd`, `accst`, `accld`, `redp`, `redw`. -/
def Obligations.AccumulatorAndReductionOperatorsComplete : Prop :=
  (∀ (site : Site) (f : OpFields) (s : State) (F : Firing) (s1 : State), F.works = true →
    let h := (s1.cell F.cell).handle (immHandle f.imm.toNat)
    (Fires s 0xA4 site f F s1 → Gives (.accz site f) s (fun t => Issued s t F ∧ Consumed s t F ∧ Untouched s t ∧
      Flies s1 t F (.accZero (immBank f.imm)) 0 none 0 1 ∧
      ∀ n, F.f.dst = .out n → TokenSent t F n.val F.kind 0 1)) ∧
    (Fires s 0xA5 site f F s1 → Gives (.accrd site f) s (fun t => Issued s t F ∧ Consumed s t F ∧ Untouched s t ∧
      LateSent s1 t F F.kind (.acc F.cell (F.cyc + 2 + F.late + F.deal) (immBank f.imm)
        (if f.ty = .bf16x2 then 2 * (F.a.toNat % 16) else F.a.toNat % 32) (decide (f.ty = .bf16x2)) f.mod))) ∧
    (Fires s 0xA6 site f F s1 → preAccst s1 F = none → Gives (.accst site f) s (fun t => Issued s t F ∧ Consumed s t F ∧ Untouched s t ∧
      (∀ i w, i < 4 → w ∈ accRowWords h i → Flies s1 t F (.ask [w]) 0 none 0 (3 + i)) ∧
      Flies s1 t F (.accStore (immBank f.imm) h.base h.pitch h.swz h.esz f.mod) 0 none 0 6 ∧
      ∀ n, F.f.dst = .out n → TokenSent t F n.val F.kind 0 6)) ∧
    (Fires s 0xA7 site f F s1 → preAccld s1 F = none → Gives (.accld site f) s (fun t => Issued s t F ∧ Consumed s t F ∧ Untouched s t ∧
      (∀ i w, i < 4 → w ∈ accRowWords h i → Flies s1 t F (.ask [w]) 0 none 0 (3 + i)) ∧
      Flies s1 t F (.accLoad (immBank f.imm) h.base h.pitch h.swz (modB2 f)) 0 none 0 6 ∧
      ∀ n, F.f.dst = .out n → TokenSent t F n.val F.kind 0 6))) ∧
  (∀ (site : Site) (f : OpFields) (s : State) (F : Firing) (s1 : State), F.works = true →
    let st := (s1.cell F.cell).slot F.slot
    (Fires s 0xAC site f F s1 →
      (∀ q fl, f.mod.toNat % 4 = 1 → redQuantum (redE f) F.a = (some q, fl) → Gives (.redp site f) s (fun t => Issued s t F ∧ Consumed s t F ∧
        Untouched s t ∧ ∀ n, F.f.dst = .out n → TokenSent t F n.val .data (BitVec.ofNat 32 q.toNat) 1 ∧
          TokenSent t F n.val F.kind (BitVec.ofNat 32 (q.toNat / 2 ^ 32)) 2)) ∧
      (f.mod.toNat % 4 ≠ 1 → Gives (.redp site f) s (fun t => Issued s t F ∧ Consumed s t F ∧ Untouched s t ∧
        ResultSent s1 t F F.kind (if f.mod.toNat % 4 = 0 ∧ fmtF32.isNan F.a.toNat = true then 0x7FC00000 else F.a)
          (if f.mod.toNat % 4 = 0 ∧ fmtF32.isNan F.a.toNat = true then snanFlag fmtF32 F.a.toNat ||| F.flags else F.flags) 1))) ∧
    (Fires s 0xAD site f F s1 →
      (f.mod.toNat % 4 ≠ 1 → Gives (.redw site f) s (fun t => Issued s t F ∧ Consumed s t F ∧ Untouched s t ∧ ResultSent s1 t F F.kind F.a F.flags 3)) ∧
      (f.mod.toNat % 4 = 1 → st.n ≠ 1 → Gives (.redw site f) s (fun t => Issued s t F ∧ Consumed s t F ∧ Untouched s t ∧
        ((t.cell F.cell).slot F.slot).v = F.a ∧ ((t.cell F.cell).slot F.slot).n = 1)) ∧
      (f.mod.toNat % 4 = 1 → st.n = 1 → st.f = false → Gives (.redw site f) s (fun t => Issued s t F ∧ Consumed s t F ∧ Untouched s t ∧
        ((t.cell F.cell).slot F.slot).n = 0 ∧ ∀ n, F.f.dst = .out n →
          let q := BitVec.ofNat 64 (F.a.toNat * 2 ^ 32 + st.v.toNat)
          TokenSent t F n.val F.kind (if q = 0 then 0 else BitVec.ofNat 32 (roundTo fmtF32 .rne false (scalePow (Ex.ofInt q.toInt) (redE f))).1) 3))))

/-! Grammar, engine, subscription, launch and message operators. -/

/-- R279, R280, R289, R292, R295: a grammar operator queues a command with its image and a request that waits for it; an engine operator whose descriptor reads queues a
command and its token is answered, CUR moved past what it read; `copyw` waits for the cell's commands still at work.
Forms that complete here: `gspmv`, `gsload`, `gsread`, `gsclr`, `copyw`, `copy`, `gath`, `scat`, `embr`. -/
def Obligations.GrammarAndEngineOperatorsComplete : Prop :=
  (∀ (site : Site) (f : OpFields) (s : State) (F : Firing) (s1 : State), F.works = true →
    let hn := immHandle f.imm.toNat
    let h1 := (s1.cell F.cell).handle hn
    let shown := fun (op : GveOp) (image : List Byte) (t : State) => Issued s t F ∧ Consumed s t F ∧ t.mem = s.mem ∧
      (∃ r, t.reqs = s.reqs ++ [r] ∧ r.stage = .waiting ∧ r.cell = F.cell ∧ r.slot = F.slot ∧ r.kind = F.kind ∧
        ∃ g, (t.sector F.inst.sector).gve = (s.sector F.inst.sector).gve ++ [g] ∧ r.body = .grammar g.id ∧ g.op = op ∧ g.running = false ∧
          g.cell = F.cell ∧ g.image = image)
    (Fires s 0xA8 site f F s1 → s1.cursorFault F 4 = none → Gives (.gspmv site f) s (fun t => shown .eval (s1.cursorBytes F 4) t ∧
      ((∀ n, F.f.dst ≠ .handle n) → ((t.cell F.cell).handle hn).cur = (F.elem + 4) % h1.wrap))) ∧
    (Fires s 0xA9 site f F s1 → Gives (.gsload site f) s (fun t => shown .load (natBytes 4 F.a.toNat ++ natBytes 4 F.b.toNat ++ natBytes 2 h1.cur ++ natBytes 22 hn ++
      natBytes 16 ((s1.cell F.cell).active.handleWord hn).toNat) t ∧ ((t.cell F.cell).handle hn).cur = (h1.cur + 4 * F.b.toNat) % h1.wrap)) ∧
    (Fires s 0xAA site f F s1 → F.a.toNat < F.inst.slateLen → Gives (.gsread site f) s
      (shown .read (natBytes 4 F.a.toNat ++ natBytes 4 (f.imm.toNat % 4 + (if modB2 f then 4 else 0)) ++ natBytes 24 0))) ∧
    (Fires s 0xAB site f F s1 → Gives (.gsclr site f) s (shown .clear (natBytes 4 F.a.toNat ++ natBytes 4 F.b.toNat ++ natBytes 24 0)))) ∧
  ((∀ (e : (Site → OpFields → Instr) × Nat × Nat × CmdKind),
    e ∈ [(.copy, 0xC0, 24, .copy), (.gath, 0xC2, 8, .gath), (.scat, 0xC3, 8, .scat), (.embr, 0xC4, 8, .embr)] →
    ∀ (site : Site) (f : OpFields) (s : State) (F : Firing) (s1 : State), Fires s e.2.1 site f F s1 → F.works = true →
    s1.cursorFault F e.2.2.1 = none → Gives (e.1 site f) s (fun t => Issued s t F ∧ Consumed s t F ∧ t.mem = s.mem ∧ t.sectors = s.sectors ∧
      (∃ c, t.cmds = s.cmds ++ [c] ∧ c.kind = e.2.2.2 ∧ c.stage = .queued ∧ c.desc = s1.cursorBytes F e.2.2.1 ∧ c.cell = F.cell ∧
        c.inst = some F.inst.id ∧ c.accepted = false ∧
        ((∀ n, F.f.dst ≠ .handle n) → ((t.cell F.cell).handle (immHandle f.imm.toNat)).cur =
          (F.elem + e.2.2.1) % ((s1.cell F.cell).handle (immHandle f.imm.toNat)).wrap) ∧
        ∃ r, t.reqs = s.reqs ++ [r] ∧ r.body = .engine c.id ∧ r.stage = .answered ∧ r.cell = F.cell ∧ r.kind = F.kind))) ∧
  (∀ (site : Site) (f : OpFields) (s : State) (F : Firing) (s1 : State), Fires s 0xC1 site f F s1 → F.works = true →
    Gives (.copyw site f) s (fun t => Issued s t F ∧ Consumed s t F ∧ Untouched s t ∧
      Queued s t F (.copyw (s.cellCmds F.cell)) (if (s.cellCmds F.cell).isEmpty then .answered else .waiting) Place.nowhere F.kind)))

/-- R304, R307, R308: the subscription, launch and message operators on a ready slot: each joins the decoupling queue with what it asks;
`rrpop` waits, or is answered with the record that waits; `sflush` is answered at once where every update it closes has been applied; `lqpush` appends its two words to the logit queue of the
die's Pilot.
Forms that complete here: `subscribe`, `unsub`, `sflush`, `tenq`, `tlnch`, `send`, `rgreq`, `lqpush`, `rrpop`. -/
def Obligations.MessageOperatorsComplete : Prop :=
  ∀ (site : Site) (f : OpFields) (s : State) (F : Firing) (s1 : State), F.works = true →
    (Fires s 0xC5 site f F s1 → Gives (.subscribe site f) s (fun t => Issued s t F ∧ Consumed s t F ∧ Untouched s t ∧
      Queued s t F (.sub (immHandle f.imm.toNat)) .issued Place.nowhere F.kind)) ∧
    (Fires s 0xC6 site f F s1 → Gives (.unsub site f) s (fun t => Issued s t F ∧ Consumed s t F ∧ Untouched s t ∧
      Queued s t F (.unsub (immHandle f.imm.toNat)) .issued Place.nowhere F.kind)) ∧
    (Fires s 0xC7 site f F s1 →
      let c := (s1.begin F).closePairs (fun p => (p.pub == F.cell && p.pubFrame.isNone) || (p.sub == F.cell && p.frame.isNone))
      Gives (.sflush site f) s (fun t => Issued s t F ∧ Consumed s t F ∧ t.pairs = c.1.pairs ∧
        Queued s t F (.sflush c.2) (if c.1.pairsDone c.2 then .answered else .waiting) Place.nowhere F.kind)) ∧
    (Fires s 0xCE site f F s1 → s1.cursorFault F 8 = none → Gives (.tenq site f) s (fun t => Issued s t F ∧ Consumed s t F ∧ Untouched s t ∧
      Queued s t F (.tenq (s1.cursorRecord F)) .issued Place.nowhere F.kind)) ∧
    (Fires s 0xCF site f F s1 → s1.cursorFault F 8 = none → Gives (.tlnch site f) s (fun t => Issued s t F ∧ Consumed s t F ∧ Untouched s t ∧
      Queued s t F (.tlnch (F.a.toNat % 2 ^ 14) (s1.cursorRecord F)) .issued Place.nowhere F.kind)) ∧
    (Fires s 0xD0 site f F s1 → Gives (.send site f) s (fun t => Issued s t F ∧ Consumed s t F ∧ Untouched s t ∧
      Queued s t F (.send (match F.ta with | some k => k.payload | none => F.a) (match F.ta with | some k => k.kind | none => .data) F.b)
        .issued Place.nowhere F.kind)) ∧
    (Fires s 0xD1 site f F s1 → Gives (.rgreq site f) s (fun t => Issued s t F ∧ Consumed s t F ∧ Untouched s t ∧
      Queued s t F (.rgreq (BitVec.ofNat 64 (F.b.toNat * 2 ^ 32 + F.a.toNat))) .issued Place.nowhere F.kind)) ∧
    (Fires s 0xD2 site f F s1 → Gives (.lqpush site f) s (fun t => Issued s t F ∧ Consumed s t F ∧ Untouched s t ∧
      (t.dieAt (dieOfCell F.cell)).pilot.logit = (s.dieAt (dieOfCell F.cell)).pilot.logit ++ [BitVec.ofNat 64 (F.b.toNat * 2 ^ 32 + F.a.toNat)])) ∧
    (Fires s 0xD3 site f F s1 → (s.sector (sectorOfCell F.cell)).rrq = [] → Gives (.rrpop site f) s (fun t => Issued s t F ∧ Consumed s t F ∧
      Untouched s t ∧ Queued s t F .rrpop .waiting Place.nowhere F.kind)) ∧
    (∀ v rest, Fires s 0xD3 site f F s1 → (s.sector (sectorOfCell F.cell)).rrq = .record v :: rest → NoneWaits s → Gives (.rrpop site f) s (fun t =>
      Issued s t F ∧ Consumed s t F ∧ (t.sector (sectorOfCell F.cell)).rrq = rest ∧
      ∃ q ∈ t.reqs, q.body = .rrpop ∧ q.cell = F.cell ∧ q.stage = .answered ∧ q.result = v ∧ q.kind = .data))

/-! Configuration. -/

/-- R65 to R68, R55, R78, R80, R361, R362: the configuration commands before SEAL, accepted from a source whose stream stands where the command may stand. NOP only takes its
cycle; BEGIN waits for its turn and then opens a stream with its size and BASE; ORIGIN opens every shadow plane of the patch under BASE; BANK selects the bank; LIT makes the next command
literal; a write replaces its field in the shadow plane of its cell, or of every cell of the patch. A write without an open stream changes no plane, and the source's
later commands are discarded.
Forms that complete here: `cfgNop`, `cfgBegin`, `cfgOrigin`, `cfgBank`, `cfgLit`, `cfgWrite`. -/
def Obligations.StreamCommandsComplete : Prop :=
  (∀ (k : Fin 64) (src : LoadSource) (s : State), LoaderTakes s k.val src →
    let l := (s.sector k.val).loader
    let new := fun (t : State) => (t.sector k.val).loader
    let opened := l.serving = some src ∧ l.opened = true
    (opened → Gives (.cfgNop k src 0) s (fun t => t.cells = s.cells ∧ (new t).opened = true ∧ (new t).bank = l.bank ∧
      (new t).busyUntil = max l.busyUntil (s.cycle k.val) + 1)) ∧
    (∀ v : BitVec 16, l.serving = none → l.firstWaiting src (s.cycle k.val) = false → Gives (.cfgBegin k src v) s (fun t =>
      t.cells = s.cells ∧ (new t).serving = none ∧ ∃ e ∈ (new t).waiting, e.1 = src)) ∧
    (∀ v : BitVec 16, l.serving = none → l.firstWaiting src (s.cycle k.val) = true → bitsN v.toNat 15 14 ≠ 3 → bitsN v.toNat 13 8 = 0 →
      Gives (.cfgBegin k src v) s (fun t => t.cells = s.cells ∧ (new t).serving = some src ∧ (new t).begun = true ∧ (new t).opened = false ∧ (new t).base = bitsN v.toNat 15 14 ∧
      (new t).w = bitsN v.toNat 7 4 + 1 ∧ (new t).h = bitsN v.toNat 3 0 + 1)) ∧
    (∀ v : BitVec 16, l.serving = some src → l.begun = true → l.opened = false → bitsN v.toNat 15 13 = 0 → bitsN v.toNat 7 4 = 0 →
      bitsN v.toNat 3 0 + l.w ≤ 16 → bitsN v.toNat 12 8 + l.h ≤ 32 → s.isPatch k.val (bitsN v.toNat 3 0) (bitsN v.toNat 12 8) l.w l.h = true →
      let patch := patchCells k.val (bitsN v.toNat 3 0) (bitsN v.toNat 12 8) l.w l.h
      Gives (.cfgOrigin k src v) s (fun t => (new t).opened = true ∧ (new t).bank = 0 ∧
        (∀ c ∈ patch, (t.cell c).shadowState = .opened ∧ (t.cell c).active = (s.cell c).active ∧
          (l.base = 0 → (t.cell c).shadow.op = [] ∧ (t.cell c).shadow.rt = [] ∧ (t.cell c).shadow.ht = []) ∧
          (l.base = 1 → (t.cell c).shadow = (s.cell c).active) ∧ (l.base = 2 → (t.cell c).shadow = (s.cell c).shadow)) ∧
        (∀ c, c ∉ patch → t.cell c = s.cell c))) ∧
    (∀ v : BitVec 16, opened → v.toNat < 3 → Gives (.cfgBank k src v) s (fun t => t.cells = s.cells ∧ (new t).bank = v.toNat)) ∧
    (opened → Gives (.cfgLit k src 0) s (fun t => t.cells = s.cells ∧ src ∈ (new t).lit)) ∧
    (∀ (cell field : BitVec 8) (v : BitVec 16), opened → fieldReserved l.bank field.toNat = false →
      let at_ := cellInSector k.val (l.x0 + cell.toNat % 16) (l.y0 + cell.toNat / 16)
      (cell ≠ 0xFE → cell ≠ 0xFF → cell.toNat % 16 < l.w → cell.toNat / 16 < l.h → Gives (.cfgWrite k src cell field v) s (fun t =>
        (t.cell at_).shadow = (s.cell at_).shadow.write l.bank field.toNat v ∧ (t.cell at_).active = (s.cell at_).active ∧
        ∀ c, c ≠ at_ → t.cell c = s.cell c)) ∧
      (cell = 0xFF → l.x0 + l.w ≤ 16 → l.y0 + l.h ≤ 32 → Gives (.cfgWrite k src cell field v) s (fun t =>
        (∀ c ∈ patchCells k.val l.x0 l.y0 l.w l.h, (t.cell c).shadow = (s.cell c).shadow.write l.bank field.toNat v ∧
          (t.cell c).active = (s.cell c).active) ∧
        ∀ c, c ∉ patchCells k.val l.x0 l.y0 l.w l.h → t.cell c = s.cell c)))) ∧
  (∀ (k : Fin 64) (src : LoadSource) (cell field : BitVec 8) (v : BitVec 16) (s : State), LoaderTakes s k.val src → cell ≠ 0xFE →
    (s.sector k.val).loader.serving ≠ some src → Gives (.cfgWrite k src cell field v) s (fun t =>
      t.cells = s.cells ∧ (src, 1) ∈ (t.sector k.val).loader.discarding))

/-- R74, R364, R66, R75: a SEAL whose checks pass makes every plane it expands SEALED under its version and closes the stream; a SWAP after it
sends a swap token to the patch just sealed. A SEAL whose checks fail makes every shadow plane of the patch STALE. That the loader is free from the SEAL on, also
where a SWAP follows, is the model's choice (log 124).
Forms that complete here: `cfgSeal`, `cfgSwap`. -/
def Obligations.SealAndSwapComplete : Prop :=
  ∀ (k : Fin 64) (src : LoadSource) (v : BitVec 16) (s : State), LoaderTakes s k.val src → bitsN v.toNat 15 4 = 0 →
    let l := (s.sector k.val).loader
    let at_ := fun (i : Nat) => cellInSector k.val (l.x0 + i % 16) (l.y0 + i / 16)
    let ps := (s.shadows k.val l.x0 l.y0 l.w l.h).map (fun e => (e.1, e.2.dropMarks))
    (l.serving = some src → l.opened = true →
      (s.sealFails k.val l.x0 l.y0 l.w l.h v.toNat ps = none → Gives (.cfgSeal k src v) s (fun t =>
        (∀ e ∈ (expandPatch ps l.w l.h).1, (t.cell (at_ e.1)).shadowState = .sealed (BitVec.ofNat 4 v.toNat) ∧
          (t.cell (at_ e.1)).shadow.ver = BitVec.ofNat 4 v.toNat ∧ (t.cell (at_ e.1)).active = (s.cell (at_ e.1)).active) ∧
        (t.sector k.val).loader.serving = none ∧ (src, l.x0, l.y0, l.w, l.h) ∈ (t.sector k.val).loader.ended)) ∧
      (s.sealFails k.val l.x0 l.y0 l.w l.h v.toNat ps ≠ none → Gives (.cfgSeal k src v) s (fun t =>
        (∀ e ∈ ps, (t.cell (at_ e.1)).shadowState = .stale ∧ (t.cell (at_ e.1)).active = (s.cell (at_ e.1)).active) ∧
        (t.sector k.val).loader.serving = none))) ∧
    (∀ x0 y0 w h, l.ended.find? (fun e => e.1 == src) = some (src, x0, y0, w, h) → Gives (.cfgSwap k src v) s (fun t =>
      (t.sector k.val).swapTokens = (s.sector k.val).swapTokens ++ [⟨x0, y0, w, h, BitVec.ofNat 4 v.toNat, src⟩] ∧ t.cells = s.cells))

/-! The Pilot. -/

/-- R313, R158, R22: the Pilot's instructions but `xg.gset`, in a Pilot that runs. `xg.qpop` takes the head of a queue, `xg.qpeek` its length; `xg.rpush` appends to a sector's
queue, or answers 1 to a full one; `xg.wfe` ends with an event, with 0 on a pending interrupt or at its time-out, and waits otherwise; `xg.evsig` sends; `xg.tlnch` sends a record or
a packet and ends with the reply; `xg.cfgw` gives a command to the loader and ends with its answer, for a SWAP once its token has come to its patch: it asks a resident instance's swap,
flips a patch without one whose planes are SEALED with its version, and else answers 1.
Forms that complete here: `xgQpop`, `xgQpeek`, `xgRpush`, `xgWfe`, `xgWfeTimeout`, `xgEvsig`, `xgTlnch`, `xgCfgw`. -/
def Obligations.PilotInstructionsComplete : Prop :=
  (∀ (die : Fin 4) (rd rs1 rs2 : BitVec 5) (s : State), s.pilotRuns die.val = true →
    let d := die.val
    let k := pilotSector d (s.pilotReg d rs2)
    (∀ v rest, (s.pilot d).queue (s.pilotReg d rs1) = v :: rest → Gives (.xgQpop die rd rs1 rs2) s (fun t =>
      PilotAdvanced s t d rd v.toNat ∧ (t.pilot d).queue (s.pilotReg d rs1) = rest)) ∧
    Gives (.xgQpeek die rd rs1 rs2) s (fun t => PilotAdvanced s t d rd ((s.pilot d).queue (s.pilotReg d rs1)).length ∧
      (t.pilot d).logit = (s.pilot d).logit ∧ (t.pilot d).event = (s.pilot d).event) ∧
    ((s.sector k).changing = none → (s.sector k).mode = .inService → (s.sector k).rrq.length < 64 → (∀ r ∈ s.reqs, r.stage ≠ .waiting) →
      Gives (.xgRpush die rd rs1 rs2) s (fun t => PilotAdvanced s t d rd 0 ∧ (t.sector k).rrq = (s.sector k).rrq ++
        [if bitsN (s.pilotReg d rs2) 8 8 = 1 then .endMarker else .record ((s.pilot d).reg rs1)])) ∧
    ((s.sector k).changing = none → 64 ≤ (s.sector k).rrq.length → Gives (.xgRpush die rd rs1 rs2) s (fun t =>
      PilotAdvanced s t d rd 1 ∧ t.sectors = s.sectors)) ∧
    (∀ v rest, (s.pilot d).event = v :: rest → Gives (.xgWfe die rd rs1 rs2) s (fun t => PilotAdvanced s t d rd v.toNat ∧
      (t.pilot d).event = rest ∧ (t.pilot d).wfeSince = none)) ∧
    ((s.pilot d).event = [] → (s.dieAt d).meip = true → Gives (.xgWfe die rd rs1 rs2) s (fun t => PilotAdvanced s t d rd 0 ∧
      (t.pilot d).wfeSince = none)) ∧
    ((s.pilot d).event = [] → (s.dieAt d).meip = false → (s.pilot d).wfeSince = none → Gives (.xgWfe die rd rs1 rs2) s (fun t =>
      (t.pilot d).pc = (s.pilot d).pc ∧ (t.pilot d).wfeSince = some s.now)) ∧
    (∀ b, (s.pilot d).event = [] → (s.dieAt d).meip = false → (s.pilot d).wfeSince = some b → s.pilotReg d rs1 ≠ 0 →
      b + pilotUnits (s.pilotReg d rs1) ≤ s.now → Gives (.xgWfeTimeout die rd rs1 rs2) s (fun t => PilotAdvanced s t d rd 0 ∧
        (t.pilot d).wfeSince = none)) ∧
    (s.reqs = [] → bitsN (s.pilotReg d rs1) 33 32 ≠ 3 → Gives (.xgEvsig die rd rs1 rs2) s (fun t => PilotAdvanced s t d 0 0 ∧
      ∃ r, t.reqs = [r] ∧ r.stage = .issued ∧ r.body = .send (BitVec.ofNat 32 (s.pilotReg d rs1)) (kindOfCode (bitsN (s.pilotReg d rs1) 33 32))
        (BitVec.ofNat 32 (s.pilotReg d rs2)))) ∧
    (s.reqs = [] → bitsN (s.pilotReg d rs1) 33 32 = 3 → exec (.xgEvsig die rd rs1 rs2) s = .fault .reservedSignalKind)) ∧
  (∀ (die : Fin 4) (rd rs1 rs2 : BitVec 5) (s : State), s.pilotRuns die.val = true →
    let d := die.val
    let a := s.pilotReg d rs1
    let v := s.pilotReg d rs2
    (∀ w, (s.pilot d).reply = some w → Gives (.xgTlnch die rd rs1 rs2) s (fun t => PilotAdvanced s t d rd w.toNat ∧ (t.pilot d).reply = none)) ∧
    ((s.pilot d).reply = none → s.reqs = [] → s.pilotPresent a 64 = true → Gives (.xgTlnch die rd rs1 rs2) s (fun t =>
      (t.pilot d).pc = (s.pilot d).pc ∧ ∃ r, t.reqs = [r] ∧ r.stage = .issued ∧
        r.body = (if v % 2 = 0 then .tenq (BitVec.ofNat 512 (s.pilotRead d a 64)) else .tlnch (bitsN v 21 8) (BitVec.ofNat 512 (s.pilotRead d a 64))))) ∧
    (let k := pilotSector d v
     s.loaderTakes k .pilot (s.isBegin k .pilot (bitsN a 31 24) (bitsN a 23 16)) = true → ¬(bitsN a 31 24 = 0xFE ∧ bitsN a 23 16 = 6) →
     let r := s.loaderStep k .pilot (bitsN a 31 24) (bitsN a 23 16) (bitsN a 15 0)
     Gives (.xgCfgw die rd rs1 rs2) s (fun t => PilotAdvanced s t d rd r.result ∧ t.sectors = r.state.sectors ∧ t.cells = r.state.cells)) ∧
    (let k := pilotSector d v
     let l := (s.sector k).loader
     ∀ x0 y0 w h, LoaderTakes s k .pilot → bitsN a 31 24 = 0xFE → bitsN a 23 16 = 6 → bitsN a 15 4 = 0 →
     l.ended.find? (fun e => e.1 == .pilot) = some (.pilot, x0, y0, w, h) → x0 + w ≤ 16 → y0 + h ≤ 32 →
     let ver := BitVec.ofNat 4 (bitsN a 15 0)
     let here := fun (i : Inst) => !i.retired && i.restoreStep != 1 && i.rect == (k, x0, y0, w, h)
     (∀ i, s.insts.find? here = some i → Gives (.xgCfgw die rd rs1 rs2) s (fun t => PilotAdvanced s t d rd 0 ∧ t.cells = s.cells ∧
       (t.sector k).swapTokens = (s.sector k).swapTokens ∧ ∀ j ∈ t.insts, j.id = i.id → j.swap.isSome = true)) ∧
     (s.insts.find? here = none → 0 < w → 0 < h → s.sealedFrom k x0 y0 w h ≤ s.cycle k →
       (∀ c ∈ patchCells k x0 y0 w h, (s.cell c).shadowState = .sealed ver) → Gives (.xgCfgw die rd rs1 rs2) s (fun t =>
         PilotAdvanced s t d rd 0 ∧ t.insts = s.insts ∧ (t.sector k).swapTokens = (s.sector k).swapTokens ∧
         ∀ c ∈ patchCells k x0 y0 w h, (t.cell c).active = (s.cell c).shadow ∧ (t.cell c).shadow = (s.cell c).active ∧ (t.cell c).shadowState = .stale)) ∧
     (s.insts.find? here = none → (∃ c ∈ patchCells k x0 y0 w h, (s.cell c).shadowState ≠ .sealed ver) →
       Gives (.xgCfgw die rd rs1 rs2) s (fun t => PilotAdvanced s t d rd 1 ∧ t.cells = s.cells ∧ t.insts = s.insts ∧
         (t.sector k).swapTokens = (s.sector k).swapTokens))))

/-- R314, R310: the grant-table operations in a Pilot that runs: READ changes nothing; SETEXP sets expert and capacity, closes and empties; SETBASE its base; OPEN opens a round, empty;
CLOSE closes, with no weight write stuck. An entry decides a routing record: closed or in another round 3; a token granted before its slot again; with room the next slot; without, 1.
Forms that complete here: `xgGsetRead`, `xgGsetSetexp`, `xgGsetSetbase`, `xgGsetOpen`, `xgGsetClose`. -/
def Obligations.GrantTableRule : Prop :=
  (∀ (die : Fin 4) (rd rs1 rs2 : BitVec 5) (s : State), s.pilotRuns die.val = true →
    let d := die.val
    let v := s.pilotReg d rs2
    let a := s.pilotReg d rs1
    let g := s.grantAt d v
    (bitsN v 11 8 = 0 → Gives (.xgGsetRead die rd rs1 rs2) s (fun t => PilotAdvanced s t d rd g.word ∧ t.sectors = s.sectors)) ∧
    Gives (.xgGsetSetexp die rd rs1 rs2) s (fun t => PilotAdvanced s t d rd 0 ∧ (t.grantAt d v).expert = bitsN a 7 0 ∧
      (t.grantAt d v).cap = bitsN a 28 16 ∧ (t.grantAt d v).used = 0 ∧ (t.grantAt d v).defc = 0 ∧ (t.grantAt d v).opened = false ∧
      (t.grantAt d v).wbase = g.wbase ∧ (t.grantAt d v).granted = []) ∧
    Gives (.xgGsetSetbase die rd rs1 rs2) s (fun t => PilotAdvanced s t d rd 0 ∧ t.grantAt d v = { g with wbase := a }) ∧
    Gives (.xgGsetOpen die rd rs1 rs2) s (fun t => PilotAdvanced s t d rd 0 ∧ (t.grantAt d v).opened = true ∧
      (t.grantAt d v).round = bitsN a 2 0 ∧ (t.grantAt d v).used = 0 ∧ (t.grantAt d v).granted = [] ∧ (t.grantAt d v).cap = g.cap) ∧
    (g.stuck = none → Gives (.xgGsetClose die rd rs1 rs2) s (fun t => PilotAdvanced s t d rd (g.defc * 2 ^ 16 + g.used) ∧
      t.grantAt d v = { g with opened := false })) ∧
    (g.stuck ≠ none → Gives (.xgGsetClose die rd rs1 rs2) s (fun t => (t.pilot d).pc = (s.pilot d).pc ∧ (t.grantAt d v).opened = false))) ∧
  (∀ (g : Grant) (v : BitVec 64) (asid root : Nat),
    ((g.opened = false ∨ rrRound v ≠ g.round) → g.decide v asid root = (3 * 2 ^ 30, g, none)) ∧
    (g.opened = true → rrRound v = g.round →
      (∀ e, g.granted.find? (fun x => x.1 == rrToken v) = some e → (g.decide v asid root).1 = 2 * 2 ^ 30 + e.2 ∧ (g.decide v asid root).2.1 = g ∧
        ∃ w, (g.decide v asid root).2.2 = some w ∧ w.dup = true ∧ w.slot = e.2) ∧
      (g.granted.find? (fun x => x.1 == rrToken v) = none → g.used < g.cap → (g.decide v asid root).1 = g.used ∧
        (g.decide v asid root).2.1.used = g.used + 1 ∧ (g.decide v asid root).2.1.granted = g.granted ++ [(rrToken v, g.used)]) ∧
      (g.granted.find? (fun x => x.1 == rrToken v) = none → g.cap ≤ g.used → (g.decide v asid root).1 = 2 ^ 30 ∧
        (g.decide v asid root).2.2 = none ∧ (rrPol v = false → (g.decide v asid root).2.1 = g))))

/-- R313, R22: a custom-0 word that is none of the Pilot's instructions takes the illegal-instruction exception. The registers that save pc, cause and word, the
status that bars interrupts, and the trap vector, are the model's, after the family of R22 (log 12). -/
def Obligations.PilotIllegalWordTraps : Prop :=
  ∀ (s : State) (d : Fin 4) (e : Reject), s.pilotRuns d.val = true → s.pilotInterrupt d.val = false →
    s.pilotPresent (s.pilot d.val).pc.toNat 2 = true → s.pilotPresent (s.pilot d.val).pc.toNat 4 = true →
    let w := s.pilotWordAt d.val
    bitsN w.toNat 6 0 = 0x0B → decodePilot d (bitsN (s.pilotReg d.val (BitVec.ofNat 5 (bitsN w.toNat 24 20))) 11 8) w = .error e →
    ∃ t, s.takePilot d.val = .idle t ∧ (t.pilot d.val).mepc = (s.pilot d.val).pc ∧ (t.pilot d.val).mcause = 2 ∧
      (t.pilot d.val).mtval = BitVec.ofNat 64 w.toNat ∧ (t.pilot d.val).mstatus = mstatusOf false ((s.pilot d.val).mstatus.getLsbD 3) ∧
      (t.pilot d.val).pc = (s.pilot d.val).vector 2 ∧ (t.pilot d.val).x = (s.pilot d.val).x ∧ t.mem = s.mem ∧ t.cells = s.cells

/-! Power and clocks. -/

/-- R332, R333, R338, R410: SCTL writes take a sector toward closing, back, or from gated into CALIB, and request RATIO; a closing idle sector gates; CALIB ends in service
or gated with a record of the failing unit or of its limit; a ratio change stops the clock and its completion starts it at the ratio wanted.
Forms that complete here: `sectorOutOfServiceRequest`, `sectorReturnRequest`, `ratioRequest`, `gatingSequence`, `calibComplete`, `calibTimeout`, `ratioChange`,
`ratioChangeComplete`. -/
def Obligations.SectorControlCompletes : Prop :=
  (∀ (s : State), s.dieExists s.input.die = true → s.frozen = false →
    let k := s.inSector
    let v := s.input.value.toNat
    (Gives .sectorOutOfServiceRequest s (fun t => (t.sector k).oosreq = true ∧
      ((s.sector k).mode = .inService → (t.sector k).mode = .closing) ∧ ((s.sector k).mode ≠ .inService → (t.sector k).mode = (s.sector k).mode))) ∧
    (Gives .sectorReturnRequest s (fun t => (t.sector k).oosreq = false ∧
      ((s.sector k).mode = .closing → (t.sector k).mode = .inService) ∧
      ((s.sector k).mode = .gated → (t.sector k).mode = .calib ∧ (t.sector k).slate = [] ∧ (t.sector k).calibSince = s.dev))) ∧
    (Gives .ratioRequest s (fun t => (t.sector k).oosreq = (s.sector k).oosreq ∧
      (t.sector k).ratioReq = (if bitsN v 21 20 = 3 then (s.sector k).ratioReq else bitsN v 21 20)))) ∧
  (∀ (s : State), s.frozen = false →
    (∀ k, (s.sector k).mode = .closing → (s.sector k).changing = none → (∀ i ∈ s.insts, i.sector = k → i.retired = true) →
      ((s.sector k).closed = false → Gives (.gatingSequence k) s (fun t => (t.sector k).closed = true ∧ (t.sector k).mode = .closing)) ∧
      ((s.sector k).closed = true → s.sectorBusy k = false → Gives (.gatingSequence k) s (fun t => (t.sector k).mode = .gated ∧
        (t.sector k).grants = [] ∧ (t.sector k).rrq = [] ∧ t.mem = s.mem))) ∧
    (let k := s.inSector
     (s.sector k).mode = .calib → s.dev ≤ (s.sector k).calibSince + calibLimit →
     (s.input.value = 0 → Gives .calibComplete s (fun t => (t.sector k).mode = .inService ∧ (t.sector k).closed = false)) ∧
     (s.input.value ≠ 0 → Gives .calibComplete s (fun t => (t.sector k).mode = .gated ∧ (t.sector k).oosreq = true ∧
       Recorded s t (dieOfSector k) 0x0C06 (s.input.value.toNat % 16)))) ∧
    (∀ k, (s.sector k).mode = .calib → (s.sector k).calibSince + calibLimit < s.dev → Gives (.calibTimeout k) s (fun t =>
      (t.sector k).mode = .gated ∧ (t.sector k).oosreq = true ∧ Recorded s t (dieOfSector k) 0x0C06 5))) ∧
  (∀ (s : State) (k : Nat),
    (s.sectorRuns k = true → (s.sector k).ratioWanted ≠ (s.sector k).ratio → s.bulkBusy k = false → Gives (.ratioChange k) s (fun t =>
      (t.sector k).changing = some (s.sector k).ratioWanted ∧ (t.sector k).ratio = (s.sector k).ratio ∧ s.cycle k ≤ t.cycle k ∧
      t.sectorRuns k = false)) ∧
    (∀ r, (s.sector k).changing = some r → s.frozen = false → Gives (.ratioChangeComplete k) s (fun t =>
      (t.sector k).ratio = r ∧ (t.sector k).changing = none ∧ t.cycle k = s.cycle k)))

/-- R334, R336, R337, R341, R410: the package's power events. A metering interval gives every sector its budget anew; an Almanac update takes the
predictions and moves every sector's cap; a power sample is taken; a reading above its limit and a converter fault leave a record; the brake sets
every sector's caps at once, and its release ends it, the caps staying until the Almanac's next update (log 96).
Forms that complete here: `meterInterval`, `almanacUpdate`, `powerMonitorSample`, `sensorOvertemp`, `converterFault`, `powerBrakeAssert`, `powerBrakeRelease`. -/
def Obligations.PowerEventsComplete : Prop :=
  ∀ (s : State),
    (s.frozen = false → s.deviceNs / 1000 ≠ s.meterAt → Gives .meterInterval s (fun t => ∀ k, k < 16 * s.dies →
      (t.sector k).rem = 256 * (s.sector k).budgetNow ∧ (t.sector k).moved = 0 ∧ (t.sector k).movedLast = (s.sector k).moved)) ∧
    (s.frozen = false → s.proctor.almanacAt + 1000 * usUnits ≤ s.dev → Gives .almanacUpdate s (fun t =>
      t.proctor.predictions = s.input.ints ∧ t.proctor.almanacAt = s.dev ∧ ∀ k, k < 16 * s.dies →
        (t.sector k).almCap = ((s.sector k).almanac (s.input.ints.getD k 0) (s.dieAt (dieOfSector k)).twarn (s.dieAt (dieOfSector k)).ttrip).almCap)) ∧
    (s.frozen = false → s.proctor.powerAt + 100 * usUnits ≤ s.dev → Gives .powerMonitorSample s (fun t =>
      t.proctor.power = s.input.value.toNat ∧ t.proctor.powerAt = s.dev)) ∧
    (s.input.flag = false → 115 < s.input.ints.getD 0 0 → Gives .sensorOvertemp s (fun t => Recorded s t (dieOfSector s.inSector) 0x0C02 0)) ∧
    (s.input.flag = true → 125 < s.input.ints.getD 0 0 → Gives .sensorOvertemp s (fun t => Recorded s t (dieOfSector s.inSector) 0x0C05 0)) ∧
    (Gives .converterFault s (fun t => Recorded s t (dieOfSector s.inSector) 0x0C04 0)) ∧
    (Gives .powerBrakeAssert s (fun t => t.proctor.brake = true ∧ ∀ k, k < 16 * s.dies → (t.sector k).ratioCap = 2 ∧ (t.sector k).boardCap = 16)) ∧
    (Gives .powerBrakeRelease s (fun t => t.proctor.brake = false ∧ t.sectors = s.sectors))

/-! Host, links and the Proctor. -/

/-- R327, R326, R127, R8: a write of a naturally aligned whole register of the control block (RAMPCTL, BUDGET, WDCFG among them) sets it, and a read of BAR 0
answers it; a doorbell page reads 0; a host write of HBM stores its bytes and no other, and a read of bytes that are correctable answers them; beyond the memory
present a write is dropped and a read answers all ones.
Forms that complete here: `registerWrite`, `hostHbmAccess`. -/
def Obligations.HostAccessCompletes : Prop :=
  ∀ (s : State), s.frozen = false →
    let x := s.input
    (s.dieExists x.die = true →
      (x.offset = 0x4A0 → x.size = 4 → Gives .registerWrite s (fun t =>
        (t.dieAt x.die).rampctl = BitVec.ofNat 32 (bitsN x.value.toNat 25 16 * 2 ^ 16 + bitsN x.value.toNat 9 0) ∧ t.mem = s.mem ∧ t.cells = s.cells)) ∧
      (∀ n, n < 16 → x.offset = 0x460 + 4 * n → x.size = 4 → Gives .registerWrite s (fun t =>
        (t.sector (16 * x.die + n)).budget = bitsN x.value.toNat 15 0 ∧ t.mem = s.mem ∧ t.cells = s.cells)) ∧
      (x.offset = 0x918 → x.size = 8 → Gives .registerWrite s (fun t => (t.dieAt x.die).wdcfg = bitsN x.value.toNat 19 0 ∧ t.mem = s.mem))) ∧
    ((x.size = 1 ∨ x.size = 2 ∨ x.size = 4 ∨ x.size = 8) → x.offset % x.size = 0 → x.port = 2 → x.offset < 2 ^ 20 →
      Gives .hostHbmAccess s (fun t => t = s.respond 0)) ∧
    ((x.size = 1 ∨ x.size = 2 ∨ x.size = 4 ∨ x.size = 8) → x.offset % x.size = 0 → x.port = 1 → x.offset < 2 ^ 22 →
      s.dieExists (x.offset / 2 ^ 20) = true → Gives .hostHbmAccess s (fun t =>
        (x.offset % 2 ^ 20 = 0x918 → x.size = 8 → t.responses = s.responses ++ [BitVec.ofNat 64 (s.dieAt (x.offset / 2 ^ 20)).wdcfg]) ∧
        t.mem = s.mem ∧ t.cells = s.cells)) ∧
    ((x.size = 1 ∨ x.size = 2 ∨ x.size = 4 ∨ x.size = 8) → x.offset % x.size = 0 → x.port = 0 → x.offset < 2 ^ 39 → x.offset < s.hbmBytes →
      let pa := s.package * 2 ^ 45 + x.offset
      (x.flag = true → Gives .hostHbmAccess s (fun t => t.memRead pa x.size = x.value.toNat % 2 ^ (8 * x.size) ∧
        (∀ a, (a < pa ∨ pa + x.size ≤ a) → t.memByte a = s.memByte a) ∧ t.cells = s.cells)) ∧
      (x.flag = false → s.memBad pa = false → Gives .hostHbmAccess s (fun t =>
        t.responses = s.responses ++ [BitVec.ofNat 64 (s.memRead pa x.size)] ∧ t.mem = s.mem))) ∧
    ((x.size = 1 ∨ x.size = 2 ∨ x.size = 4 ∨ x.size = 8) → x.offset % x.size = 0 → x.port = 0 → x.offset < 2 ^ 39 → s.hbmBytes ≤ x.offset →
      (x.flag = true → Gives .hostHbmAccess s (fun t => t = s)) ∧
      (x.flag = false → Gives .hostHbmAccess s (fun t => t = s.respond (2 ^ (8 * x.size) - 1))))

/-- R329, R330, R404: ports of a package that is not frozen: enabling trains, training brings the port UP with its sequences begun anew; a disabled or abandoned port goes DOWN with
nothing left to send again; lane errors, WMAX, WIDTH flits and good regain tests start a width change, whose completion takes the width and counts a shed. That EN and WMAX have events of their own, and that the width of a
received WIDTH flit is the turn's, is log 99.
Forms that complete here: `portEnable`, `trainingComplete`, `peerPortDown`, `wmaxWrite`, `laneError`, `retrainComplete`, `widthRegainTest`, `widthFlitReceive`. -/
def Obligations.PortEventsComplete : Prop :=
  (∀ (s : State), let n := s.input.port
    let p := s.port n
    s.linkRuns n = true →
    (bitsN s.input.value.toNat 31 31 = 1 → Gives .portEnable s (fun t => (t.port n).enabled = true ∧
      (t.port n).state = (if p.state = 0 then 1 else p.state))) ∧
    (bitsN s.input.value.toNat 31 31 = 0 → Gives .portEnable s (fun t => (t.port n).enabled = false ∧ (t.port n).state = 0)) ∧
    (p.state = 1 → Gives .trainingComplete s (fun t => (t.port n).state = 2 ∧ (t.port n).width = p.wmax ∧ (t.port n).txSeq = 0 ∧
      (t.port n).rxSeq = 4095 ∧ (t.port n).replay = [])) ∧
    (p.state ≠ 0 → Gives .peerPortDown s (fun t => (t.port n).state = 0 ∧ (t.port n).replay = [] ∧ (t.port n).outWords = [] ∧ 265 ∈ t.msix)) ∧
    (bitsN s.input.value.toNat 30 29 ≠ 3 → Gives .wmaxWrite s (fun t => (t.port n).wmax = bitsN s.input.value.toNat 30 29 ∧
      (p.state = 2 → p.width < bitsN s.input.value.toNat 30 29 → (t.port n).state = 3 ∧ (t.port n).target = some (p.width + 1))))) ∧
  (∀ (s : State), let n := s.input.port
    let p := s.port n
    s.linkRuns n = true →
    (p.auto = true → p.state = 2 → p.width < 2 → Gives .laneError s (fun t => (t.port n).state = 3 ∧ (t.port n).target = some (p.width + 1))) ∧
    (p.auto = true → p.state = 3 → Gives .laneError s (fun t => (t.port n).pendingDown = p.pendingDown + 1 ∧ (t.port n).target = p.target)) ∧
    (∀ w, p.target = some w → p.state = 3 → s.input.flag = false → p.pendingDown = 0 → p.exhausted = false → p.wmax ≤ w → Gives .retrainComplete s (fun t =>
      (t.port n).state = 2 ∧ (t.port n).width = w ∧ (t.port n).target = none ∧ (t.port n).sheds = (p.sheds + 1) % 256)) ∧
    (p.auto = true → p.state = 2 → p.wmax < p.width → p.regainAt + 100000 * usUnits ≤ s.dev → Gives .widthRegainTest s (fun t =>
      (t.port n).regainAt = s.dev ∧ (s.input.flag = true → (t.port n).state = 3 ∧ (t.port n).target = some (p.width - 1)) ∧
      (s.input.flag = false → (t.port n).state = 2 ∧ (t.port n).width = p.width))) ∧
    (flitOk s.input.words = true → flitType s.input.words = 3 → p.state = 2 → Gives .widthFlitReceive s (fun t =>
      (t.port n).state = 3 ∧ (t.port n).target = some (s.input.value.toNat % 3))))

/-- R329, R404, R405: flits at a port that is UP. A good DATA flit in sequence is taken and its words for this package kept in order by VC, die and token; one with a bad
CRC, or a DATA flit out of sequence, leaves the sequence where it was and is answered by one NAK; a NAK sends every unacknowledged flit again; an IDLE's time of arrival is kept; a
flit resent 8 times, or no acknowledgement for 100 us, takes a width step, or the port DOWN with a record, and in RETRAIN waits for its end.
Forms that complete here: `flitReceive`, `nakReceive`, `idleReceive`, `replayExhausted`. -/
def Obligations.FlitsComplete : Prop :=
  ∀ (s : State), let n := s.input.port
    let p := s.port n
    let f := s.input.words
    s.linkRuns n = true →
    (p.state = 2 → flitOk f = true → flitType f = 0 → flitSeq f = (p.rxSeq + 1) % 4096 → ((f.drop 1).take 30).all s.wordRoom = true →
      Gives .flitReceive s (fun t => (t.port n).rxSeq = flitSeq f ∧ (t.port n).nakSent = false ∧
        (t.port n).inbox = p.inbox ++ (((f.drop 1).take 30).filter (fun w => decide (w ≠ 0) && decide (bitsN w.toNat 60 55 = s.package))).map
          (fun w => (24 + bitsN w.toNat 63 61, bitsN w.toNat 54 53, BitVec.ofNat 39 (bitsN w.toNat 38 0))))) ∧
    (p.state = 2 → (flitOk f = false ∨ (flitType f = 0 ∧ flitSeq f ≠ (p.rxSeq + 1) % 4096)) → Gives .flitReceive s (fun t =>
      (t.port n).rxSeq = p.rxSeq ∧ (t.port n).nakSent = true ∧ (t.port n).inbox = p.inbox ∧
      (t.port n).sent.length = p.sent.length + (if p.nakSent then 0 else 1))) ∧
    (p.state = 2 → flitOk f = true → flitType f = 2 → let q := p.acked (flitAck f) s.dev
      Gives .nakReceive s (fun t => (t.port n).sent.length = p.sent.length + q.replay.length ∧ (t.port n).replay = q.replay ∧
        (q.replay ≠ [] → (t.port n).replays = (p.replays + 1) % 4096))) ∧
    (p.state = 2 → flitOk f = true → flitType f = 1 → Gives .idleReceive s (fun t => (t.port n).idleSeen = s.deviceNs)) ∧
    (∀ k, let q := s.port k
      s.linkRuns k = true → q.replay ≠ [] → ((∃ x ∈ q.replay, 8 ≤ Map.get 0 q.resent x.1) ∨ q.ackAt + 100 * usUnits ≤ s.dev) →
      (q.state = 2 → q.auto = true → q.width < 2 → Gives (.replayExhausted k) s (fun t => (t.port k).state = 3 ∧ (t.port k).target = some (q.width + 1))) ∧
      (q.state = 2 → (q.auto = false ∨ 2 ≤ q.width) → Gives (.replayExhausted k) s (fun t => (t.port k).state = 0 ∧
        ∃ r ∈ (t.dieAt (k / 4)).records, r.code = 0x0905)) ∧
      (q.state = 3 → Gives (.replayExhausted k) s (fun t => (t.port k).state = 3 ∧ (t.port k).exhausted = true ∧ (t.port k).replay = q.replay)))

/-- R337, R339, R340, R342, R343, R411: the Proctor serves its requests. The attestation requests only answer, CHALLENGE also authenticates; STAGE places its bytes; ACTIVATE of an
image that fails verification leaves the old one, REJECTED, and of another waits for the quiesce point, where the hand-over puts it in force, and past its limit the old one
stays; THERMCFG sets thresholds in their ranges and refuses others; TIME is set once, before the first launch; FREEZE is set after a CHALLENGE. While Proctor firmware is
replaced a request is held. The bytes of the messages, the status codes and what a request held becomes are the model's (logs 64 to 66, 101).
Forms that complete here: `getVersion`, `getCapabilities`, `negotiateAlgorithms`, `status`, `getDigests`, `getCertificate`, `challenge`, `getMeasurements`,
`stage`, `activate`, `firmwareHandover`, `activateTimeout`, `thermcfg`, `time`, `freeze`. -/
def Obligations.ProctorRequestsComplete : Prop :=
  (∀ (s : State), s.proctor.doeHeld = true → ∀ a ∈ [Instr.getVersion, .getCapabilities, .negotiateAlgorithms, .status, .getDigests, .getCertificate, .challenge,
      .getMeasurements, .stage, .activate, .thermcfg, .time, .freeze],
    Gives a s (fun t => t.doeQueue = s.doeQueue ++ [⟨0, .event a, s.input⟩] ∧ t.proctor = s.proctor ∧ t.cells = s.cells ∧ t.mem = s.mem)) ∧
  (∀ (s : State), s.proctor.doeHeld = false →
    let answers := fun (b : List Byte) (t : State) => t = { s with proctor := { s.proctor with lastResponse := b } }
    Gives .getVersion s (answers [0x13, 0x04, 0, 0, 0, 1, 0, 0x13]) ∧
    Gives .getCapabilities s (answers [0x13, 0x61, 0, 0, 0x16, 0, 0, 0]) ∧
    Gives .negotiateAlgorithms s (fun t => t.proctor.negotiated = true ∧ t.cells = s.cells ∧ t.mem = s.mem) ∧
    Gives .status s (fun t => ∃ b, answers b t) ∧
    (s.proctor.negotiated = true →
      Gives .getDigests s (answers ([0x13, 0x01, 0, 1] ++ natBytes 64 (Config.shake256 Config.certificate).toNat)) ∧
      Gives .getCertificate s (answers ([0x13, 0x02, 0, 0] ++ (Config.certificate.drop s.input.offset).take s.input.size)) ∧
      Gives .challenge s (fun t => t.proctor.challenged = true ∧ t.proctor.lastResponse = [0x13, 0x03, 0, 1] ++ Config.sign s.input.bytes ∧ t.cells = s.cells) ∧
      Gives .getMeasurements s (fun t => ∃ b, answers ([0x13, 0x60, 5, 0] ++ b) t ∧ b.length = 325)) ∧
    (imageKind s.input.index = true → s.proctor.fwk.pending = none →
      (s.input.bytes.length ≤ 4096 → Gives .stage s (fun t => t.proctor.lastResponse = [0] ∧ t.proctor.fwk.kind = s.input.index ∧
        (t.proctor.fwk.staged.drop s.input.offset).take s.input.bytes.length = s.input.bytes ∧ t.proctor.fwk.version = s.proctor.fwk.version)) ∧
      (s.proctor.fwk.kind = s.input.index → Config.signatureOk s.input.index s.proctor.fwk.staged = false → Gives .activate s (fun t =>
        t.proctor.lastResponse = [1] ∧ t.proctor.fwk.status = 1 ∧ t.proctor.fwk.version = s.proctor.fwk.version ∧ t.proctor.fwk.pending = none)) ∧
      (s.proctor.fwk.kind = s.input.index → Config.signatureOk s.input.index s.proctor.fwk.staged = true →
        Config.minimumVersion s.input.index ≤ Config.securityVersion s.proctor.fwk.staged → Gives .activate s (fun t =>
          t.proctor.lastResponse = s.proctor.lastResponse ∧ t.proctor.fwk.pending = some s.input.index ∧ t.proctor.fwk.version = s.proctor.fwk.version)))) ∧
  (∀ (s : State),
    (∀ k, s.proctor.fwk.pending = some k → s.quiesced k = true → s.dev ≤ s.proctor.fwk.since + activateLimit → Gives .firmwareHandover s (fun t =>
      t.proctor.fwk.pending = none ∧ t.proctor.lastResponse = [0] ∧ Map.get 0 t.proctor.fwk.version k = Config.securityVersion s.proctor.fwk.staged)) ∧
    (∀ k, s.proctor.fwk.pending = some k → s.proctor.fwk.since + activateLimit < s.dev → Gives .activateTimeout s (fun t =>
      t.proctor.fwk.pending = none ∧ t.proctor.lastResponse = [2] ∧ t.proctor.fwk.status = 2 ∧ t.proctor.fwk.version = s.proctor.fwk.version)) ∧
    (s.proctor.doeHeld = false →
      (let w := s.input.ints.getD 0 0
       let x := s.input.ints.getD 1 0
       s.input.flag = false → s.dieExists s.input.die = true →
       ((60 ≤ w ∧ w ≤ 100 ∧ w + 5 ≤ x ∧ x ≤ 110) → Gives .thermcfg s (fun t => (t.dieAt s.input.die).twarn = w ∧ (t.dieAt s.input.die).ttrip = x)) ∧
       (¬(60 ≤ w ∧ w ≤ 100 ∧ w + 5 ≤ x ∧ x ≤ 110) → Gives .thermcfg s (fun t => t.die = s.die ∧ t.proctor.lastResponse.head? = some 3))) ∧
      (∀ ns, s.input.time = .set ns → s.proctor.timeSet = false → s.proctor.launched = false → Gives .time s (fun t =>
        t.deviceNs = ns.toNat ∧ t.proctor.timeSet = true)) ∧
      (∀ ns, s.input.time = .set ns → (s.proctor.timeSet = true ∨ s.proctor.launched = true) → Gives .time s (fun t =>
        t.deviceNs = s.deviceNs ∧ t.proctor.lastResponse.head? = some 3)) ∧
      (∀ k, s.input.time = .source k → Gives .time s (fun t => t.proctor.timeSource = k.val ∧ t.deviceNs = s.deviceNs)) ∧
      (∀ v, s.input.setting = some v → s.proctor.challenged = true → Gives .freeze s (fun t => t.proctor.freezeRun = v)) ∧
      (∀ v, s.input.setting = some v → s.proctor.challenged = false → Gives .freeze s (fun t => t.proctor.freezeRun = s.proctor.freezeRun ∧
        t.proctor.lastResponse.head? = some 3))))

/-- R342: FRZ_N low, or a request of a party, freezes a package whose enable is set; the pin's or the party's release ends its part; while frozen a cell, a sector's segment or another part of the state can be read out, an access of the host waits, no time
passes, no operator fires, no route entry steps, no loader accepts and no Pilot runs. What readout shows where the spec gives no layout, and that an access of the host is
performed after the release, are the model's (logs 67, 103).
Forms that complete here: `frzNAssert`, `frzNRelease`, `proctorFreezeRequest`, `frzrel`, `tapReadout`, `hostHbmAccess`, `registerWrite`. -/
def Obligations.FreezeCompletes : Prop :=
  (∀ (s : State),
    Gives .frzNAssert s (fun t => t.proctor.frzPin = true ∧ t.cells = s.cells ∧ (s.proctor.freezeEnable = true → t.frozen = true)) ∧
    (s.proctor.lossDue = [] → Gives .frzNRelease s (fun t => t.proctor.frzPin = false ∧ t.cells = s.cells)) ∧
    (s.proctor.freezeEnable = true → s.proctor.frzProctor = none → Gives .proctorFreezeRequest s (fun t =>
      t.proctor.frzProctor = some (s.input.index % 2) ∧ t.frozen = true)) ∧
    (s.proctor.lossDue = [] → s.proctor.frzProctor = some (s.input.index % 2) → (s.input.index % 2 = 1 ∨ s.proctor.challenged = true) →
      Gives .frzrel s (fun t => t.proctor.frzProctor = none ∧ t.cells = s.cells)) ∧
    (s.frozen = true → Gives .tapReadout s (fun t => (s.input.port = 0 → t.proctor.readout = s.cellReadout s.input.index) ∧
      (s.input.port = 1 → t.proctor.readout = s.sectorReadout (s.input.index % 64)) ∧
      (2 ≤ s.input.port → t.proctor.readout = s.otherReadout s.input.port s.input.index s.input.offset) ∧ t.cells = s.cells ∧ t.mem = s.mem))) ∧
  (∀ (s : State), s.frozen = true →
    (∀ t, (s.advance t).now = s.now ∧ (s.advance t).dev = s.dev) ∧
    (s.input.wholeAccess = true → Gives .hostHbmAccess s (fun t => t = s.defer .hostHbmAccess) ∧
      (s.dieExists s.input.die = true → Gives .registerWrite s (fun t => t = s.defer .registerWrite))) ∧
    (∀ opc site f pre act, s.fire opc site f pre act = .next s) ∧ (∀ site reads g, s.routeStep site reads g = .next s) ∧
    (∀ k src, s.loaderAccepts k src = false) ∧ (∀ d, s.pilotRuns d = false))

/-! Events: fabric, requests and translation. -/

/-- R17, R43, R45, R50, R154: a token whose time has come and whose VC the link's arbiter serves next crosses into a neighbour with room:
unchanged inside an instance, under the resident instance's version at its boundary; the VC served last is then its own, and one more has gone in
the cycle. A service token, a request or an update of a subscription, takes its turn at the same arbiter, and has then come one link further. A link that has sent two tokens in the cycle sends no more. A transit
entry sends a token to the PE's channel, where it lands in the next cycle.
Forms that complete here: `tokenHop`. -/
def Obligations.TokensHop : Prop :=
  ∀ (s : State) (cell vc : Nat) (i : Inst), s.frozen = false → i.hold = none → i.parked = false →
    (∀ port n x rest, port < 4 → vc < 24 → s.neighbour cell port = some n → (s.cell cell).linkQ port vc = x :: rest → x.ready ≤ s.now →
      s.sectorRuns (sectorOfCell n) = true → ((s.cell n).inFifo (oppositePort port) vc).length < 4 → x.tok.parityOk = true → s.instAt n = some i →
      s.linkSent cell port < 2 → s.linkNext cell port = some vc →
      (i.covers cell = true → Gives (.tokenHop cell port vc) s (fun t => (t.cell cell).linkQ port vc = rest ∧
        (t.cell n).inFifo (oppositePort port) vc = (s.cell n).inFifo (oppositePort port) vc ++ [x.tok] ∧
        Map.get LinkArb.reset (t.cell cell).arbs port = ⟨s.cycle (sectorOfCell cell), s.linkSent cell port + 1, vc⟩ ∧ t.mem = s.mem)) ∧
      (i.covers cell = false → (s.cell n).transitOut (oppositePort port) vc = none → s.boundaryOpen i n (oppositePort port) vc = true →
        Gives (.tokenHop cell port vc) s (fun t => (t.cell cell).linkQ port vc = rest ∧
          (t.cell n).inFifo (oppositePort port) vc = (s.cell n).inFifo (oppositePort port) vc ++ [x.tok.restamp (s.cell n).active.ver]))) ∧
    (∀ port n m, port < 4 → 24 ≤ vc → s.neighbour cell port = some n → s.meshHead cell port vc = some m →
      s.linkSent cell port < 2 → s.linkNext cell port = some vc →
      (∀ id r, m.ref = .req id → s.req id = some r → Gives (.tokenHop cell port vc) s (fun t =>
        (∃ q, t.req id = some q ∧ q.hops = r.hops + 1 ∧ q.hopAt = s.now ∧ q.body = r.body ∧ q.stage = r.stage) ∧
        Map.get LinkArb.reset (t.cell cell).arbs port = ⟨s.cycle (sectorOfCell cell), s.linkSent cell port + 1, vc⟩ ∧ t.mem = s.mem)) ∧
      (∀ id k p u, m.ref = .update id k → s.pairs.find? (fun x => x.id == id) = some p → p.queue[k]? = some u → Gives (.tokenHop cell port vc) s (fun t =>
        (∃ q, t.pairs.find? (fun x => x.id == id) = some q ∧ q.queue = p.queue.set k { u with hops := u.hops + 1, hopAt := s.now }) ∧
        Map.get LinkArb.reset (t.cell cell).arbs port = ⟨s.cycle (sectorOfCell cell), s.linkSent cell port + 1, vc⟩ ∧ t.reqs = s.reqs ∧ t.mem = s.mem))) ∧
    (∀ port, port < 4 → 2 ≤ s.linkSent cell port → exec (.tokenHop cell port vc) s = .next s) ∧
    (∀ port x rest ovc, port < 6 → (s.cell cell).transitOut port vc = some (4, ovc) → (s.cell cell).inFifo port vc = x :: rest →
      s.sectorRuns (sectorOfCell cell) = true → s.hasCredit cell (4, ovc) = true → s.instAt cell = some i → s.boundaryOpen i cell 4 ovc = true →
      Gives (.tokenHop cell (8 + port) vc) s (fun t => (t.cell cell).inFifo port vc = rest ∧
        ∃ y ∈ (t.cell cell).flight, y.dst = .chan ovc ∧ y.due = s.cycle (sectorOfCell cell) + 1 ∧
          y.tok = some (x.restamp (s.cell cell).active.ver)))

/-- R110, R114, R121, R123, R230, R233, R334: a REM load, store or atomic that has come over the mesh to its target cell, whose banks grant it, is performed there; refused by
them it waits. A page walk translates the requests of its page; a GLB load, store or atomic whose translation is known, admitted at its
port, is performed at its memory and answered; a load gives what memory holds, or what it held before the last write there that it is not ordered after.
Forms that complete here: `remoteRequest`, `pageWalk`, `hbmRequest`. -/
def Obligations.RequestsReachTheirMemory : Prop :=
  ∀ (s : State) (id : Nat) (r : Req),
    (Asked s id r → r.loc = false → (∀ q ∈ s.reqs, q.order < r.order → q.cell ≠ r.cell) → remPkg r.addr = s.package →
      s.dieExists (remDie r.addr) = true → s.meshReached r = true → (s.sector (sectorOfCell (remCell r.addr))).shut = false →
      s.sectorRuns (sectorOfCell (remCell r.addr)) = true → (∃ i, s.instAt (remCell r.addr) = some i ∧ i.asid = r.asid ∧ remOff r.addr + r.size ≤ i.spad) →
      let granted := (s.askBank (remCell r.addr) 1 (s.cycle (sectorOfCell (remCell r.addr))) r.swz (remOff r.addr) r.size).1
      ∀ answer,
      (∀ sx, r.body = .load false sx → granted = true → (s.cell (remCell r.addr)).anyBad r.swz (remOff r.addr) r.size = false →
        Gives (.remoteRequest id answer) s (fun t =>
          Replied t id (loadValue ((s.cell (remCell r.addr)).bytes r.swz (remOff r.addr) r.size) r.size sx) ∧ t.mem = s.mem ∧
          ∀ k, (t.cell k).spad = (s.cell k).spad ∧ (t.cell k).g = (s.cell k).g ∧ (t.cell k).tags = (s.cell k).tags)) ∧
      (∀ v, r.body = .store false v → granted = true → s.streamFull (remCell r.addr) (remOff r.addr) r.size = false →
        (s.cell (remCell r.addr)).anyTagged r.swz (remOff r.addr) r.size = false →
        Gives (.remoteRequest id answer) s (fun t => Replied t id 0 ∧ t.mem = s.mem ∧
          (t.cell (remCell r.addr)).spad = ((s.cell (remCell r.addr)).putBytes r.swz (remOff r.addr) v.toNat r.size).spad)) ∧
      (∀ ty aop o sc v, r.body = .atomic false ty aop o sc v → aop ≠ 7 → granted = true → s.streamFull (remCell r.addr) (remOff r.addr) r.size = false →
        (s.cell (remCell r.addr)).anyTagged r.swz (remOff r.addr) r.size = false → (s.cell (remCell r.addr)).anyBad r.swz (remOff r.addr) r.size = false →
        let old := BitVec.ofNat 32 ((s.cell (remCell r.addr)).bytes r.swz (remOff r.addr) 4)
        Gives (.remoteRequest id answer) s (fun t => Replied t id old.toNat ∧ t.mem = s.mem ∧
          (t.cell (remCell r.addr)).spad = ((s.cell (remCell r.addr)).putBytes r.swz (remOff r.addr) (atomicFn ty aop old v).toNat 4).spad)) ∧
      (r.body.isRemote = true → (∀ m, r.body ≠ .unsub m) → granted = false → Gives (.remoteRequest id answer) s (fun t =>
        t.reqs = s.reqs ∧ t.mem = s.mem ∧ ∀ k, (t.cell k).spad = (s.cell k).spad))) ∧
    (∀ pa u, Asked s id r → s.reqs = [r] → r.body.isGlobal = true → r.body ≠ .prefetch →
      s.translate (sectorOfCell r.cell) r.asid (s.reqRoot r) r.addr r.body.access = (.ok pa, u) →
      Gives (.pageWalk id) s (fun t => (∃ q, t.reqs = [q] ∧ q.stage = .translated pa ∧ q.id = r.id ∧ q.body = r.body ∧ q.addr = r.addr ∧
        q.size = r.size ∧ q.cell = r.cell) ∧ t.mem = u.mem ∧ t.cells = s.cells)) ∧
    (∀ pa, s.req id = some r → s.frozen = false → s.sectorRuns (sectorOfCell r.cell) = true → r.stage = .translated pa → s.writeAhead r pa = false → s.paPresent pa = true → paIsHost pa = false →
      paPackage pa = s.package → s.portTurn (sectorOfCell r.cell) r.id = true → s.admits (sectorOfCell r.cell) 32 = true →
      (∀ sx, r.body = .load true sx → s.memBad pa = false → Gives (.hbmRequest id) s (fun t => t.mem = s.mem ∧ t.cells = s.cells ∧
        (let new := s.memList pa r.size
         let old := s.priorBytes (s.reqReader r 0 0) (.mem pa) s.hist ((List.range r.size).map (fun i => pa + i)) new
         Replied t id (loadValue (bytesNat new) r.size sx) ∨ Replied t id (loadValue (bytesNat old) r.size sx)) ∧
        ((∀ k, k < r.size → Map.find s.hist ((pa + k) / 8) = none) → Replied t id (loadValue (bytesNat (s.memList pa r.size)) r.size sx)))) ∧
      (∀ v, r.body = .store true v → Gives (.hbmRequest id) s (fun t => Replied t id 0 ∧ t.cells = s.cells ∧
        t.mem = (s.memWrite pa v.toNat r.size).mem)) ∧
      (∀ ty aop o sc v, r.body = .atomic true ty aop o sc v → aop ≠ 7 → s.memBad pa = false → Gives (.hbmRequest id) s (fun t =>
        Replied t id (s.memRead pa 4) ∧ t.cells = s.cells ∧
        t.mem = (s.memWrite pa (atomicFn ty aop (BitVec.ofNat 32 (s.memRead pa 4)) v).toNat 4).mem)))

/-- R122, R123, R124, R140, R406: an answered request whose answer is back leaves the queue, its value for a register or handle a result of the present cycle, its token on its
channel; of a retired instance the token is discarded and a scratchpad write made. A fence is answered once nothing it waits for is left, and stands among the fences performed; without a
response from another package for 10 ms, time in RETRAIN apart, a `tlnch` is answered DENIED, and a load becomes a fault 0x0904. A write of XLINV removes the entries it names from every
translation cache and walker cache, BUSY reads 1, and reads 0 once no access uses such an entry (that the entries go at once is the model's choice, log 59).
Forms that complete here: `decoupledResultDelivery`, `fenceComplete`, `responseTimeout`, `xlinvAll`, `xlinvGranule`, `invalidationComplete`. -/
def Obligations.RequestsAndInvalidationsEnd : Prop :=
  (∀ (s : State) (id : Nat) (r : Req), s.req id = some r → s.frozen = false →
    (∀ i, r.stage = .answered → s.sectorRuns (sectorOfCell r.cell) = true → s.inst r.inst = some i → i.retired = false → r.retired = false →
      s.resultBlocked r = false → r.readyAt ≤ s.now → s.meshBack r = true → (r.kind = .data ∨ r.kind = .last) →
      (∀ n, r.dst = .reg n → Gives (.decoupledResultDelivery id) s (fun t => t.req id = none ∧ t.mem = s.mem ∧
        (t.cell r.cell).flight = (s.cell r.cell).flight ++
          [⟨s.cycle (sectorOfCell r.cell), r.slot, .reg n.val, BitVec.ofNat 64 r.result.toNat, none, none, 0, [], 0⟩])) ∧
      (∀ n, r.dst = .handle n → Gives (.decoupledResultDelivery id) s (fun t => t.req id = none ∧ t.mem = s.mem ∧
        (t.cell r.cell).flight = (s.cell r.cell).flight ++ [⟨s.cycle (sectorOfCell r.cell), r.slot,
          .store r.dstOff ((s.cell r.cell).handle n.val).size ((s.cell r.cell).handle n.val).swz, BitVec.ofNat 64 r.result.toNat, none, none, 0, [], 0⟩])) ∧
      (r.dst = .none → Gives (.decoupledResultDelivery id) s (fun t => t.req id = none ∧ t.cells = s.cells ∧ t.mem = s.mem)) ∧
      (∀ n, r.dst = .out n → s.outRoom (s.resultCell r.cell r.slot) n.val r.tokens.length = true →
        Gives (.decoupledResultDelivery id) s (fun t => t.req id = none ∧ t.mem = s.mem ∧
          (n.val < 24 → ((t.cell (s.resultCell r.cell r.slot)).inFifo 4 n.val).map (fun x => (x.kind, x.payload)) =
            ((s.cell (s.resultCell r.cell r.slot)).inFifo 4 n.val).map (fun x => (x.kind, x.payload)) ++ r.tokens) ∧
          (24 ≤ n.val → ∃ fs, (t.cell (s.resultCell r.cell r.slot)).flight = (s.cell (s.resultCell r.cell r.slot)).flight ++ fs ∧
            (fs.filterMap Flight.tok).map (fun x => (x.kind, x.payload)) = r.tokens ∧ ∀ x ∈ fs, x.dst = .chan n.val)))) ∧
    (∀ i, r.stage = .answered → s.sectorRuns (sectorOfCell r.cell) = true → s.inst r.inst = some i → i.retired = true →
      ((∀ n, r.dst ≠ .handle n) → Gives (.decoupledResultDelivery id) s (fun t => t.req id = none ∧ t.cells = s.cells ∧ t.mem = s.mem)) ∧
      (∀ n, r.dst = .handle n → s.resultBlocked r = false → r.kind = .data → Gives (.decoupledResultDelivery id) s (fun t => t.req id = none ∧ t.mem = s.mem ∧
        (t.cell r.cell).flight = (s.cell r.cell).flight ++ [⟨s.cycle (sectorOfCell r.cell), r.slot,
          .store r.dstOff ((s.cell r.cell).handle n.val).size ((s.cell r.cell).handle n.val).swz, BitVec.ofNat 64 r.result.toNat, none, none, 0, [], 0⟩]))) ∧
    (∀ mask sc ws ps, r.body = .fence mask sc ws ps → r.stage = .waiting → (∀ w ∈ ws, s.fenceWaits mask w = false) → s.pairsDone ps = true →
      Gives (.fenceComplete id) s (fun t => Replied t id 0 ∧ t.cells = s.cells ∧ t.mem = s.mem ∧ t.fences = s.fences ++ [⟨id, mask, sc, r.cell, s.now⟩])) ∧
    (∀ pkg, s.foreign r = some pkg → r.stage = .issued →
      r.sentAt + spanned r.sentAt s.dev (s.retrainsOf ((Map.get 0 s.oroute pkg).toNat % 16)) + 10000 * usUnits ≤ s.dev →
      (∀ w p, r.body = .tlnch w p → r.pilot = none → Gives (.responseTimeout id) s (fun t => Replied t id (2 * 2 ^ 30))) ∧
      (∀ sx i, r.body = .load false sx → s.inst r.inst = some i → i.retired = false → r.retired = false → i.hold = none → i.die = dieOfCell r.cell →
        Gives (.responseTimeout id) s (fun t =>
          HeldFor s t i 0x0904 (BitVec.ofNat 64 (pkg + (Map.get 0 s.oroute pkg).toNat % 16 * 256)) ∧ t.cells = s.cells ∧ t.mem = s.mem)))) ∧
  (∀ (s : State),
    (s.dieExists s.input.die = true → s.frozen = false →
      Gives .xlinvAll s (fun t => (t.dieAt s.input.die).xlBusy = true ∧ t.mem = s.mem ∧ t.cells = s.cells ∧
        (∀ k, ∀ e ∈ (t.sector k).tlb, e.asid ≠ bitsN s.input.value.toNat 63 48) ∧
        ∀ d, ∀ e ∈ (t.dieAt d).walker, e.asid ≠ bitsN s.input.value.toNat 63 48) ∧
      Gives .xlinvGranule s (fun t => (t.dieAt s.input.die).xlBusy = true ∧ t.mem = s.mem ∧ t.cells = s.cells ∧
        (∀ k, ∀ e ∈ (t.sector k).tlb, ¬(e.asid = bitsN s.input.value.toNat 63 48 ∧
          e.va = bitsN s.input.value.toNat 40 0 * 65536 / 2 ^ e.logSize)) ∧
        ∀ d, ∀ e ∈ (t.dieAt d).walker, ¬(e.asid = bitsN s.input.value.toNat 63 48 ∧
          e.va = bitsN s.input.value.toNat 40 0 * 65536 / 2 ^ levelShift e.level))) ∧
    (∀ d, (s.dieAt d).xlBusy = true → s.frozen = false → (∀ p ∈ (s.dieAt d).xlPending, s.usesEntry p = false) →
      Gives (.invalidationComplete d) s (fun t => (t.dieAt d).xlBusy = false ∧ (t.dieAt d).xlPending = [] ∧ t.mem = s.mem)))

/-- R57, R77, R266, R274 to R277, R279, R280, R335, R408: a trigger that is due requests a swap; a phase that is done gives way to the next; a `comb` that waited REDUS, or was found late
at an arrival, stands timed out under a report record; a finished product sends its token; the limiter acts at every boundary that has come; an idle grammar engine takes the next command. Its
completion answers what waits on it: a `gsread` with its entry's value; a `gsclr` returns its entries to the reset state; a `gsload` makes them the images it reads; a `gspmv`
evaluates its rules symbol by symbol: each term is added to each lane with one rounding, an END stores the entry with its depth and sums and writes the row it names.
Forms that complete here: `tokenCountTrigger`, `phaseAdvance`, `reductionTimeout`, `matrixProductComplete`, `slewStep`, `grammarCommandStart`,
`grammarCommandComplete`. -/
def Obligations.CellAndUnitEventsComplete : Prop :=
  (∀ (s : State),
    (∀ cell i, s.instAt cell = some i → (s.cell cell).trigDue = true → s.sectorRuns (sectorOfCell cell) = true →
      Gives (.tokenCountTrigger cell) s (fun t => (t.cell cell).trigDue = false ∧ ∀ j ∈ t.insts, j.id = i.id → j.swap.isSome = true)) ∧
    (∀ site : Site, (s.cell site.cell.val).phaseDone site.slot.val = true → s.sectorRuns (sectorOfCell site.cell.val) = true →
      Gives (.phaseAdvance site) s (fun t => let st := (s.cell site.cell.val).slot site.slot.val
        let new := (t.cell site.cell.val).slot site.slot.val
        new.phase = (st.phase + 1) % (hdrNph ((s.cell site.cell.val).active.header site.slot.val) + 1) ∧ new.phaseCount = 0 ∧ new.v = st.v)) ∧
    (∀ (site : RouteSite) i x emptyP, let c := s.cell site.cell.val
      let w := (c.active.routeWord site.entry.val).toNat
      let st := c.route site.entry.val
      let red := limitAt (s.dieAt (dieOfCell site.cell.val)).redOld (s.dieAt (dieOfCell site.cell.val)).redus st.waitSince
      let inA := (bitsN w 43 41, bitsN w 40 36)
      let inP := (bitsN w 35 33, bitsN w 32 28)
      s.instAt site.cell.val = some i → s.sectorRuns (sectorOfCell site.cell.val) = true → i.hold = none → i.parked = false →
      s.recWaits site.cell.val site.entry.val 1 = false → s.inHead site.cell.val (if emptyP then inA else inP) = some x →
      (st.late = some emptyP ∨ (st.late = none ∧ bitsN w 47 44 = 9 ∧ st.timeout = none ∧ st.discard = none ∧ red ≠ 0 ∧
        red * usUnits ≤ s.spanTime (sectorOfCell site.cell.val) st.waitSince [] ∧ s.inHead site.cell.val (if emptyP then inP else inA) = none)) →
      Gives (.reductionTimeout site) s (fun t => let new := (t.cell site.cell.val).route site.entry.val
        new.timeout = some (emptyP, poisonPayload 0x0A03 (s.nextSeq (some i.job))) ∧ new.late = none ∧
        OneRecord s t i.die 0x0A03 (BitVec.ofNat 64 ((if emptyP then 2 ^ 63 else 0) + x.bits)) (some i.job)))) ∧
  (∀ (s : State),
    (∀ id p i, s.products.find? (fun q => q.id == id) = some p → s.inst p.inst = some i →
      s.products.find? (fun q => q.inst == p.inst) = some p → p.started = true → p.failed = false → p.ticks i ≤ p.tick → i.retired = false →
      p.nextAt ≤ s.cycle i.sector → s.sectorRuns i.sector = true →
      (∀ n, p.f.dst = .out n → s.outRoom p.cell n.val 1 = true → Gives (.matrixProductComplete id) s (fun t =>
        t.products = s.products.filter (fun q => q.id != id) ∧
        (n.val < 24 → (t.cell p.cell).inFifo 4 n.val = (s.cell p.cell).inFifo 4 n.val ++ [mkToken (s.cell p.cell).active.ver p.kind p.pay p.deps]) ∧
        (24 ≤ n.val → ∃ x ∈ (t.cell p.cell).flight, x.dst = .chan n.val ∧ x.tok = some (mkToken (s.cell p.cell).active.ver p.kind p.pay p.deps)))) ∧
      (p.f.dst = .none → p.kind ≠ .poison → Gives (.matrixProductComplete id) s (fun t =>
        t.products = s.products.filter (fun q => q.id != id) ∧ t.cells = s.cells))) ∧
    (∀ k, s.sectorRuns k = true → (s.sector k).slewAt ≤ s.cycle k → Gives (.slewStep k) s (fun t =>
      s.cycle k < (t.sector k).slewAt ∧ (t.sector k).slewAt % 4 = (s.sector k).slewAt % 4 ∧ t.cells = s.cells ∧ t.mem = s.mem)) ∧
    (∀ k g, s.sectorRuns k = true → s.engineStalls k 4 = false → (∀ c ∈ (s.sector k).gve, c.running = false) → nextGve (s.sector k).gve [] = some g →
      Gives (.grammarCommandStart k) s (fun t => (∀ c ∈ (t.sector k).gve, c.id = g.id → c.running = true) ∧
        ∀ c ∈ (t.sector k).gve, c.id ≠ g.id → c.running = false)) ∧
    (∀ k t0 id g, s.sectors.find? (fun e => e.2.gve.any (fun c => c.id == id)) = some (k, t0) → t0.gve.find? (fun c => c.id == id) = some g →
      s.sectorRuns k = true → s.engineStalls k 4 = false → g.running = true →
      let first := listNat g.image 0 4
      let m := listNat g.image 4 4
      let gone := fun (t : State) => ∀ c ∈ (t.sector k).gve, c.id ≠ id
      (g.op = .read → (∀ r ∈ s.reqs, r.readyAt + 12 * cycleUnits t0.ratio ≤ s.now) → let e := t0.slateEntry (g.slateBase + first)
        e.bad = false → Gives (.grammarCommandComplete id) s (fun t => gone t ∧ CmdAnswered s t (.grammar id) (gsreadValue e m).toNat)) ∧
      (g.op = .clear → gveInRange g = true → Gives (.grammarCommandComplete id) s (fun t => gone t ∧ CmdAnswered s t (.grammar id) 0 ∧
        t.mem = s.mem ∧ t.cells = s.cells ∧ ∀ n, (t.sector k).slateEntry n =
          if g.slateBase + first + g.cursor ≤ n ∧ n < g.slateBase + first + m then SlateEntry.reset else (s.sector k).slateEntry n)) ∧
      (∀ (bytes : Nat → Nat → List Byte) (entry : Nat → SlateEntry), g.op = .load → gveInRange g = true → g.cursor ≤ m → (s.sector k).budgetNow = 0 →
        let h := handleOf (listNat g.image 32 16)
        (∀ q, g.cursor ≤ q → q < m → imageEntry (bytes q 0 ++ bytes q 1 ++ bytes q 2 ++ bytes q 3) = some (entry q) ∧ ∀ j, j < 4 →
          Readable s ⟨k, g.asid, s.rootOf g.job, gveCodes, s.gveReader g⟩ (h.elem ((listNat g.image 8 2 + 4 * q + j) % h.wrap) % 2 ^ 57) 8 (bytes q j)) →
        Gives (.grammarCommandComplete id) s (fun t => gone t ∧ CmdAnswered s t (.grammar id) 0 ∧ t.mem = s.mem ∧ t.cells = s.cells ∧
          ∀ n, (t.sector k).slateEntry n = if g.slateBase + first + g.cursor ≤ n ∧ n < g.slateBase + first + m
            then entry (n - (g.slateBase + first)) else (s.sector k).slateEntry n)) ∧
      (∀ s0 c fl, g.op ≠ .read → s.gveRun k g (gveUnits g) = .ended s0 c fl → (s.meter s0 k id g.paid).1 = true →
        Gives (.grammarCommandComplete id) s (fun t => gone t ∧ CmdAnswered s0 t (.grammar id) (if g.op = .eval then (grammarFlags fl).toNat else 0) ∧
          t.mem = s0.mem ∧ (t.sector k).slate = (s0.sector k).slate)))) ∧
  (∀ (s s1 : State) (r : GveRun) (start stop fuel k i d cb w : Nat) (sums : List Word) (fl : Flags), start ≤ i → i < stop →
    s.engWord r.x (r.blk + 64 + 4 * k) 0 i = .ok (w, s1) →
    let now := s.gveLoop r start stop (fuel + 1) k i d cb sums fl
    (∀ c fp8 v xs s2, symbolOf w = .terminal c fp8 v → cb * 16384 + c < r.b.ncol → s1.readColumn r (cb * 16384 + c) i r.nv = .ok (xs, s2) →
      ∃ fl2, now = s2.gveLoop r start stop fuel (k + 1) i d cb
        (addLanes r.nv sums (fun l => (Ex.mul (symbolVal fp8 v).1 (fval fmtF32 (xs.getD l 0))).1)) fl2) ∧
    (∀ j, symbolOf w = .ref j → let e := (s1.sector r.x.sector).slateEntry (r.slateBase + j)
      j < r.b.rbase + i → e.bad = false → (j < r.b.rbase → e.valid = true) →
      ∃ fl2, now = s1.gveLoop r start stop fuel (k + 1) i (max d (1 + e.depth)) cb (addLanes r.nv sums (fun l => fval fmtF32 (e.lanes.getD l 0).toNat)) fl2) ∧
    (∀ c, symbolOf w = .column c → now = s1.gveLoop r start stop fuel (k + 1) i d c sums fl) ∧
    (∀ (row : Option Nat) (s2 : State), symbolOf w = .endRule row → d ≤ r.b.dlim → (∀ n, row = some n → n < r.b.nrow) →
      (row = none → s2 = s1) → (∀ n, row = some n → s1.writeRow r n i sums r.nv = .ok s2) →
      let entry : SlateEntry := ⟨true, d, (List.range 4).map (fun l => if l < r.nv then sums.getD l 0 else 0), false⟩
      let s3 := s2.updSector r.x.sector (fun t => { t with slate := Map.put t.slate (r.slateBase + r.b.rbase + i) entry })
      (i + 1 ≠ r.b.nrule → now = s3.gveLoop r start stop fuel (k + 1) (i + 1) 1 0 [0, 0, 0, 0] fl) ∧
      (i + 1 = r.b.nrule → k + 1 = r.b.nsym → now = .ended s3 (i + 1) fl))) ∧
  (∀ (s : State) (r : GveRun) (row cur n : Nat) (sums : List Word) (pa : Nat → Nat), (∀ l, l < n → Writable s r.x (r.out + 4 * (row * r.nv + l)) (pa l)) →
    ∃ u, s.writeRow r row cur sums n = .ok u ∧ ∀ l, l < n → (∀ j, l < j → j < n → pa j + 4 ≤ pa l ∨ pa l + 4 ≤ pa j) →
      u.memRead (pa l) 4 = (sums.getD l 0).toNat)

/-- R290, R291, R293, R296 to R298, R168, R386: an engine command's course. A valid queued command is accepted; a copy's engine moves the 32-byte sector at its cursor from its source
address to its destination, each the base and the strided indices of the walk number, and the cursor passes it; the sectors performed are subtracted from its
barrier; its ring slot's W advances; its completion token enters port H and it leaves; indices are shipped or translated; rows are written and the cursor
moves; an index lane takes indices and ends at DONE; a command is suspended for a pre-emption with its cursor. How many sectors or list positions an event covers, and that
accepting is one event for every kind, are the model's (logs 40, 43, 44).
Forms that complete here: `copyCommandAccept`, `engineBarrierDecrement`, `engineRingAdvance`, `engineCompletion`, `gatherOwnerRequest`, `batchTranslation`,
`rowReturn`, `indexLaneToken`, `engineSuspend`. -/
def Obligations.EngineEventsComplete : Prop :=
  (∀ (s : State) (id : Nat) (c : Cmd),
    (∀ k u, (s.cmds.filter (fun d => d.sector == k)).find? (fun d => d.stage == .queued && (decide (d.kind ≠ .copy) ||
        decide (((s.cmds.filter (fun d => d.sector == k)).filter (fun d => d.kind == .copy && d.stage == .active)).length < 4))) = some c →
      s.cmd c.id = some c → s.sectorRuns k = true → s.engineStalls k c.srck = false → s.acceptCmd c = .ok u → (s.meter u k c.id c.paid).1 = true →
      Gives (.copyCommandAccept k) s (fun t => CmdIs t c.id (fun d => d.accepted = true) ∧
        (c.kind ≠ .copy → CmdIs t c.id (fun d => d.stage = .active ∧ d.cursor = c.cursor) ∧ t.mem = u.mem))) ∧
    (∀ d cell u, AtWork s id c → let s1 := s.someUnits c
      s1.cmd id = some d → d.stage = .active → d.completion.ben = true → d.cellAt d.completion.bcell = some cell → d.retired = false → d.counted < d.written →
      s1.engineDecrement ⟨cell, d.completion.boff, 0⟩ (d.written - d.counted) = .ok u → Gives (.engineBarrierDecrement id) s (fun t =>
        CmdIs t id (fun x => x.counted = d.written ∧ x.written = d.written) ∧ t.cells = u.cells ∧ t.reqs = u.reqs)) ∧
    (∀ cell u, AtWork s id c → c.performed = true → c.completion.ren = true → c.ringDone = false → c.retired = false → c.cellAt c.completion.rcell = some cell →
      s.engineAdvance ⟨cell, c.completion.roff, 0⟩ c.completion.rslot = .ok (some u) → Gives (.engineRingAdvance id) s (fun t =>
        CmdIs t id (fun d => d.ringDone = true) ∧ t.cells = u.cells)) ∧
    (∀ d, AtWork s id c → let s1 := if c.kind = .copy then s.runCopies c.sector (s.copyAllowance c.sector) else s
      s1.cmd id = some d → d.stage = .active → d.performed = true → (d.completion.ben = true → d.counted = d.written) → (d.completion.ren = true → d.ringDone = true) →
      (d.completion.ten = false → Gives (.engineCompletion id) s (fun t => (∀ x ∈ t.cmds, x.id ≠ id) ∧ t.cells = s1.cells ∧ t.mem = s1.mem)) ∧
      (∀ cell i, d.completion.ten = true → d.completion.tvc ≤ 23 → d.cellAt d.completion.tcell = some cell → d.retired = false → s1.instAt cell = some i →
        i.hold = none → i.parked = false → s1.sectorRuns i.sector = true → ((s1.cell cell).inFifo 5 d.completion.tvc).length < 4 →
        s1.boundaryOpen i cell 5 d.completion.tvc = true → Gives (.engineCompletion id) s (fun t => (∀ x ∈ t.cmds, x.id ≠ id) ∧ t.mem = s1.mem ∧
          ∃ tok, tok.kind = .data ∧ tok.payload = BitVec.ofNat 32 d.written ∧
          (t.cell cell).inFifo 5 d.completion.tvc = (s1.cell cell).inFifo 5 d.completion.tvc ++ [tok]))) ∧
    (AtWork s id c → c.kind ≠ .copy → c.gIsrc = false → c.shipped < c.gNidx → c.gBtu = false →
      Gives (.gatherOwnerRequest id) s (fun t => CmdIs t id (fun d => c.shipped < d.shipped ∧ d.shipped ≤ c.gNidx) ∧ t.cells = s.cells ∧ t.mem = s.mem)) ∧
    (AtWork s id c → c.kind ≠ .copy → c.gBtu = true → c.translated < c.gNidx → Gives (.batchTranslation id) s (fun t =>
      CmdIs t id (fun d => d.translated = c.translated + min 64 (c.gNidx - c.translated)) ∧ t.mem = s.mem)) ∧
    (∀ answer, AtWork s id c → c.kind ≠ .copy → c.gIsrc = false → c.cursor < c.total → let s0 := s.rowAnswer answer
      s0.unitReach c ≤ (if c.gBtu then c.translated else c.shipped) → (c.gBtu = true → s0.batchReady c (s0.unitReach c) = true) →
      (∀ u k, (s0.unitAsk c).1 = true → (s0.unitAsk c).2.unit c = .ok (u, k) → ((s0.unitAsk c).2.meter u c.sector c.id c.paid).1 = true →
        Gives (.rowReturn id answer) s (fun t =>
          CmdIs t id (fun d => d.cursor = c.cursor + 1 ∧ d.written = c.written + k) ∧ t.mem = u.mem ∧ t.cells = u.cells)) ∧
      ((s0.unitAsk c).1 = false → Gives (.rowReturn id answer) s (fun t => t = (s0.unitAsk c).2))) ∧
    (∀ lane x rest, AtWork s id c → c.kind = .gath → c.gIsrc = true → lane < 2 ^ c.gLw → c.laneDone[lane]? = some false →
      (s.cell c.cell).linkQ 5 (c.gLvc + lane) = x :: rest → x.ready ≤ s.now →
      (x.tok.kind = .done → Gives (.indexLaneToken id lane) s (fun t =>
        CmdIs t id (fun d => d.laneDone[lane]? = some true) ∧ (t.cell c.cell).linkQ 5 (c.gLvc + lane) = rest ∧ t.mem = s.mem)) ∧
      (∀ n bs u v, c.lanes[lane]? = some n → n < c.gNidx → (x.tok.kind = .data ∨ x.tok.kind = .last) →
        let g := s.rowAsk c (lane + 1) (c.gData + 32 * c.gRsz * (lane * c.gNidx + n))
        g.1 = true → (g.2.updCell c.cell (fun y => y.setLinkQ 5 (c.gLvc + lane) rest)).readRow c x.tok.payload.toNat n = .ok (bs, u) →
        u.writeSectors c c.gDlvl c.gDswz (c.gData + 32 * c.gRsz * (lane * c.gNidx + n)) 1 c.gRsz bs = .ok v → (g.2.meter v c.sector c.id c.paid).1 = true →
        Gives (.indexLaneToken id lane) s (fun t => CmdIs t id (fun d => d.lanes[lane]? = some (n + 1) ∧ d.written = c.written + c.gRsz) ∧
          t.mem = v.mem ∧ t.cells = v.cells))) ∧
    (∀ i n, s.cmd id = some c → s.sectorRuns c.sector = true → c.inst = some n → s.inst n = some i → i.preempt = true → i.retired = false → c.inPatch = true →
      c.retry = false → (c.stage = .queued ∨ (c.stage = .active ∧ c.kind ≠ .copy)) → c.written = c.counted → Gives (.engineSuspend id) s (fun t =>
        CmdIs t id (fun d => d.stage = .suspended ∧ d.cursor = c.cursor) ∧ t.cells = s.cells ∧ t.mem = s.mem))) ∧
  (∀ (s : State) (id : Nat) (c : Cmd) (pa : Nat) (l : List Byte), AtWork s id c → s.nextCopy c.sector = some c → c.slvl = false → c.dlvl = false → c.zm = 0 →
    (s.sector c.sector).budgetNow = 0 → let ix := walkIndex c.dims c.cursor
    walkClipped c.dims ix = false → Readable s (s.cmdCtx c) ((walkAddr (listNat c.desc 0 8) c.dims Dim.sstr ix).toNat % 2 ^ 57) 32 l →
    Writable s (s.cmdCtx c) ((walkAddr (listNat c.desc 8 8) c.dims Dim.dstr ix).toNat % 2 ^ 57) pa →
    let t := s.runCopies c.sector 1
    CmdIs t id (fun d => d.cursor = c.cursor + 1 ∧ d.written = c.written + 1) ∧ t.memList pa 32 = l ∧ t.cells = s.cells ∧
    ∀ a, (a < pa ∨ pa + 32 ≤ a) → t.memByte a = s.memByte a) ∧
  (∀ (s : State) (c : Cmd), walkClipped c.dims (walkIndex c.dims c.cursor) = true → s.copySector c = .ok (s, 0)) ∧
  (∀ (base : Nat) (ds : List Dim) (st : Dim → Int) (n : Nat),
    walkAddr base ds st (walkIndex ds n) = base + ((List.zip ds (walkIndex ds n)).map (fun e => st e.1 * (e.2 : Int))).sum ∧
    (∀ k d, ds[k]? = some d → (walkIndex ds n)[k]? = some (n / ((ds.take k).map Dim.ext).prod % d.ext)))

/-! Events: messages, subscriptions, launch and placement. -/

/-- R308, R310, R158, R164: a `send` to a Pilot enters its event queue and is answered, one that has come over the mesh to a cell enters its port H, or faults where no instance of its
ASID stands (of the hub's and a cell's refusals the codes are deduced, log 45); the hub named by a routing record answers by its entry's decision, behind the weight record that a grant
writes and a duplicate raises by its weight; a valid record enters the pool and its `tenq` is answered 0; a `tlnch` of this package is answered with what its queue's claim gives.
Forms that complete here: `sendDelivery`, `grantRequest`, `timetableRecordArrival`, `peerLaunchRequest`. -/
def Obligations.MessageEventsComplete : Prop :=
  (∀ (s : State) (id : Nat) (r : Req), s.req id = some r → r.stage = .issued → s.frozen = false → r.pilot = none → s.sectorRuns (sectorOfCell r.cell) = true →
    (∀ p k w, r.body = .send p k w → s.earlier r (fun b => match b with
        | .send _ _ u => u.toNat / 2 ^ 10 == w.toNat / 2 ^ 10
        | _ => false) = false → tgtPkg w = s.package → s.dieExists (tgtDie w) = true →
      (tgtPil w = true → (s.dieAt (tgtDie w)).pilot.event.length < 256 → Gives (.sendDelivery id) s (fun t =>
        (t.dieAt (tgtDie w)).pilot.event = (s.dieAt (tgtDie w)).pilot.event ++ [eventEntry (s.senderBits r) k p] ∧
        (∃ q, t.req id = some q ∧ q.stage = .answered) ∧ t.cells = s.cells ∧ t.mem = s.mem)) ∧
      (tgtPil w = false → s.meshReached r = true → (s.sector (sectorOfCell (tgtCell w))).shut = false → tgtVc w < 24 →
        (∀ i u, s.instAt (tgtCell w) = some i → i.asid = r.asid → s.deliverH (tgtCell w) (tgtVc w) k p r.deps = some u →
          Gives (.sendDelivery id) s (fun t => (∃ q, t.req id = some q ∧ q.stage = .answered) ∧ t.cells = u.cells ∧ t.mem = s.mem ∧
            (t.cell (tgtCell w)).inFifo 5 (tgtVc w) = (s.cell (tgtCell w)).inFifo 5 (tgtVc w) ++ [mkToken (s.cell (tgtCell w)).active.ver k p r.deps])) ∧
        (∀ i, (∀ j, s.instAt (tgtCell w) = some j → j.asid ≠ r.asid) → s.inst r.inst = some i → i.retired = false → r.retired = false →
          i.die = dieOfCell r.cell → Gives (.sendDelivery id) s (fun t =>
            HeldFor s t i 0x0906 (BitVec.ofNat 64 (tgtPkg w)) ∧ t.cells = s.cells ∧ t.mem = s.mem)))) ∧
    (∀ v answer n g, r.body = .rgreq v → s.earlier r (fun b => match b with
        | .rgreq u => rrSector u == rrSector v && rrPkg u == rrPkg v
        | _ => false) = false → rrPkg v = s.package → s.dieExists (dieOfSector (rrSector v)) = true → (s.sector (rrSector v)).shut = false →
      s.meshReached r = true → s.grantAhead r (rrSector v) = false → s.sectorRuns (rrSector v) = true →
      (s.sector (rrSector v)).lastGrant ≠ s.cycle (rrSector v) + 1 → (s.sector (rrSector v)).grantOf (rrExpert v) = some (n, g) → g.stuck = none →
      let k := rrSector v
      let e := g.decide v r.asid (s.rootOf (((s.inst r.inst).map Inst.job).getD 0))
      let s1 := (s.setGrant k n e.2.1).updSector k (fun x => { x with lastGrant := s.cycle k + 1 })
      (e.2.2 = none → Gives (.grantRequest id answer) s (fun t => Replied t id e.1 ∧
        Map.get Grant.reset (t.sector k).grants n = e.2.1 ∧ t.mem = s.mem ∧ t.cells = s.cells)) ∧
      (∀ w u, e.2.2 = some w → s1.weightWrite k g.wbase w = .ok u → (s.meter u k r.id 0).1 = true → Gives (.grantRequest id answer) s (fun t => Replied t id e.1 ∧
        (t.sector k).grants = (u.sector k).grants ∧ t.mem = u.mem ∧ t.cells = u.cells))) ∧
    (∀ n j, r.body = .tenq n → s.earlier r (fun b => match b with
        | .tenq _ => true
        | _ => false) = false → (s.issuerJob r).bind s.job = some j → s.dynOk j n = true → j.aborted = false → (s.dieAt j.die).poolUsed < 1024 → s.ttStalls j.die = false →
      Gives (.timetableRecordArrival id) s (fun t => t = (s.addRecord j n 0 true).answer id 0)) ∧
    (∀ w p, r.body = .tlnch w p → w / 256 % 64 = s.package → s.input.flag = false → s.input.index = id →
      Gives .peerLaunchRequest s (fun t => t = (s.claimQueue (w % 256) p).state.answer id (tlnchPayload (s.claimQueue (w % 256) p).reply)))) ∧
  (∀ (s s1 : State) (k wbase pa : Nat) (w : GrantWrite), s.translate k w.asid w.root ((wbase + 8 * w.slot) % 2 ^ 57) .store = (.ok pa, s1) → s1.paPresent pa = true →
    let x := fval fmtBf16 w.wt
    let old := s1.memRead pa 8
    (w.dup = false → ∃ u, s.weightWrite k wbase w = .ok u ∧ u.cells = s1.cells ∧
      u.mem = (s1.memWrite pa ((roundTo fmtF32 .rne false x).1 + w.token % 65536 * 2 ^ 32 + 2 ^ 48) 8).mem) ∧
    (w.dup = true → s1.memBad pa = false → ∃ u, s.weightWrite k wbase w = .ok u ∧ u.cells = s1.cells ∧
      u.mem = (s1.memWrite pa ((roundTo fmtF32 .rne false (Ex.add .rne (fval fmtF32 (old % 2 ^ 32)) x).1).1 + old / 2 ^ 32 % 65536 * 2 ^ 32 +
        (old / 2 ^ 48 + 1) % 65536 * 2 ^ 48) 8).mem))

/-- R304 to R306, R141: subscriptions, with no request waiting. A `sub` that has reached its publisher is answered its status where it is refused, and where it succeeds it opens a pair in SNAP whose
stream is the snapshot, each sector read in its banks' turn; a snapshot that is through makes the slot LIVE and answers 0; a held update closes 16 cycles after it opened; an update that has arrived
is applied at its mirror, and a marker is counted; park entries are reserved at the drain point, or the subscriber is held; the slot is parked with a marker behind its updates, these go to the frame, and it is unparked. That a
publisher of another package answers, sends its updates and acknowledges through the input is log 46; that what came before is asked for and acknowledged by count is log 129.
Forms that complete here: `activation`, `snapshotComplete`, `heldUpdateClose`, `mirrorUpdate`, `parkRequest`, `parkedUpdateWrite`, `unpark`, `parkReserve`. -/
def Obligations.SubscriptionEventsComplete : Prop :=
  ∀ (s : State), NoneWaits s →
    (∀ id r m, s.req id = some r → r.body = .sub m → r.stage = .issued → (s.publisherOf r.cell m).1 = s.package → s.meshReached r = true →
      ((s.subStatus r m).1 ≠ 0 → Gives (.activation id) s (fun t => Replied t id (s.subStatus r m).1 ∧ t.pairs = s.pairs ∧ t.cells = s.cells)) ∧
      (∀ pub h, (s.subStatus r m).1 = 0 → pub = (s.publisherOf r.cell m).2.1 →
        h = (s.cell pub).active.handle ((s.cell pub).active.regions.getD (s.subStatus r m).2 0) →
        s.sectorRuns (sectorOfCell pub) = true → Gives (.activation id) s (fun t => (∃ q, t.req id = some q ∧ q.stage = .snapshot) ∧
        ∃ p, t.pairs = s.pairs ++ [p] ∧ p.pub = pub ∧ p.sub = r.cell ∧ p.mirror = m ∧ p.live = false ∧ p.parked = false ∧ p.regionBase = h.base ∧
          p.queue = (s.cell pub).snapshot h s.now))) ∧
    (∀ id r m p u n, s.req id = some r → r.body = .sub m → r.stage = .snapshot → s.pairOf r.cell m (s.publisherId r.cell m) = some p → s.pair p.id = some p →
      p.queue.zipIdx.find? (fun e => !e.1.ready) = some (u, n) → p.waiting < 4 + Config.updateRoom → s.sectorRuns (sectorOfCell p.pubCell) = true →
      (s.hubAsk (some (p.pubCell, u.off, p.regionSwz)) none).1 = true → Gives (.activation id) s (fun t =>
        (∃ q, t.pair p.id = some q ∧ q.queue = p.queue.set n { u with ready := true, hopAt := s.now }) ∧ t.reqs = s.reqs ∧ t.mem = s.mem)) ∧
    (∀ id r m, s.req id = some r → r.body = .sub m → r.stage = .issued → (s.publisherOf r.cell m).1 ≠ s.package →
      s.routeTo (s.publisherOf r.cell m).1 = .open_ →
      (s.input.value.toNat % 2 ^ 32 ≠ 0 → Gives (.activation id) s (fun t => Replied t id (s.input.value.toNat % 2 ^ 32) ∧ t.pairs = s.pairs)) ∧
      (s.input.value.toNat % 2 ^ 32 = 0 → Gives (.activation id) s (fun t => (∃ q, t.req id = some q ∧ q.stage = .snapshot) ∧
        ∃ p, t.pairs = s.pairs ++ [p] ∧ p.pub = extPub (s.publisherOf r.cell m).1 (s.publisherOf r.cell m).2.1 ∧ p.sub = r.cell ∧ p.mirror = m ∧
          p.live = false))) ∧
    (∀ id r m p, s.req id = some r → r.body = .sub m → r.stage = .snapshot → s.pairOf r.cell m (s.publisherId r.cell m) = some p →
      (p.isExt = true → s.input.flag = true ∧ p.queue = []) → (p.isExt = false → (p.regionBase + p.regionLen + 31) / 32 - p.regionBase / 32 ≤ p.applied) →
      Gives (.snapshotComplete id) s (fun t => Replied t id 0 ∧ ∀ q ∈ t.pairs, q.id = p.id → q.live = true)) ∧
    (∀ id p, s.pair id = some p →
      (p.heldSector.isSome = true → p.isExt = false → p.heldSince + 16 ≤ s.cycle (sectorOfCell p.pub) → s.sectorRuns (sectorOfCell p.pub) = true →
        Gives (.heldUpdateClose id) s (fun t => ∃ q, t.pair id = some q ∧ q.heldSector = none ∧ q.queue.length = p.queue.length + 1)) ∧
      (∀ q u rest, (s.takeUpdate p).pair id = some q → q.queue = u :: rest → (q.parked = false ∨ q.markerDue = true) → s.subscriberReady q = true →
        s.sectorRuns (sectorOfCell q.sub) = true → q.arrived u = true →
        (u.marker = true → Gives (.mirrorUpdate id) s (fun t => (∃ x, t.pair id = some x ∧ x.queue = rest ∧ x.synced = q.synced + 1 ∧ x.applied = q.applied) ∧
          t.cells = s.cells ∧ t.mem = s.mem)) ∧
        (let g := (s.takeUpdate p).hubAsk none (some (q.sub, q.mirrorBase + u.off - q.regionBase, q.mirrorSwz))
         u.marker = false → g.1 = true → Gives (.mirrorUpdate id) s (fun t => (∃ x, t.pair id = some x ∧ x.queue = rest ∧ x.applied = q.applied + 1 ∧ x.synced = q.synced) ∧
          (t.cell q.sub).spad = ((g.2.mirrorWrite q u).cell q.sub).spad))) ∧
      (∀ i, p.reserved = true → p.parked = false → s.instAt p.sub = some i → i.preempt = true → i.parkReserved = true → p.live = true → s.frozen = false →
        Gives (.parkRequest id) s (fun t => (∀ q ∈ t.pairs, q.id = id → q.parked = true ∧ q.reserved = false) ∧
          (p.onMesh = true → ∃ q front m, t.pair id = some q ∧ q.heldSector = none ∧ q.queue = front ++ [m] ∧ m.marker = true) ∧
          (p.onMesh = false → ∃ q, t.pair id = some q ∧ q.asked = p.asked + 1 ∧ q.markAt = p.asked + 1))) ∧
      (∀ u rest, p.parked = true → p.saved = true → p.queue = u :: rest → s.frozen = false →
        (u.marker = true → Gives (.parkedUpdateWrite id) s (fun t => (∃ q, t.pair id = some q ∧ q.queue = rest ∧ q.synced = p.synced + 1) ∧ t.cells = s.cells ∧ t.mem = s.mem)) ∧
        (u.marker = false → (s.meter ((s.frameWrite p u).updPair p.id Pair.pop) (sectorOfCell p.pubCell) p.id 0).1 = true → Gives (.parkedUpdateWrite id) s (fun t =>
          (∃ q, t.pair id = some q ∧ q.queue = rest ∧ q.applied = p.applied + 1) ∧ t.cells = s.cells ∧ t.mem = (s.frameWrite p u).mem))) ∧
      (∀ i, p.parked = true → p.saved = true → s.instAt p.sub = some i → 0 < i.restoreStep → s.mirrors i p = true → p.heldSector = none → p.queue = [] → p.gone = false →
        (p.isExt = true → s.input.setting.isSome = true) → s.frozen = false → Gives (.unpark id) s (fun t =>
        ∀ q ∈ t.pairs, q.id = id → q.parked = false ∧ q.frame = none))) ∧
    (∀ id i, s.inst id = some i → i.preempt = true → i.retired = false → i.parkReserved = false → i.hold = none → s.quiet i = true →
      (s.mirrorsOf i = [] → Gives (.parkReserve id) s (fun t => (∀ j ∈ t.insts, j.id = id → j.parkReserved = true) ∧ t.pairs = s.pairs)) ∧
      (∀ p, s.mirrorsOf i = [p] → (if p.isExt then s.input.flag = false else s.parkUsed (sectorOfCell p.pub) < 64) → Gives (.parkReserve id) s (fun t =>
        (∀ j ∈ t.insts, j.id = id → j.parkReserved = true) ∧ ∀ q ∈ t.pairs, q.id = p.id → q.reserved = true)) ∧
      (∀ p, s.mirrorsOf i = [p] → (if p.isExt then s.input.flag = true else 64 ≤ s.parkUsed (sectorOfCell p.pub)) → Gives (.parkReserve id) s (fun t => t.pairs = s.pairs ∧
        HeldFor s t i 0x0601 (BitVec.ofNat 64 ((if p.isExt then p.pub / 2 ^ 15 - 32 else s.package) * 2 ^ 26 + dieOfCell (p.pub % 2 ^ 15) * 2 ^ 24 + cellY (p.pub % 2 ^ 15) % 128 * 2 ^ 17 + cellX (p.pub % 2 ^ 15) % 64 * 2 ^ 11)))))

/-- R146, R149, R399, R32, R159, R152: a doorbell has its queue served, and a queue whose header cannot be read is stopped with MSI-X 267; the bytes of a
queue-table write stand in the table; a record whose work is done completes; a job whose records are over completes, writes its record and interrupts.
Forms that complete here: `doorbellWrite`, `queueTableWrite`, `nodeComplete`, `jobComplete`. -/
def Obligations.LaunchEventsComplete : Prop :=
  ∀ (s : State), s.frozen = false →
    (let n := s.input.queue % 256
     s.input.offset = 0 → s.input.size = 8 → s.dieExists (n / 64) = true →
      Gives .doorbellWrite s (fun t => t = s.serveQueue (n / 64) (n % 64) ∧
        (qEn (s.queueEntry (n / 64) (n % 64)) = false → t = s) ∧
        (∀ va, s.ttStalls (n / 64) = false → qEn (s.queueEntry (n / 64) (n % 64)) = true → s.queueHeader (s.queueEntry (n / 64) (n % 64)) = .error va →
          qEn (t.queueEntry (n / 64) (n % 64)) = false ∧ 267 ∈ t.msix))) ∧
    (∀ q, q < 64 → s.dieExists s.input.die = true → s.input.offset = 16 * q → s.input.size = 8 → bitsN s.input.value.toNat 45 45 = 0 →
      Gives .queueTableWrite s (fun t => let e := (t.queueEntry s.input.die q).toNat
        bitsN e 36 0 = bitsN s.input.value.toNat 36 0 ∧ bitsN e 45 45 = 0 ∧ bitsN e 63 48 = bitsN s.input.value.toNat 63 48 ∧
        bitsN e 120 64 = bitsN (s.queueEntry s.input.die q).toNat 120 64 ∧ t.mem = s.mem)) ∧
    (s.dieExists s.input.die = true → s.input.offset < 1024 → s.input.wholeAccess = true →
      let old := s.queueEntry s.input.die (s.input.offset / 16)
      let v := BitVec.ofNat 128 (mergeField old.toNat (s.input.offset % 16) s.input.size s.input.value.toNat)
      qEn v = false → Gives .queueTableWrite s (fun t => let e := (t.queueEntry s.input.die (s.input.offset / 16)).toNat
        bitsN e 36 0 = bitsN v.toNat 36 0 ∧ bitsN e 44 37 = 0 ∧ bitsN e 63 46 = bitsN v.toNat 63 46 ∧ bitsN e 120 64 = bitsN v.toNat 120 64 ∧
        bitsN e 127 121 = 0 ∧ t.mem = s.mem)) ∧
    ((∀ x ∈ s.jobs, x.spill = []) →
      (∀ node r j, (List.range 4).findSome? (fun d => s.poolRec d node) = some r → s.poolRec r.die node = some r → s.job r.job = some j →
        r.done = true → s.recordBusy r = false → s.ttStalls r.die = false → j.aborted = false → nodeNsucc r.node = 0 → Gives (.nodeComplete node) s (fun t =>
          (∃ q, t.poolRec r.die node = some q ∧ q.completed = true ∧ q.inPool = false) ∧
          (∃ k, t.job j.key = some k ∧ k.recordsDone = j.recordsDone + (if r.dyn then 0 else 1)) ∧ t.mem = s.mem)) ∧
      (∀ key j u, s.job key = some j → s.jobBusy key = false → s.recordsOver j = true → j.aborted = false →
        s.complete j.die j.queue j.asid j.root j.work (completionRecord s.deviceNs j.tstart j.npre j.nflt 0 j.number j.seq) j.irq = u →
        Gives (.jobComplete key) s (fun t => (∀ x ∈ t.jobs, x.key ≠ key) ∧ t.mem = u.mem ∧ (j.irq = true → 64 * j.die + j.queue ∈ t.msix))))

/-- R160 to R162, R167 to R172, R59, R60, R76, R311, R322, R400, R40: placement and drain points. With nothing resident, the first candidate is placed: a GRAMMAR or COPY record as a queued command of a
sector in service with room for it, a PILOT record as running, a FABRIC record's next grid point as one new instance per stage on its patches, with its cells cleared and its streams to be loaded; a FABRIC record
whose anchor has retired is rejected. An instance whose streams are in runs; one to be restored has its cells' state read back from its frame. At its drain point a grid point that may be saved goes into a free frame,
its record back to the pool; a swap waits, or is held for a version conflict, and flips once its planes are SEALED; a `yield` with nothing to yield to ends; a swap token requests the
swap of its instance; a retired instance's patch and a Slate allotment no longer owned are cleared.
Forms that complete here: `placementStep`, `drainPointReached`, `planeFlip`, `swapTokenArrival`, `patchClear`, `slateAllotmentReset`. -/
def Obligations.PlacementEventsComplete : Prop :=
  ∀ (s : State), s.frozen = false →
    (∀ d, s.dieExists d = true → s.ttStalls d = false → (s.dieAt d).doorbell = [] →
      let v := ((s.tidyFrames d).tidyReserved d).refill d
      (∀ r rest j, s.insts = [] → let u := v.findAnchors d
        u.candidates d = r :: rest → u.job r.job = some j → u.poolRec d r.key = some r → r.die = d →
        (nodeKind r.node = 1 → ∀ k ∈ u.sectorOrder d, (u.sector k).mode = .inService → (u.sector k).closed = false → (u.sector k).tripped = false →
          u.slateUsed r.key k + profSlate (j.profile r.node) ≤ 32768 → Gives (.placementStep d) s (fun t =>
            ∃ k1 ∈ u.sectorOrder d, ∃ g, (t.sector k1).gve = (u.sector k1).gve ++ [g] ∧ g.op = .eval ∧ g.node = some r.key ∧ g.image = nodeCommand r.node ∧
              g.asid = j.asid ∧ g.running = false ∧ g.slateLen = profSlate (j.profile r.node) ∧
              (profSlate (j.profile r.node) ≠ 0 → (r.key, g.slateBase, g.slateLen) ∈ (t.sector k1).slateAllot))) ∧
        (nodeKind r.node = 2 → u.cmds = [] → ∀ k ∈ u.sectorOrder d, (u.sector k).mode = .inService → (u.sector k).closed = false → (u.sector k).tripped = false →
          Gives (.placementStep d) s (fun t => ∃ c, t.cmds = [c] ∧ c.kind = .copy ∧ c.node = some r.key ∧ c.stage = .queued ∧
            c.desc = nodeCommand r.node ∧ c.asid = j.asid)) ∧
        (nodeKind r.node = 3 → (∀ q ∈ (u.dieAt d).pool, nodeKind q.node = 3 → q.running = true → q.completed = true ∨ q.key = r.key) →
          (∀ x ∈ u.jobs, x.spill = []) → Gives (.placementStep d) s (fun t => (∃ q, t.poolRec d r.key = some q ∧ q.running = true ∧ q.inPool = false) ∧
            t.mem = s.mem ∧ t.cells = s.cells)) ∧
        (nodeKind r.node = 0 → u.anchorGone j r = true → Gives (.placementStep d) s (fun t => OneRecord s t d 0x0805 0 (some j.key) ∧
          (∃ k, t.job j.key = some k ∧ k.closed = true) ∧ t.insts = [])) ∧
        (∀ spots w, nodeKind r.node = 0 → u.anchorGone j r = false → u.spotsFor j r (r.nextPoint j).1 (r.nextPoint j).2 = some spots →
          u.placeFabric j r = .placed w → Gives (.placementStep d) s (fun t =>
            t.insts.map (fun i => (i.stage, i.rect)) = spots ∧
            (∀ i ∈ t.insts, i.node = r.key ∧ i.job = j.key ∧ i.asid = j.asid ∧ i.gid = (r.nextPoint j).1 ∧ i.restoreStep = 1 ∧ i.parked = true ∧ i.retired = false ∧
              ((r.nextPoint j).2 = false → i.loads = [.stream 0 true] ∧ i.frame = none) ∧
              ∀ c ∈ i.cells, (t.cell c).g = [] ∧ (t.cell c).spad = [] ∧ (t.cell c).tags = [] ∧ (t.cell c).narg = BitVec.ofNat 32 (nodeArg r.node).toNat ∧
                (t.cell c).instId = BitVec.ofNat 32 i.gid) ∧
            ((∀ x ∈ u.jobs, x.spill = []) → ∃ q, t.poolRec d r.key = some q ∧ q.live = r.live + spots.length ∧
              ((r.nextPoint j).2 = false → q.nextGp = r.nextGp + 1))))) ∧
      (∀ i, s.insts = [i] → i.die = d → i.retired = false → i.restoreStep = 1 → i.loads = [] → i.frame = none → s.sectorRuns i.sector = true →
        Gives (.placementStep d) s (fun t => (∃ x, t.insts = [x] ∧ x.id = i.id ∧ x.restoreStep = 0 ∧ x.parked = false ∧ x.lastActive = s.dev) ∧
          t.cells = s.cells ∧ t.mem = s.mem)) ∧
      (∀ i f, v.restoreReady d = some (i, f) → let pa := (s.dieAt f.die).ctxPa f.idx
        bitsN (s.memRead pa 256) 106 106 = 0 → f.saves = [] → i.cells.Nodup → Gives (.placementStep d) s (fun t =>
          (∀ n c, i.cells[n]? = some c → let at_ := pa + 256 + 1024 * n
            (∀ k, k < 16 → (t.cell c).reg k = BitVec.ofNat 32 (s.memRead (at_ + 4 * k) 4)) ∧
            (∀ k, k < 32 → Map.get 0 (t.cell c).a0 k = BitVec.ofNat 32 (s.memRead (at_ + 64 + 4 * k) 4) ∧
              Map.get 0 (t.cell c).a1 k = BitVec.ofNat 32 (s.memRead (at_ + 192 + 4 * k) 4) ∧
              ((t.cell c).active.handle k).cur = s.memRead (at_ + 352 + 2 * k) 2) ∧
            (t.cell c).fpstat = BitVec.ofNat 6 (s.memRead (at_ + 416) 4) ∧ (t.cell c).ptr = s.memRead (at_ + 420) 1 % 16 ∧
            (t.cell c).trig = s.memRead (at_ + 424) 4 ∧ (t.cell c).cycleSaved = s.memRead (at_ + 428) 4 ∧
            (∀ k, k < 16 → ((t.cell c).slot k).iter = s.memRead (at_ + 432 + 16 * k) 4 ∧
              ((t.cell c).slot k).v = BitVec.ofNat 32 (s.memRead (at_ + 440 + 16 * k) 4))) ∧
          (∀ x ∈ t.insts, x.id = i.id → x.restoreStep = 0 ∧ x.parked = false ∧ x.lastActive = s.dev) ∧ t.mem = s.mem))) ∧
    (∀ id i, s.inst id = some i → i.retired = false → i.hold = none → s.sectorRuns i.sector = true → i.preempt = true →
      let s1 := s.withdrawWaits id
      ∀ x j r, s1.inst id = some x → x.die = r.die → s1.stagesOf x.node x.gid = [x] → s1.job x.job = some j → s1.poolRec x.die x.node = some r →
        s1.mayBeSaved x = true → (s1.dieAt x.die).freeFrames ≠ [] →
        let s2 := s1.cutLoads x
        Gives (.drainPointReached id) s (fun t => (∃ f, (t.dieAt x.die).frames = (s.dieAt x.die).frames ++ [f] ∧ f.idx ∈ (s.dieAt x.die).freeFrames ∧
            f.node = x.node ∧ f.gid = x.gid ∧ f.stage = x.stage ∧ f.saves = s2.savesOf x ∧ f.restored = none ∧
            (let pa := (s.dieAt x.die).ctxPa f.idx
             t.memList pa 256 = natBytes 256 (s2.frameHeader x j r (s2.savesOf x)) ∧
             ∀ n c, x.cells[n]? = some c → t.memList (pa + 256 + 1024 * n) 1024 = s2.cellImage c)) ∧
          (∀ y ∈ t.insts, y.id = id → y.retired = true ∧ y.preempt = false) ∧
          (∃ q, t.poolRec x.die x.node = some q ∧ q.inPool = true ∧ q.frames = x.gid :: r.frames ∧ q.live = r.live - 1) ∧
          (∃ k, t.job x.job = some k ∧ k.npre = j.npre + 1))) ∧
    (∀ id i, s.inst id = some i → i.retired = false → i.hold = none → s.sectorRuns i.sector = true → i.preempt = false → s.quiet i = true →
      (i.yielding = true → s.yieldsTo i = false → Gives (.drainPointReached id) s (fun t =>
        (∀ j ∈ t.insts, j.id = id → j.yielding = false ∧ j.lastActive = s.dev) ∧ t.cells = s.cells ∧ t.mem = s.mem)) ∧
      (i.swap.isSome = true → i.yielding = false →
        (s.swapConflict i = none → i.atPoint = none → Gives (.drainPointReached id) s (fun t => (∀ j ∈ t.insts, j.id = id → j.atPoint = some s.dev) ∧
          t.cells = s.cells)) ∧
        (∀ x v, s.swapConflict i = some (x, v) → Gives (.drainPointReached id) s (fun t =>
          HeldFor s t i 0x0130 (BitVec.ofNat 64 (x.toNat * 2 ^ 32 + v.toNat * 2 ^ 36)) ∧ t.cells = s.cells)) ∧
        (∀ v, s.allSealed i.sector i.x0 i.y0 i.w i.h = some v → s.swapConflict i = none → Gives (.planeFlip id) s (fun t =>
          t = s.flipInst i ∧ (∀ j ∈ t.insts, j.id = id → j.swap = none ∧ j.atPoint = none) ∧ t.mem = s.mem)))) ∧
    (∀ k x rest i, (s.sector k).swapTokens = x :: rest → s.sectorRuns k = true →
      s.insts.find? (fun i => !i.retired && i.restoreStep != 1 && i.rect == (k, x.x0, x.y0, x.w, x.h)) = some i → Gives (.swapTokenArrival k) s (fun t =>
        (t.sector k).swapTokens = rest ∧ t.cells = s.cells ∧ ∀ j ∈ t.insts, j.id = i.id → j.swap.isSome = true)) ∧
    (∀ id i, s.inst id = some i → i.retired = true → (∀ c ∈ s.cmds, c.inst = some id → c.inPatch = false) → (∀ r ∈ s.reqs, r.inst ≠ id) → (∀ p ∈ s.products, p.inst ≠ id) →
      (∀ c ∈ i.cells, (s.cell c).flight = []) → Gives (.patchClear id) s (fun t => (∀ j ∈ t.insts, j.id ≠ id) ∧ t.mem = s.mem ∧
        ∀ c ∈ i.cells, (t.cell c).spad = [] ∧ (t.cell c).tags = [] ∧ (t.cell c).flight = [])) ∧
    (∀ a k t0 base len, s.sectors.find? (fun e => e.2.slateAllot.any (fun x => x.1 == a)) = some (k, t0) →
      t0.slateAllot.find? (fun x => x.1 == a) = some (a, base, len) → (∀ i ∈ s.insts, i.id = a → i.retired = true) →
      (∀ r ∈ (s.dieAt (dieOfSector k)).pool, r.key = a → r.running = false ∨ r.engineDone = true ∨ r.completed = true) →
      (∀ g ∈ t0.gve, g.slateBase ≠ base) → Gives (.slateAllotmentReset a) s (fun t =>
        (∀ e ∈ (t.sector k).slateAllot, e.1 ≠ a) ∧ (∀ e ∈ (t.sector k).slate, ¬(base ≤ e.1 ∧ e.1 < base + len)) ∧ t.mem = s.mem))

/-! Events: faults, their handler, reset. -/

/-- R346, R349 to R351, R356, R359, R377, R399, R401: a record whose cycle is over is written into its free slot with its number and a notice; into a full queue only WIDX is claimed, once; one whose queue
cannot be read, or of the Proctor, is kept there, and its job is lost under a record 0x0E07; a claimed one is written once its slot is free; FNOTE gives the oldest notice. Past 1 s a hold, of an instance
too, becomes a record 0x0801 and the job is aborted; an instance still for TWUS is held for 0x0220, one at its drain point before a plane that is not SEALED for 0x0221, a drain past DRUS for 0x0804; a scrub counts a
correction, and marks and records an uncorrectable error of memory.
Forms that complete here: `faultRecordWrite`, `faultQueueRetry`, `fnoteRead`, `holdLimitExpiry`, `watchdogExpiry`, `drainLimitExpiry`, `scrubPass`. -/
def Obligations.RecordsAndLimitsComplete : Prop :=
  (∀ (s : State) (d : Nat) (r : FaultRec) (idx : Nat), s.frozen = false → s.proctor.freezeEnable = false →
    (s.nextRec d = some (r, idx) → r.die = d → r.cont < 2 →
      (r.kept = true → Gives (.faultRecordWrite d) s (fun t => t.proctor.kept = s.proctor.kept ++ [r] ∧
        (t.dieAt d).records = (s.dieAt d).records.eraseIdx idx ∧ t.mem = s.mem)) ∧
      (r.kept = false → (s.dieAt d).notices.length < 256 → (∀ k j, r.job = some k → s.job k = some j → j.divert = false) →
        (∀ h seq pa, s.readHeader r.asid r.root r.fq = .ok h → seq = (if r.claimed then r.seq else h.widx) →
          s.ttXlat r.asid r.root (h.slot seq) .store = some pa →
          (seq - h.ridx < 2 ^ h.logn → Gives (.faultRecordWrite d) s (fun t =>
            t.memRead pa 64 = ({ r with seq := seq } : FaultRec).bits s.package % 2 ^ 512 ∧
            (t.dieAt d).records = (s.dieAt d).records.eraseIdx idx ∧
            (t.dieAt d).notices = (s.dieAt d).notices ++ [noticeOf { r with seq := seq }] ∧ t.cells = s.cells)) ∧
          (2 ^ h.logn ≤ seq - h.ridx → Gives (.faultRecordWrite d) s (fun t =>
            t.mem = (if r.claimed then s.mem else (s.putHeader h 0 (h.widx + 1)).mem) ∧
            (t.dieAt d).records = (s.dieAt d).records.set idx { r with claimed := true, tried := true, seq := seq } ∧
            (t.dieAt d).notices = (s.dieAt d).notices))) ∧
        (∀ va, s.readHeader r.asid r.root r.fq = .error va →
          (r.job = none → Gives (.faultRecordWrite d) s (fun t =>
            t.proctor.kept = s.proctor.kept ++ [{ r with kept := true }] ∧ 267 ∈ t.msix ∧ t.mem = s.mem)) ∧
          (∀ k j, r.job = some k → s.job k = some j → j.lost = false → Gives (.faultRecordWrite d) s (fun t =>
            (∃ r2, t.proctor.kept = s.proctor.kept ++ [{ r with kept := true }, r2] ∧ r2.code = 0x0E07 ∧ r2.cont = 2 ∧ r2.job = some k) ∧ 267 ∈ t.msix ∧
            ∀ x ∈ t.jobs, x.key = k → x.aborted = true))))) ∧
    (∀ pa, s.retryRec d = some (r, idx, some pa) → (s.dieAt d).retryAt ≤ s.dev → (s.dieAt d).notices.length < 256 → r.cont < 2 →
      Gives (.faultQueueRetry d) s (fun t => t.memRead pa 64 = r.bits s.package % 2 ^ 512 ∧ (t.dieAt d).retryAt = s.dev + usUnits)) ∧
    (s.dieExists s.input.die = true → Gives .fnoteRead s (fun t =>
      t.responses = s.responses ++ [(s.dieAt s.input.die).notices.headD 0] ∧
      (t.dieAt s.input.die).notices = (s.dieAt s.input.die).notices.tail ∧ t.mem = s.mem ∧ t.cells = s.cells))) ∧
  (∀ (s : State), s.frozen = false →
    (∀ d hid h, s.hold d hid = some h → h.written = true → h.since + 1000000 * usUnits ≤ s.dev →
      (s.holdJob h = none → h.inst = none → Gives (.holdLimitExpiry d hid) s (fun t => Recorded s t d 0x0801 0 ∧ t.hold d hid = none ∧ 260 + d ∈ t.msix)) ∧
      (∀ i, h.inst = some i.id → s.inst i.id = some i → (s.insts.map Inst.id).Nodup → Gives (.holdLimitExpiry d hid) s (fun t =>
        (∃ r ∈ (t.dieAt d).records, r.code = 0x0801 ∧ r.cont = 2 ∧ r.job = some i.job) ∧ t.hold d hid = none ∧ 260 + d ∈ t.msix ∧
        (∀ j ∈ t.jobs, j.key = i.job → j.aborted = true) ∧ ∀ x ∈ t.insts, x.job = i.job → x.retired = true))) ∧
    (∀ id i, s.inst id = some i → i.retired = false → i.hold = none → i.debugHeld = false → s.sectorRuns i.sector = true →
      (i.parked = false → s.saveWaits i = false →
        (i.draining = false → s.spanOver i i.lastActive (limitAt (s.dieAt i.die).wdOld (s.dieAt i.die).wdcfg i.lastActive) = true →
          (∀ c ∈ i.cells, ∀ e, e < 32 → s.combOut c e = none) → Gives (.watchdogExpiry id) s (fun t =>
            HeldFor s t i 0x0220 (BitVec.ofNat 64 (s.stallDetails i).1) ∧ t.cells = s.cells ∧ t.mem = s.mem)) ∧
        (∀ since v ok, i.swap.isSome = true → i.preempt = false → i.atPoint = some since → s.allSealed i.sector i.x0 i.y0 i.w i.h = none →
          s.spanOver i since (limitAt (s.dieAt i.die).wdOld (s.dieAt i.die).wdcfg since) = true → i.lastSeal = some (v, ok) → Gives (.watchdogExpiry id) s (fun t =>
            HeldFor s t i 0x0221 (BitVec.ofNat 64 (v.toNat + 16 + (if ok then 32 else 0))) ∧ t.cells = s.cells ∧ t.mem = s.mem))) ∧
      (i.draining = true → i.atPoint = none → s.factOn i = none → s.quiet i = false →
        let dr := limitAt (s.dieAt i.die).drOld (s.dieAt i.die).drus i.drainSince
        dr ≠ 0 → dr * usUnits ≤ s.spanTime i.sector i.drainSince [] → Gives (.drainLimitExpiry id) s (fun t =>
          HeldFor s t i 0x0804 (BitVec.ofNat 64 (s.stallDetails i).1) ∧ t.cells = s.cells ∧ t.mem = s.mem))) ∧
    (∀ kind place a, Gives (.scrubPass kind place a false) s (fun t => t.proctor.corrected = s.proctor.corrected + 1 ∧ t.mem = s.mem ∧ t.cells = s.cells)) ∧
    (∀ place a, Gives (.scrubPass 2 place a true) s (fun t => t.memBad a = true ∧ t.mem = s.mem ∧ t.cells = s.cells ∧
      Recorded s t (s.stackOf (paOffset a) / 2) 0x0D06 a)))

/-- R351, R353 to R355: FACT writes to a die with no action under way and none that waits, for a hold whose records are written (that one whose record still waits makes the action wait is log 143). An IDX with no hold, no
frame in use, or a CMD at or beyond NCMD gives BADID; at level 1 RESUME, SUBST and PREEMPT are refused, SUBST too where SUBOK is 0, and with FRM = 1 PREEMPT
and a save that awaits no service. RESUME fires a faulting slot again, SUBST answers a faulting access, PREEMPT starts the drain, ABORT retires the instance at level 0 and 1 alike; a serviced save is SUSPENDED.
Forms that complete here: `factSubst`, `factAbort`, `factResume`, `factPreempt`, `factFramePreempt`, `factFrameResume`, `factFrameSubst`, `factFrameAbort`. -/
def Obligations.HandlerActionsComplete : Prop :=
  (∀ (s : State), let d := s.input.die
    s.dieExists d = true → s.frozen = false → (s.dieAt d).factBusy = none → (s.dieAt d).factQueue = [] → s.recPending d (factIdx s.input.value) = false →
    (s.hold d (factIdx s.input.value) = none → ∀ a ∈ [Instr.factResume, .factSubst, .factPreempt, .factAbort],
      Gives a s (fun t => FactEnded s t d 2 ∧ t.insts = s.insts ∧ t.cells = s.cells ∧ t.mem = s.mem)) ∧
    (∀ h, s.hold d (factIdx s.input.value) = some h →
      (h.cont ≠ 0 → ∀ a ∈ [Instr.factResume, .factSubst, .factPreempt],
        Gives a s (fun t => FactEnded s t d 1 ∧ t.insts = s.insts ∧ t.cells = s.cells ∧ t.mem = s.mem)) ∧
      (h.subok = false → Gives .factSubst s (fun t => FactEnded s t d 1 ∧ t.insts = s.insts ∧ t.cells = s.cells ∧ t.mem = s.mem)) ∧
      (∀ i, h.inst = some i.id → s.inst i.id = some i → Gives .factAbort s (fun t => (t.dieAt d).factRes = 0 ∧ ∀ j, t.inst i.id = some j → j.retired = true)) ∧
      (∀ i cell slot, h.cont = 0 → h.hid = factIdx s.input.value → h.inst = some i.id → s.inst i.id = some i → h.sites = [(cell, slot)] → h.more = [] → h.ports = [] →
        (h.kind = .firing → s.faultedAt i.id cell slot = [] → s.products = [] →
          (∀ r, h.recAt cell slot = some r → r.code < 0x0280 ∨ 0x02FF < r.code) → Gives .factResume s (fun t => FactEnded s t d 0 ∧
            t.hold d h.hid = none ∧ (∀ j ∈ t.insts, j.id = i.id → j.hold = none) ∧ (t.cell cell).ptr = slot ∧ t.mem = s.mem)) ∧
        (∀ r rest, h.kind = .request → h.subok = true → s.faultedAt i.id cell slot = r :: rest → Gives .factSubst s (fun t => FactEnded s t d 0 ∧
          t.hold d h.hid = none ∧ (∀ j ∈ t.insts, j.id = i.id → j.hold = none) ∧ Replied t r.id (factValue s.input.value).toNat)) ∧
        (h.kind = .firing → i.retired = false → s.framesFit (s.stagesOf i.node i.gid) d = true → Gives .factPreempt s (fun t =>
          (t.dieAt d).factBusy = some h.hid ∧ ∀ j ∈ t.insts, j.id = i.id → j.preempt = true ∧ j.hold = none ∧ j.heldSites = [(cell, slot)]))))) ∧
  (∀ (s : State), let d := s.input.die
    let cmd := factCmd s.input.value
    let found := (s.dieAt d).frames.find? (fun f => f.idx == factIdx s.input.value && s.frameUsed f)
    s.dieExists d = true → s.frozen = false → (s.dieAt d).factBusy = none → (s.dieAt d).factQueue = [] →
    ((found = none ∨ ∃ f, found = some f ∧ f.saves.length ≤ cmd) → ∀ a ∈ [Instr.factFrameResume, .factFrameSubst, .factFrameAbort, .factFramePreempt],
      Gives a s (fun t => FactEnded s t d 2 ∧ t.insts = s.insts ∧ t.mem = s.mem ∧ (t.dieAt d).frames = (s.dieAt d).frames)) ∧
    (∀ f v, found = some f → f.saves[cmd]? = some v →
      (v.faulted = false → ∀ a ∈ [Instr.factFrameResume, .factFrameSubst, .factFrameAbort, .factFramePreempt],
        Gives a s (fun t => FactEnded s t d 1 ∧ t.insts = s.insts ∧ t.mem = s.mem ∧ (t.dieAt d).frames = (s.dieAt d).frames)) ∧
      (v.faulted = true → Gives .factFramePreempt s (fun t => FactEnded s t d 1 ∧ (t.dieAt d).frames = (s.dieAt d).frames ∧ t.mem = s.mem)) ∧
      (v.faulted = true → s.restoredInst f = none →
        let serviced := fun (o : Option Word) => (s.dieAt d).frames.map (fun x => if x.idx = f.idx then
          { f with saves := f.saves.set cmd { v with faulted := false, subst := o } } else x)
        Gives .factFrameResume s (fun t => FactEnded s t d 0 ∧ (t.dieAt d).frames = serviced none ∧ t.memByte (f.saveAt cmd + 205) = 0 ∧ t.cells = s.cells) ∧
        Gives .factFrameSubst s (fun t => FactEnded s t d 0 ∧ (t.dieAt d).frames = serviced (some (factValue s.input.value)) ∧
          t.memByte (f.saveAt cmd + 205) = 0 ∧ t.memRead (f.saveAt cmd + 160) 4 = (factValue s.input.value).toNat ∧
          t.memByte (f.saveAt cmd + 207) = 1 ∧ t.cells = s.cells) ∧
        Gives .factFrameAbort s (fun t => (t.dieAt d).factRes = 0 ∧ ∀ j ∈ t.jobs, j.key = f.job → j.aborted = true))))

/-- R24, R63, R332, R335, R337, R343, R376, R397: a device reset puts every cell, sector, die and port to its reset value, device time to 0 and the straps to the
input's, and leaves memory. The reset values the spec gives: sectors in service at ratio H, unmetered; CBASE and every RAMP entry 512; TWUS 10,000; FRZLVL 7;
REDUS 100; DRUS 1,000; TWARN 95; TTRIP 105. What a device reset keeps, memory among it, is log 97; what the spec gives no reset value for is the model's choice (log 2, 3, 10 to 12).
Forms that complete here: `deviceReset`. -/
def Obligations.DeviceResetLeaves : Prop :=
  ∀ (s : State), Gives .deviceReset s (fun t => t.dies = s.input.size ∧ t.hbmStacks = s.input.index ∧ t.cut = s.input.port ∧ t.mem = s.mem ∧ t.insts = [] ∧ t.jobs = [] ∧ t.reqs = [] ∧
    t.cmds = [] ∧ t.deviceNs = 0 ∧ t.proctor.freezeRun = false ∧ (∀ c, t.cell c = Cell.reset ∧ (t.cell c).active = Plane.clear ∧ (t.cell c).shadowState = .stale) ∧
    (∀ k, (t.sector k).mode = .inService ∧ (t.sector k).ratio = 0 ∧ (t.sector k).budget = 0 ∧ (t.sector k).slewC = 512) ∧
    (∀ n, (t.port n).state = 0 ∧ (t.port n).enabled = false) ∧
    (∀ d, bitsN (t.dieAt d).rampctl.toNat 25 16 = 512 ∧ (∀ n, Map.get 512 (t.dieAt d).ramp n = 512) ∧ (t.dieAt d).wdcfg = 10000 ∧ (t.dieAt d).frzlvl = 7 ∧ (t.dieAt d).redus = 100 ∧
      (t.dieAt d).drus = 1000 ∧ (t.dieAt d).twarn = 95 ∧ (t.dieAt d).ttrip = 105))
end

