-- ==== Sys2Proof/Laws/Map.lean ====
section
/-! SUPPORT. Sys2Proof/Laws/Map.lean: reading after writing, and the canonical form, of sparse data. -/
namespace Sys2Proof.Machine

variable {α : Type}

@[simp] theorem Map.get_put_same (d : α) (m : Map α) (k : Nat) (v : α) : Map.get d (Map.put m k v) k = v := by
  induction m with
  | nil => simp [Map.put, Map.get]
  | cons e r ih =>
    obtain ⟨k', v'⟩ := e
    simp only [Map.put]
    split
    · simp [Map.get]
    · split
      · simp [Map.get]
      · rename_i h1 h2
        simp [Map.get, ih, Ne.symm h2]

theorem Map.get_put_other (d : α) (m : Map α) (k : Nat) (v : α) (x : Nat) (h : x ≠ k) :
    Map.get d (Map.put m k v) x = Map.get d m x := by
  induction m with
  | nil => simp [Map.put, Map.get, Ne.symm h]
  | cons e r ih =>
    obtain ⟨k', v'⟩ := e
    simp only [Map.put]
    split
    · simp [Map.get, Ne.symm h]
    · split
      · rename_i h1 h2
        subst h2
        simp [Map.get, Ne.symm h]
      · simp [Map.get, ih]

@[simp] theorem Map.get_del_same (d : α) (m : Map α) (k : Nat) : Map.get d (Map.del m k) k = d := by
  induction m with
  | nil => simp [Map.del, Map.get]
  | cons e r ih =>
    obtain ⟨k', v'⟩ := e
    by_cases hk : k' = k
    · simpa [Map.del, hk] using ih
    · simp only [Map.del, ne_eq, hk, not_false_eq_true, decide_true, List.filter_cons_of_pos]
      simpa [Map.get, hk, Map.del] using ih

theorem Map.get_del_other (d : α) (m : Map α) (k x : Nat) (h : x ≠ k) : Map.get d (Map.del m k) x = Map.get d m x := by
  induction m with
  | nil => simp [Map.del, Map.get]
  | cons e r ih =>
    obtain ⟨k', v'⟩ := e
    by_cases hk : k' = k
    · subst hk
      simpa [Map.del, Map.get, Ne.symm h] using ih
    · simp only [Map.del, ne_eq, hk, not_false_eq_true, decide_true, List.filter_cons_of_pos]
      by_cases hx : k' = x
      · simp [Map.get, hx]
      · simpa [Map.get, hx, Map.del] using ih

variable [DecidableEq α]

@[simp] theorem Map.get_set_same (d : α) (m : Map α) (k : Nat) (v : α) : Map.get d (Map.set d m k v) k = v := by
  unfold Map.set
  split
  · rename_i h; simp [h]
  · simp

theorem Map.get_set_other (d : α) (m : Map α) (k : Nat) (v : α) (x : Nat) (h : x ≠ k) :
    Map.get d (Map.set d m k v) x = Map.get d m x := by
  unfold Map.set
  split
  · exact Map.get_del_other d m k x h
  · exact Map.get_put_other d m k v x h

/-- The canonical form, said with a lower bound on the keys. -/
def Map.above (d : α) (b : Nat) : Map α → Prop
  | [] => True
  | (k, v) :: r => b ≤ k ∧ v ≠ d ∧ Map.above d (k + 1) r

omit [DecidableEq α] in
theorem Map.above_mono {d : α} {a b : Nat} {m : Map α} (h : Map.above d b m) (hab : a ≤ b) : Map.above d a m := by
  cases m with
  | nil => trivial
  | cons e r => exact ⟨le_trans hab h.1, h.2⟩

theorem Map.wf_iff_above (d : α) (m : Map α) : Map.wf d m = true ↔ Map.above d 0 m := by
  have key : ∀ (m : Map α) (k : Nat) (v : α), Map.wf d ((k, v) :: m) = true ↔ (v ≠ d ∧ Map.above d (k + 1) m) := by
    intro m
    induction m with
    | nil => intro k v; simp [Map.wf, Map.above]
    | cons e r ih =>
      intro k v
      obtain ⟨k', v'⟩ := e
      simp only [Map.wf, Bool.and_eq_true, decide_eq_true_eq, ih, Map.above]
      constructor
      · rintro ⟨⟨h1, h2⟩, h3, h4⟩; exact ⟨h1, h2, h3, h4⟩
      · rintro ⟨h1, h2, h3, h4⟩; exact ⟨⟨h1, h2⟩, h3, h4⟩
  cases m with
  | nil => simp [Map.wf, Map.above]
  | cons e r => obtain ⟨k, v⟩ := e; simp [key, Map.above]

omit [DecidableEq α] in
theorem Map.above_put {d : α} {v : α} (hv : v ≠ d) (m : Map α) : ∀ (b k : Nat), b ≤ k → Map.above d b m → Map.above d b (Map.put m k v) := by
  induction m with
  | nil => intro b k hb _; exact ⟨hb, hv, trivial⟩
  | cons e r ih =>
    obtain ⟨k', v'⟩ := e
    intro b k hb h
    simp only [Map.put]
    split
    · rename_i hlt
      exact ⟨hb, hv, hlt, h.2.1, h.2.2⟩
    · split
      · rename_i h1 h2
        subst h2
        exact ⟨hb, hv, h.2.2⟩
      · exact ⟨h.1, h.2.1, ih (k' + 1) k (by omega) h.2.2⟩

omit [DecidableEq α] in
theorem Map.above_del {d : α} (m : Map α) : ∀ (b k : Nat), Map.above d b m → Map.above d b (Map.del m k) := by
  induction m with
  | nil => intro b k _; trivial
  | cons e r ih =>
    obtain ⟨k', v'⟩ := e
    intro b k h
    by_cases hk : k' = k
    · simp only [Map.del, hk, ne_eq, not_true_eq_false, decide_false, Bool.false_eq_true, not_false_eq_true, List.filter_cons_of_neg]
      exact Map.above_mono (ih (k' + 1) k h.2.2) (by have := h.1; omega)
    · simp only [Map.del, ne_eq, hk, not_false_eq_true, decide_true, List.filter_cons_of_pos]
      exact ⟨h.1, h.2.1, ih (k' + 1) k h.2.2⟩

/-- Writing keeps the canonical form. -/
theorem Map.wf_set (d : α) (m : Map α) (k : Nat) (v : α) (h : Map.wf d m = true) : Map.wf d (Map.set d m k v) = true := by
  rw [Map.wf_iff_above] at *
  unfold Map.set
  split
  · exact Map.above_del m 0 k h
  · rename_i hv; exact Map.above_put hv m 0 k (Nat.zero_le k) h

end Sys2Proof.Machine
end

