-- ==== Sys2Proof/Laws/State.lean ====
section
/-! SUPPORT. Sys2Proof/Laws/State.lean: one lemma per field of the state per update, and what an update leaves at the place it names. -/
namespace Sys2Proof.Machine
open Sys2Proof

@[simp] theorem State.setCell_turns (s : State) (c : Nat) (v : Cell) : (s.setCell c v).turns = s.turns := rfl
@[simp] theorem State.setCell_input (s : State) (c : Nat) (v : Cell) : (s.setCell c v).input = s.input := rfl
@[simp] theorem State.setCell_draws (s : State) (c : Nat) (v : Cell) : (s.setCell c v).draws = s.draws := rfl
@[simp] theorem State.setCell_nextId (s : State) (c : Nat) (v : Cell) : (s.setCell c v).nextId = s.nextId := rfl
@[simp] theorem State.setCell_now (s : State) (c : Nat) (v : Cell) : (s.setCell c v).now = s.now := rfl
@[simp] theorem State.setCell_timeOff (s : State) (c : Nat) (v : Cell) : (s.setCell c v).timeOff = s.timeOff := rfl
@[simp] theorem State.setCell_deferred (s : State) (c : Nat) (v : Cell) : (s.setCell c v).deferred = s.deferred := rfl
@[simp] theorem State.setCell_cut (s : State) (c : Nat) (v : Cell) : (s.setCell c v).cut = s.cut := rfl
@[simp] theorem State.setCell_dev (s : State) (c : Nat) (v : Cell) : (s.setCell c v).dev = s.dev := rfl
@[simp] theorem State.setCell_devRem (s : State) (c : Nat) (v : Cell) : (s.setCell c v).devRem = s.devRem := rfl
@[simp] theorem State.setCell_ppm (s : State) (c : Nat) (v : Cell) : (s.setCell c v).ppm = s.ppm := rfl
@[simp] theorem State.setCell_hist (s : State) (c : Nat) (v : Cell) : (s.setCell c v).hist = s.hist := rfl
@[simp] theorem State.setCell_fences (s : State) (c : Nat) (v : Cell) : (s.setCell c v).fences = s.fences := rfl
@[simp] theorem State.setCell_seen (s : State) (c : Nat) (v : Cell) : (s.setCell c v).seen = s.seen := rfl
@[simp] theorem State.setCell_vacated (s : State) (c : Nat) (v : Cell) : (s.setCell c v).vacated = s.vacated := rfl
@[simp] theorem State.setCell_doeQueue (s : State) (c : Nat) (v : Cell) : (s.setCell c v).doeQueue = s.doeQueue := rfl
@[simp] theorem State.setCell_dies (s : State) (c : Nat) (v : Cell) : (s.setCell c v).dies = s.dies := rfl
@[simp] theorem State.setCell_hbmStacks (s : State) (c : Nat) (v : Cell) : (s.setCell c v).hbmStacks = s.hbmStacks := rfl
@[simp] theorem State.setCell_package (s : State) (c : Nat) (v : Cell) : (s.setCell c v).package = s.package := rfl
@[simp] theorem State.setCell_sectors (s : State) (c : Nat) (v : Cell) : (s.setCell c v).sectors = s.sectors := rfl
@[simp] theorem State.setCell_die (s : State) (c : Nat) (v : Cell) : (s.setCell c v).die = s.die := rfl
@[simp] theorem State.setCell_ports (s : State) (c : Nat) (v : Cell) : (s.setCell c v).ports = s.ports := rfl
@[simp] theorem State.setCell_oroute (s : State) (c : Nat) (v : Cell) : (s.setCell c v).oroute = s.oroute := rfl
@[simp] theorem State.setCell_mem (s : State) (c : Nat) (v : Cell) : (s.setCell c v).mem = s.mem := rfl
@[simp] theorem State.setCell_badMem (s : State) (c : Nat) (v : Cell) : (s.setCell c v).badMem = s.badMem := rfl
@[simp] theorem State.setCell_insts (s : State) (c : Nat) (v : Cell) : (s.setCell c v).insts = s.insts := rfl
@[simp] theorem State.setCell_jobs (s : State) (c : Nat) (v : Cell) : (s.setCell c v).jobs = s.jobs := rfl
@[simp] theorem State.setCell_reqs (s : State) (c : Nat) (v : Cell) : (s.setCell c v).reqs = s.reqs := rfl
@[simp] theorem State.setCell_cmds (s : State) (c : Nat) (v : Cell) : (s.setCell c v).cmds = s.cmds := rfl
@[simp] theorem State.setCell_products (s : State) (c : Nat) (v : Cell) : (s.setCell c v).products = s.products := rfl
@[simp] theorem State.setCell_pairs (s : State) (c : Nat) (v : Cell) : (s.setCell c v).pairs = s.pairs := rfl
@[simp] theorem State.setCell_proctor (s : State) (c : Nat) (v : Cell) : (s.setCell c v).proctor = s.proctor := rfl
@[simp] theorem State.setCell_meterAt (s : State) (c : Nat) (v : Cell) : (s.setCell c v).meterAt = s.meterAt := rfl
@[simp] theorem State.setCell_msix (s : State) (c : Nat) (v : Cell) : (s.setCell c v).msix = s.msix := rfl
@[simp] theorem State.setCell_responses (s : State) (c : Nat) (v : Cell) : (s.setCell c v).responses = s.responses := rfl

@[simp] theorem State.updCell_turns (s : State) (c : Nat) (f : Cell → Cell) : (s.updCell c f).turns = s.turns := rfl
@[simp] theorem State.updCell_input (s : State) (c : Nat) (f : Cell → Cell) : (s.updCell c f).input = s.input := rfl
@[simp] theorem State.updCell_draws (s : State) (c : Nat) (f : Cell → Cell) : (s.updCell c f).draws = s.draws := rfl
@[simp] theorem State.updCell_nextId (s : State) (c : Nat) (f : Cell → Cell) : (s.updCell c f).nextId = s.nextId := rfl
@[simp] theorem State.updCell_now (s : State) (c : Nat) (f : Cell → Cell) : (s.updCell c f).now = s.now := rfl
@[simp] theorem State.updCell_timeOff (s : State) (c : Nat) (f : Cell → Cell) : (s.updCell c f).timeOff = s.timeOff := rfl
@[simp] theorem State.updCell_deferred (s : State) (c : Nat) (f : Cell → Cell) : (s.updCell c f).deferred = s.deferred := rfl
@[simp] theorem State.updCell_cut (s : State) (c : Nat) (f : Cell → Cell) : (s.updCell c f).cut = s.cut := rfl
@[simp] theorem State.updCell_dev (s : State) (c : Nat) (f : Cell → Cell) : (s.updCell c f).dev = s.dev := rfl
@[simp] theorem State.updCell_devRem (s : State) (c : Nat) (f : Cell → Cell) : (s.updCell c f).devRem = s.devRem := rfl
@[simp] theorem State.updCell_ppm (s : State) (c : Nat) (f : Cell → Cell) : (s.updCell c f).ppm = s.ppm := rfl
@[simp] theorem State.updCell_hist (s : State) (c : Nat) (f : Cell → Cell) : (s.updCell c f).hist = s.hist := rfl
@[simp] theorem State.updCell_fences (s : State) (c : Nat) (f : Cell → Cell) : (s.updCell c f).fences = s.fences := rfl
@[simp] theorem State.updCell_seen (s : State) (c : Nat) (f : Cell → Cell) : (s.updCell c f).seen = s.seen := rfl
@[simp] theorem State.updCell_vacated (s : State) (c : Nat) (f : Cell → Cell) : (s.updCell c f).vacated = s.vacated := rfl
@[simp] theorem State.updCell_doeQueue (s : State) (c : Nat) (f : Cell → Cell) : (s.updCell c f).doeQueue = s.doeQueue := rfl
@[simp] theorem State.updCell_dies (s : State) (c : Nat) (f : Cell → Cell) : (s.updCell c f).dies = s.dies := rfl
@[simp] theorem State.updCell_hbmStacks (s : State) (c : Nat) (f : Cell → Cell) : (s.updCell c f).hbmStacks = s.hbmStacks := rfl
@[simp] theorem State.updCell_package (s : State) (c : Nat) (f : Cell → Cell) : (s.updCell c f).package = s.package := rfl
@[simp] theorem State.updCell_sectors (s : State) (c : Nat) (f : Cell → Cell) : (s.updCell c f).sectors = s.sectors := rfl
@[simp] theorem State.updCell_die (s : State) (c : Nat) (f : Cell → Cell) : (s.updCell c f).die = s.die := rfl
@[simp] theorem State.updCell_ports (s : State) (c : Nat) (f : Cell → Cell) : (s.updCell c f).ports = s.ports := rfl
@[simp] theorem State.updCell_oroute (s : State) (c : Nat) (f : Cell → Cell) : (s.updCell c f).oroute = s.oroute := rfl
@[simp] theorem State.updCell_mem (s : State) (c : Nat) (f : Cell → Cell) : (s.updCell c f).mem = s.mem := rfl
@[simp] theorem State.updCell_badMem (s : State) (c : Nat) (f : Cell → Cell) : (s.updCell c f).badMem = s.badMem := rfl
@[simp] theorem State.updCell_insts (s : State) (c : Nat) (f : Cell → Cell) : (s.updCell c f).insts = s.insts := rfl
@[simp] theorem State.updCell_jobs (s : State) (c : Nat) (f : Cell → Cell) : (s.updCell c f).jobs = s.jobs := rfl
@[simp] theorem State.updCell_reqs (s : State) (c : Nat) (f : Cell → Cell) : (s.updCell c f).reqs = s.reqs := rfl
@[simp] theorem State.updCell_cmds (s : State) (c : Nat) (f : Cell → Cell) : (s.updCell c f).cmds = s.cmds := rfl
@[simp] theorem State.updCell_products (s : State) (c : Nat) (f : Cell → Cell) : (s.updCell c f).products = s.products := rfl
@[simp] theorem State.updCell_pairs (s : State) (c : Nat) (f : Cell → Cell) : (s.updCell c f).pairs = s.pairs := rfl
@[simp] theorem State.updCell_proctor (s : State) (c : Nat) (f : Cell → Cell) : (s.updCell c f).proctor = s.proctor := rfl
@[simp] theorem State.updCell_meterAt (s : State) (c : Nat) (f : Cell → Cell) : (s.updCell c f).meterAt = s.meterAt := rfl
@[simp] theorem State.updCell_msix (s : State) (c : Nat) (f : Cell → Cell) : (s.updCell c f).msix = s.msix := rfl
@[simp] theorem State.updCell_responses (s : State) (c : Nat) (f : Cell → Cell) : (s.updCell c f).responses = s.responses := rfl

@[simp] theorem State.setSector_turns (s : State) (k : Nat) (v : Sector) : (s.setSector k v).turns = s.turns := rfl
@[simp] theorem State.setSector_input (s : State) (k : Nat) (v : Sector) : (s.setSector k v).input = s.input := rfl
@[simp] theorem State.setSector_draws (s : State) (k : Nat) (v : Sector) : (s.setSector k v).draws = s.draws := rfl
@[simp] theorem State.setSector_nextId (s : State) (k : Nat) (v : Sector) : (s.setSector k v).nextId = s.nextId := rfl
@[simp] theorem State.setSector_now (s : State) (k : Nat) (v : Sector) : (s.setSector k v).now = s.now := rfl
@[simp] theorem State.setSector_timeOff (s : State) (k : Nat) (v : Sector) : (s.setSector k v).timeOff = s.timeOff := rfl
@[simp] theorem State.setSector_deferred (s : State) (k : Nat) (v : Sector) : (s.setSector k v).deferred = s.deferred := rfl
@[simp] theorem State.setSector_cut (s : State) (k : Nat) (v : Sector) : (s.setSector k v).cut = s.cut := rfl
@[simp] theorem State.setSector_dev (s : State) (k : Nat) (v : Sector) : (s.setSector k v).dev = s.dev := rfl
@[simp] theorem State.setSector_devRem (s : State) (k : Nat) (v : Sector) : (s.setSector k v).devRem = s.devRem := rfl
@[simp] theorem State.setSector_ppm (s : State) (k : Nat) (v : Sector) : (s.setSector k v).ppm = s.ppm := rfl
@[simp] theorem State.setSector_hist (s : State) (k : Nat) (v : Sector) : (s.setSector k v).hist = s.hist := rfl
@[simp] theorem State.setSector_fences (s : State) (k : Nat) (v : Sector) : (s.setSector k v).fences = s.fences := rfl
@[simp] theorem State.setSector_seen (s : State) (k : Nat) (v : Sector) : (s.setSector k v).seen = s.seen := rfl
@[simp] theorem State.setSector_vacated (s : State) (k : Nat) (v : Sector) : (s.setSector k v).vacated = s.vacated := rfl
@[simp] theorem State.setSector_doeQueue (s : State) (k : Nat) (v : Sector) : (s.setSector k v).doeQueue = s.doeQueue := rfl
@[simp] theorem State.setSector_dies (s : State) (k : Nat) (v : Sector) : (s.setSector k v).dies = s.dies := rfl
@[simp] theorem State.setSector_hbmStacks (s : State) (k : Nat) (v : Sector) : (s.setSector k v).hbmStacks = s.hbmStacks := rfl
@[simp] theorem State.setSector_package (s : State) (k : Nat) (v : Sector) : (s.setSector k v).package = s.package := rfl
@[simp] theorem State.setSector_cells (s : State) (k : Nat) (v : Sector) : (s.setSector k v).cells = s.cells := rfl
@[simp] theorem State.setSector_die (s : State) (k : Nat) (v : Sector) : (s.setSector k v).die = s.die := rfl
@[simp] theorem State.setSector_ports (s : State) (k : Nat) (v : Sector) : (s.setSector k v).ports = s.ports := rfl
@[simp] theorem State.setSector_oroute (s : State) (k : Nat) (v : Sector) : (s.setSector k v).oroute = s.oroute := rfl
@[simp] theorem State.setSector_mem (s : State) (k : Nat) (v : Sector) : (s.setSector k v).mem = s.mem := rfl
@[simp] theorem State.setSector_badMem (s : State) (k : Nat) (v : Sector) : (s.setSector k v).badMem = s.badMem := rfl
@[simp] theorem State.setSector_insts (s : State) (k : Nat) (v : Sector) : (s.setSector k v).insts = s.insts := rfl
@[simp] theorem State.setSector_jobs (s : State) (k : Nat) (v : Sector) : (s.setSector k v).jobs = s.jobs := rfl
@[simp] theorem State.setSector_reqs (s : State) (k : Nat) (v : Sector) : (s.setSector k v).reqs = s.reqs := rfl
@[simp] theorem State.setSector_cmds (s : State) (k : Nat) (v : Sector) : (s.setSector k v).cmds = s.cmds := rfl
@[simp] theorem State.setSector_products (s : State) (k : Nat) (v : Sector) : (s.setSector k v).products = s.products := rfl
@[simp] theorem State.setSector_pairs (s : State) (k : Nat) (v : Sector) : (s.setSector k v).pairs = s.pairs := rfl
@[simp] theorem State.setSector_proctor (s : State) (k : Nat) (v : Sector) : (s.setSector k v).proctor = s.proctor := rfl
@[simp] theorem State.setSector_meterAt (s : State) (k : Nat) (v : Sector) : (s.setSector k v).meterAt = s.meterAt := rfl
@[simp] theorem State.setSector_msix (s : State) (k : Nat) (v : Sector) : (s.setSector k v).msix = s.msix := rfl
@[simp] theorem State.setSector_responses (s : State) (k : Nat) (v : Sector) : (s.setSector k v).responses = s.responses := rfl

@[simp] theorem State.updSector_turns (s : State) (k : Nat) (f : Sector → Sector) : (s.updSector k f).turns = s.turns := rfl
@[simp] theorem State.updSector_input (s : State) (k : Nat) (f : Sector → Sector) : (s.updSector k f).input = s.input := rfl
@[simp] theorem State.updSector_draws (s : State) (k : Nat) (f : Sector → Sector) : (s.updSector k f).draws = s.draws := rfl
@[simp] theorem State.updSector_nextId (s : State) (k : Nat) (f : Sector → Sector) : (s.updSector k f).nextId = s.nextId := rfl
@[simp] theorem State.updSector_now (s : State) (k : Nat) (f : Sector → Sector) : (s.updSector k f).now = s.now := rfl
@[simp] theorem State.updSector_timeOff (s : State) (k : Nat) (f : Sector → Sector) : (s.updSector k f).timeOff = s.timeOff := rfl
@[simp] theorem State.updSector_deferred (s : State) (k : Nat) (f : Sector → Sector) : (s.updSector k f).deferred = s.deferred := rfl
@[simp] theorem State.updSector_cut (s : State) (k : Nat) (f : Sector → Sector) : (s.updSector k f).cut = s.cut := rfl
@[simp] theorem State.updSector_dev (s : State) (k : Nat) (f : Sector → Sector) : (s.updSector k f).dev = s.dev := rfl
@[simp] theorem State.updSector_devRem (s : State) (k : Nat) (f : Sector → Sector) : (s.updSector k f).devRem = s.devRem := rfl
@[simp] theorem State.updSector_ppm (s : State) (k : Nat) (f : Sector → Sector) : (s.updSector k f).ppm = s.ppm := rfl
@[simp] theorem State.updSector_hist (s : State) (k : Nat) (f : Sector → Sector) : (s.updSector k f).hist = s.hist := rfl
@[simp] theorem State.updSector_fences (s : State) (k : Nat) (f : Sector → Sector) : (s.updSector k f).fences = s.fences := rfl
@[simp] theorem State.updSector_seen (s : State) (k : Nat) (f : Sector → Sector) : (s.updSector k f).seen = s.seen := rfl
@[simp] theorem State.updSector_vacated (s : State) (k : Nat) (f : Sector → Sector) : (s.updSector k f).vacated = s.vacated := rfl
@[simp] theorem State.updSector_doeQueue (s : State) (k : Nat) (f : Sector → Sector) : (s.updSector k f).doeQueue = s.doeQueue := rfl
@[simp] theorem State.updSector_dies (s : State) (k : Nat) (f : Sector → Sector) : (s.updSector k f).dies = s.dies := rfl
@[simp] theorem State.updSector_hbmStacks (s : State) (k : Nat) (f : Sector → Sector) : (s.updSector k f).hbmStacks = s.hbmStacks := rfl
@[simp] theorem State.updSector_package (s : State) (k : Nat) (f : Sector → Sector) : (s.updSector k f).package = s.package := rfl
@[simp] theorem State.updSector_cells (s : State) (k : Nat) (f : Sector → Sector) : (s.updSector k f).cells = s.cells := rfl
@[simp] theorem State.updSector_die (s : State) (k : Nat) (f : Sector → Sector) : (s.updSector k f).die = s.die := rfl
@[simp] theorem State.updSector_ports (s : State) (k : Nat) (f : Sector → Sector) : (s.updSector k f).ports = s.ports := rfl
@[simp] theorem State.updSector_oroute (s : State) (k : Nat) (f : Sector → Sector) : (s.updSector k f).oroute = s.oroute := rfl
@[simp] theorem State.updSector_mem (s : State) (k : Nat) (f : Sector → Sector) : (s.updSector k f).mem = s.mem := rfl
@[simp] theorem State.updSector_badMem (s : State) (k : Nat) (f : Sector → Sector) : (s.updSector k f).badMem = s.badMem := rfl
@[simp] theorem State.updSector_insts (s : State) (k : Nat) (f : Sector → Sector) : (s.updSector k f).insts = s.insts := rfl
@[simp] theorem State.updSector_jobs (s : State) (k : Nat) (f : Sector → Sector) : (s.updSector k f).jobs = s.jobs := rfl
@[simp] theorem State.updSector_reqs (s : State) (k : Nat) (f : Sector → Sector) : (s.updSector k f).reqs = s.reqs := rfl
@[simp] theorem State.updSector_cmds (s : State) (k : Nat) (f : Sector → Sector) : (s.updSector k f).cmds = s.cmds := rfl
@[simp] theorem State.updSector_products (s : State) (k : Nat) (f : Sector → Sector) : (s.updSector k f).products = s.products := rfl
@[simp] theorem State.updSector_pairs (s : State) (k : Nat) (f : Sector → Sector) : (s.updSector k f).pairs = s.pairs := rfl
@[simp] theorem State.updSector_proctor (s : State) (k : Nat) (f : Sector → Sector) : (s.updSector k f).proctor = s.proctor := rfl
@[simp] theorem State.updSector_meterAt (s : State) (k : Nat) (f : Sector → Sector) : (s.updSector k f).meterAt = s.meterAt := rfl
@[simp] theorem State.updSector_msix (s : State) (k : Nat) (f : Sector → Sector) : (s.updSector k f).msix = s.msix := rfl
@[simp] theorem State.updSector_responses (s : State) (k : Nat) (f : Sector → Sector) : (s.updSector k f).responses = s.responses := rfl

@[simp] theorem State.setDie_turns (s : State) (d : Nat) (v : Die) : (s.setDie d v).turns = s.turns := rfl
@[simp] theorem State.setDie_input (s : State) (d : Nat) (v : Die) : (s.setDie d v).input = s.input := rfl
@[simp] theorem State.setDie_draws (s : State) (d : Nat) (v : Die) : (s.setDie d v).draws = s.draws := rfl
@[simp] theorem State.setDie_nextId (s : State) (d : Nat) (v : Die) : (s.setDie d v).nextId = s.nextId := rfl
@[simp] theorem State.setDie_now (s : State) (d : Nat) (v : Die) : (s.setDie d v).now = s.now := rfl
@[simp] theorem State.setDie_timeOff (s : State) (d : Nat) (v : Die) : (s.setDie d v).timeOff = s.timeOff := rfl
@[simp] theorem State.setDie_deferred (s : State) (d : Nat) (v : Die) : (s.setDie d v).deferred = s.deferred := rfl
@[simp] theorem State.setDie_cut (s : State) (d : Nat) (v : Die) : (s.setDie d v).cut = s.cut := rfl
@[simp] theorem State.setDie_dev (s : State) (d : Nat) (v : Die) : (s.setDie d v).dev = s.dev := rfl
@[simp] theorem State.setDie_devRem (s : State) (d : Nat) (v : Die) : (s.setDie d v).devRem = s.devRem := rfl
@[simp] theorem State.setDie_ppm (s : State) (d : Nat) (v : Die) : (s.setDie d v).ppm = s.ppm := rfl
@[simp] theorem State.setDie_hist (s : State) (d : Nat) (v : Die) : (s.setDie d v).hist = s.hist := rfl
@[simp] theorem State.setDie_fences (s : State) (d : Nat) (v : Die) : (s.setDie d v).fences = s.fences := rfl
@[simp] theorem State.setDie_seen (s : State) (d : Nat) (v : Die) : (s.setDie d v).seen = s.seen := rfl
@[simp] theorem State.setDie_vacated (s : State) (d : Nat) (v : Die) : (s.setDie d v).vacated = s.vacated := rfl
@[simp] theorem State.setDie_doeQueue (s : State) (d : Nat) (v : Die) : (s.setDie d v).doeQueue = s.doeQueue := rfl
@[simp] theorem State.setDie_dies (s : State) (d : Nat) (v : Die) : (s.setDie d v).dies = s.dies := rfl
@[simp] theorem State.setDie_hbmStacks (s : State) (d : Nat) (v : Die) : (s.setDie d v).hbmStacks = s.hbmStacks := rfl
@[simp] theorem State.setDie_package (s : State) (d : Nat) (v : Die) : (s.setDie d v).package = s.package := rfl
@[simp] theorem State.setDie_cells (s : State) (d : Nat) (v : Die) : (s.setDie d v).cells = s.cells := rfl
@[simp] theorem State.setDie_sectors (s : State) (d : Nat) (v : Die) : (s.setDie d v).sectors = s.sectors := rfl
@[simp] theorem State.setDie_ports (s : State) (d : Nat) (v : Die) : (s.setDie d v).ports = s.ports := rfl
@[simp] theorem State.setDie_oroute (s : State) (d : Nat) (v : Die) : (s.setDie d v).oroute = s.oroute := rfl
@[simp] theorem State.setDie_mem (s : State) (d : Nat) (v : Die) : (s.setDie d v).mem = s.mem := rfl
@[simp] theorem State.setDie_badMem (s : State) (d : Nat) (v : Die) : (s.setDie d v).badMem = s.badMem := rfl
@[simp] theorem State.setDie_insts (s : State) (d : Nat) (v : Die) : (s.setDie d v).insts = s.insts := rfl
@[simp] theorem State.setDie_jobs (s : State) (d : Nat) (v : Die) : (s.setDie d v).jobs = s.jobs := rfl
@[simp] theorem State.setDie_reqs (s : State) (d : Nat) (v : Die) : (s.setDie d v).reqs = s.reqs := rfl
@[simp] theorem State.setDie_cmds (s : State) (d : Nat) (v : Die) : (s.setDie d v).cmds = s.cmds := rfl
@[simp] theorem State.setDie_products (s : State) (d : Nat) (v : Die) : (s.setDie d v).products = s.products := rfl
@[simp] theorem State.setDie_pairs (s : State) (d : Nat) (v : Die) : (s.setDie d v).pairs = s.pairs := rfl
@[simp] theorem State.setDie_proctor (s : State) (d : Nat) (v : Die) : (s.setDie d v).proctor = s.proctor := rfl
@[simp] theorem State.setDie_meterAt (s : State) (d : Nat) (v : Die) : (s.setDie d v).meterAt = s.meterAt := rfl
@[simp] theorem State.setDie_msix (s : State) (d : Nat) (v : Die) : (s.setDie d v).msix = s.msix := rfl
@[simp] theorem State.setDie_responses (s : State) (d : Nat) (v : Die) : (s.setDie d v).responses = s.responses := rfl

@[simp] theorem State.updDie_turns (s : State) (d : Nat) (f : Die → Die) : (s.updDie d f).turns = s.turns := rfl
@[simp] theorem State.updDie_input (s : State) (d : Nat) (f : Die → Die) : (s.updDie d f).input = s.input := rfl
@[simp] theorem State.updDie_draws (s : State) (d : Nat) (f : Die → Die) : (s.updDie d f).draws = s.draws := rfl
@[simp] theorem State.updDie_nextId (s : State) (d : Nat) (f : Die → Die) : (s.updDie d f).nextId = s.nextId := rfl
@[simp] theorem State.updDie_now (s : State) (d : Nat) (f : Die → Die) : (s.updDie d f).now = s.now := rfl
@[simp] theorem State.updDie_timeOff (s : State) (d : Nat) (f : Die → Die) : (s.updDie d f).timeOff = s.timeOff := rfl
@[simp] theorem State.updDie_deferred (s : State) (d : Nat) (f : Die → Die) : (s.updDie d f).deferred = s.deferred := rfl
@[simp] theorem State.updDie_cut (s : State) (d : Nat) (f : Die → Die) : (s.updDie d f).cut = s.cut := rfl
@[simp] theorem State.updDie_dev (s : State) (d : Nat) (f : Die → Die) : (s.updDie d f).dev = s.dev := rfl
@[simp] theorem State.updDie_devRem (s : State) (d : Nat) (f : Die → Die) : (s.updDie d f).devRem = s.devRem := rfl
@[simp] theorem State.updDie_ppm (s : State) (d : Nat) (f : Die → Die) : (s.updDie d f).ppm = s.ppm := rfl
@[simp] theorem State.updDie_hist (s : State) (d : Nat) (f : Die → Die) : (s.updDie d f).hist = s.hist := rfl
@[simp] theorem State.updDie_fences (s : State) (d : Nat) (f : Die → Die) : (s.updDie d f).fences = s.fences := rfl
@[simp] theorem State.updDie_seen (s : State) (d : Nat) (f : Die → Die) : (s.updDie d f).seen = s.seen := rfl
@[simp] theorem State.updDie_vacated (s : State) (d : Nat) (f : Die → Die) : (s.updDie d f).vacated = s.vacated := rfl
@[simp] theorem State.updDie_doeQueue (s : State) (d : Nat) (f : Die → Die) : (s.updDie d f).doeQueue = s.doeQueue := rfl
@[simp] theorem State.updDie_dies (s : State) (d : Nat) (f : Die → Die) : (s.updDie d f).dies = s.dies := rfl
@[simp] theorem State.updDie_hbmStacks (s : State) (d : Nat) (f : Die → Die) : (s.updDie d f).hbmStacks = s.hbmStacks := rfl
@[simp] theorem State.updDie_package (s : State) (d : Nat) (f : Die → Die) : (s.updDie d f).package = s.package := rfl
@[simp] theorem State.updDie_cells (s : State) (d : Nat) (f : Die → Die) : (s.updDie d f).cells = s.cells := rfl
@[simp] theorem State.updDie_sectors (s : State) (d : Nat) (f : Die → Die) : (s.updDie d f).sectors = s.sectors := rfl
@[simp] theorem State.updDie_ports (s : State) (d : Nat) (f : Die → Die) : (s.updDie d f).ports = s.ports := rfl
@[simp] theorem State.updDie_oroute (s : State) (d : Nat) (f : Die → Die) : (s.updDie d f).oroute = s.oroute := rfl
@[simp] theorem State.updDie_mem (s : State) (d : Nat) (f : Die → Die) : (s.updDie d f).mem = s.mem := rfl
@[simp] theorem State.updDie_badMem (s : State) (d : Nat) (f : Die → Die) : (s.updDie d f).badMem = s.badMem := rfl
@[simp] theorem State.updDie_insts (s : State) (d : Nat) (f : Die → Die) : (s.updDie d f).insts = s.insts := rfl
@[simp] theorem State.updDie_jobs (s : State) (d : Nat) (f : Die → Die) : (s.updDie d f).jobs = s.jobs := rfl
@[simp] theorem State.updDie_reqs (s : State) (d : Nat) (f : Die → Die) : (s.updDie d f).reqs = s.reqs := rfl
@[simp] theorem State.updDie_cmds (s : State) (d : Nat) (f : Die → Die) : (s.updDie d f).cmds = s.cmds := rfl
@[simp] theorem State.updDie_products (s : State) (d : Nat) (f : Die → Die) : (s.updDie d f).products = s.products := rfl
@[simp] theorem State.updDie_pairs (s : State) (d : Nat) (f : Die → Die) : (s.updDie d f).pairs = s.pairs := rfl
@[simp] theorem State.updDie_proctor (s : State) (d : Nat) (f : Die → Die) : (s.updDie d f).proctor = s.proctor := rfl
@[simp] theorem State.updDie_meterAt (s : State) (d : Nat) (f : Die → Die) : (s.updDie d f).meterAt = s.meterAt := rfl
@[simp] theorem State.updDie_msix (s : State) (d : Nat) (f : Die → Die) : (s.updDie d f).msix = s.msix := rfl
@[simp] theorem State.updDie_responses (s : State) (d : Nat) (f : Die → Die) : (s.updDie d f).responses = s.responses := rfl

@[simp] theorem State.setPort_turns (s : State) (p : Nat) (v : Port) : (s.setPort p v).turns = s.turns := rfl
@[simp] theorem State.setPort_input (s : State) (p : Nat) (v : Port) : (s.setPort p v).input = s.input := rfl
@[simp] theorem State.setPort_draws (s : State) (p : Nat) (v : Port) : (s.setPort p v).draws = s.draws := rfl
@[simp] theorem State.setPort_nextId (s : State) (p : Nat) (v : Port) : (s.setPort p v).nextId = s.nextId := rfl
@[simp] theorem State.setPort_now (s : State) (p : Nat) (v : Port) : (s.setPort p v).now = s.now := rfl
@[simp] theorem State.setPort_timeOff (s : State) (p : Nat) (v : Port) : (s.setPort p v).timeOff = s.timeOff := rfl
@[simp] theorem State.setPort_deferred (s : State) (p : Nat) (v : Port) : (s.setPort p v).deferred = s.deferred := rfl
@[simp] theorem State.setPort_cut (s : State) (p : Nat) (v : Port) : (s.setPort p v).cut = s.cut := rfl
@[simp] theorem State.setPort_dev (s : State) (p : Nat) (v : Port) : (s.setPort p v).dev = s.dev := rfl
@[simp] theorem State.setPort_devRem (s : State) (p : Nat) (v : Port) : (s.setPort p v).devRem = s.devRem := rfl
@[simp] theorem State.setPort_ppm (s : State) (p : Nat) (v : Port) : (s.setPort p v).ppm = s.ppm := rfl
@[simp] theorem State.setPort_hist (s : State) (p : Nat) (v : Port) : (s.setPort p v).hist = s.hist := rfl
@[simp] theorem State.setPort_fences (s : State) (p : Nat) (v : Port) : (s.setPort p v).fences = s.fences := rfl
@[simp] theorem State.setPort_seen (s : State) (p : Nat) (v : Port) : (s.setPort p v).seen = s.seen := rfl
@[simp] theorem State.setPort_vacated (s : State) (p : Nat) (v : Port) : (s.setPort p v).vacated = s.vacated := rfl
@[simp] theorem State.setPort_doeQueue (s : State) (p : Nat) (v : Port) : (s.setPort p v).doeQueue = s.doeQueue := rfl
@[simp] theorem State.setPort_dies (s : State) (p : Nat) (v : Port) : (s.setPort p v).dies = s.dies := rfl
@[simp] theorem State.setPort_hbmStacks (s : State) (p : Nat) (v : Port) : (s.setPort p v).hbmStacks = s.hbmStacks := rfl
@[simp] theorem State.setPort_package (s : State) (p : Nat) (v : Port) : (s.setPort p v).package = s.package := rfl
@[simp] theorem State.setPort_cells (s : State) (p : Nat) (v : Port) : (s.setPort p v).cells = s.cells := rfl
@[simp] theorem State.setPort_sectors (s : State) (p : Nat) (v : Port) : (s.setPort p v).sectors = s.sectors := rfl
@[simp] theorem State.setPort_die (s : State) (p : Nat) (v : Port) : (s.setPort p v).die = s.die := rfl
@[simp] theorem State.setPort_oroute (s : State) (p : Nat) (v : Port) : (s.setPort p v).oroute = s.oroute := rfl
@[simp] theorem State.setPort_mem (s : State) (p : Nat) (v : Port) : (s.setPort p v).mem = s.mem := rfl
@[simp] theorem State.setPort_badMem (s : State) (p : Nat) (v : Port) : (s.setPort p v).badMem = s.badMem := rfl
@[simp] theorem State.setPort_insts (s : State) (p : Nat) (v : Port) : (s.setPort p v).insts = s.insts := rfl
@[simp] theorem State.setPort_jobs (s : State) (p : Nat) (v : Port) : (s.setPort p v).jobs = s.jobs := rfl
@[simp] theorem State.setPort_reqs (s : State) (p : Nat) (v : Port) : (s.setPort p v).reqs = s.reqs := rfl
@[simp] theorem State.setPort_cmds (s : State) (p : Nat) (v : Port) : (s.setPort p v).cmds = s.cmds := rfl
@[simp] theorem State.setPort_products (s : State) (p : Nat) (v : Port) : (s.setPort p v).products = s.products := rfl
@[simp] theorem State.setPort_pairs (s : State) (p : Nat) (v : Port) : (s.setPort p v).pairs = s.pairs := rfl
@[simp] theorem State.setPort_proctor (s : State) (p : Nat) (v : Port) : (s.setPort p v).proctor = s.proctor := rfl
@[simp] theorem State.setPort_meterAt (s : State) (p : Nat) (v : Port) : (s.setPort p v).meterAt = s.meterAt := rfl
@[simp] theorem State.setPort_msix (s : State) (p : Nat) (v : Port) : (s.setPort p v).msix = s.msix := rfl
@[simp] theorem State.setPort_responses (s : State) (p : Nat) (v : Port) : (s.setPort p v).responses = s.responses := rfl

@[simp] theorem State.updPort_turns (s : State) (p : Nat) (f : Port → Port) : (s.updPort p f).turns = s.turns := rfl
@[simp] theorem State.updPort_input (s : State) (p : Nat) (f : Port → Port) : (s.updPort p f).input = s.input := rfl
@[simp] theorem State.updPort_draws (s : State) (p : Nat) (f : Port → Port) : (s.updPort p f).draws = s.draws := rfl
@[simp] theorem State.updPort_nextId (s : State) (p : Nat) (f : Port → Port) : (s.updPort p f).nextId = s.nextId := rfl
@[simp] theorem State.updPort_now (s : State) (p : Nat) (f : Port → Port) : (s.updPort p f).now = s.now := rfl
@[simp] theorem State.updPort_timeOff (s : State) (p : Nat) (f : Port → Port) : (s.updPort p f).timeOff = s.timeOff := rfl
@[simp] theorem State.updPort_deferred (s : State) (p : Nat) (f : Port → Port) : (s.updPort p f).deferred = s.deferred := rfl
@[simp] theorem State.updPort_cut (s : State) (p : Nat) (f : Port → Port) : (s.updPort p f).cut = s.cut := rfl
@[simp] theorem State.updPort_dev (s : State) (p : Nat) (f : Port → Port) : (s.updPort p f).dev = s.dev := rfl
@[simp] theorem State.updPort_devRem (s : State) (p : Nat) (f : Port → Port) : (s.updPort p f).devRem = s.devRem := rfl
@[simp] theorem State.updPort_ppm (s : State) (p : Nat) (f : Port → Port) : (s.updPort p f).ppm = s.ppm := rfl
@[simp] theorem State.updPort_hist (s : State) (p : Nat) (f : Port → Port) : (s.updPort p f).hist = s.hist := rfl
@[simp] theorem State.updPort_fences (s : State) (p : Nat) (f : Port → Port) : (s.updPort p f).fences = s.fences := rfl
@[simp] theorem State.updPort_seen (s : State) (p : Nat) (f : Port → Port) : (s.updPort p f).seen = s.seen := rfl
@[simp] theorem State.updPort_vacated (s : State) (p : Nat) (f : Port → Port) : (s.updPort p f).vacated = s.vacated := rfl
@[simp] theorem State.updPort_doeQueue (s : State) (p : Nat) (f : Port → Port) : (s.updPort p f).doeQueue = s.doeQueue := rfl
@[simp] theorem State.updPort_dies (s : State) (p : Nat) (f : Port → Port) : (s.updPort p f).dies = s.dies := rfl
@[simp] theorem State.updPort_hbmStacks (s : State) (p : Nat) (f : Port → Port) : (s.updPort p f).hbmStacks = s.hbmStacks := rfl
@[simp] theorem State.updPort_package (s : State) (p : Nat) (f : Port → Port) : (s.updPort p f).package = s.package := rfl
@[simp] theorem State.updPort_cells (s : State) (p : Nat) (f : Port → Port) : (s.updPort p f).cells = s.cells := rfl
@[simp] theorem State.updPort_sectors (s : State) (p : Nat) (f : Port → Port) : (s.updPort p f).sectors = s.sectors := rfl
@[simp] theorem State.updPort_die (s : State) (p : Nat) (f : Port → Port) : (s.updPort p f).die = s.die := rfl
@[simp] theorem State.updPort_oroute (s : State) (p : Nat) (f : Port → Port) : (s.updPort p f).oroute = s.oroute := rfl
@[simp] theorem State.updPort_mem (s : State) (p : Nat) (f : Port → Port) : (s.updPort p f).mem = s.mem := rfl
@[simp] theorem State.updPort_badMem (s : State) (p : Nat) (f : Port → Port) : (s.updPort p f).badMem = s.badMem := rfl
@[simp] theorem State.updPort_insts (s : State) (p : Nat) (f : Port → Port) : (s.updPort p f).insts = s.insts := rfl
@[simp] theorem State.updPort_jobs (s : State) (p : Nat) (f : Port → Port) : (s.updPort p f).jobs = s.jobs := rfl
@[simp] theorem State.updPort_reqs (s : State) (p : Nat) (f : Port → Port) : (s.updPort p f).reqs = s.reqs := rfl
@[simp] theorem State.updPort_cmds (s : State) (p : Nat) (f : Port → Port) : (s.updPort p f).cmds = s.cmds := rfl
@[simp] theorem State.updPort_products (s : State) (p : Nat) (f : Port → Port) : (s.updPort p f).products = s.products := rfl
@[simp] theorem State.updPort_pairs (s : State) (p : Nat) (f : Port → Port) : (s.updPort p f).pairs = s.pairs := rfl
@[simp] theorem State.updPort_proctor (s : State) (p : Nat) (f : Port → Port) : (s.updPort p f).proctor = s.proctor := rfl
@[simp] theorem State.updPort_meterAt (s : State) (p : Nat) (f : Port → Port) : (s.updPort p f).meterAt = s.meterAt := rfl
@[simp] theorem State.updPort_msix (s : State) (p : Nat) (f : Port → Port) : (s.updPort p f).msix = s.msix := rfl
@[simp] theorem State.updPort_responses (s : State) (p : Nat) (f : Port → Port) : (s.updPort p f).responses = s.responses := rfl

@[simp] theorem State.setInst_turns (s : State) (v : Inst) : (s.setInst v).turns = s.turns := rfl
@[simp] theorem State.setInst_input (s : State) (v : Inst) : (s.setInst v).input = s.input := rfl
@[simp] theorem State.setInst_draws (s : State) (v : Inst) : (s.setInst v).draws = s.draws := rfl
@[simp] theorem State.setInst_nextId (s : State) (v : Inst) : (s.setInst v).nextId = s.nextId := rfl
@[simp] theorem State.setInst_now (s : State) (v : Inst) : (s.setInst v).now = s.now := rfl
@[simp] theorem State.setInst_timeOff (s : State) (v : Inst) : (s.setInst v).timeOff = s.timeOff := rfl
@[simp] theorem State.setInst_deferred (s : State) (v : Inst) : (s.setInst v).deferred = s.deferred := rfl
@[simp] theorem State.setInst_cut (s : State) (v : Inst) : (s.setInst v).cut = s.cut := rfl
@[simp] theorem State.setInst_dev (s : State) (v : Inst) : (s.setInst v).dev = s.dev := rfl
@[simp] theorem State.setInst_devRem (s : State) (v : Inst) : (s.setInst v).devRem = s.devRem := rfl
@[simp] theorem State.setInst_ppm (s : State) (v : Inst) : (s.setInst v).ppm = s.ppm := rfl
@[simp] theorem State.setInst_hist (s : State) (v : Inst) : (s.setInst v).hist = s.hist := rfl
@[simp] theorem State.setInst_fences (s : State) (v : Inst) : (s.setInst v).fences = s.fences := rfl
@[simp] theorem State.setInst_seen (s : State) (v : Inst) : (s.setInst v).seen = s.seen := rfl
@[simp] theorem State.setInst_vacated (s : State) (v : Inst) : (s.setInst v).vacated = s.vacated := rfl
@[simp] theorem State.setInst_doeQueue (s : State) (v : Inst) : (s.setInst v).doeQueue = s.doeQueue := rfl
@[simp] theorem State.setInst_dies (s : State) (v : Inst) : (s.setInst v).dies = s.dies := rfl
@[simp] theorem State.setInst_hbmStacks (s : State) (v : Inst) : (s.setInst v).hbmStacks = s.hbmStacks := rfl
@[simp] theorem State.setInst_package (s : State) (v : Inst) : (s.setInst v).package = s.package := rfl
@[simp] theorem State.setInst_cells (s : State) (v : Inst) : (s.setInst v).cells = s.cells := rfl
@[simp] theorem State.setInst_sectors (s : State) (v : Inst) : (s.setInst v).sectors = s.sectors := rfl
@[simp] theorem State.setInst_die (s : State) (v : Inst) : (s.setInst v).die = s.die := rfl
@[simp] theorem State.setInst_ports (s : State) (v : Inst) : (s.setInst v).ports = s.ports := rfl
@[simp] theorem State.setInst_oroute (s : State) (v : Inst) : (s.setInst v).oroute = s.oroute := rfl
@[simp] theorem State.setInst_mem (s : State) (v : Inst) : (s.setInst v).mem = s.mem := rfl
@[simp] theorem State.setInst_badMem (s : State) (v : Inst) : (s.setInst v).badMem = s.badMem := rfl
@[simp] theorem State.setInst_jobs (s : State) (v : Inst) : (s.setInst v).jobs = s.jobs := rfl
@[simp] theorem State.setInst_reqs (s : State) (v : Inst) : (s.setInst v).reqs = s.reqs := rfl
@[simp] theorem State.setInst_cmds (s : State) (v : Inst) : (s.setInst v).cmds = s.cmds := rfl
@[simp] theorem State.setInst_products (s : State) (v : Inst) : (s.setInst v).products = s.products := rfl
@[simp] theorem State.setInst_pairs (s : State) (v : Inst) : (s.setInst v).pairs = s.pairs := rfl
@[simp] theorem State.setInst_proctor (s : State) (v : Inst) : (s.setInst v).proctor = s.proctor := rfl
@[simp] theorem State.setInst_meterAt (s : State) (v : Inst) : (s.setInst v).meterAt = s.meterAt := rfl
@[simp] theorem State.setInst_msix (s : State) (v : Inst) : (s.setInst v).msix = s.msix := rfl
@[simp] theorem State.setInst_responses (s : State) (v : Inst) : (s.setInst v).responses = s.responses := rfl

@[simp] theorem State.updInst_turns (s : State) (n : Nat) (f : Inst → Inst) : (s.updInst n f).turns = s.turns := rfl
@[simp] theorem State.updInst_input (s : State) (n : Nat) (f : Inst → Inst) : (s.updInst n f).input = s.input := rfl
@[simp] theorem State.updInst_draws (s : State) (n : Nat) (f : Inst → Inst) : (s.updInst n f).draws = s.draws := rfl
@[simp] theorem State.updInst_nextId (s : State) (n : Nat) (f : Inst → Inst) : (s.updInst n f).nextId = s.nextId := rfl
@[simp] theorem State.updInst_now (s : State) (n : Nat) (f : Inst → Inst) : (s.updInst n f).now = s.now := rfl
@[simp] theorem State.updInst_timeOff (s : State) (n : Nat) (f : Inst → Inst) : (s.updInst n f).timeOff = s.timeOff := rfl
@[simp] theorem State.updInst_deferred (s : State) (n : Nat) (f : Inst → Inst) : (s.updInst n f).deferred = s.deferred := rfl
@[simp] theorem State.updInst_cut (s : State) (n : Nat) (f : Inst → Inst) : (s.updInst n f).cut = s.cut := rfl
@[simp] theorem State.updInst_dev (s : State) (n : Nat) (f : Inst → Inst) : (s.updInst n f).dev = s.dev := rfl
@[simp] theorem State.updInst_devRem (s : State) (n : Nat) (f : Inst → Inst) : (s.updInst n f).devRem = s.devRem := rfl
@[simp] theorem State.updInst_ppm (s : State) (n : Nat) (f : Inst → Inst) : (s.updInst n f).ppm = s.ppm := rfl
@[simp] theorem State.updInst_hist (s : State) (n : Nat) (f : Inst → Inst) : (s.updInst n f).hist = s.hist := rfl
@[simp] theorem State.updInst_fences (s : State) (n : Nat) (f : Inst → Inst) : (s.updInst n f).fences = s.fences := rfl
@[simp] theorem State.updInst_seen (s : State) (n : Nat) (f : Inst → Inst) : (s.updInst n f).seen = s.seen := rfl
@[simp] theorem State.updInst_vacated (s : State) (n : Nat) (f : Inst → Inst) : (s.updInst n f).vacated = s.vacated := rfl
@[simp] theorem State.updInst_doeQueue (s : State) (n : Nat) (f : Inst → Inst) : (s.updInst n f).doeQueue = s.doeQueue := rfl
@[simp] theorem State.updInst_dies (s : State) (n : Nat) (f : Inst → Inst) : (s.updInst n f).dies = s.dies := rfl
@[simp] theorem State.updInst_hbmStacks (s : State) (n : Nat) (f : Inst → Inst) : (s.updInst n f).hbmStacks = s.hbmStacks := rfl
@[simp] theorem State.updInst_package (s : State) (n : Nat) (f : Inst → Inst) : (s.updInst n f).package = s.package := rfl
@[simp] theorem State.updInst_cells (s : State) (n : Nat) (f : Inst → Inst) : (s.updInst n f).cells = s.cells := rfl
@[simp] theorem State.updInst_sectors (s : State) (n : Nat) (f : Inst → Inst) : (s.updInst n f).sectors = s.sectors := rfl
@[simp] theorem State.updInst_die (s : State) (n : Nat) (f : Inst → Inst) : (s.updInst n f).die = s.die := rfl
@[simp] theorem State.updInst_ports (s : State) (n : Nat) (f : Inst → Inst) : (s.updInst n f).ports = s.ports := rfl
@[simp] theorem State.updInst_oroute (s : State) (n : Nat) (f : Inst → Inst) : (s.updInst n f).oroute = s.oroute := rfl
@[simp] theorem State.updInst_mem (s : State) (n : Nat) (f : Inst → Inst) : (s.updInst n f).mem = s.mem := rfl
@[simp] theorem State.updInst_badMem (s : State) (n : Nat) (f : Inst → Inst) : (s.updInst n f).badMem = s.badMem := rfl
@[simp] theorem State.updInst_jobs (s : State) (n : Nat) (f : Inst → Inst) : (s.updInst n f).jobs = s.jobs := rfl
@[simp] theorem State.updInst_reqs (s : State) (n : Nat) (f : Inst → Inst) : (s.updInst n f).reqs = s.reqs := rfl
@[simp] theorem State.updInst_cmds (s : State) (n : Nat) (f : Inst → Inst) : (s.updInst n f).cmds = s.cmds := rfl
@[simp] theorem State.updInst_products (s : State) (n : Nat) (f : Inst → Inst) : (s.updInst n f).products = s.products := rfl
@[simp] theorem State.updInst_pairs (s : State) (n : Nat) (f : Inst → Inst) : (s.updInst n f).pairs = s.pairs := rfl
@[simp] theorem State.updInst_proctor (s : State) (n : Nat) (f : Inst → Inst) : (s.updInst n f).proctor = s.proctor := rfl
@[simp] theorem State.updInst_meterAt (s : State) (n : Nat) (f : Inst → Inst) : (s.updInst n f).meterAt = s.meterAt := rfl
@[simp] theorem State.updInst_msix (s : State) (n : Nat) (f : Inst → Inst) : (s.updInst n f).msix = s.msix := rfl
@[simp] theorem State.updInst_responses (s : State) (n : Nat) (f : Inst → Inst) : (s.updInst n f).responses = s.responses := rfl

@[simp] theorem State.updJob_turns (s : State) (n : Nat) (f : Job → Job) : (s.updJob n f).turns = s.turns := rfl
@[simp] theorem State.updJob_input (s : State) (n : Nat) (f : Job → Job) : (s.updJob n f).input = s.input := rfl
@[simp] theorem State.updJob_draws (s : State) (n : Nat) (f : Job → Job) : (s.updJob n f).draws = s.draws := rfl
@[simp] theorem State.updJob_nextId (s : State) (n : Nat) (f : Job → Job) : (s.updJob n f).nextId = s.nextId := rfl
@[simp] theorem State.updJob_now (s : State) (n : Nat) (f : Job → Job) : (s.updJob n f).now = s.now := rfl
@[simp] theorem State.updJob_timeOff (s : State) (n : Nat) (f : Job → Job) : (s.updJob n f).timeOff = s.timeOff := rfl
@[simp] theorem State.updJob_deferred (s : State) (n : Nat) (f : Job → Job) : (s.updJob n f).deferred = s.deferred := rfl
@[simp] theorem State.updJob_cut (s : State) (n : Nat) (f : Job → Job) : (s.updJob n f).cut = s.cut := rfl
@[simp] theorem State.updJob_dev (s : State) (n : Nat) (f : Job → Job) : (s.updJob n f).dev = s.dev := rfl
@[simp] theorem State.updJob_devRem (s : State) (n : Nat) (f : Job → Job) : (s.updJob n f).devRem = s.devRem := rfl
@[simp] theorem State.updJob_ppm (s : State) (n : Nat) (f : Job → Job) : (s.updJob n f).ppm = s.ppm := rfl
@[simp] theorem State.updJob_hist (s : State) (n : Nat) (f : Job → Job) : (s.updJob n f).hist = s.hist := rfl
@[simp] theorem State.updJob_fences (s : State) (n : Nat) (f : Job → Job) : (s.updJob n f).fences = s.fences := rfl
@[simp] theorem State.updJob_seen (s : State) (n : Nat) (f : Job → Job) : (s.updJob n f).seen = s.seen := rfl
@[simp] theorem State.updJob_vacated (s : State) (n : Nat) (f : Job → Job) : (s.updJob n f).vacated = s.vacated := rfl
@[simp] theorem State.updJob_doeQueue (s : State) (n : Nat) (f : Job → Job) : (s.updJob n f).doeQueue = s.doeQueue := rfl
@[simp] theorem State.updJob_dies (s : State) (n : Nat) (f : Job → Job) : (s.updJob n f).dies = s.dies := rfl
@[simp] theorem State.updJob_hbmStacks (s : State) (n : Nat) (f : Job → Job) : (s.updJob n f).hbmStacks = s.hbmStacks := rfl
@[simp] theorem State.updJob_package (s : State) (n : Nat) (f : Job → Job) : (s.updJob n f).package = s.package := rfl
@[simp] theorem State.updJob_cells (s : State) (n : Nat) (f : Job → Job) : (s.updJob n f).cells = s.cells := rfl
@[simp] theorem State.updJob_sectors (s : State) (n : Nat) (f : Job → Job) : (s.updJob n f).sectors = s.sectors := rfl
@[simp] theorem State.updJob_die (s : State) (n : Nat) (f : Job → Job) : (s.updJob n f).die = s.die := rfl
@[simp] theorem State.updJob_ports (s : State) (n : Nat) (f : Job → Job) : (s.updJob n f).ports = s.ports := rfl
@[simp] theorem State.updJob_oroute (s : State) (n : Nat) (f : Job → Job) : (s.updJob n f).oroute = s.oroute := rfl
@[simp] theorem State.updJob_mem (s : State) (n : Nat) (f : Job → Job) : (s.updJob n f).mem = s.mem := rfl
@[simp] theorem State.updJob_badMem (s : State) (n : Nat) (f : Job → Job) : (s.updJob n f).badMem = s.badMem := rfl
@[simp] theorem State.updJob_insts (s : State) (n : Nat) (f : Job → Job) : (s.updJob n f).insts = s.insts := rfl
@[simp] theorem State.updJob_reqs (s : State) (n : Nat) (f : Job → Job) : (s.updJob n f).reqs = s.reqs := rfl
@[simp] theorem State.updJob_cmds (s : State) (n : Nat) (f : Job → Job) : (s.updJob n f).cmds = s.cmds := rfl
@[simp] theorem State.updJob_products (s : State) (n : Nat) (f : Job → Job) : (s.updJob n f).products = s.products := rfl
@[simp] theorem State.updJob_pairs (s : State) (n : Nat) (f : Job → Job) : (s.updJob n f).pairs = s.pairs := rfl
@[simp] theorem State.updJob_proctor (s : State) (n : Nat) (f : Job → Job) : (s.updJob n f).proctor = s.proctor := rfl
@[simp] theorem State.updJob_meterAt (s : State) (n : Nat) (f : Job → Job) : (s.updJob n f).meterAt = s.meterAt := rfl
@[simp] theorem State.updJob_msix (s : State) (n : Nat) (f : Job → Job) : (s.updJob n f).msix = s.msix := rfl
@[simp] theorem State.updJob_responses (s : State) (n : Nat) (f : Job → Job) : (s.updJob n f).responses = s.responses := rfl

@[simp] theorem State.updReq_turns (s : State) (n : Nat) (f : Req → Req) : (s.updReq n f).turns = s.turns := rfl
@[simp] theorem State.updReq_input (s : State) (n : Nat) (f : Req → Req) : (s.updReq n f).input = s.input := rfl
@[simp] theorem State.updReq_draws (s : State) (n : Nat) (f : Req → Req) : (s.updReq n f).draws = s.draws := rfl
@[simp] theorem State.updReq_nextId (s : State) (n : Nat) (f : Req → Req) : (s.updReq n f).nextId = s.nextId := rfl
@[simp] theorem State.updReq_now (s : State) (n : Nat) (f : Req → Req) : (s.updReq n f).now = s.now := rfl
@[simp] theorem State.updReq_timeOff (s : State) (n : Nat) (f : Req → Req) : (s.updReq n f).timeOff = s.timeOff := rfl
@[simp] theorem State.updReq_deferred (s : State) (n : Nat) (f : Req → Req) : (s.updReq n f).deferred = s.deferred := rfl
@[simp] theorem State.updReq_cut (s : State) (n : Nat) (f : Req → Req) : (s.updReq n f).cut = s.cut := rfl
@[simp] theorem State.updReq_dev (s : State) (n : Nat) (f : Req → Req) : (s.updReq n f).dev = s.dev := rfl
@[simp] theorem State.updReq_devRem (s : State) (n : Nat) (f : Req → Req) : (s.updReq n f).devRem = s.devRem := rfl
@[simp] theorem State.updReq_ppm (s : State) (n : Nat) (f : Req → Req) : (s.updReq n f).ppm = s.ppm := rfl
@[simp] theorem State.updReq_hist (s : State) (n : Nat) (f : Req → Req) : (s.updReq n f).hist = s.hist := rfl
@[simp] theorem State.updReq_fences (s : State) (n : Nat) (f : Req → Req) : (s.updReq n f).fences = s.fences := rfl
@[simp] theorem State.updReq_seen (s : State) (n : Nat) (f : Req → Req) : (s.updReq n f).seen = s.seen := rfl
@[simp] theorem State.updReq_vacated (s : State) (n : Nat) (f : Req → Req) : (s.updReq n f).vacated = s.vacated := rfl
@[simp] theorem State.updReq_doeQueue (s : State) (n : Nat) (f : Req → Req) : (s.updReq n f).doeQueue = s.doeQueue := rfl
@[simp] theorem State.updReq_dies (s : State) (n : Nat) (f : Req → Req) : (s.updReq n f).dies = s.dies := rfl
@[simp] theorem State.updReq_hbmStacks (s : State) (n : Nat) (f : Req → Req) : (s.updReq n f).hbmStacks = s.hbmStacks := rfl
@[simp] theorem State.updReq_package (s : State) (n : Nat) (f : Req → Req) : (s.updReq n f).package = s.package := rfl
@[simp] theorem State.updReq_cells (s : State) (n : Nat) (f : Req → Req) : (s.updReq n f).cells = s.cells := rfl
@[simp] theorem State.updReq_sectors (s : State) (n : Nat) (f : Req → Req) : (s.updReq n f).sectors = s.sectors := rfl
@[simp] theorem State.updReq_die (s : State) (n : Nat) (f : Req → Req) : (s.updReq n f).die = s.die := rfl
@[simp] theorem State.updReq_ports (s : State) (n : Nat) (f : Req → Req) : (s.updReq n f).ports = s.ports := rfl
@[simp] theorem State.updReq_oroute (s : State) (n : Nat) (f : Req → Req) : (s.updReq n f).oroute = s.oroute := rfl
@[simp] theorem State.updReq_mem (s : State) (n : Nat) (f : Req → Req) : (s.updReq n f).mem = s.mem := rfl
@[simp] theorem State.updReq_badMem (s : State) (n : Nat) (f : Req → Req) : (s.updReq n f).badMem = s.badMem := rfl
@[simp] theorem State.updReq_insts (s : State) (n : Nat) (f : Req → Req) : (s.updReq n f).insts = s.insts := rfl
@[simp] theorem State.updReq_jobs (s : State) (n : Nat) (f : Req → Req) : (s.updReq n f).jobs = s.jobs := rfl
@[simp] theorem State.updReq_cmds (s : State) (n : Nat) (f : Req → Req) : (s.updReq n f).cmds = s.cmds := rfl
@[simp] theorem State.updReq_products (s : State) (n : Nat) (f : Req → Req) : (s.updReq n f).products = s.products := rfl
@[simp] theorem State.updReq_pairs (s : State) (n : Nat) (f : Req → Req) : (s.updReq n f).pairs = s.pairs := rfl
@[simp] theorem State.updReq_proctor (s : State) (n : Nat) (f : Req → Req) : (s.updReq n f).proctor = s.proctor := rfl
@[simp] theorem State.updReq_meterAt (s : State) (n : Nat) (f : Req → Req) : (s.updReq n f).meterAt = s.meterAt := rfl
@[simp] theorem State.updReq_msix (s : State) (n : Nat) (f : Req → Req) : (s.updReq n f).msix = s.msix := rfl
@[simp] theorem State.updReq_responses (s : State) (n : Nat) (f : Req → Req) : (s.updReq n f).responses = s.responses := rfl

@[simp] theorem State.delReq_turns (s : State) (n : Nat) : (s.delReq n).turns = s.turns := rfl
@[simp] theorem State.delReq_input (s : State) (n : Nat) : (s.delReq n).input = s.input := rfl
@[simp] theorem State.delReq_draws (s : State) (n : Nat) : (s.delReq n).draws = s.draws := rfl
@[simp] theorem State.delReq_nextId (s : State) (n : Nat) : (s.delReq n).nextId = s.nextId := rfl
@[simp] theorem State.delReq_now (s : State) (n : Nat) : (s.delReq n).now = s.now := rfl
@[simp] theorem State.delReq_timeOff (s : State) (n : Nat) : (s.delReq n).timeOff = s.timeOff := rfl
@[simp] theorem State.delReq_deferred (s : State) (n : Nat) : (s.delReq n).deferred = s.deferred := rfl
@[simp] theorem State.delReq_cut (s : State) (n : Nat) : (s.delReq n).cut = s.cut := rfl
@[simp] theorem State.delReq_dev (s : State) (n : Nat) : (s.delReq n).dev = s.dev := rfl
@[simp] theorem State.delReq_devRem (s : State) (n : Nat) : (s.delReq n).devRem = s.devRem := rfl
@[simp] theorem State.delReq_ppm (s : State) (n : Nat) : (s.delReq n).ppm = s.ppm := rfl
@[simp] theorem State.delReq_hist (s : State) (n : Nat) : (s.delReq n).hist = s.hist := rfl
@[simp] theorem State.delReq_fences (s : State) (n : Nat) : (s.delReq n).fences = s.fences := rfl
@[simp] theorem State.delReq_seen (s : State) (n : Nat) : (s.delReq n).seen = s.seen := rfl
@[simp] theorem State.delReq_doeQueue (s : State) (n : Nat) : (s.delReq n).doeQueue = s.doeQueue := rfl
@[simp] theorem State.delReq_dies (s : State) (n : Nat) : (s.delReq n).dies = s.dies := rfl
@[simp] theorem State.delReq_hbmStacks (s : State) (n : Nat) : (s.delReq n).hbmStacks = s.hbmStacks := rfl
@[simp] theorem State.delReq_package (s : State) (n : Nat) : (s.delReq n).package = s.package := rfl
@[simp] theorem State.delReq_cells (s : State) (n : Nat) : (s.delReq n).cells = s.cells := rfl
@[simp] theorem State.delReq_sectors (s : State) (n : Nat) : (s.delReq n).sectors = s.sectors := rfl
@[simp] theorem State.delReq_die (s : State) (n : Nat) : (s.delReq n).die = s.die := rfl
@[simp] theorem State.delReq_ports (s : State) (n : Nat) : (s.delReq n).ports = s.ports := rfl
@[simp] theorem State.delReq_oroute (s : State) (n : Nat) : (s.delReq n).oroute = s.oroute := rfl
@[simp] theorem State.delReq_mem (s : State) (n : Nat) : (s.delReq n).mem = s.mem := rfl
@[simp] theorem State.delReq_badMem (s : State) (n : Nat) : (s.delReq n).badMem = s.badMem := rfl
@[simp] theorem State.delReq_insts (s : State) (n : Nat) : (s.delReq n).insts = s.insts := rfl
@[simp] theorem State.delReq_jobs (s : State) (n : Nat) : (s.delReq n).jobs = s.jobs := rfl
@[simp] theorem State.delReq_cmds (s : State) (n : Nat) : (s.delReq n).cmds = s.cmds := rfl
@[simp] theorem State.delReq_products (s : State) (n : Nat) : (s.delReq n).products = s.products := rfl
@[simp] theorem State.delReq_pairs (s : State) (n : Nat) : (s.delReq n).pairs = s.pairs := rfl
@[simp] theorem State.delReq_proctor (s : State) (n : Nat) : (s.delReq n).proctor = s.proctor := rfl
@[simp] theorem State.delReq_meterAt (s : State) (n : Nat) : (s.delReq n).meterAt = s.meterAt := rfl
@[simp] theorem State.delReq_msix (s : State) (n : Nat) : (s.delReq n).msix = s.msix := rfl
@[simp] theorem State.delReq_responses (s : State) (n : Nat) : (s.delReq n).responses = s.responses := rfl

@[simp] theorem State.updCmd_turns (s : State) (n : Nat) (f : Cmd → Cmd) : (s.updCmd n f).turns = s.turns := rfl
@[simp] theorem State.updCmd_input (s : State) (n : Nat) (f : Cmd → Cmd) : (s.updCmd n f).input = s.input := rfl
@[simp] theorem State.updCmd_draws (s : State) (n : Nat) (f : Cmd → Cmd) : (s.updCmd n f).draws = s.draws := rfl
@[simp] theorem State.updCmd_nextId (s : State) (n : Nat) (f : Cmd → Cmd) : (s.updCmd n f).nextId = s.nextId := rfl
@[simp] theorem State.updCmd_now (s : State) (n : Nat) (f : Cmd → Cmd) : (s.updCmd n f).now = s.now := rfl
@[simp] theorem State.updCmd_timeOff (s : State) (n : Nat) (f : Cmd → Cmd) : (s.updCmd n f).timeOff = s.timeOff := rfl
@[simp] theorem State.updCmd_deferred (s : State) (n : Nat) (f : Cmd → Cmd) : (s.updCmd n f).deferred = s.deferred := rfl
@[simp] theorem State.updCmd_cut (s : State) (n : Nat) (f : Cmd → Cmd) : (s.updCmd n f).cut = s.cut := rfl
@[simp] theorem State.updCmd_dev (s : State) (n : Nat) (f : Cmd → Cmd) : (s.updCmd n f).dev = s.dev := rfl
@[simp] theorem State.updCmd_devRem (s : State) (n : Nat) (f : Cmd → Cmd) : (s.updCmd n f).devRem = s.devRem := rfl
@[simp] theorem State.updCmd_ppm (s : State) (n : Nat) (f : Cmd → Cmd) : (s.updCmd n f).ppm = s.ppm := rfl
@[simp] theorem State.updCmd_hist (s : State) (n : Nat) (f : Cmd → Cmd) : (s.updCmd n f).hist = s.hist := rfl
@[simp] theorem State.updCmd_fences (s : State) (n : Nat) (f : Cmd → Cmd) : (s.updCmd n f).fences = s.fences := rfl
@[simp] theorem State.updCmd_seen (s : State) (n : Nat) (f : Cmd → Cmd) : (s.updCmd n f).seen = s.seen := rfl
@[simp] theorem State.updCmd_vacated (s : State) (n : Nat) (f : Cmd → Cmd) : (s.updCmd n f).vacated = s.vacated := rfl
@[simp] theorem State.updCmd_doeQueue (s : State) (n : Nat) (f : Cmd → Cmd) : (s.updCmd n f).doeQueue = s.doeQueue := rfl
@[simp] theorem State.updCmd_dies (s : State) (n : Nat) (f : Cmd → Cmd) : (s.updCmd n f).dies = s.dies := rfl
@[simp] theorem State.updCmd_hbmStacks (s : State) (n : Nat) (f : Cmd → Cmd) : (s.updCmd n f).hbmStacks = s.hbmStacks := rfl
@[simp] theorem State.updCmd_package (s : State) (n : Nat) (f : Cmd → Cmd) : (s.updCmd n f).package = s.package := rfl
@[simp] theorem State.updCmd_cells (s : State) (n : Nat) (f : Cmd → Cmd) : (s.updCmd n f).cells = s.cells := rfl
@[simp] theorem State.updCmd_sectors (s : State) (n : Nat) (f : Cmd → Cmd) : (s.updCmd n f).sectors = s.sectors := rfl
@[simp] theorem State.updCmd_die (s : State) (n : Nat) (f : Cmd → Cmd) : (s.updCmd n f).die = s.die := rfl
@[simp] theorem State.updCmd_ports (s : State) (n : Nat) (f : Cmd → Cmd) : (s.updCmd n f).ports = s.ports := rfl
@[simp] theorem State.updCmd_oroute (s : State) (n : Nat) (f : Cmd → Cmd) : (s.updCmd n f).oroute = s.oroute := rfl
@[simp] theorem State.updCmd_mem (s : State) (n : Nat) (f : Cmd → Cmd) : (s.updCmd n f).mem = s.mem := rfl
@[simp] theorem State.updCmd_badMem (s : State) (n : Nat) (f : Cmd → Cmd) : (s.updCmd n f).badMem = s.badMem := rfl
@[simp] theorem State.updCmd_insts (s : State) (n : Nat) (f : Cmd → Cmd) : (s.updCmd n f).insts = s.insts := rfl
@[simp] theorem State.updCmd_jobs (s : State) (n : Nat) (f : Cmd → Cmd) : (s.updCmd n f).jobs = s.jobs := rfl
@[simp] theorem State.updCmd_reqs (s : State) (n : Nat) (f : Cmd → Cmd) : (s.updCmd n f).reqs = s.reqs := rfl
@[simp] theorem State.updCmd_products (s : State) (n : Nat) (f : Cmd → Cmd) : (s.updCmd n f).products = s.products := rfl
@[simp] theorem State.updCmd_pairs (s : State) (n : Nat) (f : Cmd → Cmd) : (s.updCmd n f).pairs = s.pairs := rfl
@[simp] theorem State.updCmd_proctor (s : State) (n : Nat) (f : Cmd → Cmd) : (s.updCmd n f).proctor = s.proctor := rfl
@[simp] theorem State.updCmd_meterAt (s : State) (n : Nat) (f : Cmd → Cmd) : (s.updCmd n f).meterAt = s.meterAt := rfl
@[simp] theorem State.updCmd_msix (s : State) (n : Nat) (f : Cmd → Cmd) : (s.updCmd n f).msix = s.msix := rfl
@[simp] theorem State.updCmd_responses (s : State) (n : Nat) (f : Cmd → Cmd) : (s.updCmd n f).responses = s.responses := rfl

@[simp] theorem State.delCmd_turns (s : State) (n : Nat) : (s.delCmd n).turns = s.turns := rfl
@[simp] theorem State.delCmd_input (s : State) (n : Nat) : (s.delCmd n).input = s.input := rfl
@[simp] theorem State.delCmd_draws (s : State) (n : Nat) : (s.delCmd n).draws = s.draws := rfl
@[simp] theorem State.delCmd_nextId (s : State) (n : Nat) : (s.delCmd n).nextId = s.nextId := rfl
@[simp] theorem State.delCmd_now (s : State) (n : Nat) : (s.delCmd n).now = s.now := rfl
@[simp] theorem State.delCmd_timeOff (s : State) (n : Nat) : (s.delCmd n).timeOff = s.timeOff := rfl
@[simp] theorem State.delCmd_deferred (s : State) (n : Nat) : (s.delCmd n).deferred = s.deferred := rfl
@[simp] theorem State.delCmd_cut (s : State) (n : Nat) : (s.delCmd n).cut = s.cut := rfl
@[simp] theorem State.delCmd_dev (s : State) (n : Nat) : (s.delCmd n).dev = s.dev := rfl
@[simp] theorem State.delCmd_devRem (s : State) (n : Nat) : (s.delCmd n).devRem = s.devRem := rfl
@[simp] theorem State.delCmd_ppm (s : State) (n : Nat) : (s.delCmd n).ppm = s.ppm := rfl
@[simp] theorem State.delCmd_hist (s : State) (n : Nat) : (s.delCmd n).hist = s.hist := rfl
@[simp] theorem State.delCmd_fences (s : State) (n : Nat) : (s.delCmd n).fences = s.fences := rfl
@[simp] theorem State.delCmd_seen (s : State) (n : Nat) : (s.delCmd n).seen = s.seen := rfl
@[simp] theorem State.delCmd_vacated (s : State) (n : Nat) : (s.delCmd n).vacated = s.vacated := rfl
@[simp] theorem State.delCmd_doeQueue (s : State) (n : Nat) : (s.delCmd n).doeQueue = s.doeQueue := rfl
@[simp] theorem State.delCmd_dies (s : State) (n : Nat) : (s.delCmd n).dies = s.dies := rfl
@[simp] theorem State.delCmd_hbmStacks (s : State) (n : Nat) : (s.delCmd n).hbmStacks = s.hbmStacks := rfl
@[simp] theorem State.delCmd_package (s : State) (n : Nat) : (s.delCmd n).package = s.package := rfl
@[simp] theorem State.delCmd_cells (s : State) (n : Nat) : (s.delCmd n).cells = s.cells := rfl
@[simp] theorem State.delCmd_sectors (s : State) (n : Nat) : (s.delCmd n).sectors = s.sectors := rfl
@[simp] theorem State.delCmd_die (s : State) (n : Nat) : (s.delCmd n).die = s.die := rfl
@[simp] theorem State.delCmd_ports (s : State) (n : Nat) : (s.delCmd n).ports = s.ports := rfl
@[simp] theorem State.delCmd_oroute (s : State) (n : Nat) : (s.delCmd n).oroute = s.oroute := rfl
@[simp] theorem State.delCmd_mem (s : State) (n : Nat) : (s.delCmd n).mem = s.mem := rfl
@[simp] theorem State.delCmd_badMem (s : State) (n : Nat) : (s.delCmd n).badMem = s.badMem := rfl
@[simp] theorem State.delCmd_insts (s : State) (n : Nat) : (s.delCmd n).insts = s.insts := rfl
@[simp] theorem State.delCmd_jobs (s : State) (n : Nat) : (s.delCmd n).jobs = s.jobs := rfl
@[simp] theorem State.delCmd_reqs (s : State) (n : Nat) : (s.delCmd n).reqs = s.reqs := rfl
@[simp] theorem State.delCmd_products (s : State) (n : Nat) : (s.delCmd n).products = s.products := rfl
@[simp] theorem State.delCmd_pairs (s : State) (n : Nat) : (s.delCmd n).pairs = s.pairs := rfl
@[simp] theorem State.delCmd_proctor (s : State) (n : Nat) : (s.delCmd n).proctor = s.proctor := rfl
@[simp] theorem State.delCmd_meterAt (s : State) (n : Nat) : (s.delCmd n).meterAt = s.meterAt := rfl
@[simp] theorem State.delCmd_msix (s : State) (n : Nat) : (s.delCmd n).msix = s.msix := rfl
@[simp] theorem State.delCmd_responses (s : State) (n : Nat) : (s.delCmd n).responses = s.responses := rfl

@[simp] theorem State.updPair_turns (s : State) (n : Nat) (f : Pair → Pair) : (s.updPair n f).turns = s.turns := rfl
@[simp] theorem State.updPair_input (s : State) (n : Nat) (f : Pair → Pair) : (s.updPair n f).input = s.input := rfl
@[simp] theorem State.updPair_draws (s : State) (n : Nat) (f : Pair → Pair) : (s.updPair n f).draws = s.draws := rfl
@[simp] theorem State.updPair_nextId (s : State) (n : Nat) (f : Pair → Pair) : (s.updPair n f).nextId = s.nextId := rfl
@[simp] theorem State.updPair_now (s : State) (n : Nat) (f : Pair → Pair) : (s.updPair n f).now = s.now := rfl
@[simp] theorem State.updPair_timeOff (s : State) (n : Nat) (f : Pair → Pair) : (s.updPair n f).timeOff = s.timeOff := rfl
@[simp] theorem State.updPair_deferred (s : State) (n : Nat) (f : Pair → Pair) : (s.updPair n f).deferred = s.deferred := rfl
@[simp] theorem State.updPair_cut (s : State) (n : Nat) (f : Pair → Pair) : (s.updPair n f).cut = s.cut := rfl
@[simp] theorem State.updPair_dev (s : State) (n : Nat) (f : Pair → Pair) : (s.updPair n f).dev = s.dev := rfl
@[simp] theorem State.updPair_devRem (s : State) (n : Nat) (f : Pair → Pair) : (s.updPair n f).devRem = s.devRem := rfl
@[simp] theorem State.updPair_ppm (s : State) (n : Nat) (f : Pair → Pair) : (s.updPair n f).ppm = s.ppm := rfl
@[simp] theorem State.updPair_hist (s : State) (n : Nat) (f : Pair → Pair) : (s.updPair n f).hist = s.hist := rfl
@[simp] theorem State.updPair_fences (s : State) (n : Nat) (f : Pair → Pair) : (s.updPair n f).fences = s.fences := rfl
@[simp] theorem State.updPair_seen (s : State) (n : Nat) (f : Pair → Pair) : (s.updPair n f).seen = s.seen := rfl
@[simp] theorem State.updPair_vacated (s : State) (n : Nat) (f : Pair → Pair) : (s.updPair n f).vacated = s.vacated := rfl
@[simp] theorem State.updPair_doeQueue (s : State) (n : Nat) (f : Pair → Pair) : (s.updPair n f).doeQueue = s.doeQueue := rfl
@[simp] theorem State.updPair_dies (s : State) (n : Nat) (f : Pair → Pair) : (s.updPair n f).dies = s.dies := rfl
@[simp] theorem State.updPair_hbmStacks (s : State) (n : Nat) (f : Pair → Pair) : (s.updPair n f).hbmStacks = s.hbmStacks := rfl
@[simp] theorem State.updPair_package (s : State) (n : Nat) (f : Pair → Pair) : (s.updPair n f).package = s.package := rfl
@[simp] theorem State.updPair_cells (s : State) (n : Nat) (f : Pair → Pair) : (s.updPair n f).cells = s.cells := rfl
@[simp] theorem State.updPair_sectors (s : State) (n : Nat) (f : Pair → Pair) : (s.updPair n f).sectors = s.sectors := rfl
@[simp] theorem State.updPair_die (s : State) (n : Nat) (f : Pair → Pair) : (s.updPair n f).die = s.die := rfl
@[simp] theorem State.updPair_ports (s : State) (n : Nat) (f : Pair → Pair) : (s.updPair n f).ports = s.ports := rfl
@[simp] theorem State.updPair_oroute (s : State) (n : Nat) (f : Pair → Pair) : (s.updPair n f).oroute = s.oroute := rfl
@[simp] theorem State.updPair_mem (s : State) (n : Nat) (f : Pair → Pair) : (s.updPair n f).mem = s.mem := rfl
@[simp] theorem State.updPair_badMem (s : State) (n : Nat) (f : Pair → Pair) : (s.updPair n f).badMem = s.badMem := rfl
@[simp] theorem State.updPair_insts (s : State) (n : Nat) (f : Pair → Pair) : (s.updPair n f).insts = s.insts := rfl
@[simp] theorem State.updPair_jobs (s : State) (n : Nat) (f : Pair → Pair) : (s.updPair n f).jobs = s.jobs := rfl
@[simp] theorem State.updPair_reqs (s : State) (n : Nat) (f : Pair → Pair) : (s.updPair n f).reqs = s.reqs := rfl
@[simp] theorem State.updPair_cmds (s : State) (n : Nat) (f : Pair → Pair) : (s.updPair n f).cmds = s.cmds := rfl
@[simp] theorem State.updPair_products (s : State) (n : Nat) (f : Pair → Pair) : (s.updPair n f).products = s.products := rfl
@[simp] theorem State.updPair_proctor (s : State) (n : Nat) (f : Pair → Pair) : (s.updPair n f).proctor = s.proctor := rfl
@[simp] theorem State.updPair_meterAt (s : State) (n : Nat) (f : Pair → Pair) : (s.updPair n f).meterAt = s.meterAt := rfl
@[simp] theorem State.updPair_msix (s : State) (n : Nat) (f : Pair → Pair) : (s.updPair n f).msix = s.msix := rfl
@[simp] theorem State.updPair_responses (s : State) (n : Nat) (f : Pair → Pair) : (s.updPair n f).responses = s.responses := rfl

@[simp] theorem State.updPool_turns (s : State) (d n : Nat) (f : PoolRec → PoolRec) : (s.updPool d n f).turns = s.turns := rfl
@[simp] theorem State.updPool_input (s : State) (d n : Nat) (f : PoolRec → PoolRec) : (s.updPool d n f).input = s.input := rfl
@[simp] theorem State.updPool_draws (s : State) (d n : Nat) (f : PoolRec → PoolRec) : (s.updPool d n f).draws = s.draws := rfl
@[simp] theorem State.updPool_nextId (s : State) (d n : Nat) (f : PoolRec → PoolRec) : (s.updPool d n f).nextId = s.nextId := rfl
@[simp] theorem State.updPool_now (s : State) (d n : Nat) (f : PoolRec → PoolRec) : (s.updPool d n f).now = s.now := rfl
@[simp] theorem State.updPool_timeOff (s : State) (d n : Nat) (f : PoolRec → PoolRec) : (s.updPool d n f).timeOff = s.timeOff := rfl
@[simp] theorem State.updPool_deferred (s : State) (d n : Nat) (f : PoolRec → PoolRec) : (s.updPool d n f).deferred = s.deferred := rfl
@[simp] theorem State.updPool_cut (s : State) (d n : Nat) (f : PoolRec → PoolRec) : (s.updPool d n f).cut = s.cut := rfl
@[simp] theorem State.updPool_dev (s : State) (d n : Nat) (f : PoolRec → PoolRec) : (s.updPool d n f).dev = s.dev := rfl
@[simp] theorem State.updPool_devRem (s : State) (d n : Nat) (f : PoolRec → PoolRec) : (s.updPool d n f).devRem = s.devRem := rfl
@[simp] theorem State.updPool_ppm (s : State) (d n : Nat) (f : PoolRec → PoolRec) : (s.updPool d n f).ppm = s.ppm := rfl
@[simp] theorem State.updPool_hist (s : State) (d n : Nat) (f : PoolRec → PoolRec) : (s.updPool d n f).hist = s.hist := rfl
@[simp] theorem State.updPool_fences (s : State) (d n : Nat) (f : PoolRec → PoolRec) : (s.updPool d n f).fences = s.fences := rfl
@[simp] theorem State.updPool_seen (s : State) (d n : Nat) (f : PoolRec → PoolRec) : (s.updPool d n f).seen = s.seen := rfl
@[simp] theorem State.updPool_vacated (s : State) (d n : Nat) (f : PoolRec → PoolRec) : (s.updPool d n f).vacated = s.vacated := rfl
@[simp] theorem State.updPool_doeQueue (s : State) (d n : Nat) (f : PoolRec → PoolRec) : (s.updPool d n f).doeQueue = s.doeQueue := rfl
@[simp] theorem State.updPool_dies (s : State) (d n : Nat) (f : PoolRec → PoolRec) : (s.updPool d n f).dies = s.dies := rfl
@[simp] theorem State.updPool_hbmStacks (s : State) (d n : Nat) (f : PoolRec → PoolRec) : (s.updPool d n f).hbmStacks = s.hbmStacks := rfl
@[simp] theorem State.updPool_package (s : State) (d n : Nat) (f : PoolRec → PoolRec) : (s.updPool d n f).package = s.package := rfl
@[simp] theorem State.updPool_cells (s : State) (d n : Nat) (f : PoolRec → PoolRec) : (s.updPool d n f).cells = s.cells := rfl
@[simp] theorem State.updPool_sectors (s : State) (d n : Nat) (f : PoolRec → PoolRec) : (s.updPool d n f).sectors = s.sectors := rfl
@[simp] theorem State.updPool_ports (s : State) (d n : Nat) (f : PoolRec → PoolRec) : (s.updPool d n f).ports = s.ports := rfl
@[simp] theorem State.updPool_oroute (s : State) (d n : Nat) (f : PoolRec → PoolRec) : (s.updPool d n f).oroute = s.oroute := rfl
@[simp] theorem State.updPool_mem (s : State) (d n : Nat) (f : PoolRec → PoolRec) : (s.updPool d n f).mem = s.mem := rfl
@[simp] theorem State.updPool_badMem (s : State) (d n : Nat) (f : PoolRec → PoolRec) : (s.updPool d n f).badMem = s.badMem := rfl
@[simp] theorem State.updPool_insts (s : State) (d n : Nat) (f : PoolRec → PoolRec) : (s.updPool d n f).insts = s.insts := rfl
@[simp] theorem State.updPool_jobs (s : State) (d n : Nat) (f : PoolRec → PoolRec) : (s.updPool d n f).jobs = s.jobs := rfl
@[simp] theorem State.updPool_reqs (s : State) (d n : Nat) (f : PoolRec → PoolRec) : (s.updPool d n f).reqs = s.reqs := rfl
@[simp] theorem State.updPool_cmds (s : State) (d n : Nat) (f : PoolRec → PoolRec) : (s.updPool d n f).cmds = s.cmds := rfl
@[simp] theorem State.updPool_products (s : State) (d n : Nat) (f : PoolRec → PoolRec) : (s.updPool d n f).products = s.products := rfl
@[simp] theorem State.updPool_pairs (s : State) (d n : Nat) (f : PoolRec → PoolRec) : (s.updPool d n f).pairs = s.pairs := rfl
@[simp] theorem State.updPool_proctor (s : State) (d n : Nat) (f : PoolRec → PoolRec) : (s.updPool d n f).proctor = s.proctor := rfl
@[simp] theorem State.updPool_meterAt (s : State) (d n : Nat) (f : PoolRec → PoolRec) : (s.updPool d n f).meterAt = s.meterAt := rfl
@[simp] theorem State.updPool_msix (s : State) (d n : Nat) (f : PoolRec → PoolRec) : (s.updPool d n f).msix = s.msix := rfl
@[simp] theorem State.updPool_responses (s : State) (d n : Nat) (f : PoolRec → PoolRec) : (s.updPool d n f).responses = s.responses := rfl

@[simp] theorem State.memSetByte_turns (s : State) (a : Nat) (b : Byte) : (s.memSetByte a b).turns = s.turns := rfl
@[simp] theorem State.memSetByte_input (s : State) (a : Nat) (b : Byte) : (s.memSetByte a b).input = s.input := rfl
@[simp] theorem State.memSetByte_draws (s : State) (a : Nat) (b : Byte) : (s.memSetByte a b).draws = s.draws := rfl
@[simp] theorem State.memSetByte_nextId (s : State) (a : Nat) (b : Byte) : (s.memSetByte a b).nextId = s.nextId := rfl
@[simp] theorem State.memSetByte_now (s : State) (a : Nat) (b : Byte) : (s.memSetByte a b).now = s.now := rfl
@[simp] theorem State.memSetByte_timeOff (s : State) (a : Nat) (b : Byte) : (s.memSetByte a b).timeOff = s.timeOff := rfl
@[simp] theorem State.memSetByte_deferred (s : State) (a : Nat) (b : Byte) : (s.memSetByte a b).deferred = s.deferred := rfl
@[simp] theorem State.memSetByte_cut (s : State) (a : Nat) (b : Byte) : (s.memSetByte a b).cut = s.cut := rfl
@[simp] theorem State.memSetByte_dev (s : State) (a : Nat) (b : Byte) : (s.memSetByte a b).dev = s.dev := rfl
@[simp] theorem State.memSetByte_devRem (s : State) (a : Nat) (b : Byte) : (s.memSetByte a b).devRem = s.devRem := rfl
@[simp] theorem State.memSetByte_ppm (s : State) (a : Nat) (b : Byte) : (s.memSetByte a b).ppm = s.ppm := rfl
@[simp] theorem State.memSetByte_fences (s : State) (a : Nat) (b : Byte) : (s.memSetByte a b).fences = s.fences := rfl
@[simp] theorem State.memSetByte_seen (s : State) (a : Nat) (b : Byte) : (s.memSetByte a b).seen = s.seen := rfl
@[simp] theorem State.memSetByte_vacated (s : State) (a : Nat) (b : Byte) : (s.memSetByte a b).vacated = s.vacated := rfl
@[simp] theorem State.memSetByte_doeQueue (s : State) (a : Nat) (b : Byte) : (s.memSetByte a b).doeQueue = s.doeQueue := rfl
@[simp] theorem State.memSetByte_dies (s : State) (a : Nat) (b : Byte) : (s.memSetByte a b).dies = s.dies := rfl
@[simp] theorem State.memSetByte_hbmStacks (s : State) (a : Nat) (b : Byte) : (s.memSetByte a b).hbmStacks = s.hbmStacks := rfl
@[simp] theorem State.memSetByte_package (s : State) (a : Nat) (b : Byte) : (s.memSetByte a b).package = s.package := rfl
@[simp] theorem State.memSetByte_cells (s : State) (a : Nat) (b : Byte) : (s.memSetByte a b).cells = s.cells := rfl
@[simp] theorem State.memSetByte_sectors (s : State) (a : Nat) (b : Byte) : (s.memSetByte a b).sectors = s.sectors := rfl
@[simp] theorem State.memSetByte_die (s : State) (a : Nat) (b : Byte) : (s.memSetByte a b).die = s.die := rfl
@[simp] theorem State.memSetByte_ports (s : State) (a : Nat) (b : Byte) : (s.memSetByte a b).ports = s.ports := rfl
@[simp] theorem State.memSetByte_oroute (s : State) (a : Nat) (b : Byte) : (s.memSetByte a b).oroute = s.oroute := rfl
@[simp] theorem State.memSetByte_badMem (s : State) (a : Nat) (b : Byte) : (s.memSetByte a b).badMem = s.badMem := rfl
@[simp] theorem State.memSetByte_insts (s : State) (a : Nat) (b : Byte) : (s.memSetByte a b).insts = s.insts := rfl
@[simp] theorem State.memSetByte_jobs (s : State) (a : Nat) (b : Byte) : (s.memSetByte a b).jobs = s.jobs := rfl
@[simp] theorem State.memSetByte_reqs (s : State) (a : Nat) (b : Byte) : (s.memSetByte a b).reqs = s.reqs := rfl
@[simp] theorem State.memSetByte_cmds (s : State) (a : Nat) (b : Byte) : (s.memSetByte a b).cmds = s.cmds := rfl
@[simp] theorem State.memSetByte_products (s : State) (a : Nat) (b : Byte) : (s.memSetByte a b).products = s.products := rfl
@[simp] theorem State.memSetByte_pairs (s : State) (a : Nat) (b : Byte) : (s.memSetByte a b).pairs = s.pairs := rfl
@[simp] theorem State.memSetByte_proctor (s : State) (a : Nat) (b : Byte) : (s.memSetByte a b).proctor = s.proctor := rfl
@[simp] theorem State.memSetByte_meterAt (s : State) (a : Nat) (b : Byte) : (s.memSetByte a b).meterAt = s.meterAt := rfl
@[simp] theorem State.memSetByte_msix (s : State) (a : Nat) (b : Byte) : (s.memSetByte a b).msix = s.msix := rfl
@[simp] theorem State.memSetByte_responses (s : State) (a : Nat) (b : Byte) : (s.memSetByte a b).responses = s.responses := rfl

@[simp] theorem State.setCell_cell_same (s : State) (c : Nat) (v : Cell) : (s.setCell c v).cell c = v := by
  simp [State.setCell, State.cell]
theorem State.setCell_cell_other (s : State) (c k : Nat) (v : Cell) (h : k ≠ c) : (s.setCell c v).cell k = s.cell k := by
  simp [State.setCell, State.cell, Map.get_put_other _ _ _ _ _ h]
@[simp] theorem State.updCell_cell_same (s : State) (c : Nat) (f : Cell → Cell) : (s.updCell c f).cell c = f (s.cell c) := by
  simp [State.updCell]
theorem State.updCell_cell_other (s : State) (c k : Nat) (f : Cell → Cell) (h : k ≠ c) : (s.updCell c f).cell k = s.cell k := by
  simp [State.updCell, State.setCell_cell_other _ _ _ _ h]
@[simp] theorem State.setSector_sector_same (s : State) (c : Nat) (v : Sector) : (s.setSector c v).sector c = v := by
  simp [State.setSector, State.sector]
theorem State.setSector_sector_other (s : State) (c k : Nat) (v : Sector) (h : k ≠ c) : (s.setSector c v).sector k = s.sector k := by
  simp [State.setSector, State.sector, Map.get_put_other _ _ _ _ _ h]
@[simp] theorem State.updSector_sector_same (s : State) (c : Nat) (f : Sector → Sector) : (s.updSector c f).sector c = f (s.sector c) := by
  simp [State.updSector]
theorem State.updSector_sector_other (s : State) (c k : Nat) (f : Sector → Sector) (h : k ≠ c) : (s.updSector c f).sector k = s.sector k := by
  simp [State.updSector, State.setSector_sector_other _ _ _ _ h]
@[simp] theorem State.setDie_dieAt_same (s : State) (c : Nat) (v : Die) : (s.setDie c v).dieAt c = v := by
  simp [State.setDie, State.dieAt]
theorem State.setDie_dieAt_other (s : State) (c k : Nat) (v : Die) (h : k ≠ c) : (s.setDie c v).dieAt k = s.dieAt k := by
  simp [State.setDie, State.dieAt, Map.get_put_other _ _ _ _ _ h]
@[simp] theorem State.updDie_dieAt_same (s : State) (c : Nat) (f : Die → Die) : (s.updDie c f).dieAt c = f (s.dieAt c) := by
  simp [State.updDie]
theorem State.updDie_dieAt_other (s : State) (c k : Nat) (f : Die → Die) (h : k ≠ c) : (s.updDie c f).dieAt k = s.dieAt k := by
  simp [State.updDie, State.setDie_dieAt_other _ _ _ _ h]
@[simp] theorem State.setPort_port_same (s : State) (c : Nat) (v : Port) : (s.setPort c v).port c = v := by
  simp [State.setPort, State.port]
theorem State.setPort_port_other (s : State) (c k : Nat) (v : Port) (h : k ≠ c) : (s.setPort c v).port k = s.port k := by
  simp [State.setPort, State.port, Map.get_put_other _ _ _ _ _ h]
@[simp] theorem State.updPort_port_same (s : State) (c : Nat) (f : Port → Port) : (s.updPort c f).port c = f (s.port c) := by
  simp [State.updPort]
theorem State.updPort_port_other (s : State) (c k : Nat) (f : Port → Port) (h : k ≠ c) : (s.updPort c f).port k = s.port k := by
  simp [State.updPort, State.setPort_port_other _ _ _ _ h]
@[simp] theorem State.setCell_sector (s : State) (c : Nat) (v : Cell) (x : Nat) : (s.setCell c v).sector x = s.sector x := rfl
@[simp] theorem State.setCell_dieAt (s : State) (c : Nat) (v : Cell) (x : Nat) : (s.setCell c v).dieAt x = s.dieAt x := rfl
@[simp] theorem State.setCell_port (s : State) (c : Nat) (v : Cell) (x : Nat) : (s.setCell c v).port x = s.port x := rfl
@[simp] theorem State.updCell_sector (s : State) (c : Nat) (f : Cell → Cell) (x : Nat) : (s.updCell c f).sector x = s.sector x := rfl
@[simp] theorem State.updCell_dieAt (s : State) (c : Nat) (f : Cell → Cell) (x : Nat) : (s.updCell c f).dieAt x = s.dieAt x := rfl
@[simp] theorem State.updCell_port (s : State) (c : Nat) (f : Cell → Cell) (x : Nat) : (s.updCell c f).port x = s.port x := rfl
@[simp] theorem State.setSector_cell (s : State) (k : Nat) (v : Sector) (x : Nat) : (s.setSector k v).cell x = s.cell x := rfl
@[simp] theorem State.setSector_dieAt (s : State) (k : Nat) (v : Sector) (x : Nat) : (s.setSector k v).dieAt x = s.dieAt x := rfl
@[simp] theorem State.setSector_port (s : State) (k : Nat) (v : Sector) (x : Nat) : (s.setSector k v).port x = s.port x := rfl
@[simp] theorem State.updSector_cell (s : State) (k : Nat) (f : Sector → Sector) (x : Nat) : (s.updSector k f).cell x = s.cell x := rfl
@[simp] theorem State.updSector_dieAt (s : State) (k : Nat) (f : Sector → Sector) (x : Nat) : (s.updSector k f).dieAt x = s.dieAt x := rfl
@[simp] theorem State.updSector_port (s : State) (k : Nat) (f : Sector → Sector) (x : Nat) : (s.updSector k f).port x = s.port x := rfl
@[simp] theorem State.setDie_cell (s : State) (d : Nat) (v : Die) (x : Nat) : (s.setDie d v).cell x = s.cell x := rfl
@[simp] theorem State.setDie_sector (s : State) (d : Nat) (v : Die) (x : Nat) : (s.setDie d v).sector x = s.sector x := rfl
@[simp] theorem State.setDie_port (s : State) (d : Nat) (v : Die) (x : Nat) : (s.setDie d v).port x = s.port x := rfl
@[simp] theorem State.updDie_cell (s : State) (d : Nat) (f : Die → Die) (x : Nat) : (s.updDie d f).cell x = s.cell x := rfl
@[simp] theorem State.updDie_sector (s : State) (d : Nat) (f : Die → Die) (x : Nat) : (s.updDie d f).sector x = s.sector x := rfl
@[simp] theorem State.updDie_port (s : State) (d : Nat) (f : Die → Die) (x : Nat) : (s.updDie d f).port x = s.port x := rfl
@[simp] theorem State.setPort_cell (s : State) (p : Nat) (v : Port) (x : Nat) : (s.setPort p v).cell x = s.cell x := rfl
@[simp] theorem State.setPort_sector (s : State) (p : Nat) (v : Port) (x : Nat) : (s.setPort p v).sector x = s.sector x := rfl
@[simp] theorem State.setPort_dieAt (s : State) (p : Nat) (v : Port) (x : Nat) : (s.setPort p v).dieAt x = s.dieAt x := rfl
@[simp] theorem State.updPort_cell (s : State) (p : Nat) (f : Port → Port) (x : Nat) : (s.updPort p f).cell x = s.cell x := rfl
@[simp] theorem State.updPort_sector (s : State) (p : Nat) (f : Port → Port) (x : Nat) : (s.updPort p f).sector x = s.sector x := rfl
@[simp] theorem State.updPort_dieAt (s : State) (p : Nat) (f : Port → Port) (x : Nat) : (s.updPort p f).dieAt x = s.dieAt x := rfl
@[simp] theorem State.setInst_cell (s : State) (v : Inst) (x : Nat) : (s.setInst v).cell x = s.cell x := rfl
@[simp] theorem State.setInst_sector (s : State) (v : Inst) (x : Nat) : (s.setInst v).sector x = s.sector x := rfl
@[simp] theorem State.setInst_dieAt (s : State) (v : Inst) (x : Nat) : (s.setInst v).dieAt x = s.dieAt x := rfl
@[simp] theorem State.setInst_port (s : State) (v : Inst) (x : Nat) : (s.setInst v).port x = s.port x := rfl
@[simp] theorem State.updInst_cell (s : State) (n : Nat) (f : Inst → Inst) (x : Nat) : (s.updInst n f).cell x = s.cell x := rfl
@[simp] theorem State.updInst_sector (s : State) (n : Nat) (f : Inst → Inst) (x : Nat) : (s.updInst n f).sector x = s.sector x := rfl
@[simp] theorem State.updInst_dieAt (s : State) (n : Nat) (f : Inst → Inst) (x : Nat) : (s.updInst n f).dieAt x = s.dieAt x := rfl
@[simp] theorem State.updInst_port (s : State) (n : Nat) (f : Inst → Inst) (x : Nat) : (s.updInst n f).port x = s.port x := rfl
@[simp] theorem State.updJob_cell (s : State) (n : Nat) (f : Job → Job) (x : Nat) : (s.updJob n f).cell x = s.cell x := rfl
@[simp] theorem State.updJob_sector (s : State) (n : Nat) (f : Job → Job) (x : Nat) : (s.updJob n f).sector x = s.sector x := rfl
@[simp] theorem State.updJob_dieAt (s : State) (n : Nat) (f : Job → Job) (x : Nat) : (s.updJob n f).dieAt x = s.dieAt x := rfl
@[simp] theorem State.updJob_port (s : State) (n : Nat) (f : Job → Job) (x : Nat) : (s.updJob n f).port x = s.port x := rfl
@[simp] theorem State.updReq_cell (s : State) (n : Nat) (f : Req → Req) (x : Nat) : (s.updReq n f).cell x = s.cell x := rfl
@[simp] theorem State.updReq_sector (s : State) (n : Nat) (f : Req → Req) (x : Nat) : (s.updReq n f).sector x = s.sector x := rfl
@[simp] theorem State.updReq_dieAt (s : State) (n : Nat) (f : Req → Req) (x : Nat) : (s.updReq n f).dieAt x = s.dieAt x := rfl
@[simp] theorem State.updReq_port (s : State) (n : Nat) (f : Req → Req) (x : Nat) : (s.updReq n f).port x = s.port x := rfl
@[simp] theorem State.delReq_cell (s : State) (n : Nat) (x : Nat) : (s.delReq n).cell x = s.cell x := rfl
@[simp] theorem State.delReq_sector (s : State) (n : Nat) (x : Nat) : (s.delReq n).sector x = s.sector x := rfl
@[simp] theorem State.delReq_dieAt (s : State) (n : Nat) (x : Nat) : (s.delReq n).dieAt x = s.dieAt x := rfl
@[simp] theorem State.delReq_port (s : State) (n : Nat) (x : Nat) : (s.delReq n).port x = s.port x := rfl
@[simp] theorem State.updCmd_cell (s : State) (n : Nat) (f : Cmd → Cmd) (x : Nat) : (s.updCmd n f).cell x = s.cell x := rfl
@[simp] theorem State.updCmd_sector (s : State) (n : Nat) (f : Cmd → Cmd) (x : Nat) : (s.updCmd n f).sector x = s.sector x := rfl
@[simp] theorem State.updCmd_dieAt (s : State) (n : Nat) (f : Cmd → Cmd) (x : Nat) : (s.updCmd n f).dieAt x = s.dieAt x := rfl
@[simp] theorem State.updCmd_port (s : State) (n : Nat) (f : Cmd → Cmd) (x : Nat) : (s.updCmd n f).port x = s.port x := rfl
@[simp] theorem State.delCmd_cell (s : State) (n : Nat) (x : Nat) : (s.delCmd n).cell x = s.cell x := rfl
@[simp] theorem State.delCmd_sector (s : State) (n : Nat) (x : Nat) : (s.delCmd n).sector x = s.sector x := rfl
@[simp] theorem State.delCmd_dieAt (s : State) (n : Nat) (x : Nat) : (s.delCmd n).dieAt x = s.dieAt x := rfl
@[simp] theorem State.delCmd_port (s : State) (n : Nat) (x : Nat) : (s.delCmd n).port x = s.port x := rfl
@[simp] theorem State.updPair_cell (s : State) (n : Nat) (f : Pair → Pair) (x : Nat) : (s.updPair n f).cell x = s.cell x := rfl
@[simp] theorem State.updPair_sector (s : State) (n : Nat) (f : Pair → Pair) (x : Nat) : (s.updPair n f).sector x = s.sector x := rfl
@[simp] theorem State.updPair_dieAt (s : State) (n : Nat) (f : Pair → Pair) (x : Nat) : (s.updPair n f).dieAt x = s.dieAt x := rfl
@[simp] theorem State.updPair_port (s : State) (n : Nat) (f : Pair → Pair) (x : Nat) : (s.updPair n f).port x = s.port x := rfl
@[simp] theorem State.updPool_cell (s : State) (d n : Nat) (f : PoolRec → PoolRec) (x : Nat) : (s.updPool d n f).cell x = s.cell x := rfl
@[simp] theorem State.updPool_sector (s : State) (d n : Nat) (f : PoolRec → PoolRec) (x : Nat) : (s.updPool d n f).sector x = s.sector x := rfl
@[simp] theorem State.updPool_port (s : State) (d n : Nat) (f : PoolRec → PoolRec) (x : Nat) : (s.updPool d n f).port x = s.port x := rfl
@[simp] theorem State.memSetByte_cell (s : State) (a : Nat) (b : Byte) (x : Nat) : (s.memSetByte a b).cell x = s.cell x := rfl
@[simp] theorem State.memSetByte_sector (s : State) (a : Nat) (b : Byte) (x : Nat) : (s.memSetByte a b).sector x = s.sector x := rfl
@[simp] theorem State.memSetByte_dieAt (s : State) (a : Nat) (b : Byte) (x : Nat) : (s.memSetByte a b).dieAt x = s.dieAt x := rfl
@[simp] theorem State.memSetByte_port (s : State) (a : Nat) (b : Byte) (x : Nat) : (s.memSetByte a b).port x = s.port x := rfl

@[simp] theorem Cell.setSlot_g (c : Cell) (i : Nat) (v : SlotState) : (c.setSlot i v).g = c.g := rfl
@[simp] theorem Cell.setSlot_a0 (c : Cell) (i : Nat) (v : SlotState) : (c.setSlot i v).a0 = c.a0 := rfl
@[simp] theorem Cell.setSlot_a1 (c : Cell) (i : Nat) (v : SlotState) : (c.setSlot i v).a1 = c.a1 := rfl
@[simp] theorem Cell.setSlot_fpstat (c : Cell) (i : Nat) (v : SlotState) : (c.setSlot i v).fpstat = c.fpstat := rfl
@[simp] theorem Cell.setSlot_ptr (c : Cell) (i : Nat) (v : SlotState) : (c.setSlot i v).ptr = c.ptr := rfl
@[simp] theorem Cell.setSlot_nextFire (c : Cell) (i : Nat) (v : SlotState) : (c.setSlot i v).nextFire = c.nextFire := rfl
@[simp] theorem Cell.setSlot_routes (c : Cell) (i : Nat) (v : SlotState) : (c.setSlot i v).routes = c.routes := rfl
@[simp] theorem Cell.setSlot_active (c : Cell) (i : Nat) (v : SlotState) : (c.setSlot i v).active = c.active := rfl
@[simp] theorem Cell.setSlot_shadow (c : Cell) (i : Nat) (v : SlotState) : (c.setSlot i v).shadow = c.shadow := rfl
@[simp] theorem Cell.setSlot_shadowState (c : Cell) (i : Nat) (v : SlotState) : (c.setSlot i v).shadowState = c.shadowState := rfl
@[simp] theorem Cell.setSlot_rin (c : Cell) (i : Nat) (v : SlotState) : (c.setSlot i v).rin = c.rin := rfl
@[simp] theorem Cell.setSlot_link (c : Cell) (i : Nat) (v : SlotState) : (c.setSlot i v).link = c.link := rfl
@[simp] theorem Cell.setSlot_pin (c : Cell) (i : Nat) (v : SlotState) : (c.setSlot i v).pin = c.pin := rfl
@[simp] theorem Cell.setSlot_flight (c : Cell) (i : Nat) (v : SlotState) : (c.setSlot i v).flight = c.flight := rfl
@[simp] theorem Cell.setSlot_spad (c : Cell) (i : Nat) (v : SlotState) : (c.setSlot i v).spad = c.spad := rfl
@[simp] theorem Cell.setSlot_tags (c : Cell) (i : Nat) (v : SlotState) : (c.setSlot i v).tags = c.tags := rfl
@[simp] theorem Cell.setSlot_badWords (c : Cell) (i : Nat) (v : SlotState) : (c.setSlot i v).badWords = c.badWords := rfl
@[simp] theorem Cell.setSlot_trig (c : Cell) (i : Nat) (v : SlotState) : (c.setSlot i v).trig = c.trig := rfl
@[simp] theorem Cell.setSlot_trigDue (c : Cell) (i : Nat) (v : SlotState) : (c.setSlot i v).trigDue = c.trigDue := rfl
@[simp] theorem Cell.setSlot_narg (c : Cell) (i : Nat) (v : SlotState) : (c.setSlot i v).narg = c.narg := rfl
@[simp] theorem Cell.setSlot_instId (c : Cell) (i : Nat) (v : SlotState) : (c.setSlot i v).instId = c.instId := rfl
@[simp] theorem Cell.setSlot_stage (c : Cell) (i : Nat) (v : SlotState) : (c.setSlot i v).stage = c.stage := rfl
@[simp] theorem Cell.setSlot_cycle0 (c : Cell) (i : Nat) (v : SlotState) : (c.setSlot i v).cycle0 = c.cycle0 := rfl
@[simp] theorem Cell.setSlot_cycleSaved (c : Cell) (i : Nat) (v : SlotState) : (c.setSlot i v).cycleSaved = c.cycleSaved := rfl
@[simp] theorem Cell.setSlot_perf (c : Cell) (i : Nat) (v : SlotState) : (c.setSlot i v).perf = c.perf := rfl
@[simp] theorem Cell.setSlot_psel (c : Cell) (i : Nat) (v : SlotState) : (c.setSlot i v).psel = c.psel := rfl
@[simp] theorem Cell.setSlot_roster (c : Cell) (i : Nat) (v : SlotState) : (c.setSlot i v).roster = c.roster := rfl
@[simp] theorem Cell.setSlot_transit (c : Cell) (i : Nat) (v : SlotState) : (c.setSlot i v).transit = c.transit := rfl
@[simp] theorem Cell.setSlot_boundary (c : Cell) (i : Nat) (v : SlotState) : (c.setSlot i v).boundary = c.boundary := rfl
@[simp] theorem Cell.setSlot_arbs (c : Cell) (i : Nat) (v : SlotState) : (c.setSlot i v).arbs = c.arbs := rfl
@[simp] theorem Cell.setSlot_banks (c : Cell) (i : Nat) (v : SlotState) : (c.setSlot i v).banks = c.banks := rfl
@[simp] theorem Cell.setSlot_freed (c : Cell) (i : Nat) (v : SlotState) : (c.setSlot i v).freed = c.freed := rfl
@[simp] theorem Cell.setSlot_hist (c : Cell) (i : Nat) (v : SlotState) : (c.setSlot i v).hist = c.hist := rfl

@[simp] theorem Cell.setRoute_g (c : Cell) (e : Nat) (v : RouteState) : (c.setRoute e v).g = c.g := rfl
@[simp] theorem Cell.setRoute_a0 (c : Cell) (e : Nat) (v : RouteState) : (c.setRoute e v).a0 = c.a0 := rfl
@[simp] theorem Cell.setRoute_a1 (c : Cell) (e : Nat) (v : RouteState) : (c.setRoute e v).a1 = c.a1 := rfl
@[simp] theorem Cell.setRoute_fpstat (c : Cell) (e : Nat) (v : RouteState) : (c.setRoute e v).fpstat = c.fpstat := rfl
@[simp] theorem Cell.setRoute_ptr (c : Cell) (e : Nat) (v : RouteState) : (c.setRoute e v).ptr = c.ptr := rfl
@[simp] theorem Cell.setRoute_nextFire (c : Cell) (e : Nat) (v : RouteState) : (c.setRoute e v).nextFire = c.nextFire := rfl
@[simp] theorem Cell.setRoute_slots (c : Cell) (e : Nat) (v : RouteState) : (c.setRoute e v).slots = c.slots := rfl
@[simp] theorem Cell.setRoute_active (c : Cell) (e : Nat) (v : RouteState) : (c.setRoute e v).active = c.active := rfl
@[simp] theorem Cell.setRoute_shadow (c : Cell) (e : Nat) (v : RouteState) : (c.setRoute e v).shadow = c.shadow := rfl
@[simp] theorem Cell.setRoute_shadowState (c : Cell) (e : Nat) (v : RouteState) : (c.setRoute e v).shadowState = c.shadowState := rfl
@[simp] theorem Cell.setRoute_rin (c : Cell) (e : Nat) (v : RouteState) : (c.setRoute e v).rin = c.rin := rfl
@[simp] theorem Cell.setRoute_link (c : Cell) (e : Nat) (v : RouteState) : (c.setRoute e v).link = c.link := rfl
@[simp] theorem Cell.setRoute_pin (c : Cell) (e : Nat) (v : RouteState) : (c.setRoute e v).pin = c.pin := rfl
@[simp] theorem Cell.setRoute_flight (c : Cell) (e : Nat) (v : RouteState) : (c.setRoute e v).flight = c.flight := rfl
@[simp] theorem Cell.setRoute_spad (c : Cell) (e : Nat) (v : RouteState) : (c.setRoute e v).spad = c.spad := rfl
@[simp] theorem Cell.setRoute_tags (c : Cell) (e : Nat) (v : RouteState) : (c.setRoute e v).tags = c.tags := rfl
@[simp] theorem Cell.setRoute_badWords (c : Cell) (e : Nat) (v : RouteState) : (c.setRoute e v).badWords = c.badWords := rfl
@[simp] theorem Cell.setRoute_trig (c : Cell) (e : Nat) (v : RouteState) : (c.setRoute e v).trig = c.trig := rfl
@[simp] theorem Cell.setRoute_trigDue (c : Cell) (e : Nat) (v : RouteState) : (c.setRoute e v).trigDue = c.trigDue := rfl
@[simp] theorem Cell.setRoute_narg (c : Cell) (e : Nat) (v : RouteState) : (c.setRoute e v).narg = c.narg := rfl
@[simp] theorem Cell.setRoute_instId (c : Cell) (e : Nat) (v : RouteState) : (c.setRoute e v).instId = c.instId := rfl
@[simp] theorem Cell.setRoute_stage (c : Cell) (e : Nat) (v : RouteState) : (c.setRoute e v).stage = c.stage := rfl
@[simp] theorem Cell.setRoute_cycle0 (c : Cell) (e : Nat) (v : RouteState) : (c.setRoute e v).cycle0 = c.cycle0 := rfl
@[simp] theorem Cell.setRoute_cycleSaved (c : Cell) (e : Nat) (v : RouteState) : (c.setRoute e v).cycleSaved = c.cycleSaved := rfl
@[simp] theorem Cell.setRoute_perf (c : Cell) (e : Nat) (v : RouteState) : (c.setRoute e v).perf = c.perf := rfl
@[simp] theorem Cell.setRoute_psel (c : Cell) (e : Nat) (v : RouteState) : (c.setRoute e v).psel = c.psel := rfl
@[simp] theorem Cell.setRoute_roster (c : Cell) (e : Nat) (v : RouteState) : (c.setRoute e v).roster = c.roster := rfl
@[simp] theorem Cell.setRoute_transit (c : Cell) (e : Nat) (v : RouteState) : (c.setRoute e v).transit = c.transit := rfl
@[simp] theorem Cell.setRoute_boundary (c : Cell) (e : Nat) (v : RouteState) : (c.setRoute e v).boundary = c.boundary := rfl
@[simp] theorem Cell.setRoute_arbs (c : Cell) (e : Nat) (v : RouteState) : (c.setRoute e v).arbs = c.arbs := rfl
@[simp] theorem Cell.setRoute_banks (c : Cell) (e : Nat) (v : RouteState) : (c.setRoute e v).banks = c.banks := rfl
@[simp] theorem Cell.setRoute_freed (c : Cell) (e : Nat) (v : RouteState) : (c.setRoute e v).freed = c.freed := rfl
@[simp] theorem Cell.setRoute_hist (c : Cell) (e : Nat) (v : RouteState) : (c.setRoute e v).hist = c.hist := rfl

@[simp] theorem Cell.setReg_a0 (c : Cell) (n : Nat) (v : Word) : (c.setReg n v).a0 = c.a0 := rfl
@[simp] theorem Cell.setReg_a1 (c : Cell) (n : Nat) (v : Word) : (c.setReg n v).a1 = c.a1 := rfl
@[simp] theorem Cell.setReg_fpstat (c : Cell) (n : Nat) (v : Word) : (c.setReg n v).fpstat = c.fpstat := rfl
@[simp] theorem Cell.setReg_ptr (c : Cell) (n : Nat) (v : Word) : (c.setReg n v).ptr = c.ptr := rfl
@[simp] theorem Cell.setReg_nextFire (c : Cell) (n : Nat) (v : Word) : (c.setReg n v).nextFire = c.nextFire := rfl
@[simp] theorem Cell.setReg_slots (c : Cell) (n : Nat) (v : Word) : (c.setReg n v).slots = c.slots := rfl
@[simp] theorem Cell.setReg_routes (c : Cell) (n : Nat) (v : Word) : (c.setReg n v).routes = c.routes := rfl
@[simp] theorem Cell.setReg_active (c : Cell) (n : Nat) (v : Word) : (c.setReg n v).active = c.active := rfl
@[simp] theorem Cell.setReg_shadow (c : Cell) (n : Nat) (v : Word) : (c.setReg n v).shadow = c.shadow := rfl
@[simp] theorem Cell.setReg_shadowState (c : Cell) (n : Nat) (v : Word) : (c.setReg n v).shadowState = c.shadowState := rfl
@[simp] theorem Cell.setReg_rin (c : Cell) (n : Nat) (v : Word) : (c.setReg n v).rin = c.rin := rfl
@[simp] theorem Cell.setReg_link (c : Cell) (n : Nat) (v : Word) : (c.setReg n v).link = c.link := rfl
@[simp] theorem Cell.setReg_pin (c : Cell) (n : Nat) (v : Word) : (c.setReg n v).pin = c.pin := rfl
@[simp] theorem Cell.setReg_flight (c : Cell) (n : Nat) (v : Word) : (c.setReg n v).flight = c.flight := rfl
@[simp] theorem Cell.setReg_spad (c : Cell) (n : Nat) (v : Word) : (c.setReg n v).spad = c.spad := rfl
@[simp] theorem Cell.setReg_tags (c : Cell) (n : Nat) (v : Word) : (c.setReg n v).tags = c.tags := rfl
@[simp] theorem Cell.setReg_badWords (c : Cell) (n : Nat) (v : Word) : (c.setReg n v).badWords = c.badWords := rfl
@[simp] theorem Cell.setReg_trig (c : Cell) (n : Nat) (v : Word) : (c.setReg n v).trig = c.trig := rfl
@[simp] theorem Cell.setReg_trigDue (c : Cell) (n : Nat) (v : Word) : (c.setReg n v).trigDue = c.trigDue := rfl
@[simp] theorem Cell.setReg_narg (c : Cell) (n : Nat) (v : Word) : (c.setReg n v).narg = c.narg := rfl
@[simp] theorem Cell.setReg_instId (c : Cell) (n : Nat) (v : Word) : (c.setReg n v).instId = c.instId := rfl
@[simp] theorem Cell.setReg_stage (c : Cell) (n : Nat) (v : Word) : (c.setReg n v).stage = c.stage := rfl
@[simp] theorem Cell.setReg_cycle0 (c : Cell) (n : Nat) (v : Word) : (c.setReg n v).cycle0 = c.cycle0 := rfl
@[simp] theorem Cell.setReg_cycleSaved (c : Cell) (n : Nat) (v : Word) : (c.setReg n v).cycleSaved = c.cycleSaved := rfl
@[simp] theorem Cell.setReg_perf (c : Cell) (n : Nat) (v : Word) : (c.setReg n v).perf = c.perf := rfl
@[simp] theorem Cell.setReg_psel (c : Cell) (n : Nat) (v : Word) : (c.setReg n v).psel = c.psel := rfl
@[simp] theorem Cell.setReg_roster (c : Cell) (n : Nat) (v : Word) : (c.setReg n v).roster = c.roster := rfl
@[simp] theorem Cell.setReg_transit (c : Cell) (n : Nat) (v : Word) : (c.setReg n v).transit = c.transit := rfl
@[simp] theorem Cell.setReg_boundary (c : Cell) (n : Nat) (v : Word) : (c.setReg n v).boundary = c.boundary := rfl
@[simp] theorem Cell.setReg_arbs (c : Cell) (n : Nat) (v : Word) : (c.setReg n v).arbs = c.arbs := rfl
@[simp] theorem Cell.setReg_banks (c : Cell) (n : Nat) (v : Word) : (c.setReg n v).banks = c.banks := rfl
@[simp] theorem Cell.setReg_freed (c : Cell) (n : Nat) (v : Word) : (c.setReg n v).freed = c.freed := rfl
@[simp] theorem Cell.setReg_hist (c : Cell) (n : Nat) (v : Word) : (c.setReg n v).hist = c.hist := rfl

@[simp] theorem Cell.setChan_g (c : Cell) (n : Nat) (q : List Token) : (c.setChan n q).g = c.g := rfl
@[simp] theorem Cell.setChan_a0 (c : Cell) (n : Nat) (q : List Token) : (c.setChan n q).a0 = c.a0 := rfl
@[simp] theorem Cell.setChan_a1 (c : Cell) (n : Nat) (q : List Token) : (c.setChan n q).a1 = c.a1 := rfl
@[simp] theorem Cell.setChan_fpstat (c : Cell) (n : Nat) (q : List Token) : (c.setChan n q).fpstat = c.fpstat := rfl
@[simp] theorem Cell.setChan_ptr (c : Cell) (n : Nat) (q : List Token) : (c.setChan n q).ptr = c.ptr := rfl
@[simp] theorem Cell.setChan_nextFire (c : Cell) (n : Nat) (q : List Token) : (c.setChan n q).nextFire = c.nextFire := rfl
@[simp] theorem Cell.setChan_slots (c : Cell) (n : Nat) (q : List Token) : (c.setChan n q).slots = c.slots := rfl
@[simp] theorem Cell.setChan_routes (c : Cell) (n : Nat) (q : List Token) : (c.setChan n q).routes = c.routes := rfl
@[simp] theorem Cell.setChan_active (c : Cell) (n : Nat) (q : List Token) : (c.setChan n q).active = c.active := rfl
@[simp] theorem Cell.setChan_shadow (c : Cell) (n : Nat) (q : List Token) : (c.setChan n q).shadow = c.shadow := rfl
@[simp] theorem Cell.setChan_shadowState (c : Cell) (n : Nat) (q : List Token) : (c.setChan n q).shadowState = c.shadowState := rfl
@[simp] theorem Cell.setChan_rin (c : Cell) (n : Nat) (q : List Token) : (c.setChan n q).rin = c.rin := rfl
@[simp] theorem Cell.setChan_link (c : Cell) (n : Nat) (q : List Token) : (c.setChan n q).link = c.link := rfl
@[simp] theorem Cell.setChan_flight (c : Cell) (n : Nat) (q : List Token) : (c.setChan n q).flight = c.flight := rfl
@[simp] theorem Cell.setChan_spad (c : Cell) (n : Nat) (q : List Token) : (c.setChan n q).spad = c.spad := rfl
@[simp] theorem Cell.setChan_tags (c : Cell) (n : Nat) (q : List Token) : (c.setChan n q).tags = c.tags := rfl
@[simp] theorem Cell.setChan_badWords (c : Cell) (n : Nat) (q : List Token) : (c.setChan n q).badWords = c.badWords := rfl
@[simp] theorem Cell.setChan_trig (c : Cell) (n : Nat) (q : List Token) : (c.setChan n q).trig = c.trig := rfl
@[simp] theorem Cell.setChan_trigDue (c : Cell) (n : Nat) (q : List Token) : (c.setChan n q).trigDue = c.trigDue := rfl
@[simp] theorem Cell.setChan_narg (c : Cell) (n : Nat) (q : List Token) : (c.setChan n q).narg = c.narg := rfl
@[simp] theorem Cell.setChan_instId (c : Cell) (n : Nat) (q : List Token) : (c.setChan n q).instId = c.instId := rfl
@[simp] theorem Cell.setChan_stage (c : Cell) (n : Nat) (q : List Token) : (c.setChan n q).stage = c.stage := rfl
@[simp] theorem Cell.setChan_cycle0 (c : Cell) (n : Nat) (q : List Token) : (c.setChan n q).cycle0 = c.cycle0 := rfl
@[simp] theorem Cell.setChan_cycleSaved (c : Cell) (n : Nat) (q : List Token) : (c.setChan n q).cycleSaved = c.cycleSaved := rfl
@[simp] theorem Cell.setChan_perf (c : Cell) (n : Nat) (q : List Token) : (c.setChan n q).perf = c.perf := rfl
@[simp] theorem Cell.setChan_psel (c : Cell) (n : Nat) (q : List Token) : (c.setChan n q).psel = c.psel := rfl
@[simp] theorem Cell.setChan_roster (c : Cell) (n : Nat) (q : List Token) : (c.setChan n q).roster = c.roster := rfl
@[simp] theorem Cell.setChan_transit (c : Cell) (n : Nat) (q : List Token) : (c.setChan n q).transit = c.transit := rfl
@[simp] theorem Cell.setChan_boundary (c : Cell) (n : Nat) (q : List Token) : (c.setChan n q).boundary = c.boundary := rfl
@[simp] theorem Cell.setChan_arbs (c : Cell) (n : Nat) (q : List Token) : (c.setChan n q).arbs = c.arbs := rfl
@[simp] theorem Cell.setChan_banks (c : Cell) (n : Nat) (q : List Token) : (c.setChan n q).banks = c.banks := rfl
@[simp] theorem Cell.setChan_freed (c : Cell) (n : Nat) (q : List Token) : (c.setChan n q).freed = c.freed := rfl
@[simp] theorem Cell.setChan_hist (c : Cell) (n : Nat) (q : List Token) : (c.setChan n q).hist = c.hist := rfl

@[simp] theorem Cell.setInFifo_g (c : Cell) (p v : Nat) (q : List Token) : (c.setInFifo p v q).g = c.g := rfl
@[simp] theorem Cell.setInFifo_a0 (c : Cell) (p v : Nat) (q : List Token) : (c.setInFifo p v q).a0 = c.a0 := rfl
@[simp] theorem Cell.setInFifo_a1 (c : Cell) (p v : Nat) (q : List Token) : (c.setInFifo p v q).a1 = c.a1 := rfl
@[simp] theorem Cell.setInFifo_fpstat (c : Cell) (p v : Nat) (q : List Token) : (c.setInFifo p v q).fpstat = c.fpstat := rfl
@[simp] theorem Cell.setInFifo_ptr (c : Cell) (p v : Nat) (q : List Token) : (c.setInFifo p v q).ptr = c.ptr := rfl
@[simp] theorem Cell.setInFifo_nextFire (c : Cell) (p v : Nat) (q : List Token) : (c.setInFifo p v q).nextFire = c.nextFire := rfl
@[simp] theorem Cell.setInFifo_slots (c : Cell) (p v : Nat) (q : List Token) : (c.setInFifo p v q).slots = c.slots := rfl
@[simp] theorem Cell.setInFifo_routes (c : Cell) (p v : Nat) (q : List Token) : (c.setInFifo p v q).routes = c.routes := rfl
@[simp] theorem Cell.setInFifo_active (c : Cell) (p v : Nat) (q : List Token) : (c.setInFifo p v q).active = c.active := rfl
@[simp] theorem Cell.setInFifo_shadow (c : Cell) (p v : Nat) (q : List Token) : (c.setInFifo p v q).shadow = c.shadow := rfl
@[simp] theorem Cell.setInFifo_shadowState (c : Cell) (p v : Nat) (q : List Token) : (c.setInFifo p v q).shadowState = c.shadowState := rfl
@[simp] theorem Cell.setInFifo_link (c : Cell) (p v : Nat) (q : List Token) : (c.setInFifo p v q).link = c.link := rfl
@[simp] theorem Cell.setInFifo_pin (c : Cell) (p v : Nat) (q : List Token) : (c.setInFifo p v q).pin = c.pin := rfl
@[simp] theorem Cell.setInFifo_flight (c : Cell) (p v : Nat) (q : List Token) : (c.setInFifo p v q).flight = c.flight := rfl
@[simp] theorem Cell.setInFifo_spad (c : Cell) (p v : Nat) (q : List Token) : (c.setInFifo p v q).spad = c.spad := rfl
@[simp] theorem Cell.setInFifo_tags (c : Cell) (p v : Nat) (q : List Token) : (c.setInFifo p v q).tags = c.tags := rfl
@[simp] theorem Cell.setInFifo_badWords (c : Cell) (p v : Nat) (q : List Token) : (c.setInFifo p v q).badWords = c.badWords := rfl
@[simp] theorem Cell.setInFifo_trig (c : Cell) (p v : Nat) (q : List Token) : (c.setInFifo p v q).trig = c.trig := rfl
@[simp] theorem Cell.setInFifo_trigDue (c : Cell) (p v : Nat) (q : List Token) : (c.setInFifo p v q).trigDue = c.trigDue := rfl
@[simp] theorem Cell.setInFifo_narg (c : Cell) (p v : Nat) (q : List Token) : (c.setInFifo p v q).narg = c.narg := rfl
@[simp] theorem Cell.setInFifo_instId (c : Cell) (p v : Nat) (q : List Token) : (c.setInFifo p v q).instId = c.instId := rfl
@[simp] theorem Cell.setInFifo_stage (c : Cell) (p v : Nat) (q : List Token) : (c.setInFifo p v q).stage = c.stage := rfl
@[simp] theorem Cell.setInFifo_cycle0 (c : Cell) (p v : Nat) (q : List Token) : (c.setInFifo p v q).cycle0 = c.cycle0 := rfl
@[simp] theorem Cell.setInFifo_cycleSaved (c : Cell) (p v : Nat) (q : List Token) : (c.setInFifo p v q).cycleSaved = c.cycleSaved := rfl
@[simp] theorem Cell.setInFifo_perf (c : Cell) (p v : Nat) (q : List Token) : (c.setInFifo p v q).perf = c.perf := rfl
@[simp] theorem Cell.setInFifo_psel (c : Cell) (p v : Nat) (q : List Token) : (c.setInFifo p v q).psel = c.psel := rfl
@[simp] theorem Cell.setInFifo_roster (c : Cell) (p v : Nat) (q : List Token) : (c.setInFifo p v q).roster = c.roster := rfl
@[simp] theorem Cell.setInFifo_transit (c : Cell) (p v : Nat) (q : List Token) : (c.setInFifo p v q).transit = c.transit := rfl
@[simp] theorem Cell.setInFifo_boundary (c : Cell) (p v : Nat) (q : List Token) : (c.setInFifo p v q).boundary = c.boundary := rfl
@[simp] theorem Cell.setInFifo_arbs (c : Cell) (p v : Nat) (q : List Token) : (c.setInFifo p v q).arbs = c.arbs := rfl
@[simp] theorem Cell.setInFifo_banks (c : Cell) (p v : Nat) (q : List Token) : (c.setInFifo p v q).banks = c.banks := rfl
@[simp] theorem Cell.setInFifo_freed (c : Cell) (p v : Nat) (q : List Token) : (c.setInFifo p v q).freed = c.freed := rfl
@[simp] theorem Cell.setInFifo_hist (c : Cell) (p v : Nat) (q : List Token) : (c.setInFifo p v q).hist = c.hist := rfl

@[simp] theorem Cell.setLinkQ_g (c : Cell) (p v : Nat) (q : List LinkTok) : (c.setLinkQ p v q).g = c.g := rfl
@[simp] theorem Cell.setLinkQ_a0 (c : Cell) (p v : Nat) (q : List LinkTok) : (c.setLinkQ p v q).a0 = c.a0 := rfl
@[simp] theorem Cell.setLinkQ_a1 (c : Cell) (p v : Nat) (q : List LinkTok) : (c.setLinkQ p v q).a1 = c.a1 := rfl
@[simp] theorem Cell.setLinkQ_fpstat (c : Cell) (p v : Nat) (q : List LinkTok) : (c.setLinkQ p v q).fpstat = c.fpstat := rfl
@[simp] theorem Cell.setLinkQ_ptr (c : Cell) (p v : Nat) (q : List LinkTok) : (c.setLinkQ p v q).ptr = c.ptr := rfl
@[simp] theorem Cell.setLinkQ_nextFire (c : Cell) (p v : Nat) (q : List LinkTok) : (c.setLinkQ p v q).nextFire = c.nextFire := rfl
@[simp] theorem Cell.setLinkQ_slots (c : Cell) (p v : Nat) (q : List LinkTok) : (c.setLinkQ p v q).slots = c.slots := rfl
@[simp] theorem Cell.setLinkQ_routes (c : Cell) (p v : Nat) (q : List LinkTok) : (c.setLinkQ p v q).routes = c.routes := rfl
@[simp] theorem Cell.setLinkQ_active (c : Cell) (p v : Nat) (q : List LinkTok) : (c.setLinkQ p v q).active = c.active := rfl
@[simp] theorem Cell.setLinkQ_shadow (c : Cell) (p v : Nat) (q : List LinkTok) : (c.setLinkQ p v q).shadow = c.shadow := rfl
@[simp] theorem Cell.setLinkQ_shadowState (c : Cell) (p v : Nat) (q : List LinkTok) : (c.setLinkQ p v q).shadowState = c.shadowState := rfl
@[simp] theorem Cell.setLinkQ_rin (c : Cell) (p v : Nat) (q : List LinkTok) : (c.setLinkQ p v q).rin = c.rin := rfl
@[simp] theorem Cell.setLinkQ_pin (c : Cell) (p v : Nat) (q : List LinkTok) : (c.setLinkQ p v q).pin = c.pin := rfl
@[simp] theorem Cell.setLinkQ_flight (c : Cell) (p v : Nat) (q : List LinkTok) : (c.setLinkQ p v q).flight = c.flight := rfl
@[simp] theorem Cell.setLinkQ_spad (c : Cell) (p v : Nat) (q : List LinkTok) : (c.setLinkQ p v q).spad = c.spad := rfl
@[simp] theorem Cell.setLinkQ_tags (c : Cell) (p v : Nat) (q : List LinkTok) : (c.setLinkQ p v q).tags = c.tags := rfl
@[simp] theorem Cell.setLinkQ_badWords (c : Cell) (p v : Nat) (q : List LinkTok) : (c.setLinkQ p v q).badWords = c.badWords := rfl
@[simp] theorem Cell.setLinkQ_trig (c : Cell) (p v : Nat) (q : List LinkTok) : (c.setLinkQ p v q).trig = c.trig := rfl
@[simp] theorem Cell.setLinkQ_trigDue (c : Cell) (p v : Nat) (q : List LinkTok) : (c.setLinkQ p v q).trigDue = c.trigDue := rfl
@[simp] theorem Cell.setLinkQ_narg (c : Cell) (p v : Nat) (q : List LinkTok) : (c.setLinkQ p v q).narg = c.narg := rfl
@[simp] theorem Cell.setLinkQ_instId (c : Cell) (p v : Nat) (q : List LinkTok) : (c.setLinkQ p v q).instId = c.instId := rfl
@[simp] theorem Cell.setLinkQ_stage (c : Cell) (p v : Nat) (q : List LinkTok) : (c.setLinkQ p v q).stage = c.stage := rfl
@[simp] theorem Cell.setLinkQ_cycle0 (c : Cell) (p v : Nat) (q : List LinkTok) : (c.setLinkQ p v q).cycle0 = c.cycle0 := rfl
@[simp] theorem Cell.setLinkQ_cycleSaved (c : Cell) (p v : Nat) (q : List LinkTok) : (c.setLinkQ p v q).cycleSaved = c.cycleSaved := rfl
@[simp] theorem Cell.setLinkQ_perf (c : Cell) (p v : Nat) (q : List LinkTok) : (c.setLinkQ p v q).perf = c.perf := rfl
@[simp] theorem Cell.setLinkQ_psel (c : Cell) (p v : Nat) (q : List LinkTok) : (c.setLinkQ p v q).psel = c.psel := rfl
@[simp] theorem Cell.setLinkQ_roster (c : Cell) (p v : Nat) (q : List LinkTok) : (c.setLinkQ p v q).roster = c.roster := rfl
@[simp] theorem Cell.setLinkQ_transit (c : Cell) (p v : Nat) (q : List LinkTok) : (c.setLinkQ p v q).transit = c.transit := rfl
@[simp] theorem Cell.setLinkQ_boundary (c : Cell) (p v : Nat) (q : List LinkTok) : (c.setLinkQ p v q).boundary = c.boundary := rfl
@[simp] theorem Cell.setLinkQ_arbs (c : Cell) (p v : Nat) (q : List LinkTok) : (c.setLinkQ p v q).arbs = c.arbs := rfl
@[simp] theorem Cell.setLinkQ_banks (c : Cell) (p v : Nat) (q : List LinkTok) : (c.setLinkQ p v q).banks = c.banks := rfl
@[simp] theorem Cell.setLinkQ_freed (c : Cell) (p v : Nat) (q : List LinkTok) : (c.setLinkQ p v q).freed = c.freed := rfl
@[simp] theorem Cell.setLinkQ_hist (c : Cell) (p v : Nat) (q : List LinkTok) : (c.setLinkQ p v q).hist = c.hist := rfl

@[simp] theorem Cell.setCur_g (c : Cell) (n k : Nat) : (c.setCur n k).g = c.g := rfl
@[simp] theorem Cell.setCur_a0 (c : Cell) (n k : Nat) : (c.setCur n k).a0 = c.a0 := rfl
@[simp] theorem Cell.setCur_a1 (c : Cell) (n k : Nat) : (c.setCur n k).a1 = c.a1 := rfl
@[simp] theorem Cell.setCur_fpstat (c : Cell) (n k : Nat) : (c.setCur n k).fpstat = c.fpstat := rfl
@[simp] theorem Cell.setCur_ptr (c : Cell) (n k : Nat) : (c.setCur n k).ptr = c.ptr := rfl
@[simp] theorem Cell.setCur_nextFire (c : Cell) (n k : Nat) : (c.setCur n k).nextFire = c.nextFire := rfl
@[simp] theorem Cell.setCur_slots (c : Cell) (n k : Nat) : (c.setCur n k).slots = c.slots := rfl
@[simp] theorem Cell.setCur_routes (c : Cell) (n k : Nat) : (c.setCur n k).routes = c.routes := rfl
@[simp] theorem Cell.setCur_shadow (c : Cell) (n k : Nat) : (c.setCur n k).shadow = c.shadow := rfl
@[simp] theorem Cell.setCur_shadowState (c : Cell) (n k : Nat) : (c.setCur n k).shadowState = c.shadowState := rfl
@[simp] theorem Cell.setCur_rin (c : Cell) (n k : Nat) : (c.setCur n k).rin = c.rin := rfl
@[simp] theorem Cell.setCur_link (c : Cell) (n k : Nat) : (c.setCur n k).link = c.link := rfl
@[simp] theorem Cell.setCur_pin (c : Cell) (n k : Nat) : (c.setCur n k).pin = c.pin := rfl
@[simp] theorem Cell.setCur_flight (c : Cell) (n k : Nat) : (c.setCur n k).flight = c.flight := rfl
@[simp] theorem Cell.setCur_spad (c : Cell) (n k : Nat) : (c.setCur n k).spad = c.spad := rfl
@[simp] theorem Cell.setCur_tags (c : Cell) (n k : Nat) : (c.setCur n k).tags = c.tags := rfl
@[simp] theorem Cell.setCur_badWords (c : Cell) (n k : Nat) : (c.setCur n k).badWords = c.badWords := rfl
@[simp] theorem Cell.setCur_trig (c : Cell) (n k : Nat) : (c.setCur n k).trig = c.trig := rfl
@[simp] theorem Cell.setCur_trigDue (c : Cell) (n k : Nat) : (c.setCur n k).trigDue = c.trigDue := rfl
@[simp] theorem Cell.setCur_narg (c : Cell) (n k : Nat) : (c.setCur n k).narg = c.narg := rfl
@[simp] theorem Cell.setCur_instId (c : Cell) (n k : Nat) : (c.setCur n k).instId = c.instId := rfl
@[simp] theorem Cell.setCur_stage (c : Cell) (n k : Nat) : (c.setCur n k).stage = c.stage := rfl
@[simp] theorem Cell.setCur_cycle0 (c : Cell) (n k : Nat) : (c.setCur n k).cycle0 = c.cycle0 := rfl
@[simp] theorem Cell.setCur_cycleSaved (c : Cell) (n k : Nat) : (c.setCur n k).cycleSaved = c.cycleSaved := rfl
@[simp] theorem Cell.setCur_perf (c : Cell) (n k : Nat) : (c.setCur n k).perf = c.perf := rfl
@[simp] theorem Cell.setCur_psel (c : Cell) (n k : Nat) : (c.setCur n k).psel = c.psel := rfl
@[simp] theorem Cell.setCur_roster (c : Cell) (n k : Nat) : (c.setCur n k).roster = c.roster := rfl
@[simp] theorem Cell.setCur_transit (c : Cell) (n k : Nat) : (c.setCur n k).transit = c.transit := rfl
@[simp] theorem Cell.setCur_boundary (c : Cell) (n k : Nat) : (c.setCur n k).boundary = c.boundary := rfl
@[simp] theorem Cell.setCur_arbs (c : Cell) (n k : Nat) : (c.setCur n k).arbs = c.arbs := rfl
@[simp] theorem Cell.setCur_banks (c : Cell) (n k : Nat) : (c.setCur n k).banks = c.banks := rfl
@[simp] theorem Cell.setCur_freed (c : Cell) (n k : Nat) : (c.setCur n k).freed = c.freed := rfl
@[simp] theorem Cell.setCur_hist (c : Cell) (n k : Nat) : (c.setCur n k).hist = c.hist := rfl

@[simp] theorem Cell.setReg_reg_same (c : Cell) (n : Nat) (v : Word) : (c.setReg n v).reg n = v := by simp [Cell.setReg, Cell.reg]
theorem Cell.setReg_reg_other (c : Cell) (n k : Nat) (v : Word) (h : k ≠ n) : (c.setReg n v).reg k = c.reg k := by
  simp [Cell.setReg, Cell.reg, Map.get_set_other _ _ _ _ _ h]
@[simp] theorem Cell.setChan_chan_same (c : Cell) (n : Nat) (q : List Token) : (c.setChan n q).chan n = q := by simp [Cell.setChan, Cell.chan]
theorem Cell.setChan_chan_other (c : Cell) (n k : Nat) (q : List Token) (h : k ≠ n) : (c.setChan n q).chan k = c.chan k := by
  simp [Cell.setChan, Cell.chan, Map.get_set_other _ _ _ _ _ h]
@[simp] theorem Cell.setSlot_slot_same (c : Cell) (n : Nat) (v : SlotState) : (c.setSlot n v).slot n = v := by simp [Cell.setSlot, Cell.slot]
theorem Cell.setSlot_slot_other (c : Cell) (n k : Nat) (v : SlotState) (h : k ≠ n) : (c.setSlot n v).slot k = c.slot k := by
  simp [Cell.setSlot, Cell.slot, Map.get_put_other _ _ _ _ _ h]
@[simp] theorem Cell.setRoute_route_same (c : Cell) (n : Nat) (v : RouteState) : (c.setRoute n v).route n = v := by simp [Cell.setRoute, Cell.route]

/-- Writing a byte, then reading it. -/
@[simp] theorem State.memSetByte_memByte_same (s : State) (a : Nat) (b : Byte) : (s.memSetByte a b).memByte a = b := by
  simp [State.memSetByte, State.memByte]
/-- Writing a byte leaves every other byte. -/
theorem State.memSetByte_memByte_other (s : State) (a k : Nat) (b : Byte) (h : k ≠ a) : (s.memSetByte a b).memByte k = s.memByte k := by
  simp [State.memSetByte, State.memByte, Map.get_set_other _ _ _ _ _ h]

end Sys2Proof.Machine
end

