-- ==== Sys2Proof/Laws/Memory.lean ====
section
/-! SUPPORT. Sys2Proof/Laws/Memory.lean: every operation that writes memory keeps its canonical form, and writes the bytes it names and
no other. -/
namespace Sys2Proof.Machine
open Sys2Proof

theorem State.memSetByte_wf (s : State) (a : Nat) (b : Byte) (h : MemoryWf s) : MemoryWf (s.memSetByte a b) :=
  Map.wf_set memDefault s.mem a b h

theorem State.memWrite_wf (s : State) (a v n : Nat) (h : MemoryWf s) : MemoryWf (s.memWrite a v n) := by
  induction n with
  | zero => exact h
  | succ n ih => exact State.memSetByte_wf _ _ _ ih

theorem State.memPutList_wf (bs : List Byte) : ∀ (s : State) (a : Nat), MemoryWf s → MemoryWf (s.memPutList a bs) := by
  induction bs with
  | nil => intro s a h; exact h
  | cons b r ih => intro s a h; exact ih _ _ (State.memSetByte_wf s a b h)

theorem State.vaWrite_wf (bs : List Byte) : ∀ (s t : State) (asid root va : Nat), MemoryWf s → s.vaWrite asid root va bs = some t → MemoryWf t := by
  induction bs with
  | nil => intro s t _ _ _ h ht; simp only [State.vaWrite, Option.some.injEq] at ht; exact ht ▸ h
  | cons b r ih =>
    intro s t asid root va h ht
    simp only [State.vaWrite] at ht
    split at ht
    · exact ih _ _ _ _ _ (State.memSetByte_wf s _ b h) ht
    · cases ht

theorem State.memWrite_other (s : State) (a v n x : Nat) (h : x < a ∨ a + n ≤ x) : (s.memWrite a v n).memByte x = s.memByte x := by
  induction n with
  | zero => rfl
  | succ n ih =>
    rw [State.memWrite, State.memSetByte_memByte_other _ _ _ _ (by omega)]
    exact ih (by omega)

theorem State.reset_memory_wf : MemoryWf State.reset := rfl

end Sys2Proof.Machine
end

