-- ==== Sys2Proof/Laws/PerInstr.lean ====
section
/-! SUPPORT. Sys2Proof/Laws/PerInstr.lean: the family Encoding: the word of every instruction that has one fills its bits and no more. -/
open Sys2Proof

/-- The word of the instruction, if it has one, is of 32, 48 or 64 bits. -/
def Sys2Proof.Laws.Encoding.Statement (i : Instr) : Prop := ∀ n w, encode i = some (n, w) → (n = 32 ∨ n = 48 ∨ n = 64) ∧ w < 2 ^ n

open Sys2Proof.Laws.Encoding

/-- The lengths and bounds hold whatever the instruction: they are those of the bit vectors encoded into. -/
theorem Sys2Proof.Laws.Encoding.fits (i : Instr) : Statement i := by
  intro n w h
  simp only [encode] at h
  split at h <;> simp only [Option.some.injEq, Prod.mk.injEq, reduceCtorEq] at h
  all_goals obtain ⟨rfl, rfl⟩ := h
  all_goals exact ⟨by simp, BitVec.isLt _⟩

theorem Sys2Proof.Laws.Encoding.invalidationComplete (die : Nat) : Statement (.invalidationComplete die) := fits _
theorem Sys2Proof.Laws.Encoding.tokenHop (cell : Nat) (port : Nat) (vc : Nat) : Statement (.tokenHop cell port vc) := fits _
theorem Sys2Proof.Laws.Encoding.placementStep (die : Nat) : Statement (.placementStep die) := fits _
theorem Sys2Proof.Laws.Encoding.engineSuspend (command : Nat) : Statement (.engineSuspend command) := fits _
theorem Sys2Proof.Laws.Encoding.drainPointReached (inst : Nat) : Statement (.drainPointReached inst) := fits _
theorem Sys2Proof.Laws.Encoding.planeFlip (inst : Nat) : Statement (.planeFlip inst) := fits _
theorem Sys2Proof.Laws.Encoding.swapTokenArrival (sector : Nat) : Statement (.swapTokenArrival sector) := fits _
theorem Sys2Proof.Laws.Encoding.tokenCountTrigger (cell : Nat) : Statement (.tokenCountTrigger cell) := fits _
theorem Sys2Proof.Laws.Encoding.phaseAdvance (site : Site) : Statement (.phaseAdvance site) := fits _
theorem Sys2Proof.Laws.Encoding.nodeComplete (node : Nat) : Statement (.nodeComplete node) := fits _
theorem Sys2Proof.Laws.Encoding.jobComplete (job : Nat) : Statement (.jobComplete job) := fits _
theorem Sys2Proof.Laws.Encoding.patchClear (inst : Nat) : Statement (.patchClear inst) := fits _
theorem Sys2Proof.Laws.Encoding.slateAllotmentReset (allotment : Nat) : Statement (.slateAllotmentReset allotment) := fits _
theorem Sys2Proof.Laws.Encoding.timetableRecordArrival (request : Nat) : Statement (.timetableRecordArrival request) := fits _
theorem Sys2Proof.Laws.Encoding.remoteRequest (request : Nat) (answer : BitVec 64) : Statement (.remoteRequest request answer) := fits _
theorem Sys2Proof.Laws.Encoding.hbmRequest (request : Nat) : Statement (.hbmRequest request) := fits _
theorem Sys2Proof.Laws.Encoding.pageWalk (request : Nat) : Statement (.pageWalk request) := fits _
theorem Sys2Proof.Laws.Encoding.batchTranslation (command : Nat) : Statement (.batchTranslation command) := fits _
theorem Sys2Proof.Laws.Encoding.decoupledResultDelivery (request : Nat) : Statement (.decoupledResultDelivery request) := fits _
theorem Sys2Proof.Laws.Encoding.fenceComplete (request : Nat) : Statement (.fenceComplete request) := fits _
theorem Sys2Proof.Laws.Encoding.slewStep (sector : Nat) : Statement (.slewStep sector) := fits _
theorem Sys2Proof.Laws.Encoding.matrixProductComplete (product : Nat) : Statement (.matrixProductComplete product) := fits _
theorem Sys2Proof.Laws.Encoding.copyCommandAccept (sector : Nat) : Statement (.copyCommandAccept sector) := fits _
theorem Sys2Proof.Laws.Encoding.engineBarrierDecrement (command : Nat) : Statement (.engineBarrierDecrement command) := fits _
theorem Sys2Proof.Laws.Encoding.engineRingAdvance (command : Nat) : Statement (.engineRingAdvance command) := fits _
theorem Sys2Proof.Laws.Encoding.engineCompletion (command : Nat) : Statement (.engineCompletion command) := fits _
theorem Sys2Proof.Laws.Encoding.gatherOwnerRequest (command : Nat) : Statement (.gatherOwnerRequest command) := fits _
theorem Sys2Proof.Laws.Encoding.rowReturn (command : Nat) (answer : BitVec 16) : Statement (.rowReturn command answer) := fits _
theorem Sys2Proof.Laws.Encoding.indexLaneToken (command : Nat) (lane : Nat) : Statement (.indexLaneToken command lane) := fits _
theorem Sys2Proof.Laws.Encoding.grammarCommandStart (sector : Nat) : Statement (.grammarCommandStart sector) := fits _
theorem Sys2Proof.Laws.Encoding.grammarCommandComplete (command : Nat) : Statement (.grammarCommandComplete command) := fits _
theorem Sys2Proof.Laws.Encoding.grantRequest (request : Nat) (answer : BitVec 32) : Statement (.grantRequest request answer) := fits _
theorem Sys2Proof.Laws.Encoding.sendDelivery (request : Nat) : Statement (.sendDelivery request) := fits _
theorem Sys2Proof.Laws.Encoding.activation (request : Nat) : Statement (.activation request) := fits _
theorem Sys2Proof.Laws.Encoding.snapshotComplete (request : Nat) : Statement (.snapshotComplete request) := fits _
theorem Sys2Proof.Laws.Encoding.heldUpdateClose (pair : Nat) : Statement (.heldUpdateClose pair) := fits _
theorem Sys2Proof.Laws.Encoding.mirrorUpdate (pair : Nat) : Statement (.mirrorUpdate pair) := fits _
theorem Sys2Proof.Laws.Encoding.parkReserve (inst : Nat) : Statement (.parkReserve inst) := fits _
theorem Sys2Proof.Laws.Encoding.parkRequest (pair : Nat) : Statement (.parkRequest pair) := fits _
theorem Sys2Proof.Laws.Encoding.parkedUpdateWrite (pair : Nat) : Statement (.parkedUpdateWrite pair) := fits _
theorem Sys2Proof.Laws.Encoding.unpark (pair : Nat) : Statement (.unpark pair) := fits _
theorem Sys2Proof.Laws.Encoding.gatingSequence (sector : Nat) : Statement (.gatingSequence sector) := fits _
theorem Sys2Proof.Laws.Encoding.calibTimeout (sector : Nat) : Statement (.calibTimeout sector) := fits _
theorem Sys2Proof.Laws.Encoding.ratioChange (sector : Nat) : Statement (.ratioChange sector) := fits _
theorem Sys2Proof.Laws.Encoding.ratioChangeComplete (sector : Nat) : Statement (.ratioChangeComplete sector) := fits _
theorem Sys2Proof.Laws.Encoding.replayExhausted (port : Nat) : Statement (.replayExhausted port) := fits _
theorem Sys2Proof.Laws.Encoding.responseTimeout (request : Nat) : Statement (.responseTimeout request) := fits _
theorem Sys2Proof.Laws.Encoding.faultRecordWrite (die : Nat) : Statement (.faultRecordWrite die) := fits _
theorem Sys2Proof.Laws.Encoding.faultQueueRetry (die : Nat) : Statement (.faultQueueRetry die) := fits _
theorem Sys2Proof.Laws.Encoding.holdLimitExpiry (die : Nat) (hid : Nat) : Statement (.holdLimitExpiry die hid) := fits _
theorem Sys2Proof.Laws.Encoding.watchdogExpiry (inst : Nat) : Statement (.watchdogExpiry inst) := fits _
theorem Sys2Proof.Laws.Encoding.drainLimitExpiry (inst : Nat) : Statement (.drainLimitExpiry inst) := fits _
theorem Sys2Proof.Laws.Encoding.reductionTimeout (site : RouteSite) : Statement (.reductionTimeout site) := fits _
theorem Sys2Proof.Laws.Encoding.scrubPass (kind : Nat) (place : Nat) (address : Nat) (uncorrectable : Bool) : Statement (.scrubPass kind place address uncorrectable) := fits _
theorem Sys2Proof.Laws.Encoding.cfgNop (sector : Fin 64) (source : LoadSource) (value : BitVec 16) : Statement (.cfgNop sector source value) := fits _
theorem Sys2Proof.Laws.Encoding.cfgBegin (sector : Fin 64) (source : LoadSource) (value : BitVec 16) : Statement (.cfgBegin sector source value) := fits _
theorem Sys2Proof.Laws.Encoding.cfgOrigin (sector : Fin 64) (source : LoadSource) (value : BitVec 16) : Statement (.cfgOrigin sector source value) := fits _
theorem Sys2Proof.Laws.Encoding.cfgBank (sector : Fin 64) (source : LoadSource) (value : BitVec 16) : Statement (.cfgBank sector source value) := fits _
theorem Sys2Proof.Laws.Encoding.cfgSeal (sector : Fin 64) (source : LoadSource) (value : BitVec 16) : Statement (.cfgSeal sector source value) := fits _
theorem Sys2Proof.Laws.Encoding.cfgLit (sector : Fin 64) (source : LoadSource) (value : BitVec 16) : Statement (.cfgLit sector source value) := fits _
theorem Sys2Proof.Laws.Encoding.cfgSwap (sector : Fin 64) (source : LoadSource) (value : BitVec 16) : Statement (.cfgSwap sector source value) := fits _
theorem Sys2Proof.Laws.Encoding.cfgWrite (sector : Fin 64) (source : LoadSource) (cell : BitVec 8) (field : BitVec 8) (value : BitVec 16) : Statement (.cfgWrite sector source cell field value) := fits _
theorem Sys2Proof.Laws.Encoding.xgQpop (die : Fin 4) (rd : BitVec 5) (rs1 : BitVec 5) (rs2 : BitVec 5) : Statement (.xgQpop die rd rs1 rs2) := fits _
theorem Sys2Proof.Laws.Encoding.xgQpeek (die : Fin 4) (rd : BitVec 5) (rs1 : BitVec 5) (rs2 : BitVec 5) : Statement (.xgQpeek die rd rs1 rs2) := fits _
theorem Sys2Proof.Laws.Encoding.xgRpush (die : Fin 4) (rd : BitVec 5) (rs1 : BitVec 5) (rs2 : BitVec 5) : Statement (.xgRpush die rd rs1 rs2) := fits _
theorem Sys2Proof.Laws.Encoding.xgGsetRead (die : Fin 4) (rd : BitVec 5) (rs1 : BitVec 5) (rs2 : BitVec 5) : Statement (.xgGsetRead die rd rs1 rs2) := fits _
theorem Sys2Proof.Laws.Encoding.xgGsetSetexp (die : Fin 4) (rd : BitVec 5) (rs1 : BitVec 5) (rs2 : BitVec 5) : Statement (.xgGsetSetexp die rd rs1 rs2) := fits _
theorem Sys2Proof.Laws.Encoding.xgGsetSetbase (die : Fin 4) (rd : BitVec 5) (rs1 : BitVec 5) (rs2 : BitVec 5) : Statement (.xgGsetSetbase die rd rs1 rs2) := fits _
theorem Sys2Proof.Laws.Encoding.xgGsetOpen (die : Fin 4) (rd : BitVec 5) (rs1 : BitVec 5) (rs2 : BitVec 5) : Statement (.xgGsetOpen die rd rs1 rs2) := fits _
theorem Sys2Proof.Laws.Encoding.xgGsetClose (die : Fin 4) (rd : BitVec 5) (rs1 : BitVec 5) (rs2 : BitVec 5) : Statement (.xgGsetClose die rd rs1 rs2) := fits _
theorem Sys2Proof.Laws.Encoding.xgTlnch (die : Fin 4) (rd : BitVec 5) (rs1 : BitVec 5) (rs2 : BitVec 5) : Statement (.xgTlnch die rd rs1 rs2) := fits _
theorem Sys2Proof.Laws.Encoding.xgCfgw (die : Fin 4) (rd : BitVec 5) (rs1 : BitVec 5) (rs2 : BitVec 5) : Statement (.xgCfgw die rd rs1 rs2) := fits _
theorem Sys2Proof.Laws.Encoding.xgWfe (die : Fin 4) (rd : BitVec 5) (rs1 : BitVec 5) (rs2 : BitVec 5) : Statement (.xgWfe die rd rs1 rs2) := fits _
theorem Sys2Proof.Laws.Encoding.xgWfeTimeout (die : Fin 4) (rd : BitVec 5) (rs1 : BitVec 5) (rs2 : BitVec 5) : Statement (.xgWfeTimeout die rd rs1 rs2) := fits _
theorem Sys2Proof.Laws.Encoding.xgEvsig (die : Fin 4) (rd : BitVec 5) (rs1 : BitVec 5) (rs2 : BitVec 5) : Statement (.xgEvsig die rd rs1 rs2) := fits _
theorem Sys2Proof.Laws.Encoding.route (site : RouteSite) (f : RouteFields) : Statement (.route site f) := fits _
theorem Sys2Proof.Laws.Encoding.fork (site : RouteSite) (f : RouteFields) : Statement (.fork site f) := fits _
theorem Sys2Proof.Laws.Encoding.steer (site : RouteSite) (f : RouteFields) : Statement (.steer site f) := fits _
theorem Sys2Proof.Laws.Encoding.merge (site : RouteSite) (f : RouteFields) : Statement (.merge site f) := fits _
theorem Sys2Proof.Laws.Encoding.carry (site : RouteSite) (f : RouteFields) : Statement (.carry site f) := fits _
theorem Sys2Proof.Laws.Encoding.invar (site : RouteSite) (f : RouteFields) : Statement (.invar site f) := fits _
theorem Sys2Proof.Laws.Encoding.join (site : RouteSite) (f : RouteFields) : Statement (.join site f) := fits _
theorem Sys2Proof.Laws.Encoding.drop (site : RouteSite) (f : RouteFields) : Statement (.drop site f) := fits _
theorem Sys2Proof.Laws.Encoding.comb (site : RouteSite) (f : RouteFields) : Statement (.comb site f) := fits _
theorem Sys2Proof.Laws.Encoding.part (site : RouteSite) (f : RouteFields) : Statement (.part site f) := fits _
theorem Sys2Proof.Laws.Encoding.add (site : Site) (f : OpFields) : Statement (.add site f) := fits _
theorem Sys2Proof.Laws.Encoding.sub (site : Site) (f : OpFields) : Statement (.sub site f) := fits _
theorem Sys2Proof.Laws.Encoding.mul (site : Site) (f : OpFields) : Statement (.mul site f) := fits _
theorem Sys2Proof.Laws.Encoding.mulh (site : Site) (f : OpFields) : Statement (.mulh site f) := fits _
theorem Sys2Proof.Laws.Encoding.mad (site : Site) (f : OpFields) : Statement (.mad site f) := fits _
theorem Sys2Proof.Laws.Encoding.div (site : Site) (f : OpFields) : Statement (.div site f) := fits _
theorem Sys2Proof.Laws.Encoding.rem (site : Site) (f : OpFields) : Statement (.rem site f) := fits _
theorem Sys2Proof.Laws.Encoding.min (site : Site) (f : OpFields) : Statement (.min site f) := fits _
theorem Sys2Proof.Laws.Encoding.max (site : Site) (f : OpFields) : Statement (.max site f) := fits _
theorem Sys2Proof.Laws.Encoding.abs (site : Site) (f : OpFields) : Statement (.abs site f) := fits _
theorem Sys2Proof.Laws.Encoding.and (site : Site) (f : OpFields) : Statement (.and site f) := fits _
theorem Sys2Proof.Laws.Encoding.or (site : Site) (f : OpFields) : Statement (.or site f) := fits _
theorem Sys2Proof.Laws.Encoding.xor (site : Site) (f : OpFields) : Statement (.xor site f) := fits _
theorem Sys2Proof.Laws.Encoding.andn (site : Site) (f : OpFields) : Statement (.andn site f) := fits _
theorem Sys2Proof.Laws.Encoding.shl (site : Site) (f : OpFields) : Statement (.shl site f) := fits _
theorem Sys2Proof.Laws.Encoding.shr (site : Site) (f : OpFields) : Statement (.shr site f) := fits _
theorem Sys2Proof.Laws.Encoding.rot (site : Site) (f : OpFields) : Statement (.rot site f) := fits _
theorem Sys2Proof.Laws.Encoding.clz (site : Site) (f : OpFields) : Statement (.clz site f) := fits _
theorem Sys2Proof.Laws.Encoding.ffs (site : Site) (f : OpFields) : Statement (.ffs site f) := fits _
theorem Sys2Proof.Laws.Encoding.popc (site : Site) (f : OpFields) : Statement (.popc site f) := fits _
theorem Sys2Proof.Laws.Encoding.brev (site : Site) (f : OpFields) : Statement (.brev site f) := fits _
theorem Sys2Proof.Laws.Encoding.bfx (site : Site) (f : OpFields) : Statement (.bfx site f) := fits _
theorem Sys2Proof.Laws.Encoding.bfi (site : Site) (f : OpFields) : Statement (.bfi site f) := fits _
theorem Sys2Proof.Laws.Encoding.sel (site : Site) (f : OpFields) : Statement (.sel site f) := fits _
theorem Sys2Proof.Laws.Encoding.cmp (site : Site) (f : OpFields) : Statement (.cmp site f) := fits _
theorem Sys2Proof.Laws.Encoding.avg (site : Site) (f : OpFields) : Statement (.avg site f) := fits _
theorem Sys2Proof.Laws.Encoding.absd (site : Site) (f : OpFields) : Statement (.absd site f) := fits _
theorem Sys2Proof.Laws.Encoding.sad (site : Site) (f : OpFields) : Statement (.sad site f) := fits _
theorem Sys2Proof.Laws.Encoding.dot4 (site : Site) (f : OpFields) : Statement (.dot4 site f) := fits _
theorem Sys2Proof.Laws.Encoding.addsh (site : Site) (f : OpFields) : Statement (.addsh site f) := fits _
theorem Sys2Proof.Laws.Encoding.move (site : Site) (f : OpFields) : Statement (.move site f) := fits _
theorem Sys2Proof.Laws.Encoding.pack (site : Site) (f : OpFields) : Statement (.pack site f) := fits _
theorem Sys2Proof.Laws.Encoding.fadd (site : Site) (f : OpFields) : Statement (.fadd site f) := fits _
theorem Sys2Proof.Laws.Encoding.fsub (site : Site) (f : OpFields) : Statement (.fsub site f) := fits _
theorem Sys2Proof.Laws.Encoding.fmul (site : Site) (f : OpFields) : Statement (.fmul site f) := fits _
theorem Sys2Proof.Laws.Encoding.fma (site : Site) (f : OpFields) : Statement (.fma site f) := fits _
theorem Sys2Proof.Laws.Encoding.fms (site : Site) (f : OpFields) : Statement (.fms site f) := fits _
theorem Sys2Proof.Laws.Encoding.fnma (site : Site) (f : OpFields) : Statement (.fnma site f) := fits _
theorem Sys2Proof.Laws.Encoding.fmin (site : Site) (f : OpFields) : Statement (.fmin site f) := fits _
theorem Sys2Proof.Laws.Encoding.fmax (site : Site) (f : OpFields) : Statement (.fmax site f) := fits _
theorem Sys2Proof.Laws.Encoding.fabs (site : Site) (f : OpFields) : Statement (.fabs site f) := fits _
theorem Sys2Proof.Laws.Encoding.fneg (site : Site) (f : OpFields) : Statement (.fneg site f) := fits _
theorem Sys2Proof.Laws.Encoding.fcmp (site : Site) (f : OpFields) : Statement (.fcmp site f) := fits _
theorem Sys2Proof.Laws.Encoding.fclass (site : Site) (f : OpFields) : Statement (.fclass site f) := fits _
theorem Sys2Proof.Laws.Encoding.fdiv (site : Site) (f : OpFields) : Statement (.fdiv site f) := fits _
theorem Sys2Proof.Laws.Encoding.fsqrt (site : Site) (f : OpFields) : Statement (.fsqrt site f) := fits _
theorem Sys2Proof.Laws.Encoding.frcpa (site : Site) (f : OpFields) : Statement (.frcpa site f) := fits _
theorem Sys2Proof.Laws.Encoding.frsqa (site : Site) (f : OpFields) : Statement (.frsqa site f) := fits _
theorem Sys2Proof.Laws.Encoding.fexp2a (site : Site) (f : OpFields) : Statement (.fexp2a site f) := fits _
theorem Sys2Proof.Laws.Encoding.flog2a (site : Site) (f : OpFields) : Statement (.flog2a site f) := fits _
theorem Sys2Proof.Laws.Encoding.fsinpi (site : Site) (f : OpFields) : Statement (.fsinpi site f) := fits _
theorem Sys2Proof.Laws.Encoding.fcospi (site : Site) (f : OpFields) : Statement (.fcospi site f) := fits _
theorem Sys2Proof.Laws.Encoding.ftanha (site : Site) (f : OpFields) : Statement (.ftanha site f) := fits _
theorem Sys2Proof.Laws.Encoding.fsiga (site : Site) (f : OpFields) : Statement (.fsiga site f) := fits _
theorem Sys2Proof.Laws.Encoding.cvt (site : Site) (f : OpFields) : Statement (.cvt site f) := fits _
theorem Sys2Proof.Laws.Encoding.cvts (site : Site) (f : OpFields) : Statement (.cvts site f) := fits _
theorem Sys2Proof.Laws.Encoding.frnd (site : Site) (f : OpFields) : Statement (.frnd site f) := fits _
theorem Sys2Proof.Laws.Encoding.fscale (site : Site) (f : OpFields) : Statement (.fscale site f) := fits _
theorem Sys2Proof.Laws.Encoding.fdot2 (site : Site) (f : OpFields) : Statement (.fdot2 site f) := fits _
theorem Sys2Proof.Laws.Encoding.fhadd (site : Site) (f : OpFields) : Statement (.fhadd site f) := fits _
theorem Sys2Proof.Laws.Encoding.fclamp (site : Site) (f : OpFields) : Statement (.fclamp site f) := fits _
theorem Sys2Proof.Laws.Encoding.flerp (site : Site) (f : OpFields) : Statement (.flerp site f) := fits _
theorem Sys2Proof.Laws.Encoding.qenc (site : Site) (f : OpFields) : Statement (.qenc site f) := fits _
theorem Sys2Proof.Laws.Encoding.qdec (site : Site) (f : OpFields) : Statement (.qdec site f) := fits _
theorem Sys2Proof.Laws.Encoding.q8enc (site : Site) (f : OpFields) : Statement (.q8enc site f) := fits _
theorem Sys2Proof.Laws.Encoding.q8dec (site : Site) (f : OpFields) : Statement (.q8dec site f) := fits _
theorem Sys2Proof.Laws.Encoding.amax (site : Site) (f : OpFields) : Statement (.amax site f) := fits _
theorem Sys2Proof.Laws.Encoding.qscale (site : Site) (f : OpFields) : Statement (.qscale site f) := fits _
theorem Sys2Proof.Laws.Encoding.zcnt (site : Site) (f : OpFields) : Statement (.zcnt site f) := fits _
theorem Sys2Proof.Laws.Encoding.zmask (site : Site) (f : OpFields) : Statement (.zmask site f) := fits _
theorem Sys2Proof.Laws.Encoding.lanex (site : Site) (f : OpFields) : Statement (.lanex site f) := fits _
theorem Sys2Proof.Laws.Encoding.lanei (site : Site) (f : OpFields) : Statement (.lanei site f) := fits _
theorem Sys2Proof.Laws.Encoding.splat (site : Site) (f : OpFields) : Statement (.splat site f) := fits _
theorem Sys2Proof.Laws.Encoding.widen (site : Site) (f : OpFields) : Statement (.widen site f) := fits _
theorem Sys2Proof.Laws.Encoding.narrow (site : Site) (f : OpFields) : Statement (.narrow site f) := fits _
theorem Sys2Proof.Laws.Encoding.shuf (site : Site) (f : OpFields) : Statement (.shuf site f) := fits _
theorem Sys2Proof.Laws.Encoding.ldh (site : Site) (f : OpFields) : Statement (.ldh site f) := fits _
theorem Sys2Proof.Laws.Encoding.sth (site : Site) (f : OpFields) : Statement (.sth site f) := fits _
theorem Sys2Proof.Laws.Encoding.lds (site : Site) (f : OpFields) : Statement (.lds site f) := fits _
theorem Sys2Proof.Laws.Encoding.sts (site : Site) (f : OpFields) : Statement (.sts site f) := fits _
theorem Sys2Proof.Laws.Encoding.ldr (site : Site) (f : OpFields) : Statement (.ldr site f) := fits _
theorem Sys2Proof.Laws.Encoding.str (site : Site) (f : OpFields) : Statement (.str site f) := fits _
theorem Sys2Proof.Laws.Encoding.ldg (site : Site) (f : OpFields) : Statement (.ldg site f) := fits _
theorem Sys2Proof.Laws.Encoding.stg (site : Site) (f : OpFields) : Statement (.stg site f) := fits _
theorem Sys2Proof.Laws.Encoding.pfg (site : Site) (f : OpFields) : Statement (.pfg site f) := fits _
theorem Sys2Proof.Laws.Encoding.atomh (site : Site) (f : OpFields) : Statement (.atomh site f) := fits _
theorem Sys2Proof.Laws.Encoding.cash (site : Site) (f : OpFields) : Statement (.cash site f) := fits _
theorem Sys2Proof.Laws.Encoding.atomr (site : Site) (f : OpFields) : Statement (.atomr site f) := fits _
theorem Sys2Proof.Laws.Encoding.casr (site : Site) (f : OpFields) : Statement (.casr site f) := fits _
theorem Sys2Proof.Laws.Encoding.atomg (site : Site) (f : OpFields) : Statement (.atomg site f) := fits _
theorem Sys2Proof.Laws.Encoding.casg (site : Site) (f : OpFields) : Statement (.casg site f) := fits _
theorem Sys2Proof.Laws.Encoding.fence (site : Site) (f : OpFields) : Statement (.fence site f) := fits _
theorem Sys2Proof.Laws.Encoding.hseek (site : Site) (f : OpFields) : Statement (.hseek site f) := fits _
theorem Sys2Proof.Laws.Encoding.htell (site : Site) (f : OpFields) : Statement (.htell site f) := fits _
theorem Sys2Proof.Laws.Encoding.ldx (site : Site) (f : OpFields) : Statement (.ldx site f) := fits _
theorem Sys2Proof.Laws.Encoding.stx (site : Site) (f : OpFields) : Statement (.stx site f) := fits _
theorem Sys2Proof.Laws.Encoding.gen (site : Site) (f : OpFields) : Statement (.gen site f) := fits _
theorem Sys2Proof.Laws.Encoding.gen2 (site : Site) (f : OpFields) : Statement (.gen2 site f) := fits _
theorem Sys2Proof.Laws.Encoding.cnt (site : Site) (f : OpFields) : Statement (.cnt site f) := fits _
theorem Sys2Proof.Laws.Encoding.acc (site : Site) (f : OpFields) : Statement (.acc site f) := fits _
theorem Sys2Proof.Laws.Encoding.scan (site : Site) (f : OpFields) : Statement (.scan site f) := fits _
theorem Sys2Proof.Laws.Encoding.filt (site : Site) (f : OpFields) : Statement (.filt site f) := fits _
theorem Sys2Proof.Laws.Encoding.take (site : Site) (f : OpFields) : Statement (.take site f) := fits _
theorem Sys2Proof.Laws.Encoding.skip (site : Site) (f : OpFields) : Statement (.skip site f) := fits _
theorem Sys2Proof.Laws.Encoding.rept (site : Site) (f : OpFields) : Statement (.rept site f) := fits _
theorem Sys2Proof.Laws.Encoding.mklast (site : Site) (f : OpFields) : Statement (.mklast site f) := fits _
theorem Sys2Proof.Laws.Encoding.done (site : Site) (f : OpFields) : Statement (.done site f) := fits _
theorem Sys2Proof.Laws.Encoding.waitd (site : Site) (f : OpFields) : Statement (.waitd site f) := fits _
theorem Sys2Proof.Laws.Encoding.iter (site : Site) (f : OpFields) : Statement (.iter site f) := fits _
theorem Sys2Proof.Laws.Encoding.trig (site : Site) (f : OpFields) : Statement (.trig site f) := fits _
theorem Sys2Proof.Laws.Encoding.mm (site : Site) (f : OpFields) : Statement (.mm site f) := fits _
theorem Sys2Proof.Laws.Encoding.mmb (site : Site) (f : OpFields) : Statement (.mmb site f) := fits _
theorem Sys2Proof.Laws.Encoding.mmg (site : Site) (f : OpFields) : Statement (.mmg site f) := fits _
theorem Sys2Proof.Laws.Encoding.mmo (site : Site) (f : OpFields) : Statement (.mmo site f) := fits _
theorem Sys2Proof.Laws.Encoding.accz (site : Site) (f : OpFields) : Statement (.accz site f) := fits _
theorem Sys2Proof.Laws.Encoding.accrd (site : Site) (f : OpFields) : Statement (.accrd site f) := fits _
theorem Sys2Proof.Laws.Encoding.accst (site : Site) (f : OpFields) : Statement (.accst site f) := fits _
theorem Sys2Proof.Laws.Encoding.accld (site : Site) (f : OpFields) : Statement (.accld site f) := fits _
theorem Sys2Proof.Laws.Encoding.gspmv (site : Site) (f : OpFields) : Statement (.gspmv site f) := fits _
theorem Sys2Proof.Laws.Encoding.gsload (site : Site) (f : OpFields) : Statement (.gsload site f) := fits _
theorem Sys2Proof.Laws.Encoding.gsread (site : Site) (f : OpFields) : Statement (.gsread site f) := fits _
theorem Sys2Proof.Laws.Encoding.gsclr (site : Site) (f : OpFields) : Statement (.gsclr site f) := fits _
theorem Sys2Proof.Laws.Encoding.redp (site : Site) (f : OpFields) : Statement (.redp site f) := fits _
theorem Sys2Proof.Laws.Encoding.redw (site : Site) (f : OpFields) : Statement (.redw site f) := fits _
theorem Sys2Proof.Laws.Encoding.copy (site : Site) (f : OpFields) : Statement (.copy site f) := fits _
theorem Sys2Proof.Laws.Encoding.copyw (site : Site) (f : OpFields) : Statement (.copyw site f) := fits _
theorem Sys2Proof.Laws.Encoding.gath (site : Site) (f : OpFields) : Statement (.gath site f) := fits _
theorem Sys2Proof.Laws.Encoding.scat (site : Site) (f : OpFields) : Statement (.scat site f) := fits _
theorem Sys2Proof.Laws.Encoding.embr (site : Site) (f : OpFields) : Statement (.embr site f) := fits _
theorem Sys2Proof.Laws.Encoding.subscribe (site : Site) (f : OpFields) : Statement (.subscribe site f) := fits _
theorem Sys2Proof.Laws.Encoding.unsub (site : Site) (f : OpFields) : Statement (.unsub site f) := fits _
theorem Sys2Proof.Laws.Encoding.sflush (site : Site) (f : OpFields) : Statement (.sflush site f) := fits _
theorem Sys2Proof.Laws.Encoding.bari (site : Site) (f : OpFields) : Statement (.bari site f) := fits _
theorem Sys2Proof.Laws.Encoding.bara (site : Site) (f : OpFields) : Statement (.bara site f) := fits _
theorem Sys2Proof.Laws.Encoding.barw (site : Site) (f : OpFields) : Statement (.barw site f) := fits _
theorem Sys2Proof.Laws.Encoding.ringi (site : Site) (f : OpFields) : Statement (.ringi site f) := fits _
theorem Sys2Proof.Laws.Encoding.ringf (site : Site) (f : OpFields) : Statement (.ringf site f) := fits _
theorem Sys2Proof.Laws.Encoding.ringfP (site : Site) (f : OpFields) : Statement (.ringfP site f) := fits _
theorem Sys2Proof.Laws.Encoding.ringr (site : Site) (f : OpFields) : Statement (.ringr site f) := fits _
theorem Sys2Proof.Laws.Encoding.ringrP (site : Site) (f : OpFields) : Statement (.ringrP site f) := fits _
theorem Sys2Proof.Laws.Encoding.tenq (site : Site) (f : OpFields) : Statement (.tenq site f) := fits _
theorem Sys2Proof.Laws.Encoding.tlnch (site : Site) (f : OpFields) : Statement (.tlnch site f) := fits _
theorem Sys2Proof.Laws.Encoding.send (site : Site) (f : OpFields) : Statement (.send site f) := fits _
theorem Sys2Proof.Laws.Encoding.rgreq (site : Site) (f : OpFields) : Statement (.rgreq site f) := fits _
theorem Sys2Proof.Laws.Encoding.lqpush (site : Site) (f : OpFields) : Statement (.lqpush site f) := fits _
theorem Sys2Proof.Laws.Encoding.rrpop (site : Site) (f : OpFields) : Statement (.rrpop site f) := fits _
theorem Sys2Proof.Laws.Encoding.nop (site : Site) (f : OpFields) : Statement (.nop site f) := fits _
theorem Sys2Proof.Laws.Encoding.sreg (site : Site) (f : OpFields) : Statement (.sreg site f) := fits _
theorem Sys2Proof.Laws.Encoding.swreg (site : Site) (f : OpFields) : Statement (.swreg site f) := fits _
theorem Sys2Proof.Laws.Encoding.trap (site : Site) (f : OpFields) : Statement (.trap site f) := fits _
theorem Sys2Proof.Laws.Encoding.brk (site : Site) (f : OpFields) : Statement (.brk site f) := fits _
theorem Sys2Proof.Laws.Encoding.yield (site : Site) (f : OpFields) : Statement (.yield site f) := fits _
theorem Sys2Proof.Laws.Encoding.exit (site : Site) (f : OpFields) : Statement (.exit site f) := fits _
theorem Sys2Proof.Laws.Encoding.assert (site : Site) (f : OpFields) : Statement (.assert site f) := fits _
theorem Sys2Proof.Laws.Encoding.clock (site : Site) (f : OpFields) : Statement (.clock site f) := fits _
theorem Sys2Proof.Laws.Encoding.perf (site : Site) (f : OpFields) : Statement (.perf site f) := fits _
theorem Sys2Proof.Laws.Encoding.swapreq (site : Site) (f : OpFields) : Statement (.swapreq site f) := fits _
theorem Sys2Proof.Laws.Encoding.poison (site : Site) (f : OpFields) : Statement (.poison site f) := fits _
theorem Sys2Proof.Laws.Encoding.deviceReset : Statement .deviceReset := fits _
theorem Sys2Proof.Laws.Encoding.doorbellWrite : Statement .doorbellWrite := fits _
theorem Sys2Proof.Laws.Encoding.queueTableWrite : Statement .queueTableWrite := fits _
theorem Sys2Proof.Laws.Encoding.registerWrite : Statement .registerWrite := fits _
theorem Sys2Proof.Laws.Encoding.xlinvGranule : Statement .xlinvGranule := fits _
theorem Sys2Proof.Laws.Encoding.xlinvAll : Statement .xlinvAll := fits _
theorem Sys2Proof.Laws.Encoding.hostHbmAccess : Statement .hostHbmAccess := fits _
theorem Sys2Proof.Laws.Encoding.peerLaunchRequest : Statement .peerLaunchRequest := fits _
theorem Sys2Proof.Laws.Encoding.sectorOutOfServiceRequest : Statement .sectorOutOfServiceRequest := fits _
theorem Sys2Proof.Laws.Encoding.sectorReturnRequest : Statement .sectorReturnRequest := fits _
theorem Sys2Proof.Laws.Encoding.calibComplete : Statement .calibComplete := fits _
theorem Sys2Proof.Laws.Encoding.ratioRequest : Statement .ratioRequest := fits _
theorem Sys2Proof.Laws.Encoding.meterInterval : Statement .meterInterval := fits _
theorem Sys2Proof.Laws.Encoding.almanacUpdate : Statement .almanacUpdate := fits _
theorem Sys2Proof.Laws.Encoding.powerMonitorSample : Statement .powerMonitorSample := fits _
theorem Sys2Proof.Laws.Encoding.sensorOvertemp : Statement .sensorOvertemp := fits _
theorem Sys2Proof.Laws.Encoding.converterFault : Statement .converterFault := fits _
theorem Sys2Proof.Laws.Encoding.powerBrakeAssert : Statement .powerBrakeAssert := fits _
theorem Sys2Proof.Laws.Encoding.powerBrakeRelease : Statement .powerBrakeRelease := fits _
theorem Sys2Proof.Laws.Encoding.wmaxWrite : Statement .wmaxWrite := fits _
theorem Sys2Proof.Laws.Encoding.laneError : Statement .laneError := fits _
theorem Sys2Proof.Laws.Encoding.retrainComplete : Statement .retrainComplete := fits _
theorem Sys2Proof.Laws.Encoding.widthRegainTest : Statement .widthRegainTest := fits _
theorem Sys2Proof.Laws.Encoding.flitReceive : Statement .flitReceive := fits _
theorem Sys2Proof.Laws.Encoding.nakReceive : Statement .nakReceive := fits _
theorem Sys2Proof.Laws.Encoding.idleReceive : Statement .idleReceive := fits _
theorem Sys2Proof.Laws.Encoding.widthFlitReceive : Statement .widthFlitReceive := fits _
theorem Sys2Proof.Laws.Encoding.fnoteRead : Statement .fnoteRead := fits _
theorem Sys2Proof.Laws.Encoding.factResume : Statement .factResume := fits _
theorem Sys2Proof.Laws.Encoding.factSubst : Statement .factSubst := fits _
theorem Sys2Proof.Laws.Encoding.factPreempt : Statement .factPreempt := fits _
theorem Sys2Proof.Laws.Encoding.factAbort : Statement .factAbort := fits _
theorem Sys2Proof.Laws.Encoding.factFrameResume : Statement .factFrameResume := fits _
theorem Sys2Proof.Laws.Encoding.factFrameSubst : Statement .factFrameSubst := fits _
theorem Sys2Proof.Laws.Encoding.factFrameAbort : Statement .factFrameAbort := fits _
theorem Sys2Proof.Laws.Encoding.factFramePreempt : Statement .factFramePreempt := fits _
theorem Sys2Proof.Laws.Encoding.firmwareHandover : Statement .firmwareHandover := fits _
theorem Sys2Proof.Laws.Encoding.activateTimeout : Statement .activateTimeout := fits _
theorem Sys2Proof.Laws.Encoding.frzNAssert : Statement .frzNAssert := fits _
theorem Sys2Proof.Laws.Encoding.frzNRelease : Statement .frzNRelease := fits _
theorem Sys2Proof.Laws.Encoding.proctorFreezeRequest : Statement .proctorFreezeRequest := fits _
theorem Sys2Proof.Laws.Encoding.frzrel : Statement .frzrel := fits _
theorem Sys2Proof.Laws.Encoding.tapReadout : Statement .tapReadout := fits _
theorem Sys2Proof.Laws.Encoding.getVersion : Statement .getVersion := fits _
theorem Sys2Proof.Laws.Encoding.getCapabilities : Statement .getCapabilities := fits _
theorem Sys2Proof.Laws.Encoding.negotiateAlgorithms : Statement .negotiateAlgorithms := fits _
theorem Sys2Proof.Laws.Encoding.getDigests : Statement .getDigests := fits _
theorem Sys2Proof.Laws.Encoding.getCertificate : Statement .getCertificate := fits _
theorem Sys2Proof.Laws.Encoding.challenge : Statement .challenge := fits _
theorem Sys2Proof.Laws.Encoding.getMeasurements : Statement .getMeasurements := fits _
theorem Sys2Proof.Laws.Encoding.stage : Statement .stage := fits _
theorem Sys2Proof.Laws.Encoding.activate : Statement .activate := fits _
theorem Sys2Proof.Laws.Encoding.status : Statement .status := fits _
theorem Sys2Proof.Laws.Encoding.thermcfg : Statement .thermcfg := fits _
theorem Sys2Proof.Laws.Encoding.time : Statement .time := fits _
theorem Sys2Proof.Laws.Encoding.freeze : Statement .freeze := fits _
theorem Sys2Proof.Laws.Encoding.portEnable : Statement .portEnable := fits _
theorem Sys2Proof.Laws.Encoding.trainingComplete : Statement .trainingComplete := fits _
theorem Sys2Proof.Laws.Encoding.peerPortDown : Statement .peerPortDown := fits _
end

