-- ==== Sys2Proof/Laws/Shared.lean ====
section
/-! SUPPORT. Sys2Proof/Laws/Shared.lean: what the shared operations can do, said once: the firing of a slot, the step of a route entry,
the arrival of a control command, the handler's actions, a suppressed firing. -/
namespace Sys2Proof.Laws
open Sys2Proof Sys2Proof.Machine

variable {s t : State} {opc : Nat} {site : Site} {f : OpFields}
  {pre : State → Firing → Option FireFault} {act : State → Firing → State}

/-- A slot that fires, without a fault of its operator's own, acts. -/
theorem fire_of_fires {F : Firing} {s1 : State} (h : Fires s opc site f F s1) (hp : pre s1 F = none) :
    s.fire opc site f pre act = .next (act s1 F) := by
  obtain ⟨hr, i, fd, hi, hf, ho⟩ := h
  simp only [State.fire, hr, hi, hf, ho, hp, if_true]

/-- A firing has three outcomes: nothing, a taken fault, or the operator's act. -/
theorem fire_cases (h : s.fire opc site f pre act = .next t) :
    t = s ∨ (∃ i e, s.instAt site.cell.val = some i ∧ t = s.fireFault i site.cell.val site.slot.val e) ∨
      ∃ F s1, Fires s opc site f F s1 ∧ pre s1 F = none ∧ t = act s1 F := by
  simp only [State.fire] at h
  split at h
  · rename_i hr
    split at h
    · exact .inl (by cases h; rfl)
    · rename_i i hi
      split at h
      · exact .inl (by cases h; rfl)
      · rename_i fd hf
        split at h
        · rename_i e he
          exact .inr (.inl ⟨i, e, hi, by cases h; rfl⟩)
        · rename_i F s1 ho
          split at h
          · rename_i e he
            exact .inr (.inl ⟨i, e, hi, by cases h; rfl⟩)
          · rename_i hp
            exact .inr (.inr ⟨F, s1, ⟨hr, i, fd, hi, hf, ho⟩, hp, by cases h; rfl⟩)
  · exact .inl (by cases h; rfl)

/-- A firing always answers a next state. -/
theorem fire_proceeds : Proceeds (s.fire opc site f pre act) := by
  simp only [Proceeds, State.fire]
  repeat' split
  all_goals exact ⟨_, rfl⟩

/-- A computing operator that fires sends what its function computes. -/
theorem fireAlu_of_fires {alu : AluFn} {lat : Nat} {F : Firing} {s1 : State} (h : Fires s opc site f F s1) :
    s.fireAlu opc alu lat site f = .next ((s1.begin F).compute F lat (alu f F.a F.b F.c)) :=
  fire_of_fires h rfl

/-- A firing of kind DATA or LAST is not suppressed. -/
theorem unlessSuppressed_works {F : Firing} {g : State → State} (h : F.works = true) : s.unlessSuppressed F g = g (s.begin F) := by
  unfold State.unlessSuppressed
  unfold Firing.works at h
  cases hk : F.kind <;> simp_all

/-- A step of a route entry has five outcomes: nothing, a version fault, a shape fault, a wait, or its step. -/
theorem routeStep_cases {site : RouteSite} {reads : List (Nat × Nat)} {g : RouteState → RouteStep} (h : s.routeStep site reads g = .next t) :
    t = s ∨ (∃ i c d0 d1, s.instAt site.cell.val = some i ∧ t = s.routeFault i site.cell.val site.entry.val c d0 d1) ∨
      ∃ i o, s.instAt site.cell.val = some i ∧ g ((s.cell site.cell.val).route site.entry.val) = .step o ∧
        o.send.all (fun x => s.hasCredit site.cell.val x.1) = true := by
  simp only [State.routeStep] at h
  split at h
  · exact .inl ((by injection h with h; exact h.symm))
  · rename_i i hi
    split at h
    · exact .inl ((by injection h with h; exact h.symm))
    · split at h
      · exact .inr (.inl ⟨i, _, _, _, hi, (by injection h with h; exact h.symm)⟩)
      · split at h
        · exact .inl ((by injection h with h; exact h.symm))
        · exact .inr (.inl ⟨i, _, _, _, hi, (by injection h with h; exact h.symm)⟩)
        · rename_i o ho
          split at h
          · rename_i hc
            exact .inr (.inr ⟨i, o, hi, ho, hc⟩)
          · exact .inl ((by injection h with h; exact h.symm))

/-- A route entry's step always answers a next state. -/
theorem routeStep_proceeds {site : RouteSite} {reads : List (Nat × Nat)} {g : RouteState → RouteStep} : Proceeds (s.routeStep site reads g) := by
  simp only [Proceeds, State.routeStep]
  repeat' split
  all_goals exact ⟨_, rfl⟩

/-- An accepted control command that no LIT precedes runs. -/
theorem runControl_accepted {k field value : Nat} {src : LoadSource} {g : State → LoadAnswer}
    (ha : s.loaderTakes k src (s.isBegin k src 0xFE field) = true) (hl : s.isLit k src = false) :
    s.runControl k src field value g = .next ((g s).sent k src) := by
  simp only [State.runControl, ha, hl]
  rfl

/-- A handler action with FRM = 0 acts on the hold it names. -/
theorem factHold_acts {d hid : Nat} {g : Hold → State} {h : Hold} (hh : s.hold d hid = some h) : s.factHold d hid g = g h := by
  simp [State.factHold, hh]

/-- A handler action with FRM = 0 on no hold gives BADID. -/
theorem factHold_none {d hid : Nat} {g : Hold → State} (hh : s.hold d hid = none) : s.factHold d hid g = s.factDo d 2 := by
  simp [State.factHold, hh]

/-- A FACT write to a die where none waits and no action is under way is performed at once. -/
theorem writeFact_idle {d : Nat} {v : BitVec 64} (hb : (s.dieAt d).factBusy = none) (hq : (s.dieAt d).factQueue = [])
    (hu : ∀ g : Die → Die, (s.updDie d g).dieAt d = g (s.dieAt d))
    (he : (s.updDie d (fun t => { t with factQueue := t.factQueue ++ [v] })).factEarly d v = false) :
    s.writeFact d v = ((s.updDie d (fun t => { t with factQueue := t.factQueue ++ [v] })).updDie d (fun t => { t with factQueue := [] })).factAct d
      (v.setWidth 512) := by
  simp [State.writeFact, State.pumpFact, hu, hb, hq, he]

/-- A step runs the instruction its turn's agent takes. -/
theorem step_run {i : Instr} {u : State} (h : (s.nextTurn.2.advance s.nextTurn.1).take s.nextTurn.1.agent = .run i u) : step s = exec i u := by
  simp [step, h, runTaken]

end Sys2Proof.Laws
end

