-- ==== Sys2Proof/Tests/Slice0.lean ====
section
/-! SUPPORT. Sys2Proof/Tests/Slice0.lean: words of every family written out from their encodings, an ill-formed term for each check,
small results worked out from the spec, and for each statement with hypotheses a state that meets them. -/
set_option maxRecDepth 100000

namespace Sys2Proof.Tests
open Sys2Proof Sys2Proof.Machine

/-! Decoding: words written out field by field from R173, R175, R177, R181, R65, R66 and R313. -/

/-- OPC, TY, MOD, SA, SB, SC, DST, IMM of R173 at bits 63:56, 55:52, 51:48, 47:40, 39:32, 31:24, 23:16, 15:0: one word of each operator family. -/
theorem test_operator_words :
    -- sub.i16x2 g1, #7 -> g0
    decodeOperator ⟨0, 0⟩ 0x0120_41E2_FF40_0007 = .ok (.sub ⟨0, 0⟩ ⟨.i16x2, 0, .reg 1, .imm, .none, .reg 0, 7⟩) ∧
    -- fma.f32 i0, ~i1, k2 -> h3
    decodeOperator ⟨0, 0⟩ 0x2380_0021_82C3_0000 = .ok (.fma ⟨0, 0⟩ ⟨.f32, 0, .chan 0, .peek 1, .konst 2, .handle 3, 0⟩) ∧
    -- widen.i8x4 h4 -> o31
    decodeOperator ⟨0, 0⟩ 0x4B40_C4FF_FF1F_0000 = .ok (.widen ⟨0, 0⟩ ⟨.i8x4, 0, .handle 4, .none, .none, .out 31, 0⟩) ∧
    -- ldg.cur h3, ord=~i1 -> o2
    decodeOperator ⟨0, 0⟩ 0x66F2_FFFF_2102_1800 = .ok (.ldg ⟨0, 0⟩ ⟨.raw32, 2, .none, .none, .peek 1, .out 2, 0x1800⟩) ∧
    -- atomg.u32 i0, i1, h2 acqrel pod, AOP 1
    decodeOperator ⟨0, 0⟩ 0x6D10_0001_FF00_13A1 = .ok (.atomg ⟨0, 0⟩ ⟨.u32, 0, .chan 0, .chan 1, .none, .out 0, 0x13A1⟩) ∧
    -- acc.f32 i3, zero -> o4
    decodeOperator ⟨0, 0⟩ 0x8380_03E0_FF04_0000 = .ok (.acc ⟨0, 0⟩ ⟨.f32, 0, .chan 3, .zero, .none, .out 4, 0⟩) ∧
    -- mm.bf16x2 with its A operand one
    decodeOperator ⟨0, 0⟩ 0xA090_E1FF_FF05_0000 = .ok (.mm ⟨0, 0⟩ ⟨.bf16x2, 0, .one, .none, .none, .out 5, 0⟩) := by and_intros <;> rfl
/-- The rest of the families, and the two readings of opcodes 0xCC and 0xCD (R302). -/
theorem test_more_operator_words :
    decodeOperator ⟨0, 0⟩ 0xAAF0_40E4_FF06_0000 = .ok (.gsread ⟨0, 0⟩ ⟨.raw32, 0, .reg 0, .cellX, .none, .out 6, 0⟩) ∧
    decodeOperator ⟨0, 0⟩ 0xC0F0_FFFF_0007_0800 = .ok (.copy ⟨0, 0⟩ ⟨.raw32, 0, .none, .none, .chan 0, .out 7, 0x0800⟩) ∧
    decodeOperator ⟨0, 0⟩ 0xCDF0_FFEB_FF08_0000 = .ok (.ringr ⟨0, 0⟩ ⟨.raw32, 0, .none, .replica, .none, .out 8, 0⟩) ∧
    decodeOperator ⟨0, 0⟩ 0xCDF4_FFEA_FF08_0000 = .ok (.ringrP ⟨0, 0⟩ ⟨.raw32, 4, .none, .iter, .none, .out 8, 0⟩) ∧
    decodeOperator ⟨0, 0⟩ 0xD0F0_0080_FF09_0000 = .ok (.send ⟨0, 0⟩ ⟨.raw32, 0, .chan 0, .konst 0, .none, .out 9, 0⟩) ∧
    decodeOperator ⟨0, 0⟩ 0xE1F0_E8E9_FFFF_0006 = .ok (.sreg ⟨0, 0⟩ ⟨.raw32, 0, .idLow, .idHigh, .none, .none, 6⟩) ∧
    decodeOperator ⟨0, 0⟩ 0xE0F0_E5E6_E7FF_0000 = .ok (.nop ⟨0, 0⟩ ⟨.raw32, 0, .cellY, .patchOrigin, .stage, .none, 0⟩) ∧
    decodeOperator ⟨0, 0⟩ 0xE7F0_E3FF_FFFF_0000 = .ok (.assert ⟨0, 0⟩ ⟨.raw32, 0, .immHi, .none, .none, .none, 0⟩) := by and_intros <;> rfl
/-- The two operator words, the two route entries and commands of the spec's worked example (08_operator_formats.md). -/
theorem test_worked_example_words :
    decodeOperator ⟨0, 0⟩ 0x2381_0082_4301_0000 = .ok (.fma ⟨0, 0⟩ ⟨.f32, 1, .chan 0, .konst 2, .reg 3, .out 1, 0⟩) ∧
    decodeOperator ⟨1, 0⟩ 0x0008_04E2_FF40_FFFB = .ok (.add ⟨1, 0⟩ ⟨.i32, 8, .chan 4, .imm, .none, .reg 0, 0xFFFB⟩) ∧
    decodeRoute ⟨0, 0⟩ 0x181E_024E_0000 = .ok (.route ⟨0, 0⟩ ⟨⟨4, 1⟩, ⟨7, 0⟩, ⟨1, 4⟩, ⟨7, 0⟩, 0⟩) ∧
    decodeRoute ⟨1, 0⟩ 0x164E_084E_0000 = .ok (.route ⟨1, 0⟩ ⟨⟨3, 4⟩, ⟨7, 0⟩, ⟨4, 4⟩, ⟨7, 0⟩, 0⟩) ∧
    decodeConfig 0 .timetable false 0xFE01_0010 = .ok (.cfgBegin 0 .timetable 0x0010) ∧
    decodeConfig 0 .timetable false 0x0102_04E2 = .ok (.cfgWrite 0 .timetable 1 2 0x04E2) := by and_intros <;> rfl
/-- Words the spec's own programs list, with the fields of their rows (24_program_reduction.md, 15_program_matmul.md, 17_program_subscription.md,
14_program_histogram.md). -/
theorem test_program_words :
    decodeOperator ⟨0, 0⟩ 0xAC81_00FF_FF01_0000 = .ok (.redp ⟨0, 0⟩ ⟨.f32, 1, .chan 0, .none, .none, .out 1, 0⟩) ∧
    decodeOperator ⟨0, 0⟩ 0x8DF0_04E2_FF05_0020 = .ok (.trig ⟨0, 0⟩ ⟨.raw32, 0, .chan 4, .imm, .none, .out 5, 0x20⟩) ∧
    decodeOperator ⟨0, 0⟩ 0xA680_FFFF_1617_1800 = .ok (.accst ⟨0, 0⟩ ⟨.f32, 0, .none, .none, .chan 22, .out 23, 0x1800⟩) ∧
    decodeOperator ⟨0, 0⟩ 0xC9F0_E081_0102_1060 = .ok (.bara ⟨0, 0⟩ ⟨.raw32, 0, .zero, .konst 1, .chan 1, .out 2, 0x1060⟩) ∧
    decodeOperator ⟨0, 0⟩ 0xEAF0_0CFF_FFFF_0000 = .ok (.swapreq ⟨0, 0⟩ ⟨.raw32, 0, .chan 12, .none, .none, .none, 0⟩) ∧
    decodeOperator ⟨0, 0⟩ 0x63F0_0806_FF09_0800 = .ok (.sts ⟨0, 0⟩ ⟨.raw32, 0, .chan 8, .chan 6, .none, .out 9, 0x0800⟩) ∧
    decodeRoute ⟨0, 0⟩ 0x9812_262E_0000 = .ok (.comb ⟨0, 0⟩ ⟨⟨4, 1⟩, ⟨1, 2⟩, ⟨3, 2⟩, ⟨7, 0⟩, 0⟩) ∧
    decodeRoute ⟨0, 0⟩ 0x58D8_E668_9000 = .ok (.carry ⟨0, 0⟩ ⟨⟨4, 13⟩, ⟨4, 14⟩, ⟨3, 6⟩, ⟨4, 9⟩, 0⟩) ∧
    decodeRoute ⟨0, 0⟩ 0x76B0_E01E_0000 = .ok (.join ⟨0, 0⟩ ⟨⟨3, 11⟩, ⟨0, 14⟩, ⟨0, 1⟩, ⟨7, 0⟩, 0⟩) := by and_intros <;> rfl
/-- Reserved opcodes, types, sources and destinations are rejected by name. -/
theorem test_reserved_operator_words :
    decodeOperator ⟨0, 0⟩ 0x3E00_0001_FF00_0000 = .error .reservedOpcode ∧ decodeOperator ⟨0, 0⟩ 0xFFF0_FFFF_FFFF_0000 = .error .reservedOpcode ∧
    decodeOperator ⟨0, 0⟩ 0x0070_0001_FF00_0000 = .error .reservedType ∧ decodeOperator ⟨0, 0⟩ 0x00E0_0001_FF00_0000 = .error .reservedType ∧
    decodeOperator ⟨0, 0⟩ 0x0000_5001_FF00_0000 = .error .reservedSource ∧ decodeOperator ⟨0, 0⟩ 0x0000_00EC_FF00_0000 = .error .reservedSource ∧
    decodeOperator ⟨0, 0⟩ 0x0000_0001_FF20_0000 = .error .reservedDestination := by and_intros <;> rfl
/-- ROP, A, P, X, Y, ARG of R181 at bits 47:44, 43:36, 35:28, 27:20, 19:12, 11:0, a pair as port * 32 + VC; ROP 0 and 11 to 15 are none. -/
theorem test_route_words :
    decodeRoute ⟨0, 0⟩ 0x3_85_02_43_24_000 = .ok (.steer ⟨0, 0⟩ ⟨⟨4, 5⟩, ⟨0, 2⟩, ⟨2, 3⟩, ⟨1, 4⟩, 0⟩) ∧
    decodeRoute ⟨0, 0⟩ 0x8_85_E0_E0_E0_007 = .ok (.drop ⟨0, 0⟩ ⟨⟨4, 5⟩, ⟨7, 0⟩, ⟨7, 0⟩, ⟨7, 0⟩, 7⟩) ∧
    decodeRoute ⟨0, 0⟩ 0x9_85_62_43_E0_002 = .ok (.comb ⟨0, 0⟩ ⟨⟨4, 5⟩, ⟨3, 2⟩, ⟨2, 3⟩, ⟨7, 0⟩, 2⟩) ∧
    decodeRoute ⟨0, 0⟩ 0 = .error .reservedRouterOperator ∧ decodeRoute ⟨0, 0⟩ 0xB_00_00_00_00_000 = .error .reservedRouterOperator := by and_intros <;> rfl
/-- CELL, FIELD, VALUE at bits 31:24, 23:16, 15:0 (R65); FIELD names the control command under CELL 0xFE (R66), and after a LIT it does not. -/
theorem test_configuration_words :
    decodeConfig 3 .pilot false 0xFE00_0000 = .ok (.cfgNop 3 .pilot 0) ∧ decodeConfig 3 .pilot false 0xFE02_0504 = .ok (.cfgOrigin 3 .pilot 0x0504) ∧
    decodeConfig 3 .pilot false 0xFE03_0001 = .ok (.cfgBank 3 .pilot 1) ∧ decodeConfig 3 .pilot false 0xFE04_0009 = .ok (.cfgSeal 3 .pilot 9) ∧
    decodeConfig 3 .pilot false 0xFE05_0000 = .ok (.cfgLit 3 .pilot 0) ∧ decodeConfig 3 .pilot false 0xFE06_0009 = .ok (.cfgSwap 3 .pilot 9) ∧
    decodeConfig 3 .pilot false 0xFF40_8000 = .ok (.cfgWrite 3 .pilot 0xFF 0x40 0x8000) ∧
    decodeConfig 3 .pilot true 0xFE04_0009 = .ok (.cfgWrite 3 .pilot 0xFE 4 9) ∧ decodeConfig 3 .pilot false 0xFE07_0000 = .error .reservedControl := by and_intros <;> rfl
/-- funct7 0, rs2, rs1, funct3, rd, 0001011 (R313): every Pilot instruction, with rd x1, rs1 x2 and rs2 x3 where it has them. -/
theorem test_pilot_words :
    decodePilot 1 0 0x0001_008B = .ok (.xgQpop 1 1 2 0) ∧ decodePilot 1 0 0x0001_108B = .ok (.xgQpeek 1 1 2 0) ∧
    decodePilot 1 0 0x0031_208B = .ok (.xgRpush 1 1 2 3) ∧ decodePilot 1 0 0x0031_308B = .ok (.xgGsetRead 1 1 2 3) ∧
    decodePilot 1 1 0x0031_308B = .ok (.xgGsetSetexp 1 1 2 3) ∧ decodePilot 1 2 0x0031_308B = .ok (.xgGsetSetbase 1 1 2 3) ∧
    decodePilot 1 3 0x0031_308B = .ok (.xgGsetOpen 1 1 2 3) ∧ decodePilot 1 4 0x0031_308B = .ok (.xgGsetClose 1 1 2 3) ∧
    decodePilot 1 0 0x0031_408B = .ok (.xgTlnch 1 1 2 3) ∧ decodePilot 1 0 0x0031_508B = .ok (.xgCfgw 1 1 2 3) ∧
    decodePilot 1 0 0x0001_608B = .ok (.xgWfe 1 1 2 0) ∧ decodePilot 1 0 0x0031_700B = .ok (.xgEvsig 1 0 2 3) ∧
    decodePilot 1 0 0x0231_208B = .error .illegalCustom0 ∧ decodePilot 1 0 0x0031_008B = .error .illegalCustom0 ∧
    decodePilot 1 0 0x0000_0013 = .error .notCustom0 := by and_intros <;> rfl
/-- Table words: a word of 8 bytes is an operator, of 6 a route entry, of 4 a Pilot word or a command; no other length is an instruction. -/
theorem test_table_words :
    decodeTableWord 64 0x0400_8142_0003_0000 = some (.mad ⟨0, 0⟩ ⟨.i32, 0, .konst 1, .reg 2, .chan 0, .out 3, 0⟩) ∧
    decodeTableWord 48 0x185E_027E_0000 = some (.route ⟨0, 0⟩ ⟨⟨4, 5⟩, ⟨7, 0⟩, ⟨1, 7⟩, ⟨7, 0⟩, 0⟩) ∧
    decodeTableWord 32 0x0073228B = some (.xgRpush 0 5 6 7) ∧ decodeTableWord 32 0xFE014031 = some (.cfgBegin 0 .pilot 0x4031) ∧
    decodeTableWord 40 0 = none := by and_intros <;> rfl

/-! Well-formedness: an accepted word of each kind, and one that each check refuses. -/

/-- add.i32 i0, i1 -> o0 is accepted; refused: a type outside its set, a reserved modifier, a missing operand, an operand it has not, a channel
consumed twice, a store to a register, a nonzero unused immediate, an opcode that is none. -/
theorem test_operator_checks :
    (Instr.add ⟨0, 0⟩ ⟨.i32, 0, .chan 0, .chan 1, .none, .out 0, 0⟩).wellFormed = true ∧
    (Instr.add ⟨0, 0⟩ ⟨.f32, 0, .chan 0, .chan 1, .none, .out 0, 0⟩).wellFormed = false ∧
    (Instr.add ⟨0, 0⟩ ⟨.i32, 4, .chan 0, .chan 1, .none, .out 0, 0⟩).wellFormed = false ∧
    (Instr.add ⟨0, 0⟩ ⟨.i32, 0, .none, .chan 1, .none, .out 0, 0⟩).wellFormed = false ∧
    (Instr.add ⟨0, 0⟩ ⟨.i32, 0, .chan 0, .none, .none, .out 0, 0⟩).wellFormed = false ∧
    (Instr.add ⟨0, 0⟩ ⟨.i32, 0, .chan 0, .chan 1, .reg 0, .out 0, 0⟩).wellFormed = false ∧
    (Instr.add ⟨0, 0⟩ ⟨.i32, 0, .chan 0, .chan 0, .none, .out 0, 0⟩).wellFormed = false ∧
    (Instr.mad ⟨0, 0⟩ ⟨.i32, 0, .chan 0, .chan 1, .chan 1, .out 0, 0⟩).wellFormed = false ∧
    (Instr.sts ⟨0, 0⟩ ⟨.raw32, 0, .chan 0, .chan 1, .none, .reg 0, 0⟩).wellFormed = false ∧
    (Instr.add ⟨0, 0⟩ ⟨.i32, 0, .chan 0, .chan 1, .none, .out 0, 9⟩).wellFormed = false ∧
    (OpFields.wf 0x3E ⟨.i32, 0, .chan 0, .chan 1, .none, .out 0, 0⟩) = false := by decide
/-- A route from L.5 to E.7 is accepted; refused: a used pair at port 6, a used VC of 24, an unused pair that is not port 7, VC 0, a nonzero
ARG where none is, an input twice, an output twice. -/
theorem test_route_checks :
    (Instr.route ⟨0, 0⟩ ⟨⟨4, 5⟩, ⟨7, 0⟩, ⟨1, 7⟩, ⟨7, 0⟩, 0⟩).wellFormed = true ∧
    (Instr.route ⟨0, 0⟩ ⟨⟨6, 5⟩, ⟨7, 0⟩, ⟨1, 7⟩, ⟨7, 0⟩, 0⟩).wellFormed = false ∧
    (Instr.route ⟨0, 0⟩ ⟨⟨4, 24⟩, ⟨7, 0⟩, ⟨1, 7⟩, ⟨7, 0⟩, 0⟩).wellFormed = false ∧
    (Instr.route ⟨0, 0⟩ ⟨⟨4, 5⟩, ⟨7, 1⟩, ⟨1, 7⟩, ⟨7, 0⟩, 0⟩).wellFormed = false ∧
    (Instr.route ⟨0, 0⟩ ⟨⟨4, 5⟩, ⟨7, 0⟩, ⟨1, 7⟩, ⟨7, 0⟩, 1⟩).wellFormed = false ∧
    (Instr.join ⟨0, 0⟩ ⟨⟨4, 5⟩, ⟨4, 5⟩, ⟨1, 7⟩, ⟨7, 0⟩, 0⟩).wellFormed = false ∧
    (Instr.fork ⟨0, 0⟩ ⟨⟨4, 5⟩, ⟨7, 0⟩, ⟨1, 7⟩, ⟨1, 7⟩, 0⟩).wellFormed = false := by decide
/-- The checks of form: MOD[2] of `ringf` and `ringr`, a Pilot word's unused fields, CELL 0xFE outside a LIT. -/
theorem test_form_checks :
    (Instr.ringf ⟨0, 0⟩ ⟨.raw32, 4, .none, .chan 0, .none, .out 0, 0⟩).ringForm = false ∧
    (Instr.ringrP ⟨0, 0⟩ ⟨.raw32, 0, .none, .chan 0, .none, .out 0, 0⟩).ringForm = false ∧
    (Instr.xgQpop 0 1 2 3).wellFormed = false ∧ (Instr.xgQpeek 0 1 2 3).wellFormed = false ∧ (Instr.xgWfe 0 1 2 3).wellFormed = false ∧
    (Instr.xgEvsig 0 1 2 3).wellFormed = false ∧ (Instr.xgEvsig 0 0 2 3).wellFormed = true ∧
    (Instr.cfgWrite 0 .pilot 0xFE 0 0).wellFormed = false ∧ (Instr.cfgWrite 0 .pilot 0xFF 0 0).wellFormed = true := by decide

/-! A cell with one enabled slot, tokens on its first channels, and a handle. -/

/-- Handle 0 of a cell: a level, BASE, 256 elements of 4 bytes in one row. -/
def withHandle (p : Plane) (lvl base rows : Nat) : Plane :=
  let v := lvl * 2 ^ 126 + 2 * 2 ^ 116 + rows * 2 ^ 104 + 255 * 2 ^ 92 + base
  (List.range 8).foldl (fun (q : Plane) k => q.setHt k (BitVec.ofNat 16 (v / 2 ^ (16 * k)))) p

/-- The bench: an instance on cell 0 whose slot 0 is enabled, a token at i0, i1 and i2, handle 0 at a level. -/
def bench (lvl : Nat) (k : Kind) (a b c : Word) : State :=
  State.reset.placeOne.updCell 0 (fun x =>
    { (((x.setChan 0 [mkToken 0 k a []]).setChan 1 [mkToken 0 k b []]).setChan 2 [mkToken 0 k c []]) with
      active := withHandle (x.active.setOp 0x40 0x8000) lvl 64 0 })

/-- Three channel operands, o0, MOD 0, IMM 0. -/
def chans (ty : Ty) : OpFields := ⟨ty, 0, .chan 0, .chan 1, .chan 2, .out 0, 0⟩
/-- No operand from a channel, o0. -/
def plain (ty : Ty) : OpFields := ⟨ty, 0, .none, .none, .none, .out 0, 0⟩

/-- What a slot would fire. -/
def firing (s : State) (opc : Nat) (site : Site) (f : OpFields) : Option (Firing × State) :=
  if s.ready opc site f then
    match s.instAt site.cell.val with
    | none => none
    | some i =>
      match s.feed i site.cell.val site.slot.val with
      | none => none
      | some fd =>
        match s.operands opc site (s.slotNeeds opc site f).1 i fd (s.slotNeeds opc site f).2.cursor with
        | .ok e => some e
        | .error _ => none
  else none

/-- The slot fires, and `p` holds of what it fires. -/
def firesWith (s : State) (opc : Nat) (f : OpFields) (p : State → Firing → Bool) : Bool :=
  match firing s opc ⟨0, 0⟩ f with
  | some (F, s1) => p s1 F
  | none => false

theorem fires_of {s : State} {opc : Nat} {f : OpFields} {p : State → Firing → Bool} (h : firesWith s opc f p = true) :
    ∃ F s1, Fires s opc ⟨0, 0⟩ f F s1 ∧ p s1 F = true := by
  unfold firesWith firing at h
  split at h
  · rename_i F s1 hf
    split at hf
    · rename_i hr
      split at hf
      · cases hf
      · rename_i i hi
        split at hf
        · cases hf
        · rename_i fd hfd
          split at hf
          · rename_i e he
            cases hf
            exact ⟨F, s1, ⟨hr, i, fd, hi, hfd, he⟩, h⟩
          · cases hf
    · cases hf
  · cases h

/-- Every entry of a table gives a state, an opcode and fields with which the slot fires, and a property of the firing. -/
def AllFire {α : Type} (l : List α) (s : α → State) (opc : α → Nat) (f : α → OpFields) (p : α → State → Firing → Bool) : Prop :=
  ∀ a ∈ l, ∃ F s1, Fires (s a) (opc a) ⟨0, 0⟩ (f a) F s1 ∧ p a s1 F = true

theorem all_fire {α : Type} {l : List α} {s : α → State} {opc : α → Nat} {f : α → OpFields} {p : α → State → Firing → Bool}
    (h : (l.all fun a => firesWith (s a) (opc a) (f a) (p a)) = true) : AllFire l s opc f p :=
  fun a ha => fires_of (List.all_eq_true.1 h a ha)

/-- A firing of kind DATA or LAST without a fault of its own. -/
def sound (pre : State → Firing → Option FireFault) (s1 : State) (F : Firing) : Bool := F.works && (pre s1 F).isNone

/-! Witnesses: operators. -/

/-- ComputingOperatorsComplete, FiringOrderRule, SlotCounterRule: every computing operator fires with DATA, DONE and POISON operands. -/
theorem test_computing_operators_fire :
    AllFire ((integerRows ++ floatRows ++ packedRows).flatMap (fun r => [(r, Kind.data), (r, .done), (r, .poison)]))
      (fun a => bench 0 a.2 6 3 1) (fun a => a.1.opc) (fun _ => chans .i32) (fun a _ F => F.kind == a.2) := all_fire (by decide +kernel)

/-- FiringOrderRule: a PE with a ready slot, and one without. -/
theorem test_firing_order_cases : ((bench 0 .data 6 3 1).updCell 0 (fun c => { c with active := c.active.setOp 3 0x00FF })).peSlot 0 = some 0 ∧
    State.reset.peSlot 0 = none := by decide +kernel

/-- LoadsComplete: every load fires at a LOC, a REM and a GLB handle, and as a stream load. -/
theorem test_loads_fire :
    AllFire (loadRows.flatMap (fun r => [(r, 0, chans .i32), (r, 1, chans .i32), (r, 0, plain .i32), (r, 2, plain .i32)]))
      (fun a => bench a.2.1 .data 6 3 1) (fun a => a.1.opc) (fun a => a.2.2) (fun a => sound (preLoad (a.1.pick a.2.2))) :=
  all_fire (by decide +kernel)

/-- StoresComplete: every store fires at a LOC and at a GLB handle. -/
theorem test_stores_fire : AllFire (storeRows.flatMap (fun r => [(r, 0), (r, 2)])) (fun a => bench a.2 .data 6 3 1) (fun a => a.1.opc)
    (fun _ => chans .i32) (fun a => sound (preStore 1 (a.1.pick (chans .i32)))) := all_fire (by decide +kernel)

/-- AtomicsComplete: the atomics and compare-and-swaps fire, each at its level. -/
theorem test_atomics_fire :
    AllFire [(0x69, 0), (0x6B, 1), (0x6D, 2)] (fun a => bench a.2 .data 6 3 1) (fun a => a.1) (fun _ => chans .i32)
      (fun _ => sound (preAtomic 2 (pickB (chans .i32)))) ∧
    AllFire [(0x6A, 0), (0x6C, 1), (0x6E, 2)] (fun a => bench a.2 .data 6 3 1) (fun a => a.1) (fun _ => chans .i32)
      (fun _ => sound (preAtomic 3 (pickC (chans .i32)))) := ⟨all_fire (by decide +kernel), all_fire (by decide +kernel)⟩

/-- CursorFencePrefetchComplete, GrammarAndEngineOperatorsComplete (but `gsread`), MessageOperatorsComplete, SystemOperatorsComplete,
InstanceOperatorsComplete, AccumulatorAndReductionOperatorsComplete: the operators without a fault test of their own fire. -/
theorem test_other_operators_fire :
    AllFire ([0x70, 0x71, 0x6F, 0x68, 0xA4, 0xA5, 0xA9, 0xAB, 0xAC, 0xAD, 0xC1, 0xC5, 0xC6, 0xC7, 0xD0, 0xD1, 0xD2, 0xD3] ++
      [0xE0, 0xE1, 0xE2, 0xE4, 0xE5, 0xE6, 0xE8, 0xE9, 0xEA, 0xEB]) (fun _ => bench 0 .data 6 3 1) (fun a => a) (fun _ => chans .i32)
      (fun _ _ F => F.works) := all_fire (by decide +kernel)

/-- The same: operators whose own fault test passes. -/
theorem test_tested_operators_fire :
    AllFire ([(0xA6, preAccst), (0xA7, preAccld), (0xA8, fun s F => s.cursorFault F 4), (0xC0, fun s F => s.cursorFault F 24),
      (0xC2, fun s F => s.cursorFault F 8), (0xC3, fun s F => s.cursorFault F 8), (0xC4, fun s F => s.cursorFault F 8),
      (0xCE, fun s F => s.cursorFault F 8), (0xCF, fun s F => s.cursorFault F 8)] : List (Nat × (State → Firing → Option FireFault)))
      (fun _ => bench 0 .data 6 3 1) (fun a => a.1) (fun _ => chans .i32) (fun a => sound a.2) := all_fire (by decide +kernel)

/-- GrammarAndEngineOperatorsComplete: `gsread` of an entry the instance owns. -/
theorem test_gsread_fires : AllFire [0xAA] (fun _ => (bench 0 .data 6 3 1).updInst 1 (fun i => { i with slateLen := 8 })) (fun a => a)
    (fun _ => chans .i32) (fun _ _ F => F.works && decide (F.a.toNat < F.inst.slateLen)) := all_fire (by decide +kernel)

/-- SuppressedFiringPassesItsKind: a store whose operand is POISON. -/
theorem test_suppressed_store_fires : AllFire [0x61] (fun _ => bench 0 .poison 6 3 1) (fun a => a) (fun _ => chans .i32)
    (fun _ _ F => !F.works) := all_fire (by decide +kernel)

/-- MatrixOperatorsComplete: the matrix operators with K = 16. -/
theorem test_matrix_operators_fire : AllFire [0xA0, 0xA1, 0xA2, 0xA3] (fun _ => bench 0 .data 16 1 0) (fun a => a) (fun _ => chans .bf16x2)
    (fun a => sound (preMatrix a)) := all_fire (by decide +kernel)

/-- AccumulatorAndReductionOperatorsComplete: the quantum of 0 in EXACT mode, and `redw` with its first word kept. -/
theorem test_reduction_cases : (redQuantum (redE { plain .raw32 with mod := 1 }) 0).1 = some 0 ∧
    AllFire [0xAD] (fun _ => (bench 0 .data 6 3 1).updCell 0 (fun c => c.setSlot 0 { SlotState.zero with n := 1 })) (fun a => a)
      (fun _ => { chans .raw32 with mod := 1 }) (fun _ s1 F => F.works && ((s1.cell F.cell).slot F.slot).n == 1 &&
        !((s1.cell F.cell).slot F.slot).f) := ⟨by decide +kernel, all_fire (by decide +kernel)⟩

/-- StreamOperatorsComplete: every stream-control operator fires, `filt` and its flush too. -/
theorem test_stream_operators_fire :
    AllFire streamRows (fun _ => bench 0 .data 6 3 1) (fun r => r.opc) (fun r => if r.opc ∈ [0x80, 0x81, 0x8C] then plain .i32 else chans .i32)
      (fun r s1 F => (openAtDone r.counts (r.opc != 0x83) s1 F).isNone &&
        ((bench 0 .data 6 3 1).openCopy F r.counts (r.opc != 0x83)).isNone) ∧
    AllFire [0, 1] (fun k => (bench 0 .data 6 3 1).updCell 0 (fun c => c.setSlot 0 { SlotState.zero with k := k })) (fun _ => 0x85)
      (fun _ => chans .i32) (fun k s1 F => (openAtDone (k == 0) true s1 F).isNone &&
        ((bench 0 .data 6 3 1).openCopy F (k == 0) true).isNone) := ⟨all_fire (by decide +kernel), all_fire (by decide +kernel)⟩

/-- SoftwareFaultsHoldTheInstance: `trap`, and `assert` of 0 and of another value. -/
theorem test_software_faults_fire : AllFire [(0xE3, (6 : Word)), (0xE7, 0), (0xE7, 6)] (fun a => bench 0 .data a.2 3 1) (fun a => a.1)
    (fun _ => chans .i32) (fun a _ F => F.works && F.a == a.2) := all_fire (by decide +kernel)

/-- FaultsHaveNoEffect: a slot whose operand stands under another version faults with 0x0131; a matrix operator's K of 5 is its own fault. -/
theorem test_operand_fault : let s := (bench 0 .data 6 3 1).updCell 0 (fun c => c.setChan 0 [mkToken 1 .data 6 []])
    s.ready 0x00 ⟨0, 0⟩ (chans .i32) = true ∧
    (match s.instAt 0, s.operands 0x00 ⟨0, 0⟩ (chans .i32) ((s.instAt 0).get (by decide +kernel)) ⟨0, 0, 1⟩ none with
      | some _, .error e => decide (e.code = 0x0131)
      | _, _ => false) = true ∧ s.feed ((s.instAt 0).get (by decide +kernel)) 0 0 = some ⟨0, 0, 1⟩ ∧
    firesWith (bench 0 .data 5 3 1) 0xA0 (chans .i8x4) (fun s1 F => (preMatrix 0xA0 s1 F).isSome) = true := by decide +kernel

/-- A tagged word at handle 0: a ring of two slots, P 2, W 1, C 1, Q 0. -/
def ringBench (lvl : Nat) (a : Word) : State :=
  ((bench lvl .data a 0 1).updCell 0 (fun c => c.putBytes 0 64 (1 * 2 ^ 48 + 2 * 2 ^ 36 + 1 * 2 ^ 24 + 1 * 2 ^ 12) 8)).syncTag ⟨0, 64, 0⟩

/-- SynchronisationOperatorsComplete: every synchronisation operator at a LOC and at a REM word. -/
theorem test_sync_operators_fire :
    AllFire (syncRows.flatMap (fun r => [(r, 0), (r, 1)])) (fun a => ringBench a.2 1) (fun a => a.1.opc) (fun _ => chans .raw32)
      (fun a => sound (preSync a.1.body)) ∧
    AllFire [0, 1] (fun a => ringBench a 1) (fun _ => 0xC9) (fun _ => chans .raw32)
      (fun _ => sound (preSync (fun F => .bara (immScope (chans .raw32)) F.a []))) := ⟨all_fire (by decide +kernel), all_fire (by decide +kernel)⟩

/-! Results worked out from the spec. -/

/-- R201: 0x7FFFFFFF + 1 wraps without SAT, and with it is the greatest value under IS; the lanes of i8x4 carry nothing over. -/
theorem test_add : (aluAdd (plain .i32) 0x7FFFFFFF 1 0).1 = 0x80000000 ∧ aluAdd { plain .i32 with mod := 8 } 0x7FFFFFFF 1 0 = (0x7FFFFFFF, flagIS) ∧
    (aluAdd (plain .i8x4) 0x00FF00FF 0x00010001 0).1 = 0 := by decide +kernel
/-- R202: -7 / 2 is -3 with remainder -1; by zero, all ones and the dividend. -/
theorem test_division : (aluDiv (plain .i32) (-7) 2 0).1 = -3 ∧ (aluRem (plain .i32) (-7) 2 0).1 = -1 ∧
    (aluDiv (plain .u32) 5 0 0).1 = 0xFFFFFFFF ∧ (aluRem (plain .u32) 5 0 0).1 = 5 := by decide +kernel
/-- R91, R93: 1.0 + 2^-24 is a tie to even 1.0, inexact; 1.0 + 1.0 is 2.0, exact. -/
theorem test_float_add : (aluFadd (plain .f32) 0x3F800000 0x33800000 0).1 = 0x3F800000 ∧ (aluFadd (plain .f32) 0x3F800000 0x33800000 0).2 ≠ 0 ∧
    aluFadd (plain .f32) 0x3F800000 0x3F800000 0 = (0x40000000, 0) := by decide +kernel
/-- R107: element 5 of two rows of 4 elements of 4 bytes, PITCH 32, BASE 64, is row 1, column 1. -/
theorem test_handle_element : (handleOf (2 * 2 ^ 116 + 1 * 2 ^ 104 + 3 * 2 ^ 92 + 32 * 2 ^ 57 + 64)).elem 5 = 100 := by decide +kernel
/-- R299: the last of two arrivals with no transactions left turns the phase and restores the arrivals. -/
theorem test_barrier_turns : (Barrier.settle ⟨0, 2, 0, 0⟩) = ⟨1, 2, 2, 0⟩ ∧ (Barrier.settle ⟨0, 2, 0, 3⟩) = ⟨0, 2, 0, 3⟩ := by decide
/-- R175, R53: `add` at its slot sends 9 on o0, due one cycle after issue, and consumes both tokens. -/
theorem test_add_fires : (match exec (.add ⟨0, 0⟩ (chans .i32)) (bench 0 .data 6 3 1) with
    | .next t => ((t.cell 0).flight.map (fun x => (x.due, x.dst, x.val)), (t.cell 0).chan 0, (t.cell 0).chan 1)
    | _ => ([], [], [])) = ([(1, .out 0, 9)], [], []) := by decide +kernel
/-- R245: a step whose turn is a route entry's runs its operator. -/
theorem test_route_steps : (match step (State.reset.withFetchWord 48 0x185E_027E_0000) with
    | .next t => (((t.cell 0).linkQ 1 7).map (fun x => x.tok.payload), (t.cell 0).inFifo 4 5)
    | _ => ([], [])) = ([0], []) := by decide +kernel

/-- The record of the spec's example (20_faults_model.md): an uncorrectable scratchpad word in sector 8 of die 2, as its eight words. -/
theorem test_fault_record_example :
    FaultRec.bits ⟨0x0D02, 0, true, 19, 2, 8, 10, 70, 0, none, 0x51, 7, 2, false, 0, 4, 0x60F0_FFFF_0102_3000, 10000000000, 0x5C_0218, 0, 41, 0, 0, 0,
      false, false, false, none, 0, 2, none⟩ 0 =
    0x29 + 0x0D02_1013_0000_0000 * 2 ^ 64 + 0x0000_0051_0282_A300 * 2 ^ 128 + 0x0000_0007_0002_0020 * 2 ^ 192 +
    0x0000_0002_540B_E400 * 2 ^ 256 + 0x60F0_FFFF_0102_3000 * 2 ^ 320 + 0x0000_0000_005C_0218 * 2 ^ 384 := by decide +kernel

/-! Witnesses: the step, results and barriers. -/

/-- The state a turn's agent meets, its time passed. -/
def met (s : State) : State := match s.turns with
  | x :: rest => ({ s with turns := rest } : State).advance x
  | [] => s

/-- StepRunsDecodedInstruction, a PE: add.i32 i0, i1 -> o0 in slot 0. -/
theorem test_step_pe : let s := State.reset.withFetchWord 64 0x0000_0001_FF00_0000
    s.turns = [⟨0, .pe 0, Input.none⟩] ∧ (met s).peSlot 0 = some 0 ∧
    (met s).slotInstr 0 0 = some (.add ⟨0, 0⟩ ⟨.i32, 0, .chan 0, .chan 1, .none, .out 0, 0⟩) := by decide +kernel
/-- StepRunsDecodedInstruction, a route entry, a loader's command, an event. -/
theorem test_step_other_agents : (let s := State.reset.withFetchWord 48 0x185E_027E_0000
    s.turns = [⟨0, .entry 0 0, Input.none⟩] ∧ ((met s).entryInstr 0 0).isSome = true) ∧
    (let s := State.reset.withFetchWord 32 0xFE014031
    s.turns = [⟨60, .loader 0, Input.none⟩] ∧ ((met s).sector 0).loader.queue = [(.pilot, 0xFE014031)] ∧ (met s).loaderAccepts 0 .pilot = true ∧
    (met s).isLit 0 .pilot = false) ∧ encode .meterInterval = none := by decide +kernel
/-- StepRunsDecodedInstruction, a Pilot: `xg.rpush`, and an `xg.wfe` of 1 us (x1) that began to wait 1 us ago. -/
theorem test_step_pilot : (let s := State.reset.withFetchWord 32 0x0073228B
    s.turns = [⟨0, .pilot 0, Input.none⟩] ∧ (met s).pilotRuns 0 = true ∧ (met s).pilotPresent ((met s).pilot 0).pc.toNat 4 = true ∧
    (met s).pilotWordAt 0 = 0x0073228B) ∧
    (let s := ({ State.reset.withFetchWord 32 0x0000E00B with now := usUnits } : State).updPilot 0 (fun p => { p with x := [(1, 1)], wfeSince := some 0 })
    (met s).pilotWordAt 0 = 0x0000E00B ∧ ((met s).pilot 0).wfeSince = some 0 ∧ (met s).pilotReg 0 1 ≠ 0 ∧
    0 + pilotUnits ((met s).pilotReg 0 1) ≤ (met s).now ∧ ((met s).pilot 0).event = [] ∧ ((met s).dieAt 0).meip = false) := by decide +kernel
/-- StepKeepsMemoryCanonical: the reset memory, a next state, and a listed byte. -/
theorem test_memory_canonical : MemoryWf State.reset ∧ MemoryWf (State.reset.memWrite 5 0x0102 2) ∧
    Proceeds (step (State.reset.withFetchWord 32 0xFE014031)) := ⟨by decide +kernel, by decide +kernel, _, rfl⟩
/-- BarrierArrivalRule: a word without a tag, one without a pending arrival, one whose count overflows, and one that takes an arrival. -/
theorem test_barrier_cases : let a : WordAt := ⟨0, 64, 0⟩
    let s := fun (v : Nat) => ((bench 0 .data 1 0 0).updCell 0 (fun c => c.putBytes 0 64 v 8)).syncTag a
    (bench 0 .data 1 0 0).syncTagged a = false ∧ (s 0).syncTagged a = true ∧ (barrierOf ((s 0).syncWord a)).arrp = 0 ∧
    (barrierOf ((s (2 ^ 33 + 2 ^ 31)).syncWord a)).arrp ≠ 0 ∧ (barrierOf ((s (2 ^ 33 + 2 ^ 31)).syncWord a)).tx + (-1 : Word).toInt < -2 ^ 31 ∧
    (barrierOf ((s (2 ^ 33)).syncWord a)).arrp = 1 ∧ (barrierOf ((s (2 ^ 33)).syncWord a)).tx + (0 : Word).toInt = 0 ∧ (s (2 ^ 33)).reqs = [] := by
  decide +kernel
/-- ResultKindRule: a DONE and a POISON result to a register. -/
theorem test_result_kinds : AllFire [Kind.done, .poison] (fun k => bench 0 k 6 3 1) (fun _ => 0x00) (fun _ => { chans .i32 with dst := .reg 0 })
    (fun k _ F => F.kind == k && F.f.dst == .reg 0) := all_fire (by decide +kernel)

/-! Witnesses: router operators. -/

/-- The bench with a token at three router inputs: L.0, L.1 and L.2. -/
def routeBench (k : Kind) (a p y : Word) : State :=
  (bench 0 .data 0 0 0).updCell 0 (fun c => ((c.setInFifo 4 0 [mkToken 0 k a []]).setInFifo 4 1 [mkToken 0 .data p []]).setInFifo 4 2 [mkToken 0 .data y []])

/-- The entry may step, and the heads it reads stand under the plane's version. -/
def entryOk (s : State) (reads : List PortVc) : Bool :=
  match s.instAt 0 with
  | some i => s.entryMayStep i 0 0 && reads.all (fun p => (s.inHead 0 (pvOf p)).all (fun t => t.ver == (s.cell 0).active.ver))
  | none => false

theorem entryReady_of {s : State} {reads : List PortVc} (h : entryOk s reads = true) : EntryReady s ⟨0, 0⟩ reads := by
  unfold entryOk at h
  split at h
  · rename_i i hi
    simp only [Bool.and_eq_true, List.all_eq_true] at h
    refine ⟨i, hi, h.1, fun p hp t ht => ?_⟩
    have q := h.2 p hp
    rw [show s.inHead 0 (pvOf p) = some t from ht] at q
    simpa using q
  · cases h

/-- The four pairs of these entries: inputs L.0, L.1, L.2 and output E.3. -/
def inA : PortVc := ⟨4, 0⟩
def inP : PortVc := ⟨4, 1⟩
def inY : PortVc := ⟨4, 2⟩
def outX : PortVc := ⟨1, 3⟩

/-- PassingAndChoosingRoutersComplete, LoopAndReducingRoutersComplete, DropRule: entries that may step, heads and credit. -/
theorem test_routers_ready : EntryReady (routeBench .data 6 1 2) ⟨0, 0⟩ [inA, inP, inY] ∧ EntryReady (routeBench .done 6 0 2) ⟨0, 0⟩ [inA, inP, inY] ∧
    (let s := routeBench .data 6 1 2
    (s.inHead 0 (pvOf inA)).isSome = true ∧ s.hasCredit 0 (pvOf outX) = true ∧ (s.inHead 0 (pvOf inP)).all (fun p => p.isValue && predTrue p) = true ∧
    joinKind (mkToken 0 .data 6 []) (mkToken 0 .data 1 []) = some (.data, 6) ∧ predTrue (mkToken 0 .data 0 []) = false) :=
  ⟨entryReady_of (by decide +kernel), entryReady_of (by decide +kernel), by decide +kernel⟩
/-- LoopAndReducingRoutersComplete: a lane of `part` that exists, and a `comb` step that does not overflow. -/
theorem test_reducing_routers : outX.vc.val + partLane 1 6 < 32 ∧ (combStep 2 RouteState.zero 6 1).2.2 = none ∧
    (combStep 1 RouteState.zero 0xFFFFFFFF 1).2.1.phase = true := by decide +kernel

/-! Witnesses: configuration and the Pilot. -/

/-- The bench with sector 0's loader in a stream of the Pilot's for the patch of cell 0. -/
def openBench : State :=
  (bench 0 .data 0 0 0).updLoader 0 (fun l => { l with serving := some .pilot, begun := true, opened := true, w := 1, h := 1 })

/-- StreamCommandsComplete: a loader that takes commands, idle, after BEGIN, and in a stream. -/
theorem test_loader_takes : (∀ s ∈ [bench 0 .data 0 0 0, openBench], s.loaderAccepts 0 .pilot = true ∧ (s.sector 0).loader.discarding = [] ∧
      (s.sector 0).loader.lit = []) ∧
    ((bench 0 .data 0 0 0).sector 0).loader.serving = none ∧ (bench 0 .data 0 0 0).isPatch 0 0 0 1 1 = true ∧
    (openBench.sector 0).loader.opened = true ∧ fieldReserved 0 0x40 = false := by decide +kernel
/-- SealAndSwapComplete: an empty patch passes its checks, one with a slot of reserved opcode fails them, and a SWAP that follows a SEAL. -/
theorem test_seal_cases : (let ps := (openBench.shadows 0 0 0 1 1).map (fun e => (e.1, e.2.dropMarks));
      (openBench.sealFails 0 0 0 1 1 1 ps).isNone = true) ∧
    (let s := openBench.updCell 0 (fun c => { c with shadow := (c.shadow.setOp 3 0x3E00).setOp 0x40 0x8000 });
      let ps := (s.shadows 0 0 0 1 1).map (fun e => (e.1, e.2.dropMarks));
      (s.sealFails 0 0 0 1 1 1 ps).isSome = true) ∧
    (let s := openBench.updLoader 0 (fun l => { l with serving := none, opened := false, ended := [(.pilot, 0, 0, 1, 1)] });
      (s.sector 0).loader.ended.find? (fun e => e.1 == LoadSource.pilot) = some (.pilot, 0, 0, 1, 1)) := by decide +kernel
/-- PilotInstructionsComplete: Pilots with events, with none and an interrupt, without, one whose time has passed, and the operands of each
instruction: x1 = 1, x2 names sector 0. -/
theorem test_pilot_cases : (let s := State.reset.updPilot 0 (fun p => { p with event := [7], logit := [8], x := [(1, 1)] });
      s.pilotRuns 0 = true ∧ (s.pilot 0).queue (s.pilotReg 0 0) = [8] ∧ (s.pilot 0).event = [7] ∧ (s.sector (pilotSector 0 (s.pilotReg 0 2))).changing = none ∧
      (s.sector 0).mode = .inService ∧ (s.sector 0).rrq.length < 64 ∧ s.reqs = [] ∧ bitsN (s.pilotReg 0 1) 33 32 ≠ 3 ∧ (s.pilot 0).reply = none ∧
      s.pilotPresent (s.pilotReg 0 1) 64 = true ∧ s.loaderAccepts 0 .pilot = true ∧ ¬(bitsN (s.pilotReg 0 1) 31 24 = 0xFE)) ∧
    (let s := State.reset.updDie 0 (fun d => { d with notices := [1] });
      (s.pilot 0).event = [] ∧ (s.dieAt 0).meip = true) ∧
    (let s := (State.reset.updSector 0 (fun k => { k with rrq := List.replicate 64 .endMarker })).updPilot 0 (fun p => { p with
        x := [(1, 3 * 2 ^ 32)], reply := some 5, wfeSince := some 0 });
      64 ≤ (s.sector 0).rrq.length ∧ bitsN (s.pilotReg 0 1) 33 32 = 3 ∧ (s.pilot 0).reply = some 5 ∧ (s.pilot 0).wfeSince = some 0) := by decide +kernel
/-- GrantTableRule: a closed entry, one whose write is stuck, and records of an open one: granted before, with room, without. -/
theorem test_grant_cases : (let v : BitVec 64 := 0;
      let g : Grant := { Grant.reset with opened := true, cap := 1 };
      rrRound v = g.round ∧ g.granted.find? (fun x => x.1 == rrToken v) = none ∧ g.used < g.cap ∧
      ({ g with used := 1, granted := [(0, 0)] } : Grant).granted.find? (fun x => x.1 == rrToken v) = some (0, 0) ∧ ({ g with used := 1 } : Grant).cap ≤ 1) ∧
    State.reset.pilotRuns 0 = true ∧ (State.reset.grantAt 0 0).stuck = none ∧
    ((State.reset.setGrant 0 0 { Grant.reset with stuck := some ⟨0, 0, 0, false, 0, 0, 0⟩ }).grantAt 0 0).stuck ≠ none := by decide +kernel
/-- PilotIllegalWordTraps: a custom-0 word with funct7 1. -/
theorem test_illegal_pilot_word : let s := State.reset.updPilot 0 (fun p => { p with scratch := [(0, 0x8B), (1, 0x20), (2, 0x31), (3, 0x02)] });
    s.pilotWordAt 0 = 0x0231208B ∧ bitsN (s.pilotWordAt 0).toNat 6 0 = 0x0B ∧ s.pilotRuns 0 = true ∧ s.pilotPresent (s.pilot 0).pc.toNat 4 = true ∧
    (match decodePilot 0 0 0x0231208B with | .error _ => true | .ok _ => false) = true := by decide +kernel

/-! Witnesses: power, the host, links, the Proctor. -/

/-- SectorControlCompletes: sectors that close, that have closed, that calibrate in and past their limit, and whose ratio changes. -/
theorem test_sector_control_cases : (let s := State.reset;
      s.dieExists s.input.die = true ∧ s.frozen = false ∧ (s.sector s.inSector).mode = .inService ∧ s.insts = [] ∧ s.sectorBusy 0 = false) ∧
    (let s := State.reset.updSector 0 (fun t => { t with mode := .closing, closed := true, ratioReq := 1 });
      (s.sector 0).mode = .closing ∧ (s.sector 0).changing = none ∧ (s.sector 0).closed = true ∧ s.sectorBusy 0 = false ∧ s.sectorRuns 0 = true ∧
      (s.sector 0).ratioWanted ≠ (s.sector 0).ratio ∧ s.bulkBusy 0 = false) ∧
    (let s := State.reset.updSector 0 (fun t => { t with mode := .calib, changing := some 1 });
      (s.sector s.inSector).mode = .calib ∧ s.dev ≤ (s.sector 0).calibSince + calibLimit ∧ s.input.value = 0 ∧ (s.sector 0).changing = some 1) ∧
    (let s := { State.reset.updSector 0 (fun t => { t with mode := .calib }) with dev := calibLimit + 1 };
      (s.sector 0).calibSince + calibLimit < s.dev) ∧ (State.reset.updSector 0 (fun t => { t with mode := .gated })).sector 0 ≠ State.reset.sector 0 := by
  decide +kernel
/-- PowerEventsComplete: a time at which each interval is over; inputs above their limits. -/
theorem test_power_cases : let s : State := { State.reset with dev := 2000 * usUnits, input := { Input.none with ints := [130] } };
    s.frozen = false ∧ s.deviceNs / 1000 ≠ s.meterAt ∧ s.proctor.almanacAt + 1000 * usUnits ≤ s.dev ∧ s.proctor.powerAt + 100 * usUnits ≤ s.dev ∧
    s.input.flag = false ∧ 115 < s.input.ints.getD 0 0 ∧ 125 < s.input.ints.getD 0 0 := by decide +kernel
/-- HostAccessCompletes: a register of a die that exists, an aligned access inside HBM and one beyond it. -/
theorem test_host_cases : (let s : State := { State.reset with input := { Input.none with offset := 0x460 + 4 * 15, size := 4 } };
      s.frozen = false ∧ s.dieExists s.input.die = true ∧ s.input.offset = 0x460 + 4 * 15 ∧ s.input.offset % s.input.size = 0 ∧
      s.input.offset < s.hbmBytes ∧ s.memBad (s.package * 2 ^ 45 + s.input.offset) = false) ∧
    (let s : State := { State.reset with hbmStacks := 1, input := { Input.none with offset := 48 * 2 ^ 30, size := 8 } };
      s.input.offset < 2 ^ 39 ∧ s.hbmBytes ≤ s.input.offset) := by decide +kernel

/-- A state whose port 0 is as given. -/
def portBench (p : Port) (x : Input) : State := { State.reset.setPort 0 p with input := x }

/-- PortEventsComplete: a port in each state its events need. -/
theorem test_port_cases :
    (portBench { Port.reset with state := 1 } { Input.none with value := 2 ^ 31 }).linkRuns 0 = true ∧
    bitsN ({ Input.none with value := 2 ^ 31 } : Input).value.toNat 31 31 = 1 ∧ bitsN ({ Input.none with value := 2 ^ 29 } : Input).value.toNat 30 29 = 1 ∧
    (let s := portBench { Port.reset with state := 2, auto := true, width := 1 } { Input.none with flag := true };
      (s.port 0).wmax < (s.port 0).width ∧ (s.port 0).width < 2 ∧ (s.port 0).regainAt + 100000 * usUnits ≤ ({ s with dev := 100000 * usUnits } : State).dev) ∧
    (let s := portBench { Port.reset with state := 3, target := some 1 } Input.none;
      (s.port 0).pendingDown = 0 ∧ (s.port 0).exhausted = false ∧ (s.port 0).wmax ≤ 1 ∧ s.input.flag = false) := by decide +kernel

/-- FlitsComplete: flits whose CRC is right, in sequence and not; a NAK; a port whose flits have been sent again 8 times. -/
theorem test_flit_cases : (let f := mkFlit 0 4095 0 [1];
      flitOk f = true ∧ flitType f = 0 ∧ flitSeq f = (({ Port.reset with state := 2 } : Port).rxSeq + 1) % 4096 ∧ flitOk (f.set 3 7) = false) ∧
    flitOk (mkFlit 0 5 1 []) = true ∧ flitType (mkFlit 0 5 1 []) = 1 ∧ flitOk (mkFlit 0 5 2 []) = true ∧ flitType (mkFlit 0 5 2 []) = 2 ∧
    flitOk (mkFlit 0 5 3 [2]) = true ∧ flitType (mkFlit 0 5 3 [2]) = 3 ∧
    (let s := portBench { Port.reset with state := 2, replay := [(0, [])], resent := [(0, 8)] } Input.none;
      s.linkRuns 0 = true ∧ (s.port 0).replay ≠ [] ∧ (∃ x ∈ (s.port 0).replay, 8 ≤ Map.get 0 (s.port 0).resent x.1) ∧ (s.port 0).auto = false) := by decide +kernel
/-- ProctorRequestsComplete: an image kind, a hand-over in and past its limit, thresholds in and out of range, the parties' requests. Whether a
signature holds is free (log 64), so that each of its two clauses is met in some device. -/
theorem test_proctor_cases : imageKind 2 = true ∧ State.reset.proctor.doeHeld = false ∧ State.reset.proctor.fwk.pending = none ∧
    (let s : State := { State.reset with proctor := { Proctor.reset with fwk := { Proctor.reset.fwk with pending := some 2 }, negotiated := true } };
      s.proctor.fwk.pending = some 2 ∧ s.quiesced 2 = true ∧ s.dev ≤ s.proctor.fwk.since + activateLimit ∧
      s.proctor.fwk.since + activateLimit < activateLimit + 1) ∧
    ((60 : Int) ≤ 60 ∧ (60 : Int) + 5 ≤ 65) ∧ (100 : Int) + 5 ≤ 110 ∧ ¬((60 : Int) ≤ 59) ∧ State.reset.proctor.timeSet = false := by decide +kernel
/-- FreezeCompletes: a frozen package, and one whose enable is set. -/
theorem test_freeze_cases : ({ State.reset with proctor := { Proctor.reset with freezeFuse := true, frzPin := true } } : State).frozen = true ∧
    ({ Proctor.reset with freezeRun := true } : Proctor).freezeEnable = true := by decide +kernel

/-! Witnesses: the fabric and requests. -/

/-- TokensHop: a token out of cell 0's port E toward cell 1, in the same instance and across a boundary; one at a transit entry. -/
theorem test_hop_cases : (let s := ((bench 0 .data 0 0 0).updInst 1 (fun i => { i with w := 2 })).updCell 0 (fun c => c.setLinkQ 1 0 [⟨0, mkToken 0 .data 5 [], none⟩]);
      s.neighbour 0 1 = some 1 ∧ (s.cell 0).linkQ 1 0 = [⟨0, mkToken 0 .data 5 [], none⟩] ∧ s.sectorRuns (sectorOfCell 1) = true ∧
      ((s.cell 1).inFifo (oppositePort 1) 0).length < 4 ∧ (mkToken 0 .data 5 []).parityOk = true ∧ (s.instAt 1).any (fun i => i.covers 0) = true ∧
      s.linkSent 0 1 < 2 ∧ s.linkNext 0 1 = some 0 ∧ (s.updCell 0 (fun c => { c with arbs := [(1, ⟨0, 2, 5⟩)] })).linkSent 0 1 = 2) ∧
    (let s := ((bench 0 .data 0 0 0).updInst 1 (fun i => { i with x0 := 1 })).updCell 0 (fun c => c.setLinkQ 1 0 [⟨0, mkToken 0 .data 5 [], none⟩]);
      s.linkSent 0 1 < 2 ∧ s.linkNext 0 1 = some 0 ∧ (s.instAt 1).any (fun i => !i.covers 0 && s.boundaryOpen i 1 (oppositePort 1) 0) = true ∧ (s.cell 1).transitOut (oppositePort 1) 0 = none) ∧
    (let s := (bench 0 .data 0 0 0).updCell 0 (fun c => { c.setInFifo 3 7 [mkToken 0 .data 5 []] with transit := [(3, 7, 4, 9)] });
      (s.cell 0).transitOut 3 7 = some (4, 9) ∧ (s.cell 0).inFifo 3 7 = [mkToken 0 .data 5 []] ∧ s.hasCredit 0 (4, 9) = true ∧
      (s.instAt 0).any (fun i => s.boundaryOpen i 0 4 9) = true) := by decide +kernel

/-- A request of slot 0 of the bench's instance. -/
def reqOf (body : ReqBody) (stage : ReqStage) (addr : Nat) (dst : Dst) : Req where
  id := 9
  cell := 0
  slot := 0
  order := 9
  inst := 1
  asid := 0
  body := body
  stage := stage
  handle := 0
  elem := 0
  named := true
  loc := false
  addr := addr
  size := 4
  swz := 0
  dst := dst
  dstOff := 0
  kind := .data
  deps := []
  result := 0
  operands := []
  retired := false
  remote := true
  sentAt := 0
  wlvl := 7
  paused := false
  arrived := 0
  readyAt := 0
  back := 0
  leaf := 16
  atHub := true
  hops := 0
  hopAt := 0

/-- The bench with one request. -/
def reqBench (body : ReqBody) (stage : ReqStage) (addr : Nat) (dst : Dst) : State :=
  { bench 0 .data 0 0 0 with reqs := [reqOf body stage addr dst] }

/-- RequestsReachTheirMemory: a REM load and store of cell 0's byte 64, a GLB load with its page in the cache, and one translated. -/
theorem test_request_cases : (let s := reqBench (.load false false) .issued 64 (.reg 0);
      s.req 9 = some (reqOf (.load false false) .issued 64 (.reg 0)) ∧ s.sectorRuns (sectorOfCell 0) = true ∧ remPkg 64 = s.package ∧ remCell 64 = 0 ∧
      s.dieExists (remDie 64) = true ∧ (s.sector (sectorOfCell (remCell 64))).shut = false ∧
      (s.instAt (remCell 64)).any (fun i => decide (i.asid = 0 ∧ remOff 64 + 4 ≤ i.spad)) = true ∧ (s.cell 0).anyBad 0 64 4 = false ∧
      (s.cell 0).anyTagged 0 64 4 = false) ∧
    (let s := (reqBench (.load true false) .issued 64 (.reg 0)).updSector 0 (fun k => { k with tlb := [⟨0, 0, 16, 0, true, true⟩] });
      (s.translate 0 0 (s.reqRoot (reqOf (.load true false) .issued 64 (.reg 0))) 64 .load).1 = .ok 64) ∧
    (let s := reqBench (.atomic true .u32 0 0 0 1) (.translated 64) 64 (.reg 0);
      s.writeAhead (reqOf (.atomic true .u32 0 0 0 1) (.translated 64) 64 (.reg 0)) 64 = false ∧ s.portTurn 0 9 = true ∧ s.paPresent 64 = true ∧ paIsHost 64 = false ∧
      paPackage 64 = s.package ∧ s.admits 0 32 = true ∧ s.memBad 64 = false) := by decide +kernel
/-- RequestsAndInvalidationsEnd: answered requests, a fence with nothing to wait for, requests to package 1 sent 10 ms ago, an invalidation. -/
theorem test_request_end_cases : (let s := reqBench (.load true false) .answered 64 (.out 0);
      (s.inst 1).any (fun i => !i.retired) = true ∧ s.resultBlocked (reqOf (.load true false) .answered 64 (.out 0)) = false ∧
      s.outRoom (s.resultCell 0 0) 0 1 = true) ∧
    (reqBench (.fence 15 0 [] []) .waiting 0 .none).pairsDone [] = true ∧
    (let s := { reqBench (.tlnch 256 0) .issued 0 .none with dev := 10000 * usUnits };
      s.foreign (reqOf (.tlnch 256 0) .issued 0 .none) = some 1 ∧ 0 + 10000 * usUnits ≤ s.dev ∧ (s.port ((Map.get 0 s.oroute 1).toNat % 16)).state ≠ 3) ∧
    (reqBench (.load false false) .issued (2 ^ 55) .none).foreign (reqOf (.load false false) .issued (2 ^ 55) .none) = some 1 ∧
    (let s := State.reset.updDie 0 (fun d => { d with xlBusy := true, xlPending := [(0, none)] });
      (s.dieAt 0).xlBusy = true ∧ s.usesEntry (0, none) = false) := by decide +kernel
/-- CellAndUnitEventsComplete: a trigger that is due, a slot whose phase is done, a `comb` that waited 100 us, a limiter's boundary. -/
theorem test_cell_event_cases : (let s := (bench 0 .data 0 0 0).updCell 0 (fun c => { c with trigDue := true });
      (s.cell 0).trigDue = true ∧ (s.instAt 0).isSome = true) ∧
    (let s := (bench 0 .data 0 0 0).updCell 0 (fun c => { c.setSlot 0 { SlotState.zero with phaseCount := 1 } with
        active := (c.active.setOp 0x40 0x8040).setOp 0x50 1 });
      (s.cell 0).phaseDone 0 = true ∧ s.sectorRuns 0 = true) ∧
    (let s := { (bench 0 .data 0 0 0).updCell 0 (fun c => { c.setInFifo 4 0 [mkToken 0 .data 5 []] with
        active := ((c.active.setRt 0 0).setRt 1 0x1430).setRt 2 0x9808 }) with now := 100 * usUnits, dev := 100 * usUnits };
      let w := ((s.cell 0).active.routeWord 0).toNat;
      bitsN w 47 44 = 9 ∧ (s.inHead 0 (bitsN w 43 41, bitsN w 40 36)).isSome = true ∧ s.inHead 0 (bitsN w 35 33, bitsN w 32 28) = none ∧
      limitAt (s.dieAt 0).redOld (s.dieAt 0).redus 0 = 100 ∧ 0 + 100 * usUnits ≤ s.dev ∧ s.recWaits 0 0 1 = false) ∧ (State.reset.sector 0).slewAt ≤ State.reset.cycle 0 := by
  decide +kernel

/-- A product of the bench's instance, its waves done. -/
def productOf : Product where
  id := 5
  inst := 1
  cell := 0
  slot := 0
  opc := 0xA0
  f := plain .bf16x2
  kEls := 16
  n := 16
  earliest := 0
  granted := true
  started := true
  tick := 1000
  nextAt := 0
  passes := []
  wb := 0
  curA := []
  curB := []
  curSA := []
  curSB := []
  kind := .data
  pay := 0
  deps := []
  todo := []
  rows := []
  scales := []
  failed := false

/-- A `gsread` command of the bench's cell, running or not. -/
def grammarOf (running : Bool) : GveCmd where
  id := 6
  op := .read
  running := running
  suspended := false
  cell := 0
  slot := 0
  inst := some 1
  node := none
  job := 0
  asid := 0
  image := []
  home := 0
  slateBase := 0
  slateLen := 8
  cursor := 0
  flags := 0
  result := 0
  hold := none
  retry := false
  met := none
  retired := false
  paid := 0
  deps := []

/-- CellAndUnitEventsComplete: a finished product, a grammar command that waits and one that runs. -/
theorem test_unit_event_cases : (let s := { bench 0 .data 0 0 0 with products := [productOf] };
      s.products.find? (fun q => q.id == 5) = some productOf ∧ (s.inst 1).any (fun i => decide (productOf.ticks i ≤ 1000)) = true ∧ productOf.nextAt ≤ s.cycle 0 ∧
      s.outRoom 0 0 1 = true) ∧
    (let s := State.reset.updSector 0 (fun k => { k with gve := [grammarOf false] });
      (∀ c ∈ (s.sector 0).gve, c.running = false) ∧ nextGve (s.sector 0).gve [] = some (grammarOf false)) ∧
    (let s := { (reqBench (.grammar 6) .waiting 0 (.out 0)).updSector 0 (fun k => { k with gve := [grammarOf true] }) with now := 720 };
      (s.sectors.find? (fun e => e.2.gve.any (fun c => c.id == 6))).isSome = true ∧ (∀ r ∈ s.reqs, r.readyAt + 12 * cycleUnits 0 ≤ s.now) ∧
      ((s.sector 0).slateEntry 0).bad = false) := by decide +kernel

/-! Witnesses: engines, messages and subscriptions. -/

/-- A gather command of the bench's cell: two indices at VA 0, one-sector rows at VA 1024, data at VA 2048; a completion block. -/
def gatherOf (stage : CmdStage) (cb hi : Nat) : Cmd where
  id := 7
  kind := .gath
  stage := stage
  sector := 0
  cell := 0
  slot := 0
  inst := some 1
  node := none
  job := 0
  asid := 0
  x0 := 0
  y0 := 0
  w := 1
  h := 1
  desc := natBytes 64 (cb * 2 ^ 384 + hi * 2 ^ 336 + 1 * 2 ^ 320 + 1 * 2 ^ 288 + 2 * 2 ^ 256 + 2048 * 2 ^ 128 + 1024 * 2 ^ 64)
  home := 0
  cursor := 0
  written := 0
  counted := 0
  accepted := false
  ringDone := false
  lanes := [0]
  laneDone := []
  shipped := 0
  sent := []
  fetched := []
  translated := 0
  xl := []
  asked := []
  paid := 0
  hold := none
  retry := false
  met := none
  sentAt := 0
  deps := []
  retired := false

/-- The bench with one command and its first page in the cache. -/
def cmdBench (c : Cmd) : State :=
  { (bench 0 .data 0 0 0).updSector 0 (fun k => { k with tlb := [⟨0, 0, 16, 0, true, true⟩] }) with cmds := [c] }

/-- EngineEventsComplete: a command that waits, one at work whose rows are translated, and one with an index lane at DONE. -/
theorem test_engine_cases : (let c := gatherOf .queued 0 0;
      (cmdBench c).cmd 7 = some c ∧ (match (cmdBench c).acceptCmd c with | .ok _ => true | .error _ => false) = true) ∧
    (let c := { gatherOf .active 0 (2 ^ 45) with accepted := true, translated := 2 };
      (cmdBench c).cmdRuns c = true ∧ c.gBtu = true ∧ c.gIsrc = false ∧ c.cursor < c.total ∧ (cmdBench c).unitReach c ≤ c.translated ∧
      (match (cmdBench c).unit c with | .ok _ => true | .error _ => false) = true ∧ ({ c with translated := 0 } : Cmd).translated < c.gNidx) ∧
    (let c := { gatherOf .active 0 0 with accepted := true };
      c.gBtu = false ∧ c.shipped < c.gNidx) ∧
    (let c := { gatherOf .active 0 (2 ^ 36) with accepted := true, laneDone := [false] };
      let s := (cmdBench c).updCell 0 (fun x => x.setLinkQ 5 0 [⟨0, mkToken 0 .done 0 [], none⟩]);
      c.gIsrc = true ∧ 0 < 2 ^ c.gLw ∧ c.laneDone[0]? = some false ∧ (s.cell 0).linkQ 5 (c.gLvc + 0) = [⟨0, mkToken 0 .done 0 [], none⟩]) := by decide +kernel
/-- EngineEventsComplete: signals at the ring and barrier words of `ringBench`, a command that is done with a token and without, and one to suspend. -/
theorem test_engine_signal_cases : (let c := { gatherOf .active (2 ^ 127 + 64 * 2 ^ 104) 0 with accepted := true, written := 1 };
      c.completion.ben = true ∧ c.cellAt c.completion.bcell = some 0 ∧ c.counted < c.written ∧
      (match (ringBench 0 0).engineDecrement ⟨0, c.completion.boff, 0⟩ 1 with | .ok _ => true | .error _ => false) = true) ∧
    (let c := { gatherOf .active (2 ^ 103 + 64 * 2 ^ 80 + 1 * 2 ^ 72) 0 with accepted := true, cursor := 2 };
      c.performed = true ∧ c.completion.ren = true ∧ c.cellAt c.completion.rcell = some 0 ∧
      (match (ringBench 0 0).engineAdvance ⟨0, c.completion.roff, 0⟩ c.completion.rslot with | .ok (some _) => true | _ => false) = true) ∧
    (let c := { gatherOf .active (2 ^ 71) 0 with accepted := true, cursor := 2 };
      c.performed = true ∧ c.completion.ben = false ∧ c.completion.ren = false ∧ c.completion.ten = true ∧ c.cellAt c.completion.tcell = some 0 ∧
      (((cmdBench c).cell 0).inFifo 5 c.completion.tvc).length < 4 ∧ ((cmdBench c).instAt 0).any (fun i => (cmdBench c).boundaryOpen i 0 5 0) = true ∧
      (gatherOf .active 0 0).completion.ten = false) ∧
    (let c := gatherOf .queued (2 ^ 71) 0;
      let s := (cmdBench c).updInst 1 (fun i => { i with preempt := true });
      (s.inst 1).any (fun i => i.preempt && !i.retired) = true ∧ c.inPatch = true ∧ c.stage = .queued ∧ c.written = c.counted) := by decide +kernel
/-- MessageEventsComplete: a `send` to die 0's Pilot, a routing record for a closed entry, a `tlnch` to this package. -/
theorem test_message_cases : (let s := reqBench (.send 5 .data (2 ^ 10)) .issued 0 .none;
      s.req 9 = some (reqOf (.send 5 .data (2 ^ 10)) .issued 0 .none) ∧ (reqOf (.send 5 .data (2 ^ 10)) .issued 0 .none).pilot = none ∧
      s.earlier (reqOf (.send 5 .data (2 ^ 10)) .issued 0 .none) (fun _ => true) = false ∧ tgtPkg (2 ^ 10) = s.package ∧ tgtPil (2 ^ 10) = true ∧
      s.dieExists (tgtDie (2 ^ 10)) = true ∧ (s.dieAt 0).pilot.event.length < 256) ∧
    (let s := reqBench (.rgreq 0) .issued 0 .none;
      rrPkg 0 = s.package ∧ (s.sector (rrSector 0)).shut = false ∧ (s.sector (rrSector 0)).grantOf (rrExpert 0) = some (0, Grant.reset) ∧
      (Grant.reset.decide 0 0 0).2.2 = none) ∧ 0 / 256 % 64 = (reqBench (.tlnch 0 0) .issued 0 .none).package := by decide +kernel

/-- A job with the default packet but a number of 1 and ROOT 1, one profile. -/
def jobOf (packet : Nat) : Job where
  key := 0
  die := 0
  queue := 0
  packet := BitVec.ofNat 512 (1 * 2 ^ 128 + 1 * 2 ^ 96 + packet)
  profiles := [0]
  tstart := 0
  npre := 0
  nflt := 0
  aborted := false
  lost := false
  closed := false
  recordsDone := 0
  spill := []
  spilled := 0
  debug := false
  divert := false

/-- MessageEventsComplete: a valid dynamic COPY record of a job. -/
theorem test_record_arrival_case : let s := { reqBench (.tenq (BitVec.ofNat 512 (2 * 2 ^ 62))) .issued 0 .none with jobs := [jobOf 0] };
    (s.issuerJob (reqOf (.tenq (BitVec.ofNat 512 (2 * 2 ^ 62))) .issued 0 .none)).bind s.job = some (jobOf 0) ∧
    s.dynOk (jobOf 0) (BitVec.ofNat 512 (2 * 2 ^ 62)) = true ∧ (s.dieAt 0).poolUsed < 1024 := by decide +kernel

/-- Writes handle n of a plane. -/
def putHandle (p : Plane) (n v : Nat) : Plane :=
  (List.range 8).foldl (fun (q : Plane) k => q.setHt (8 * n + k) (BitVec.ofNat 16 (v / 2 ^ (16 * k)))) p

/-- The bench's cell publishes handle 0 and mirrors it at handle 1, whose publisher handle 2 names, with a `sub` under way. -/
def subBench (stage : ReqStage) : State :=
  (reqBench (.sub 1) stage 0 (.out 0)).updCell 0 (fun c => { c with
    active := putHandle (putHandle (putHandle c.active 0 (2 ^ 125 + 2 * 2 ^ 116 + 15 * 2 ^ 92 + 64)) 1 (2 ^ 124 + 2 ^ 121 + 2 * 2 ^ 116 + 15 * 2 ^ 92 + 512)) 2
      (1 * 2 ^ 126 + 2 * 2 ^ 116 + 64) })

/-- A pair of the bench's cell with itself. -/
def pairOf (queue : List Update) (parked : Bool) : Pair where
  id := 4
  pub := 0
  slot := 0
  sub := 0
  mirror := 1
  regionBase := 64
  regionLen := 64
  regionSwz := 0
  mirrorBase := 512
  mirrorLen := 64
  mirrorSwz := 0
  heldSector := none
  heldMask := 0
  heldBytes := []
  heldSince := 0
  queue := queue
  live := true
  parked := parked
  reserved := false
  frame := none
  frameLo := 0
  saved := parked
  pubFrame := none
  closed := 2
  applied := 2
  asked := 0
  synced := 0
  gone := false
  markAt := 0

/-- An update of one byte at offset 64, or a marker. -/
def updateOf (marker : Bool) : Update where
  off := 64
  mask := 1
  bytes := [5]
  marker := marker
  ready := true
  hops := 0
  hopAt := 0

/-- SubscriptionEventsComplete: a `sub` refused (no such cell publishes) and one granted; a snapshot that is through. -/
theorem test_sub_cases : ((reqBench (.sub 1) .issued 0 (.out 0)).subStatus (reqOf (.sub 1) .issued 0 (.out 0)) 1).1 ≠ 0 ∧
    ((subBench .issued).publisherOf 0 1) = (0, 0, 64) ∧ ((subBench .issued).subStatus (reqOf (.sub 1) .issued 0 (.out 0)) 1).1 = 0 ∧
    (let s := { subBench .snapshot with pairs := [pairOf [] false] };
      s.pairOf 0 1 (s.publisherId 0 1) = some (pairOf [] false) ∧ (pairOf [] false).isExt = false ∧ (64 + 64 + 31) / 32 - 64 / 32 ≤ (pairOf [] false).applied) := by decide +kernel
/-- SubscriptionEventsComplete: a held update 16 cycles old, an update to apply, a subscriber that drains, updates to a frame, park entries free and used. -/
theorem test_pair_cases : (let s := { bench 0 .data 0 0 0 with pairs := [{ pairOf [] false with heldSector := some 64 }], now := 16 * 60 };
      s.reqs = [] ∧ (s.pair 4).any (fun p => p.heldSector.isSome && decide (p.heldSince + 16 ≤ s.cycle (sectorOfCell p.pub))) = true) ∧
    (let s := { bench 0 .data 0 0 0 with pairs := [{ pairOf [updateOf false] false with pub := 1 }] };
      s.subscriberReady { pairOf [updateOf false] false with pub := 1 } = true ∧ s.mirrorsOf ((s.instAt 0).get (by decide +kernel)) ≠ [] ∧
      s.parkUsed 0 < 64) ∧
    (let s := { (bench 0 .data 0 0 0).updInst 1 (fun i => { i with preempt := true, parkReserved := true }) with pairs := [{ pairOf [] false with reserved := true }] };
      (s.instAt 0).any (fun i => i.preempt && i.parkReserved) = true) ∧
    (let p := pairOf [updateOf false] true;
      let s := { (bench 0 .data 0 0 0).updInst 1 (fun i => { i with restoreStep := 2 }) with pairs := [p] };
      p.saved = true ∧ (s.instAt 0).any (fun i => decide (0 < i.restoreStep) && s.mirrors i p) = true) ∧
    ({ bench 0 .data 0 0 0 with pairs := List.replicate 64 (pairOf [] true) } : State).parkUsed 0 = 64 := by decide +kernel

/-! Witnesses: launch, placement, records and the handler. -/

/-- Page tables at ROOT 1: one leaf maps the first 8 GiB of VA to the same PA, writable. -/
def mapped (s : State) : State := (s.memWrite 0x8000 0x1000D 8).memWrite 0x10000 0xF 8

/-- A queue header at PA 0x20000: 16 slots at 0x20400, RIDX and WIDX as given. -/
def withQueue (s : State) (ridx widx : Nat) : State :=
  (mapped s).memWrite 0x20000 (4 * 2 ^ 256 + 0x20400 * 2 ^ 192 + ridx * 2 ^ 64 + widx) 64

/-- A record of the pool. -/
def recordOf (node : Nat) (done : Bool) : PoolRec where
  key := 3
  die := 0
  job := 0
  gidx := 0
  dyn := false
  node := BitVec.ofNat 512 node
  since := 0
  inPool := true
  total := 1
  nextGp := 0
  live := 0
  finished := 0
  frames := []
  running := done
  engineDone := done
  completed := false
  order := 3
  anchors := []
  scanned := false

/-- A die whose pool holds one record. -/
def poolState (node : Nat) (done : Bool) : State :=
  { State.reset.updDie 0 (fun d => { d with pool := [recordOf node done] }) with jobs := [jobOf 0] }

/-- LaunchEventsComplete: a queue that is enabled with a header that cannot be read, a COPY record that is done, a job whose records are over. -/
theorem test_launch_cases : (let e : BitVec 128 := BitVec.ofNat 128 (1 + 2 ^ 45 + 0x20000 * 2 ^ 64);
      qEn e = true ∧ (match State.reset.queueHeader e with | .error _ => true | .ok _ => false) = true ∧
      (match (withQueue State.reset 0 0).queueHeader e with | .error _ => false | .ok _ => true) = true ∧ qEn (State.reset.queueEntry 0 0) = false) ∧
    (let s := poolState (2 * 2 ^ 62) true;
      (List.range 4).findSome? (fun d => s.poolRec d 3) = some (recordOf (2 * 2 ^ 62) true) ∧ (recordOf (2 * 2 ^ 62) true).done = true ∧
      nodeNsucc (recordOf (2 * 2 ^ 62) true).node = 0 ∧ s.job 0 = some (jobOf 0) ∧ ∀ x ∈ s.jobs, x.spill = []) ∧
    (let s : State := { State.reset with jobs := [{ jobOf 0 with recordsDone := 1 }] };
      s.jobBusy 0 = false ∧ s.recordsOver { jobOf 0 with recordsDone := 1 } = true) := by decide +kernel
/-- PlacementEventsComplete: a COPY candidate with nothing resident. -/
theorem test_placement_case : (let s := poolState (2 * 2 ^ 62) false;
      let u := (((s.tidyFrames 0).tidyReserved 0).refill 0).findAnchors 0;
      s.insts = [] ∧ (s.dieAt 0).reserved = [] ∧ u.candidates 0 = [{ recordOf (2 * 2 ^ 62) false with scanned := true }] ∧ u.job 0 = some (jobOf 0) ∧ u.cmds = [] ∧ 0 ∈ u.sectorOrder 0 ∧
      (u.sector 0).mode = .inService ∧ (u.sector 0).closed = false ∧ (u.sector 0).tripped = false) := by decide +kernel
/-- PlacementEventsComplete: a quiet instance with a swap pending, one whose planes are sealed under another version, a swap token, a retired
instance, an allotment no longer owned. -/
theorem test_drain_cases : (let s := ({ State.reset with nextId := 1 } : State).placeOne.updInst 1 (fun i => { i with swap := some (.token 3) });
      (s.inst 1).any (fun i => s.quiet i && i.atPoint.isNone && !i.retired && i.hold.isNone && (s.swapConflict i).isNone) = true) ∧
    (let s := (({ State.reset with nextId := 1 } : State).placeOne.updInst 1 (fun i => { i with swap := some (.token 3) })).updCell 0 (fun c =>
        { c with shadowState := .sealed 2 });
      (s.inst 1).any (fun i => decide (s.swapConflict i = some (2, 3))) = true ∧ s.allSealed 0 0 0 1 1 = some 2) ∧
    (let s := (bench 0 .data 0 0 0).updSector 0 (fun k => { k with swapTokens := [⟨0, 0, 1, 1, 3, .pilot⟩] });
      (s.insts.find? (fun i => !i.retired && i.restoreStep != 1 && i.rect == (0, 0, 0, 1, 1))).isSome = true) ∧
    (let s := (bench 0 .data 0 0 0).updInst 1 (fun i => { i with retired := true });
      (s.inst 1).any (fun i => i.retired) = true ∧ s.cmds = [] ∧ s.reqs = []) ∧
    (let s := State.reset.updSector 0 (fun k => { k with slateAllot := [(5, 0, 8)] });
      (s.sectors.find? (fun e => e.2.slateAllot.any (fun x => x.1 == 5))).isSome = true ∧ s.insts = []) := by decide +kernel

/-- A record of a job with its fault queue at VA 0x20000 in the tables of `mapped`. -/
def faultOf (kept : Bool) (job : Option Nat) : FaultRec :=
  { (State.reset.baseRec 0 none 0x0D06 0 0) with fq := 0x20000, root := 1, kept := kept, job := job }

/-- A die on which one record waits, its cycle over. -/
def recordState (s : State) (r : FaultRec) : State := { s.updDie 0 (fun d => { d with records := [r] }) with now := 60 }

/-- RecordsAndLimitsComplete: a record to keep, one to write with room and without, one whose queue cannot be read, one that retries. -/
theorem test_record_cases : (recordState State.reset (faultOf true none)).frozen = false ∧
    (recordState State.reset (faultOf true none)).nextRec 0 = some (faultOf true none, 0) ∧
    (let s := recordState (withQueue State.reset 0 0) (faultOf false (some 0));
      (match s.readHeader 0 1 0x20000 with
        | .ok h => decide (s.ttXlat 0 1 (h.slot h.widx) .store = some 0x20400 ∧ h.widx - h.ridx < 2 ^ h.logn)
        | .error _ => false) = true) ∧
    (match (withQueue State.reset 0 16).readHeader 0 1 0x20000 with | .ok h => decide (2 ^ h.logn ≤ h.widx - h.ridx) | .error _ => false) = true ∧
    (match State.reset.readHeader 0 1 0x20000 with | .ok _ => false | .error _ => true) = true ∧
    (let r : FaultRec := { faultOf false none with claimed := true, tried := true };
      (recordState (withQueue State.reset 0 1) r).retryRec 0 = some (r, 0, some 0x20400)) := by decide +kernel
/-- RecordsAndLimitsComplete: a hold 1 s old, an instance still for TWUS, a drain past DRUS. -/
theorem test_limit_cases : (let h : Hold := ⟨0, 0, none, none, .grant, [], 0x0305, 0, false, [], [], 0, true, 0, 0, false, []⟩;
      let s : State := { State.reset.updDie 0 (fun d => { d with holds := [h] }) with dev := 1000000 * usUnits };
      s.hold 0 0 = some h ∧ h.written = true ∧ h.since + 1000000 * usUnits ≤ s.dev ∧ s.holdJob h = none) ∧
    (let s : State := { bench 0 .data 0 0 0 with dev := 10000 * usUnits };
      (s.inst 1).any (fun i => decide (limitAt (s.dieAt i.die).wdOld (s.dieAt i.die).wdcfg i.lastActive = 10000 ∧
        s.spanOver i i.lastActive 10000 = true ∧ s.saveWaits i = false ∧ i.draining = false) && i.cells.all (fun c =>
        (List.range 32).all (fun e => (s.combOut c e).isNone))) = true) ∧
    (let s : State := { (bench 0 .data 0 0 0).updInst 1 (fun i => { i with yielding := true }) with dev := 1000 * usUnits };
      (s.inst 1).any (fun i => decide (limitAt (s.dieAt i.die).drOld (s.dieAt i.die).drus i.drainSince = 1000 ∧
        1000 * usUnits ≤ s.spanTime i.sector i.drainSince [] ∧ s.factOn i = none ∧ i.atPoint = none ∧ s.quiet i = false)) = true) := by decide +kernel

/-- A hold of the bench's instance at slot 0 of cell 0. -/
def holdOf (kind : HoldKind) (cont : Nat) : Hold := ⟨2, 0, some 1, none, kind, [], 0x0305, cont, true, [(0, 0)], [], 0, true, 0, 0, false, []⟩

/-- The bench held so, with a FACT write that names the hold. -/
def heldBench (kind : HoldKind) (cont : Nat) (reqs : List Req) : State :=
  { (((bench 0 .data 0 0 0).updInst 1 (fun i => { i with hold := some 2 })).updDie 0 (fun d => { d with holds := [holdOf kind cont], ctxcfg := 20 * 2 ^ 59 + 4 * 2 ^ 48 })) with
    reqs := reqs, input := { Input.none with value := 2 * 2 ^ 48 } }

/-- HandlerActionsComplete: no hold, a hold at level 1, one for a firing, one for a request that faulted. -/
theorem test_handler_cases : (State.reset.hold 0 (factIdx 0)).isNone = true ∧ (State.reset.dieAt 0).factBusy = none ∧ (State.reset.dieAt 0).factQueue = [] ∧
    (heldBench .firing 1 []).hold 0 (factIdx (heldBench .firing 1 []).input.value) = some (holdOf .firing 1) ∧
    (let s := heldBench .firing 0 [];
      (s.inst 1).any (fun i => s.faultedAt i.id 0 0 == []) = true ∧ s.products = [] ∧ (holdOf .firing 0).recAt 0 0 = none ∧
      (s.inst 1).any (fun i => !i.retired && s.framesFit (s.stagesOf i.node i.gid) 0) = true) ∧
    (heldBench .request 0 [reqOf (.load true false) (.faulted 0x0305) 64 (.reg 0)]).faultedAt 1 0 0 =
      [reqOf (.load true false) (.faulted 0x0305) 64 (.reg 0)] := by decide +kernel
/-- HandlerActionsComplete: no frame in use; frames whose save awaits service, or does not. -/
theorem test_frame_cases : (let f := fun (b : Bool) => (⟨0, 0, 0, 0, 0, 0, 0, 0, 0, false, 4096, [], [], [], [⟨.firing 0 0 0x0305 [], b, none⟩], none, false⟩ : Frame);
      let s := fun (b : Bool) => State.reset.updDie 0 (fun d => { d with frames := [f b] });
      (State.reset.dieAt 0).frames = [] ∧
      ((s true).dieAt 0).frames.find? (fun x => x.idx == factIdx (s true).input.value && (s true).frameUsed x) = some (f true) ∧
      (f true).saves[factCmd (s true).input.value]? = some ⟨.firing 0 0 0x0305 [], true, none⟩ ∧ (s true).restoredInst (f true) = none ∧
      ((s false).dieAt 0).frames.find? (fun x => x.idx == factIdx (s false).input.value && (s false).frameUsed x) = some (f false)) := by decide +kernel

/-! Witnesses: clauses of several statements that need a case of their own. -/

/-- TokensHop: a REM request to cell 1 at the head of VC 26 of cell 0's port E, which the arbiter serves next. -/
theorem test_service_hop_case : let s := { reqBench (.load false false) .issued (2 ^ 47 + 64) (.reg 0) with now := 600 };
    s.neighbour 0 1 = some 1 ∧ (s.meshHead 0 1 26).map MeshTok.ref = some (.req 9) ∧ s.linkSent 0 1 < 2 ∧
    s.linkNext 0 1 = some 26 := by decide +kernel
/-- RequestsReachTheirMemory: a bank that grants the access to byte 64, and one that a PE access of the cycle has. -/
theorem test_bank_cases : (let s := reqBench (.load false false) .issued 64 (.reg 0);
      s.meshReached (reqOf (.load false false) .issued 64 (.reg 0)) = true ∧ (s.askBank 0 1 (s.cycle 0) 0 64 4).1 = true ∧
      ((s.updCell 0 (fun c => c.setBank 0 ⟨[s.cycle 0], 0, []⟩)).askBank 0 1 (s.cycle 0) 0 64 4).1 = false) ∧
    (reqBench (.load true false) (.translated 64) 64 (.reg 0)).hist = [] := by decide +kernel
/-- RequestsAndInvalidationsEnd: an answered request whose answer is back. -/
theorem test_answer_back_case : let s := reqBench (.load true false) .answered 64 (.reg 0);
    s.meshBack (reqOf (.load true false) .answered 64 (.reg 0)) = true ∧ (reqOf (.load true false) .answered 64 (.reg 0)).readyAt ≤ s.now ∧
    s.resultBlocked (reqOf (.load true false) .answered 64 (.reg 0)) = false := by decide +kernel
/-- StreamCommandsComplete: a BEGIN that is the first to wait, and one that is not; PilotInstructionsComplete: a word for the loader. -/
theorem test_begin_cases : (let s := { (bench 0 .data 0 0 0).updLoader 0 (fun l => { l with waiting := [(.pilot, 0)] }) with now := 120 };
      (s.sector 0).loader.firstWaiting .pilot (s.cycle 0) = true ∧ (s.sector 0).loader.serving = none ∧
      ((bench 0 .data 0 0 0).sector 0).loader.firstWaiting .pilot 0 = false) ∧
    openBench.loaderTakes 0 .pilot (openBench.isBegin 0 .pilot 0xFE 0) = true := by decide +kernel
/-- HostAccessCompletes, FreezeCompletes, LaunchEventsComplete: a read of WDCFG through BAR 0, of a doorbell page, an access that a freeze holds
up, eight bytes of the queue table. -/
theorem test_access_cases : (let x : Input := { Input.none with offset := 0x918, size := 8, port := 1 };
      let s : State := { State.reset with input := x };
      x.offset % x.size = 0 ∧ x.offset < 2 ^ 22 ∧ s.dieExists (x.offset / 2 ^ 20) = true ∧ x.offset % 2 ^ 20 = 0x918 ∧ x.offset < 2 ^ 20) ∧
    (let s : State := { State.reset with proctor := { Proctor.reset with freezeFuse := true, frzPin := true }, input := { Input.none with size := 4 } };
      s.frozen = true ∧ s.input.wholeAccess = true ∧ s.dieExists s.input.die = true) ∧
    (let x : Input := { Input.none with size := 8, value := 7 };
      x.wholeAccess = true ∧ x.offset < 1024 ∧
      qEn (BitVec.ofNat 128 (mergeField (State.reset.queueEntry 0 0).toNat (x.offset % 16) x.size x.value.toNat)) = false) := by decide +kernel
/-- FlitsComplete: there is room for a flit's words, one of them for another package. -/
theorem test_word_room : let s := portBench { Port.reset with state := 2 } { Input.none with words := mkFlit 0 4095 0 [1, 2 ^ 55] };
    ((s.input.words.drop 1).take 30).all s.wordRoom = true := by decide +kernel
/-- MessageEventsComplete: a `send` from cell 0 to VC 3 of its own port H, and from a request whose address space no instance there has. -/
theorem test_send_cases : let s := reqBench (.send 5 .data 3) .issued 0 .none;
    tgtPil 3 = false ∧ tgtCell 3 = 0 ∧ tgtVc 3 = 3 ∧ s.meshReached (reqOf (.send 5 .data 3) .issued 0 .none) = true ∧ (s.sector 0).shut = false ∧
    (s.deliverH 0 3 .data 5 []).isSome = true ∧ (s.instAt 0).all (fun j => j.asid != 1) = true := by decide +kernel
/-- SubscriptionEventsComplete: a mirror of a publisher of package 1, its pair, and its subscriber as it drains. -/
theorem test_ext_sub_cases : (let s := (reqBench (.sub 1) .issued 0 (.out 0)).updCell 0 (fun c => { c with
        active := putHandle c.active 2 (1 * 2 ^ 126 + 2 * 2 ^ 116 + 2 ^ 45) });
      (s.publisherOf 0 1).1 = 1 ∧ s.package = 0) ∧
    (let p := { pairOf [] false with pub := extPub 1 0 };
      let s := { (bench 0 .data 0 0 0).updInst 1 (fun i => { i with preempt := true }) with pairs := [p] };
      p.isExt = true ∧ s.mirrorsOf ((s.instAt 0).get (by decide +kernel)) = [p] ∧ s.input.flag = false) := by decide +kernel
/-- MessageOperatorsComplete: `rrpop` with a record at the head of its sector's queue. -/
theorem test_rrpop_serves : AllFire [0xD3] (fun _ => (bench 0 .data 6 3 1).updSector 0 (fun k => { k with rrq := [.record 7] })) (fun a => a)
    (fun _ => plain .i32) (fun _ s1 F => F.works && (s1.sector 0).rrq == [.record 7] && s1.reqs == []) :=
  all_fire (by decide +kernel)
/-- EngineEventsComplete: a row that is back, with its banks granted and its sectors admitted; an accepted command admitted. -/
theorem test_row_cases : (let c := { gatherOf .active 0 (2 ^ 45) with accepted := true, translated := 2 };
      let s := (cmdBench c).rowAnswer 0;
      s.unitReach c ≤ c.translated ∧ (s.unitAsk c).1 = true ∧
      (match (s.unitAsk c).2.unit c with | .ok (u, _) => ((s.unitAsk c).2.meter u c.sector c.id c.paid).1 | .error _ => false) = true) ∧
    (let c := gatherOf .queued 0 0;
      (match (cmdBench c).acceptCmd c with | .ok u => ((cmdBench c).meter u 0 c.id c.paid).1 | .error _ => false) = true) := by decide +kernel
/-- RecordsAndLimitsComplete: a claimed record whose slot has room. -/
theorem test_claimed_record_case : let r : FaultRec := { faultOf false none with claimed := true, seq := 0 };
    let s := recordState (withQueue State.reset 0 1) r;
    s.nextRec 0 = some (r, 0) ∧
    (match s.readHeader 0 1 0x20000 with
      | .ok h => decide (s.ttXlat 0 1 (h.slot 0) .store = some 0x20400 ∧ 0 - h.ridx < 2 ^ h.logn)
      | .error _ => false) = true := by decide +kernel

/-! Witnesses: operators, clauses of several statements. -/

/-- ResultsLand: an atomic whose banks are free and whose cell forwards nothing. -/
theorem test_land_case : let s := bench 0 .data 0 0 0
    s.streamFull 0 64 4 = false ∧ (s.askWords 0 3 1 (accessWords 0 64 4)).1 = true := by decide +kernel
/-- SuppressedFiringPassesItsKind: every operator of 0x60 to 0x73, 0xA0 to 0xAD and 0xC0 to 0xD3 with POISON and with DONE operands; `redw` with
its first word kept, a matrix operator behind a product, a POISON beside the operand of `send`. -/
theorem test_suppressed_operators_fire :
    AllFire (((suppressRows.map Prod.snd) ++ [0xA0, 0xA1, 0xA2, 0xA3, 0xAC, 0xAD, 0xD0]).map (fun o => (o, Kind.poison)) ++
      [(0x61, .done), (0x69, .done), (0xA0, .done), (0xAC, .done), (0xAD, .done), (0xC8, .done), (0xD0, .done)])
      (fun a => bench 0 a.2 6 3 1) (fun a => a.1) (fun a => if a.1 == 0xAC || a.1 == 0xAD then { chans .i32 with mod := 1 } else chans .i32)
      (fun a _ F => !F.works && F.kind == a.2) ∧
    AllFire [0xAD] (fun _ => (bench 0 .poison 6 3 1).updCell 0 (fun c => c.setSlot 0 { SlotState.zero with n := 1 })) (fun a => a)
      (fun _ => { chans .raw32 with mod := 1 }) (fun _ s1 F => !F.works && ((s1.cell F.cell).slot F.slot).n == 1) ∧
    AllFire [0xD0] (fun _ => (bench 0 .data 6 3 1).updCell 0 (fun c => c.setChan 1 [mkToken 0 .poison 9 []])) (fun a => a) (fun _ => chans .raw32)
      (fun _ _ F => !F.works && [F.tb, F.tc].any (fun t => t.any (fun x => x.kind == .poison))) := ⟨all_fire (by decide +kernel), all_fire (by decide +kernel), all_fire (by decide +kernel)⟩
/-- StreamOperatorsComplete: `acc` of a DATA and of a LAST. -/
theorem test_acc_fires : AllFire [Kind.data, .last] (fun k => bench 0 k 6 3 1) (fun _ => 0x83) (fun _ => chans .i32)
    (fun k s1 F => F.kindA == k && !F.isPoison && !((s1.cell F.cell).slot F.slot).f) := all_fire (by decide +kernel)
/-- SystemOperatorsComplete: `swreg` of FPSTAT, of a PERF register whose event is not 6, of a PSEL register. InstanceOperatorsComplete: the instance that fires is its own;
`brk` on a value with debugging enabled, and on a POISON. -/
theorem test_system_cases : AllFire [6, 0x10, 0x1F] (fun _ => bench 0 .data 6 3 1) (fun _ => 0xE2) (fun n => { chans .i32 with imm := n })
      (fun _ s1 F => F.works && Map.get 0 (s1.cell F.cell).psel 0 != 6) ∧
    AllFire [0xE4, 0xE6] (fun _ => { bench 0 .data 6 3 1 with proctor := { Proctor.reset with debugEnable := true } }) (fun a => a) (fun _ => chans .i32)
      (fun _ s1 F => F.checksA && s1.proctor.debugEnable && decide (s1.inst F.inst.id = some F.inst)) ∧
    AllFire [0xE4, 0xE7] (fun _ => bench 0 .poison 6 3 1) (fun a => a) (fun _ => chans .i32) (fun _ _ F => !F.checksA) :=
  ⟨all_fire (by decide +kernel), all_fire (by decide +kernel), all_fire (by decide +kernel)⟩
/-- SynchronisationOperatorsComplete: at a LOC word a wait that goes on, one that is answered, an arrival whose pair has an update to apply and one that has none. -/
theorem test_sync_cases : (match (ringBench 0 1).syncOp ⟨0, 64, 0⟩ (.barw 0 0) with | .wait => true | _ => false) = true ∧
    (match (ringBench 0 1).syncOp ⟨0, 64, 0⟩ (.barw 0 1) with | .done _ _ => true | _ => false) = true ∧
    (let s : State := { ringBench 0 0 with pairs := [{ pairOf [updateOf false] false with closed := 3 }] };
      let q := s.closePairs (s.covered 1 0);
      q.1.pairsDone q.2 = false) ∧
    (let s := ringBench 0 0;
      let q := s.closePairs (s.covered 0 0);
      q.1.pairsDone q.2 = true ∧ (match q.1.syncOp ⟨0, 64, 0⟩ (.bara 0 0 q.2) with | .done _ _ => true | _ => false) = true) := by decide +kernel
/-- MatrixOperatorsComplete: K of one step, distinct handles, offsets of a group; `gq4x8` with its scales. -/
theorem test_matrix_issue : AllFire [(0xA0, Ty.bf16x2, (16 : Word)), (0xA2, .bf16x2, 16), (0xA0, .gq4x8, 64)] (fun a => bench 0 .data a.2.2 1 0) (fun a => a.1)
    (fun a => { chans a.2.1 with imm := 0x0044 }) (fun a s1 F => (preMatrix a.1 s1 F).isNone && decide (0 < F.a.toNat / mmKpc a.2.1) && decide (F.inst.cells.Nodup) &&
      decide ([mmHA 0x44, mmHB 0x44, mmHS 0x44, mmHS 0x44 + 1].Nodup) && (a.2.1 != .gq4x8 || decide (16 ≤ F.a.toNat / mmKpc a.2.1))) := all_fire (by decide +kernel)
/-- MatrixOperatorsComplete: a wave at its first step and later, one whose rows are in. -/
theorem test_wave_case : let s := bench 0 .data 0 0 0
    let p := { productOf with n := 2, passes := [(0, 0, 32)], tick := 0 }
    (s.inst 1).any (fun i => [0, 1, 2, 3].all (fun t => match s.waveCell i p t 0 with | .ok _ => true | .error _ => false) &&
      (match s.wave i p 1 [0] with | .ok _ => true | .error _ => false)) = true ∧ p.passes[0 / p.n]? = some (0, 0, 32) ∧ 0 < p.total ∧
      mmSkew p.opc 0 0 = 0 ∧ p.outsAt 0 0 = .apply [] := by decide +kernel

/-! Witnesses: units, clauses of several statements. -/

/-- TokensHop: an update on VC 29 of cell 0's port E toward its subscriber in cell 1, which the arbiter serves next. -/
theorem test_update_hop_case : let p := { pairOf [updateOf false] false with sub := 1 }
    let s : State := { bench 0 .data 0 0 0 with pairs := [p], now := 600 }
    s.neighbour 0 1 = some 1 ∧ (s.meshHead 0 1 29).map MeshTok.ref = some (.update 4 0) ∧ s.linkSent 0 1 < 2 ∧ s.linkNext 0 1 = some 29 ∧
    s.pairs.find? (fun x => x.id == 4) = some p ∧ p.queue[0]? = some (updateOf false) := by decide +kernel
/-- RequestsReachTheirMemory: a REM store and atomic, which the bank grants, of untagged correctable bytes. -/
theorem test_rem_cases : ∀ b ∈ [ReqBody.store false 5, .atomic false .u32 0 0 0 1], let s := reqBench b .issued 64 (.reg 0)
    s.req 9 = some (reqOf b .issued 64 (.reg 0)) ∧ s.frozen = false ∧ s.sectorRuns 0 = true ∧ (s.askBank 0 1 (s.cycle 0) 0 64 4).1 = true ∧
    s.streamFull 0 64 4 = false ∧ (s.cell 0).anyTagged 0 64 4 = false ∧ (s.cell 0).anyBad 0 64 4 = false := by decide +kernel
/-- RequestsAndInvalidationsEnd: a retired instance's request with a handle, one for channel 24, a fence whose waits are over. -/
theorem test_retired_request_case : (let s := (reqBench (.load true false) .answered 64 (.handle 0)).updInst 1 (fun i => { i with retired := true });
      (s.inst 1).any (fun i => i.retired) = true ∧ s.resultBlocked (reqOf (.load true false) .answered 64 (.handle 0)) = false) ∧
    (let s := reqBench (.load true false) .answered 64 (.out 24); s.outRoom (s.resultCell 0 0) 24 1 = true) ∧
    (reqBench (.fence 15 0 [7] []) .waiting 0 .none).fenceWaits 15 7 = false := by decide +kernel
/-- CellAndUnitEventsComplete: an entry found late at an arrival. -/
theorem test_late_comb_case : let s := (bench 0 .data 0 0 0).updCell 0 (fun c => { (c.setInFifo 4 0 [mkToken 0 .data 5 []]).setRoute 0 { RouteState.zero with late := some true } with
        active := ((c.active.setRt 0 0).setRt 1 0x1430).setRt 2 0x9808 })
    let w := ((s.cell 0).active.routeWord 0).toNat
    ((s.cell 0).route 0).late = some true ∧ (s.inHead 0 (bitsN w 43 41, bitsN w 40 36)).isSome = true ∧ s.recWaits 0 0 1 = false := by decide +kernel

/-- The bench's sector runs one grammar command, its first page in the cache and in use by `gsload`'s handle at VA 64. -/
def gveBench (g : GveCmd) : State :=
  { (bench 0 .data 0 0 0).updSector 0 (fun k => { k with gve := [{ g with running := true }], tlb := [⟨0, 0, 16, 0, true, true⟩] }) with now := 720 }

/-- CellAndUnitEventsComplete: a `gsclr` and a `gsload` of two entries in range, the images read from memory. -/
theorem test_gve_cases : (let g := { grammarOf true with op := .clear, image := natBytes 4 1 ++ natBytes 4 2 ++ natBytes 24 0 };
      gveInRange g = true ∧ (gveBench g).engineStalls 0 4 = false) ∧
    (let g := { grammarOf true with op := .load, image := natBytes 4 1 ++ natBytes 4 2 ++ natBytes 24 0 ++ natBytes 16 (2 * 2 ^ 126 + 3 * 2 ^ 116 + 255 * 2 ^ 92 + 64) };
      let s := gveBench g;
      let h := handleOf (listNat g.image 32 16);
      gveInRange g = true ∧ g.cursor ≤ 2 ∧ (s.sector 0).budgetNow = 0 ∧ imageEntry (List.replicate 32 0) = some ⟨false, 0, [0, 0, 0, 0], false⟩ ∧
      (∀ q, q < 2 → ∀ j, j < 4 → s.tlbLook 0 0 (h.elem ((listNat g.image 8 2 + 4 * q + j) % h.wrap) % 2 ^ 57) .load =
          .ok (h.elem ((listNat g.image 8 2 + 4 * q + j) % h.wrap)) ∧ s.paPresent (h.elem ((4 * q + j) % h.wrap)) = true ∧
          s.memBad (h.elem ((4 * q + j) % h.wrap)) = false ∧ s.memList (h.elem ((4 * q + j) % h.wrap)) 8 = List.replicate 8 0) ∧ s.hist = []) := by decide +kernel
/-- CellAndUnitEventsComplete: the five kinds of symbol, and a row of outputs that may be written. -/
theorem test_symbols : symbolOf (3 * 2 ^ 16 + 0x3F80) = .terminal 3 none 0x3F80 ∧ symbolOf (2 ^ 30 + 2) = .ref 2 ∧ symbolOf (3 * 2 ^ 30 + 5) = .column 5 ∧
    symbolOf (2 ^ 31) = .endRule none ∧ symbolOf (2 ^ 31 + 2 ^ 29 + 4) = .endRule (some 4) ∧
    (gveBench (grammarOf false)).tlbLook 0 0 128 .store = .ok 128 := by decide +kernel

/-- A copy of 32 sectors from VA 64 to VA 2048. -/
def copyOf : Cmd := { gatherOf .active 0 0 with kind := .copy, accepted := true, desc := natBytes 96 (2048 * 2 ^ 64 + 64) }

/-- EngineEventsComplete: a copy whose next sector may be read and written, and an index lane with a DATA at its head whose row may be read. -/
theorem test_copy_case : let s := cmdBench copyOf
    s.nextCopy 0 = some copyOf ∧ s.cmdRuns copyOf = true ∧ copyOf.slvl = false ∧ copyOf.dlvl = false ∧ copyOf.zm = 0 ∧ (s.sector 0).budgetNow = 0 ∧
    walkClipped copyOf.dims (walkIndex copyOf.dims 0) = false ∧ s.tlbLook 0 0 64 .load = .ok 64 ∧ s.tlbLook 0 0 2048 .store = .ok 2048 ∧
    s.paPresent 64 = true ∧ s.paPresent 2048 = true ∧ s.memBad 64 = false ∧ s.hist = [] := by decide +kernel
/-- EngineEventsComplete: an index lane with a DATA at its head, whose row may be read, its banks granted, and moved. -/
theorem test_lane_case : let c := { gatherOf .active 0 (2 ^ 36) with accepted := true, laneDone := [false] }
    let s := (cmdBench c).updCell 0 (fun x => x.setLinkQ 5 0 [⟨0, mkToken 0 .data 1 [], none⟩])
    let g := s.rowAsk c 1 c.gData
    c.lanes[0]? = some 0 ∧ 0 < c.gNidx ∧ g.1 = true ∧
    (match (g.2.updCell 0 (fun y => y.setLinkQ 5 0 [])).readRow c 1 0 with
      | .ok (bs, u) => (match u.writeSectors c c.gDlvl c.gDswz c.gData 1 c.gRsz bs with
        | .ok v => (g.2.meter v 0 c.id c.paid).1
        | .error _ => false)
      | .error _ => false) = true := by decide +kernel
/-- MessageEventsComplete: routing records that are granted and granted again: the weight records may be written. -/
theorem test_weight_cases : let g : Grant := { Grant.reset with opened := true, cap := 2, granted := [(5, 0)], used := 1, wbase := 4096 }
    let s := { ((reqBench (.rgreq 0) .issued 0 .none).updSector 0 (fun k => { k with tlb := [⟨0, 0, 16, 0, true, true⟩] })).setGrant 0 0 g with now := 600 }
    (s.sector 0).grantOf 0 = some (0, g) ∧ g.stuck = none ∧ s.grantAhead (reqOf (.rgreq 0) .issued 0 .none) 0 = false ∧
    (s.sector 0).lastGrant ≠ s.cycle 0 + 1 ∧ s.memBad 4096 = false ∧ (g.decide 0 0 0).2.2.isSome = true ∧ (g.decide (BitVec.ofNat 64 (5 * 2 ^ 32)) 0 0).2.2.isSome = true ∧
    (match s.weightWrite 0 4096 ⟨1, 0, 0x3F80, false, 0, 0, 0⟩, s.weightWrite 0 4096 ⟨0, 5, 0x3F80, true, 0, 0, 0⟩ with
      | .ok u, .ok _ => (s.meter u 0 9 0).1
      | _, _ => false) = true := by decide +kernel
/-- SubscriptionEventsComplete: a snapshot's sector still to be read, an update and a marker at the head of a stream, an update of another package, a park entry in the frame. -/
theorem test_stream_cases : (let p := { pairOf [{ updateOf false with ready := false }] false with live := false, applied := 0 };
      let s := { subBench .snapshot with pairs := [p] };
      s.pairOf 0 1 (s.publisherId 0 1) = some p ∧ p.queue.zipIdx.find? (fun e => !e.1.ready) = some ({ updateOf false with ready := false }, 0) ∧
      p.waiting < 4 ∧ (s.hubAsk (some (p.pubCell, 64, 0)) none).1 = true) ∧
    (∀ m ∈ [false, true], let p := { pairOf [{ updateOf m with hops := 1 }] false with pub := 1 }
      let s : State := { bench 0 .data 0 0 0 with pairs := [p] }
      (s.takeUpdate p).pair 4 = some p ∧ p.parked = false ∧ s.subscriberReady p = true ∧ s.sectorRuns 0 = true ∧ p.queue.all p.arrived = true ∧
      ((s.takeUpdate p).hubAsk none (some (0, 512 + 64 - 64, 0))).1 = true) ∧
    (let p := { pairOf [] false with pub := extPub 1 0 };
      let s : State := { bench 0 .data 0 0 0 with pairs := [p], input := { Input.none with flag := true, offset := 64, index := 1, bytes := [5] } };
      (match (s.takeUpdate p).pair 4 with | some q => (match q.queue with | [u] => q.arrived u && !u.marker && !q.parked | _ => false) | none => false) = true) ∧
    (let p := { pairOf [updateOf false] true with frame := some 4096 };
      let s : State := { bench 0 .data 0 0 0 with pairs := [p] };
      (s.meter ((s.frameWrite p (updateOf false)).updPair p.id Pair.pop) 0 p.id 0).1 = true ∧ p.onMesh = true ∧ p.saved = true) := by decide +kernel
/-- PlacementEventsComplete: GRAMMAR and PILOT candidates; a FABRIC candidate that is placed, and one whose anchor has retired. -/
theorem test_candidate_cases : (∀ k ∈ [1, 3], let s := poolState (k * 2 ^ 62) false;
      let u := (((s.tidyFrames 0).tidyReserved 0).refill 0).findAnchors 0;
      u.candidates 0 = [{ recordOf (k * 2 ^ 62) false with scanned := true }] ∧ 0 ∈ u.sectorOrder 0 ∧ u.slateUsed 3 0 + profSlate ((jobOf 0).profile (BitVec.ofNat 512 (k * 2 ^ 62))) ≤ 32768 ∧
      (∀ q ∈ (u.dieAt 0).pool, q.key = 3) ∧ ∀ x ∈ u.jobs, x.spill = []) ∧
    (let u := (((poolState 0 false).tidyFrames 0).tidyReserved 0).refill 0 |>.findAnchors 0;
      let r := { recordOf 0 false with scanned := true };
      u.candidates 0 = [r] ∧ u.anchorGone (jobOf 0) r = false ∧ (u.spotsFor (jobOf 0) r (r.nextPoint (jobOf 0)).1 (r.nextPoint (jobOf 0)).2).isSome = true ∧
      (match u.placeFabric (jobOf 0) r with | .placed _ => true | _ => false) = true) := by decide +kernel
/-- PlacementEventsComplete: an instance whose streams are in; one to be restored from a frame with no saves, its mirrors unparked. -/
theorem test_restore_cases : (let s := (bench 0 .data 0 0 0).updInst 1 (fun i => { i with restoreStep := 1 });
      s.insts.all (fun i => i.die == 0 && !i.retired && i.loads.isEmpty && i.frame.isNone && s.sectorRuns i.sector) = true) ∧
    (let f : Frame := ⟨0, 0, 0, 0, 0, 0, 0, 0, 0, false, 4096, [], [], [], [], some 1, false⟩;
      let s := ((bench 0 .data 0 0 0).updInst 1 (fun i => { i with restoreStep := 3, started := false })).updDie 0 (fun d => { d with frames := [f] });
      (((s.tidyFrames 0).tidyReserved 0).refill 0).restoreReady 0 = (s.inst 1).map (fun i => (i, f)) ∧
      bitsN (s.memRead ((s.dieAt 0).ctxPa 0) 256) 106 106 = 0 ∧ (s.insts.all (fun i => decide i.cells.Nodup)) = true) := by decide +kernel
/-- PlacementEventsComplete: a grid point of one stage at its drain point with a frame free; one that yields to nothing. -/
theorem test_save_cases : (let s := (({ State.reset with nextId := 1 } : State).placeOne.updInst 1 (fun i => { i with preempt := true, node := 3 })).updDie 0 (fun d =>
        { d with pool := [{ recordOf 0 false with live := 1 }], ctxcfg := 20 * 2 ^ 59 + 4 * 2 ^ 48 });
      let u := ({ s with jobs := [jobOf 0] } : State).withdrawWaits 1;
      (u.inst 1).any (fun x => decide (u.stagesOf x.node x.gid = [x]) && u.mayBeSaved x && (u.poolRec x.die x.node).isSome && (u.job x.job).isSome) = true ∧
      (u.dieAt 0).freeFrames ≠ []) ∧
    (let s := ({ State.reset with nextId := 1 } : State).placeOne.updInst 1 (fun i => { i with yielding := true });
      (s.inst 1).any (fun i => s.quiet i && !s.yieldsTo i && !i.preempt && i.hold.isNone) = true) := by decide +kernel
/-- PilotInstructionsComplete: a SWAP to a patch with a resident instance, and to one without, SEALED with its version and not. -/
theorem test_swap_cases : let s := openBench.updLoader 0 (fun l => { l with serving := none, opened := false, ended := [(.pilot, 0, 0, 1, 1)] })
    let alone := { s.updCell 0 (fun c => { c with shadowState := .sealed 2 }) with insts := [] }
    s.loaderAccepts 0 .pilot = true ∧ (s.sector 0).loader.discarding = [] ∧ (s.sector 0).loader.lit = [] ∧
    (s.insts.find? (fun i => !i.retired && i.restoreStep != 1 && i.rect == (0, 0, 0, 1, 1))).isSome = true ∧
    patchCells 0 0 0 1 1 = [0] ∧ (alone.cell 0).shadowState = .sealed 2 ∧ alone.sealedFrom 0 0 0 1 1 ≤ alone.cycle 0 ∧
    (s.cell 0).shadowState ≠ .sealed 2 := by decide +kernel
/-- ProctorRequestsComplete, FreezeCompletes: a mailbox that holds requests, a frozen party's request, a party released after a CHALLENGE. -/
theorem test_proctor_hold_cases : ({ Proctor.reset with doeHeld := true } : Proctor).doeHeld = true ∧
    (let p : Proctor := { Proctor.reset with freezeRun := true, frzProctor := some 0, challenged := true };
      p.freezeEnable = true ∧ p.lossDue = [] ∧ p.frzProctor = some (0 % 2) ∧ Proctor.reset.frzProctor = none) := by decide +kernel
/-- RecordsAndLimitsComplete: a job's record that cannot be written, a hold of an instance 1 s old, an instance at its drain point before planes that
are not SEALED for TWUS. -/
theorem test_hold_limit_cases : (let r := faultOf false (some 0);
      let s : State := { recordState State.reset r with jobs := [jobOf 0] };
      s.nextRec 0 = some (r, 0) ∧ (match s.readHeader r.asid r.root r.fq with | .error _ => true | .ok _ => false) = true ∧ s.job 0 = some (jobOf 0)) ∧
    (let s : State := { heldBench .firing 0 [] with dev := 1000000 * usUnits };
      (s.hold 0 2).any (fun h => h.written && decide (h.since + 1000000 * usUnits ≤ s.dev) && h.inst == some 1) = true ∧ (s.insts.map Inst.id).Nodup) ∧
    (let s : State := { (bench 0 .data 0 0 0).updInst 1 (fun i => { i with swap := some (.token 3), atPoint := some 0, lastSeal := some (3, true) }) with
        dev := 10000 * usUnits };
      (s.inst 1).any (fun i => (s.allSealed i.sector i.x0 i.y0 i.w i.h).isNone && !i.preempt && !i.parked && !s.saveWaits i &&
        s.spanOver i 0 (limitAt (s.dieAt i.die).wdOld (s.dieAt i.die).wdcfg 0)) = true) := by decide +kernel
/-- HandlerActionsComplete: a hold with SUBOK 0, one at level 1, no record of it that waits, a CMD beyond a frame's commands. -/
theorem test_handler_edges : (let s := heldBench .firing 1 [];
      s.recPending 0 (factIdx s.input.value) = false ∧ (s.hold 0 (factIdx s.input.value)).any (fun h => h.cont == 1 && h.inst == some 1) = true) ∧
    (heldBench .firing 0 []).hold 0 2 = some (holdOf .firing 0) ∧ ({ holdOf .firing 0 with subok := false } : Hold).subok = false ∧
    (let f : Frame := ⟨0, 0, 0, 0, 0, 0, 0, 0, 0, false, 4096, [], [], [], [⟨.firing 0 0 0x0305 [], true, none⟩], none, false⟩;
      let s : State := { State.reset.updDie 0 (fun d => { d with frames := [f] }) with input := { Input.none with value := 1 * 2 ^ 32 } };
      s.frameUsed f = true ∧ f.saves.length ≤ 1) := by decide +kernel
/-- SubscriptionEventsComplete: a drained subscriber with no mirror, and with one; its stream parked with nothing behind it. CellAndUnitEventsComplete: a
`gspmv` whose rules are done. -/
theorem test_park_cases : (let s := ({ State.reset with nextId := 1 } : State).placeOne.updInst 1 (fun i => { i with preempt := true });
      (s.inst 1).any (fun i => s.quiet i && !i.parkReserved && !i.retired && i.hold.isNone && (s.mirrorsOf i).isEmpty) = true) ∧
    (let p := { pairOf [] false with pub := 1, live := true };
      let s : State := { ({ State.reset with nextId := 1 } : State).placeOne.updInst 1 (fun i => { i with preempt := true }) with pairs := [p] };
      (s.inst 1).any (fun i => s.quiet i && decide (s.mirrorsOf i = [p])) = true ∧ s.parkUsed (sectorOfCell p.pub) < 64 ∧ p.onMesh = true) ∧
    (let p := pairOf [] true;
      let s := { (bench 0 .data 0 0 0).updInst 1 (fun i => { i with restoreStep := 2 }) with pairs := [p] };
      (s.instAt 0).any (fun i => decide (0 < i.restoreStep) && s.mirrors i p) = true ∧ p.parked = true ∧ p.saved = true ∧ p.heldSector = none ∧ p.queue = [] ∧ p.gone = false) ∧
    (let g : GveCmd := { grammarOf true with op := .eval, cursor := 1, slateLen := 8, image := natBytes 8 4096 ++ natBytes 24 0 };
      let s := (gveBench g).memWrite 4096 (1 + 2 ^ 32 + 2 ^ 64 + 2 ^ 96 + 2 ^ 160) 64;
      (match s.gveRun 0 g (gveUnits g) with | .ended u 1 _ => (s.meter u 0 g.id g.paid).1 | _ => false) = true) := by decide +kernel

end Sys2Proof.Tests
end

