-- ==== Sys2Proof/Proofs/MemoryBytes.lean ====
section
/-! Settles O7 and O9: the memory at reset, and memory reads after writes. -/

namespace Sys2Proof.Machine
open Sys2Proof

/-- Byte i of a written value stands at offset i: the bytes are in little-endian order. -/
theorem State.memWrite_memByte (s : State) (a v n i : Nat) (h : i < n) :
    (s.memWrite a v n).memByte (a + i) = BitVec.ofNat 8 (v / 2 ^ (8 * i)) := by
  induction n with
  | zero => omega
  | succ n ih =>
    rw [State.memWrite]
    obtain rfl | hne := eq_or_ne i n
    · exact State.memSetByte_memByte_same _ _ _
    · rw [State.memSetByte_memByte_other _ _ _ _ (by omega)]
      exact ih (by omega)

/-- The first m bytes of a written value read back as its lowest 8 m bits. -/
theorem State.memRead_memWrite_of_le (s : State) (a v n m : Nat) (h : m ≤ n) :
    (s.memWrite a v n).memRead a m = v % 2 ^ (8 * m) := by
  induction m with
  | zero => simp [State.memRead, Nat.mod_one]
  | succ m ih =>
    have hwidth : 2 ^ (8 * (m + 1)) = 2 ^ (8 * m) * 2 ^ 8 := by rw [Nat.mul_succ, Nat.pow_add]
    rw [State.memRead, ih (by omega), State.memWrite_memByte s a v n m (by omega),
      BitVec.toNat_ofNat, hwidth, Nat.mod_mul, Nat.mul_comm (v / _ % _)]

end Sys2Proof.Machine

namespace Sys2Proof
open Machine

/-- Settles O7: the empty map is canonical and its default byte is 0. -/
theorem resetMemoryCanonical : Obligations.ResetMemoryCanonical :=
  ⟨State.reset_memory_wf, fun _ => rfl⟩

/-- Settles O9, by induction on the number of bytes written. -/
theorem memoryReadAfterWrite : Obligations.MemoryReadAfterWrite := fun s a v n =>
  ⟨State.memRead_memWrite_of_le s a v n n le_rfl, fun x h => State.memWrite_other s a v n x h⟩

end Sys2Proof
end

