-- ==== Sys2Proof/Proofs/MemoryFrame.lean ====
section
/-! When memory keeps its canonical form (O8): folds of updates, and the outcome of a step.

The files after this one follow the model's. Of an operation that leaves memory a lemma `…_mem` says so; of one that may write it a
lemma `…_wf` says that it keeps the canonical form. -/

namespace Sys2Proof.Machine
open Sys2Proof

/-! Folds. The hypothesis of each names the update's value, so that no proof compares two folds by running them. -/

/-- A fold of updates that each leave memory leaves memory. -/
@[simp] theorem State.foldl_mem {β : Type} (l : List β) (f : State → β → State) (s : State)
    (h : ∀ a x b, f a x = b → b.mem = a.mem) : (l.foldl f s).mem = s.mem :=
  List.foldlRecOn l f (motive := fun a => a.mem = s.mem) rfl fun _ ha _ _ => (h _ _ _ rfl).trans ha

/-- A fold of updates of a state and a note beside it leaves memory when each update does. -/
@[simp] theorem State.foldl_fst_mem {β γ : Type} (l : List β) (f : State × γ → β → State × γ) (a : State × γ)
    (h : ∀ a x b, f a x = b → b.1.mem = a.1.mem) : (l.foldl f a).1.mem = a.1.mem :=
  List.foldlRecOn l f (motive := fun b => b.1.mem = a.1.mem) rfl fun _ hb _ _ => (h _ _ _ rfl).trans hb

/-- The same with the note before the state. -/
@[simp] theorem State.foldl_snd_mem {β γ : Type} (l : List β) (f : γ × State → β → γ × State) (a : γ × State)
    (h : ∀ a x b, f a x = b → b.2.mem = a.2.mem) : (l.foldl f a).2.mem = a.2.mem :=
  List.foldlRecOn l f (motive := fun b => b.2.mem = a.2.mem) rfl fun _ hb _ _ => (h _ _ _ rfl).trans hb

/-- A fold of updates that each keep memory's canonical form keeps it. -/
theorem State.foldl_wf {β : Type} (l : List β) (f : State → β → State) (s : State) (hs : MemoryWf s)
    (h : ∀ a x b, f a x = b → MemoryWf a → MemoryWf b) : MemoryWf (l.foldl f s) :=
  List.foldlRecOn l f (motive := MemoryWf) hs fun _ ha _ _ => h _ _ _ rfl ha

/-- The canonical form is a matter of the memory alone. -/
theorem State.wf_of_mem_eq {s t : State} (hs : MemoryWf s) (h : t.mem = s.mem) : MemoryWf t := by
  rw [MemoryWf, h]
  exact hs

/-- The state an outcome goes on with, if it goes on, has a canonical memory. -/
def OutcomeWf : Host.Outcome State Fault Refusal → Prop
  | .next t => MemoryWf t
  | _ => True

@[simp] theorem outcomeWf_next (t : State) : OutcomeWf (.next t) ↔ MemoryWf t := Iff.rfl

theorem OutcomeWf.of_wf {r : Host.Outcome State Fault Refusal} (h : ∀ {t}, r = .next t → MemoryWf t) :
    OutcomeWf r := by
  cases r with
  | next t => exact h rfl
  | fault e => trivial
  | refused e => trivial

theorem OutcomeWf.of_mem {s : State} {r : Host.Outcome State Fault Refusal} (hs : MemoryWf s)
    (h : ∀ {t}, r = .next t → t.mem = s.mem) : OutcomeWf r :=
  .of_wf fun hr => State.wf_of_mem_eq hs (h hr)

theorem OutcomeWf.ite {c : Prop} [Decidable c] {a b : Host.Outcome State Fault Refusal} (ha : OutcomeWf a) (hb : OutcomeWf b) :
    OutcomeWf (if c then a else b) := by
  split
  · exact ha
  · exact hb

end Sys2Proof.Machine
end

