-- ==== Sys2Proof/Proofs/AccessFrame.lean ====
section
/-! Memory after the accessors, physical memory and the order of writes. -/

namespace Sys2Proof.Machine
open Sys2Proof

@[simp] theorem State.defer_mem (s : State) (i : Instr) : (s.defer i).mem = s.mem := rfl

@[simp] theorem State.draw_mem (s : State) (n : Nat) : (s.draw n).2.mem = s.mem := rfl

@[simp] theorem State.fresh_mem (s : State) : (s.fresh).2.mem = s.mem := rfl

@[simp] theorem State.noteVacated_mem (s : State) (key : Nat) : (s.noteVacated key).mem = s.mem := rfl

@[simp] theorem State.sendWord_mem (s : State) (pkg vc : Nat) : (s.sendWord pkg vc).mem = s.mem := rfl

@[simp] theorem State.setRoute_mem (s : State) (pkg : Nat) (e : Byte) : (s.setRoute pkg e).mem = s.mem := by
  simp only [State.setRoute]
  split <;> simp

@[simp] theorem State.fill_mem (s : State) (k asid va : Nat) (wk : Walk) : (s.fill k asid va wk).mem = s.mem := by
  simp only [State.fill]
  split <;> simp

@[simp] theorem State.translate_mem (s : State) (k asid root va : Nat) (a : Access) :
    (s.translate k asid root va a).2.mem = s.mem := by
  simp only [State.translate]
  (repeat' split) <;> simp

theorem State.putHeader_wf (s : State) (h : QHeader) (o v : Nat) (hs : MemoryWf s) :
    MemoryWf (s.putHeader h o v) := by
  simp only [State.putHeader]
  split
  · exact State.memWrite_wf _ _ _ _ hs
  · exact State.foldl_wf _ _ _ hs fun a k b hb ha => hb ▸ a.memSetByte_wf _ _ ha

@[simp] theorem State.healSector_mem (s : State) (pa : Nat) : (s.healSector pa).mem = s.mem := rfl

@[simp] theorem State.healRange_mem (s : State) (pa n : Nat) : (s.healRange pa n).mem = s.mem := by
  simp only [State.healRange]
  split <;> simp

@[simp] theorem State.eitherOf_mem (s : State) (new old : List Byte) : (s.eitherOf new old).2.mem = s.mem := by
  simp only [State.eitherOf]
  split <;> simp

@[simp] theorem State.readMem_mem (s : State) (r : Reader) (pa n : Nat) : (s.readMem r pa n).2.mem = s.mem := by
  simp [State.readMem]

@[simp] theorem State.readSpad_mem (s : State) (r : Reader) (cell swz off n : Nat) :
    (s.readSpad r cell swz off n).2.mem = s.mem := by
  simp [State.readSpad]

theorem State.cellWrite_wf (s : State) (w : Writer) (pa v n : Nat) (hs : MemoryWf s) :
    MemoryWf (s.cellWrite w pa v n) := by
  simp [MemoryWf, State.cellWrite, hs, State.memWrite_wf]

@[simp] theorem State.see_mem (s : State) (cell time : Nat) : (s.see cell time).mem = s.mem := by
  simp only [State.see]
  split <;> simp

@[simp] theorem State.seeNow_mem (s : State) (cell : Nat) : (s.seeNow cell).mem = s.mem := by
  simp [State.seeNow]

@[simp] theorem State.acquireFrom_mem (s : State) (w : Writer) (loc : Spot) (found : Option Written) :
    (s.acquireFrom w loc found).mem = s.mem := by
  simp only [State.acquireFrom]
  (repeat' split) <;> simp

end Sys2Proof.Machine
end

