-- ==== Sys2Proof/Proofs/OpsFrame.lean ====
section
/-! Memory after the operations the instructions share. -/

namespace Sys2Proof.Machine
open Sys2Proof

@[simp] theorem State.forward_mem (s : State) (c off : Nat) (bs : List Byte) : (s.forward c off bs).mem = s.mem := by
  simp only [State.forward]
  split <;> simp

@[simp] theorem State.spadStoreBy_mem (s : State) (w : Writer) (c swz off : Nat) (v : Nat) (n : Nat) :
    (s.spadStoreBy w c swz off v n).mem = s.mem := by
  simp [State.spadStoreBy]

@[simp] theorem State.spadStore_mem (s : State) (c swz off : Nat) (v : Nat) (n : Nat) :
    (s.spadStore c swz off v n).mem = s.mem := by
  simp [State.spadStore]

@[simp] theorem State.spadStoreSeen_mem (s : State) (c swz off : Nat) (v : Nat) (n : Nat) :
    (s.spadStoreSeen c swz off v n).mem = s.mem := by
  simp [State.spadStoreSeen]

@[simp] theorem State.spadPut_mem (s : State) (c swz off : Nat) (bs : List Byte) :
    (s.spadPut c swz off bs).mem = s.mem := by
  simp [State.spadPut]

@[simp] theorem State.askWords_mem (s : State) (c cls cyc : Nat) (ws : List Nat) :
    (s.askWords c cls cyc ws).2.mem = s.mem := by
  simp only [State.askWords]
  split <;> simp

@[simp] theorem State.askBank_mem (s : State) (c cls cyc swz off n : Nat) :
    (s.askBank c cls cyc swz off n).2.mem = s.mem := by
  simp [State.askBank]

@[simp] theorem State.takeBank_mem (s : State) (c cls cyc swz off n : Nat) :
    (s.takeBank c cls cyc swz off n).2.mem = s.mem := rfl

@[simp] theorem State.waitBank_mem (s : State) (c cyc swz off n : Nat) :
    (s.waitBank c cyc swz off n).2.mem = s.mem := rfl

@[simp] theorem State.hubAsk_mem (s : State) (src dst : Option (Nat × Nat × Nat)) :
    (s.hubAsk src dst).2.mem = s.mem := by
  simp only [State.hubAsk]
  (repeat' split) <;> simp

@[simp] theorem State.accStoreAll_mem (s : State) (c bank off pitch swz esz : Nat) (mod : BitVec 4) :
    (s.accStoreAll c bank off pitch swz esz mod).1.mem = s.mem := by
  unfold State.accStoreAll
  rw [State.foldl_fst_mem]
  rintro a p _ rfl
  simp

@[simp] theorem State.markArrival_mem (s : State) (cell port vc : Nat) :
    (s.markArrival cell port vc).mem = s.mem := by
  unfold State.markArrival
  split
  · rfl
  · apply State.foldl_mem
    rintro a e _ rfl
    split <;> rfl

@[simp] theorem State.deliver_mem (s : State) (c : Nat) (f : Flight) (cyc : Nat) :
    (s.deliver c f cyc).mem = s.mem := by
  simp only [State.deliver]
  (repeat' split) <;> simp

@[simp] theorem State.takeLate_mem (s : State) (c i : Nat) (f : Flight) (l : Late) :
    (s.takeLate c i f l).mem = s.mem := by
  simp only [State.takeLate]
  (repeat' split) <;> simp

@[simp] theorem State.landFlight_mem (s : State) (c i : Nat) (f : Flight) (k : Nat) :
    (s.landFlight c i f k).mem = s.mem := by
  simp only [State.landFlight]
  (repeat' split) <;> simp

@[simp] theorem State.settleCell_mem (s : State) (c cyc at_ n : Nat) : (s.settleCell c cyc at_ n).mem = s.mem := by
  induction n generalizing s c cyc at_ with
  | zero => rfl
  | succ n ih =>
    simp only [State.settleCell]
    (repeat' split) <;> simp [ih]

@[simp] theorem State.settle_mem (s : State) : s.settle.mem = s.mem := by
  have once (x : State) : (x.cells.foldl (fun (acc : State) e =>
      let n := (acc.cell e.1).flight.length
      if n = 0 then acc else acc.settleCell e.1 (acc.cycle (sectorOfCell e.1)) 0 (settleFuel n)) x).mem = x.mem := by
    apply State.foldl_mem
    rintro a e _ rfl
    dsimp only
    split <;> simp
  exact (once _).trans (once s)

@[simp] theorem State.pushRec_mem (s : State) (r : FaultRec) : (s.pushRec r).mem = s.mem := rfl

theorem State.claimRec_wf (s : State) (r : FaultRec) (hs : MemoryWf s) : MemoryWf (s.claimRec r).2 := by
  simp only [State.claimRec]
  split
  · exact hs
  · split
    · exact hs
    · exact State.putHeader_wf _ _ _ _ hs

theorem State.pushClaimed_wf (s : State) (r : FaultRec) (hs : MemoryWf s) : MemoryWf (s.pushClaimed r) := by
  simp [MemoryWf, State.pushClaimed, hs, State.claimRec_wf]

@[simp] theorem State.newHid_mem (s : State) (d : Nat) : (s.newHid d).2.mem = s.mem := rfl

@[simp] theorem State.setHold_mem (s : State) (d : Nat) (v : Hold) : (s.setHold d v).mem = s.mem := rfl

@[simp] theorem State.delHold_mem (s : State) (d hid : Nat) : (s.delHold d hid).mem = s.mem := rfl

@[simp] theorem State.takeFault_mem (s : State) (i : Inst) (kind : HoldKind) (r : FaultRec)
    (sites : List (Nat × Nat)) : (s.takeFault i kind r sites).mem = s.mem := by
  simp only [State.takeFault]
  split <;> simp

@[simp] theorem State.endHold_mem (s : State) (d hid : Nat) : (s.endHold d hid).mem = s.mem := by
  simp only [State.endHold]
  (repeat' split) <;> simp

@[simp] theorem State.absorb_mem (s : State) (c slot srck : Nat) (payload : Word) :
    (s.absorb c slot srck payload).mem = s.mem := by
  simp only [State.absorb]
  (repeat' split) <;> simp

@[simp] theorem State.requestSwap_mem (s : State) (id : Nat) (r : SwapReq) : (s.requestSwap id r).mem = s.mem := rfl

@[simp] theorem State.requestPreempt_mem (s : State) (id : Nat) : (s.requestPreempt id).mem = s.mem := rfl

@[simp] theorem State.stale_mem (s : State) (k x0 y0 w h : Nat) : (s.stale k x0 y0 w h).mem = s.mem := by
  simp [State.stale]

@[simp] theorem State.cutStream_mem (s : State) (k x0 y0 w h : Nat) : (s.cutStream k x0 y0 w h).mem = s.mem := by
  simp only [State.cutStream]
  (repeat' split) <;> simp

@[simp] theorem State.cutLoads_mem (s : State) (i : Inst) : (s.cutLoads i).mem = s.mem := by
  simp [State.cutLoads]

theorem State.freeSlot_wf (s : State) (p : Pair) (hs : MemoryWf s) : MemoryWf (s.freeSlot p) := by
  simp only [State.freeSlot]
  (repeat' split) <;> simp [MemoryWf, hs, State.memWrite_wf]

theorem State.endSubs_wf (s : State) (i : Inst) (hs : MemoryWf s) : MemoryWf (s.endSubs i) := by
  have h1 : MemoryWf (s.pairs.foldl (fun (a : State) p => if s.mirrors i p then a.freeSlot p else a) s) := by
    refine State.foldl_wf _ _ _ hs ?_
    rintro a p _ rfl ha
    split
    · exact State.freeSlot_wf _ _ ha
    · exact ha
  refine State.wf_of_mem_eq h1 (State.foldl_mem _ _ _ ?_)
  rintro a c _ rfl
  split <;> rfl

theorem State.retire_wf (s : State) (id : Nat) (hs : MemoryWf s) : MemoryWf (s.retire id) := by
  unfold State.retire
  split
  · exact hs
  · rename_i i _
    split
    · exact hs
    · extract_lets s1 s2 s3 s4 s5 s5a s6 waits s6a s7
      have h1 : s1.mem = s.mem := by
        apply State.foldl_mem
        rintro a c _ rfl
        dsimp only
        split <;> simp
      have h2 : s2.mem = s1.mem := by
        apply State.foldl_mem
        rintro a c _ rfl
        split <;> simp
      have h3 : MemoryWf s3 :=
        State.wf_of_mem_eq (State.endSubs_wf s2 i (State.wf_of_mem_eq hs (h2.trans h1))) (State.cutLoads_mem _ _)
      have h5a : s5a.mem = s3.mem := by simp only [s5a]; split <;> rfl
      have h6 : s6.mem = s5a.mem := by simp only [s6]; split <;> rfl
      have h6a : s6a.mem = s6.mem := by simp only [s6a]; split <;> rfl
      exact State.wf_of_mem_eq h3 (h6a.trans (h6.trans h5a))

@[simp] theorem State.setGrant_mem (s : State) (k n : Nat) (g : Grant) : (s.setGrant k n g).mem = s.mem := rfl

@[simp] theorem State.dropGrant_mem (s : State) (h : Hold) : (s.dropGrant h).mem = s.mem := by
  simp only [State.dropGrant]
  split <;> simp

theorem State.endSavedSubs_wf (s : State) (key : Nat) (hs : MemoryWf s) : MemoryWf (s.endSavedSubs key) := by
  simp only [State.endSavedSubs]
  split
  · exact hs
  · refine State.foldl_wf _ _ _ hs ?_
    rintro a p _ rfl ha
    split
    · exact State.freeSlot_wf _ _ ha
    · exact ha

theorem State.abandonJob_wf (s : State) (key : Nat) (hs : MemoryWf s) : MemoryWf (s.abandonJob key) := by
  refine State.wf_of_mem_eq (State.endSavedSubs_wf s key hs) ?_
  apply State.foldl_mem
  rintro a d _ rfl
  split <;> simp [apply_ite State.mem]

theorem State.abortJob_wf (s : State) (key : Nat) (hs : MemoryWf s) : MemoryWf (s.abortJob key) :=
  State.abandonJob_wf _ _ (State.foldl_wf _ _ _ hs fun a i _ hb ha => hb ▸ State.retire_wf a i.id ha)

end Sys2Proof.Machine
end

