-- ==== Sys2Proof/Proofs/OperandsFrame.lean ====
section
/-! Memory after a firing: its operands, its result and its faults. -/

namespace Sys2Proof.Machine
open Sys2Proof

@[simp] theorem State.fireFaultAt_mem (s : State) (i : Inst) (cell slot at_ : Nat) (e : FireFault) :
    (s.fireFaultAt i cell slot at_ e).mem = s.mem := by
  simp [State.fireFaultAt]

@[simp] theorem State.fireFault_mem (s : State) (i : Inst) (cell slot : Nat) (e : FireFault) :
    (s.fireFault i cell slot e).mem = s.mem := by
  simp [State.fireFault]

theorem State.readSrc_mem {s : State} {x : ReadCtx} {u : Use} {src : Src} {o s'} (hr : s.readSrc x u src = .ok (o, s')) :
    s'.mem = s.mem := by
  cases src <;> simp only [State.readSrc] at hr
  case handle n =>
    split at hr
    · cases hr
    · cases hr
      simp
  case chan n | peek n =>
    split at hr
    · split at hr
      · cases hr
      · cases hr
        rfl
    · cases hr
      rfl
  all_goals
    cases hr
    rfl

theorem State.operands_mem {s : State} {opc : Nat} {site : Site} {f : OpFields} {i : Inst} {fd : Feed} {cursor : Option (Nat × Nat)}
    {F s'} (hr : s.operands opc site f i fd cursor = .ok (F, s')) : s'.mem = s.mem := by
  unfold State.operands at hr
  extract_lets cell slot x g ua ub uc hasDst at hr
  split at hr
  · cases hr
  · split at hr
    · cases hr
    · rename_i oa s1 h1
      split at hr
      · cases hr
      · rename_i ob s2 h2
        split at hr
        · cases hr
        · rename_i oc s3 h3
          have h : s3.mem = s.mem :=
            (State.readSrc_mem h3).trans ((State.readSrc_mem h2).trans (State.readSrc_mem h1))
          split at hr
          · cases hr
          · extract_lets F0 moved F1 s4 at hr
            have h4 : s4.mem = s3.mem := by
              simp only [s4, moved]
              (repeat' split) <;> rfl
            split at hr
            · extract_lets c hd at hr
              split at hr
              · cases hr
              · simp only [Except.ok.injEq, Prod.mk.injEq] at hr
                rw [← hr.2, State.setCell_mem, h4, h]
            · simp only [Except.ok.injEq, Prod.mk.injEq] at hr
              rw [← hr.2, h4, h]

@[simp] theorem State.countTrig_mem (s : State) (i : Inst) (cell : Nat) (dir : Bool) (ch : Nat) (k : Kind) :
    (s.countTrig i cell dir ch k).mem = s.mem := by
  simp only [State.countTrig]
  split <;> simp

@[simp] theorem State.emitNow_mem (s : State) (cell mark n : Nat) (t : Token) :
    (s.emitNow cell mark n t).mem = s.mem := by
  simp only [State.emitNow]
  split <;> simp

@[simp] theorem State.sendOut_mem (s : State) (i : Inst) (cell by_ mark n : Nat) (deps : List Nat)
    (l : List (Kind × Word)) : (s.sendOut i cell by_ mark n deps l).mem = s.mem := by
  simp [State.sendOut]

@[simp] theorem State.consume_mem (s : State) (F : Firing) : (s.consume F).mem = s.mem := by
  simp [State.consume]

@[simp] theorem State.fireCopies_mem (s : State) (F : Firing) : (s.fireCopies F).mem = s.mem := by
  simp only [State.fireCopies]
  split <;> simp

@[simp] theorem State.issue_mem (s : State) (F : Firing) : (s.issue F).mem = s.mem := by
  simp only [State.issue]
  split <;> simp

@[simp] theorem State.deal_mem (s : State) (F : Firing) : (s.deal F).mem = s.mem := by
  simp only [State.deal]
  split <;> simp

@[simp] theorem State.emitToken_mem (s : State) (F : Firing) (n : Nat) (k : Kind) (v : Word) (lat : Nat) :
    (s.emitToken F n k v lat).mem = s.mem := by
  simp [State.emitToken]

@[simp] theorem State.fly_mem (s : State) (F : Firing) (d : ResDst) (v : BitVec 64) (lat : Nat) (fl : Flags)
    (ld : Option Late) : (s.fly F d v lat fl ld).mem = s.mem := by
  simp only [State.fly]
  (repeat' split) <;> simp

@[simp] theorem State.result_mem (s : State) (F : Firing) (k : Kind) (v : Word) (fl : Flags) (lat : Nat) :
    (s.result F k v fl lat).mem = s.mem := by
  simp only [State.result]
  (repeat' split) <;> simp

@[simp] theorem State.lateResult_mem (s : State) (F : Firing) (k : Kind) (lat : Nat) (ld : Late) :
    (s.lateResult F k lat ld).mem = s.mem := by
  simp only [State.lateResult]
  split <;> simp

@[simp] theorem State.begin_mem (s : State) (F : Firing) : (s.begin F).mem = s.mem := by
  simp [State.begin]

theorem State.fires_mem {s s1 : State} {opc : Nat} {site : Site} {f : OpFields} {F : Firing} (h : Fires s opc site f F s1) :
    s1.mem = s.mem := by
  obtain ⟨_, i, fd, _, _, hop⟩ := h
  exact State.operands_mem hop

theorem State.fire_mem {s s' : State} {opc : Nat} {site : Site} {f : OpFields} {pre : State → Firing → Option FireFault}
    {act : State → Firing → State} (hact : ∀ a F, (act a F).mem = a.mem) (hr : s.fire opc site f pre act = .next s') :
    s'.mem = s.mem := by
  obtain rfl | ⟨i, e, _, rfl⟩ | ⟨F, s1, hF, _, rfl⟩ := Laws.fire_cases hr
  · rfl
  · exact State.fireFault_mem _ _ _ _ _
  · exact (hact s1 F).trans (State.fires_mem hF)

theorem State.fire_wf {s s' : State} {opc : Nat} {site : Site} {f : OpFields} {pre : State → Firing → Option FireFault}
    {act : State → Firing → State} (hact : ∀ a F, MemoryWf a → MemoryWf (act a F)) (hs : MemoryWf s)
    (hr : s.fire opc site f pre act = .next s') : MemoryWf s' := by
  obtain rfl | ⟨i, e, _, rfl⟩ | ⟨F, s1, hF, _, rfl⟩ := Laws.fire_cases hr
  · exact hs
  · exact State.wf_of_mem_eq hs (State.fireFault_mem _ _ _ _ _)
  · exact hact s1 F (State.wf_of_mem_eq hs (State.fires_mem hF))

@[simp] theorem State.compute_mem (s : State) (F : Firing) (lat : Nat) (r : Word × Flags) :
    (s.compute F lat r).mem = s.mem := by
  simp only [State.compute]
  split <;> simp

theorem State.fireAlu_mem {s : State} {opc : Nat} {alu : AluFn} {lat : Nat} {site : Site} {f : OpFields} {s'}
    (hr : s.fireAlu opc alu lat site f = .next s') : s'.mem = s.mem :=
  State.fire_mem (fun a F => by simp) hr

end Sys2Proof.Machine
end

