-- ==== Sys2Proof/Proofs/MemoryOpsFrame.lean ====
section
/-! Memory after loads, stores, atomics and fences. -/

namespace Sys2Proof.Machine
open Sys2Proof

@[simp] theorem State.enqueue_mem (s : State) (F : Firing) (body : ReqBody) (stage : ReqStage) (p : Place)
    (kind : Kind) (result : BitVec 64) : (s.enqueue F body stage p kind result).mem = s.mem := rfl

@[simp] theorem State.suppress_mem (s : State) (F : Firing) : (s.suppress F).mem = s.mem := by
  simp [State.suppress]

theorem State.unlessSuppressed_mem (s : State) (F : Firing) (act : State → State) (hact : ∀ a, (act a).mem = a.mem) :
    (s.unlessSuppressed F act).mem = s.mem := by
  simp only [State.unlessSuppressed]
  split <;> simp [hact]

/-- A firing that is not suppressed acts on a state with the memory it had. -/
theorem State.unlessSuppressed_cases (s : State) (F : Firing) (act : State → State) :
    (s.unlessSuppressed F act).mem = s.mem ∨ ∃ b : State, b.mem = s.mem ∧ s.unlessSuppressed F act = act b := by
  unfold State.unlessSuppressed
  split
  · exact .inl (State.suppress_mem _ _)
  · exact .inl (State.suppress_mem _ _)
  · exact .inr ⟨_, State.begin_mem _ _, rfl⟩

theorem OutcomeWf.of_fire {s : State} {opc : Nat} {site : Site} {f : OpFields} {pre : State → Firing → Option FireFault}
    {act : State → Firing → State} (hs : MemoryWf s) (hact : ∀ a F, (act a F).mem = a.mem) : OutcomeWf (s.fire opc site f pre act) :=
  .of_mem hs (State.fire_mem hact)

theorem OutcomeWf.of_unlessSuppressed {s : State} {opc : Nat} {site : Site} {f : OpFields}
    {pre : State → Firing → Option FireFault} {act : State → Firing → State → State} (hs : MemoryWf s)
    (hact : ∀ a F b, (act a F b).mem = b.mem) :
    OutcomeWf (s.fire opc site f pre fun a F => a.unlessSuppressed F (act a F)) :=
  .of_fire hs fun a F => State.unlessSuppressed_mem a F _ (hact a F)

@[simp] theorem State.load_mem (s : State) (F : Firing) (p : Place) (k : Kind) : (s.load F p k).mem = s.mem := by
  simp only [State.load]
  split <;> simp

@[simp] theorem State.store_mem (s : State) (F : Firing) (p : Place) (v : Word) : (s.store F p v).mem = s.mem := by
  simp only [State.store]
  (repeat' split) <;> simp

@[simp] theorem actCurLoad_mem (s : State) (F : Firing) : (actCurLoad s F).mem = s.mem := by
  refine State.unlessSuppressed_mem _ _ _ fun a => ?_
  dsimp only
  split <;> simp

theorem State.fireCurLoad_mem {s : State} {opc : Nat} {site : Site} {f : OpFields} {s'}
    (hr : s.fireCurLoad opc site f = .next s') : s'.mem = s.mem :=
  State.fire_mem actCurLoad_mem hr

theorem State.fireLoad_mem {s : State} {opc : Nat} {site : Site} {f : OpFields} {pick : Firing → Pick} {s'}
    (hr : s.fireLoad opc site f pick = .next s') : s'.mem = s.mem :=
  State.fire_mem (fun _ _ => State.unlessSuppressed_mem _ _ _ fun _ => State.load_mem _ _ _ _) hr

theorem State.fireStore_mem {s : State} {opc : Nat} {site : Site} {f : OpFields} {pick : Firing → Pick} {s'}
    (hr : s.fireStore opc site f pick = .next s') : s'.mem = s.mem :=
  State.fire_mem (fun _ _ => State.unlessSuppressed_mem _ _ _ fun _ => State.store_mem _ _ _ _) hr

theorem execLdr_wf (site : Site) (f : OpFields) (s : State) (hs : MemoryWf s) : OutcomeWf (execLdr site f s) := by
  unfold execLdr
  split
  · exact .of_mem hs State.fireCurLoad_mem
  · exact .of_mem hs State.fireLoad_mem

theorem execLdg_wf (site : Site) (f : OpFields) (s : State) (hs : MemoryWf s) : OutcomeWf (execLdg site f s) := by
  unfold execLdg
  split
  · exact .of_mem hs State.fireCurLoad_mem
  · exact .of_mem hs State.fireLoad_mem

theorem execLdx_wf (site : Site) (f : OpFields) (s : State) (hs : MemoryWf s) : OutcomeWf (execLdx site f s) := by
  unfold execLdx
  split
  · exact .of_mem hs State.fireCurLoad_mem
  · exact .of_mem hs State.fireLoad_mem

@[simp] theorem State.locAtomic_mem (s : State) (F : Firing) (p : Place) (op : RmwOp) :
    (s.locAtomic F p op).mem = s.mem := by
  simp [State.locAtomic]

theorem State.fireAtomic_mem {s : State} {opc lvl : Nat} {site : Site} {f : OpFields} {s'}
    (hr : s.fireAtomic opc lvl site f = .next s') : s'.mem = s.mem :=
  State.fire_mem (fun a F => State.unlessSuppressed_mem _ _ _ fun _ => by dsimp only; split <;> simp) hr

theorem State.fireCas_mem {s : State} {opc lvl : Nat} {site : Site} {f : OpFields} {s'}
    (hr : s.fireCas opc lvl site f = .next s') : s'.mem = s.mem :=
  State.fire_mem (fun a F => State.unlessSuppressed_mem _ _ _ fun _ => by dsimp only; split <;> simp) hr

@[simp] theorem State.closePairs_mem (s : State) (p : Pair → Bool) : (s.closePairs p).1.mem = s.mem := by
  simp only [State.closePairs]
  split <;> simp

theorem execFence_wf (site : Site) (f : OpFields) (s : State) (hs : MemoryWf s) : OutcomeWf (execFence site f s) :=
  .of_unlessSuppressed hs fun _ _ _ => by simp

theorem execHseek_wf (site : Site) (f : OpFields) (s : State) (hs : MemoryWf s) : OutcomeWf (execHseek site f s) :=
  .of_unlessSuppressed hs fun _ _ _ => by simp

theorem execHtell_wf (site : Site) (f : OpFields) (s : State) (hs : MemoryWf s) : OutcomeWf (execHtell site f s) :=
  .of_unlessSuppressed hs fun _ _ _ => by simp

theorem execPfg_wf (site : Site) (f : OpFields) (s : State) (hs : MemoryWf s) : OutcomeWf (execPfg site f s) := by
  refine .of_mem hs (State.fire_mem fun a F => ?_)
  refine State.unlessSuppressed_mem _ _ _ fun b => ?_
  dsimp only
  (repeat' split) <;> simp

end Sys2Proof.Machine
end

