-- ==== Sys2Proof/Proofs/GrammarFrame.lean ====
section
/-! Memory after the engines' accesses and the grammar engine. -/

namespace Sys2Proof.Machine
open Sys2Proof

theorem State.engXlat_mem {s : State} {x : EngCtx} {va : Nat} {a : Access} {side cur : Nat} {v' s'}
    (hr : s.engXlat x va a side cur = .ok (v', s')) : s'.mem = s.mem := by
  grind [State.engXlat, State.translate_mem]

@[simp] theorem State.portMove_mem (s : State) (k pa n : Nat) : (s.portMove k pa n).mem = s.mem := by
  simp only [State.portMove]
  (repeat' split) <;> simp

@[simp] theorem State.portWait_mem (s : State) (k id : Nat) : (s.portWait k id).mem = s.mem := rfl

/-- What the meter answers has the memory of one of the two states it chooses between. -/
theorem State.meter_mem (s s1 : State) (k id paid : Nat) :
    (s.meter s1 k id paid).2.1.mem = s.mem ∨ (s.meter s1 k id paid).2.1.mem = s1.mem := by
  simp only [State.meter]
  (repeat' split) <;> simp

theorem State.meter_mem_of_eq {s s1 : State} (h : s1.mem = s.mem) (k id paid : Nat) :
    (s.meter s1 k id paid).2.1.mem = s.mem := by
  rcases State.meter_mem s s1 k id paid with h1 | h1
  · exact h1
  · exact h1.trans h

theorem State.meter_wf (s s1 : State) (k id paid : Nat) (hs : MemoryWf s) (hs1 : MemoryWf s1) :
    MemoryWf (s.meter s1 k id paid).2.1 := by
  rcases State.meter_mem s s1 k id paid with h | h
  · exact State.wf_of_mem_eq hs h
  · exact State.wf_of_mem_eq hs1 h

theorem State.meterGuest_mem (s s1 : State) (k id : Nat) :
    (s.meterGuest s1 k id).2.mem = s.mem ∨ (s.meterGuest s1 k id).2.mem = s1.mem := by
  simp only [State.meterGuest]
  split
  · exact State.meter_mem _ _ _ _ _
  · exact State.meter_mem _ _ _ _ _

theorem State.meterGuest_mem_of_eq {s s1 : State} (h : s1.mem = s.mem) (k id : Nat) :
    (s.meterGuest s1 k id).2.mem = s.mem := by
  rcases State.meterGuest_mem s s1 k id with h1 | h1
  · exact h1
  · exact h1.trans h

theorem State.meterGuest_wf (s s1 : State) (k id : Nat) (hs : MemoryWf s) (hs1 : MemoryWf s1) :
    MemoryWf (s.meterGuest s1 k id).2 := by
  rcases State.meterGuest_mem s s1 k id with h | h
  · exact State.wf_of_mem_eq hs h
  · exact State.wf_of_mem_eq hs1 h

theorem State.engRead_mem {s : State} {x : EngCtx} {va n side cur : Nat} {v' s'}
    (hr : s.engRead x va n side cur = .ok (v', s')) : s'.mem = s.mem := by
  grind [State.engRead, State.engXlat_mem, State.readMem_mem, State.portMove_mem]

theorem State.engReadVia_mem {s : State} {x : EngCtx} {xl : List XlEntry} {va side cur : Nat} {v' s'}
    (hr : s.engReadVia x xl va side cur = .ok (v', s')) : s'.mem = s.mem := by
  grind [State.engReadVia, State.readMem_mem, State.portMove_mem, State.engRead_mem]

theorem State.engWord_mem {s : State} {x : EngCtx} {va side cur : Nat} {v' s'}
    (hr : s.engWord x va side cur = .ok (v', s')) : s'.mem = s.mem := by
  grind [State.engWord, State.engRead_mem]

theorem State.portWrite_wf (s : State) (k pa : Nat) (bs : List Byte) (hs : MemoryWf s) :
    MemoryWf (s.portWrite k pa bs) := by
  have h := State.memPutList_wf bs s pa hs
  simp only [State.portWrite]
  split <;> simpa [MemoryWf] using h

theorem State.engWrite_wf {s : State} {x : EngCtx} {va side cur : Nat} {bs : List Byte} (hs : MemoryWf s) {s'}
    (hr : s.engWrite x va side cur bs = .ok s') : MemoryWf s' := by
  simp only [State.engWrite] at hr
  split at hr
  · cases hr
  · rename_i pa s1 hx
    cases hr
    exact State.portWrite_wf _ _ _ _ (State.wf_of_mem_eq hs (State.engXlat_mem hx))

theorem State.engWriteVia_wf {s : State} {x : EngCtx} {xl : List XlEntry} {va side cur : Nat} {bs : List Byte}
    (hs : MemoryWf s) {s'} (hr : s.engWriteVia x xl va side cur bs = .ok s') : MemoryWf s' := by
  grind [State.engWriteVia, State.portWrite_wf, State.engWrite_wf]

theorem State.engBlock_mem {s : State} {x : EngCtx} {va side cur : Nat} {xl : List XlEntry} {n : Nat} {v' s'}
    (hr : s.engBlock x va side cur xl n = .ok (v', s')) : s'.mem = s.mem := by
  induction n generalizing v' s' with
  | zero => grind [State.engBlock]
  | succ n ih => grind [State.engBlock, State.engReadVia_mem]

@[simp] theorem State.holdCommand_mem (s : State) (die : Nat) (inst node : Option Nat)
    (job id cell slot sector srck : Nat) (kind : HoldKind) (e : EngFault) :
    (s.holdCommand die inst node job id cell slot sector srck kind e).1.mem = s.mem := rfl

@[simp] theorem State.answerCmd_mem (s : State) (p : ReqBody → Bool) (v : BitVec 64) :
    (s.answerCmd p v).mem = s.mem := rfl

@[simp] theorem State.queueGrammar_mem (s : State) (F : Firing) (op : GveOp) (image : List Byte) (home : Nat) :
    (s.queueGrammar F op image home).mem = s.mem := rfl

theorem execGspmv_wf (site : Site) (f : OpFields) (s : State) (hs : MemoryWf s) : OutcomeWf (execGspmv site f s) :=
  .of_unlessSuppressed hs fun _ _ _ => by simp

theorem execGsload_wf (site : Site) (f : OpFields) (s : State) (hs : MemoryWf s) : OutcomeWf (execGsload site f s) :=
  .of_unlessSuppressed hs fun _ _ _ => by simp

theorem execGsread_wf (site : Site) (f : OpFields) (s : State) (hs : MemoryWf s) : OutcomeWf (execGsread site f s) :=
  .of_unlessSuppressed hs fun _ _ _ => by simp

theorem execGsclr_wf (site : Site) (f : OpFields) (s : State) (hs : MemoryWf s) : OutcomeWf (execGsclr site f s) :=
  .of_unlessSuppressed hs fun _ _ _ => by simp

theorem State.readColumn_mem {s : State} {r : GveRun} {col cur : Nat} {n : Nat} {v' s'}
    (hr : s.readColumn r col cur n = .ok (v', s')) : s'.mem = s.mem := by
  induction n generalizing v' s' with
  | zero => grind [State.readColumn]
  | succ n ih => grind [State.readColumn, State.engWord_mem]

theorem State.writeRow_wf {s : State} {r : GveRun} {row cur : Nat} {sums : List Word} {n : Nat} (hs : MemoryWf s) {s'}
    (hr : s.writeRow r row cur sums n = .ok s') : MemoryWf s' := by
  induction n generalizing s' with
  | zero => grind [State.writeRow]
  | succ n ih => grind [State.writeRow, State.engWrite_wf]

/-- The state a unit of the gate value engine ends in is canonical. -/
def GveEnd.Wf : GveEnd → Prop
  | .ended s _ _ | .fault s _ _ _ => MemoryWf s

theorem State.gveLoop_wf (s : State) (r : GveRun) (start stop fuel k i d cb : Nat) (sums : List Word) (fl : Flags)
    (hs : MemoryWf s) : GveEnd.Wf (s.gveLoop r start stop fuel k i d cb sums fl) := by
  induction fuel generalizing s k i d cb sums fl with
  | zero => exact hs
  | succ fuel ih =>
    unfold State.gveLoop
    split
    · exact hs
    · split
      · exact hs
      · rename_i w s1 h1
        have w1 : MemoryWf s1 := State.wf_of_mem_eq hs (State.engWord_mem h1)
        extract_lets next
        have hnext : ∀ i d cb sums fl, GveEnd.Wf (next i d cb sums fl) := fun i d cb sums fl => ih s1 _ i d cb sums fl w1
        clear_value next
        split
        · split
          · exact hnext _ _ _ _ _
          · exact w1
        · exact hnext _ _ _ _ _
        · split
          · exact hnext _ _ _ _ _
          · extract_lets col
            split
            · exact w1
            · split
              · exact w1
              · rename_i xs s2 h2
                exact ih _ _ _ _ _ _ _ (State.wf_of_mem_eq w1 (State.readColumn_mem h2))
        · split
          · exact hnext _ _ _ _ _
          · split
            · exact w1
            · extract_lets e
              split
              · exact w1
              · split
                · exact w1
                · exact hnext _ _ _ _ _
        · split
          · exact hnext _ _ _ _ _
          · split
            · exact w1
            · split
              · exact w1
              · split
                · exact w1
                · extract_lets done
                  have hdone : ∀ t, done = .ok t → MemoryWf t := by
                    intro t ht
                    simp only [done] at ht
                    split at ht
                    · exact State.writeRow_wf w1 ht
                    · rw [Except.ok.injEq] at ht
                      exact ht ▸ w1
                  clear_value done
                  split
                  · exact w1
                  · rename_i s2
                    have w2 : MemoryWf s2 := hdone s2 rfl
                    split
                    · exact State.wf_of_mem_eq w2 (State.updSector_mem _ _ _)
                    · exact ih _ _ _ _ _ _ _ (State.wf_of_mem_eq w2 (State.updSector_mem _ _ _))

theorem State.gveEval_wf (s : State) (sector : Nat) (g : GveCmd) (stop : Nat) (hs : MemoryWf s) :
    GveEnd.Wf (s.gveEval sector g stop) := by
  unfold State.gveEval
  extract_lets img bad x blk vec out w3
  split
  · exact hs
  · split
    · exact hs
    · split
      · exact hs
      · rename_i h s1 h1
        have w1 : MemoryWf s1 := State.wf_of_mem_eq hs (State.engBlock_mem h1)
        split
        · extract_lets b r
          split
          · exact w1
          · exact State.gveLoop_wf _ _ _ _ _ _ _ _ _ _ _ w1
        · exact w1

theorem State.gveLoad_wf (s : State) (sector : Nat) (g : GveCmd) (stop n : Nat) (hs : MemoryWf s) :
    GveEnd.Wf (s.gveLoad sector g stop n) := by
  induction n generalizing s with
  | zero => exact hs
  | succ n ih =>
    unfold State.gveLoad
    extract_lets q f h x el rd
    have hrd : ∀ l s1, rd = .ok (l, s1) → s1.mem = s.mem := by
      refine List.foldlRecOn _ _ (motive := fun (a : Except EngFault (List Byte × State)) => ∀ l s1, a = .ok (l, s1) → s1.mem = s.mem)
        ?_ ?_
      · intro l s1 h0
        simp only [Except.ok.injEq, Prod.mk.injEq] at h0
        rw [h0.2]
      · intro a ha j _ l s1 h
        split at h
        · cases h
        · rename_i l0 s0
          split at h
          · cases h
          · rename_i m s2 h2
            simp only [Except.ok.injEq, Prod.mk.injEq] at h
            rw [← h.2]
            exact (State.engRead_mem h2).trans (ha _ _ rfl)
    clear_value rd
    split
    · exact hs
    · rename_i l s1
      have w1 : MemoryWf s1 := State.wf_of_mem_eq hs (hrd _ _ rfl)
      split
      · exact w1
      · exact ih _ (State.wf_of_mem_eq w1 (State.updSector_mem _ _ _))

theorem State.gveClear_wf (s : State) (sector : Nat) (g : GveCmd) (stop : Nat) (hs : MemoryWf s) :
    GveEnd.Wf (s.gveClear sector g stop) :=
  State.wf_of_mem_eq hs (State.foldl_mem _ _ _ fun _ _ _ hb => hb ▸ State.updSector_mem _ _ _)

theorem State.gveRun_wf (s : State) (sector : Nat) (g : GveCmd) (stop : Nat) (hs : MemoryWf s) :
    GveEnd.Wf (s.gveRun sector g stop) := by
  unfold State.gveRun
  split
  · exact State.gveEval_wf _ _ _ _ hs
  · split
    · exact State.gveLoad_wf _ _ _ _ _ hs
    · exact hs
  · split
    · exact State.gveClear_wf _ _ _ _ hs
    · exact hs
  · exact hs

@[simp] theorem State.updGve_mem (s : State) (k id : Nat) (f : GveCmd → GveCmd) : (s.updGve k id f).mem = s.mem := rfl

theorem execGrammarCommandStart_wf (sector : Nat) (s : State) (hs : MemoryWf s) :
    OutcomeWf (execGrammarCommandStart sector s) := by
  simp only [execGrammarCommandStart]
  (repeat' split) <;> simp [MemoryWf, hs]

@[simp] theorem State.gveFault_mem (s : State) (sector : Nat) (g : GveCmd) (cursor : Nat) (fl : Flags)
    (e : EngFault) : (s.gveFault sector g cursor fl e).mem = s.mem := by
  simp only [State.gveFault]
  (repeat' split) <;> simp

theorem execGrammarCommandComplete_wf (command : Nat) (s : State) (hs : MemoryWf s) :
    OutcomeWf (execGrammarCommandComplete command s) := by
  unfold execGrammarCommandComplete
  split
  · exact hs
  · rename_i k t _
    split
    · exact hs
    · rename_i g _
      split
      · exact hs
      · extract_lets req n e v s1
        split
        · split
          · exact hs
          · split
            · exact State.wf_of_mem_eq hs (State.gveFault_mem _ _ _ _ _ _)
            · exact State.wf_of_mem_eq hs ((State.updSector_mem _ _ _).trans (State.answerCmd_mem _ _ _))
        · have hrun := State.gveRun_wf s k g (gveUnits g) hs
          split
          · rename_i s1 cur fl e h1
            rw [h1] at hrun
            exact State.wf_of_mem_eq hrun (State.gveFault_mem _ _ _ _ _ _)
          · rename_i s0 cur fl h0
            rw [h0] at hrun
            extract_lets m s1 pay s2 s3
            have hm : MemoryWf m.2.1 := State.meter_wf _ _ _ _ _ hs hrun
            split
            · exact State.wf_of_mem_eq hm (State.updGve_mem _ _ _ _)
            · have h3 : MemoryWf s3 := State.wf_of_mem_eq hm ((State.updSector_mem _ _ _).trans (State.answerCmd_mem _ _ _))
              clear_value s3
              split
              · exact State.wf_of_mem_eq h3 (State.updPool_mem _ _ _ _)
              · exact h3

end Sys2Proof.Machine
end

