-- ==== Sys2Proof/Proofs/SyncFrame.lean ====
section
/-! Memory after barriers and rings. -/

namespace Sys2Proof.Machine
open Sys2Proof

@[simp] theorem State.syncPut_mem (s : State) (a : WordAt) (v : Nat) : (s.syncPut a v).mem = s.mem := by
  simp [State.syncPut]

@[simp] theorem State.syncTag_mem (s : State) (a : WordAt) : (s.syncTag a).mem = s.mem := rfl

@[simp] theorem State.syncUpdate_mem (s : State) (a : WordAt) (v : Nat) : (s.syncUpdate a v).mem = s.mem := by
  simp only [State.syncUpdate]
  split <;> simp

theorem State.syncOp_mem {s : State} {a : WordAt} {b : ReqBody} {v s'} (hr : s.syncOp a b = .done v s') :
    s'.mem = s.mem := by
  unfold State.syncOp at hr
  cases b
  case bari | ringi | bara =>
    dsimp only at hr
    (repeat' split at hr) <;> simp only [SyncEnd.done.injEq, reduceCtorEq] at hr
    simp [← hr.2]
  case barw =>
    dsimp only at hr
    (repeat' split at hr) <;> simp only [SyncEnd.done.injEq, reduceCtorEq] at hr
    rw [← hr.2]
  case ringf =>
    dsimp only at hr
    (repeat' split at hr) <;> simp only [SyncEnd.done.injEq, reduceCtorEq] at hr
    simp [← hr.2]
  case ringr consumer =>
    cases consumer <;> dsimp only at hr
    all_goals
      (repeat' split at hr) <;> simp only [SyncEnd.done.injEq, reduceCtorEq] at hr
      simp [← hr.2]
  all_goals cases hr

theorem State.engineDecrement_mem {s : State} {a : WordAt} {k : Nat} {s'} (hr : s.engineDecrement a k = .ok s') :
    s'.mem = s.mem := by
  simp only [State.engineDecrement] at hr
  (repeat' split at hr) <;> cases hr
  simp

theorem State.engineAdvance_mem {s : State} {a : WordAt} {rslot : Nat} {s'} (hr : s.engineAdvance a rslot = .ok (some s')) :
    s'.mem = s.mem := by
  simp only [State.engineAdvance] at hr
  (repeat' split at hr) <;> cases hr
  simp

/-- The act is taken apart as an equation of states: under `State.mem` the kernel would evaluate it. -/
theorem State.fireSync_mem {s : State} {opc : Nat} {site : Site} {f : OpFields} {body : Firing → ReqBody} {s'}
    (hr : s.fireSync opc site f body = .next s') : s'.mem = s.mem := by
  unfold State.fireSync at hr
  obtain rfl | ⟨i, e, _, rfl⟩ | ⟨F, s1, hF, _, he⟩ := Laws.fire_cases hr
  · rfl
  · exact State.fireFault_mem _ _ _ _ _
  clear hr
  rw [← State.fires_mem hF]
  obtain h | ⟨b, hb, h⟩ := State.unlessSuppressed_cases s1 F _
  · rw [he, h]
  · rw [← hb]
    rw [h] at he
    clear h
    extract_lets p c at he
    have hc : c.1.mem = b.mem := by
      simp only [c]
      split <;> simp
    clear_value p c
    split at he
    · rw [he, State.enqueue_mem, hc]
    · split at he
      · rw [he, State.enqueue_mem, hc]
      · split at he
        · rename_i pay s3 h3
          extract_lets w at he
          have hw : w.2.mem = s3.mem := by
            simp only [w, State.waitBank_mem]
            split <;> simp
          clear_value w
          rw [he, State.result_mem, State.updCell_mem, hw, State.syncOp_mem h3, hc]
        · rw [he, State.enqueue_mem, hc]

end Sys2Proof.Machine
end

