-- ==== Sys2Proof/Proofs/EngineFrame.lean ====
section
/-! Memory after the copy, gather, scatter and embedding engines. -/

namespace Sys2Proof.Machine
open Sys2Proof

@[simp] theorem State.putThrough_mem (s : State) (i : Inst) (cell port vc : Nat) (t : Token) :
    (s.putThrough i cell port vc t).mem = s.mem := by
  simp [State.putThrough]

theorem State.deliverH_mem {s : State} {cell vc : Nat} {k : Kind} {p : Word} {deps : List Nat} {s'}
    (hr : s.deliverH cell vc k p deps = some s') : s'.mem = s.mem := by
  grind [State.deliverH, State.putThrough_mem, State.seeNow_mem]

theorem State.readSector_mem {s : State} {c : Cmd} {lvl : Bool} {swz : Nat} {a : Int} {side : Nat} {v' s'}
    (hr : s.readSector c lvl swz a side = .ok (v', s')) : s'.mem = s.mem := by
  grind [State.readSector, State.readSpad_mem, State.engRead_mem]

theorem State.writeSector_wf {s : State} {c : Cmd} {lvl : Bool} {swz : Nat} {a : Int} {side : Nat} {bs : List Byte}
    (hs : MemoryWf s) {s'} (hr : s.writeSector c lvl swz a side bs = .ok s') : MemoryWf s' := by
  grind [State.writeSector, State.spadPut_mem, State.engWrite_wf]

theorem State.writeMask_wf {s : State} {c : Cmd} {k : Nat} {b : Bool} (hs : MemoryWf s) {s'} (hr : s.writeMask c k b = .ok s') :
    MemoryWf s' := by
  simp only [State.writeMask] at hr
  split at hr
  · cases hr
  · rename_i pa s1 hx
    have h1 := fun v => s1.memSetByte_wf pa v (State.wf_of_mem_eq hs (State.engXlat_mem hx))
    cases hr
    split
    · exact State.wf_of_mem_eq (h1 _) (State.portMove_mem _ _ _ _)
    · exact h1 _

theorem State.copySector_wf {s : State} {c : Cmd} (hs : MemoryWf s) {s' v'} (hr : s.copySector c = .ok (s', v')) :
    MemoryWf s' := by
  grind [State.copySector, → State.readSector_mem, → State.writeSector_wf, → State.engRead_mem, → State.wf_of_mem_eq]

theorem State.copyUnit_wf {s : State} {c : Cmd} (hs : MemoryWf s) {s' v'} (hr : s.copyUnit c = .ok (s', v')) :
    MemoryWf s' := by
  grind [State.copyUnit, → State.copySector_wf, → State.writeMask_wf]

theorem State.listIndex_mem {s : State} {c : Cmd} {k : Nat} {v' s'} (hr : s.listIndex c k = .ok (v', s')) :
    s'.mem = s.mem := by
  grind [State.listIndex, State.engWord_mem]

theorem State.bagOffset_mem {s : State} {c : Cmd} {b : Nat} {v' s'} (hr : s.bagOffset c b = .ok (v', s')) :
    s'.mem = s.mem := by
  grind [State.bagOffset, State.engWord_mem]

@[simp] theorem State.rowAnswer_mem (s : State) (answer : BitVec 16) : (s.rowAnswer answer).mem = s.mem := rfl

theorem State.readRow_mem {s : State} {c : Cmd} {raw k : Nat} {v' s'} (hr : s.readRow c raw k = .ok (v', s')) :
    s'.mem = s.mem := by
  grind [State.readRow, State.engBlock_mem]

theorem State.writeSectors_wf {s : State} {c : Cmd} {lvl : Bool} {swz a side n : Nat} {bs : List Byte} (hs : MemoryWf s) {s'}
    (hr : s.writeSectors c lvl swz a side n bs = .ok s') : MemoryWf s' := by
  induction n generalizing s a bs with
  | zero => grind [State.writeSectors]
  | succ n ih => grind [State.writeSectors, State.writeSector_wf]

theorem State.writeTableRow_wf {s : State} {c : Cmd} {xl : List XlEntry} {a n : Nat} {bs : List Byte} (hs : MemoryWf s) {s'}
    (hr : s.writeTableRow c xl a n bs = .ok s') : MemoryWf s' := by
  induction n generalizing s a bs with
  | zero => grind [State.writeTableRow]
  | succ n ih => grind [State.writeTableRow, State.engWriteVia_wf]

theorem State.readSectors_mem {s : State} {c : Cmd} {a n : Nat} {v' s'} (hr : s.readSectors c a n = .ok (v', s')) :
    s'.mem = s.mem := by
  induction n generalizing v' s' with
  | zero => grind [State.readSectors]
  | succ n ih => grind [State.readSectors, State.readSector_mem]

theorem State.rowUnit_wf {s : State} {c : Cmd} (hs : MemoryWf s) {s' v'} (hr : s.rowUnit c = .ok (s', v')) :
    MemoryWf s' := by
  simp only [State.rowUnit] at hr
  split at hr
  · cases hr
  · rename_i raw s1 h1
    have w1 := State.wf_of_mem_eq hs (State.listIndex_mem h1)
    split at hr
    · split at hr
      · cases hr
      · rename_i bs s2 h2
        split at hr
        · cases hr
        · rename_i s3 h3
          cases hr
          exact State.writeSectors_wf (State.wf_of_mem_eq w1 (State.readRow_mem h2)) h3
    · split at hr
      · cases hr
        exact w1
      · cases hr
      · split at hr
        · cases hr
        · split at hr
          · cases hr
          · rename_i new s2 h2
            have w2 := State.wf_of_mem_eq w1 (State.readSectors_mem h2)
            split at hr
            · split at hr
              · cases hr
              · rename_i old s3 h3
                split at hr
                · cases hr
                · rename_i s4 h4
                  cases hr
                  exact State.writeTableRow_wf (State.wf_of_mem_eq w2 (State.engBlock_mem h3)) h4
            · split at hr
              · cases hr
              · rename_i s4 h4
                cases hr
                exact State.writeTableRow_wf w2 h4

theorem State.bagMembers_mem {s : State} {c : Cmd} {lo n : Nat} {v' s'} (hr : s.bagMembers c lo n = .ok (v', s')) :
    s'.mem = s.mem := by
  induction n generalizing v' s' with
  | zero => grind [State.bagMembers]
  | succ n ih => grind [State.bagMembers, State.listIndex_mem]

theorem State.memberRows_mem {s : State} {c : Cmd} {l : List (Nat × Nat)} {v' s'} (hr : s.memberRows c l = .ok (v', s')) :
    s'.mem = s.mem := by
  induction l generalizing s v' s' with
  | nil => grind [State.memberRows]
  | cons m l ih => grind [State.memberRows, State.readRow_mem]

theorem State.bagUnit_wf {s : State} {c : Cmd} (hs : MemoryWf s) {s' v'} (hr : s.bagUnit c = .ok (s', v')) :
    MemoryWf s' := by
  simp only [State.bagUnit] at hr
  split at hr
  · cases hr
  · rename_i lo s1 h1
    split at hr
    · cases hr
    · rename_i hi s2 h2
      split at hr
      · cases hr
      · rename_i ms s3 h3
        split at hr
        · cases hr
        · rename_i rows s4 h4
          have h : s4.mem = s.mem := (State.memberRows_mem h4).trans ((State.bagMembers_mem h3).trans
            ((State.bagOffset_mem h2).trans (State.bagOffset_mem h1)))
          split at hr
          · cases hr
          · rename_i s5 h5
            cases hr
            exact State.writeSectors_wf (State.wf_of_mem_eq hs h) h5

theorem State.unit_wf {s : State} {c : Cmd} (hs : MemoryWf s) {s' v'} (hr : s.unit c = .ok (s', v')) :
    MemoryWf s' := by
  grind [State.unit, State.copyUnit_wf, State.bagUnit_wf, State.rowUnit_wf]

theorem State.countDown_mem {s : State} {c : Cmd} {s'} (hr : s.countDown c = .ok s') : s'.mem = s.mem := by
  grind [State.countDown, State.updCmd_mem, State.engineDecrement_mem]

@[simp] theorem State.engineFault_mem (s : State) (id : Nat) (e : EngFault) : (s.engineFault id e).mem = s.mem := by
  grind [State.engineFault, State.countDown_mem, State.updCmd_mem, State.holdCommand_mem]

@[simp] theorem State.rowAsk_mem (s : State) (c : Cmd) (key at_ : Nat) : (s.rowAsk c key at_).2.mem = s.mem := by
  simp only [State.rowAsk]
  (repeat' split) <;> simp

@[simp] theorem State.unitAsk_mem (s : State) (c : Cmd) : (s.unitAsk c).2.mem = s.mem := by
  simp only [State.unitAsk]
  (repeat' split) <;> simp

theorem State.laterUnits_wf (s : State) (c : Cmd) (n : Nat) (hs : MemoryWf s) : MemoryWf (s.laterUnits c n) := by
  induction n with
  | zero => exact hs
  | succ n ih => grind [State.laterUnits, State.draw_mem, State.copySector_wf, State.unit_wf, State.meter_wf,
      State.wf_of_mem_eq]

theorem State.unitFault_wf (s : State) (c : Cmd) (e : EngFault) (hs : MemoryWf s) : MemoryWf (s.unitFault c e) := by
  simp only [State.unitFault]
  split <;> simp [MemoryWf, hs, State.laterUnits_wf]

theorem State.runUnit_wf (s : State) (c : Cmd) (hs : MemoryWf s) : MemoryWf (s.runUnit c) := by
  simp only [State.runUnit]
  split
  · exact State.unitFault_wf _ _ _ hs
  · rename_i s1 k hu
    have h1 := State.meter_wf s s1 c.sector c.id c.paid hs (State.unit_wf hs hu)
    split <;> exact h1

theorem State.runCopies_wf (s : State) (k n : Nat) (hs : MemoryWf s) : MemoryWf (s.runCopies k n) := by
  induction n generalizing s with
  | zero => exact hs
  | succ n ih =>
    simp only [State.runCopies]
    split
    · exact hs
    · rename_i c _
      have h1 : MemoryWf (s.unitAsk c).2 := State.wf_of_mem_eq hs (State.unitAsk_mem s c)
      split
      · exact ih _ h1
      · exact ih _ (State.runUnit_wf _ _ h1)

theorem State.someUnits_wf (s : State) (c : Cmd) (hs : MemoryWf s) : MemoryWf (s.someUnits c) := by
  simp only [State.someUnits]
  split <;> simp [MemoryWf, hs, State.runCopies_wf]

@[simp] theorem State.queueEngine_mem (s : State) (F : Firing) (kind : CmdKind) (desc : List Byte) (home : Nat) :
    (s.queueEngine F kind desc home).mem = s.mem := rfl

theorem State.fireEngine_mem {s : State} {opc n : Nat} {kind : CmdKind} {site : Site} {f : OpFields} {s'}
    (hr : s.fireEngine opc n kind site f = .next s') : s'.mem = s.mem := by
  grind [State.fireEngine, State.fire_mem, State.unlessSuppressed_mem, State.queueEngine_mem]

theorem execCopyw_wf (site : Site) (f : OpFields) (s : State) (hs : MemoryWf s) : OutcomeWf (execCopyw site f s) :=
  .of_unlessSuppressed hs fun _ _ _ => by simp

theorem State.nodeDescriptor_mem {s : State} {c : Cmd} {v' s'} (hr : s.nodeDescriptor c = .ok (v', s')) :
    s'.mem = s.mem := by
  simp only [State.nodeDescriptor] at hr
  split at hr
  · cases hr
  · refine List.foldlRecOn _ _ (motive := fun (x : Except EngFault (List Byte × State)) => ∀ v t, x = .ok (v, t) → t.mem = s.mem)
      ?_ ?_ v' s' hr
    · rintro v t ⟨⟩
      rfl
    · intro x hx k _ v t h
      split at h
      · cases h
      · rename_i l s1
        split at h
        · cases h
        · rename_i m s2 h2
          cases h
          exact (State.engRead_mem h2).trans (hx _ _ rfl)

theorem State.bagsOk_mem {s : State} {c : Cmd} {n : Nat} {v' s'} (hr : s.bagsOk c n = .ok (v', s')) :
    s'.mem = s.mem := by
  induction n generalizing v' s' with
  | zero => exact State.bagOffset_mem hr
  | succ n ih => grind [State.bagsOk, State.bagOffset_mem]

theorem State.acceptCmd_mem {s : State} {c : Cmd} {s'} (hr : s.acceptCmd c = .ok s') : s'.mem = s.mem := by
  grind [State.acceptCmd, State.nodeDescriptor_mem, State.bagsOk_mem, State.updCmd_mem]

theorem execCopyCommandAccept_wf (sector : Nat) (s : State) (hs : MemoryWf s) :
    OutcomeWf (execCopyCommandAccept sector s) := by
  unfold execCopyCommandAccept
  extract_lets mine copies start
  split
  · exact hs
  · rename_i c _
    split
    · exact hs
    · split
      · exact State.wf_of_mem_eq hs (State.engineFault_mem _ _ _)
      · rename_i s1 h1
        extract_lets m s2
        have hm : MemoryWf m.2.1 := State.meter_wf _ _ _ _ _ hs (State.wf_of_mem_eq hs (State.acceptCmd_mem h1))
        split
        · exact State.wf_of_mem_eq hm (State.updCmd_mem _ _ _)
        · have h2 : MemoryWf s2 := State.wf_of_mem_eq hm
            ((State.updSector_mem _ _ _).trans ((State.noteVacated_mem _ _).trans (State.updCmd_mem _ _ _)))
          clear_value s2
          split
          · exact State.someUnits_wf _ _ h2
          · exact h2

theorem execEngineBarrierDecrement_wf (command : Nat) (s : State) (hs : MemoryWf s) :
    OutcomeWf (execEngineBarrierDecrement command s) := by
  unfold execEngineBarrierDecrement
  split
  · exact hs
  · rename_i c _
    split
    · exact hs
    · extract_lets s1
      have h1 : MemoryWf s1 := State.someUnits_wf _ _ hs
      clear_value s1
      split
      · exact h1
      · split
        · exact h1
        · split
          · exact State.wf_of_mem_eq h1 (State.engineFault_mem _ _ _)
          · rename_i s2 h2
            exact State.wf_of_mem_eq h1 (State.countDown_mem h2)

theorem execEngineRingAdvance_wf (command : Nat) (s : State) (hs : MemoryWf s) :
    OutcomeWf (execEngineRingAdvance command s) := by
  unfold execEngineRingAdvance
  split
  · exact hs
  · extract_lets b
    split
    · exact hs
    · split
      · exact State.wf_of_mem_eq hs (State.updCmd_mem _ _ _)
      · split
        · exact hs
        · split
          · exact State.wf_of_mem_eq hs (State.engineFault_mem _ _ _)
          · exact hs
          · rename_i s1 h1
            exact State.wf_of_mem_eq hs ((State.updCmd_mem _ _ _).trans (State.engineAdvance_mem h1))

@[simp] theorem State.releaseCopyw_mem (s : State) (id : Nat) : (s.releaseCopyw id).mem = s.mem := rfl

@[simp] theorem State.finishCmd_mem (s : State) (c : Cmd) : (s.finishCmd c).mem = s.mem := by
  simp only [State.finishCmd]
  split <;> simp

theorem execEngineCompletion_wf (command : Nat) (s : State) (hs : MemoryWf s) :
    OutcomeWf (execEngineCompletion command s) := by
  unfold execEngineCompletion
  split
  · exact hs
  · rename_i c _
    split
    · exact hs
    · extract_lets s1
      have h1 : MemoryWf s1 := by
        simp only [s1]
        split
        · exact State.runCopies_wf _ _ _ hs
        · exact hs
      clear_value s1
      have hend := fun d => State.wf_of_mem_eq h1 (State.finishCmd_mem s1 d)
      split
      · exact h1
      · rename_i d _
        extract_lets b
        split
        · exact h1
        · split
          · split
            · exact hend d
            · split
              · exact h1
              · rename_i cell _ s2 h2
                refine State.wf_of_mem_eq (State.wf_of_mem_eq h1 ?_) (State.finishCmd_mem s2 d)
                split at h2
                · rw [Option.some.inj h2]
                · exact State.deliverH_mem h2
          · exact hend d

@[simp] theorem State.fetchAhead_mem (s : State) (c : Cmd) : (s.fetchAhead c).mem = s.mem := by
  simp only [State.fetchAhead]
  split
  · rfl
  · split
    · rfl
    · split
      · rfl
      · rename_i raw s1 h1
        split
        · rfl
        · rename_i bs s2 h2
          split
          · exact State.meter_mem_of_eq ((State.readRow_mem h2).trans (State.listIndex_mem h1)) _ _ _
          · rfl

@[simp] theorem State.guestSectors_mem (s : State) (k asid root va n : Nat) :
    (s.guestSectors k asid root va n).2.mem = s.mem := by
  induction n generalizing s va with
  | zero => rfl
  | succ n ih =>
    have := State.translate_mem s k asid root (va % 2 ^ 57) .load
    grind [State.guestSectors, State.translate_mem, State.portMove_mem]

@[simp] theorem State.guestRow_mem (s : State) (id : Nat) : (s.guestRow id).mem = s.mem := by
  simp only [State.guestRow]
  split
  · rfl
  · split
    · simp
    · have h := fun k asid root va n => State.meterGuest_mem_of_eq (State.guestSectors_mem s k asid root va n) k id
      split
      · exact (State.sendWord_mem _ _ _).trans (h _ _ _ _ _)
      · exact h _ _ _ _ _
    · rfl

theorem execGatherOwnerRequest_wf (command : Nat) (s : State) (hs : MemoryWf s) :
    OutcomeWf (execGatherOwnerRequest command s) := by
  simp only [execGatherOwnerRequest]
  (repeat' split) <;> simp [MemoryWf, apply_ite State.mem, hs]

@[simp] theorem State.batchGranules_mem (s : State) (c : Cmd) (batch : Nat) (gs : List Nat) (acc : List XlEntry) (ns : Nat) :
    (s.batchGranules c batch gs acc ns).1.mem = s.mem := by
  induction gs generalizing s acc ns with
  | nil => rfl
  | cons g gs ih => grind [State.batchGranules, State.engXlat_mem]

theorem execBatchTranslation_wf (command : Nat) (s : State) (hs : MemoryWf s) :
    OutcomeWf (execBatchTranslation command s) := by
  simp only [execBatchTranslation]
  (repeat' split) <;> simp [MemoryWf, hs]

theorem execRowReturn_wf (command : Nat) (answer : BitVec 16) (s0 : State) (hs : MemoryWf s0) :
    OutcomeWf (execRowReturn command answer s0) := by
  simp only [execRowReturn]
  (repeat' split) <;> simp [MemoryWf, hs, State.runUnit_wf]

theorem execIndexLaneToken_wf (command lane : Nat) (s : State) (hs : MemoryWf s) :
    OutcomeWf (execIndexLaneToken command lane s) := by
  unfold execIndexLaneToken
  split
  · exact hs
  · rename_i c _
    extract_lets vc k
    split
    · exact hs
    · split
      · exact hs
      · rename_i t rest _
        extract_lets g sg s1 stop idx
        split
        · exact hs
        · have hg : MemoryWf g.2 := by
            simp only [g]
            split
            · exact hs
            · exact State.wf_of_mem_eq hs (State.rowAsk_mem _ _ _ _)
          split
          · exact hg
          · have h1 : MemoryWf s1 := State.wf_of_mem_eq hg (State.updCell_mem _ _ _)
            have hstop : ∀ e, MemoryWf (stop e) := by
              intro e
              simp only [stop]
              split
              · exact hg
              · exact State.wf_of_mem_eq h1 (State.engineFault_mem _ _ _)
            have hsg : MemoryWf sg := hg
            clear_value stop s1 sg
            split
            · exact State.wf_of_mem_eq h1 (State.updCmd_mem _ _ _)
            · split
              · exact hstop _
              · split
                · exact hstop _
                · rename_i bs s2 h2
                  split
                  · exact hstop _
                  · rename_i s3 h3
                    extract_lets m
                    have hm : MemoryWf m.2.1 := State.meter_wf _ _ _ _ _ hsg
                      (State.writeSectors_wf (State.wf_of_mem_eq h1 (State.readRow_mem h2)) h3)
                    split
                    · exact State.wf_of_mem_eq hm (State.updCmd_mem _ _ _)
                    · exact State.wf_of_mem_eq hm (State.updCmd_mem _ _ _)

theorem execEngineSuspend_wf (command : Nat) (s : State) (hs : MemoryWf s) :
    OutcomeWf (execEngineSuspend command s) := by
  unfold execEngineSuspend
  extract_lets preempted
  split
  · rename_i c _
    split
    · exact hs
    · split
      · exact State.runUnit_wf _ _ hs
      · extract_lets s1
        have h1 : MemoryWf s1 := by
          simp only [s1]
          split
          · exact State.someUnits_wf _ _ hs
          · exact hs
        clear_value s1
        split
        · exact h1
        · split
          · exact h1
          · split
            · exact State.wf_of_mem_eq h1 (State.engineFault_mem _ _ _)
            · rename_i s2 h2
              exact State.wf_of_mem_eq h1 ((State.updCmd_mem _ _ _).trans (State.countDown_mem h2))
  · split
    · exact hs
    · rename_i k t _
      split
      · exact hs
      · rename_i g _
        split
        · exact hs
        · extract_lets stop n
          have hn : MemoryWf n.2 := by
            simp only [n]
            split
            · exact State.wf_of_mem_eq hs (State.draw_mem _ _)
            · exact hs
          clear_value n
          have hrun := State.gveRun_wf n.2 k g (g.cursor + n.1) hn
          split
          · rename_i s1 cur fl e h1
            rw [h1] at hrun
            exact State.wf_of_mem_eq hrun (State.gveFault_mem _ _ _ _ _ _)
          · rename_i s1 cur fl h1
            rw [h1] at hrun
            extract_lets m
            have hm : MemoryWf m.2.1 := State.meter_wf _ _ _ _ _ hn hrun
            split
            · exact State.wf_of_mem_eq hm ((State.updGve_mem _ _ _ _).trans (State.updGve_mem _ _ _ _))
            · exact State.wf_of_mem_eq hm (State.updGve_mem _ _ _ _)

end Sys2Proof.Machine
end

