-- ==== Sys2Proof/Proofs/SubscriptionFrame.lean ====
section
/-! Memory after the mesh and subscriptions. -/

namespace Sys2Proof.Machine
open Sys2Proof

@[simp] theorem State.faultReqAt_mem (s : State) (r : Req) (at_ code cont srck d0 d1 : Nat) :
    (s.faultReqAt r at_ code cont srck d0 d1).mem = s.mem := by
  simp only [State.faultReqAt]
  (repeat' split) <;> simp

@[simp] theorem State.faultReq_mem (s : State) (r : Req) (code cont srck d0 d1 : Nat) :
    (s.faultReq r code cont srck d0 d1).mem = s.mem := by
  simp [State.faultReq]

theorem State.setSlotState_wf (s : State) (p : Pair) (st : Nat) (hs : MemoryWf s) :
    MemoryWf (s.setSlotState p st) := by
  simp only [State.setSlotState]
  (repeat' split) <;> simp [MemoryWf, hs, State.memWrite_wf]

@[simp] theorem State.mirrorWrite_mem (s : State) (p : Pair) (u : Update) : (s.mirrorWrite p u).mem = s.mem := by
  simp only [State.mirrorWrite]
  split <;> simp

@[simp] theorem State.wakePairs_mem (s : State) : s.wakePairs.mem = s.mem := by
  apply State.foldl_mem
  rintro a r _ rfl
  grind [State.syncOp_mem, State.updReq_mem, State.takeFault_mem]

theorem execSubscribe_wf (site : Site) (f : OpFields) (s : State) (hs : MemoryWf s) :
    OutcomeWf (execSubscribe site f s) :=
  .of_unlessSuppressed hs fun _ _ _ => by simp

theorem execUnsub_wf (site : Site) (f : OpFields) (s : State) (hs : MemoryWf s) : OutcomeWf (execUnsub site f s) :=
  .of_unlessSuppressed hs fun _ _ _ => by simp

theorem execSflush_wf (site : Site) (f : OpFields) (s : State) (hs : MemoryWf s) : OutcomeWf (execSflush site f s) :=
  .of_unlessSuppressed hs fun _ _ _ => by simp

@[simp] theorem State.answer_mem (s : State) (id : Nat) (v : Nat) : (s.answer id v).mem = s.mem := rfl

@[simp] theorem State.readSnapshot_mem (s : State) (p : Pair) : (s.readSnapshot p).mem = s.mem := by
  simp only [State.readSnapshot]
  (repeat' split) <;> simp

theorem execActivation_wf (request : Nat) (s : State) (hs : MemoryWf s) : OutcomeWf (execActivation request s) := by
  simp only [execActivation]
  (repeat' split) <;> simp [MemoryWf, hs]

theorem execSnapshotComplete_wf (request : Nat) (s : State) (hs : MemoryWf s) :
    OutcomeWf (execSnapshotComplete request s) := by
  simp only [execSnapshotComplete]
  (repeat' split) <;> simp [MemoryWf, hs, State.setSlotState_wf]

theorem execHeldUpdateClose_wf (pair : Nat) (s : State) (hs : MemoryWf s) :
    OutcomeWf (execHeldUpdateClose pair s) := by
  simp only [execHeldUpdateClose]
  (repeat' split) <;> simp [MemoryWf, hs]

@[simp] theorem State.takeUpdate_mem (s : State) (p : Pair) : (s.takeUpdate p).mem = s.mem := by
  simp only [State.takeUpdate]
  (repeat' split) <;> simp

theorem execMirrorUpdate_wf (pair : Nat) (s0 : State) (hs : MemoryWf s0) : OutcomeWf (execMirrorUpdate pair s0) := by
  simp only [execMirrorUpdate]
  (repeat' split) <;> simp [MemoryWf, hs]

theorem execParkRequest_wf (pair : Nat) (s : State) (hs : MemoryWf s) : OutcomeWf (execParkRequest pair s) := by
  simp only [execParkRequest]
  (repeat' split) <;> simp [MemoryWf, hs, State.setSlotState_wf]

theorem State.frameWrite_wf (s : State) (p : Pair) (u : Update) (hs : MemoryWf s) : MemoryWf (s.frameWrite p u) := by
  simp only [State.frameWrite]
  split
  · exact hs
  · rename_i base _
    have h1 : MemoryWf (((p.targets u).map (fun t => (base + (t.1 - p.frameLo), t.2))).foldl (fun (a : State) t => a.memSetByte t.1 t.2) s) :=
      State.foldl_wf _ _ _ hs fun a t _ hb ha => hb ▸ a.memSetByte_wf _ _ ha
    split
    · exact State.wf_of_mem_eq h1 (State.foldl_mem _ _ _ fun a k _ hb => hb ▸ State.portMove_mem _ _ _ _)
    · exact h1

theorem State.frameUpdate_wf (s : State) (p : Pair) (hs : MemoryWf s) : MemoryWf (s.frameUpdate p) := by
  simp only [State.frameUpdate]
  split
  · exact hs
  · rename_i u _ _
    split
    · exact hs
    · exact State.meter_wf _ _ _ _ _ hs (State.wf_of_mem_eq (State.frameWrite_wf s p u hs) (State.updPair_mem _ _ _))

theorem execParkedUpdateWrite_wf (pair : Nat) (s : State) (hs : MemoryWf s) :
    OutcomeWf (execParkedUpdateWrite pair s) := by
  simp only [execParkedUpdateWrite]
  (repeat' split) <;> simp [MemoryWf, hs, State.frameUpdate_wf]

theorem execUnpark_wf (pair : Nat) (s : State) (hs : MemoryWf s) : OutcomeWf (execUnpark pair s) := by
  simp only [execUnpark]
  (repeat' split) <;> simp [MemoryWf, hs, State.frameUpdate_wf, State.setSlotState_wf]

end Sys2Proof.Machine
end

