-- ==== Sys2Proof/Proofs/LaunchFrame.lean ====
section
/-! Memory after queues, jobs and the timetable. -/

namespace Sys2Proof.Machine
open Sys2Proof

@[simp] theorem State.setQueueEntry_mem (s : State) (d q : Nat) (e : BitVec 128) :
    (s.setQueueEntry d q e).mem = s.mem := rfl

@[simp] theorem State.raiseMsi_mem (s : State) (v : Nat) : (s.raiseMsi v).mem = s.mem := rfl

@[simp] theorem State.stopQueue_mem (s : State) (d q va : Nat) : (s.stopQueue d q va).mem = s.mem := rfl

theorem State.vaWrite_getD_wf (s : State) (asid root va : Nat) (bs : List Byte) (hs : MemoryWf s) :
    MemoryWf ((s.vaWrite asid root va bs).getD s) := by
  cases h : s.vaWrite asid root va bs with
  | none => exact hs
  | some t => exact State.vaWrite_wf bs s t asid root va hs h

theorem State.complete_wf (s : State) (d q asid root work rec_ : Nat) (irq : Bool) (hs : MemoryWf s) :
    MemoryWf (s.complete d q asid root work rec_ irq) := by
  have h1 := State.vaWrite_getD_wf s asid root work (natBytes 64 rec_) hs
  unfold State.complete
  extract_lets s1 e s2
  have h2 : MemoryWf s2 := by
    simp only [s2]
    split
    · exact State.putHeader_wf _ _ _ _ h1
    · exact h1
  split
  · exact State.wf_of_mem_eq h2 (State.raiseMsi_mem _ _)
  · exact h2

@[simp] theorem State.jobFault_mem (s : State) (job code gidx : Nat) (dyn : Bool) (d0 d1 : Nat) :
    (s.jobFault job code gidx dyn d0 d1).mem = s.mem := by
  simp only [State.jobFault]
  split <;> simp

@[simp] theorem State.readFault_mem (s : State) (j : Job) (va n gidx : Nat) (dyn : Bool) :
    (s.readFault j va n gidx dyn).mem = s.mem := by
  simp only [State.readFault]
  split <;> simp

theorem State.addRecord_wf (s : State) (j : Job) (n : BitVec 512) (gidx : Nat) (dyn : Bool) (hs : MemoryWf s) :
    MemoryWf (s.addRecord j n gidx dyn) := by
  simp only [State.addRecord]
  split
  · exact hs
  · exact State.vaWrite_getD_wf _ _ _ _ _ hs

theorem State.eligible_wf (s : State) (job i : Nat) (hs : MemoryWf s) : MemoryWf (s.eligible job i) := by
  simp only [State.eligible]
  (repeat' split) <;> simp [MemoryWf, hs, State.addRecord_wf]

@[simp] theorem State.unspill_mem (s : State) (job n : Nat) : (s.unspill job n).mem = s.mem := by
  induction n generalizing s with
  | zero => rfl
  | succ n ih =>
    simp only [State.unspill]
    (repeat' split) <;> simp [ih]

@[simp] theorem State.refill_mem (s : State) (d : Nat) : (s.refill d).mem = s.mem := by
  simp [State.refill]

theorem State.rejectPacket_wf (s : State) (d q : Nat) (e : BitVec 128) (j : Job) (code : Nat) (hs : MemoryWf s) :
    MemoryWf (s.rejectPacket d q e j code) := by
  simp only [State.rejectPacket]
  split <;> simp [MemoryWf, hs, State.complete_wf]

theorem State.startJob_wf (s : State) (j : Job) (hs : MemoryWf s) : MemoryWf (s.startJob j) :=
  State.foldl_wf _ _ _ (State.vaWrite_getD_wf _ _ _ _ _ hs) fun _ _ _ hb ha => hb ▸ State.eligible_wf _ _ _ ha

theorem State.takePacket_wf (s : State) (d q : Nat) (e : BitVec 128) (p : BitVec 512) (hs : MemoryWf s) :
    MemoryWf (s.takePacket d q e p) := by
  simp only [State.takePacket]
  (repeat' split) <;> simp [MemoryWf, hs, State.rejectPacket_wf, State.startJob_wf]

theorem State.takePackets_wf (s : State) (d q n : Nat) (hs : MemoryWf s) : MemoryWf (s.takePackets d q n) := by
  induction n generalizing s with
  | zero => exact hs
  | succ n ih =>
    simp only [State.takePackets]
    split
    · exact hs
    · split
      · exact State.wf_of_mem_eq hs (State.stopQueue_mem _ _ _ _)
      · split
        · exact hs
        · exact ih _ (State.takePacket_wf _ _ _ _ _ (State.putHeader_wf _ _ _ _ hs))

theorem State.serveQueue_wf (s : State) (d q : Nat) (hs : MemoryWf s) : MemoryWf (s.serveQueue d q) := by
  simp only [State.serveQueue]
  split <;> simp [MemoryWf, hs, State.takePackets_wf]

theorem execDoorbellWrite_wf (s : State) (hs : MemoryWf s) : OutcomeWf (execDoorbellWrite s) := by
  simp only [execDoorbellWrite]
  (repeat' split) <;> simp [MemoryWf, hs, State.serveQueue_wf]

theorem State.writeQueueEntry_wf (s : State) (d q : Nat) (e : BitVec 128) (hs : MemoryWf s) :
    MemoryWf (s.writeQueueEntry d q e) := by
  simp only [State.writeQueueEntry]
  (repeat' split) <;> simp [MemoryWf, hs, State.serveQueue_wf]

theorem execQueueTableWrite_wf (s : State) (hs : MemoryWf s) : OutcomeWf (execQueueTableWrite s) := by
  simp only [execQueueTableWrite]
  (repeat' split) <;> simp [MemoryWf, hs, State.writeQueueEntry_wf]

theorem State.release_wf (s : State) (j : Job) (i : Nat) (hs : MemoryWf s) : MemoryWf (s.release j i) := by
  simp only [State.release]
  (repeat' split) <;> simp [MemoryWf, hs, State.memSetByte_wf, State.eligible_wf]

theorem execNodeComplete_wf (node : Nat) (s : State) (hs : MemoryWf s) : OutcomeWf (execNodeComplete node s) := by
  unfold execNodeComplete
  split
  · exact hs
  · rename_i r _
    split
    · exact hs
    · rename_i j _
      extract_lets reported s1
      split
      · exact hs
      · have h1 : MemoryWf s1 := State.wf_of_mem_eq hs rfl
        clear_value s1
        split
        · exact State.wf_of_mem_eq h1 (State.refill_mem _ _)
        · split
          · exact State.wf_of_mem_eq h1 (State.readFault_mem _ _ _ _ _ _)
          · refine State.wf_of_mem_eq (State.foldl_wf _ _ _ h1 ?_) (State.refill_mem _ _)
            rintro a i _ rfl ha
            exact State.release_wf _ _ _ ha

@[simp] theorem State.dropPast_mem (s : State) : (s.dropPast).mem = s.mem := by
  simp only [State.dropPast]
  split <;> simp

theorem execJobComplete_wf (job : Nat) (s : State) (hs : MemoryWf s) : OutcomeWf (execJobComplete job s) := by
  simp only [execJobComplete]
  (repeat' split) <;> simp [MemoryWf, hs, State.complete_wf]

theorem State.claimQueue_wf (s : State) (n : Nat) (p : BitVec 512) (hs : MemoryWf s) :
    MemoryWf (s.claimQueue n p).state := by
  simp only [State.claimQueue]
  split
  · exact hs
  · split
    · exact State.wf_of_mem_eq hs (State.stopQueue_mem _ _ _ _)
    · split
      · exact hs
      · split
        · exact State.wf_of_mem_eq hs (State.stopQueue_mem _ _ _ _)
        · exact State.serveQueue_wf _ _ _
            (State.wf_of_mem_eq (State.memWrite_wf _ _ _ _ (State.putHeader_wf _ _ _ _ hs)) (State.healRange_mem _ _ _))

@[simp] theorem State.pilotReply_mem (s : State) (d v : Nat) : (s.pilotReply d v).mem = s.mem := rfl

@[simp] theorem State.answerLaunch_mem (s : State) (r : Req) (v : Nat × Nat) : (s.answerLaunch r v).mem = s.mem := by
  simp only [State.answerLaunch]
  split <;> simp

theorem execPeerLaunchRequest_wf (s : State) (hs : MemoryWf s) : OutcomeWf (execPeerLaunchRequest s) := by
  simp only [execPeerLaunchRequest]
  (repeat' split) <;> simp [MemoryWf, hs, State.claimQueue_wf]

end Sys2Proof.Machine
end

