-- ==== Sys2Proof/Proofs/MessageFrame.lean ====
section
/-! Memory after messages and grants. -/

namespace Sys2Proof.Machine
open Sys2Proof

@[simp] theorem State.serveRouting_mem (s : State) (k n : Nat) : (s.serveRouting k n).mem = s.mem := by
  induction n generalizing s with
  | zero => rfl
  | succ n ih =>
    simp only [State.serveRouting]
    (repeat' split) <;> simp [ih]

theorem execTenq_wf (site : Site) (f : OpFields) (s : State) (hs : MemoryWf s) : OutcomeWf (execTenq site f s) :=
  .of_unlessSuppressed hs fun _ _ _ => by simp

theorem execTlnch_wf (site : Site) (f : OpFields) (s : State) (hs : MemoryWf s) : OutcomeWf (execTlnch site f s) :=
  .of_unlessSuppressed hs fun _ _ _ => by simp

theorem execSend_wf (site : Site) (f : OpFields) (s : State) (hs : MemoryWf s) : OutcomeWf (execSend site f s) := by
  refine .of_mem hs (State.fire_mem fun a F => ?_)
  dsimp only
  (repeat' split) <;> simp

theorem execRgreq_wf (site : Site) (f : OpFields) (s : State) (hs : MemoryWf s) : OutcomeWf (execRgreq site f s) :=
  .of_unlessSuppressed hs fun _ _ _ => by simp

theorem execLqpush_wf (site : Site) (f : OpFields) (s : State) (hs : MemoryWf s) : OutcomeWf (execLqpush site f s) :=
  .of_unlessSuppressed hs fun _ _ _ => by simp

theorem execRrpop_wf (site : Site) (f : OpFields) (s : State) (hs : MemoryWf s) : OutcomeWf (execRrpop site f s) :=
  .of_unlessSuppressed hs fun _ _ _ => by simp

@[simp] theorem State.sendDone_mem (s : State) (r : Req) : (s.sendDone r).mem = s.mem := by
  simp only [State.sendDone]
  split <;> simp

@[simp] theorem State.sendFail_mem (s : State) (r : Req) (code d0 : Nat) : (s.sendFail r code d0).mem = s.mem := by
  simp only [State.sendFail]
  split <;> simp

theorem execSendDelivery_wf (request : Nat) (s : State) (hs : MemoryWf s) :
    OutcomeWf (execSendDelivery request s) := by
  unfold execSendDelivery
  split
  · exact hs
  · rename_i r _
    split
    · rename_i p k t _
      have hfail := fun code d0 => State.wf_of_mem_eq hs (State.sendFail_mem s r code d0)
      extract_lets sameTo s1 q e c
      split
      · exact hs
      · split
        · split
          · exact hs
          · exact hfail _ _
          · split
            · exact State.wf_of_mem_eq hs ((State.sendDone_mem _ _).trans (State.sendWord_mem _ _ _))
            · exact State.wf_of_mem_eq hs ((State.sendFail_mem _ _ _ _).trans (State.sendWord_mem _ _ _))
        · split
          · exact hfail _ _
          · split
            · exact hs
            · split
              · split
                · exact hs
                · exact State.wf_of_mem_eq hs ((State.sendDone_mem _ _).trans (State.updDie_mem _ _ _))
              · split
                · exact hfail _ _
                · split
                  · exact hfail _ _
                  · split
                    · exact hs
                    · rename_i s1 h1
                      exact State.wf_of_mem_eq hs ((State.sendDone_mem _ _).trans (State.deliverH_mem h1))
    · exact hs

theorem State.weightWrite_wf {s : State} {k wbase : Nat} {w : GrantWrite} (hs : MemoryWf s) {s'}
    (hr : s.weightWrite k wbase w = .ok s') : MemoryWf s' := by
  have ht := State.translate_mem s k w.asid w.root ((wbase + 8 * w.slot) % 2 ^ 57) .store
  unfold State.weightWrite at hr
  extract_lets va at hr
  split at hr
  · rename_i pa s1 h1
    rw [h1] at ht
    have w1 := fun v => State.memWrite_wf s1 pa v 8 (State.wf_of_mem_eq hs ht)
    split at hr
    · cases hr
    · extract_lets x at hr
      split at hr
      · split at hr
        · cases hr
        · rw [Except.ok.injEq] at hr
          rw [← hr]
          exact State.wf_of_mem_eq (w1 _) ((State.portMove_mem _ _ _ _).trans (State.portMove_mem _ _ _ _))
      · rw [Except.ok.injEq] at hr
        rw [← hr]
        exact State.wf_of_mem_eq (w1 _) (State.portMove_mem _ _ _ _)
  · cases hr
  · cases hr

@[simp] theorem State.holdGrant_mem (s : State) (k n : Nat) (g : Grant) (w : GrantWrite) (e : Nat × Nat)
    (inst job : Option Nat) : (s.holdGrant k n g w e inst job).mem = s.mem := rfl

/-- The states a grant's decision leaves are canonical. -/
theorem State.decideGrant_wf {s : State} {k : Nat} {v : BitVec 64} {asid root id : Nat} {inst job : Option Nat} (hs : MemoryWf s) :
    (∀ {n s'}, s.decideGrant k v asid root id inst job = .reply n s' → MemoryWf s') ∧
    ∀ {s'}, s.decideGrant k v asid root id inst job = .wait s' → MemoryWf s' := by
  unfold State.decideGrant
  extract_lets t
  split
  · simp
  · split
    · simp
    · split
      · simpa using hs
      · split
        · simp
        · rename_i n g _
          split
          · simpa using hs
          · extract_lets e s1
            have h1 : MemoryWf s1 := State.wf_of_mem_eq hs rfl
            split
            · simpa using h1
            · split
              · rename_i s2 h2
                have h3 := State.weightWrite_wf h1 h2
                extract_lets m
                have hm : MemoryWf m.2 := by
                  simp only [m]
                  split
                  · exact State.meter_wf _ _ _ _ _ hs h3
                  · exact State.meterGuest_wf _ _ _ _ hs h3
                split <;> simpa using hm
              · simpa using State.wf_of_mem_eq h1 (State.holdGrant_mem _ _ _ _ _ _ _ _)

theorem execGrantRequest_wf (request : Nat) (answer : BitVec 32) (s : State) (hs : MemoryWf s) :
    OutcomeWf (execGrantRequest request answer s) := by
  unfold execGrantRequest
  split
  · split
    · exact hs
    · split
      · split
        · rename_i s1 h1
          exact State.wf_of_mem_eq ((State.decideGrant_wf hs).1 h1) (State.sendWord_mem _ _ _)
        · exact State.wf_of_mem_eq hs (State.sendWord_mem _ _ _)
        · rename_i s1 h1
          exact (State.decideGrant_wf hs).2 h1
      · exact hs
  · rename_i r _
    split
    · extract_lets sameHub s1 job
      split
      · exact hs
      · split
        · split
          · exact hs
          · exact State.wf_of_mem_eq hs (State.faultReq_mem _ _ _ _ _ _ _)
          · split
            · exact State.wf_of_mem_eq hs ((State.answer_mem _ _ _).trans (State.sendWord_mem _ _ _))
            · exact State.wf_of_mem_eq hs ((State.faultReq_mem _ _ _ _ _ _ _).trans (State.sendWord_mem _ _ _))
        · split
          · exact hs
          · split
            · rename_i s1 h1
              exact State.wf_of_mem_eq ((State.decideGrant_wf hs).1 h1) (State.answer_mem _ _ _)
            · exact State.wf_of_mem_eq hs (State.faultReq_mem _ _ _ _ _ _ _)
            · rename_i s1 h1
              exact (State.decideGrant_wf hs).2 h1
    · exact hs

theorem execTimetableRecordArrival_wf (request : Nat) (s : State) (hs : MemoryWf s) :
    OutcomeWf (execTimetableRecordArrival request s) := by
  simp only [execTimetableRecordArrival]
  (repeat' split) <;> simp [MemoryWf, hs, State.addRecord_wf]

end Sys2Proof.Machine
end

