-- ==== Sys2Proof/Proofs/RouterFrame.lean ====
section
/-! Memory after the router entries. -/

namespace Sys2Proof.Machine
open Sys2Proof

@[simp] theorem State.routeOut_mem (s : State) (cell : Nat) (o : Nat × Nat) (t : Token) (delay : Nat) (lane : Option (Nat × Nat)) :
    (s.routeOut cell o t delay lane).mem = s.mem := by
  simp only [State.routeOut]
  split <;> simp

@[simp] theorem State.inPop_mem (s : State) (cell : Nat) (i : Nat × Nat) : (s.inPop cell i).mem = s.mem := rfl

@[simp] theorem State.routeFault_mem (s : State) (i : Inst) (cell e code d0 d1 : Nat) :
    (s.routeFault i cell e code d0 d1).mem = s.mem := by
  simp [State.routeFault]

theorem State.routeStep_mem {s : State} {site : RouteSite} {reads : List (Nat × Nat)} {g : RouteState → RouteStep} {s'}
    (hr : s.routeStep site reads g = .next s') : s'.mem = s.mem := by
  simp only [State.routeStep] at hr
  (repeat' split at hr) <;> cases hr <;> simp

theorem execRoute_wf (site : RouteSite) (f : RouteFields) (s : State) (hs : MemoryWf s) :
    OutcomeWf (execRoute site f s) :=
  .of_mem hs State.routeStep_mem

theorem execFork_wf (site : RouteSite) (f : RouteFields) (s : State) (hs : MemoryWf s) :
    OutcomeWf (execFork site f s) :=
  .of_mem hs State.routeStep_mem

theorem execSteer_wf (site : RouteSite) (f : RouteFields) (s : State) (hs : MemoryWf s) :
    OutcomeWf (execSteer site f s) :=
  .of_mem hs State.routeStep_mem

theorem execMerge_wf (site : RouteSite) (f : RouteFields) (s : State) (hs : MemoryWf s) :
    OutcomeWf (execMerge site f s) := by
  unfold execMerge
  extract_lets hd chosen
  exact .of_mem hs State.routeStep_mem

theorem execCarry_wf (site : RouteSite) (f : RouteFields) (s : State) (hs : MemoryWf s) :
    OutcomeWf (execCarry site f s) := by
  unfold execCarry
  extract_lets hd loop reads
  exact .of_mem hs State.routeStep_mem

theorem execInvar_wf (site : RouteSite) (f : RouteFields) (s : State) (hs : MemoryWf s) :
    OutcomeWf (execInvar site f s) := by
  unfold execInvar
  extract_lets hd held
  exact .of_mem hs State.routeStep_mem

theorem execJoin_wf (site : RouteSite) (f : RouteFields) (s : State) (hs : MemoryWf s) :
    OutcomeWf (execJoin site f s) :=
  .of_mem hs State.routeStep_mem

theorem execDrop_wf (site : RouteSite) (f : RouteFields) (s : State) (hs : MemoryWf s) :
    OutcomeWf (execDrop site f s) :=
  .of_mem hs State.routeStep_mem

theorem execPart_wf (site : RouteSite) (f : RouteFields) (s : State) (hs : MemoryWf s) :
    OutcomeWf (execPart site f s) :=
  .of_mem hs State.routeStep_mem

theorem execComb_wf (site : RouteSite) (f : RouteFields) (s : State) (hs : MemoryWf s) :
    OutcomeWf (execComb site f s) := by
  unfold execComb
  extract_lets cell mode hd st0 poison tooBig
  split
  · exact hs
  · split
    · exact .of_mem hs State.routeStep_mem
    · exact hs
    · rename_i i _ _
      split
      · exact .of_mem hs State.routeStep_mem
      · extract_lets r rec0
        have hr : OutcomeWf r := .of_mem hs State.routeStep_mem
        clear_value r tooBig
        split
        · rename_i sum s1
          split
          · exact hr
          · exact State.pushClaimed_wf _ _ hr
        · exact hr

end Sys2Proof.Machine
end

