-- ==== Sys2Proof/Proofs/FabricFrame.lean ====
section
/-! Memory after translation, the hub and the memory requests. -/

namespace Sys2Proof.Machine
open Sys2Proof

@[simp] theorem State.parityFault_mem (s : State) (i : Inst) (cell port vc : Nat) (t : Token) :
    (s.parityFault i cell port vc t).mem = s.mem := by
  simp [State.parityFault]

@[simp] theorem State.parityOrphan_mem (s : State) (cell : Nat) (t : Token) :
    (s.parityOrphan cell t).1.mem = s.mem := rfl

@[simp] theorem State.moveService_mem (s : State) (cell port vc : Nat) :
    (s.moveService cell port vc).mem = s.mem := by
  simp only [State.moveService]
  split <;> simp

@[simp] theorem State.moveToken_mem (s : State) (cell port vc : Nat) : (s.moveToken cell port vc).mem = s.mem := by
  simp only [State.moveToken]
  (repeat' split) <;> simp

@[simp] theorem State.crossLink_mem (s : State) (cell port vc : Nat) : (s.crossLink cell port vc).mem = s.mem := by
  simp only [State.crossLink]
  (repeat' split) <;> simp

@[simp] theorem State.transitStep_mem (s : State) (cell port vc : Nat) :
    (s.transitStep cell port vc).mem = s.mem := by
  simp only [State.transitStep]
  (repeat' split) <;> simp

theorem execTokenHop_wf (cell port vc : Nat) (s : State) (hs : MemoryWf s) :
    OutcomeWf (execTokenHop cell port vc s) := by
  simp only [execTokenHop]
  (repeat' split) <;> simp [MemoryWf, hs]

@[simp] theorem State.memReqFaultAt_mem (s : State) (r : Req) (at_ code wlvl : Nat) :
    (s.memReqFaultAt r at_ code wlvl).mem = s.mem := by
  simp [State.memReqFaultAt]

@[simp] theorem State.memReqFault_mem (s : State) (r : Req) (code wlvl : Nat) :
    (s.memReqFault r code wlvl).mem = s.mem := by
  simp [State.memReqFault]

@[simp] theorem State.farFault_mem (s : State) (r : Req) : (s.farFault r).mem = s.mem := by
  simp only [State.farFault]
  (repeat' split) <;> simp

@[simp] theorem State.landResult_mem (s : State) (r : Req) (d : ResDst) : (s.landResult r d).mem = s.mem := rfl

theorem execDecoupledResultDelivery_wf (request : Nat) (s : State) (hs : MemoryWf s) :
    OutcomeWf (execDecoupledResultDelivery request s) := by
  simp only [execDecoupledResultDelivery]
  (repeat' split) <;> simp [MemoryWf, hs]

@[simp] theorem State.performRemote_mem (s : State) (r : Req) (cell off : Nat) :
    (s.performRemote r cell off).mem = s.mem := by
  simp only [State.performRemote]
  (repeat' split) <;> simp
  all_goals exact State.syncOp_mem (by assumption)

theorem State.unsubscribe_wf (s : State) (r : Req) (mirror : Nat) (hs : MemoryWf s) :
    MemoryWf (s.unsubscribe r mirror) := by
  simp only [State.unsubscribe]
  (repeat' split) <;> simp [MemoryWf, hs, State.freeSlot_wf]

theorem execRemoteRequest_wf (request : Nat) (answer : BitVec 64) (s : State) (hs : MemoryWf s) :
    OutcomeWf (execRemoteRequest request answer s) := by
  unfold execRemoteRequest
  split
  · exact hs
  · rename_i r _
    have hfault := fun code d0 => State.wf_of_mem_eq hs (State.faultReq_mem s r code 0 0 d0 0)
    have hmem := fun code => State.wf_of_mem_eq hs (State.memReqFault_mem s r code 7)
    have hmemAt := fun cell code => State.wf_of_mem_eq hs (State.memReqFaultAt_mem s r cell code 7)
    refine .ite hs ?_
    split
    · rename_i m _
      extract_lets pkg
      split
      · show MemoryWf (if s.meshReached r then s.unsubscribe r m else s)
        split
        · exact State.unsubscribe_wf _ _ _ hs
        · exact hs
      · split
        · exact hs
        · exact hfault _ _
        · exact .ite hs (State.unsubscribe_wf _ _ _ (State.wf_of_mem_eq hs (State.sendWord_mem _ _ _)))
    · refine .ite hs ?_
      extract_lets cell off sameTarget s1 g
      refine .ite hs (.ite (.ite (hmem _) ?_) (.ite (hmem _) (.ite hs (.ite (hmemAt _ _) (.ite hs ?_)))))
      · split
        · exact hs
        · exact hfault _ _
        · exact .ite (State.wf_of_mem_eq hs ((State.answer_mem _ _ _).trans (State.sendWord_mem _ _ _)))
            (State.wf_of_mem_eq hs ((State.farFault_mem _ _).trans (State.sendWord_mem _ _ _)))
      · split
        · exact hmemAt _ _
        · refine .ite (hmemAt _ _) (.ite (hmemAt _ _) ?_)
          have hg : MemoryWf g.2 := by
            simp only [g]
            split
            · exact hs
            · exact State.wf_of_mem_eq hs (State.askBank_mem _ _ _ _ _ _ _)
          clear_value g
          show MemoryWf (if g.1 then g.2.performRemote r cell off else g.2)
          split
          · exact State.wf_of_mem_eq hg (State.performRemote_mem _ _ _ _)
          · exact hg

@[simp] theorem State.translated_mem (s : State) (r : Req) (pa lg ns : Nat) :
    (s.translated r pa lg ns).mem = s.mem := by
  simp only [State.translated]
  split <;> simp

@[simp] theorem State.xlatFault_mem (s : State) (r : Req) (code wlvl : Nat) :
    (s.xlatFault r code wlvl).mem = s.mem := by
  simp only [State.xlatFault]
  (repeat' split) <;> simp

@[simp] theorem State.xlatReq_mem (s : State) (r : Req) : (s.xlatReq r).mem = s.mem := by
  grind [State.xlatReq, State.translate_mem, State.translated_mem, State.xlatFault_mem, State.updReq_mem]

@[simp] theorem State.reachHub_mem (s : State) (r : Req) : (s.reachHub r).mem = s.mem := rfl

theorem execPageWalk_wf (request : Nat) (s : State) (hs : MemoryWf s) : OutcomeWf (execPageWalk request s) := by
  simp only [execPageWalk]
  (repeat' split) <;> simp [MemoryWf, hs]

theorem State.performGlobal_wf (s0 : State) (r : Req) (pa : Nat) (hs : MemoryWf s0) :
    MemoryWf (s0.performGlobal r pa) := by
  simp only [State.performGlobal]
  (repeat' split) <;> simp [MemoryWf, hs, State.cellWrite_wf]

theorem State.atPort_wf (s : State) (r : Req) (pa : Nat) (hs : MemoryWf s) : MemoryWf (s.atPort r pa) := by
  simp only [State.atPort]
  (repeat' split) <;> simp [MemoryWf, hs, State.performGlobal_wf]

theorem execHbmRequest_wf (request : Nat) (s : State) (hs : MemoryWf s) : OutcomeWf (execHbmRequest request s) := by
  simp only [execHbmRequest]
  (repeat' split) <;> simp [MemoryWf, hs, State.atPort_wf]

theorem execResponseTimeout_wf (request : Nat) (s : State) (hs : MemoryWf s) :
    OutcomeWf (execResponseTimeout request s) := by
  simp only [execResponseTimeout]
  (repeat' split) <;> simp [MemoryWf, hs]

theorem execFenceComplete_wf (request : Nat) (s : State) (hs : MemoryWf s) :
    OutcomeWf (execFenceComplete request s) := by
  simp only [execFenceComplete]
  (repeat' split) <;> simp [MemoryWf, hs]

@[simp] theorem State.writeXlinv_mem (s : State) (d asid : Nat) (granule : Option Nat) :
    (s.writeXlinv d asid granule).mem = s.mem := rfl

theorem State.hostXlinv_mem {s : State} {i : Instr} {asid : Nat} {granule : Option Nat} {s'}
    (hr : s.hostXlinv i asid granule = .next s') : s'.mem = s.mem := by
  grind [State.hostXlinv, State.defer_mem, State.writeXlinv_mem]

theorem execInvalidationComplete_wf (die : Nat) (s : State) (hs : MemoryWf s) :
    OutcomeWf (execInvalidationComplete die s) := by
  simp only [execInvalidationComplete]
  split <;> simp [MemoryWf, hs]

theorem execTokenCountTrigger_wf (cell : Nat) (s : State) (hs : MemoryWf s) :
    OutcomeWf (execTokenCountTrigger cell s) := by
  simp only [execTokenCountTrigger]
  (repeat' split) <;> simp [MemoryWf, hs]

theorem execPhaseAdvance_wf (site : Site) (s : State) (hs : MemoryWf s) : OutcomeWf (execPhaseAdvance site s) := by
  simp only [execPhaseAdvance]
  split <;> simp [MemoryWf, hs]

theorem execReductionTimeout_wf (site : RouteSite) (s : State) (hs : MemoryWf s) :
    OutcomeWf (execReductionTimeout site s) := by
  simp only [execReductionTimeout]
  (repeat' split) <;> simp [MemoryWf, hs, State.pushClaimed_wf]

end Sys2Proof.Machine
end

