-- ==== Sys2Proof/Proofs/MatrixFrame.lean ====
section
/-! Memory after matrix products, the accumulators and reissued requests. -/

namespace Sys2Proof.Machine
open Sys2Proof

@[simp] theorem State.updProduct_mem (s : State) (id : Nat) (f : Product → Product) :
    (s.updProduct id f).mem = s.mem := rfl

theorem State.doReads_mem {s : State} {p : Product} {cyc : Nat} {todo left : List EdgeRead} {s' v'}
    (hr : s.doReads p cyc todo left = .ok (s', v')) : s'.mem = s.mem := by
  induction todo generalizing s p left with
  | nil =>
    cases hr
    rfl
  | cons r todo ih =>
    simp only [State.doReads] at hr
    split at hr
    · simpa using ih hr
    · split at hr
      · cases hr
      · simpa using ih hr

theorem State.waveCell_mem {s : State} {i : Inst} {p : Product} {t c : Nat} {s'} (hr : s.waveCell i p t c = .ok s') :
    s'.mem = s.mem := by
  grind [State.waveCell, State.updCell_mem]

theorem State.wave_mem {s : State} {i : Inst} {p : Product} {t : Nat} {l : List Nat} {s'} (hr : s.wave i p t l = .ok s') :
    s'.mem = s.mem := by
  induction l generalizing s with
  | nil => grind [State.wave]
  | cons c l ih => grind [State.wave, State.waveCell_mem]

@[simp] theorem State.productFault_mem (s : State) (i : Inst) (p : Product) (e : WaveFault) :
    (s.productFault i p e).mem = s.mem := by
  simp only [State.productFault]
  split <;> simp

@[simp] theorem State.stallArray_mem (s : State) (inst cyc n : Nat) : (s.stallArray inst cyc n).mem = s.mem := by
  simp only [State.stallArray]
  split <;> simp

@[simp] theorem State.endTick_mem (s : State) (i : Inst) (p : Product) : (s.endTick i p).mem = s.mem := by
  grind [State.endTick, State.wave_mem, State.productFault_mem, State.updProduct_mem, State.stallArray_mem]

@[simp] theorem State.doTick_mem (s : State) (i : Inst) (p : Product) : (s.doTick i p).mem = s.mem := by
  grind [State.doTick, State.doReads_mem, State.productFault_mem, State.endTick_mem, State.stallArray_mem,
      State.updProduct_mem]

@[simp] theorem State.startProducts_mem (s : State) : (s.startProducts).mem = s.mem := by
  simp only [State.startProducts]
  split <;> simp

@[simp] theorem State.settleTicks_mem (s : State) (n : Nat) : (s.settleTicks n).mem = s.mem := by
  induction n generalizing s with
  | zero => rfl
  | succ n ih =>
    simp only [State.settleTicks]
    split
    · simp
    · rw [ih, State.doTick_mem, State.foldl_mem]
      · simp
      · rintro a c _ rfl
        split <;> simp

@[simp] theorem State.settleAll_mem (s : State) : (s.settleAll).mem = s.mem := by
  simp only [State.settleAll]
  split <;> simp

@[simp] theorem State.advanceAll_mem (s : State) (cs : List Nat) (hn k : Nat) :
    (s.advanceAll cs hn k).mem = s.mem := by
  simp only [State.advanceAll]
  split <;> simp

@[simp] theorem State.startProduct_mem (s : State) (F : Firing) (opc : Nat) : (s.startProduct F opc).mem = s.mem := by
  simp only [State.startProduct]
  split <;> simp

@[simp] theorem State.noProduct_mem (s : State) (F : Firing) (opc : Nat) : (s.noProduct F opc).mem = s.mem := by
  simp only [State.noProduct]
  split <;> simp

theorem State.fireMatrix_mem {s : State} {opc : Nat} {site : Site} {f : OpFields} {s'}
    (hr : s.fireMatrix opc site f = .next s') : s'.mem = s.mem := by
  grind [State.fireMatrix, State.fire_mem, State.begin_mem, State.noProduct_mem, State.startProduct_mem]

@[simp] theorem State.completion_mem (s : State) (F : Firing) (lat : Nat) : (s.completion F lat).mem = s.mem := by
  simp only [State.completion]
  split <;> simp

theorem execAccz_wf (site : Site) (f : OpFields) (s : State) (hs : MemoryWf s) : OutcomeWf (execAccz site f s) :=
  .of_unlessSuppressed hs fun _ _ _ => by simp

theorem execAccrd_wf (site : Site) (f : OpFields) (s : State) (hs : MemoryWf s) : OutcomeWf (execAccrd site f s) :=
  .of_unlessSuppressed hs fun _ _ _ => by simp

@[simp] theorem State.accFlights_mem (s : State) (F : Firing) (h : Handle) (d : ResDst) :
    (s.accFlights F h d).mem = s.mem := by
  simp [State.accFlights]

theorem execAccst_wf (site : Site) (f : OpFields) (s : State) (hs : MemoryWf s) : OutcomeWf (execAccst site f s) :=
  .of_unlessSuppressed hs fun _ _ _ => by simp

theorem execAccld_wf (site : Site) (f : OpFields) (s : State) (hs : MemoryWf s) : OutcomeWf (execAccld site f s) :=
  .of_unlessSuppressed hs fun _ _ _ => by simp

theorem State.redOverflow_wf (s : State) (F : Firing) (d0 : BitVec 64) (hs : MemoryWf s) :
    MemoryWf (s.redOverflow F d0) := by
  simp [MemoryWf, State.redOverflow, hs, State.pushClaimed_wf]

theorem execRedp_wf (site : Site) (f : OpFields) (s : State) (hs : MemoryWf s) : OutcomeWf (execRedp site f s) := by
  unfold execRedp
  extract_lets exact_
  refine .of_wf fun hr => State.fire_wf ?_ hs hr
  intro a F ha
  have hb : MemoryWf (a.begin F) := State.wf_of_mem_eq ha (State.begin_mem _ _)
  have hres : ∀ k v fl lat, MemoryWf ((a.begin F).result F k v fl lat) := fun k v fl lat =>
    State.wf_of_mem_eq hb (State.result_mem _ _ _ _ _ _)
  have hres2 : ∀ k v fl lat k' v' fl' lat', MemoryWf (((a.begin F).result F k v fl lat).result F k' v' fl' lat') :=
    fun k v fl lat k' v' fl' lat' => State.wf_of_mem_eq (hres k v fl lat) (State.result_mem _ _ _ _ _ _)
  dsimp only
  split
  · exact hres _ _ _ _
  · split
    · exact hres2 _ _ _ _ _ _ _ _
    · exact hres _ _ _ _
  · split
    · split
      · exact hres2 _ _ _ _ _ _ _ _
      · exact State.wf_of_mem_eq (State.redOverflow_wf _ _ _ hb) ((State.result_mem _ _ _ _ _ _).trans (State.result_mem _ _ _ _ _ _))
    · split
      · exact hres _ _ _ _
      · exact hres _ _ _ _

theorem execRedw_wf (site : Site) (f : OpFields) (s : State) (hs : MemoryWf s) : OutcomeWf (execRedw site f s) := by
  unfold execRedw
  extract_lets exact_
  refine .of_wf fun hr => State.fire_wf ?_ hs hr
  intro a F ha
  have hb : MemoryWf (a.begin F) := State.wf_of_mem_eq ha (State.begin_mem _ _)
  have hput : ∀ g, MemoryWf ((a.begin F).updCell F.cell g) := fun g => State.wf_of_mem_eq hb (State.updCell_mem _ _ _)
  have hres : ∀ {x : State} {k v fl lat}, MemoryWf x → MemoryWf (x.result F k v fl lat) :=
    fun hx => State.wf_of_mem_eq hx (State.result_mem _ _ _ _ _ _)
  dsimp only
  split
  · exact hres (hput _)
  · split
    · split
      · exact hres (hput _)
      · exact hput _
    · exact hres hb
  · split
    · split
      · split
        · exact hres (hput _)
        · exact hres (hput _)
      · exact hput _
    · exact hres hb

@[simp] theorem State.slewOnce_mem (s : State) (k b : Nat) : (s.slewOnce k b).mem = s.mem := rfl

theorem execSlewStep_wf (sector : Nat) (s : State) (hs : MemoryWf s) : OutcomeWf (execSlewStep sector s) := by
  simp only [execSlewStep]
  split <;> simp [MemoryWf, hs]

theorem execMatrixProductComplete_wf (product : Nat) (s : State) (hs : MemoryWf s) :
    OutcomeWf (execMatrixProductComplete product s) := by
  simp only [execMatrixProductComplete]
  (repeat' split) <;> simp [MemoryWf, hs]

@[simp] theorem State.reissue_mem (s : State) (id : Nat) : (s.reissue id).mem = s.mem := by
  grind [State.reissue, State.updReq_mem, State.answer_mem, State.serveRouting_mem, State.syncOp_mem,
      State.faultReq_mem]

theorem State.heldFiring_mem {s : State} {cell slot : Nat} {v' s'} (hr : s.heldFiring cell slot = some (v', s')) :
    s'.mem = s.mem := by
  unfold State.heldFiring at hr
  split at hr
  · extract_lets nd f srcs src toks cons vals kind s1 s2 moved at hr
    have h1 : s1.mem = s.mem := by
      apply State.foldl_mem
      rintro a x _ rfl
      split <;> simp
    have h2 : s2.mem = s1.mem := by
      simp only [s2]
      (repeat' split) <;> simp
    have hm : moved.2.mem = s2.mem := by
      simp only [moved]
      split <;> simp
    simp only [Option.some.injEq, Prod.mk.injEq] at hr
    rw [← hr.2, hm, h2, h1]
  · cases hr

@[simp] theorem State.substFiring_mem (s : State) (cell slot : Nat) (v : Word) :
    (s.substFiring cell slot v).mem = s.mem := by
  grind [State.substFiring, State.heldFiring_mem, State.result_mem, State.begin_mem]

@[simp] theorem State.consumeFiring_mem (s : State) (cell slot : Nat) : (s.consumeFiring cell slot).mem = s.mem := by
  grind [State.consumeFiring, State.heldFiring_mem, State.begin_mem]

@[simp] theorem State.substProduct_mem (s : State) (p : Product) (v : Word) : (s.substProduct p v).mem = s.mem := by
  simp only [State.substProduct]
  split <;> simp

end Sys2Proof.Machine
end

