-- ==== Sys2Proof/Proofs/LoaderFrame.lean ====
section
/-! Memory after the loader and the configuration streams. -/

namespace Sys2Proof.Machine
open Sys2Proof

@[simp] theorem State.updLoader_mem (s : State) (k : Nat) (f : Loader → Loader) : (s.updLoader k f).mem = s.mem := rfl

@[simp] theorem State.loaderBusy_mem (s : State) (k n : Nat) : (s.loaderBusy k n).mem = s.mem := rfl

@[simp] theorem State.loaderWaits_mem (s : State) (k : Nat) (src : LoadSource) (begin_ : Bool) :
    (s.loaderWaits k src begin_).mem = s.mem := by
  simp only [State.loaderWaits]
  split <;> simp

@[simp] theorem State.streamFault_mem (s : State) (k : Nat) (src : LoadSource) (code cell bank field word : Nat) :
    (s.streamFault k src code cell bank field word).state.mem = s.mem := by
  simp only [State.streamFault]
  split <;> simp

@[simp] theorem State.controlFault_mem (s : State) (k : Nat) (src : LoadSource) (code field value : Nat) :
    (s.controlFault k src code field value).state.mem = s.mem := by
  simp [State.controlFault]

theorem State.discards_mem {s : State} {k : Nat} {src : LoadSource} {isBegin isSeal isSwap : Bool} {o s'}
    (hr : s.discards k src isBegin isSeal isSwap = (o, s')) : s'.mem = s.mem := by
  simp only [State.discards] at hr
  (repeat' split at hr) <;> cases hr <;> simp

theorem State.discards_state_mem {s : State} {k : Nat} {src : LoadSource} {isBegin isSeal isSwap : Bool} {a s'}
    (hr : s.discards k src isBegin isSeal isSwap = (some a, s')) : a.state.mem = s.mem := by
  simp only [State.discards] at hr
  (repeat' split at hr) <;> cases hr <;> simp

@[simp] theorem State.notSwap_mem (s : State) (k : Nat) (src : LoadSource) : (s.notSwap k src).mem = s.mem := rfl

@[simp] theorem State.cfgNop_mem (s : State) (k : Nat) (src : LoadSource) (value : Nat) :
    (s.cfgNop k src value).state.mem = s.mem := by
  simp only [State.cfgNop]
  split
  · rename_i a s1 h1
    exact (State.discards_state_mem h1).trans (State.notSwap_mem _ _ _)
  · rename_i s1 h1
    have h : s1.mem = s.mem := (State.discards_mem h1).trans (State.notSwap_mem _ _ _)
    (repeat' split) <;> simp [h]

@[simp] theorem State.cfgBegin_mem (s : State) (k : Nat) (src : LoadSource) (value : Nat) :
    (s.cfgBegin k src value).state.mem = s.mem := by
  simp only [State.cfgBegin]
  split
  · rename_i a s1 h1
    exact (State.discards_state_mem h1).trans (State.notSwap_mem _ _ _)
  · rename_i s1 h1
    have h : s1.mem = s.mem := (State.discards_mem h1).trans (State.notSwap_mem _ _ _)
    (repeat' split) <;> simp [h]

@[simp] theorem State.cfgOrigin_mem (s : State) (k : Nat) (src : LoadSource) (value : Nat) :
    (s.cfgOrigin k src value).state.mem = s.mem := by
  simp only [State.cfgOrigin]
  split
  · rename_i a s1 h1
    exact (State.discards_state_mem h1).trans (State.notSwap_mem _ _ _)
  · rename_i s1 h1
    have h : s1.mem = s.mem := (State.discards_mem h1).trans (State.notSwap_mem _ _ _)
    (repeat' split) <;> simp [h]

@[simp] theorem State.cfgBank_mem (s : State) (k : Nat) (src : LoadSource) (value : Nat) :
    (s.cfgBank k src value).state.mem = s.mem := by
  simp only [State.cfgBank]
  split
  · rename_i a s1 h1
    exact (State.discards_state_mem h1).trans (State.notSwap_mem _ _ _)
  · rename_i s1 h1
    have h : s1.mem = s.mem := (State.discards_mem h1).trans (State.notSwap_mem _ _ _)
    (repeat' split) <;> simp [h]

@[simp] theorem State.cfgLit_mem (s : State) (k : Nat) (src : LoadSource) (value : Nat) :
    (s.cfgLit k src value).state.mem = s.mem := by
  simp only [State.cfgLit]
  split
  · rename_i a s1 h1
    exact (State.updLoader_mem _ _ _).trans ((State.discards_state_mem h1).trans (State.notSwap_mem _ _ _))
  · rename_i s1 h1
    have h : s1.mem = s.mem := (State.discards_mem h1).trans (State.notSwap_mem _ _ _)
    (repeat' split) <;> simp [h]

@[simp] theorem State.cfgWrite_mem (s : State) (k : Nat) (src : LoadSource) (lit : Bool) (cell field value : Nat) :
    (s.cfgWrite k src lit cell field value).state.mem = s.mem := by
  simp only [State.cfgWrite]
  split
  · rename_i a s1 h1
    exact (State.discards_state_mem h1).trans ((State.updLoader_mem _ _ _).trans (State.notSwap_mem _ _ _))
  · rename_i s1 h1
    have h : s1.mem = s.mem := (State.discards_mem h1).trans ((State.updLoader_mem _ _ _).trans (State.notSwap_mem _ _ _))
    (repeat' split) <;> simp [h]

@[simp] theorem State.cfgSeal_mem (s : State) (k : Nat) (src : LoadSource) (value : Nat) :
    (s.cfgSeal k src value).state.mem = s.mem := by
  simp only [State.cfgSeal]
  split
  · rename_i a s1 h1
    exact (State.discards_state_mem h1).trans (State.notSwap_mem _ _ _)
  · rename_i s1 h1
    have h : s1.mem = s.mem := (State.discards_mem h1).trans (State.notSwap_mem _ _ _)
    (repeat' split) <;> simp [h]

@[simp] theorem State.cfgSwap_mem (s : State) (k : Nat) (src : LoadSource) (value : Nat) :
    (s.cfgSwap k src value).state.mem = s.mem := by
  simp only [State.cfgSwap]
  split
  · rename_i a s1 h1
    exact State.discards_state_mem h1
  · rename_i s1 h1
    have h : s1.mem = s.mem := State.discards_mem h1
    (repeat' split) <;> simp [h]

@[simp] theorem State.cfgReserved_mem (s : State) (k : Nat) (src : LoadSource) (field value : Nat) :
    (s.cfgReserved k src field value).state.mem = s.mem := by
  simp only [State.cfgReserved]
  split
  · rename_i a s1 h1
    exact (State.discards_state_mem h1).trans (State.notSwap_mem _ _ _)
  · rename_i s1 h1
    have h : s1.mem = s.mem := (State.discards_mem h1).trans (State.notSwap_mem _ _ _)
    (repeat' split) <;> simp [h]

@[simp] theorem State.loaderStep_mem (s : State) (k : Nat) (src : LoadSource) (cell field value : Nat) :
    (s.loaderStep k src cell field value).state.mem = s.mem := by
  simp only [State.loaderStep]
  (repeat' split) <;> simp

/-- A loading step that answers with a state leaves the memory. -/
def LoadKeeps (s : State) (r : LoadRes) : Prop := ∀ s', r = .ok s' → s'.mem = s.mem

abbrev LoadBelow := List.below (α := Nat) (motive := fun _ => State → LoadRes)

/-- The recursive calls a structural recursion over a list may make keep the memory. -/
def BelowKeeps : (l : List Nat) → LoadBelow l → Prop
  | [], _ => True
  | _ :: _, b => ∀ s, LoadKeeps s (b.1 s)

theorem brecOn_keeps {F : (l : List Nat) → LoadBelow l → State → LoadRes}
    (hF : ∀ l b, BelowKeeps l b → ∀ s, LoadKeeps s (F l b s)) (l : List Nat) (s : State) : LoadKeeps s (List.brecOn l F s) := by
  induction l generalizing s with
  | nil => exact hF [] _ trivial s
  | cons c l ih => exact hF (c :: l) _ ih s

/-- The recursion is taken apart at `List.brecOn`: the anchors are a filter of a literal range, and the kernel would evaluate it to
compare the function with its equation. -/
theorem State.rewriteAnchors_mem {s : State} {placing : Bool} {j : Job} {cs : List Nat} {s'}
    (hr : s.rewriteAnchors placing j cs = .ok s') : s'.mem = s.mem := by
  delta State.rewriteAnchors at hr
  refine brecOn_keeps ?_ cs s s' hr
  intro l b hb s
  delta State.rewriteAnchors._f
  cases l with
  | nil =>
    rintro s' ⟨⟩
    rfl
  | cons c l =>
    conv =>
      arg 2
      fun
      whnf
    intro s'
    extract_lets p go
    generalize go = g
    intro hr
    obtain ⟨_ | q, _ | _⟩ := g <;> simp only [reduceCtorEq] at hr
    all_goals
      rw [hb _ _ hr]
      split <;> simp

@[simp] theorem State.cutTimetable_mem (s : State) (i : Inst) : (s.cutTimetable i).mem = s.mem := by
  simp [State.cutTimetable]

@[simp] theorem State.findAnchors_mem (s : State) (d : Nat) : (s.findAnchors d).mem = s.mem := by
  simp only [State.findAnchors]
  split <;> simp

@[simp] theorem State.flipRect_mem (s : State) (k x0 y0 w h : Nat) : (s.flipRect k x0 y0 w h).mem = s.mem := by
  simp [State.flipRect]

@[simp] theorem State.flipInst_mem (s : State) (i : Inst) : (s.flipInst i).mem = s.mem := by
  simp [State.flipInst]

@[simp] theorem State.placeFault_mem (s : State) (i : Inst) (code slot : Nat) (cell : Option Nat) (opw : BitVec 64)
    (d0 d1 : Nat) : (s.placeFault i code slot cell opw d0 d1).mem = s.mem := rfl

@[simp] theorem State.streamFail_mem (s : State) (i : Inst) (f : SealFail) (va : Nat) :
    (s.streamFail i f va).mem = s.mem := rfl

@[simp] theorem State.startLoad_mem (s : State) (k : Nat) (t : TtLoad) : (s.startLoad k t).mem = s.mem := rfl

theorem State.preload_mem {s : State} {i : Inst} {s'} (hr : s.preload i = some s') : s'.mem = s.mem := by
  grind [State.preload, State.updInst_mem, State.startLoad_mem]

theorem State.loadStep_mem {s : State} {i : Inst} {s'} (hr : s.loadStep i = some s') : s'.mem = s.mem := by
  simp only [State.loadStep] at hr
  (repeat' split at hr) <;> cases hr <;> simp

@[simp] theorem State.ttStop_mem (s : State) (i : Inst) : (s.ttStop i).mem = s.mem := by
  simp [State.ttStop]

@[simp] theorem State.beforeSeal_mem (s : State) (k : Nat) (t : TtLoad) (i : Inst) (j : Job) :
    (s.beforeSeal k t i j).1.mem = s.mem := by
  simp only [State.beforeSeal]
  split
  · rename_i s1 h
    exact (State.updLoader_mem _ _ _).trans (State.rewriteAnchors_mem h)
  · simp
  · simp

@[simp] theorem LoadAnswer.sent_mem (a : LoadAnswer) (k : Nat) (src : LoadSource) :
    (a.sent k src).mem = a.state.mem := by
  simp only [LoadAnswer.sent]
  (repeat' split) <;> simp

theorem State.runControl_mem {s : State} {k : Nat} {src : LoadSource} {field value : Nat} {f : State → LoadAnswer}
    (hf : (f s).state.mem = s.mem) {s'} (hr : s.runControl k src field value f = .next s') : s'.mem = s.mem := by
  simp only [State.runControl] at hr
  (repeat' split at hr) <;> cases hr <;> simp [hf]

theorem execCfgNop_wf (sector : Fin 64) (source : LoadSource) (value : BitVec 16) (s : State) (hs : MemoryWf s) :
    OutcomeWf (execCfgNop sector source value s) :=
  .of_mem hs (State.runControl_mem (by simp))

theorem execCfgBegin_wf (sector : Fin 64) (source : LoadSource) (value : BitVec 16) (s : State) (hs : MemoryWf s) :
    OutcomeWf (execCfgBegin sector source value s) :=
  .of_mem hs (State.runControl_mem (by simp))

theorem execCfgOrigin_wf (sector : Fin 64) (source : LoadSource) (value : BitVec 16) (s : State) (hs : MemoryWf s) :
    OutcomeWf (execCfgOrigin sector source value s) :=
  .of_mem hs (State.runControl_mem (by simp))

theorem execCfgBank_wf (sector : Fin 64) (source : LoadSource) (value : BitVec 16) (s : State) (hs : MemoryWf s) :
    OutcomeWf (execCfgBank sector source value s) :=
  .of_mem hs (State.runControl_mem (by simp))

theorem execCfgSeal_wf (sector : Fin 64) (source : LoadSource) (value : BitVec 16) (s : State) (hs : MemoryWf s) :
    OutcomeWf (execCfgSeal sector source value s) :=
  .of_mem hs (State.runControl_mem (by simp))

theorem execCfgLit_wf (sector : Fin 64) (source : LoadSource) (value : BitVec 16) (s : State) (hs : MemoryWf s) :
    OutcomeWf (execCfgLit sector source value s) :=
  .of_mem hs (State.runControl_mem (by simp))

theorem execCfgSwap_wf (sector : Fin 64) (source : LoadSource) (value : BitVec 16) (s : State) (hs : MemoryWf s) :
    OutcomeWf (execCfgSwap sector source value s) :=
  .of_mem hs (State.runControl_mem (by simp))

theorem execCfgWrite_wf (sector : Fin 64) (source : LoadSource) (cell field : BitVec 8) (value : BitVec 16)
    (s : State) (hs : MemoryWf s) : OutcomeWf (execCfgWrite sector source cell field value s) := by
  simp only [execCfgWrite]
  (repeat' split) <;> simp [MemoryWf, hs]

@[simp] theorem State.claim_mem (s : State) (hops : List (Nat × Nat × Nat × Nat × Nat)) :
    (s.claim hops).mem = s.mem := by
  simp [State.claim]

@[simp] theorem State.unclaim_mem (s : State) (ch : LaidChan) : (s.unclaim ch).mem = s.mem := by
  apply State.foldl_mem
  rintro a h _ rfl
  rfl

theorem State.layChan_mem {s trial : State} {key : Nat} {j : Job} {stages : List Inst} {gid : Nat} {c : Chan} {s'}
    (hr : s.layChan trial key j stages gid c = some s') : s'.mem = s.mem := by
  simp only [State.layChan] at hr
  split at hr
  · cases hr
    rfl
  · split at hr
    · split at hr <;> cases hr
      rfl
    · split at hr
      · obtain ⟨hops, _, rfl⟩ := Option.map_eq_some_iff.mp hr
        simp
      · cases hr
        rfl

theorem State.layAll_mem {s trial : State} {key : Nat} {j : Job} {stages : List Inst} {gid : Nat} {l : List Chan} {s'}
    (hr : s.layAll trial key j stages gid l = some s') : s'.mem = s.mem := by
  induction l generalizing s with
  | nil => grind [State.layAll]
  | cons c l ih => grind [State.layAll, State.layChan_mem]

end Sys2Proof.Machine
end

