-- ==== Sys2Proof/Proofs/PlacementFrame.lean ====
section
/-! Memory after saved contexts, placement and swaps. -/

namespace Sys2Proof.Machine
open Sys2Proof

@[simp] theorem State.tidyFrames_mem (s : State) (d : Nat) : (s.tidyFrames d).mem = s.mem := by
  simp only [State.tidyFrames]
  split <;> simp

@[simp] theorem State.saveRecord_mem (s : State) (i : Inst) (idx : Nat) (v : Save) (k : Nat) :
    (s.saveRecord i idx v k).mem = s.mem := by
  simp only [State.saveRecord]
  (repeat' split) <;> simp

theorem State.saveInst_wf (s : State) (i : Inst) (j : Job) (r : PoolRec) (idx : Nat) (hs : MemoryWf s) :
    MemoryWf (s.saveInst i j r idx) := by
  simp only [State.saveInst]
  (repeat' split) <;> simp [MemoryWf, hs, State.memPutList_wf]

@[simp] theorem State.factEnd_mem (s : State) (d hid res : Nat) : (s.factEnd d hid res).mem = s.mem := rfl

theorem State.saveGridPoint_wf (s : State) (stages : List Inst) (j : Job) (r : PoolRec) (hs : MemoryWf s) :
    MemoryWf (s.saveGridPoint stages j r) := by
  unfold State.saveGridPoint
  extract_lets s1 gid s2
  refine State.wf_of_mem_eq (s := s1) ?_ rfl
  refine State.foldl_wf _ _ _ hs ?_
  rintro a i _ rfl ha
  extract_lets free d b
  have hb : MemoryWf b := State.saveInst_wf _ _ _ _ _ (State.wf_of_mem_eq ha rfl)
  split
  · split
    · exact State.wf_of_mem_eq hb (State.factEnd_mem _ _ _ _)
    · exact hb
  · exact hb

@[simp] theorem State.restoreCell_mem (s : State) (c pa at_ : Nat) (cov : List (Nat × Nat × Nat)) (bad : List Nat)
    (swapped : Bool) : (s.restoreCell c pa at_ cov bad swapped).mem = s.mem := by
  simp only [State.restoreCell]
  split <;> simp

@[simp] theorem State.readdReq_mem (s : State) (f : Frame) (i : Inst) (r : Req) :
    (s.readdReq f i r).2.mem = s.mem := rfl

@[simp] theorem State.putBackSave_mem (s : State) (f : Frame) (i : Inst) (v : Save) :
    (s.putBackSave f i v).mem = s.mem := by
  simp only [State.putBackSave]
  split <;> simp

@[simp] theorem State.resumeSave_mem (s : State) (f : Frame) (i : Inst) (v : Save) :
    (s.resumeSave f i v).mem = s.mem := by
  simp only [State.resumeSave]
  (repeat' split) <;> simp

@[simp] theorem State.endRestore_mem (s : State) (i : Inst) : (s.endRestore i).mem = s.mem := rfl

@[simp] theorem State.holdSaved_mem (s : State) (i : Inst) : (s.holdSaved i).mem = s.mem := rfl

@[simp] theorem State.continueRestore_mem (s : State) (i : Inst) (f : Frame) :
    (s.continueRestore i f).mem = s.mem := by
  unfold State.continueRestore
  extract_lets pa swapped rect s1 slateAt s2 s3 s4 s5
  have hrect : rect.1.mem = s.mem := by
    apply State.foldl_fst_mem
    rintro a c _ rfl
    exact State.restoreCell_mem _ _ _ _ _ _ _
  clear_value rect swapped
  have h1 : s1.mem = rect.1.mem := by
    simp only [s1]
    split
    · rfl
    · exact State.foldl_mem _ _ _ fun _ _ _ hb => hb ▸ rfl
  have h2 : s2.mem = s1.mem := by
    simp only [s2]
    split
    · apply State.foldl_mem
      rintro a k _ rfl
      split <;> rfl
    · rfl
  clear_value s2
  have h3 : s3.mem = s2.mem := rfl
  clear_value s3
  have h4 : s4.mem = s3.mem := State.foldl_mem _ _ _ fun a v _ hb => hb ▸ State.putBackSave_mem a f i v
  have h5 : s5.mem = s4.mem := by
    apply State.foldl_mem
    rintro a v _ rfl
    split
    · rfl
    · exact State.resumeSave_mem a f i v
  have h : s5.mem = s.mem := h5.trans (h4.trans (h3.trans (h2.trans (h1.trans hrect))))
  split
  · exact (State.holdSaved_mem _ _).trans h
  · exact (State.endRestore_mem _ _).trans h

@[simp] theorem State.newInst_mem (s : State) (j : Job) (r : PoolRec) (gid stage : Nat) (rect : Rect)
    (f : Option Frame) : (s.newInst j r gid stage rect f).2.mem = s.mem := by
  simp only [State.newInst]
  split <;> simp

@[simp] theorem State.preloadOperands_mem (s : State) (k : Nat) (j : Job) (n : BitVec 512) :
    (s.preloadOperands k j n).mem = s.mem := by
  simp [State.preloadOperands]

/-- What placing a grid point leaves, if it places or fails one, has the memory it began with. -/
def Placing.Keeps (s : State) : Placing → Prop
  | .placed t | .failed t => t.mem = s.mem
  | .wait => True

theorem State.placePoint_keeps (s : State) (j : Job) (r : PoolRec) (gid : Nat) (spots : List (Nat × Rect)) (frames : List Frame) :
    Placing.Keeps s (s.placePoint j r gid spots frames) := by
  unfold State.placePoint
  extract_lets made stages
  have hm : made.2.mem = s.mem := by
    apply State.foldl_snd_mem
    rintro a e _ rfl
    exact State.newInst_mem _ _ _ _ _ _ _
  split
  · trivial
  · exact State.placeFault_mem _ _ _ _ _ _ _ _
  · split
    · trivial
    · rename_i s2 h2
      extract_lets s3 s4 s5
      have h3 : s3.mem = s2.mem := State.foldl_mem _ _ _ fun a i _ hb => hb ▸ State.preloadOperands_mem _ _ _ _
      exact (State.refill_mem s5 r.die).trans (h3.trans ((State.layAll_mem h2).trans hm))

theorem State.placeFabric_keeps (s : State) (j : Job) (r : PoolRec) : Placing.Keeps s (s.placeFabric j r) := by
  unfold State.placeFabric
  extract_lets g
  split
  · trivial
  · exact State.placePoint_keeps _ _ _ _ _ _

theorem State.placeEngine_keeps (s : State) (j : Job) (r : PoolRec) : Placing.Keeps s (s.placeEngine j r) := by
  unfold State.placeEngine
  extract_lets p started serves
  split
  · split
    · trivial
    · exact (State.refill_mem _ _).trans (State.preloadOperands_mem _ _ _ _)
  · split
    · trivial
    · exact (State.refill_mem _ _).trans (State.preloadOperands_mem _ _ _ _)
  · split
    · trivial
    · exact State.refill_mem _ _

theorem State.place1_keeps (s : State) (j : Job) (r : PoolRec) : Placing.Keeps s (s.place1 j r) := by
  unfold State.place1
  split
  · exact State.placeEngine_keeps s j r
  · split
    · exact rfl
    · exact State.placeFabric_keeps s j r

@[simp] theorem State.withdrawWaits_mem (s : State) (id : Nat) : (s.withdrawWaits id).mem = s.mem := by
  simp only [State.withdrawWaits]
  split <;> simp

@[simp] theorem State.preemptPoint_mem (s : State) (stages : List Inst) : (s.preemptPoint stages).mem = s.mem := by
  simp [State.preemptPoint]

@[simp] theorem State.reserveFor_mem (s : State) (r : PoolRec) (g : List Inst) : (s.reserveFor r g).mem = s.mem := by
  simp only [State.reserveFor]
  split <;> simp

@[simp] theorem State.consider_mem (s : State) (l : List PoolRec) : (s.consider l).mem = s.mem := by
  induction l generalizing s with
  | nil => rfl
  | cons r l ih =>
    unfold State.consider
    split
    · exact ih s
    · rename_i j _
      have h := State.place1_keeps s j r
      split
      · rename_i s1 h1
        rw [h1] at h
        exact h
      · rename_i s1 h1
        rw [h1] at h
        exact h
      · extract_lets s1
        have h1 : s1.mem = s.mem := by
          simp only [s1]
          (repeat' split) <;> simp
        split
        · exact h1
        · exact (ih s1).trans h1

@[simp] theorem State.tidyReserved_mem (s : State) (d : Nat) : (s.tidyReserved d).mem = s.mem := by
  simp only [State.tidyReserved]
  split <;> simp

theorem State.loadDue_mem {s : State} {d : Nat} {s'} (hr : s.loadDue d = some s') : s'.mem = s.mem := by
  obtain ⟨i, _, hi⟩ := List.exists_of_findSome?_eq_some hr
  exact State.loadStep_mem hi

theorem execPlacementStep_wf (die : Nat) (s : State) (hs : MemoryWf s) : OutcomeWf (execPlacementStep die s) := by
  unfold execPlacementStep
  split
  · exact hs
  · split
    · exact State.serveQueue_wf _ _ _ (State.wf_of_mem_eq hs (State.updDie_mem _ _ _))
    · extract_lets s0 s1
      have h0 : MemoryWf s0 := State.wf_of_mem_eq hs
        ((State.refill_mem _ _).trans ((State.tidyReserved_mem _ _).trans (State.tidyFrames_mem _ _)))
      have h1 : s1.mem = s0.mem := State.findAnchors_mem _ _
      clear_value s1 s0
      split
      · exact State.wf_of_mem_eq h0 (State.continueRestore_mem _ _ _)
      · split
        · rename_i s1 h1
          refine State.wf_of_mem_eq h0 ?_
          obtain h | ⟨_, h⟩ := Option.or_eq_some_iff.mp h1
          · exact State.loadDue_mem h
          · obtain ⟨i, _, hi⟩ := List.exists_of_findSome?_eq_some h
            exact State.preload_mem hi
        · split
          · exact State.wf_of_mem_eq h0 (State.preemptPoint_mem _ _)
          · exact State.wf_of_mem_eq h0 ((State.consider_mem _ _).trans h1)

theorem execParkReserve_wf (inst : Nat) (s : State) (hs : MemoryWf s) : OutcomeWf (execParkReserve inst s) := by
  unfold execParkReserve
  split
  · exact hs
  · split
    · exact hs
    · extract_lets go
      have hgo : go.1.mem = s.mem := by
        apply State.foldl_fst_mem
        rintro a p _ rfl
        (repeat' split) <;> rfl
      clear_value go
      split
      · exact State.wf_of_mem_eq hs ((State.updInst_mem _ _ _).trans hgo)
      · extract_lets r pkg c
        exact State.wf_of_mem_eq hs (State.takeFault_mem _ _ _ _ _)

theorem execDrainPointReached_wf (inst : Nat) (s : State) (hs : MemoryWf s) :
    OutcomeWf (execDrainPointReached inst s) := by
  simp only [execDrainPointReached]
  (repeat' split) <;> simp [MemoryWf, hs, State.saveGridPoint_wf]

theorem execPlaneFlip_wf (inst : Nat) (s : State) (hs : MemoryWf s) : OutcomeWf (execPlaneFlip inst s) := by
  simp only [execPlaneFlip]
  (repeat' split) <;> simp [MemoryWf, hs]

@[simp] theorem State.swapArrives_mem (s : State) (k : Nat) (t : SwapToken) : (s.swapArrives k t).1.mem = s.mem := by
  simp only [State.swapArrives]
  (repeat' split) <;> simp

theorem execSwapTokenArrival_wf (sector : Nat) (s : State) (hs : MemoryWf s) :
    OutcomeWf (execSwapTokenArrival sector s) := by
  simp only [execSwapTokenArrival]
  (repeat' split) <;> simp [MemoryWf, hs]

theorem execPatchClear_wf (inst : Nat) (s : State) (hs : MemoryWf s) : OutcomeWf (execPatchClear inst s) := by
  simp only [execPatchClear]
  (repeat' split) <;> simp [MemoryWf, hs]

theorem execSlateAllotmentReset_wf (allotment : Nat) (s : State) (hs : MemoryWf s) :
    OutcomeWf (execSlateAllotmentReset allotment s) := by
  simp only [execSlateAllotmentReset]
  (repeat' split) <;> simp [MemoryWf, hs]

end Sys2Proof.Machine
end

