-- ==== Sys2Proof/Proofs/FaultFrame.lean ====
section
/-! Memory after power, sectors, faults and holds. -/

namespace Sys2Proof.Machine
open Sys2Proof

@[simp] theorem State.powerRecord_mem (s : State) (k code level d0 : Nat) :
    (s.powerRecord k code level d0).mem = s.mem := rfl

@[simp] theorem State.eachSector_mem (s : State) (f : Nat → Sector → Sector) : (s.eachSector f).mem = s.mem := by
  simp [State.eachSector]

@[simp] theorem State.followOos_mem (s : State) (k : Nat) : (s.followOos k).mem = s.mem := by
  simp only [State.followOos]
  split
  · split <;> rfl
  · split <;> rfl
  · split
    · rfl
    · rw [State.foldl_mem]
      · rfl
      · rintro a c _ rfl
        split <;> rfl
  · rfl

@[simp] theorem State.writeSctl_mem (s : State) (k v : Nat) (oos : Bool) : (s.writeSctl k v oos).mem = s.mem := by
  simp [State.writeSctl]

theorem execSectorOutOfServiceRequest_wf (s : State) (hs : MemoryWf s) :
    OutcomeWf (execSectorOutOfServiceRequest s) := by
  simp only [execSectorOutOfServiceRequest]
  (repeat' split) <;> simp [MemoryWf, hs]

theorem execSectorReturnRequest_wf (s : State) (hs : MemoryWf s) : OutcomeWf (execSectorReturnRequest s) := by
  simp only [execSectorReturnRequest]
  (repeat' split) <;> simp [MemoryWf, hs]

theorem execRatioRequest_wf (s : State) (hs : MemoryWf s) : OutcomeWf (execRatioRequest s) := by
  simp only [execRatioRequest]
  (repeat' split) <;> simp [MemoryWf, hs]

theorem execGatingSequence_wf (sector : Nat) (s : State) (hs : MemoryWf s) :
    OutcomeWf (execGatingSequence sector s) := by
  simp only [execGatingSequence]
  (repeat' split) <;> simp [MemoryWf, hs]

@[simp] theorem State.calibFail_mem (s : State) (k unit : Nat) : (s.calibFail k unit).mem = s.mem := rfl

theorem execCalibComplete_wf (s : State) (hs : MemoryWf s) : OutcomeWf (execCalibComplete s) := by
  simp only [execCalibComplete]
  (repeat' split) <;> simp [MemoryWf, hs]

theorem execCalibTimeout_wf (sector : Nat) (s : State) (hs : MemoryWf s) : OutcomeWf (execCalibTimeout sector s) := by
  simp only [execCalibTimeout]
  split <;> simp [MemoryWf, hs]

theorem execRatioChange_wf (sector : Nat) (s : State) (hs : MemoryWf s) : OutcomeWf (execRatioChange sector s) := by
  simp only [execRatioChange]
  split <;> simp [MemoryWf, hs]

theorem execRatioChangeComplete_wf (sector : Nat) (s : State) (hs : MemoryWf s) :
    OutcomeWf (execRatioChangeComplete sector s) := by
  simp only [execRatioChangeComplete]
  (repeat' split) <;> simp [MemoryWf, hs]

theorem execMeterInterval_wf (s : State) (hs : MemoryWf s) : OutcomeWf (execMeterInterval s) := by
  simp only [execMeterInterval]
  split <;> simp [MemoryWf, hs]

@[simp] theorem State.almanacSector_mem (s : State) (k : Nat) (temp : Int) :
    (s.almanacSector k temp).mem = s.mem := by
  simp only [State.almanacSector]
  (repeat' split) <;> simp

theorem execAlmanacUpdate_wf (s : State) (hs : MemoryWf s) : OutcomeWf (execAlmanacUpdate s) := by
  simp only [execAlmanacUpdate]
  split <;> simp [MemoryWf, hs]

@[simp] theorem State.setCaps_mem (s : State) (f : Nat → Sector → Nat) : (s.setCaps f).mem = s.mem := by
  simp [State.setCaps]

theorem execPowerMonitorSample_wf (s : State) (hs : MemoryWf s) : OutcomeWf (execPowerMonitorSample s) := by
  simp only [execPowerMonitorSample]
  (repeat' split) <;> simp [MemoryWf, hs]

theorem execSensorOvertemp_wf (s : State) (hs : MemoryWf s) : OutcomeWf (execSensorOvertemp s) := by
  simp only [execSensorOvertemp]
  (repeat' split) <;> simp [MemoryWf, hs]

theorem execConverterFault_wf (s : State) (hs : MemoryWf s) : OutcomeWf (execConverterFault s) := by
  simp only [execConverterFault]
  simp [MemoryWf, hs]

theorem execPowerBrakeAssert_wf (s : State) (hs : MemoryWf s) : OutcomeWf (execPowerBrakeAssert s) := by
  simp only [execPowerBrakeAssert]
  simp [MemoryWf, hs]

theorem execPowerBrakeRelease_wf (s : State) (hs : MemoryWf s) : OutcomeWf (execPowerBrakeRelease s) := by
  simp only [execPowerBrakeRelease]
  simp [MemoryWf, hs]

@[simp] theorem State.resetPackage_mem (s : State) (dies hbmStacks : Nat) (keep : Bool) :
    (s.resetPackage dies hbmStacks keep).mem = s.mem := by
  simp only [State.resetPackage]
  split <;> simp

theorem execDeviceReset_wf (s : State) (hs : MemoryWf s) : OutcomeWf (execDeviceReset s) := by
  simp only [execDeviceReset]
  simp [MemoryWf, hs]

theorem State.sectorOut_wf (s : State) (k : Nat) (hs : MemoryWf s) : MemoryWf (s.sectorOut k) :=
  State.foldl_wf _ _ _ (State.wf_of_mem_eq hs (State.followOos_mem _ _)) fun a j _ hb ha => hb ▸ State.abortJob_wf a j ha

theorem State.lossOf_wf (s : State) (r : FaultRec) (hs : MemoryWf s) : MemoryWf (s.lossOf r) := by
  simp only [State.lossOf]
  (repeat' split) <;> simp [MemoryWf, hs, State.abortJob_wf, State.sectorOut_wf]

theorem State.lossAfter_wf (s : State) (r : FaultRec) (hs : MemoryWf s) : MemoryWf (s.lossAfter r) := by
  simp only [State.lossAfter]
  split <;> simp [MemoryWf, hs, State.lossOf_wf]

theorem State.afterRecord_wf (s : State) (r : FaultRec) (hs : MemoryWf s) : MemoryWf (s.afterRecord r) := by
  simp only [State.afterRecord]
  (repeat' split) <;> simp [MemoryWf, hs, State.lossAfter_wf]

@[simp] theorem State.dropRec_mem (s : State) (d idx : Nat) : (s.dropRec d idx).mem = s.mem := rfl

@[simp] theorem State.keepRec_mem (s : State) (r : FaultRec) : (s.keepRec r).mem = s.mem := rfl

theorem State.divertRec_wf (s : State) (r : FaultRec) (hs : MemoryWf s) : MemoryWf (s.divertRec r) := by
  simp only [State.divertRec]
  (repeat' split) <;> simp [MemoryWf, hs, State.lossAfter_wf]

theorem State.storeRec_wf (s : State) (r : FaultRec) (pa seq : Nat) (hs : MemoryWf s) :
    MemoryWf (s.storeRec r pa seq) := by
  simp only [State.storeRec]
  split <;> simp [MemoryWf, hs, State.memWrite_wf, State.afterRecord_wf]

theorem execFaultRecordWrite_wf (die : Nat) (s : State) (hs : MemoryWf s) :
    OutcomeWf (execFaultRecordWrite die s) := by
  simp only [execFaultRecordWrite]
  (repeat' split) <;> simp [MemoryWf, hs, State.afterRecord_wf, State.divertRec_wf, State.putHeader_wf,
      State.storeRec_wf]

theorem execFaultQueueRetry_wf (die : Nat) (s : State) (hs : MemoryWf s) : OutcomeWf (execFaultQueueRetry die s) := by
  simp only [execFaultQueueRetry]
  (repeat' split) <;> simp [MemoryWf, hs, State.divertRec_wf, State.storeRec_wf]

@[simp] theorem State.popNote_mem (s : State) (d : Nat) : (s.popNote d).2.mem = s.mem := rfl

theorem execFnoteRead_wf (s : State) (hs : MemoryWf s) : OutcomeWf (execFnoteRead s) := by
  simp only [execFnoteRead]
  (repeat' split) <;> simp [MemoryWf, hs]

theorem State.cancelPreempt_wf (s : State) (i : Inst) (hs : MemoryWf s) : MemoryWf (s.cancelPreempt i) := by
  unfold State.cancelPreempt
  extract_lets parked s1 s2 s3 s4 s5 s6 s7
  have h1 : s1.mem = s.mem := State.foldl_mem _ _ _ fun _ _ _ hb => hb ▸ rfl
  have h2 : MemoryWf s2 := State.foldl_wf _ _ _ (State.wf_of_mem_eq hs h1) fun a p _ hb ha => hb ▸ State.setSlotState_wf a p 2 ha
  have h5 : s5.mem = s4.mem := State.foldl_mem _ _ _ fun a r _ hb => hb ▸ State.reissue_mem a r.id
  exact State.wf_of_mem_eq h2 h5

theorem State.cancelPoint_wf (s : State) (i : Inst) (hs : MemoryWf s) : MemoryWf (s.cancelPoint i) :=
  State.foldl_wf _ _ _ hs fun a x _ hb ha => hb ▸ State.cancelPreempt_wf a x ha

@[simp] theorem State.factDo_mem (s : State) (d res : Nat) : (s.factDo d res).mem = s.mem := rfl

@[simp] theorem State.replaceToken_mem (s : State) (cell port vc : Nat) (k : Kind) (v : Word) :
    (s.replaceToken cell port vc k v).mem = s.mem := by
  simp only [State.replaceToken]
  split <;> simp

@[simp] theorem State.poisonSites_mem (s : State) (h : Hold) : (s.poisonSites h).mem = s.mem := by
  simp [State.poisonSites]

@[simp] theorem State.resumeSite_mem (s : State) (i : Inst) (h : Hold) (cell slot : Nat) :
    (s.resumeSite i h cell slot).mem = s.mem := by
  simp only [State.resumeSite]
  (repeat' split) <;> simp

@[simp] theorem State.substSite_mem (s : State) (i : Inst) (cell slot : Nat) (v : Word) :
    (s.substSite i cell slot v).mem = s.mem := by
  simp only [State.substSite]
  split <;> simp

theorem State.resumeGrant_wf (s : State) (d : Nat) (h : Hold) (id : Nat) (hs : MemoryWf s) :
    MemoryWf (s.resumeGrant d h id) := by
  grind [State.resumeGrant, State.delHold_mem, State.weightWrite_wf, State.setGrant_mem, State.holdGrant_mem]

@[simp] theorem State.onGve_mem (s : State) (id : Nat) (f : GveCmd → GveCmd) : (s.onGve id f).mem = s.mem := rfl

theorem State.resumeInst_wf (s : State) (d : Nat) (h : Hold) (i : Inst) (hs : MemoryWf s) :
    MemoryWf (s.resumeInst d h i) := by
  simp only [State.resumeInst]
  (repeat' split) <;> simp [MemoryWf, hs, State.cancelPoint_wf]

theorem State.resumeHold_wf (s : State) (d : Nat) (h : Hold) (hs : MemoryWf s) : MemoryWf (s.resumeHold d h) := by
  simp only [State.resumeHold]
  split <;> simp [MemoryWf, hs, State.resumeGrant_wf, State.resumeInst_wf]

theorem State.factHold_wf (s : State) (d hid : Nat) (act : Hold → State) (hs : MemoryWf s) (hact : ∀ h, MemoryWf (act h)) :
    MemoryWf (s.factHold d hid act) := by
  simp only [State.factHold]
  split
  · exact State.wf_of_mem_eq hs (State.factDo_mem _ _ _)
  · exact hact _

theorem State.factResume_wf (s : State) (d hid : Nat) (hs : MemoryWf s) : MemoryWf (s.factResume d hid) := by
  refine State.factHold_wf _ _ _ _ hs fun h => ?_
  split
  · exact State.wf_of_mem_eq hs (State.factDo_mem _ _ _)
  · exact State.wf_of_mem_eq (State.resumeHold_wf s d h hs) (State.factDo_mem _ _ _)

@[simp] theorem State.substHold_mem (s : State) (d : Nat) (h : Hold) (v : Word) :
    (s.substHold d h v).mem = s.mem := by
  simp only [State.substHold]
  split <;> simp

theorem State.factSubst_wf (s : State) (d hid : Nat) (v : Word) (hs : MemoryWf s) :
    MemoryWf (s.factSubst d hid v) := by
  refine State.factHold_wf _ _ _ _ hs fun h => State.wf_of_mem_eq hs ?_
  split <;> simp

@[simp] theorem State.preemptHeld_mem (s : State) (d : Nat) (h : Hold) (i : Inst) (sites : List (Nat × Nat)) :
    (s.preemptHeld d h i sites).mem = s.mem := by
  simp [State.preemptHeld]

theorem State.preemptHold_mem {s : State} {d : Nat} {h : Hold} {s'} (hr : s.preemptHold d h = some s') :
    s'.mem = s.mem := by
  grind [State.preemptHold, State.updDie_mem, State.preemptPoint_mem, State.updInst_mem, State.preemptHeld_mem,
      State.poisonSites_mem]

theorem State.factPreempt_wf (s : State) (d hid : Nat) (hs : MemoryWf s) : MemoryWf (s.factPreempt d hid) := by
  refine State.factHold_wf _ _ _ _ hs fun h => State.wf_of_mem_eq hs ?_
  split
  · simp
  · rename_i t ht
    exact State.preemptHold_mem ht

theorem State.abortHold_wf (s : State) (d : Nat) (h : Hold) (hs : MemoryWf s) : MemoryWf (s.abortHold d h) := by
  unfold State.abortHold
  extract_lets job s0 whole s1 s2 c
  have h0 : MemoryWf s0 := State.wf_of_mem_eq hs (State.dropGrant_mem _ _)
  have h1 : MemoryWf s1 := by
    simp only [s1]
    split
    · exact State.foldl_wf _ _ _ h0 fun a x _ hb ha => hb ▸ State.retire_wf a x.id ha
    · exact h0
  have h2 : MemoryWf s2 := State.wf_of_mem_eq h1 (State.delHold_mem _ _ _)
  clear_value job
  split
  · exact h2
  · have hc : MemoryWf c.2 := State.wf_of_mem_eq h2 (State.draw_mem _ _)
    split
    · exact State.abortJob_wf _ _ hc
    · exact State.abandonJob_wf _ _ hc

theorem State.factAbort_wf (s : State) (d hid : Nat) (hs : MemoryWf s) : MemoryWf (s.factAbort d hid) :=
  State.factHold_wf _ _ _ _ hs fun h => State.wf_of_mem_eq (State.abortHold_wf s d h hs) (State.factDo_mem _ _ _)

theorem State.factFrame_wf (s : State) (d idx cmd : Nat) (act : Frame → Save → State) (hs : MemoryWf s)
    (hact : ∀ f v, MemoryWf (act f v)) : MemoryWf (s.factFrame d idx cmd act) := by
  have hdo := fun n => State.wf_of_mem_eq hs (State.factDo_mem s d n)
  simp only [State.factFrame]
  (repeat' split)
  · exact hdo _
  · exact hdo _
  · exact hact _ _
  · exact hdo _

theorem State.serviceSave_wf (s : State) (d : Nat) (f : Frame) (v : Save) (cmd : Nat) (val : Option Word) (hs : MemoryWf s) :
    MemoryWf (s.serviceSave d f v cmd val) := by
  unfold State.serviceSave
  extract_lets v1 f1 pa s1 s2 s3
  have h2 : MemoryWf s2 := by
    have h1 : MemoryWf s1 := State.memWrite_wf _ _ _ _ hs
    simp only [s2]
    split
    · exact State.memWrite_wf _ _ _ _ (State.memWrite_wf _ _ _ _ h1)
    · exact h1
  have h3 : MemoryWf s3 := State.wf_of_mem_eq h2 (State.updDie_mem _ _ _)
  split
  · exact h3
  · split
    · exact h3
    · extract_lets s4
      have h4 : MemoryWf s4 := State.wf_of_mem_eq h3 ((State.resumeSave_mem _ _ _ _).trans (State.updInst_mem _ _ _))
      split
      · split
        · exact State.wf_of_mem_eq h4 ((State.endRestore_mem _ _).trans (State.endHold_mem _ _ _))
        · exact State.wf_of_mem_eq h4 (State.endRestore_mem _ _)
      · exact h4

theorem State.abortSave_wf (s : State) (f : Frame) (hs : MemoryWf s) : MemoryWf (s.abortSave f) := by
  simp only [State.abortSave]
  (repeat' split) <;> simp [MemoryWf, hs, State.retire_wf, State.abortJob_wf, State.abandonJob_wf]

theorem State.factAct_wf (s : State) (d : Nat) (v : BitVec 512) (hs : MemoryWf s) : MemoryWf (s.factAct d v) := by
  simp only [State.factAct]
  split
  · split
    · exact State.factResume_wf _ _ _ hs
    · exact State.factSubst_wf _ _ _ _ hs
    · exact State.factPreempt_wf _ _ _ hs
    · exact State.factAbort_wf _ _ _ hs
  · refine State.factFrame_wf _ _ _ _ _ hs fun f x => ?_
    split
    · exact State.wf_of_mem_eq (State.serviceSave_wf s d f x _ none hs) (State.factDo_mem _ _ _)
    · exact State.wf_of_mem_eq (State.serviceSave_wf s d f x _ (some _) hs) (State.factDo_mem _ _ _)
    · exact State.wf_of_mem_eq hs (State.factDo_mem _ _ _)
    · exact State.wf_of_mem_eq (State.abortSave_wf s f hs) (State.factDo_mem _ _ _)

theorem State.pumpFact_wf (s : State) (d n : Nat) (hs : MemoryWf s) : MemoryWf (s.pumpFact d n) := by
  induction n generalizing s with
  | zero => exact hs
  | succ n ih =>
    simp only [State.pumpFact]
    (repeat' split)
    · exact hs
    · exact hs
    · exact hs
    · exact ih _ (State.factAct_wf _ _ _ hs)

theorem State.pumpFacts_wf (s : State) (hs : MemoryWf s) : MemoryWf (s.pumpFacts) := by
  grind [State.pumpFacts, State.pumpFact_wf]

theorem State.writeFact_wf (s : State) (d : Nat) (v : BitVec 64) (hs : MemoryWf s) : MemoryWf (s.writeFact d v) := by
  simp [MemoryWf, State.writeFact, hs, State.pumpFact_wf]

theorem State.hostFact_wf {s : State} {i : Instr} {act : Nat} (hs : MemoryWf s) {s'}
    (hr : s.hostFact i act = .next s') : MemoryWf s' := by
  grind [State.hostFact, State.defer_mem, State.writeFact_wf]

theorem execHoldLimitExpiry_wf (die : Nat) (hid : Nat) (s : State) (hs : MemoryWf s) :
    OutcomeWf (execHoldLimitExpiry die hid s) := by
  simp only [execHoldLimitExpiry]
  (repeat' split) <;> simp [MemoryWf, hs, State.abortJob_wf]

theorem execWatchdogExpiry_wf (inst : Nat) (s : State) (hs : MemoryWf s) : OutcomeWf (execWatchdogExpiry inst s) := by
  simp only [execWatchdogExpiry]
  (repeat' split) <;> simp [MemoryWf, hs]

theorem State.preemptFailed_wf (s : State) (i : Inst) (hid : Nat) (hs : MemoryWf s) :
    MemoryWf (s.preemptFailed i hid) := by
  simp only [State.preemptFailed]
  split <;> simp [MemoryWf, hs, State.cancelPoint_wf]

theorem execDrainLimitExpiry_wf (inst : Nat) (s : State) (hs : MemoryWf s) :
    OutcomeWf (execDrainLimitExpiry inst s) := by
  simp only [execDrainLimitExpiry]
  (repeat' split) <;> simp [MemoryWf, hs, State.preemptFailed_wf]

@[simp] theorem State.markBad_mem (s : State) (kind place address : Nat) :
    (s.markBad kind place address).mem = s.mem := by
  simp only [State.markBad]
  split <;> simp

theorem execScrubPass_wf (kind place address : Nat) (uncorrectable : Bool) (s : State) (hs : MemoryWf s) :
    OutcomeWf (execScrubPass kind place address uncorrectable s) := by
  simp only [execScrubPass]
  (repeat' split) <;> simp [MemoryWf, hs]

end Sys2Proof.Machine
end

