-- ==== Sys2Proof/Proofs/LinkFrame.lean ====
section
/-! Memory after links, the host and the register block. -/

namespace Sys2Proof.Machine
open Sys2Proof

@[simp] theorem State.setRegister_mem (s : State) (d off v : Nat) : (s.setRegister d off v).mem = s.mem := by
  simp only [State.setRegister]
  (repeat' split) <;> simp

@[simp] theorem State.hbmRead_mem (s : State) (pa n : Nat) : (s.hbmRead pa n).2.mem = s.mem := by
  simp only [State.hbmRead]
  split <;> simp

@[simp] theorem State.idleWhileFrozen_mem (s : State) (port : Nat) : (s.idleWhileFrozen port).mem = s.mem := by
  simp only [State.idleWhileFrozen]
  split <;> simp

@[simp] theorem State.endRetrain_mem (s : State) (n : Nat) : (s.endRetrain n).mem = s.mem := rfl

@[simp] theorem State.answerDown_mem (s : State) (port : Nat) : (s.answerDown port).mem = s.mem := by
  apply State.foldl_mem
  rintro a r _ rfl
  dsimp only
  (repeat' split) <;> simp

@[simp] theorem State.portDown_mem (s : State) (port : Nat) : (s.portDown port).mem = s.mem := by
  simp only [State.portDown]
  split <;> simp

@[simp] theorem State.exhaust_mem (s : State) (port : Nat) : (s.exhaust port).mem = s.mem := by
  simp [State.exhaust]

@[simp] theorem State.stepDown_mem (s : State) (port : Nat) : (s.stepDown port).mem = s.mem := by
  simp only [State.stepDown]
  split <;> simp

@[simp] theorem State.setPortEnable_mem (s : State) (n : Nat) (en : Bool) : (s.setPortEnable n en).mem = s.mem := by
  simp only [State.setPortEnable]
  (repeat' split) <;> simp

@[simp] theorem State.setWmax_mem (s : State) (n w : Nat) : (s.setWmax n w).mem = s.mem := by
  simp only [State.setWmax]
  split <;> simp

theorem execPortEnable_wf (s : State) (hs : MemoryWf s) : OutcomeWf (execPortEnable s) := by
  simp only [execPortEnable]
  (repeat' split) <;> simp [MemoryWf, hs]

theorem execTrainingComplete_wf (s : State) (hs : MemoryWf s) : OutcomeWf (execTrainingComplete s) := by
  simp only [execTrainingComplete]
  split <;> simp [MemoryWf, hs]

theorem execPeerPortDown_wf (s : State) (hs : MemoryWf s) : OutcomeWf (execPeerPortDown s) := by
  simp only [execPeerPortDown]
  split <;> simp [MemoryWf, hs]

theorem execWmaxWrite_wf (s : State) (hs : MemoryWf s) : OutcomeWf (execWmaxWrite s) := by
  simp only [execWmaxWrite]
  (repeat' split) <;> simp [MemoryWf, hs]

theorem execLaneError_wf (s : State) (hs : MemoryWf s) : OutcomeWf (execLaneError s) := by
  simp only [execLaneError]
  (repeat' split) <;> simp [MemoryWf, hs]

@[simp] theorem State.afterWidth_mem (s : State) (port : Nat) : (s.afterWidth port).mem = s.mem := by
  simp only [State.afterWidth]
  (repeat' split) <;> simp

theorem execRetrainComplete_wf (s : State) (hs : MemoryWf s) : OutcomeWf (execRetrainComplete s) := by
  simp only [execRetrainComplete]
  (repeat' split) <;> simp [MemoryWf, hs]

theorem execWidthRegainTest_wf (s : State) (hs : MemoryWf s) : OutcomeWf (execWidthRegainTest s) := by
  simp only [execWidthRegainTest]
  split <;> simp [MemoryWf, hs]

theorem execWidthFlitReceive_wf (s : State) (hs : MemoryWf s) : OutcomeWf (execWidthFlitReceive s) := by
  simp only [execWidthFlitReceive]
  split <;> simp [MemoryWf, hs]

@[simp] theorem State.sendOn_mem (s : State) (port : Nat) (w : BitVec 64) : (s.sendOn port w).mem = s.mem := rfl

@[simp] theorem State.linkWord_mem (s : State) (port : Nat) (w : BitVec 64) : (s.linkWord port w).mem = s.mem := by
  simp only [State.linkWord]
  (repeat' split) <;> simp

theorem execFlitReceive_wf (s : State) (hs : MemoryWf s) : OutcomeWf (execFlitReceive s) := by
  simp only [execFlitReceive]
  (repeat' split) <;> simp [MemoryWf, hs]

theorem execNakReceive_wf (s : State) (hs : MemoryWf s) : OutcomeWf (execNakReceive s) := by
  simp only [execNakReceive]
  (repeat' split) <;> simp [MemoryWf, hs]

@[simp] theorem State.steer_mem (s : State) (lead : Int) : (s.steer lead).mem = s.mem := rfl

theorem execIdleReceive_wf (s : State) (hs : MemoryWf s) : OutcomeWf (execIdleReceive s) := by
  simp only [execIdleReceive]
  (repeat' split) <;> simp [MemoryWf, hs]

theorem execReplayExhausted_wf (port : Nat) (s : State) (hs : MemoryWf s) :
    OutcomeWf (execReplayExhausted port s) := by
  simp only [execReplayExhausted]
  (repeat' split) <;> simp [MemoryWf, hs]

@[simp] theorem State.writeLctl_mem (s : State) (n v : Nat) : (s.writeLctl n v).mem = s.mem := by
  simp [State.writeLctl]

theorem State.writeRegister_wf (s : State) (d off v : Nat) (hs : MemoryWf s) :
    MemoryWf (s.writeRegister d off v) := by
  simp only [State.writeRegister]
  (repeat' split) <;> simp [MemoryWf, hs, State.writeQueueEntry_wf, State.writeFact_wf]

theorem State.blockWrite_wf (s : State) (d off n v : Nat) (hs : MemoryWf s) : MemoryWf (s.blockWrite d off n v) :=
  State.foldl_wf _ _ _ hs fun a r _ hb ha => hb ▸ State.writeRegister_wf a d r.1 _ ha

@[simp] theorem State.blockRead_mem (s : State) (d off n : Nat) : (s.blockRead d off n).2.mem = s.mem := by
  simp only [State.blockRead]
  split <;> simp

theorem execRegisterWrite_wf (s : State) (hs : MemoryWf s) : OutcomeWf (execRegisterWrite s) := by
  simp only [execRegisterWrite]
  (repeat' split) <;> simp [MemoryWf, hs, State.blockWrite_wf]

@[simp] theorem State.respond_mem (s : State) (v : Nat) : (s.respond v).mem = s.mem := rfl

@[simp] theorem State.hostBar0Read_mem (s : State) (off n : Nat) : (s.hostBar0Read off n).mem = s.mem := by
  simp only [State.hostBar0Read]
  split <;> simp

theorem State.hostBar2_wf (s : State) (off n : Nat) (write : Bool) (v : Nat) (hs : MemoryWf s) :
    MemoryWf (s.hostBar2 off n write v) := by
  simp only [State.hostBar2]
  (repeat' split) <;> simp [MemoryWf, hs, State.memWrite_wf]

theorem execHostHbmAccess_wf (s : State) (hs : MemoryWf s) : OutcomeWf (execHostHbmAccess s) := by
  simp only [execHostHbmAccess]
  (repeat' split) <;> simp [MemoryWf, hs, State.hostBar2_wf]

end Sys2Proof.Machine
end

