-- ==== Sys2Proof/Proofs/PilotFrame.lean ====
section
/-! Memory after the Pilot and the Proctor. -/

namespace Sys2Proof.Machine
open Sys2Proof

@[simp] theorem State.updPilot_mem (s : State) (d : Nat) (f : Pilot → Pilot) : (s.updPilot d f).mem = s.mem := rfl

@[simp] theorem State.pilotDone_mem (s : State) (d : Nat) (rd : BitVec 5) (v : Nat) :
    (s.pilotDone d rd v).mem = s.mem := rfl

@[simp] theorem State.pilotTrap_mem (s : State) (d cause tval : Nat) : (s.pilotTrap d cause tval).mem = s.mem := rfl

theorem State.pilotPut_wf (s : State) (d a : Nat) (b : Byte) (hs : MemoryWf s) : MemoryWf (s.pilotPut d a b) := by
  simp only [State.pilotPut]
  split <;> simp [MemoryWf, hs, State.memSetByte_wf]

theorem State.pilotWrite_wf (s : State) (d a v n : Nat) (hs : MemoryWf s) : MemoryWf (s.pilotWrite d a v n) := by
  induction n with
  | zero => exact hs
  | succ n ih => exact State.pilotPut_wf _ _ _ _ ih

theorem execXgQpop_wf (die : Fin 4) (rd rs1 _rs2 : BitVec 5) (s : State) (hs : MemoryWf s) :
    OutcomeWf (execXgQpop die rd rs1 _rs2 s) := by
  simp only [execXgQpop]
  (repeat' split) <;> simp [MemoryWf, hs]

theorem execXgQpeek_wf (die : Fin 4) (rd rs1 _rs2 : BitVec 5) (s : State) (hs : MemoryWf s) :
    OutcomeWf (execXgQpeek die rd rs1 _rs2 s) := by
  simp only [execXgQpeek]
  split <;> simp [MemoryWf, hs]

theorem execXgRpush_wf (die : Fin 4) (rd rs1 rs2 : BitVec 5) (s : State) (hs : MemoryWf s) :
    OutcomeWf (execXgRpush die rd rs1 rs2 s) := by
  simp only [execXgRpush]
  (repeat' split) <;> simp [MemoryWf, hs]

theorem execXgGsetRead_wf (die : Fin 4) (rd _rs1 rs2 : BitVec 5) (s : State) (hs : MemoryWf s) :
    OutcomeWf (execXgGsetRead die rd _rs1 rs2 s) := by
  simp only [execXgGsetRead]
  split <;> simp [MemoryWf, hs]

theorem State.gset_mem {s : State} {d : Nat} {rd rs2 : BitVec 5} {f : Grant → Grant} {r : Nat} {s'}
    (hr : s.gset d rd rs2 f r = .next s') : s'.mem = s.mem := by
  grind [State.gset, State.pilotDone_mem, State.setGrant_mem]

theorem execXgGsetSetexp_wf (die : Fin 4) (rd rs1 rs2 : BitVec 5) (s : State) (hs : MemoryWf s) :
    OutcomeWf (execXgGsetSetexp die rd rs1 rs2 s) := by
  unfold execXgGsetSetexp
  extract_lets a
  exact .of_mem hs State.gset_mem

theorem execXgGsetSetbase_wf (die : Fin 4) (rd rs1 rs2 : BitVec 5) (s : State) (hs : MemoryWf s) :
    OutcomeWf (execXgGsetSetbase die rd rs1 rs2 s) := by
  unfold execXgGsetSetbase
  extract_lets a
  exact .of_mem hs State.gset_mem

theorem execXgGsetOpen_wf (die : Fin 4) (rd rs1 rs2 : BitVec 5) (s : State) (hs : MemoryWf s) :
    OutcomeWf (execXgGsetOpen die rd rs1 rs2 s) := by
  unfold execXgGsetOpen
  extract_lets a
  exact .of_mem hs State.gset_mem

theorem execXgGsetClose_wf (die : Fin 4) (rd rs1 rs2 : BitVec 5) (s : State) (hs : MemoryWf s) :
    OutcomeWf (execXgGsetClose die rd rs1 rs2 s) := by
  unfold execXgGsetClose
  extract_lets d v g
  split
  · exact State.wf_of_mem_eq hs (State.setGrant_mem _ _ _ _)
  · exact .of_mem hs State.gset_mem

@[simp] theorem State.pilotRequest_mem (s : State) (d : Nat) (b : ReqBody) : (s.pilotRequest d b).mem = s.mem := rfl

theorem execXgTlnch_wf (die : Fin 4) (rd rs1 rs2 : BitVec 5) (s : State) (hs : MemoryWf s) :
    OutcomeWf (execXgTlnch die rd rs1 rs2 s) := by
  simp only [execXgTlnch]
  (repeat' split) <;> simp [MemoryWf, hs]

theorem execXgCfgw_wf (die : Fin 4) (rd rs1 rs2 : BitVec 5) (s : State) (hs : MemoryWf s) :
    OutcomeWf (execXgCfgw die rd rs1 rs2 s) := by
  simp only [execXgCfgw]
  (repeat' split) <;> simp [MemoryWf, hs]

theorem execXgWfe_wf (die : Fin 4) (rd _rs1 _rs2 : BitVec 5) (s : State) (hs : MemoryWf s) :
    OutcomeWf (execXgWfe die rd _rs1 _rs2 s) := by
  simp only [execXgWfe]
  (repeat' split) <;> simp [MemoryWf, hs]

theorem execXgWfeTimeout_wf (die : Fin 4) (rd rs1 _rs2 : BitVec 5) (s : State) (hs : MemoryWf s) :
    OutcomeWf (execXgWfeTimeout die rd rs1 _rs2 s) := by
  simp only [execXgWfeTimeout]
  (repeat' split) <;> simp [MemoryWf, hs]

theorem execXgEvsig_wf (die : Fin 4) (rd rs1 rs2 : BitVec 5) (s : State) (hs : MemoryWf s) :
    OutcomeWf (execXgEvsig die rd rs1 rs2 s) := by
  unfold execXgEvsig
  extract_lets d v
  split
  · exact hs
  · split
    · trivial
    · exact State.wf_of_mem_eq hs ((State.pilotDone_mem _ _ _ _).trans (State.pilotRequest_mem _ _ _))

@[simp] theorem State.updProctor_mem (s : State) (f : Proctor → Proctor) : (s.updProctor f).mem = s.mem := rfl

theorem State.doe_mem {s : State} {i : Instr} {f : State → State × List Byte} (hf : (f s).1.mem = s.mem) {s'}
    (hr : s.doe i f = .next s') : s'.mem = s.mem := by
  simp only [State.doe] at hr
  split at hr <;> cases hr <;> simp [hf]

/-- A request's answer is named, so that its cases are split in an equation. -/
theorem State.doe_outcomeWf {s : State} {i : Instr} {f : State → State × List Byte} (hs : MemoryWf s)
    (hf : ∀ r, f s = r → r.1.mem = s.mem) : OutcomeWf (s.doe i f) :=
  .of_mem hs (State.doe_mem (hf _ rfl))

theorem execGetVersion_wf (s : State) (hs : MemoryWf s) : OutcomeWf (execGetVersion s) :=
  .of_mem hs (State.doe_mem rfl)

theorem execGetCapabilities_wf (s : State) (hs : MemoryWf s) : OutcomeWf (execGetCapabilities s) :=
  .of_mem hs (State.doe_mem rfl)

theorem execNegotiateAlgorithms_wf (s : State) (hs : MemoryWf s) : OutcomeWf (execNegotiateAlgorithms s) :=
  .of_mem hs (State.doe_mem rfl)

theorem execGetDigests_wf (s : State) (hs : MemoryWf s) : OutcomeWf (execGetDigests s) :=
  .of_mem hs (State.doe_mem rfl)

theorem execGetCertificate_wf (s : State) (hs : MemoryWf s) : OutcomeWf (execGetCertificate s) :=
  .of_mem hs (State.doe_mem rfl)

theorem execChallenge_wf (s : State) (hs : MemoryWf s) : OutcomeWf (execChallenge s) := by
  refine .of_mem hs (State.doe_mem ?_)
  split <;> rfl

theorem execGetMeasurements_wf (s : State) (hs : MemoryWf s) : OutcomeWf (execGetMeasurements s) :=
  .of_mem hs (State.doe_mem rfl)

theorem execStage_wf (s : State) (hs : MemoryWf s) : OutcomeWf (execStage s) := by
  refine .of_mem hs (State.doe_mem ?_)
  dsimp only
  (repeat' split) <;> simp

theorem execActivate_wf (s : State) (hs : MemoryWf s) : OutcomeWf (execActivate s) := by
  refine .of_mem hs (State.doe_mem ?_)
  dsimp only
  (repeat' split) <;> simp

@[simp] theorem State.freeDoe_mem (s : State) : (s.freeDoe).mem = s.mem := rfl

theorem execFirmwareHandover_wf (s : State) (hs : MemoryWf s) : OutcomeWf (execFirmwareHandover s) := by
  simp only [execFirmwareHandover]
  (repeat' split) <;> simp [MemoryWf, hs]

theorem execActivateTimeout_wf (s : State) (hs : MemoryWf s) : OutcomeWf (execActivateTimeout s) := by
  simp only [execActivateTimeout]
  split <;> simp [MemoryWf, hs]

theorem execStatus_wf (s : State) (hs : MemoryWf s) : OutcomeWf (execStatus s) :=
  .of_mem hs (State.doe_mem rfl)

theorem execThermcfg_wf (s : State) (hs : MemoryWf s) : OutcomeWf (execThermcfg s) := by
  refine .of_mem hs (State.doe_mem ?_)
  dsimp only
  (repeat' split) <;> simp

theorem execTime_wf (s : State) (hs : MemoryWf s) : OutcomeWf (execTime s) := by
  unfold execTime
  refine State.doe_outcomeWf hs fun r hr => ?_
  extract_lets p answer at hr
  have hanswer : ∀ x n, (answer x n).1 = x := fun _ _ => rfl
  clear_value answer
  split at hr
  · split at hr <;> rw [← hr, hanswer]
  · rw [← hr, hanswer]
    rfl
  · rw [← hr, hanswer]

theorem execFreeze_wf (s : State) (hs : MemoryWf s) : OutcomeWf (execFreeze s) := by
  refine .of_mem hs (State.doe_mem ?_)
  dsimp only
  (repeat' split) <;> simp

theorem State.afterRelease_wf (s : State) (hs : MemoryWf s) : MemoryWf s.afterRelease := by
  simp only [State.afterRelease]
  split
  · exact hs
  · exact State.foldl_wf _ _ _ hs fun a x _ hb ha => hb ▸ State.lossOf_wf a x ha

@[simp] theorem State.freezeBegins_mem (s : State) (was : Bool) : (s.freezeBegins was).mem = s.mem := by
  simp only [State.freezeBegins]
  split <;> simp

theorem execFrzNAssert_wf (s : State) (hs : MemoryWf s) : OutcomeWf (execFrzNAssert s) := by
  simp only [execFrzNAssert]
  simp [MemoryWf, hs]

theorem execFrzNRelease_wf (s : State) (hs : MemoryWf s) : OutcomeWf (execFrzNRelease s) := by
  simp only [execFrzNRelease]
  simp [MemoryWf, hs, State.afterRelease_wf]

theorem execProctorFreezeRequest_wf (s : State) (hs : MemoryWf s) : OutcomeWf (execProctorFreezeRequest s) := by
  simp only [execProctorFreezeRequest]
  split <;> simp [MemoryWf, hs]

theorem execFrzrel_wf (s : State) (hs : MemoryWf s) : OutcomeWf (execFrzrel s) := by
  simp only [execFrzrel]
  split <;> simp [MemoryWf, hs, State.afterRelease_wf]

theorem execTapReadout_wf (s : State) (hs : MemoryWf s) : OutcomeWf (execTapReadout s) := by
  simp only [execTapReadout]
  split <;> simp [MemoryWf, hs]

end Sys2Proof.Machine
end

