-- ==== Sys2Proof/Proofs/StreamFrame.lean ====
section
/-! Memory after the stream and system instructions. -/

namespace Sys2Proof.Machine
open Sys2Proof

@[simp] theorem State.streamApply_mem (s : State) (F : Firing) (o : StreamOut) (lat : Nat) :
    (s.streamApply F o lat).mem = s.mem := by
  simp only [State.streamApply]
  (repeat' split) <;> simp

@[simp] theorem State.doneCopies_mem (s : State) (F : Firing) (g : StreamFn) : (s.doneCopies F g).1.mem = s.mem := by
  simp only [State.doneCopies]
  split <;> simp

theorem State.fireStream_mem {s : State} {opc : Nat} {g : StreamFn} {counts : Bool} {site : Site} {f : OpFields} {s'}
    (hr : s.fireStream opc g counts site f = .next s') : s'.mem = s.mem := by
  obtain rfl | ⟨i, e, _, rfl⟩ | ⟨F, s1, hF, _, rfl⟩ := Laws.fire_cases hr
  · rfl
  · exact State.fireFault_mem _ _ _ _ _
  · extract_lets o r
    split
    · exact State.fireFaultAt_mem _ _ _ _ _ _
    · exact (State.streamApply_mem _ _ _ _).trans ((State.doneCopies_mem _ _ _).trans (State.fires_mem hF))

theorem execGen_wf (site : Site) (f : OpFields) (s : State) (hs : MemoryWf s) : OutcomeWf (execGen site f s) :=
  .of_mem hs State.fireStream_mem

theorem execGen2_wf (site : Site) (f : OpFields) (s : State) (hs : MemoryWf s) : OutcomeWf (execGen2 site f s) :=
  .of_mem hs State.fireStream_mem

theorem execCnt_wf (site : Site) (f : OpFields) (s : State) (hs : MemoryWf s) : OutcomeWf (execCnt site f s) :=
  .of_mem hs State.fireStream_mem

theorem execAcc_wf (site : Site) (f : OpFields) (s : State) (hs : MemoryWf s) : OutcomeWf (execAcc site f s) :=
  .of_mem hs State.fireStream_mem

theorem execScan_wf (site : Site) (f : OpFields) (s : State) (hs : MemoryWf s) : OutcomeWf (execScan site f s) :=
  .of_mem hs State.fireStream_mem

theorem execFilt_wf (site : Site) (f : OpFields) (s : State) (hs : MemoryWf s) : OutcomeWf (execFilt site f s) := by
  unfold execFilt
  split <;> exact .of_mem hs State.fireStream_mem

theorem execTake_wf (site : Site) (f : OpFields) (s : State) (hs : MemoryWf s) : OutcomeWf (execTake site f s) :=
  .of_mem hs State.fireStream_mem

theorem execSkip_wf (site : Site) (f : OpFields) (s : State) (hs : MemoryWf s) : OutcomeWf (execSkip site f s) :=
  .of_mem hs State.fireStream_mem

theorem execRept_wf (site : Site) (f : OpFields) (s : State) (hs : MemoryWf s) : OutcomeWf (execRept site f s) :=
  .of_mem hs State.fireStream_mem

theorem execMklast_wf (site : Site) (f : OpFields) (s : State) (hs : MemoryWf s) : OutcomeWf (execMklast site f s) :=
  .of_mem hs State.fireStream_mem

theorem execDone_wf (site : Site) (f : OpFields) (s : State) (hs : MemoryWf s) : OutcomeWf (execDone site f s) :=
  .of_mem hs State.fireStream_mem

theorem execWaitd_wf (site : Site) (f : OpFields) (s : State) (hs : MemoryWf s) : OutcomeWf (execWaitd site f s) :=
  .of_mem hs State.fireStream_mem

theorem execIter_wf (site : Site) (f : OpFields) (s : State) (hs : MemoryWf s) : OutcomeWf (execIter site f s) :=
  .of_mem hs State.fireStream_mem

theorem execTrig_wf (site : Site) (f : OpFields) (s : State) (hs : MemoryWf s) : OutcomeWf (execTrig site f s) :=
  .of_mem hs State.fireStream_mem

@[simp] theorem State.swreg_mem (s : State) (F : Firing) (n : Nat) (v : Word) : (s.swreg F n v).mem = s.mem := by
  simp only [State.swreg]
  split <;> simp

@[simp] theorem State.absorbIf_mem (s : State) (F : Firing) : (s.absorbIf F).mem = s.mem := by
  simp only [State.absorbIf]
  split <;> simp

theorem State.fireSink_mem {s : State} {opc : Nat} {site : Site} {f : OpFields} {act : State → Firing → State}
    (hact : ∀ a F, (act a F).mem = a.mem) {s'} (hr : s.fireSink opc site f act = .next s') : s'.mem = s.mem :=
  State.fire_mem (fun a F => (hact _ F).trans (by simp)) hr

theorem State.fireSink_wf {s : State} {opc : Nat} {site : Site} {f : OpFields} {act : State → Firing → State}
    (hact : ∀ a F, MemoryWf a → MemoryWf (act a F)) (hs : MemoryWf s) {s'} (hr : s.fireSink opc site f act = .next s') : MemoryWf s' :=
  State.fire_wf (fun a F ha => hact _ F (State.wf_of_mem_eq ha (by simp))) hs hr

theorem execNop_wf (site : Site) (f : OpFields) (s : State) (hs : MemoryWf s) : OutcomeWf (execNop site f s) :=
  .of_mem hs (State.fireSink_mem fun _ _ => by simp)

theorem execSreg_wf (site : Site) (f : OpFields) (s : State) (hs : MemoryWf s) : OutcomeWf (execSreg site f s) :=
  .of_fire hs fun _ _ => by simp

theorem execSwreg_wf (site : Site) (f : OpFields) (s : State) (hs : MemoryWf s) : OutcomeWf (execSwreg site f s) := by
  refine .of_mem hs (State.fire_mem fun a F => ?_)
  dsimp only
  (repeat' split) <;> simp

theorem execTrap_wf (site : Site) (f : OpFields) (s : State) (hs : MemoryWf s) : OutcomeWf (execTrap site f s) :=
  .of_fire hs fun _ _ => by simp

theorem execBrk_wf (site : Site) (f : OpFields) (s : State) (hs : MemoryWf s) : OutcomeWf (execBrk site f s) := by
  refine .of_mem hs (State.fire_mem fun a F => ?_)
  dsimp only
  (repeat' split) <;> simp

theorem execYield_wf (site : Site) (f : OpFields) (s : State) (hs : MemoryWf s) : OutcomeWf (execYield site f s) :=
  .of_mem hs (State.fireSink_mem fun _ _ => by simp)

theorem execExit_wf (site : Site) (f : OpFields) (s : State) (hs : MemoryWf s) : OutcomeWf (execExit site f s) :=
  .of_wf fun hr => State.fireSink_wf (fun a F ha => State.retire_wf a F.inst.id ha) hs hr

theorem execAssert_wf (site : Site) (f : OpFields) (s : State) (hs : MemoryWf s) : OutcomeWf (execAssert site f s) :=
  .of_fire hs fun _ _ => by simp

theorem execClock_wf (site : Site) (f : OpFields) (s : State) (hs : MemoryWf s) : OutcomeWf (execClock site f s) :=
  .of_fire hs fun _ _ => by simp

theorem execPerf_wf (site : Site) (f : OpFields) (s : State) (hs : MemoryWf s) : OutcomeWf (execPerf site f s) := by
  refine .of_mem hs (State.fire_mem fun a F => ?_)
  dsimp only
  (repeat' split) <;> simp

theorem execSwapreq_wf (site : Site) (f : OpFields) (s : State) (hs : MemoryWf s) :
    OutcomeWf (execSwapreq site f s) :=
  .of_mem hs (State.fireSink_mem fun _ _ => by simp)

theorem execPoison_wf (site : Site) (f : OpFields) (s : State) (hs : MemoryWf s) : OutcomeWf (execPoison site f s) :=
  .of_fire hs fun _ _ => by simp

end Sys2Proof.Machine
end

