-- ==== Sys2Proof/Proofs/RiscVFrame.lean ====
section
/-! Memory after the Pilot's base instructions. -/

namespace Sys2Proof.Machine
open Sys2Proof

@[simp] theorem State.pilotLeaves_mem (s : State) (a : Nat) : (s.pilotLeaves a).mem = s.mem := by
  simp only [State.pilotLeaves]
  split <;> simp

theorem State.pilotLoad_mem {s : State} {d a n : Nat} {v s'} (hr : s.pilotLoad d a n = .ok v s') :
    s'.mem = s.mem := by
  simp only [State.pilotLoad] at hr
  (repeat' split at hr) <;> cases hr <;> simp

theorem State.pilotStore_wf {s : State} {d a n v : Nat} (hs : MemoryWf s) {w s'}
    (hr : s.pilotStore d a n v = .ok w s') : MemoryWf s' := by
  simp only [State.pilotStore] at hr
  (repeat' split at hr) <;> cases hr
  · exact State.blockWrite_wf _ _ _ _ _ hs
  · exact State.pilotWrite_wf _ _ _ _ _ (State.wf_of_mem_eq hs (State.pilotLeaves_mem _ _))

@[simp] theorem State.setPilotCsr_mem (s : State) (d n : Nat) (v : BitVec 64) :
    (s.setPilotCsr d n v).mem = s.mem := by
  simp only [State.setPilotCsr]
  split <;> simp

@[simp] theorem State.rvDone_mem (s : State) (d len : Nat) (rd : BitVec 5) (v : BitVec 64) :
    (s.rvDone d len rd v).mem = s.mem := rfl

@[simp] theorem State.rvJump_mem (s : State) (d : Nat) (rd : BitVec 5) (link target : BitVec 64) :
    (s.rvJump d rd link target).mem = s.mem := rfl

@[simp] theorem State.rvResult_mem (s : State) (d len w : Nat) (r : Option (BitVec 64)) :
    (s.rvResult d len w r).mem = s.mem := by
  simp only [State.rvResult]
  split <;> simp

@[simp] theorem State.rvLoad_mem (s : State) (d len w : Nat) (a : BitVec 64) : (s.rvLoad d len w a).mem = s.mem := by
  simp only [State.rvLoad]
  split
  · simp
  · split
    · rfl
    · simp
    · rename_i v s1 h
      exact (State.rvDone_mem _ _ _ _ _).trans (State.pilotLoad_mem h)

theorem State.rvStore_wf (s : State) (d len w : Nat) (a b : BitVec 64) (hs : MemoryWf s) :
    MemoryWf (s.rvStore d len w a b) := by
  simp only [State.rvStore]
  split
  · exact State.wf_of_mem_eq hs (State.pilotTrap_mem _ _ _ _)
  · split
    · exact hs
    · exact State.wf_of_mem_eq hs (State.pilotTrap_mem _ _ _ _)
    · rename_i v s1 h
      exact State.wf_of_mem_eq (State.pilotStore_wf hs h) (State.rvDone_mem _ _ _ _ _)

theorem State.rvAtomic_wf (s : State) (d len w : Nat) (a b : BitVec 64) (hs : MemoryWf s) :
    MemoryWf (s.rvAtomic d len w a b) := by
  have htrap : ∀ c v, MemoryWf (s.pilotTrap d c v) := fun c v => State.wf_of_mem_eq hs (State.pilotTrap_mem _ _ _ _)
  unfold State.rvAtomic
  extract_lets at_ f5 n isLr ext clear
  split
  · exact htrap _ _
  · split
    · exact htrap _ _
    · split
      · exact htrap _ _
      · split
        · split
          · split
            · exact hs
            · exact htrap _ _
            · rename_i v s1 h1
              exact State.wf_of_mem_eq (State.pilotStore_wf hs h1) (State.rvDone_mem _ _ _ _ _)
          · exact State.wf_of_mem_eq hs (State.rvDone_mem _ _ _ _ _)
        · split
          · exact hs
          · exact htrap _ _
          · rename_i v s1 h1
            have w1 := State.wf_of_mem_eq hs (State.pilotLoad_mem h1)
            split
            · exact State.wf_of_mem_eq w1 (State.rvDone_mem _ _ _ _ _)
            · split
              · exact htrap _ _
              · exact State.wf_of_mem_eq (State.pilotWrite_wf _ _ _ _ _ w1) (State.rvDone_mem _ _ _ _ _)

@[simp] theorem State.rvSystem_mem (s : State) (d len w : Nat) (a : BitVec 64) :
    (s.rvSystem d len w a).mem = s.mem := by
  simp only [State.rvSystem]
  (repeat' split) <;> simp

theorem State.rvExec_wf (s : State) (d len w : Nat) (hs : MemoryWf s) : MemoryWf (s.rvExec d len w) := by
  simp only [State.rvExec]
  (repeat' split) <;> simp [MemoryWf, hs, State.rvStore_wf, State.rvAtomic_wf]

end Sys2Proof.Machine
end

