-- ==== Sys2Proof/Proofs/TurnFrame.lean ====
section
/-! Memory after turns: what comes before an instruction. -/

namespace Sys2Proof.Machine
open Sys2Proof

@[simp] theorem State.nextTurn_mem (s : State) : (s.nextTurn).2.mem = s.mem := by
  simp only [State.nextTurn]
  split <;> simp

@[simp] theorem State.countCycles_mem (s : State) (was : State) : (s.countCycles was).mem = s.mem := by
  simp [State.countCycles, apply_ite State.mem]

@[simp] theorem State.runDevice_mem (s : State) (dt : Nat) : (s.runDevice dt).mem = s.mem := rfl

theorem State.advance_wf (s : State) (t : Turn) (hs : MemoryWf s) : MemoryWf (s.advance t) := by
  simp only [State.advance]
  (repeat' split) <;> simp [MemoryWf, hs, State.pumpFacts_wf]

@[simp] theorem State.bringCommand_mem (s : State) (k : Nat) : (s.bringCommand k).mem = s.mem := by
  simp only [State.bringCommand]
  split <;> simp

/-- The state a turn takes, with an instruction or idle, is canonical. -/
def Taken.Wf : Taken → Prop
  | .run _ s | .idle s => MemoryWf s

theorem State.takeTimetable_wf (s : State) (k : Fin 64) (hs : MemoryWf s) : Taken.Wf (s.takeTimetable k) := by
  unfold State.takeTimetable
  split
  · exact hs
  · split
    · split
      · exact State.wf_of_mem_eq hs (by simp)
      · exact hs
    · extract_lets begin_
      split
      · exact State.wf_of_mem_eq hs (State.loaderWaits_mem _ _ _ _)
      · split
        · split <;> exact State.wf_of_mem_eq hs (State.beforeSeal_mem _ _ _ _ _)
        · exact hs

theorem State.takeCommand_wf (s : State) (k : Nat) (hs : MemoryWf s) : Taken.Wf (s.takeCommand k) := by
  unfold State.takeCommand
  split
  · extract_lets s1
    have h1 : MemoryWf s1 := State.wf_of_mem_eq hs (State.bringCommand_mem _ _)
    clear_value s1
    split
    · exact State.takeTimetable_wf _ _ h1
    · extract_lets begin_
      split
      · exact State.takeTimetable_wf _ _ (State.wf_of_mem_eq h1 (State.loaderWaits_mem _ _ _ _))
      · exact State.wf_of_mem_eq h1 (State.updLoader_mem _ _ _)
  · exact hs

theorem State.takeBase_wf (s : State) (d : Nat) (hs : MemoryWf s) : Taken.Wf (s.takeBase d) := by
  unfold State.takeBase
  extract_lets w
  split
  · exact State.rvExec_wf _ _ _ _ hs
  · split
    · exact State.rvExec_wf _ _ _ _ hs
    · exact State.wf_of_mem_eq hs (State.pilotTrap_mem _ _ _ _)

theorem State.takePilot_wf (s : State) (d : Nat) (hs : MemoryWf s) : Taken.Wf (s.takePilot d) := by
  have htrap : ∀ c v, MemoryWf (s.pilotTrap d c v) := fun c v => State.wf_of_mem_eq hs (State.pilotTrap_mem _ _ _ _)
  unfold State.takePilot
  split
  · split
    · exact hs
    · split
      · exact htrap _ _
      · split
        · exact htrap _ _
        · generalize (if bitsN (s.pilotWordAt d).toNat 1 0 = 3 then 4 else 2) = len
          split
          · exact htrap _ _
          · extract_lets w rs2
            split
            · exact State.takeBase_wf _ _ hs
            · split
              · exact htrap _ _
              · exact hs
              · exact hs
  · exact hs

theorem State.staleFault_mem {s : State} {cell : Nat} {s'} (hr : s.staleFault cell = some s') : s'.mem = s.mem := by
  grind [State.staleFault, State.fireFault_mem]

theorem State.staleEntry_mem {s : State} {cell e : Nat} {s'} (hr : s.staleEntry cell e = some s') :
    s'.mem = s.mem := by
  simp only [State.staleEntry] at hr
  split at hr
  · cases hr
  · obtain ⟨t, _, ht⟩ := List.exists_of_findSome?_eq_some hr
    split at ht <;> cases ht
    simp

theorem State.take_wf (s : State) (g : Agent) (hs : MemoryWf s) : Taken.Wf (s.take g) := by
  unfold State.take
  split
  · split
    · rename_i s1 h1
      exact State.wf_of_mem_eq hs (State.staleFault_mem h1)
    · split
      · exact hs
      · exact hs
  · split
    · rename_i s1 h1
      exact State.wf_of_mem_eq hs (State.staleEntry_mem h1)
    · split
      · exact hs
      · exact hs
  · exact State.takeCommand_wf _ _ hs
  · exact State.takePilot_wf _ _ hs
  · split
    · exact hs
    · exact hs

end Sys2Proof.Machine
end

