-- ==== Sys2Proof/Proofs/StepMemory.lean ====
section
/-! Settles O8: every step keeps the memory canonical. -/

namespace Sys2Proof.Machine
open Sys2Proof

/-- One instruction keeps memory canonical: every instruction is a firing that leaves memory, or has a lemma of its own. -/
theorem exec_wf (i : Instr) (s : State) (hs : MemoryWf s) : OutcomeWf (exec i s) := by
  cases i with
  | ldh _ _ =>
    exact .of_mem hs State.fireCurLoad_mem
  | sth _ _ | sts _ _ | str _ _ | stg _ _ | stx _ _ =>
    exact .of_mem hs State.fireStore_mem
  | lds _ _ =>
    exact .of_mem hs State.fireLoad_mem
  | atomh _ _ | atomr _ _ | atomg _ _ =>
    exact .of_mem hs State.fireAtomic_mem
  | cash _ _ | casr _ _ | casg _ _ =>
    exact .of_mem hs State.fireCas_mem
  | bari _ _ | bara _ _ | barw _ _ | ringi _ _ | ringf _ _ | ringfP _ _ | ringr _ _ | ringrP _ _ =>
    exact .of_mem hs State.fireSync_mem
  | copy _ _ | gath _ _ | scat _ _ | embr _ _ =>
    exact .of_mem hs State.fireEngine_mem
  | xlinvGranule | xlinvAll =>
    exact .of_mem hs State.hostXlinv_mem
  | mm _ _ | mmb _ _ | mmg _ _ | mmo _ _ =>
    exact .of_mem hs State.fireMatrix_mem
  | factResume | factSubst | factPreempt | factAbort | factFrameResume | factFrameSubst | factFramePreempt
  | factFrameAbort =>
    exact .of_wf fun hr => State.hostFact_wf hs hr
  | fadd _ _ | fsub _ _ | fmul _ _ | fma _ _ | fms _ _ | fnma _ _ | fmin _ _ | fmax _ _ | fabs _ _ | fneg _ _
  | fcmp _ _ | fclass _ _ | fdiv _ _ | fsqrt _ _ | frcpa _ _ | frsqa _ _ | fexp2a _ _ | flog2a _ _ | fsinpi _ _
  | fcospi _ _ | ftanha _ _ | fsiga _ _ | cvt _ _ | cvts _ _ | frnd _ _ | fscale _ _ | fdot2 _ _ | fhadd _ _
  | fclamp _ _ | flerp _ _ | add _ _ | sub _ _ | mul _ _ | mulh _ _ | mad _ _ | div _ _ | rem _ _ | min _ _ | max _ _
  | abs _ _ | and _ _ | or _ _ | xor _ _ | andn _ _ | shl _ _ | shr _ _ | rot _ _ | clz _ _ | ffs _ _ | popc _ _
  | brev _ _ | bfx _ _ | bfi _ _ | sel _ _ | cmp _ _ | avg _ _ | absd _ _ | sad _ _ | dot4 _ _ | addsh _ _ | move _ _
  | pack _ _ | qenc _ _ | qdec _ _ | q8enc _ _ | q8dec _ _ | amax _ _ | qscale _ _ | zcnt _ _ | zmask _ _ | lanex _ _
  | lanei _ _ | splat _ _ | widen _ _ | narrow _ _ | shuf _ _ =>
    exact .of_mem hs State.fireAlu_mem
  | ldr site f => exact execLdr_wf site f s hs
  | ldg site f => exact execLdg_wf site f s hs
  | ldx site f => exact execLdx_wf site f s hs
  | fence site f => exact execFence_wf site f s hs
  | hseek site f => exact execHseek_wf site f s hs
  | htell site f => exact execHtell_wf site f s hs
  | pfg site f => exact execPfg_wf site f s hs
  | gspmv site f => exact execGspmv_wf site f s hs
  | gsload site f => exact execGsload_wf site f s hs
  | gsread site f => exact execGsread_wf site f s hs
  | gsclr site f => exact execGsclr_wf site f s hs
  | grammarCommandStart sector => exact execGrammarCommandStart_wf sector s hs
  | grammarCommandComplete command => exact execGrammarCommandComplete_wf command s hs
  | copyw site f => exact execCopyw_wf site f s hs
  | copyCommandAccept sector => exact execCopyCommandAccept_wf sector s hs
  | engineBarrierDecrement command => exact execEngineBarrierDecrement_wf command s hs
  | engineRingAdvance command => exact execEngineRingAdvance_wf command s hs
  | engineCompletion command => exact execEngineCompletion_wf command s hs
  | gatherOwnerRequest command => exact execGatherOwnerRequest_wf command s hs
  | batchTranslation command => exact execBatchTranslation_wf command s hs
  | rowReturn command answer => exact execRowReturn_wf command answer s hs
  | indexLaneToken command lane => exact execIndexLaneToken_wf command lane s hs
  | engineSuspend command => exact execEngineSuspend_wf command s hs
  | subscribe site f => exact execSubscribe_wf site f s hs
  | unsub site f => exact execUnsub_wf site f s hs
  | sflush site f => exact execSflush_wf site f s hs
  | activation request => exact execActivation_wf request s hs
  | snapshotComplete request => exact execSnapshotComplete_wf request s hs
  | heldUpdateClose pair => exact execHeldUpdateClose_wf pair s hs
  | mirrorUpdate pair => exact execMirrorUpdate_wf pair s hs
  | parkRequest pair => exact execParkRequest_wf pair s hs
  | parkedUpdateWrite pair => exact execParkedUpdateWrite_wf pair s hs
  | unpark pair => exact execUnpark_wf pair s hs
  | doorbellWrite => exact execDoorbellWrite_wf s hs
  | queueTableWrite => exact execQueueTableWrite_wf s hs
  | nodeComplete node => exact execNodeComplete_wf node s hs
  | jobComplete job => exact execJobComplete_wf job s hs
  | peerLaunchRequest => exact execPeerLaunchRequest_wf s hs
  | tenq site f => exact execTenq_wf site f s hs
  | tlnch site f => exact execTlnch_wf site f s hs
  | send site f => exact execSend_wf site f s hs
  | rgreq site f => exact execRgreq_wf site f s hs
  | lqpush site f => exact execLqpush_wf site f s hs
  | rrpop site f => exact execRrpop_wf site f s hs
  | sendDelivery request => exact execSendDelivery_wf request s hs
  | grantRequest request answer => exact execGrantRequest_wf request answer s hs
  | timetableRecordArrival request => exact execTimetableRecordArrival_wf request s hs
  | route site f => exact execRoute_wf site f s hs
  | fork site f => exact execFork_wf site f s hs
  | steer site f => exact execSteer_wf site f s hs
  | merge site f => exact execMerge_wf site f s hs
  | carry site f => exact execCarry_wf site f s hs
  | invar site f => exact execInvar_wf site f s hs
  | join site f => exact execJoin_wf site f s hs
  | drop site f => exact execDrop_wf site f s hs
  | part site f => exact execPart_wf site f s hs
  | comb site f => exact execComb_wf site f s hs
  | tokenHop cell port vc => exact execTokenHop_wf cell port vc s hs
  | decoupledResultDelivery request => exact execDecoupledResultDelivery_wf request s hs
  | remoteRequest request answer => exact execRemoteRequest_wf request answer s hs
  | pageWalk request => exact execPageWalk_wf request s hs
  | hbmRequest request => exact execHbmRequest_wf request s hs
  | responseTimeout request => exact execResponseTimeout_wf request s hs
  | fenceComplete request => exact execFenceComplete_wf request s hs
  | invalidationComplete die => exact execInvalidationComplete_wf die s hs
  | tokenCountTrigger cell => exact execTokenCountTrigger_wf cell s hs
  | phaseAdvance site => exact execPhaseAdvance_wf site s hs
  | reductionTimeout site => exact execReductionTimeout_wf site s hs
  | accz site f => exact execAccz_wf site f s hs
  | accrd site f => exact execAccrd_wf site f s hs
  | accst site f => exact execAccst_wf site f s hs
  | accld site f => exact execAccld_wf site f s hs
  | redp site f => exact execRedp_wf site f s hs
  | redw site f => exact execRedw_wf site f s hs
  | slewStep sector => exact execSlewStep_wf sector s hs
  | matrixProductComplete product => exact execMatrixProductComplete_wf product s hs
  | cfgNop sector source value => exact execCfgNop_wf sector source value s hs
  | cfgBegin sector source value => exact execCfgBegin_wf sector source value s hs
  | cfgOrigin sector source value => exact execCfgOrigin_wf sector source value s hs
  | cfgBank sector source value => exact execCfgBank_wf sector source value s hs
  | cfgSeal sector source value => exact execCfgSeal_wf sector source value s hs
  | cfgLit sector source value => exact execCfgLit_wf sector source value s hs
  | cfgSwap sector source value => exact execCfgSwap_wf sector source value s hs
  | cfgWrite sector source cell field value => exact execCfgWrite_wf sector source cell field value s hs
  | placementStep die => exact execPlacementStep_wf die s hs
  | parkReserve inst => exact execParkReserve_wf inst s hs
  | drainPointReached inst => exact execDrainPointReached_wf inst s hs
  | planeFlip inst => exact execPlaneFlip_wf inst s hs
  | swapTokenArrival sector => exact execSwapTokenArrival_wf sector s hs
  | patchClear inst => exact execPatchClear_wf inst s hs
  | slateAllotmentReset allotment => exact execSlateAllotmentReset_wf allotment s hs
  | sectorOutOfServiceRequest => exact execSectorOutOfServiceRequest_wf s hs
  | sectorReturnRequest => exact execSectorReturnRequest_wf s hs
  | ratioRequest => exact execRatioRequest_wf s hs
  | gatingSequence sector => exact execGatingSequence_wf sector s hs
  | calibComplete => exact execCalibComplete_wf s hs
  | calibTimeout sector => exact execCalibTimeout_wf sector s hs
  | ratioChange sector => exact execRatioChange_wf sector s hs
  | ratioChangeComplete sector => exact execRatioChangeComplete_wf sector s hs
  | meterInterval => exact execMeterInterval_wf s hs
  | almanacUpdate => exact execAlmanacUpdate_wf s hs
  | powerMonitorSample => exact execPowerMonitorSample_wf s hs
  | sensorOvertemp => exact execSensorOvertemp_wf s hs
  | converterFault => exact execConverterFault_wf s hs
  | powerBrakeAssert => exact execPowerBrakeAssert_wf s hs
  | powerBrakeRelease => exact execPowerBrakeRelease_wf s hs
  | deviceReset => exact execDeviceReset_wf s hs
  | faultRecordWrite die => exact execFaultRecordWrite_wf die s hs
  | faultQueueRetry die => exact execFaultQueueRetry_wf die s hs
  | fnoteRead => exact execFnoteRead_wf s hs
  | holdLimitExpiry die hid => exact execHoldLimitExpiry_wf die hid s hs
  | watchdogExpiry inst => exact execWatchdogExpiry_wf inst s hs
  | drainLimitExpiry inst => exact execDrainLimitExpiry_wf inst s hs
  | scrubPass kind place address uncorrectable => exact execScrubPass_wf kind place address uncorrectable s hs
  | portEnable => exact execPortEnable_wf s hs
  | trainingComplete => exact execTrainingComplete_wf s hs
  | peerPortDown => exact execPeerPortDown_wf s hs
  | wmaxWrite => exact execWmaxWrite_wf s hs
  | laneError => exact execLaneError_wf s hs
  | retrainComplete => exact execRetrainComplete_wf s hs
  | widthRegainTest => exact execWidthRegainTest_wf s hs
  | widthFlitReceive => exact execWidthFlitReceive_wf s hs
  | flitReceive => exact execFlitReceive_wf s hs
  | nakReceive => exact execNakReceive_wf s hs
  | idleReceive => exact execIdleReceive_wf s hs
  | replayExhausted port => exact execReplayExhausted_wf port s hs
  | registerWrite => exact execRegisterWrite_wf s hs
  | hostHbmAccess => exact execHostHbmAccess_wf s hs
  | xgQpop die rd rs1 rs2 => exact execXgQpop_wf die rd rs1 rs2 s hs
  | xgQpeek die rd rs1 rs2 => exact execXgQpeek_wf die rd rs1 rs2 s hs
  | xgRpush die rd rs1 rs2 => exact execXgRpush_wf die rd rs1 rs2 s hs
  | xgGsetRead die rd rs1 rs2 => exact execXgGsetRead_wf die rd rs1 rs2 s hs
  | xgGsetSetexp die rd rs1 rs2 => exact execXgGsetSetexp_wf die rd rs1 rs2 s hs
  | xgGsetSetbase die rd rs1 rs2 => exact execXgGsetSetbase_wf die rd rs1 rs2 s hs
  | xgGsetOpen die rd rs1 rs2 => exact execXgGsetOpen_wf die rd rs1 rs2 s hs
  | xgGsetClose die rd rs1 rs2 => exact execXgGsetClose_wf die rd rs1 rs2 s hs
  | xgTlnch die rd rs1 rs2 => exact execXgTlnch_wf die rd rs1 rs2 s hs
  | xgCfgw die rd rs1 rs2 => exact execXgCfgw_wf die rd rs1 rs2 s hs
  | xgWfe die rd rs1 rs2 => exact execXgWfe_wf die rd rs1 rs2 s hs
  | xgWfeTimeout die rd rs1 rs2 => exact execXgWfeTimeout_wf die rd rs1 rs2 s hs
  | xgEvsig die rd rs1 rs2 => exact execXgEvsig_wf die rd rs1 rs2 s hs
  | getVersion => exact execGetVersion_wf s hs
  | getCapabilities => exact execGetCapabilities_wf s hs
  | negotiateAlgorithms => exact execNegotiateAlgorithms_wf s hs
  | getDigests => exact execGetDigests_wf s hs
  | getCertificate => exact execGetCertificate_wf s hs
  | challenge => exact execChallenge_wf s hs
  | getMeasurements => exact execGetMeasurements_wf s hs
  | stage => exact execStage_wf s hs
  | activate => exact execActivate_wf s hs
  | firmwareHandover => exact execFirmwareHandover_wf s hs
  | activateTimeout => exact execActivateTimeout_wf s hs
  | status => exact execStatus_wf s hs
  | thermcfg => exact execThermcfg_wf s hs
  | time => exact execTime_wf s hs
  | freeze => exact execFreeze_wf s hs
  | frzNAssert => exact execFrzNAssert_wf s hs
  | frzNRelease => exact execFrzNRelease_wf s hs
  | proctorFreezeRequest => exact execProctorFreezeRequest_wf s hs
  | frzrel => exact execFrzrel_wf s hs
  | tapReadout => exact execTapReadout_wf s hs
  | gen site f => exact execGen_wf site f s hs
  | gen2 site f => exact execGen2_wf site f s hs
  | cnt site f => exact execCnt_wf site f s hs
  | acc site f => exact execAcc_wf site f s hs
  | scan site f => exact execScan_wf site f s hs
  | filt site f => exact execFilt_wf site f s hs
  | take site f => exact execTake_wf site f s hs
  | skip site f => exact execSkip_wf site f s hs
  | rept site f => exact execRept_wf site f s hs
  | mklast site f => exact execMklast_wf site f s hs
  | done site f => exact execDone_wf site f s hs
  | waitd site f => exact execWaitd_wf site f s hs
  | iter site f => exact execIter_wf site f s hs
  | trig site f => exact execTrig_wf site f s hs
  | nop site f => exact execNop_wf site f s hs
  | sreg site f => exact execSreg_wf site f s hs
  | swreg site f => exact execSwreg_wf site f s hs
  | trap site f => exact execTrap_wf site f s hs
  | brk site f => exact execBrk_wf site f s hs
  | yield site f => exact execYield_wf site f s hs
  | exit site f => exact execExit_wf site f s hs
  | assert site f => exact execAssert_wf site f s hs
  | clock site f => exact execClock_wf site f s hs
  | perf site f => exact execPerf_wf site f s hs
  | swapreq site f => exact execSwapreq_wf site f s hs
  | poison site f => exact execPoison_wf site f s hs

theorem runTaken_wf (t : Taken) (ht : Taken.Wf t) : OutcomeWf (runTaken t) := by
  cases t with
  | run i s => exact exec_wf i s ht
  | idle s => exact ht

/-- A step is the next turn's advance of the clocks, and then what its agent takes. -/
theorem step_wf (s : State) (hs : MemoryWf s) : OutcomeWf (step s) := by
  unfold step
  extract_lets e
  have he : MemoryWf e.2 := State.wf_of_mem_eq hs (State.nextTurn_mem s)
  exact runTaken_wf _ (State.take_wf _ _ (State.advance_wf _ _ he))

end Sys2Proof.Machine

namespace Sys2Proof
open Machine

/-- Settles O8, through one lemma per operation of the model on what it does to memory. -/
theorem stepKeepsMemoryCanonical : Obligations.StepKeepsMemoryCanonical := by
  intro s t hs ht
  have h := step_wf s hs
  rw [ht] at h
  exact h

end Sys2Proof
end

