-- ==== Sys2Proof/Proofs/TurnTaken.lean ====
section
/-! Settles O6: what each agent takes on its turn, and so what a step runs. -/

namespace Sys2Proof.Machine
open Sys2Proof

/-! The step, by what its turn's agent takes. -/

theorem step_of_nextTurn {s s0 : State} {u : Turn} {g : Agent} (h : s.nextTurn = (u, s0)) (hg : u.agent = g) :
    step s = runTaken ((s0.advance u).take g) := by
  simp only [step, h, hg]

@[simp] theorem runTaken_run (i : Instr) (s : State) : runTaken (.run i s) = exec i s := rfl

@[simp] theorem runTaken_idle (s : State) : runTaken (.idle s) = .next s := rfl

/-! The next turn. -/

/-- Turns are taken from the list when no access of the host that a freeze held up comes first (R342). -/
theorem State.nextTurn_listed {s : State} {u : Turn} {rest : List Turn} (ht : s.turns = u :: rest)
    (hd : s.frozen = true ∨ s.deferred = []) : s.nextTurn = (u, { s with turns := rest }) := by
  have hnone : (if s.frozen then [] else s.deferred) = [] := by
    obtain hf | hd := hd
    · simp [hf]
    · simp [hd]
  simp only [State.nextTurn, hnone, ht]

theorem State.nextTurn_deferred {s : State} {u : Turn} {rest : List Turn} (hf : s.frozen = false)
    (hd : s.deferred = u :: rest) : s.nextTurn = (u, { s with deferred := rest }) := by
  simp [State.nextTurn, hf, hd]

/-! Processing elements, route entries and events. -/

/-- The slot a PE takes is the one of R52, unless a token of another version stands at a head (R370). -/
theorem State.take_pe_ready {s : State} {cell slot : Nat} {i : Instr} (hf : s.staleFault cell = none)
    (hs : s.peSlot cell = some slot) (hi : s.slotInstr cell slot = some i) : s.take (.pe cell) = .run i s := by
  simp [State.take, hf, hs, hi]

theorem State.take_pe_stale {s : State} {cell k : Nat} {i : Inst} {x : Token} (hr : s.runsAt cell = some i)
    (hx : s.staleSlot cell = some (k, x)) :
    s.take (.pe cell) = .idle (s.fireFault i cell k ⟨0x0131, 1, false, x.bits, 0⟩) := by
  simp [State.take, State.staleFault, hr, hx]

theorem State.take_entry_ready {s : State} {cell e : Nat} {i : Instr} (hf : s.staleEntry cell e = none)
    (hi : s.entryInstr cell e = some i) : s.take (.entry cell e) = .run i s := by
  simp [State.take, hf, hi]

theorem State.take_entry_stale {s t : State} {cell e : Nat} (hf : s.staleEntry cell e = some t) :
    s.take (.entry cell e) = .idle t := by
  simp [State.take, hf]

theorem State.take_event {s : State} {i : Instr} (h : encode i = none) : s.take (.event i) = .run i s := by
  simp [State.take, h]

theorem State.take_loader (s : State) (k : Nat) : s.take (.loader k) = s.takeCommand k := rfl

/-! Loaders. -/

theorem State.commandOf_decoded {s : State} {k : Fin 64} {src : LoadSource} {w : BitVec 32} {i : Instr}
    (h : decodeConfig k src (s.isLit k.val src) w = .ok i) : s.commandOf k src w = i := by
  simp [State.commandOf, h]

/-- An accepted command leaves the loader's queue and runs (R65). -/
theorem State.takeCommand_queued {s : State} {k : Fin 64} {src : LoadSource} {w : BitVec 32} {r : List (LoadSource × BitVec 32)}
    {i : Instr} (hq : ((s.bringCommand k.val).sector k.val).loader.queue = (src, w) :: r)
    (ha : (s.bringCommand k.val).loaderTakes k.val src
      ((s.bringCommand k.val).isBegin k.val src (w.toNat / 2 ^ 24) (bitsN w.toNat 23 16)) = true)
    (hi : decodeConfig k src ((s.bringCommand k.val).isLit k.val src) w = .ok i) :
    s.takeCommand k.val = .run i ((s.bringCommand k.val).updLoader k.val (fun l => { l with queue := r })) := by
  simp only [State.takeCommand, k.isLt, hq, ha, State.commandOf_decoded hi, dif_pos, Bool.true_eq_false, if_false]

theorem State.takeCommand_empty {s : State} {k : Fin 64} (hq : ((s.bringCommand k.val).sector k.val).loader.queue = []) :
    s.takeCommand k.val = (s.bringCommand k.val).takeTimetable k := by
  simp only [State.takeCommand, k.isLt, hq, dif_pos]

/-- The word of the Timetable's stream as the loader runs it: an ORIGIN names the patch placed (R195). -/
theorem State.takeTimetable_sends {s : State} {k : Fin 64} {x : TtLoad} {j : Inst} {jb : Job} {w : Nat} {i : Instr}
    (ht : s.ttSends k.val = some (x, j, jb)) (hw : s.ttFetch j jb x = .ok w)
    (ha : s.loaderTakes k.val .timetable (s.isControl k.val .timetable w 1) = true)
    (hseal : s.isControl k.val .timetable w 4 = false)
    (hi : decodeConfig k .timetable (s.isLit k.val .timetable)
      (BitVec.ofNat 32 (if s.isControl k.val .timetable w 2 then w / 65536 * 65536 + j.y0 * 256 + j.x0 else w)) = .ok i) :
    s.takeTimetable k = .run i s := by
  simp only [State.takeTimetable, ht, hw, ha, hseal, State.commandOf_decoded hi, Bool.true_eq_false, Bool.false_eq_true, if_false]

/-! Pilots. -/

/-- The decoder gives an `xg.wfe` the die it decodes for and the rs2 of the word. -/
theorem decodePilot_xgWfe {d e : Fin 4} {op : Nat} {w : BitVec 32} {rd rs1 rs2 : BitVec 5}
    (h : decodePilot d op w = .ok (.xgWfe e rd rs1 rs2)) : e = d ∧ rs2 = BitVec.ofNat 5 (bitsN w.toNat 24 20) := by
  simp only [decodePilot] at h
  (repeat' split at h) <;> cases h
  exact ⟨rfl, rfl⟩

/-- A Pilot that runs fetches, with no interrupt before it and its bytes present and correctable (R22, R351, R358). -/
structure State.PilotFetches (s : State) (d : Nat) : Prop where
  runs : s.pilotRuns d = true
  quiet : s.pilotInterrupt d = false
  present : ∀ n ∈ [2, 4], s.pilotPresent (s.pilot d).pc.toNat n = true
  sound : ∀ n ∈ [2, 4], s.pilotFetchBad (s.pilot d).pc.toNat n = false

/-- The bytes of the word a Pilot fetches, two or four, are sound. -/
theorem State.PilotFetches.sound_length {s : State} {d : Nat} (h : s.PilotFetches d) :
    s.pilotFetchBad (s.pilot d).pc.toNat (if bitsN (s.pilotWordAt d).toNat 1 0 = 3 then 4 else 2) = false := by
  split
  · exact h.sound 4 (by simp)
  · exact h.sound 2 (by simp)

theorem State.takePilot_base {s : State} {d : Fin 4} (h : s.PilotFetches d.val)
    (hw : bitsN (s.pilotWordAt d.val).toNat 6 0 ≠ 0x0B) : s.takePilot d.val = s.takeBase d.val := by
  simp [State.takePilot, h.runs, h.quiet, h.present, h.sound_length, hw]

/-- The time of an `xg.wfe` that waits has passed, with nothing to wake it (R313). -/
def State.wfeDue (s : State) (d : Nat) (rs1 : BitVec 5) : Bool :=
  match (s.pilot d).wfeSince with
  | some t => decide (s.pilotReg d rs1 ≠ 0) && decide (t + pilotUnits (s.pilotReg d rs1) ≤ s.now) && (s.pilot d).event.isEmpty &&
      !(s.dieAt d).meip
  | none => false

/-- What a Pilot makes of the instruction of a custom-0 word: XG_WFE_TIMEOUT of an `xg.wfe` that is due (R313). -/
def State.orTimeout (s : State) (d : Nat) : Instr → Instr
  | .xgWfe e rd rs1 rs2 => if s.wfeDue d rs1 then .xgWfeTimeout e rd rs1 rs2 else .xgWfe e rd rs1 rs2
  | i => i

theorem State.orTimeout_waiting {s : State} {d : Nat} (h : (s.pilot d).wfeSince = none) (i : Instr) : s.orTimeout d i = i := by
  unfold State.orTimeout
  split
  · simp [State.wfeDue, h]
  · rfl

theorem State.orTimeout_of_ne {s : State} {d : Nat} {i : Instr} (h : ∀ e rd rs1 rs2, i ≠ .xgWfe e rd rs1 rs2) :
    s.orTimeout d i = i :=
  State.orTimeout.eq_2 s d i h

/-- A decoded `xg.wfe` is of the die it is decoded for, so another instruction is none of any die. -/
theorem State.orTimeout_decoded {s : State} {d : Fin 4} {op : Nat} {w : BitVec 32} {i : Instr} (hi : decodePilot d op w = .ok i)
    (h : ∀ rd rs1 rs2, i ≠ .xgWfe d rd rs1 rs2) : s.orTimeout d.val i = i := by
  apply State.orTimeout_of_ne
  rintro e rd rs1 rs2 rfl
  obtain ⟨rfl, -⟩ := decodePilot_xgWfe hi
  exact h _ _ _ rfl

theorem State.orTimeout_due {s : State} {d : Nat} {rs1 : BitVec 5} (h : s.wfeDue d rs1 = true) (e : Fin 4) (rd rs2 : BitVec 5) :
    s.orTimeout d (.xgWfe e rd rs1 rs2) = .xgWfeTimeout e rd rs1 rs2 := by
  simp [State.orTimeout, h]

/-- A custom-0 word runs as what it decodes to, but for an `xg.wfe` that is due (R313). -/
theorem State.takePilot_custom {s : State} {d : Fin 4} {i : Instr} (h : s.PilotFetches d.val)
    (hw : bitsN (s.pilotWordAt d.val).toNat 6 0 = 0x0B)
    (hi : decodePilot d (bitsN (s.pilotReg d.val (BitVec.ofNat 5 (bitsN (s.pilotWordAt d.val).toNat 24 20))) 11 8)
      (s.pilotWordAt d.val) = .ok i) : s.takePilot d.val = .run (s.orTimeout d.val i) s := by
  unfold State.takePilot
  rw [dif_pos d.isLt, if_neg (by simp [h.runs]), if_neg (by simp [h.quiet]), if_neg (by simp [h.present]),
    if_neg (by simp [h.sound_length])]
  extract_lets w rs2
  rw [if_neg (not_not.mpr hw)]
  split
  · rename_i hd
    cases hd.symm.trans hi
  · rename_i hd
    cases hd.symm.trans hi
    obtain ⟨rfl, hr⟩ := decodePilot_xgWfe hi
    rw [hr]
    rfl
  · rename_i hne hd
    cases hd.symm.trans hi
    rw [State.orTimeout_of_ne hne]

theorem State.takeBase_full {s : State} {d : Nat} (hw : bitsN (s.pilotWordAt d).toNat 1 0 = 3) :
    s.takeBase d = .idle (s.rvExec d 4 (s.pilotWordAt d).toNat) := by
  have h3 : (s.pilotWordAt d).toNat % 4 = 3 := by simpa [bitsN] using hw
  simp only [State.takeBase, h3, if_true]

theorem State.takeBase_compressed {s : State} {d x : Nat} (hw : bitsN (s.pilotWordAt d).toNat 1 0 ≠ 3)
    (hx : expandC ((s.pilotWordAt d).toNat % 65536) = some x) : s.takeBase d = .idle (s.rvExec d 2 x) := by
  have h3 : (s.pilotWordAt d).toNat % 4 ≠ 3 := by simpa [bitsN] using hw
  simp only [State.takeBase, h3, hx, if_false]

/-- A word whose low two bits are not 11 is not of custom-0. -/
theorem not_custom0_of_compressed {w : Nat} (h : bitsN w 1 0 ≠ 3) : bitsN w 6 0 ≠ 0x0B := by
  simp only [bitsN] at h ⊢
  omega

end Sys2Proof.Machine

namespace Sys2Proof
open Machine

/-- Settles O6: each agent's turn, by the lemma that says what the agent takes. -/
theorem stepRunsDecodedInstruction : Obligations.StepRunsDecodedInstruction := by
  refine ⟨fun s s0 u hn => ?_, fun s u rest => ⟨fun ht hd => ?_, fun hf hd => ?_⟩⟩
  · have hstep : ∀ {g}, u.agent = g → step s = runTaken ((s0.advance u).take g) := step_of_nextTurn hn
    intro a g
    refine ⟨fun cell slot i hg hf hs hi => ?_, fun cell i k x hg hr hx => ?_, fun cell e i hg hf hi => ?_,
      fun cell e t hg hf => ?_, fun k src w r i hg hq ha hi => ?_, fun k x j jb w i hg hq ht hw ha hseal hi => ?_,
      fun d hg hr hq hp2 hp4 hb2 hb4 => ?_, fun i hg he => ?_⟩
    · rw [hstep hg, State.take_pe_ready hf hs hi, runTaken_run]
    · rw [hstep hg, State.take_pe_stale hr hx, runTaken_idle]
    · rw [hstep hg, State.take_entry_ready hf hi, runTaken_run]
    · rw [hstep hg, State.take_entry_stale hf, runTaken_idle]
    · rw [hstep hg, State.take_loader, State.takeCommand_queued hq ha hi, runTaken_run]
    · rw [hstep hg, State.take_loader, State.takeCommand_empty hq, State.takeTimetable_sends ht hw ha hseal hi, runTaken_run]
    · have hfetch : a.PilotFetches d.val := ⟨hr, hq, by simp [hp2, hp4], by simp [hb2, hb4]⟩
      have hpilot : step s = runTaken (a.takePilot d.val) := hstep hg
      refine ⟨fun i hc hi => ?_, fun hfull hc => ?_, fun x hc hx => ?_⟩
      · rw [hpilot, State.takePilot_custom hfetch hc hi, runTaken_run]
        refine ⟨?_, ?_⟩
        · rintro (hne | hs)
          · rw [State.orTimeout_decoded hi hne]
          · rw [State.orTimeout_waiting hs]
        · rintro rd rs1 rs2 t rfl hs hr1 ht he hm
          rw [State.orTimeout_due (by simp [State.wfeDue, hs, hr1, ht, he, hm]), (decodePilot_xgWfe hi).2]
      · rw [hpilot, State.takePilot_base hfetch hc, State.takeBase_full hfull, runTaken_idle]
      · rw [hpilot, State.takePilot_base hfetch (not_custom0_of_compressed hc), State.takeBase_compressed hc hx, runTaken_idle]
    · rw [hstep hg, State.take_event he, runTaken_run]
  · exact State.nextTurn_listed ht hd
  · exact State.nextTurn_deferred hf hd

end Sys2Proof
end

