-- ==== Sys2Proof/Proofs/DeviceReset.lean ====
section
/-! Settles O60: what a reset of the package leaves. -/

namespace Sys2Proof.Machine
open Sys2Proof

/-- A sector at its reset value, but for the caps that a power brake sets (R341). -/
def Sector.IsReset (t : Sector) : Prop :=
  ∃ ratioCap boardCap, t = { Sector.reset with ratioCap := ratioCap, boardCap := boardCap }

theorem Sector.IsReset.applyCaps {t : Sector} (h : t.IsReset) (brake : Bool) : (t.applyCaps brake).IsReset := by
  obtain ⟨ratioCap, boardCap, rfl⟩ := h
  cases brake <;> exact ⟨_, _, rfl⟩

/-- The units of the package stand at their reset values, nothing runs and device time is 0 (R63, R343). -/
structure State.UnitsReset (s : State) : Prop where
  cells : s.cells = []
  sectors : ∀ k, (s.sector k).IsReset
  die : s.die = []
  ports : s.ports = []
  insts : s.insts = []
  jobs : s.jobs = []
  reqs : s.reqs = []
  cmds : s.cmds = []
  dev : s.dev = 0
  timeOff : s.timeOff = 0
  freezeRun : s.proctor.freezeRun = false

/-- A change of every sector that keeps sectors at their reset values keeps the package so. -/
theorem State.UnitsReset.eachSector {s : State} (h : s.UnitsReset) {f : Nat → Sector → Sector}
    (hf : ∀ k t, t.IsReset → (f k t).IsReset) : (s.eachSector f).UnitsReset := by
  refine List.foldlRecOn s.allSectors _ (motive := State.UnitsReset) h fun a ha j _ => ?_
  refine { ha with sectors := fun k => ?_ }
  obtain rfl | hne := eq_or_ne k j
  · rw [State.updSector_sector_same]
    exact hf k _ (ha.sectors k)
  · rw [State.updSector_sector_other _ _ _ _ hne]
    exact ha.sectors k

theorem State.resetPackage_unitsReset (s : State) (dies hbmStacks : Nat) (keep : Bool) :
    (s.resetPackage dies hbmStacks keep).UnitsReset := by
  unfold State.resetPackage
  extract_lets _ _ s1
  have h1 : s1.UnitsReset := ⟨rfl, fun _ => ⟨0, 0, rfl⟩, rfl, rfl, rfl, rfl, rfl, rfl, rfl, rfl, rfl⟩
  split
  · exact h1.eachSector fun _ _ ht => ht.applyCaps true
  · exact h1

@[simp] theorem State.eachSector_dies (s : State) (f : Nat → Sector → Sector) : (s.eachSector f).dies = s.dies :=
  List.foldlRecOn s.allSectors _ (motive := fun a : State => a.dies = s.dies) rfl fun _ ha _ _ => ha

@[simp] theorem State.eachSector_hbmStacks (s : State) (f : Nat → Sector → Sector) : (s.eachSector f).hbmStacks = s.hbmStacks :=
  List.foldlRecOn s.allSectors _ (motive := fun a : State => a.hbmStacks = s.hbmStacks) rfl fun _ ha _ _ => ha

@[simp] theorem State.resetPackage_dies (s : State) (dies hbmStacks : Nat) (keep : Bool) :
    (s.resetPackage dies hbmStacks keep).dies = dies := by
  simp only [State.resetPackage]
  split <;> simp

@[simp] theorem State.resetPackage_hbmStacks (s : State) (dies hbmStacks : Nat) (keep : Bool) :
    (s.resetPackage dies hbmStacks keep).hbmStacks = hbmStacks := by
  simp only [State.resetPackage]
  split <;> simp

/-! What units at their reset values read as. -/

theorem State.UnitsReset.cell {s : State} (h : s.UnitsReset) (c : Nat) : s.cell c = Cell.reset := by
  simp [State.cell, h.cells, Map.get]

theorem State.UnitsReset.dieAt {s : State} (h : s.UnitsReset) (d : Nat) : s.dieAt d = Die.reset := by
  simp [State.dieAt, h.die, Map.get]

theorem State.UnitsReset.port {s : State} (h : s.UnitsReset) (n : Nat) : s.port n = Port.reset := by
  simp [State.port, h.ports, Map.get]

theorem State.UnitsReset.deviceNs {s : State} (h : s.UnitsReset) : s.deviceNs = 0 := by
  simp [State.deviceNs, h.dev, h.timeOff]

/-- What DEVICE_RESET leaves beside the units: the straps are the input's (R18, R24), and memory stays (log 97). -/
theorem exec_deviceReset (s : State) : Gives .deviceReset s (fun t =>
    t.UnitsReset ∧ t.dies = s.input.size ∧ t.hbmStacks = s.input.index ∧ t.cut = s.input.port ∧ t.mem = s.mem) :=
  ⟨_, rfl, { s.resetPackage_unitsReset s.input.size s.input.index false with }, s.resetPackage_dies _ _ _,
    s.resetPackage_hbmStacks _ _ _, rfl, s.resetPackage_mem _ _ _⟩

end Sys2Proof.Machine

namespace Sys2Proof
open Machine

/-- Settles O60: the package's units are at their reset values, and these are the numbers of the rules. -/
theorem deviceResetLeaves : Obligations.DeviceResetLeaves := by
  intro s
  obtain ⟨t, ht, h, hdies, hstacks, hcut, hmem⟩ := exec_deviceReset s
  refine ⟨t, ht, hdies, hstacks, hcut, hmem, h.insts, h.jobs, h.reqs, h.cmds, h.deviceNs, h.freezeRun,
    fun c => ?_, fun k => ?_, fun n => ?_, fun d => ?_⟩
  · rw [h.cell c]
    exact ⟨rfl, rfl, rfl⟩
  · obtain ⟨_, _, hk⟩ := h.sectors k
    rw [hk]
    exact ⟨rfl, rfl, rfl, rfl⟩
  · rw [h.port n]
    exact ⟨rfl, rfl⟩
  · rw [h.dieAt d]
    exact ⟨rfl, fun _ => rfl, rfl, rfl, rfl, rfl, rfl, rfl⟩

end Sys2Proof
end

