-- ==== Sys2Proof/Proofs/TokenHops.lean ====
section
/-! Settles O49: what a hop of a token leaves in the cells at both ends of its link. -/

namespace Sys2Proof.Machine
open Sys2Proof

/-! FIFOs of a cell. -/

@[simp] theorem Cell.setLinkQ_linkQ_same (c : Cell) (port vc : Nat) (q : List LinkTok) :
    (c.setLinkQ port vc q).linkQ port vc = q := by
  simp [Cell.setLinkQ, Cell.linkQ]

@[simp] theorem Cell.setInFifo_inFifo_same (c : Cell) (port vc : Nat) (q : List Token) :
    (c.setInFifo port vc q).inFifo port vc = q := by
  simp [Cell.setInFifo, Cell.inFifo]

/-- What an update of a cell keeps of the cell, it keeps of every cell. -/
theorem State.updCell_cell_keeps {β : Type} {f : Cell → Cell} (g : Cell → β) (h : ∀ x, g (f x) = g x) (s : State) (c k : Nat) :
    g ((s.updCell c f).cell k) = g (s.cell k) := by
  obtain rfl | hne := eq_or_ne k c
  · rw [State.updCell_cell_same, h]
  · rw [State.updCell_cell_other _ _ _ _ hne]

/-! What a token's arrival leaves. -/

@[simp] theorem State.see_cell (s : State) (c time k : Nat) : (s.see c time).cell k = s.cell k := by
  simp only [State.see]
  split <;> rfl

@[simp] theorem State.seeNow_cell (s : State) (c k : Nat) : (s.seeNow c).cell k = s.cell k :=
  s.see_cell c s.now k

/-- The mark of an arrival changes the state of route entries, in the cell of the arrival (R408). -/
theorem State.markArrival_cell (s : State) (c port vc k : Nat) :
    ∃ routes, (s.markArrival c port vc).cell k = { s.cell k with routes := routes } := by
  unfold State.markArrival
  split
  · exact ⟨_, rfl⟩
  · refine List.foldlRecOn _ _ (motive := fun a : State => ∃ routes, a.cell k = { s.cell k with routes := routes }) ⟨_, rfl⟩ ?_
    rintro a ⟨routes, ha⟩ e -
    split
    · obtain rfl | hne := eq_or_ne k c
      · rw [State.updCell_cell_same, ha]
        exact ⟨_, rfl⟩
      · rw [State.updCell_cell_other _ _ _ _ hne]
        exact ⟨_, ha⟩
    · exact ⟨_, ha⟩

@[simp] theorem State.markArrival_inFifo (s : State) (c port vc k p v : Nat) :
    ((s.markArrival c port vc).cell k).inFifo p v = (s.cell k).inFifo p v := by
  obtain ⟨_, h⟩ := s.markArrival_cell c port vc k
  rw [h]
  rfl

@[simp] theorem State.markArrival_linkQ (s : State) (c port vc k p v : Nat) :
    ((s.markArrival c port vc).cell k).linkQ p v = (s.cell k).linkQ p v := by
  obtain ⟨_, h⟩ := s.markArrival_cell c port vc k
  rw [h]
  rfl

@[simp] theorem State.markArrival_active (s : State) (c port vc k : Nat) :
    ((s.markArrival c port vc).cell k).active = (s.cell k).active := by
  obtain ⟨_, h⟩ := s.markArrival_cell c port vc k
  rw [h]

theorem State.putThrough_inFifo (s : State) (i : Inst) (c port vc : Nat) (t : Token) :
    ((s.putThrough i c port vc t).cell c).inFifo port vc = (s.cell c).inFifo port vc ++ [t.restamp (s.cell c).active.ver] := by
  unfold State.putThrough
  rw [State.updInst_cell, State.updCell_cell_same]
  exact (Cell.setInFifo_inFifo_same _ _ _ _).trans (by simp)

theorem State.putThrough_linkQ (s : State) (i : Inst) (c port vc : Nat) (t : Token) (k p v : Nat) :
    ((s.putThrough i c port vc t).cell k).linkQ p v = (s.cell k).linkQ p v := by
  unfold State.putThrough
  rw [State.updInst_cell, ← s.markArrival_linkQ c port vc k p v]
  apply State.updCell_cell_keeps (fun x => x.linkQ p v)
  exact fun _ => rfl

/-! Links. -/

/-- A cell is no neighbour of its own. -/
theorem State.neighbour_ne {s : State} {c port n : Nat} (h : s.neighbour c port = some n) : n ≠ c := by
  unfold State.neighbour at h
  dsimp only at h
  split at h
  · rename_i m hm
    obtain rfl : m = n := by
      split at h
      · exact Option.some.inj h
      · cases h
    unfold cellOf cellX cellY at hm
    rintro rfl
    split at hm
    case h_5 => cases hm
    all_goals
      obtain ⟨hedge, hm⟩ := Option.ite_none_left_eq_some.mp hm
      have hcell := Option.some.inj hm
      omega
  · cases h

theorem State.crossLink_full {s : State} {cell port vc : Nat} (h : 2 ≤ s.linkSent cell port) : s.crossLink cell port vc = s :=
  if_pos (.inl h)

section
variable {s : State} {cell port vc : Nat} (hs : s.linkSent cell port < 2) (hn : s.linkNext cell port = some vc)
include hs hn

/-- The VC a link serves next sends its token, and the arbiter counts it (R50). -/
theorem State.crossLink_served :
    s.crossLink cell port vc = (if 24 ≤ vc then s.moveService cell port vc else s.moveToken cell port vc).updCell cell (fun x =>
      { x with arbs := Map.set LinkArb.reset x.arbs port ⟨s.cycle (sectorOfCell cell), s.linkSent cell port + 1, vc⟩ }) := by
  rw [State.crossLink, if_neg]
  simp [hn, hs]

theorem State.crossLink_arb : Map.get LinkArb.reset ((s.crossLink cell port vc).cell cell).arbs port =
    ⟨s.cycle (sectorOfCell cell), s.linkSent cell port + 1, vc⟩ := by
  simp [State.crossLink_served hs hn]

/-- Serving a VC of dataflow is moving its token, as far as the FIFOs go. -/
theorem State.crossLink_linkQ (hv : vc < 24) (k p v : Nat) :
    ((s.crossLink cell port vc).cell k).linkQ p v = ((s.moveToken cell port vc).cell k).linkQ p v := by
  rw [State.crossLink_served hs hn, if_neg (by omega)]
  apply State.updCell_cell_keeps (fun x => x.linkQ p v)
  exact fun _ => rfl

theorem State.crossLink_inFifo (hv : vc < 24) (k p v : Nat) :
    ((s.crossLink cell port vc).cell k).inFifo p v = ((s.moveToken cell port vc).cell k).inFifo p v := by
  rw [State.crossLink_served hs hn, if_neg (by omega)]
  apply State.updCell_cell_keeps (fun x => x.inFifo p v)
  exact fun _ => rfl

/-- Serving a VC of service traffic is moving its token, as far as the requests and the subscriptions go. -/
theorem State.crossLink_req (hv : 24 ≤ vc) (id : Nat) : (s.crossLink cell port vc).req id = (s.moveService cell port vc).req id := by
  rw [State.crossLink_served hs hn, if_pos hv]
  rfl

theorem State.crossLink_pair (hv : 24 ≤ vc) (id : Nat) : (s.crossLink cell port vc).pair id = (s.moveService cell port vc).pair id := by
  rw [State.crossLink_served hs hn, if_pos hv]
  rfl

theorem State.crossLink_reqs (hv : 24 ≤ vc) : (s.crossLink cell port vc).reqs = (s.moveService cell port vc).reqs := by
  rw [State.crossLink_served hs hn, if_pos hv, State.updCell_reqs]

end

/-! Tokens of dataflow. -/

section
variable {s : State} {cell port vc n : Nat} {i : Inst} {x : LinkTok} {rest : List LinkTok} (hn : s.neighbour cell port = some n)
  (hq : (s.cell cell).linkQ port vc = x :: rest) (hp : x.tok.parityOk = true) (hi : s.instAt n = some i)
include hn hq hp hi

/-- A sound token inside a patch joins the neighbour's input as it is (R17). -/
theorem State.moveToken_inside (hc : i.covers cell = true) :
    s.moveToken cell port vc = (((s.updCell cell (fun c => c.setLinkQ port vc rest)).seeNow n).markArrival n (oppositePort port) vc).updCell n
      (fun c => c.setInFifo (oppositePort port) vc (c.inFifo (oppositePort port) vc ++ [x.tok])) := by
  simp [State.moveToken, hn, hq, hp, hi, hc]

theorem State.moveToken_inside_linkQ (hc : i.covers cell = true) : ((s.moveToken cell port vc).cell cell).linkQ port vc = rest := by
  rw [State.moveToken_inside hn hq hp hi hc, State.updCell_cell_other _ _ _ _ (State.neighbour_ne hn).symm]
  simp

theorem State.moveToken_inside_inFifo (hc : i.covers cell = true) :
    ((s.moveToken cell port vc).cell n).inFifo (oppositePort port) vc = (s.cell n).inFifo (oppositePort port) vc ++ [x.tok] := by
  rw [State.moveToken_inside hn hq hp hi hc]
  simp [State.updCell_cell_other _ _ _ _ (State.neighbour_ne hn)]

/-- A sound token at a patch's boundary is admitted there (R43), unless a transit entry takes it. -/
theorem State.moveToken_boundary (hc : i.covers cell = false) (ht : (s.cell n).transitOut (oppositePort port) vc = none) :
    s.moveToken cell port vc =
      ((s.updCell cell (fun c => c.setLinkQ port vc rest)).seeNow n).putThrough i n (oppositePort port) vc x.tok := by
  simp [State.moveToken, hn, hq, hp, hi, hc, ht]

theorem State.moveToken_boundary_linkQ (hc : i.covers cell = false) (ht : (s.cell n).transitOut (oppositePort port) vc = none) :
    ((s.moveToken cell port vc).cell cell).linkQ port vc = rest := by
  rw [State.moveToken_boundary hn hq hp hi hc ht, State.putThrough_linkQ]
  simp

theorem State.moveToken_boundary_inFifo (hc : i.covers cell = false) (ht : (s.cell n).transitOut (oppositePort port) vc = none) :
    ((s.moveToken cell port vc).cell n).inFifo (oppositePort port) vc =
      (s.cell n).inFifo (oppositePort port) vc ++ [x.tok.restamp (s.cell n).active.ver] := by
  rw [State.moveToken_boundary hn hq hp hi hc ht, State.putThrough_inFifo, State.seeNow_cell,
    State.updCell_cell_other _ _ _ _ (State.neighbour_ne hn)]

end

/-! Service tokens. -/

/-- Looking up what an update by number changes. -/
theorem find?_update {α : Type} (key : α → Nat) (id : Nat) (f : α → α) (hf : ∀ a, key (f a) = key a) (l : List α) :
    (l.map (fun a => if key a = id then f a else a)).find? (fun a => key a == id) = (l.find? (fun a => key a == id)).map f := by
  induction l with
  | nil => rfl
  | cons a l ih =>
    by_cases ha : key a = id
    · simp [ha, hf]
    · simpa [ha] using ih

theorem State.updReq_req {s : State} {id : Nat} {r : Req} {f : Req → Req} (hf : ∀ q, (f q).id = q.id) (h : s.req id = some r) :
    (s.updReq id f).req id = some (f r) :=
  (find?_update Req.id id f hf s.reqs).trans (congrArg (Option.map f) h)

theorem State.updPair_pair {s : State} {id : Nat} {p : Pair} {f : Pair → Pair} (hf : ∀ q, (f q).id = q.id) (h : s.pair id = some p) :
    (s.updPair id f).pair id = some (f p) :=
  (find?_update Pair.id id f hf s.pairs).trans (congrArg (Option.map f) h)

section
variable {s : State} {cell port vc id : Nat} {m : MeshTok} (hm : s.meshHead cell port vc = some m)
include hm

/-- A request has then come one link further (R45). -/
theorem State.moveService_req {r : Req} (hr : m.ref = .req id) (hid : s.req id = some r) :
    (s.moveService cell port vc).req id = some { r with hops := r.hops + 1, hopAt := s.now, arrived := s.fresh.1 } := by
  simp only [State.moveService, hm, hr, Option.map_some]
  exact State.updReq_req (s := s.fresh.2) (fun _ => rfl) hid

theorem State.moveService_update {k : Nat} (hr : m.ref = .update id k) :
    s.moveService cell port vc = s.updPair id (fun p =>
      { p with queue := p.queue.modify k (fun u => { u with hops := u.hops + 1, hopAt := s.now }) }) := by
  simp [State.moveService, hm, hr]

/-- An update of a subscription has then come one link further (R45). -/
theorem State.moveService_pair {k : Nat} {p : Pair} {u : Update} (hr : m.ref = .update id k) (hid : s.pair id = some p)
    (hk : p.queue[k]? = some u) : (s.moveService cell port vc).pair id = some
      { p with queue := p.queue.set k { u with hops := u.hops + 1, hopAt := s.now } } := by
  have hset : p.queue.set k { u with hops := u.hops + 1, hopAt := s.now } =
      p.queue.modify k (fun u => { u with hops := u.hops + 1, hopAt := s.now }) := by
    rw [List.modify_eq_set_getElem?, hk]
    rfl
  rw [State.moveService_update hm hr, hset]
  exact State.updPair_pair (fun _ => rfl) hid

end

/-! Transit entries. -/

theorem State.held_of_hold_none {s : State} {i : Inst} (h : i.hold = none) : s.held i = false := by
  simp [State.held, h]

theorem State.inPop_inFifo (s : State) (cell port vc : Nat) :
    ((s.inPop cell (port, vc)).cell cell).inFifo port vc = ((s.cell cell).inFifo port vc).tail := by
  simp only [State.inPop, State.updCell_cell_same]
  exact Cell.setInFifo_inFifo_same _ _ _ _

@[simp] theorem State.inPop_cycle (s : State) (cell : Nat) (i : Nat × Nat) (k : Nat) : (s.inPop cell i).cycle k = s.cycle k := rfl

/-- A token sent to the PE's channel is on its way there, to land a cycle later (R51, R185). -/
theorem State.routeOut_channel_flight (s : State) (cell vc : Nat) (t : Token) :
    ∃ y ∈ ((s.routeOut cell (4, vc) t 0).cell cell).flight, y.dst = .chan vc ∧ y.due = s.cycle (sectorOfCell cell) + 1 ∧ y.tok = some t := by
  simp [State.routeOut]

theorem State.routeOut_channel_inFifo (s : State) (cell vc : Nat) (t : Token) (k p v : Nat) :
    ((s.routeOut cell (4, vc) t 0).cell k).inFifo p v = (s.cell k).inFifo p v := by
  simp only [State.routeOut, if_true]
  apply State.updCell_cell_keeps (fun x => x.inFifo p v)
  exact fun _ => rfl

section
variable {s : State} {cell port vc ovc : Nat} {i : Inst} {x : Token} {rest : List Token} (hf : s.frozen = false)
  (ho : (s.cell cell).transitOut port vc = some (4, ovc)) (hq : (s.cell cell).inFifo port vc = x :: rest)
  (hr : s.sectorRuns (sectorOfCell cell) = true) (hc : s.hasCredit cell (4, ovc) = true) (hi : s.instAt cell = some i)
  (hh : i.hold = none) (hp : i.parked = false) (hb : s.boundaryOpen i cell 4 ovc = true)
include hf ho hq hr hc hi hh hp hb

/-- A transit entry to the PE takes the head of its input and sends it, under the cell's version (R43, R154). -/
theorem State.transitStep_channel : s.transitStep cell port vc =
    (((s.inPop cell (port, vc)).updCell cell (fun c =>
      { c with boundary := Map.set false c.boundary (pvKey 4 ovc) (x.kind == .data || x.kind == .poison) })).routeOut cell (4, ovc)
        (x.restamp (s.cell cell).active.ver) 0).updInst i.id (fun j => { j with lastActive := s.dev }) := by
  simp [State.transitStep, ho, hq, hf, hr, hc, hi, State.held_of_hold_none hh, hp, hb]

theorem State.transitStep_channel_inFifo : ((s.transitStep cell port vc).cell cell).inFifo port vc = rest := by
  rw [State.transitStep_channel hf ho hq hr hc hi hh hp hb, State.updInst_cell, State.routeOut_channel_inFifo, State.updCell_cell_same]
  exact (s.inPop_inFifo cell port vc).trans (congrArg List.tail hq)

theorem State.transitStep_channel_flight :
    ∃ y ∈ ((s.transitStep cell port vc).cell cell).flight, y.dst = .chan ovc ∧ y.due = s.cycle (sectorOfCell cell) + 1 ∧
      y.tok = some (x.restamp (s.cell cell).active.ver) := by
  rw [State.transitStep_channel hf ho hq hr hc hi hh hp hb, State.updInst_cell]
  exact State.routeOut_channel_flight _ _ _ _

end

/-! The instruction. -/

theorem exec_tokenHop_link (s : State) (cell vc : Nat) {port : Nat} (h : port < 4) :
    exec (.tokenHop cell port vc) s = .next (s.crossLink cell port vc) :=
  congrArg Host.Outcome.next (if_pos h)

theorem exec_tokenHop_transit (s : State) (cell port vc : Nat) :
    exec (.tokenHop cell (8 + port) vc) s = .next (s.transitStep cell port vc) := by
  have h : execTokenHop cell (8 + port) vc s = .next (s.transitStep cell port vc) := by
    rw [execTokenHop, if_neg (by omega), if_pos (by omega), Nat.add_sub_cancel_left]
  exact h

end Sys2Proof.Machine

namespace Sys2Proof
open Machine

/-- Settles O49: a token of dataflow inside a patch and at its boundary, a service token, a full link, and a transit entry. -/
theorem tokensHop : Obligations.TokensHop := by
  intro s cell vc i hf hh hp
  refine ⟨fun port n x rest hport hvc hn hq _ _ _ hpar hi hs hnext => ⟨fun hc => ?_, fun hc ht _ => ?_⟩,
    fun port n m hport hvc hn hm hs hnext => ⟨fun id r hr hid => ?_, fun id k p u hr hid hk => ?_⟩,
    fun port hport hs => ?_, fun port x rest ovc hport ho hq hr hc hi hb => ?_⟩
  · refine ⟨_, exec_tokenHop_link s cell vc hport, ?_, ?_, State.crossLink_arb hs hnext, s.crossLink_mem cell port vc⟩
    · rw [State.crossLink_linkQ hs hnext hvc]
      exact State.moveToken_inside_linkQ hn hq hpar hi hc
    · rw [State.crossLink_inFifo hs hnext hvc]
      exact State.moveToken_inside_inFifo hn hq hpar hi hc
  · refine ⟨_, exec_tokenHop_link s cell vc hport, ?_, ?_⟩
    · rw [State.crossLink_linkQ hs hnext hvc]
      exact State.moveToken_boundary_linkQ hn hq hpar hi hc ht
    · rw [State.crossLink_inFifo hs hnext hvc]
      exact State.moveToken_boundary_inFifo hn hq hpar hi hc ht
  · exact ⟨_, exec_tokenHop_link s cell vc hport,
      ⟨_, (State.crossLink_req hs hnext hvc id).trans (State.moveService_req hm hr hid), rfl, rfl, rfl, rfl⟩,
      State.crossLink_arb hs hnext, s.crossLink_mem cell port vc⟩
  · refine ⟨_, exec_tokenHop_link s cell vc hport,
      ⟨_, (State.crossLink_pair hs hnext hvc id).trans (State.moveService_pair hm hr hid hk), rfl⟩,
      State.crossLink_arb hs hnext, ?_, s.crossLink_mem cell port vc⟩
    rw [State.crossLink_reqs hs hnext hvc, State.moveService_update hm hr, State.updPair_reqs]
  · rw [exec_tokenHop_link s cell vc hport, State.crossLink_full hs]
  · exact ⟨_, exec_tokenHop_transit s cell port vc, State.transitStep_channel_inFifo hf ho hq hr hc hi hh hp hb,
      State.transitStep_channel_flight hf ho hq hr hc hi hh hp hb⟩

end Sys2Proof
end

