-- ==== Sys2Proof/Proofs/ResultKind.lean ====
section
/-! The kind of a result, told by its operands (R44). -/
namespace Sys2Proof.Machine
open Sys2Proof

/-- The operands a firing consumes: those a channel gives up, with a token there. -/
def consumedTokens (ops : List Operand) : List Token :=
  ops.filterMap (fun o => if o.chan.any (fun c => c.2) then o.tok else none)

theorem find_poison_none {ops : List Operand} (h : ∀ o ∈ ops, ∀ t, o.tok = some t → t.kind ≠ .poison) :
    (ops.filterMap (fun o => o.tok)).find? (fun t => t.kind == .poison) = none := by
  rw [List.find?_eq_none]
  intro t ht
  obtain ⟨o, ho, hot⟩ := List.mem_filterMap.mp ht
  simpa using h o ho t hot

/-- The first POISON decides (R44). -/
theorem resultKind_poison {pre post : List Operand} {o : Operand} {t : Token}
    (hpre : ∀ q ∈ pre, ∀ u, q.tok = some u → u.kind ≠ .poison) (ho : o.tok = some t) (ht : t.kind = .poison) :
    resultKind (pre ++ o :: post) = some (.poison, t.payload) := by
  have hfind : ((pre ++ o :: post).filterMap (fun o => o.tok)).find? (fun t => t.kind == .poison) = some t := by
    rw [List.filterMap_append, List.find?_append, find_poison_none hpre, List.filterMap_cons_some ho,
      List.find?_cons_of_pos (by simp [ht])]
    rfl
  simp only [resultKind, hfind]

/-- Without a POISON the consumed tokens decide (R44). -/
theorem resultKind_of_no_poison {ops : List Operand} (h : ∀ o ∈ ops, ∀ t, o.tok = some t → t.kind ≠ .poison) :
    resultKind ops =
      if (consumedTokens ops).any (fun t => t.kind == .done) then
        if (consumedTokens ops).all (fun t => t.kind == .done) then some (.done, 0) else none
      else if (consumedTokens ops).any (fun t => t.kind == .last) then some (.last, 0) else some (.data, 0) := by
  simp only [resultKind, find_poison_none h]
  rfl

/-- What the consumed tokens give (R44): DONE all, DONE some, LAST, DATA. -/
theorem resultKind_consumed {ops : List Operand} (h : ∀ o ∈ ops, ∀ t, o.tok = some t → t.kind ≠ .poison) :
    ((∃ t ∈ consumedTokens ops, t.kind = .done) → (∃ t ∈ consumedTokens ops, t.kind ≠ .done) → resultKind ops = none) ∧
    ((∃ t ∈ consumedTokens ops, t.kind = .done) → (∀ t ∈ consumedTokens ops, t.kind = .done) → resultKind ops = some (.done, 0)) ∧
    ((∀ t ∈ consumedTokens ops, t.kind ≠ .done) → (∃ t ∈ consumedTokens ops, t.kind = .last) →
      (resultKind ops).map Prod.fst = some .last) ∧
    ((∀ t ∈ consumedTokens ops, t.kind ≠ .done ∧ t.kind ≠ .last) → (resultKind ops).map Prod.fst = some .data) := by
  rw [resultKind_of_no_poison h]
  refine ⟨fun hdone hother => ?_, fun hdone hall => ?_, fun hnone hlast => ?_, fun hnone => ?_⟩
  · rw [if_pos (by simpa using hdone), if_neg (by simpa using hother)]
  · rw [if_pos (by simpa using hdone), if_pos (by simpa using hall)]
  · rw [if_neg (by simpa using hnone), if_pos (by simpa using hlast)]
    rfl
  · rw [if_neg (by simpa using fun t ht => (hnone t ht).1), if_neg (by simpa using fun t ht => (hnone t ht).2)]
    rfl

end Sys2Proof.Machine
end

