-- ==== Sys2Proof/Proofs/FiringReads.lean ====
section
/-! What a slot that fires has read: its operands, and what readiness tells of it (R51, R52, R56). -/

namespace Sys2Proof.Machine
open Sys2Proof

/-! Reading operands moves cursors, counts and takes the banks' turn, and does nothing else. -/

/-- A cell is as another but for the cursors of its handles, its counters and its banks' arbiters. -/
def Cell.ReadBy (x y : Cell) : Prop :=
  ∃ ht perf banks, y = { x with active := { x.active with ht := ht }, perf := perf, banks := banks } ∧
    ∀ n, { y.handle n with cur := 0 } = { x.handle n with cur := 0 }

theorem Cell.ReadBy.refl (x : Cell) : x.ReadBy x := ⟨_, _, _, rfl, fun _ => rfl⟩

theorem Cell.ReadBy.trans {x y z : Cell} (h : x.ReadBy y) (h' : y.ReadBy z) : x.ReadBy z := by
  obtain ⟨_, _, _, rfl, hh⟩ := h
  obtain ⟨_, _, _, rfl, hh'⟩ := h'
  exact ⟨_, _, _, rfl, fun n => (hh' n).trans (hh n)⟩

theorem Cell.ReadBy.handle {x y : Cell} (h : x.ReadBy y) (n : Nat) :
    { y.handle n with cur := 0 } = { x.handle n with cur := 0 } := by
  obtain ⟨_, _, _, _, hh⟩ := h
  exact hh n

theorem Cell.count_readBy (x : Cell) (ev n : Nat) : x.ReadBy (x.count ev n) := by
  unfold Cell.count
  split
  · exact .refl x
  · exact ⟨_, _, _, rfl, fun _ => rfl⟩

theorem Cell.serveWords_readBy (x : Cell) (cls cyc : Nat) (ws : List Nat) : x.ReadBy (x.serveWords cls cyc ws) :=
  List.foldlRecOn ws _ (motive := fun y => x.ReadBy y) (.refl x) fun _ hy _ _ => hy.trans ⟨_, _, _, rfl, fun _ => rfl⟩

theorem joinFields_lt (get : Nat → Half) (f n : Nat) : joinFields get f n < 2 ^ (16 * n) := by
  induction n with
  | zero => exact Nat.one_pos
  | succ n ih =>
    have hx := (get (f + n)).isLt
    calc joinFields get f (n + 1)
      _ < 2 ^ (16 * n) + (2 ^ 16 - 1) * 2 ^ (16 * n) := Nat.add_lt_add_of_lt_of_le ih (Nat.mul_le_mul_right _ (by omega))
      _ = 2 ^ (16 * (n + 1)) := by rw [Nat.mul_succ, Nat.pow_add]; omega

/-- A bit of joined fields is a bit of one of them. -/
theorem joinFields_testBit (get : Nat → Half) (f n j : Nat) :
    (joinFields get f n).testBit j = (decide (j < 16 * n) && (get (f + j / 16)).toNat.testBit (j % 16)) := by
  induction n with
  | zero => simp [joinFields]
  | succ n ih =>
    rw [joinFields, Nat.add_comm, Nat.mul_comm, Nat.testBit_two_pow_mul_add _ (joinFields_lt get f n), ih]
    by_cases hj : j < 16 * n
    · simp [hj, show j < 16 * (n + 1) by omega]
    · by_cases hj' : j < 16 * (n + 1)
      · rw [if_neg hj, show j / 16 = n by omega, show j % 16 = j - 16 * n by omega]
        simp [hj']
      · rw [if_neg hj, Nat.testBit_lt_two_pow]
        · simp [hj']
        · exact (get (f + n)).isLt.trans_le (Nat.pow_le_pow_right (by omega) (by omega))

/-- A descriptor is told by its bits other than those of CUR, and CUR (R105). -/
theorem handleOf_eq_of_testBit {v w : Nat} (h : ∀ j, j < 76 ∨ 92 ≤ j → v.testBit j = w.testBit j) :
    { handleOf v with cur := 0 } = { handleOf w with cur := 0 } := by
  have field (hi lo : Nat) (hb : hi < 76 ∨ 92 ≤ lo) : bitsN v hi lo = bitsN w hi lo := by
    apply Nat.eq_of_testBit_eq
    intro j
    simp only [bitsN, Nat.testBit_mod_two_pow, Nat.testBit_div_two_pow]
    by_cases hj : j < hi + 1 - lo
    · rw [h (j + lo) (by omega)]
    · simp [hj]
  simp [handleOf, field]

/-- Writing CUR leaves every other bit of every handle (R73, R105). -/
theorem Plane.setCur_testBit (p : Plane) (m n cur j : Nat) (hlt : j < 128) (hj : j < 76 ∨ 92 ≤ j) :
    ((p.setCur m cur).htField (8 * n + j / 16)).toNat.testBit (j % 16) = (p.htField (8 * n + j / 16)).toNat.testBit (j % 16) := by
  generalize hk : 8 * n + j / 16 = k
  simp only [Plane.setCur, Plane.setHt, Plane.htField]
  by_cases h5 : k = 8 * m + 5
  · subst h5
    rw [Map.get_set_same, BitVec.toNat_ofNat]
    generalize (Map.get 0 p.ht (8 * m + 5)).toNat = x
    obtain ⟨i, hi⟩ : ∃ i, j % 16 = i + 12 := ⟨j % 16 - 12, by omega⟩
    have hi' : i + 12 < 16 := by omega
    rw [hi, Nat.testBit_mod_two_pow, decide_eq_true hi', Bool.true_and, ← Nat.testBit_div_two_pow, ← Nat.testBit_div_two_pow]
    congr 1
    omega
  · rw [Map.get_set_other _ _ _ _ _ h5]
    by_cases h4 : k = 8 * m + 4
    · subst h4
      rw [Map.get_set_same, BitVec.toNat_ofNat]
      generalize (Map.get 0 p.ht (8 * m + 4)).toNat = x
      have hlow : j % 16 < 12 := by omega
      have low (y : Nat) : y.testBit (j % 16) = (y % 2 ^ 12).testBit (j % 16) := by
        rw [Nat.testBit_mod_two_pow, decide_eq_true hlow, Bool.true_and]
      rw [low, low x]
      congr 1
      omega
    · rw [Map.get_set_other _ _ _ _ _ h4]

/-- Writing CUR leaves every other field of every handle (R73, R105). -/
theorem Plane.setCur_handle (p : Plane) (m n cur : Nat) :
    { (p.setCur m cur).handle n with cur := 0 } = { p.handle n with cur := 0 } := by
  apply handleOf_eq_of_testBit
  intro j hj
  simp only [Plane.handleWord, BitVec.toNat_ofNat, Nat.testBit_mod_two_pow, joinFields_testBit]
  by_cases hlt : j < 128
  · rw [p.setCur_testBit m n cur j hlt hj]
  · simp [hlt]

theorem Cell.setCur_readBy (x : Cell) (n cur : Nat) : x.ReadBy (x.setCur n cur) :=
  ⟨_, x.perf, x.banks, rfl, fun k => x.active.setCur_handle n k cur⟩

theorem Cell.advance_readBy (x : Cell) (n k : Nat) : x.ReadBy (x.advance n k) := x.setCur_readBy n _

/-- A state is as another but for what reading operands changes in cells. -/
structure State.OperandsRead (s t : State) : Prop where
  rest : ∃ cells, t = { s with cells := cells }
  cell : ∀ k, (s.cell k).ReadBy (t.cell k)

theorem State.OperandsRead.refl (s : State) : s.OperandsRead s := ⟨⟨_, rfl⟩, fun _ => .refl _⟩

theorem State.OperandsRead.trans {s t u : State} (h : s.OperandsRead t) (h' : t.OperandsRead u) : s.OperandsRead u := by
  refine ⟨?_, fun k => (h.cell k).trans (h'.cell k)⟩
  obtain ⟨_, rfl⟩ := h.rest
  obtain ⟨_, rfl⟩ := h'.rest
  exact ⟨_, rfl⟩

theorem State.OperandsRead.updCell (s : State) (c : Nat) {f : Cell → Cell} (h : ∀ x : Cell, x.ReadBy (f x)) :
    s.OperandsRead (s.updCell c f) := by
  refine ⟨⟨_, rfl⟩, fun k => ?_⟩
  obtain rfl | hne := eq_or_ne k c
  · rw [State.updCell_cell_same]
    exact h _
  · rw [State.updCell_cell_other _ _ _ _ hne]
    exact .refl _

theorem State.OperandsRead.cycle {s t : State} (h : s.OperandsRead t) (k : Nat) : t.cycle k = s.cycle k := by
  obtain ⟨_, rfl⟩ := h.rest
  rfl

theorem State.OperandsRead.headOf {s t : State} (h : s.OperandsRead t) (k : Nat) (x : Src) :
    (t.cell k).headOf x = (s.cell k).headOf x := by
  obtain ⟨_, _, _, hk, _⟩ := h.cell k
  rw [hk]
  rfl

theorem State.readSrc_reads {s : State} {x : ReadCtx} {u : Use} {src : Src} {o : Operand} {s' : State}
    (h : s.readSrc x u src = .ok (o, s')) : s.OperandsRead s' := by
  cases src <;> simp only [State.readSrc] at h
  case handle n =>
    split at h
    · cases h
    · cases h
      exact (State.OperandsRead.updCell s x.cell fun y => y.serveWords_readBy _ _ _).trans
        (.updCell _ _ fun y => (y.advance_readBy n 1).trans (Cell.count_readBy _ _ _))
  case chan n | peek n =>
    split at h
    · split at h
      · cases h
      · cases h
        exact .refl s
    · cases h
      exact .refl s
  all_goals
    cases h
    exact .refl s

/-- An operand's token is the head of the channel it names, which it may consume (R51, R52). -/
theorem State.readSrc_tok {s : State} {x : ReadCtx} {u : Use} {src : Src} {o : Operand} {s' : State}
    (h : s.readSrc x u src = .ok (o, s')) {t : Token} (ht : o.tok = some t) :
    o.chan = srcChan src ∧ (s.cell x.feed.src).headOf src = some t := by
  cases src <;> simp only [State.readSrc] at h
  case handle n =>
    split at h
    · cases h
    · cases h
      cases ht
  case chan n | peek n =>
    split at h
    · rename_i ch u hch hu
      split at h
      · cases h
      · cases h
        exact ⟨hch.symm, hu.trans ht⟩
    · cases h
      cases ht
  all_goals
    cases h
    cases ht

/-! The firing. -/

/-- What a firing holds of its slot, and what it has read (R51, R52). -/
structure State.ReadFiring (s : State) (site : Site) (f : OpFields) (i : Inst) (fd : Feed) (F : Firing) (t : State) : Prop where
  cell : F.cell = site.cell.val
  slot : F.slot = site.slot.val
  feed : F.feed = fd
  inst : F.inst = i
  fields : F.f = f
  cyc : F.cyc = s.cycle (sectorOfCell site.cell.val)
  kind : ∃ oa ob oc : Operand, resultKind [oa, ob, oc] = some (F.kind, F.pay) ∧ F.ta = oa.tok ∧ F.tb = ob.tok ∧ F.tc = oc.tok
  cons : ∀ e ∈ F.cons, ∃ src, (src = f.sa ∨ src = f.sb ∨ src = f.sc) ∧ srcChan src = some (e.1, true) ∧
    (s.cell fd.src).headOf src = some e.2
  reads : s.OperandsRead t

theorem State.operands_readFiring {s : State} {opc : Nat} {site : Site} {f : OpFields} {i : Inst} {fd : Feed}
    {cursor : Option (Nat × Nat)} {F : Firing} {t : State} (h : s.operands opc site f i fd cursor = .ok (F, t)) :
    s.ReadFiring site f i fd F t := by
  unfold State.operands at h
  extract_lets cell slot x g ua ub uc hasDst at h
  split at h
  · cases h
  split at h
  · cases h
  rename_i oa s1 ha
  split at h
  · cases h
  rename_i ob s2 hb
  split at h
  · cases h
  rename_i oc s3 hc
  have r1 := State.readSrc_reads ha
  have r2 := r1.trans (State.readSrc_reads hb)
  have r3 := r2.trans (State.readSrc_reads hc)
  split at h
  · cases h
  rename_i k0 pay hk
  have hcons : ∀ e ∈ [oa, ob, oc].filterMap (fun o => match o.chan, o.tok with
      | some (n, true), some t => some (n, t)
      | _, _ => none), ∃ src, (src = f.sa ∨ src = f.sb ∨ src = f.sc) ∧ srcChan src = some (e.1, true) ∧
        (s.cell fd.src).headOf src = some e.2 := by
    intro e he
    obtain ⟨o, ho, he⟩ := List.mem_filterMap.mp he
    have hread : ∃ src, (src = f.sa ∨ src = f.sb ∨ src = f.sc) ∧
        ∀ t, o.tok = some t → o.chan = srcChan src ∧ (s.cell fd.src).headOf src = some t := by
      simp only [List.mem_cons, List.not_mem_nil, or_false] at ho
      obtain rfl | rfl | rfl := ho
      · exact ⟨f.sa, .inl rfl, fun t ht => State.readSrc_tok ha ht⟩
      · exact ⟨f.sb, .inr (.inl rfl), fun t ht => r1.headOf fd.src f.sb ▸ State.readSrc_tok hb ht⟩
      · exact ⟨f.sc, .inr (.inr rfl), fun t ht => r2.headOf fd.src f.sc ▸ State.readSrc_tok hc ht⟩
    obtain ⟨src, hsrc, htok⟩ := hread
    split at he
    · rename_i n t hn ht
      cases he
      exact ⟨src, hsrc, (htok t ht).1 ▸ hn, (htok t ht).2⟩
    · cases he
  extract_lets F0 moved F1 s4 at h
  have hF1 : ∃ e, F1 = { F0 with elem := e } := by
    simp only [F1, moved]
    (repeat' split) <;> exact ⟨_, rfl⟩
  have r4 : s.OperandsRead s4 := by
    refine r3.trans ?_
    simp only [s4, moved]
    split
    · split
      · exact .updCell _ _ fun y => y.advance_readBy _ _
      · exact .refl _
    · exact .refl _
  obtain ⟨e, hF1⟩ := hF1
  have done (G : Firing) (u : State) (hG : ∃ o, G = { F1 with dstOff := o }) (ht : s.OperandsRead u) : s.ReadFiring site f i fd G u := by
    obtain ⟨o, rfl⟩ := hG
    rw [hF1]
    exact ⟨rfl, rfl, rfl, rfl, rfl, rfl, ⟨oa, ob, oc, hk, rfl, rfl, rfl⟩, hcons, ht⟩
  split at h
  · extract_lets c hd at h
    split at h
    · cases h
    · simp only [Except.ok.injEq, Prod.mk.injEq] at h
      obtain ⟨rfl, rfl⟩ := h
      exact done _ _ ⟨_, rfl⟩ (r4.trans (State.OperandsRead.updCell s4 cell fun y => y.advance_readBy _ 1))
  · simp only [Except.ok.injEq, Prod.mk.injEq] at h
    obtain ⟨rfl, rfl⟩ := h
    exact done _ _ ⟨_, rfl⟩ r4

/-! Readiness. -/

/-- Only `filt` (0x85) changes the fields its firing reads, and only it flushes (R244). -/
theorem State.slotNeeds_of_ne {s : State} {opc : Nat} (h : opc ≠ 0x85) (site : Site) (f : OpFields) :
    (s.slotNeeds opc site f).1 = f ∧ (s.slotNeeds opc site f).2.flush = false := by
  unfold State.slotNeeds
  extract_lets c k d dec base step nd
  rw [if_neg (by simp [h])]
  refine ⟨rfl, ?_⟩
  simp only [nd, base]
  split
  · rfl
  split <;> rfl

theorem State.readyWith_parts {s : State} {site : Site} {f : OpFields} {nd : Needs} (h : s.readyWith site f nd = true)
    {i : Inst} {fd : Feed} (hi : s.instAt site.cell.val = some i) (hf : s.feed i site.cell.val site.slot.val = some fd) :
    s.cellMayFire i site.cell.val = true ∧
      (nd.flush = true ∨ (if (s.cell fd.src).doneAtHead f = true then fd.j = 0
        else ((s.cell fd.src).slot site.slot.val).dealNext % fd.n = fd.j)) := by
  simp only [State.readyWith, hi, hf, Bool.and_eq_true, Bool.or_eq_true, decide_eq_true_eq] at h
  obtain ⟨⟨⟨⟨⟨⟨⟨⟨⟨⟨⟨hmay, _⟩, _⟩, _⟩, _⟩, hdeal⟩, _⟩, _⟩, _⟩, _⟩, _⟩, _⟩ := h
  exact ⟨hmay, hdeal⟩

theorem State.nextFire_of_cellMayFire {s : State} {i : Inst} {c : Nat} (h : s.cellMayFire i c = true) :
    (s.cell c).nextFire ≤ s.cycle (sectorOfCell c) := by
  simp only [State.cellMayFire, Bool.and_eq_true, decide_eq_true_eq] at h
  exact h.1.2

/-- A copy's feed comes from another cell, at a distance of at least 1 (R55). -/
theorem State.feedFrom_pos {s : State} {i : Inst} {cell slot d : Nat} {fd : Feed} (h : s.feedFrom i cell slot d = some fd) : 0 < fd.j := by
  induction d with
  | zero => cases h
  | succ d ih =>
    unfold State.feedFrom at h
    extract_lets j look at h
    have look_pos (c : Nat) (dir : Bool) {fd : Feed} (h : look c dir = some fd) : 0 < fd.j := by
      simp only [look] at h
      split at h
      · cases h
        exact Nat.succ_pos d
      · cases h
    split at h
    · rename_i hd
      cases h
      exact ih hd
    · split at h
      · rename_i hw
        cases h
        split at hw
        · exact look_pos _ _ hw
        · cases hw
      · split at h
        · exact look_pos _ _ h
        · cases h

theorem State.feed_src {s : State} {i : Inst} {cell slot : Nat} {fd : Feed} (h : s.feed i cell slot = some fd) (hj : fd.j = 0) :
    fd.src = cell := by
  simp only [State.feed] at h
  split at h
  · exact absurd hj (State.feedFrom_pos h).ne'
  · cases h
    rfl

/-- Another copy is another cell (R55). -/
theorem State.copyCell_ne (s : State) (cell slot j : Nat) : s.copyCell cell slot (j + 1) ≠ cell := by
  unfold State.copyCell
  split <;> omega

end Sys2Proof.Machine
end

