-- ==== Sys2Proof/Proofs/FiringIssue.lean ====
section
/-! What the issue of a firing leaves in the cells, and its result in flight (R44, R52 to R54, R177, R184). -/

namespace Sys2Proof.Machine
open Sys2Proof

/-! Issue. -/

/-- A cell is as another but for what the issue of a firing changes. -/
def Cell.BegunFrom (x y : Cell) : Prop :=
  ∃ pin freed perf trig due ptr nextFire slots cycle0, y = { x with
    pin := pin, freed := freed, perf := perf, trig := trig, trigDue := due, ptr := ptr, nextFire := nextFire, slots := slots, cycle0 := cycle0 }

theorem Cell.BegunFrom.refl (x : Cell) : x.BegunFrom x := ⟨_, _, _, _, _, _, _, _, _, rfl⟩

theorem Cell.BegunFrom.trans {x y z : Cell} (h : x.BegunFrom y) (h' : y.BegunFrom z) : x.BegunFrom z := by
  obtain ⟨_, _, _, _, _, _, _, _, _, rfl⟩ := h
  obtain ⟨_, _, _, _, _, _, _, _, _, rfl⟩ := h'
  exact ⟨_, _, _, _, _, _, _, _, _, rfl⟩

/-- Counting a token for the trigger moves the trigger only (R77). -/
theorem State.countTrig_cell (s : State) (i : Inst) (c : Nat) (dir : Bool) (ch : Nat) (k : Kind) (n : Nat) :
    ∃ trig due, (s.countTrig i c dir ch k).cell n = { s.cell n with trig := trig, trigDue := due } := by
  simp only [State.countTrig]
  split
  · obtain rfl | hne := eq_or_ne n c
    · rw [State.setCell_cell_same]
      exact ⟨_, _, rfl⟩
    · rw [State.setCell_cell_other _ _ _ _ hne]
      exact ⟨_, _, rfl⟩
  · exact ⟨_, _, rfl⟩

theorem Cell.count_cell (x : Cell) (ev n : Nat) : ∃ perf, x.count ev n = { x with perf := perf } := by
  unfold Cell.count
  split <;> exact ⟨_, rfl⟩

/-- An update of a cell, read at any cell, relates to what it was by what relates the cell before to the cell after. -/
theorem State.updCell_cell_rel {r : Cell → Cell → Prop} (hrefl : ∀ x, r x x) {f : Cell → Cell} (h : ∀ x, r x (f x))
    (s : State) (c k : Nat) : r (s.cell k) ((s.updCell c f).cell k) := by
  obtain rfl | hne := eq_or_ne k c
  · rw [State.updCell_cell_same]
    exact h _
  · rw [State.updCell_cell_other _ _ _ _ hne]
    exact hrefl _

theorem Cell.count_begun (x : Cell) (ev n : Nat) : x.BegunFrom (x.count ev n) := by
  obtain ⟨_, h⟩ := x.count_cell ev n
  rw [h]
  exact ⟨_, _, _, _, _, _, _, _, _, rfl⟩

theorem Cell.fired_begun (x : Cell) (slot cyc : Nat) : x.BegunFrom (x.fired slot cyc) :=
  Cell.BegunFrom.trans ⟨_, _, _, _, _, _, _, _, _, rfl⟩ (Cell.count_begun _ 1 1)

theorem Cell.nextPhase_begun (x : Cell) (slot : Nat) : x.BegunFrom (x.nextPhase slot) := by
  unfold Cell.nextPhase
  split
  · exact ⟨_, _, _, _, _, _, _, _, _, rfl⟩
  · exact .refl x

/-- Consuming one token, at a time. -/
def State.consumeOne (s : State) (F : Firing) (now : Nat) (e : Nat × Token) : State :=
  ((s.updCell F.feed.src (fun c => c.pop e.1 now)).updCell F.cell (fun c => c.count 5 1)).countTrig F.inst F.feed.src false e.1 e.2.kind

/-- Consuming is consuming each token (R52). -/
theorem State.consume_eq (s : State) (F : Firing) : s.consume F = F.cons.foldl (fun a e => a.consumeOne F s.now e) s := rfl

theorem State.consumeOne_cell (s : State) (F : Firing) (now : Nat) (e : Nat × Token) (k : Nat) : ∃ pin freed perf trig due,
    (s.consumeOne F now e).cell k = { s.cell k with pin := pin, freed := freed, perf := perf, trig := trig, trigDue := due } := by
  obtain ⟨pin, freed, h1⟩ := State.updCell_cell_rel (r := fun x y => ∃ pin freed, y = { x with pin := pin, freed := freed })
    (fun _ => ⟨_, _, rfl⟩) (fun x : Cell => (⟨_, _, rfl⟩ : ∃ pin freed, x.pop e.1 now = { x with pin := pin, freed := freed }))
    s F.feed.src k
  obtain ⟨perf, h2⟩ := State.updCell_cell_rel (r := fun x y => ∃ perf, y = { x with perf := perf }) (fun _ => ⟨_, rfl⟩)
    (fun x : Cell => x.count_cell 5 1) (s.updCell F.feed.src (fun c => c.pop e.1 now)) F.cell k
  obtain ⟨trig, due, h3⟩ := State.countTrig_cell ((s.updCell F.feed.src (fun c => c.pop e.1 now)).updCell F.cell (fun c => c.count 5 1))
    F.inst F.feed.src false e.1 e.2.kind k
  exact ⟨pin, freed, perf, trig, due, by rw [State.consumeOne, h3, h2, h1]⟩

/-- Consuming a token takes the head of its channel, and of no other (R52). -/
theorem State.consumeOne_chan (s : State) (F : Firing) (now : Nat) (e : Nat × Token) (n : Nat) :
    ((s.consumeOne F now e).cell F.feed.src).chan n =
      if e.1 = n then ((s.cell F.feed.src).chan n).tail else (s.cell F.feed.src).chan n := by
  have hpop : (((s.updCell F.feed.src (fun c => c.pop e.1 now))).cell F.feed.src).chan n =
      if e.1 = n then ((s.cell F.feed.src).chan n).tail else (s.cell F.feed.src).chan n := by
    rw [State.updCell_cell_same]
    split
    · rename_i h
      subst h
      exact Cell.setChan_chan_same _ _ _
    · rename_i h
      exact Cell.setChan_chan_other _ _ _ _ (Ne.symm h)
  rw [← hpop]
  unfold State.consumeOne
  obtain ⟨_, _, h⟩ := State.countTrig_cell ((s.updCell F.feed.src (fun c => c.pop e.1 now)).updCell F.cell (fun c => c.count 5 1))
    F.inst F.feed.src false e.1 e.2.kind F.feed.src
  rw [h]
  refine State.updCell_cell_keeps (fun x => x.chan n) (fun x => ?_) _ _ _
  obtain ⟨_, h⟩ := x.count_cell 5 1
  rw [h]
  rfl

/-- Consuming leaves the slots, the pointer and what is in flight. -/
theorem State.consume_cell (s : State) (F : Firing) (k : Nat) : ∃ pin freed perf trig due,
    (s.consume F).cell k = { s.cell k with pin := pin, freed := freed, perf := perf, trig := trig, trigDue := due } := by
  rw [State.consume_eq]
  refine List.foldlRecOn F.cons (fun a e => a.consumeOne F s.now e) (motive := fun a : State => ∃ pin freed perf trig due,
    a.cell k = { s.cell k with pin := pin, freed := freed, perf := perf, trig := trig, trigDue := due }) ⟨_, _, _, _, _, rfl⟩ ?_
  rintro a ⟨_, _, _, _, _, ha⟩ e -
  obtain ⟨_, _, _, _, _, he⟩ := a.consumeOne_cell F s.now e k
  rw [he, ha]
  exact ⟨_, _, _, _, _, rfl⟩

/-- Each channel loses as many tokens as the firing consumes of it (R52). -/
theorem State.consume_chan (s : State) (F : Firing) (n : Nat) :
    ((s.consume F).cell F.feed.src).chan n =
      ((s.cell F.feed.src).chan n).drop (F.cons.filter (fun e => e.1 == n)).length := by
  have fold (l : List (Nat × Token)) : ∀ a : State, ((l.foldl (fun a e => a.consumeOne F s.now e) a).cell F.feed.src).chan n =
      ((a.cell F.feed.src).chan n).drop (l.filter (fun e => e.1 == n)).length := by
    induction l with
    | nil => exact fun _ => rfl
    | cons e l ih =>
      intro a
      rw [List.foldl_cons, ih, State.consumeOne_chan]
      by_cases h : e.1 = n
      · simp [h, Nat.add_comm]
      · simp [h]
  exact fold F.cons s

theorem State.fireCopies_begun (s : State) (F : Firing) (k : Nat) : (s.cell k).BegunFrom ((s.fireCopies F).cell k) := by
  unfold State.fireCopies
  split
  · exact List.foldlRecOn _ _ (motive := fun a : State => (s.cell k).BegunFrom (a.cell k)) (.refl _) fun a ha j _ =>
      ha.trans (State.updCell_cell_rel Cell.BegunFrom.refl (fun x => (x.nextPhase_begun _).trans (Cell.fired_begun _ _ _)) a _ k)
  · exact .refl _

/-- The copies that take a DONE with copy 0 are other cells than the one that fires (R56). -/
theorem State.fireCopies_cell (s : State) {F : Firing} (h : F.takesDone = true → F.feed.src = F.cell) :
    (s.fireCopies F).cell F.cell = s.cell F.cell := by
  unfold State.fireCopies
  split
  · rename_i hd
    refine List.foldlRecOn _ _ (motive := fun a : State => a.cell F.cell = s.cell F.cell) rfl fun a ha j _ => ?_
    rw [State.updCell_cell_other, ha]
    rw [h hd]
    exact (s.copyCell_ne _ _ _).symm
  · rfl

/-- The cells of a patch note the cycle of its first firing. -/
theorem State.noteCycle0_cell (l : List Nat) (cyc : Nat) (s : State) (k : Nat) :
    ∃ cycle0, (l.foldl (fun (a : State) c => a.updCell c (fun t => { t with cycle0 := some cyc })) s).cell k =
      { s.cell k with cycle0 := cycle0 } := by
  refine List.foldlRecOn l _ (motive := fun a : State => ∃ cycle0, a.cell k = { s.cell k with cycle0 := cycle0 }) ⟨_, rfl⟩ ?_
  rintro a ⟨_, ha⟩ c -
  obtain rfl | hne := eq_or_ne k c
  · rw [State.updCell_cell_same, ha]
    exact ⟨_, rfl⟩
  · rw [State.updCell_cell_other _ _ _ _ hne]
    exact ⟨_, ha⟩

/-- Issue is the firing's count in its cell and in the copies that fire with it, but for the note of a patch's first firing. -/
theorem State.issue_cell (s : State) (F : Firing) (k : Nat) : ∃ cycle0, (s.issue F).cell k =
    { ((s.updCell F.cell (fun c => c.fired F.slot F.cyc)).fireCopies F).cell k with cycle0 := cycle0 } := by
  unfold State.issue
  extract_lets s1 s2
  rw [State.updInst_cell]
  simp only [s2]
  split
  · exact ⟨_, rfl⟩
  · exact State.noteCycle0_cell _ _ _ _

theorem State.issue_begun (s : State) (F : Firing) (k : Nat) : (s.cell k).BegunFrom ((s.issue F).cell k) := by
  obtain ⟨_, h⟩ := s.issue_cell F k
  rw [h]
  exact ((State.updCell_cell_rel Cell.BegunFrom.refl (fun x => x.fired_begun F.slot F.cyc) s F.cell k).trans (State.fireCopies_begun _ F k)).trans
    ⟨_, _, _, _, _, _, _, _, _, rfl⟩

/-- What a firing counts in its cell (R52, R54): the pointer, the cycle of the next firing and the slot's iteration counter. -/
def Cell.FiredAs (x y : Cell) (slot cyc : Nat) : Prop :=
  y.ptr = (slot + 1) % 16 ∧ y.nextFire = max x.nextFire (cyc + 1) ∧ (y.slot slot).iter = ((x.slot slot).iter + 1) % 2 ^ 32

theorem Cell.fired_firedAs (x : Cell) (slot cyc : Nat) : x.FiredAs (x.fired slot cyc) slot cyc := by
  unfold Cell.fired
  extract_lets st c1
  obtain ⟨_, h⟩ := (c1.setSlot slot { st with
    iter := (st.iter + 1) % 2 ^ 32, phaseCount := if hdrNph (x.active.header slot) = 0 then 0 else st.phaseCount + 1 }).count_cell 1 1
  rw [h]
  exact ⟨rfl, rfl, congrArg SlotState.iter (Cell.setSlot_slot_same _ _ _)⟩

theorem State.issue_firedAs (s : State) {F : Firing} (h : F.takesDone = true → F.feed.src = F.cell) :
    (s.cell F.cell).FiredAs ((s.issue F).cell F.cell) F.slot F.cyc := by
  obtain ⟨_, hk⟩ := s.issue_cell F F.cell
  rw [hk, State.fireCopies_cell _ h, State.updCell_cell_same]
  exact Cell.fired_firedAs _ _ _

theorem State.issue_chan (s : State) (F : Firing) (k n : Nat) : ((s.issue F).cell k).chan n = (s.cell k).chan n := by
  have fired (x : Cell) : (x.fired F.slot F.cyc).chan n = x.chan n := by
    unfold Cell.fired
    extract_lets st c1
    obtain ⟨_, h⟩ := (c1.setSlot F.slot { st with
      iter := (st.iter + 1) % 2 ^ 32, phaseCount := if hdrNph (x.active.header F.slot) = 0 then 0 else st.phaseCount + 1 }).count_cell 1 1
    rw [h]
    rfl
  have phase (x : Cell) : (x.nextPhase F.slot).chan n = x.chan n := by
    unfold Cell.nextPhase
    split <;> rfl
  obtain ⟨_, hk⟩ := s.issue_cell F k
  rw [hk, ← State.updCell_cell_keeps (fun x => x.chan n) fired s F.cell k]
  unfold State.fireCopies
  split
  · refine List.foldlRecOn _ _ (motive := fun a : State =>
      (a.cell k).chan n = ((s.updCell F.cell (fun c => c.fired F.slot F.cyc)).cell k).chan n) rfl fun a ha j _ => ?_
    rw [← ha]
    exact State.updCell_cell_keeps (fun x => x.chan n) (fun x => (fired _).trans (phase x)) _ _ _
  · rfl

/-- Dealing moves the position of dealing only (R56). -/
theorem State.deal_cell (s : State) (F : Firing) (k : Nat) : ∃ slots, (s.deal F).cell k = { s.cell k with slots := slots } := by
  unfold State.deal
  split
  · exact ⟨_, rfl⟩
  · exact State.updCell_cell_rel (r := fun x y => ∃ slots, y = { x with slots := slots }) (fun _ => ⟨_, rfl⟩) (fun _ => ⟨_, rfl⟩) _ _ _

theorem State.deal_iter (s : State) (F : Firing) (k : Nat) :
    (((s.deal F).cell k).slot F.slot).iter = ((s.cell k).slot F.slot).iter := by
  unfold State.deal
  split
  · rfl
  · exact State.updCell_cell_keeps (fun x => (x.slot F.slot).iter) (fun x => by rw [Cell.setSlot_slot_same]) _ _ _

theorem State.begin_begun (s : State) (F : Firing) (k : Nat) : (s.cell k).BegunFrom ((s.begin F).cell k) := by
  obtain ⟨_, _, _, _, _, hc⟩ := s.consume_cell F k
  obtain ⟨_, hd⟩ := State.deal_cell ((s.consume F).issue F) F k
  have consumed : (s.cell k).BegunFrom ((s.consume F).cell k) := by
    rw [hc]
    exact ⟨_, _, _, _, _, _, _, _, _, rfl⟩
  refine (consumed.trans (State.issue_begun _ F k)).trans ?_
  rw [State.begin, hd]
  exact ⟨_, _, _, _, _, _, _, _, _, rfl⟩

/-- Each channel has lost the tokens the firing consumed (R52). -/
theorem State.begin_chan (s : State) (F : Firing) (n : Nat) : ((s.begin F).cell F.feed.src).chan n =
    ((s.cell F.feed.src).chan n).drop (F.cons.filter (fun e => e.1 == n)).length := by
  obtain ⟨_, h⟩ := State.deal_cell ((s.consume F).issue F) F F.feed.src
  rw [State.begin, h, ← State.consume_chan, ← State.issue_chan]
  rfl

/-- The firing's cell has counted it (R52, R54). -/
theorem State.begin_firedAs (s : State) {F : Firing} (h : F.takesDone = true → F.feed.src = F.cell) :
    (s.cell F.cell).FiredAs ((s.begin F).cell F.cell) F.slot F.cyc := by
  obtain ⟨_, _, _, _, _, hc⟩ := s.consume_cell F F.cell
  obtain ⟨_, hd⟩ := State.deal_cell ((s.consume F).issue F) F F.cell
  have hiter := State.deal_iter ((s.consume F).issue F) F F.cell
  obtain ⟨hptr, hnext, hslot⟩ := State.issue_firedAs (s.consume F) h
  rw [hc] at hnext hslot
  refine ⟨?_, ?_, hiter.trans hslot⟩
  · rw [State.begin, hd]
    exact hptr
  · rw [State.begin, hd]
    exact hnext

/-! Results in flight. -/

/-- A cell is as another but for results put in flight behind the others, its counters and its trigger. -/
def Cell.SentFrom (x y : Cell) : Prop :=
  ∃ more perf trig due, y = { x with flight := x.flight ++ more, perf := perf, trig := trig, trigDue := due }

theorem Cell.SentFrom.refl (x : Cell) : x.SentFrom x := ⟨[], x.perf, x.trig, x.trigDue, by rw [List.append_nil]⟩

theorem Cell.SentFrom.trans {x y z : Cell} (h : x.SentFrom y) (h' : y.SentFrom z) : x.SentFrom z := by
  obtain ⟨_, _, _, _, rfl⟩ := h
  obtain ⟨_, _, _, _, rfl⟩ := h'
  exact ⟨_, _, _, _, by rw [List.append_assoc]⟩

theorem Cell.SentFrom.mem_flight {x y : Cell} (h : x.SentFrom y) {e : Flight} (he : e ∈ x.flight) : e ∈ y.flight := by
  obtain ⟨_, _, _, _, rfl⟩ := h
  exact List.mem_append_left _ he

/-- A result put in flight in the firing's cell is there (R53, R184). -/
theorem State.fly_cell (s : State) (F : Firing) (d : ResDst) (v : BitVec 64) (lat : Nat) (fl : Flags) (ld : Option Late) :
    ∃ after mark, (s.fly F d v lat fl ld).cell F.cell = { s.cell F.cell with
      flight := (s.cell F.cell).flight ++ [⟨s.ownDue F d lat, F.slot, d, v, none, ld, fl, after, mark⟩] } := by
  unfold State.fly
  extract_lets m s1
  refine ⟨if d.isResult then s.entriesBefore F else [], m, ?_⟩
  rw [State.updCell_cell_same]
  have h1 : s1.cell F.cell = s.cell F.cell := by
    simp only [s1]
    split <;> rfl
  rw [h1]

theorem State.fly_sent (s : State) (F : Firing) (d : ResDst) (v : BitVec 64) (lat : Nat) (fl : Flags) (ld : Option Late) (k : Nat) :
    (s.cell k).SentFrom ((s.fly F d v lat fl ld).cell k) := by
  obtain rfl | hne := eq_or_ne k F.cell
  · obtain ⟨_, _, h⟩ := s.fly_cell F d v lat fl ld
    rw [h]
    exact ⟨_, _, _, _, rfl⟩
  · unfold State.fly
    extract_lets m s1
    rw [State.updCell_cell_other _ _ _ _ hne]
    simp only [s1]
    split <;> exact .refl _

theorem State.flies_fly (s : State) (F : Firing) (d : ResDst) (v : BitVec 64) (lat : Nat) (fl : Flags) (ld : Option Late) :
    Flies s (s.fly F d v lat fl ld) F d v ld fl lat := by
  obtain ⟨_, _, h⟩ := s.fly_cell F d v lat fl ld
  rw [Flies, h]
  exact ⟨_, List.mem_append_right _ (List.mem_singleton_self _), rfl, rfl, rfl, rfl, rfl, rfl, rfl⟩

/-- A token sent by a firing is on its way (R53, R184). -/
theorem State.emitToken_cell (s : State) (F : Firing) (n : Nat) (k : Kind) (v : Word) (lat : Nat) (j : Nat) :
    ∃ perf trig due after, (s.emitToken F n k v lat).cell j = { s.cell j with
      flight := (s.cell j).flight ++ if j = F.feed.src then [⟨s.outDue F lat, F.slot, .out n, BitVec.ofNat 64 v.toNat,
        some (mkToken (s.cell F.feed.src).active.ver k v F.deps), none, flagNone, after, 0⟩] else []
      perf := perf, trig := trig, trigDue := due } := by
  unfold State.emitToken
  extract_lets c t fl
  obtain ⟨trig, due, h1⟩ := State.countTrig_cell ((s.setCell F.feed.src { c with flight := c.flight ++ [fl] }).updCell F.cell (fun x => x.count 6 1))
    F.inst F.feed.src true n k j
  obtain ⟨perf, h2⟩ := State.updCell_cell_rel (r := fun x y => ∃ perf, y = { x with perf := perf }) (fun _ => ⟨_, rfl⟩)
    (fun x : Cell => x.count_cell 6 1) (s.setCell F.feed.src { c with flight := c.flight ++ [fl] }) F.cell j
  refine ⟨perf, trig, due, s.entriesBefore F ++ s.effectsBefore F, ?_⟩
  rw [h1, h2]
  obtain rfl | hne := eq_or_ne j F.feed.src
  · rw [State.setCell_cell_same, if_pos rfl]
  · rw [State.setCell_cell_other _ _ _ _ hne, if_neg hne, List.append_nil]

theorem State.emitToken_sent (s : State) (F : Firing) (n : Nat) (k : Kind) (v : Word) (lat : Nat) (j : Nat) :
    (s.cell j).SentFrom ((s.emitToken F n k v lat).cell j) := by
  obtain ⟨_, _, _, _, h⟩ := s.emitToken_cell F n k v lat j
  rw [h]
  exact ⟨_, _, _, _, rfl⟩

theorem State.tokenSent_emitToken (s : State) (F : Firing) (n : Nat) (k : Kind) (v : Word) (lat : Nat) :
    TokenSent (s.emitToken F n k v lat) F n k v lat := by
  obtain ⟨_, _, _, _, h⟩ := s.emitToken_cell F n k v lat F.feed.src
  rw [if_pos rfl] at h
  rw [TokenSent, h]
  refine ⟨_, List.mem_append_right _ (List.mem_singleton_self _), rfl, rfl, ?_, rfl, rfl, _, rfl, rfl, rfl, rfl⟩
  simp only [State.outDue]
  omega

/-- Reporting an absorbed POISON changes no cell (R375). -/
@[simp] theorem State.absorb_cell (s : State) (c slot srck : Nat) (payload : Word) (k : Nat) :
    (s.absorb c slot srck payload).cell k = s.cell k := by
  unfold State.absorb
  (repeat' split) <;> rfl

end Sys2Proof.Machine

namespace Sys2Proof
open Machine

/-- A result in flight stays so when more is sent. -/
theorem Flies.of_sent {s t u : State} {F : Firing} {d : ResDst} {v : BitVec 64} {ld : Option Late} {fl : Flags} {lat : Nat}
    (h : Flies s t F d v ld fl lat) (hu : (t.cell F.cell).SentFrom (u.cell F.cell)) : Flies s u F d v ld fl lat := by
  obtain ⟨x, hx, hrest⟩ := h
  exact ⟨x, hu.mem_flight hx, hrest⟩

/-- The cycle of a result is told by what is in flight in the firing's cell before it (R53). -/
theorem Flies.of_flight {s s' t : State} {F : Firing} {d : ResDst} {v : BitVec 64} {ld : Option Late} {fl : Flags} {lat : Nat}
    (h : Flies s t F d v ld fl lat) (hs : (s'.cell F.cell).flight = (s.cell F.cell).flight) : Flies s' t F d v ld fl lat := by
  have hdue : s'.ownDue F d lat = s.ownDue F d lat := by
    simp only [State.ownDue, Cell.lastDue, hs]
  obtain ⟨x, hx, h1, h2, h3, h4, h5, h6, h7⟩ := h
  exact ⟨x, hx, h1, h2, h3, h4, h5, h6, h7.trans hdue.symm⟩

end Sys2Proof
end

