-- ==== Sys2Proof/Proofs/ComputingOperators.lean ====
section
/-! Settles O10, O15 and O17: what an operator that computes one word does when it fires, the slot's iteration counter, and the kind of a
result. -/

namespace Sys2Proof
open Machine

variable {s s1 t : State} {opc : Nat} {site : Site} {f : OpFields} {F : Firing}

/-! What a slot that fires has shown (R51, R52, R56). -/

theorem Fires.readFiring (h : Fires s opc site f F s1) (hopc : opc ≠ 0x85) :
    ∃ i fd, s.feed i site.cell.val site.slot.val = some fd ∧ s.cellMayFire i site.cell.val = true ∧
      (if (s.cell fd.src).doneAtHead f = true then fd.j = 0 else ((s.cell fd.src).slot site.slot.val).dealNext % fd.n = fd.j) ∧
      s.ReadFiring site f i fd F s1 := by
  obtain ⟨hready, i, fd, hi, hfd, hop⟩ := h
  obtain ⟨hfields, hflush⟩ := State.slotNeeds_of_ne (s := s) hopc site f
  rw [State.ready, hfields] at hready
  rw [hfields] at hop
  obtain ⟨hmay, hdeal⟩ := State.readyWith_parts hready hi hfd
  exact ⟨i, fd, hfd, hmay, hdeal.resolve_left (by simp [hflush]), State.operands_readFiring hop⟩

theorem Fires.at_site (h : Fires s opc site f F s1) (hopc : opc ≠ 0x85) : F.cell = site.cell.val ∧ F.slot = site.slot.val := by
  obtain ⟨_, _, _, _, _, hF⟩ := h.readFiring hopc
  exact ⟨hF.cell, hF.slot⟩

theorem Fires.reads (h : Fires s opc site f F s1) (hopc : opc ≠ 0x85) : s.OperandsRead s1 := by
  obtain ⟨_, _, _, _, _, hF⟩ := h.readFiring hopc
  exact hF.reads

/-- The PE that fires has not fired in this cycle (R52). -/
theorem Fires.nextFire (h : Fires s opc site f F s1) (hopc : opc ≠ 0x85) : (s.cell F.cell).nextFire ≤ F.cyc := by
  obtain ⟨_, _, _, hmay, _, hF⟩ := h.readFiring hopc
  rw [hF.cell, hF.cyc]
  exact State.nextFire_of_cellMayFire hmay

/-- A consumed DONE fires copy 0, in the configured cell, and with it the other copies (R56). -/
theorem Fires.takesDone_src (h : Fires s opc site f F s1) (hopc : opc ≠ 0x85) (hd : F.takesDone = true) : F.feed.src = F.cell := by
  obtain ⟨i, fd, hfd, _, hdeal, hF⟩ := h.readFiring hopc
  have hhead : (s.cell fd.src).doneAtHead f = true := by
    simp only [Firing.takesDone, Bool.and_eq_true, List.any_eq_true, beq_iff_eq] at hd
    obtain ⟨_, e, he, hk⟩ := hd
    obtain ⟨src, hsrc, hchan, hhead⟩ := hF.cons e he
    simp only [Cell.doneAtHead, List.any_eq_true]
    refine ⟨src, by simpa using hsrc, ?_⟩
    simp [hchan, hhead, hk]
  rw [if_pos hhead] at hdeal
  rw [hF.feed, hF.cell]
  exact State.feed_src hfd hdeal

/-! Its issue and its result. -/

/-- Reading its operands and beginning shows the issue of a firing (R52, R54). -/
theorem Fires.begin_firedAs (h : Fires s opc site f F s1) (hopc : opc ≠ 0x85) :
    (s.cell F.cell).FiredAs ((s1.begin F).cell F.cell) F.slot F.cyc := by
  obtain ⟨_, _, _, hk, _⟩ := (h.reads hopc).cell F.cell
  have hb := s1.begin_firedAs (h.takesDone_src hopc)
  rw [hk] at hb
  exact hb

theorem Fires.issued (h : Fires s opc site f F s1) (hopc : opc ≠ 0x85)
    (ht : ((s1.begin F).cell F.cell).SentFrom (t.cell F.cell)) : Issued s t F := by
  obtain ⟨_, _, _, _, hk⟩ := ht
  obtain ⟨hptr, hnext, hiter⟩ := h.begin_firedAs hopc
  rw [Issued, hk]
  refine ⟨hptr, hnext.trans (max_eq_right ?_), hiter⟩
  exact (h.nextFire hopc).trans (Nat.le_succ _)

theorem Fires.consumed (h : Fires s opc site f F s1) (hopc : opc ≠ 0x85)
    (ht : ((s1.begin F).cell F.feed.src).SentFrom (t.cell F.feed.src)) : Consumed s t F := by
  intro n
  obtain ⟨_, _, _, _, hk⟩ := ht
  obtain ⟨_, _, _, hr, _⟩ := (h.reads hopc).cell F.feed.src
  rw [hk]
  refine (s1.begin_chan F n).trans ?_
  rw [hr]
  rfl

end Sys2Proof

namespace Sys2Proof.Machine
open Sys2Proof

theorem State.result_sent (s : State) (F : Firing) (k : Kind) (v : Word) (fl : Flags) (lat : Nat) (j : Nat) :
    (s.cell j).SentFrom ((s.result F k v fl lat).cell j) := by
  unfold State.result
  extract_lets isVal s1
  have h1 : (s.cell j).SentFrom (s1.cell j) := by
    obtain hs | hs : s1 = s ∨ s1 = s.fly F .flagsOnly 0 lat fl none := ite_eq_or_eq _ _ _
    · rw [hs]
      exact .refl _
    · rw [hs]
      exact s.fly_sent _ _ _ _ _ _ _
  split
  · exact h1.trans (State.emitToken_sent _ _ _ _ _ _ _)
  · split
    · exact h1.trans (State.fly_sent _ _ _ _ _ _ _ _)
    · split
      · rw [State.absorb_cell]
        exact h1
      · exact h1
  · extract_lets
    split
    · exact h1.trans (State.fly_sent _ _ _ _ _ _ _ _)
    · split
      · rw [State.absorb_cell]
        exact h1
      · exact h1
  · split
    · rw [State.absorb_cell]
      exact h1
    · exact h1

theorem State.compute_sent (s : State) (F : Firing) (lat : Nat) (r : Word × Flags) (j : Nat) :
    (s.cell j).SentFrom ((s.compute F lat r).cell j) := by
  unfold State.compute
  split <;> exact s.result_sent _ _ _ _ _ _

/-- A result of value kind goes into a g register or a handle element with its flags, and else its flags go on their own (R93, R177). -/
theorem State.resultSent_result (s : State) (F : Firing) (k : Kind) (v : Word) (fl : Flags) (lat : Nat) :
    ResultSent s (s.result F k v fl lat) F k v fl lat := by
  have flags (u : State) (hu : ((s.fly F .flagsOnly 0 lat fl none).cell F.cell).SentFrom (u.cell F.cell)) :
      Flies s u F .flagsOnly 0 none fl lat := (s.flies_fly F .flagsOnly 0 lat fl none).of_sent hu
  have raised (hfl : fl ≠ 0) : ¬(fl = flagNone ∨ (k == .data || k == .last) = true ∧ false = true) := by
    simpa [flagNone] using hfl
  unfold ResultSent State.result
  split <;> rename_i hd <;> simp only [hd]
  · refine ⟨State.tokenSent_emitToken _ _ _ _ _ _, fun hfl => flags _ ?_⟩
    rw [if_neg (raised hfl)]
    exact State.emitToken_sent _ _ _ _ _ _ _
  · intro hk
    have hval : (k == .data || k == .last) = true := by simpa using hk
    simp only [hval, and_self, or_true, if_true]
    exact s.flies_fly _ _ _ _ _ _
  · intro hk
    have hval : (k == .data || k == .last) = true := by simpa using hk
    simp only [hval, and_self, or_true, if_true]
    exact s.flies_fly _ _ _ _ _ _
  · intro hfl
    rw [if_neg (raised hfl)]
    refine flags _ ?_
    split
    · rw [State.absorb_cell]
      exact .refl _
    · exact .refl _

/-- A DONE or POISON that goes to no channel changes no cell (R44). -/
theorem State.result_silent (s : State) {F : Firing} {k : Kind} (v : Word) (lat : Nat) (hk : k = .done ∨ k = .poison)
    (hd : ∀ n, F.f.dst ≠ .out n) (j : Nat) : (s.result F k v flagNone lat).cell j = s.cell j := by
  have hval : (k == .data || k == .last) = false := by
    obtain rfl | rfl := hk <;> rfl
  have report : (if k = .poison then s.absorb F.cell F.slot 0 v else s).cell j = s.cell j := by
    split
    · exact State.absorb_cell _ _ _ _ _ _
    · rfl
  unfold State.result
  cases hdst : F.f.dst with
  | out n => exact absurd hdst (hd n)
  | reg n | handle n | none =>
    simp only [hval, true_or, if_true, Bool.false_eq_true, if_false]
    exact report

/-- A suppressed firing computes nothing (R44). -/
theorem State.compute_suppressed (s : State) {F : Firing} (lat : Nat) (r : Word × Flags) (hk : F.kind = .done ∨ F.kind = .poison) :
    ∃ v, s.compute F lat r = s.result F F.kind v flagNone lat ∧ ∀ q, s.compute F lat q = s.compute F lat r := by
  unfold State.compute
  obtain hk | hk := hk <;>
  · rw [hk]
    exact ⟨_, rfl, fun _ => rfl⟩

end Sys2Proof.Machine

namespace Sys2Proof
open Machine

/-- What a result shows is told by the handles and the flights of the firing's cell before it. -/
theorem ResultSent.of_cell {s s1 t : State} {F : Firing} {k : Kind} {v : Word} {fl : Flags} {lat : Nat} (h : ResultSent s t F k v fl lat)
    (hf : (s1.cell F.cell).flight = (s.cell F.cell).flight)
    (hh : ∀ n, (s1.cell F.cell).handle n = (s.cell F.cell).handle n) : ResultSent s1 t F k v fl lat := by
  unfold ResultSent at h ⊢
  split <;> rename_i hd <;> simp only [hd] at h
  · exact ⟨h.1, fun hfl => (h.2 hfl).of_flight hf⟩
  · exact fun hk => (h hk).of_flight hf
  · intro hk
    rw [hh]
    exact (h hk).of_flight hf
  · exact fun hfl => (h hfl).of_flight hf

/-- A firing's result shows so from the state its operands were read in. -/
theorem ResultSent.of_begin {s t : State} {F : Firing} {k : Kind} {v : Word} {fl : Flags} {lat : Nat}
    (h : ResultSent (s.begin F) t F k v fl lat) : ResultSent s t F k v fl lat := by
  obtain ⟨_, _, _, _, _, _, _, _, _, hk⟩ := s.begin_begun F F.cell
  exact h.of_cell (by rw [hk]) fun n => by rw [hk]; rfl

/-! The operators that compute one word. -/

/-- An operator of a table runs as the firing of its row. -/
structure AluRow.Runs (row : AluRow) : Prop where
  opc_ne : row.opc ≠ 0x85
  exec_eq : ∀ site f s, exec (row.make site f) s = s.fireAlu row.opc row.alu row.lat site f

theorem aluRows_run : ∀ row ∈ integerRows ++ floatRows ++ packedRows, row.Runs := by
  simp only [integerRows, floatRows, packedRows, List.forall_mem_append, List.forall_mem_cons, List.not_mem_nil, false_imp_iff,
    implies_true, and_true]
  repeat' apply And.intro
  all_goals exact ⟨by decide, fun _ _ _ => rfl⟩

theorem AluRow.Runs.fires {row : AluRow} (hrow : row.Runs) {site : Site} {f : OpFields} {s s1 : State} {F : Firing}
    (h : Fires s row.opc site f F s1) : ∃ t, exec (row.make site f) s = .next t ∧
      t = (s1.begin F).compute F row.lat (row.alu f F.a F.b F.c) ∧ Issued s t F ∧ Consumed s t F :=
  ⟨_, (hrow.exec_eq site f s).trans (Laws.fireAlu_of_fires h), rfl, h.issued hrow.opc_ne (State.compute_sent _ _ _ _ _),
    h.consumed hrow.opc_ne (State.compute_sent _ _ _ _ _)⟩

/-- Settles O10: the firing of each row issues, consumes and sends the result of its kind (R44). -/
theorem computingOperatorsComplete : Obligations.ComputingOperatorsComplete := by
  intro row hrow site f s F s1 h
  obtain ⟨t, ht, rfl, hissued, hconsumed⟩ := (aluRows_run row hrow).fires h
  refine ⟨_, ht, hissued, hconsumed, fun hworks => ?_, fun hdone => ?_, fun hpoison => ?_⟩
  · have hcompute : (s1.begin F).compute F row.lat (row.alu f F.a F.b F.c) = (s1.begin F).result F F.kind (row.alu f F.a F.b F.c).1
        ((row.alu f F.a F.b F.c).2 ||| F.flags) row.lat := by
      unfold State.compute
      split <;> simp_all [Firing.works]
    rw [hcompute]
    exact (State.resultSent_result _ _ _ _ _ _).of_begin
  · simp only [State.compute, hdone]
    exact (State.resultSent_result _ _ _ _ _ _).of_begin
  · simp only [State.compute, hpoison]
    exact (State.resultSent_result _ _ _ _ _ _).of_begin

/-- Settles O15: planes that start or flip hold no slot state, selector 0xEA reads the counter, and a firing counts. -/
theorem slotCounterRule : Obligations.SlotCounterRule := by
  refine ⟨fun c n gid stage narg cyc => ⟨rfl, rfl⟩, fun s x u hn => ⟨_, rfl, ?_⟩, rfl, fun row hrow site f s F s1 h => ?_⟩
  · rw [if_neg (by omega)]
  · obtain ⟨t, ht, -, ⟨_, _, hiter⟩, _⟩ := (aluRows_run row hrow).fires h
    obtain ⟨hcell, hslot⟩ := h.at_site (aluRows_run row hrow).opc_ne
    refine ⟨t, ht, ?_⟩
    rwa [hcell, hslot] at hiter

/-- Settles O17: a firing's kind is that of its operands, and a DONE or POISON result flies nowhere but to a channel. -/
theorem resultKindRule : Obligations.ResultKindRule := by
  refine ⟨fun s s1 opc site f i fd cur F h => (State.operands_readFiring h).kind, fun s F lat r q hk => ?_, fun ops => ⟨?_, ?_⟩⟩
  · obtain ⟨v, hv, hsame⟩ := s.compute_suppressed lat r hk
    refine ⟨(hsame q).symm, fun hd k => ?_⟩
    rw [hv, s.result_silent v lat hk hd]
  · rintro pre o post t rfl hpre ho ht
    exact resultKind_poison hpre ho ht
  · exact resultKind_consumed

end Sys2Proof
end

