-- ==== Sys2Proof/Proofs/ComputingFrame.lean ====
section
/-! Settles O11: what a slot that runs an operator of one word leaves alone, whether it fires, waits or takes a fault. -/

namespace Sys2Proof.Machine
open Sys2Proof

/-! The frame of a firing. -/

/-- A cell is as another but for what a firing may change in it: cursors, counters, arbiters, channels, trigger, pointer, slots and results in
flight. -/
def Cell.FiredFrom (x y : Cell) : Prop :=
  ∃ ht perf banks pin freed trig due ptr nextFire slots cycle0 flight, y = { x with
    active := { x.active with ht := ht }, perf := perf, banks := banks, pin := pin, freed := freed, trig := trig, trigDue := due,
    ptr := ptr, nextFire := nextFire, slots := slots, cycle0 := cycle0, flight := flight } ∧
    ∀ n, { y.handle n with cur := 0 } = { x.handle n with cur := 0 }

theorem Cell.FiredFrom.refl (x : Cell) : x.FiredFrom x := ⟨_, _, _, _, _, _, _, _, _, _, _, _, rfl, fun _ => rfl⟩

theorem Cell.FiredFrom.trans {x y z : Cell} (h : x.FiredFrom y) (h' : y.FiredFrom z) : x.FiredFrom z := by
  obtain ⟨_, _, _, _, _, _, _, _, _, _, _, _, rfl, hh⟩ := h
  obtain ⟨_, _, _, _, _, _, _, _, _, _, _, _, rfl, hh'⟩ := h'
  exact ⟨_, _, _, _, _, _, _, _, _, _, _, _, rfl, fun n => (hh' n).trans (hh n)⟩

theorem Cell.ReadBy.firedFrom {x y : Cell} (h : x.ReadBy y) : x.FiredFrom y := by
  obtain ⟨_, _, _, rfl, hh⟩ := h
  exact ⟨_, _, _, _, _, _, _, _, _, _, _, _, rfl, hh⟩

theorem Cell.BegunFrom.firedFrom {x y : Cell} (h : x.BegunFrom y) : x.FiredFrom y := by
  obtain ⟨_, _, _, _, _, _, _, _, _, rfl⟩ := h
  exact ⟨_, _, _, _, _, _, _, _, _, _, _, _, rfl, fun _ => rfl⟩

theorem Cell.SentFrom.firedFrom {x y : Cell} (h : x.SentFrom y) : x.FiredFrom y := by
  obtain ⟨_, _, _, _, rfl⟩ := h
  exact ⟨_, _, _, _, _, _, _, _, _, _, _, _, rfl, fun _ => rfl⟩

/-- Besides cells a firing may change draws, ids, the dies but not their Pilots, and what instances note of it. -/
structure State.FramedRest (s t : State) : Prop where
  rest : ∃ cells die insts draws nextId, t = { s with cells := cells, die := die, insts := insts, draws := draws, nextId := nextId }
  pilot : ∀ d, (t.dieAt d).pilot = (s.dieAt d).pilot
  insts : t.insts.map Inst.beside = s.insts.map Inst.beside

theorem State.FramedRest.refl (s : State) : s.FramedRest s := ⟨⟨_, _, _, _, _, rfl⟩, fun _ => rfl, rfl⟩

theorem State.FramedRest.trans {s t u : State} (h : s.FramedRest t) (h' : t.FramedRest u) : s.FramedRest u := by
  refine ⟨?_, fun d => (h'.pilot d).trans (h.pilot d), h'.insts.trans h.insts⟩
  obtain ⟨_, _, _, _, _, rfl⟩ := h.rest
  obtain ⟨_, _, _, _, _, rfl⟩ := h'.rest
  exact ⟨_, _, _, _, _, rfl⟩

theorem State.FramedRest.setCell (s : State) (c : Nat) (v : Cell) : s.FramedRest (s.setCell c v) :=
  ⟨⟨_, _, _, _, _, rfl⟩, fun _ => rfl, rfl⟩

theorem State.FramedRest.updCell (s : State) (c : Nat) (f : Cell → Cell) : s.FramedRest (s.updCell c f) := .setCell _ _ _

theorem State.FramedRest.updDie (s : State) (d : Nat) {f : Die → Die} (h : ∀ x, (f x).pilot = x.pilot) : s.FramedRest (s.updDie d f) := by
  refine ⟨⟨_, _, _, _, _, rfl⟩, fun k => ?_, rfl⟩
  obtain rfl | hne := eq_or_ne k d
  · rw [State.updDie_dieAt_same, h]
  · rw [State.updDie_dieAt_other _ _ _ _ hne]

theorem State.FramedRest.updInst (s : State) (id : Nat) {f : Inst → Inst} (h : ∀ i, Inst.beside (f i) = Inst.beside i) :
    s.FramedRest (s.updInst id f) := by
  refine ⟨⟨_, _, _, _, _, rfl⟩, fun _ => rfl, ?_⟩
  simp only [State.updInst, List.map_map]
  refine List.map_congr_left fun i _ => ?_
  simp only [Function.comp_apply]
  split
  · exact h i
  · rfl

/-- A fold of updates keeps what each of them keeps. -/
theorem State.FramedRest.foldl {β : Type} (l : List β) (f : State → β → State) (s : State) (h : ∀ a x, State.FramedRest a (f a x)) :
    s.FramedRest (l.foldl f s) :=
  List.foldlRecOn l f (motive := fun a => s.FramedRest a) (.refl s) fun a ha x _ => ha.trans (h a x)

theorem State.FramedRest.of_reads {s t : State} (h : s.OperandsRead t) : s.FramedRest t := by
  obtain ⟨_, rfl⟩ := h.rest
  exact ⟨⟨_, _, _, _, _, rfl⟩, fun _ => rfl, rfl⟩

theorem State.FramedRest.countTrig (s : State) (i : Inst) (c : Nat) (dir : Bool) (ch : Nat) (k : Kind) :
    s.FramedRest (s.countTrig i c dir ch k) := by
  simp only [State.countTrig]
  split
  · exact .setCell _ _ _
  · exact .refl s

theorem State.FramedRest.begin (s : State) (F : Firing) : s.FramedRest (s.begin F) := by
  have consume : s.FramedRest (s.consume F) :=
    .foldl _ _ _ fun a e => ((State.FramedRest.updCell a _ _).trans (.updCell _ _ _)).trans (.countTrig _ _ _ _ _ _)
  have copies (a : State) : a.FramedRest (a.fireCopies F) := by
    unfold State.fireCopies
    split
    · exact .foldl _ _ _ fun b j => .updCell b _ _
    · exact .refl a
  have issue (a : State) : a.FramedRest (a.issue F) := by
    unfold State.issue
    extract_lets s1 s2
    have h1 : a.FramedRest s1 := (State.FramedRest.updCell a _ _).trans (copies _)
    have h2 : s1.FramedRest s2 := by
      simp only [s2]
      split
      · exact .refl s1
      · exact .foldl _ _ _ fun b c => .updCell b _ _
    exact (h1.trans h2).trans (.updInst _ _ fun _ => by rfl)
  have deal (a : State) : a.FramedRest (a.deal F) := by
    unfold State.deal
    split
    · exact .refl a
    · exact .updCell _ _ _
  exact (consume.trans (issue _)).trans (deal _)

theorem State.FramedRest.fly (s : State) (F : Firing) (d : ResDst) (v : BitVec 64) (lat : Nat) (fl : Flags) (ld : Option Late) :
    s.FramedRest (s.fly F d v lat fl ld) := by
  unfold State.fly
  extract_lets m s1
  have h1 : s.FramedRest s1 := by
    simp only [s1]
    split
    · exact .refl s
    · exact ⟨⟨_, _, _, _, _, rfl⟩, fun _ => rfl, rfl⟩
  exact h1.trans (.updCell _ _ _)

theorem State.FramedRest.emitToken (s : State) (F : Firing) (n : Nat) (k : Kind) (v : Word) (lat : Nat) :
    s.FramedRest (s.emitToken F n k v lat) :=
  ((State.FramedRest.setCell s _ _).trans (.updCell _ _ _)).trans (.countTrig _ _ _ _ _ _)

theorem State.FramedRest.pushRec (s : State) (r : FaultRec) : s.FramedRest (s.pushRec r) := by
  unfold State.pushRec
  exact .updDie _ _ fun _ => by rfl

theorem State.FramedRest.absorb (s : State) (c slot srck : Nat) (payload : Word) : s.FramedRest (s.absorb c slot srck payload) := by
  unfold State.absorb
  split
  · exact .refl s
  · split
    · exact .refl s
    · exact (State.FramedRest.updInst s _ fun _ => by rfl).trans (.pushRec _ _)

theorem State.FramedRest.result (s : State) (F : Firing) (k : Kind) (v : Word) (fl : Flags) (lat : Nat) :
    s.FramedRest (s.result F k v fl lat) := by
  unfold State.result
  extract_lets isVal s1
  have h1 : s.FramedRest s1 := by
    obtain hs | hs : s1 = s ∨ s1 = s.fly F .flagsOnly 0 lat fl none := ite_eq_or_eq _ _ _
    · rw [hs]
      exact .refl s
    · rw [hs]
      exact .fly s _ _ _ _ _ _
  have report : s1.FramedRest (if k = .poison then s1.absorb F.cell F.slot 0 v else s1) := by
    split
    · exact .absorb _ _ _ _ _
    · exact .refl s1
  refine h1.trans ?_
  split
  · exact .emitToken _ _ _ _ _ _
  · split
    · exact .fly _ _ _ _ _ _ _
    · exact report
  · extract_lets
    split
    · exact .fly _ _ _ _ _ _ _
    · exact report
  · exact report

theorem State.FramedRest.compute (s : State) (F : Firing) (lat : Nat) (r : Word × Flags) : s.FramedRest (s.compute F lat r) := by
  unfold State.compute
  split <;> exact .result _ _ _ _ _ _

/-! Taking a fault (R344, R345). -/

theorem State.takeFault_framed (s : State) (i : Inst) (kind : HoldKind) (r : FaultRec) (sites : List (Nat × Nat)) :
    s.FramedRest (s.takeFault i kind r sites) := by
  unfold State.takeFault
  extract_lets d r1
  split
  · rename_i h _
    extract_lets r2 mark s1 s2
    have h1 : s.FramedRest s1 := .updDie _ _ fun _ => by rfl
    have h2 : s1.FramedRest s2 := by
      refine ⟨⟨_, _, _, _, _, rfl⟩, fun k => ?_, rfl⟩
      simp only [s2, State.dieAt]
      generalize s1.die = m
      induction m with
      | nil => rfl
      | cons e m ih =>
        simp only [List.map_cons, Map.get]
        split
        · rfl
        · exact ih
    have h3 : s2.FramedRest { s2 with draws := s2.draws + 1 } := ⟨⟨_, _, _, _, _, rfl⟩, fun _ => rfl, rfl⟩
    exact ((h1.trans h2).trans h3).trans (.pushRec _ _)
  · have h1 : s.FramedRest (s.newHid d).2 := ⟨⟨_, _, _, _, _, rfl⟩, fun _ => rfl, rfl⟩
    exact ((h1.trans (.updDie _ _ fun _ => by rfl)).trans (.updInst _ _ fun _ => by rfl)).trans (.pushRec _ _)

@[simp] theorem State.takeFault_cell (s : State) (i : Inst) (kind : HoldKind) (r : FaultRec) (sites : List (Nat × Nat)) (k : Nat) :
    (s.takeFault i kind r sites).cell k = s.cell k := by
  unfold State.takeFault
  extract_lets d r1
  split <;> rfl

theorem State.fireFault_framed (s : State) (i : Inst) (cell slot : Nat) (e : FireFault) :
    s.FramedRest (s.fireFault i cell slot e) ∧ ∀ k, (s.cell k).FiredFrom ((s.fireFault i cell slot e).cell k) := by
  unfold State.fireFault State.fireFaultAt
  extract_lets r r2
  refine ⟨(State.takeFault_framed s i .firing r2 _).trans (.updCell _ _ _), fun k => ?_⟩
  rw [← State.takeFault_cell s i .firing r2 [(cell, slot)] k]
  exact State.updCell_cell_rel Cell.FiredFrom.refl (fun _ => by exact ⟨_, _, _, _, _, _, _, _, _, _, _, _, rfl, fun _ => rfl⟩) _ _ _

/-! The firing of an operator that computes one word. -/

theorem State.fireAlu_framed {s t : State} {opc : Nat} {alu : AluFn} {lat : Nat} {site : Site} {f : OpFields}
    (h : s.fireAlu opc alu lat site f = .next t) : s.FramedRest t ∧ ∀ k, (s.cell k).FiredFrom (t.cell k) := by
  obtain rfl | ⟨i, e, _, rfl⟩ | ⟨F, s1, ⟨_, _, _, _, _, hop⟩, _, rfl⟩ := Laws.fire_cases h
  · exact ⟨.refl t, fun _ => .refl _⟩
  · exact s.fireFault_framed i _ _ e
  · have hr := (State.operands_readFiring hop).reads
    refine ⟨((State.FramedRest.of_reads hr).trans (.begin s1 F)).trans (.compute _ _ _ _), fun k => ?_⟩
    exact ((hr.cell k).firedFrom.trans (s1.begin_begun F k).firedFrom).trans (State.compute_sent _ _ _ _ k).firedFrom

end Sys2Proof.Machine

namespace Sys2Proof
open Machine

theorem untouched_of_framed {s t : State} (h : s.FramedRest t) (hc : ∀ k, (s.cell k).FiredFrom (t.cell k)) :
    Untouched s t ∧ t.reqs = s.reqs := by
  obtain ⟨_, _, _, _, _, ht⟩ := h.rest
  have cell (k : Nat) := hc k
  subst ht
  refine ⟨⟨fun k => ?_, fun _ => rfl, rfl, rfl, rfl, rfl, rfl, rfl, rfl⟩, rfl⟩
  obtain ⟨_, _, _, _, _, _, _, _, _, _, _, _, hk, _⟩ := cell k
  rw [hk]
  exact ⟨rfl, rfl, rfl, rfl, rfl, rfl, rfl, rfl, rfl, rfl, rfl, rfl, rfl⟩

/-- Settles O11: waiting, taking a fault and firing each keep the frame. -/
theorem computingOperatorsFrame : Obligations.ComputingOperatorsFrame := by
  intro row hrow site f s t h
  obtain ⟨hrest, hcells⟩ := State.fireAlu_framed (((aluRows_run row hrow).exec_eq site f s).symm.trans h)
  obtain ⟨huntouched, hreqs⟩ := untouched_of_framed hrest hcells
  refine ⟨huntouched, hreqs, fun k n => ?_, hrest.pilot, hrest.insts⟩
  obtain ⟨_, _, _, _, _, _, _, _, _, _, _, _, _, hh⟩ := hcells k
  exact hh n

end Sys2Proof
end

