-- ==== Sys2Proof/Proofs/ResultsDelivered.lean ====
section
/-! Settles O16: where a delivered result lands, and what it leaves alone. -/

namespace Sys2Proof.Machine
open Sys2Proof

/-! Stores to a scratchpad (R115). -/

/-- A store of bytes changes the scratchpad, by what it held. -/
theorem Cell.putBytes_cell (c : Cell) (swz a v n : Nat) : ∃ spad, ∀ d : Cell, d.spad = c.spad →
    d.putBytes swz a v n = { d with spad := spad } := by
  induction n with
  | zero => exact ⟨c.spad, fun d hd => by rw [← hd]; rfl⟩
  | succ n ih =>
    obtain ⟨spad, h⟩ := ih
    refine ⟨Map.set 0 spad (spadKey swz (a + n)) (BitVec.ofNat 8 (v / 2 ^ (8 * n))), fun d hd => ?_⟩
    rw [Cell.putBytes, h d hd]

theorem Cell.putBytes_eq (c : Cell) (swz a v n : Nat) : c.putBytes swz a v n = { c with spad := (c.putBytes swz a v n).spad } := by
  obtain ⟨_, h⟩ := c.putBytes_cell swz a v n
  rw [h c rfl]

theorem Cell.putBytes_spad_congr {c d : Cell} (h : d.spad = c.spad) (swz a v n : Nat) :
    (d.putBytes swz a v n).spad = (c.putBytes swz a v n).spad := by
  obtain ⟨_, hc⟩ := c.putBytes_cell swz a v n
  rw [hc d h, hc c rfl]

/-- A store changes the bytes it names and no other (R115). -/
theorem Cell.putBytes_other (c : Cell) (swz a v n b : Nat) (h : ∀ i, i < n → b ≠ spadKey swz (a + i)) :
    Map.get 0 (c.putBytes swz a v n).spad b = Map.get 0 c.spad b := by
  induction n with
  | zero => rfl
  | succ n ih =>
    rw [Cell.putBytes, Map.get_set_other _ _ _ _ _ (h n (by omega)), ih fun i hi => h i (by omega)]

/-- A cell is as another but for a scratchpad, the notes of its writes and its uncorrectable words. -/
def Cell.StoredTo (x y : Cell) (spad : Map Byte) : Prop :=
  ∃ hist bad, y = { x with spad := spad, hist := hist, badWords := bad }

@[simp] theorem State.forward_cell (s : State) (c off : Nat) (bs : List Byte) (k : Nat) : (s.forward c off bs).cell k = s.cell k := by
  unfold State.forward
  split <;> rfl

theorem State.spadStoreBy_cell (s : State) (w : Writer) (c swz off v n : Nat) :
    (s.cell c).StoredTo ((s.spadStoreBy w c swz off v n).cell c) ((s.cell c).putBytes swz off v n).spad := by
  rw [State.spadStoreBy, State.forward_cell, State.updCell_cell_same]
  have heal (x : Cell) : ∃ bad, x.healWord swz off n = { x with badWords := bad } := by
    unfold Cell.healWord
    split <;> exact ⟨_, rfl⟩
  obtain ⟨_, hbad⟩ := heal ((s.cell c).putBytes swz off v n)
  rw [hbad, Cell.putBytes_eq]
  exact ⟨_, _, rfl⟩

theorem State.spadStoreBy_cell_other (s : State) (w : Writer) (c swz off v n : Nat) {k : Nat} (h : k ≠ c) :
    (s.spadStoreBy w c swz off v n).cell k = s.cell k := by
  rw [State.spadStoreBy, State.forward_cell, State.updCell_cell_other _ _ _ _ h]

/-! Flags (R93). -/

theorem Cell.raiseAt_cell (c : Cell) (cyc : Nat) (fl : Flags) : ∃ more, c.raiseAt cyc fl = { c with flight := c.flight ++ more } := by
  unfold Cell.raiseAt
  split
  · exact ⟨[], by rw [List.append_nil]⟩
  · exact ⟨_, rfl⟩

theorem Cell.raiseAt_flight (c : Cell) (cyc : Nat) {fl : Flags} (h : fl ≠ 0) :
    ⟨cyc, 0, .flagsOnly, 0, none, none, fl, [], 0⟩ ∈ (c.raiseAt cyc fl).flight := by
  rw [Cell.raiseAt, if_neg h]
  exact List.mem_append_right _ (List.mem_singleton_self _)

@[simp] theorem Cell.raiseAt_none (c : Cell) (cyc : Nat) : c.raiseAt cyc 0 = c := if_pos rfl

/-- Flags raised at once, or none. -/
theorem State.raised_cell (s : State) (c : Nat) (fl : Flags) :
    (if fl = 0 then s else s.updCell c (fun t => t.raise fl)).cell c = (s.cell c).raise fl := by
  split
  · rename_i h
    simp [Cell.raise, h]
  · exact State.updCell_cell_same _ _ _

theorem State.raisedAt_cell (s : State) (c cyc : Nat) (fl : Flags) :
    (if fl = 0 then s else s.updCell c (fun t => t.raiseAt cyc fl)).cell c = (s.cell c).raiseAt cyc fl := by
  split
  · rename_i h
    rw [h, Cell.raiseAt_none]
  · exact State.updCell_cell_same _ _ _

/-! Accumulators (R271, R272). -/

/-- The other bank. -/
theorem Cell.setAcc_acc_otherBank (c : Cell) {bank : Nat} (h : bank < 2) (p q : Nat) (v : Word) :
    (c.setAcc bank p v).acc (1 - bank) q = c.acc (1 - bank) q := by
  obtain rfl | rfl : bank = 0 ∨ bank = 1 := by omega
  all_goals rfl

theorem Cell.setAcc_acc_same (c : Cell) (bank p : Nat) (v : Word) : (c.setAcc bank p v).acc bank p = v := by
  unfold Cell.setAcc Cell.acc
  split <;> exact Map.get_set_same _ _ _ _

theorem Cell.setAcc_acc_other (c : Cell) (bank : Nat) {p q : Nat} (v : Word) (h : q ≠ p) : (c.setAcc bank p v).acc bank q = c.acc bank q := by
  unfold Cell.setAcc Cell.acc
  split <;> exact Map.get_set_other _ _ _ _ _ h

theorem Cell.setAcc_cell (c : Cell) (bank p : Nat) (v : Word) : ∃ a0 a1, c.setAcc bank p v = { c with a0 := a0, a1 := a1 } := by
  unfold Cell.setAcc
  split <;> exact ⟨_, _, rfl⟩

/-- What a `accld` makes of an element: the word read, or its sum with the element, rounded once. -/
def accLoaded (add : Bool) (old : Word) (v : Nat) : Word :=
  if add then BitVec.ofNat 32 (roundTo fmtF32 .rne false (Ex.add .rne (fval fmtF32 old.toNat) (fval fmtF32 v)).1).1
  else BitVec.ofNat 32 v

theorem Cell.accLoadEl_cell (c : Cell) (bank p off swz : Nat) (add : Bool) :
    (c.accLoadEl bank p off swz add).1 = c.setAcc bank p (accLoaded add (c.acc bank p) (c.bytes swz off 4)) := by
  unfold Cell.accLoadEl accLoaded
  cases add <;> rfl

/-- The bytes of a scratchpad are told by the scratchpad. -/
theorem Cell.bytes_congr {c d : Cell} (h : d.spad = c.spad) (swz a n : Nat) : d.bytes swz a n = c.bytes swz a n := by
  induction n with
  | zero => rfl
  | succ n ih => rw [Cell.bytes, Cell.bytes, ih, Cell.byte, Cell.byte, h]

/-- `accld` of the first elements, in order. -/
theorem Cell.accLoad_elements (c : Cell) {bank : Nat} (hb : bank < 2) (off pitch swz : Nat) (add : Bool) (n : Nat) :
    let z := ((List.range n).foldl (fun (a : Cell × Flags) p =>
      let r := a.1.accLoadEl bank p (off + p / 8 * pitch + p % 8 * 4) swz add
      (r.1, a.2 ||| r.2)) (c, flagNone)).1
    (∃ a0 a1, z = { c with a0 := a0, a1 := a1 }) ∧ (∀ p, z.acc (1 - bank) p = c.acc (1 - bank) p) ∧
      ∀ p, z.acc bank p = if p < n then accLoaded add (c.acc bank p) (c.bytes swz (off + p / 8 * pitch + p % 8 * 4) 4) else c.acc bank p := by
  induction n with
  | zero => exact ⟨⟨_, _, rfl⟩, fun _ => rfl, fun _ => rfl⟩
  | succ n ih =>
    rw [List.range_succ, List.foldl_append]
    generalize (List.range n).foldl (fun (a : Cell × Flags) p =>
      let r := a.1.accLoadEl bank p (off + p / 8 * pitch + p % 8 * 4) swz add
      (r.1, a.2 ||| r.2)) (c, flagNone) = zf at ih
    obtain ⟨⟨_, _, hz⟩, hother, hbank⟩ := ih
    simp only [List.foldl_cons, List.foldl_nil, Cell.accLoadEl_cell]
    refine ⟨?_, fun p => (Cell.setAcc_acc_otherBank _ hb _ _ _).trans (hother p), fun p => ?_⟩
    · obtain ⟨_, _, h⟩ := Cell.setAcc_cell zf.1 bank n (accLoaded add (zf.1.acc bank n) (zf.1.bytes swz (off + n / 8 * pitch + n % 8 * 4) 4))
      rw [h, hz]
      exact ⟨_, _, rfl⟩
    · obtain rfl | hne := eq_or_ne p n
      · rw [Cell.setAcc_acc_same, hbank, if_neg (by omega), if_pos (by omega),
          Cell.bytes_congr (c := c) (d := zf.1) (by rw [hz])]
      · rw [Cell.setAcc_acc_other _ _ _ hne, hbank]
        by_cases hp : p < n
        · rw [if_pos hp, if_pos (by omega)]
        · rw [if_neg hp, if_neg (by omega)]

/-- Stores of the elements of a bank, in order, and the flags they raise. -/
theorem State.accStore_elements (s : State) (c bank off pitch swz esz : Nat) (mod : BitVec 4) (l : List Nat) :
    let at_ := fun (p : Nat) => off + p / 8 * pitch + p % 8 * 2 ^ esz
    let r := l.foldl (fun (a : State × Flags) p =>
      let r := (s.cell c).accOut bank p esz mod
      (a.1.spadStore c swz (off + p / 8 * pitch + p % 8 * 2 ^ esz) r.1 (2 ^ esz), a.2 ||| r.2)) (s, flagNone)
    (s.cell c).StoredTo (r.1.cell c)
        (l.foldl (fun (z : Cell) p => z.putBytes swz (at_ p) ((s.cell c).accOut bank p esz mod).1 (2 ^ esz)) (s.cell c)).spad ∧
      (∀ k, k ≠ c → r.1.cell k = s.cell k) ∧
      r.2 = l.foldl (fun (a : Flags) p => a ||| ((s.cell c).accOut bank p esz mod).2) flagNone := by
  intro at_
  induction l using List.reverseRecOn with
  | nil => exact ⟨⟨_, _, rfl⟩, fun _ _ => rfl, rfl⟩
  | append_singleton l p ih =>
    simp only [List.foldl_append, List.foldl_cons, List.foldl_nil]
    generalize l.foldl (fun (a : State × Flags) p =>
      ((a.1.spadStore c swz (off + p / 8 * pitch + p % 8 * 2 ^ esz) ((s.cell c).accOut bank p esz mod).1 (2 ^ esz),
        a.2 ||| ((s.cell c).accOut bank p esz mod).2))) (s, flagNone) = r at ih ⊢
    obtain ⟨⟨hist, bad, hr⟩, hother, hfl⟩ := ih
    refine ⟨?_, fun k hk => (State.spadStoreBy_cell_other _ _ _ _ _ _ _ hk).trans (hother k hk), congrArg (· ||| _) hfl⟩
    obtain ⟨_, _, h⟩ := State.spadStoreBy_cell r.1 (.plain c) c swz (off + p / 8 * pitch + p % 8 * 2 ^ esz)
      ((s.cell c).accOut bank p esz mod).1 (2 ^ esz)
    rw [State.spadStore, h, Cell.putBytes_spad_congr (c := l.foldl (fun (z : Cell) p => z.putBytes swz (at_ p)
      ((s.cell c).accOut bank p esz mod).1 (2 ^ esz)) (s.cell c)) (by rw [hr]), hr]
    exact ⟨_, _, rfl⟩

theorem Cell.putElements_other (c : Cell) (swz size b : Nat) (at_ val : Nat → Nat) (l : List Nat)
    (h : ∀ p ∈ l, ∀ i, i < size → b ≠ spadKey swz (at_ p + i)) :
    Map.get 0 (l.foldl (fun (z : Cell) p => z.putBytes swz (at_ p) (val p) size) c).spad b = Map.get 0 c.spad b := by
  induction l generalizing c with
  | nil => rfl
  | cons p l ih =>
    rw [List.foldl_cons, ih _ fun q hq => h q (List.mem_cons_of_mem _ hq)]
    exact Cell.putBytes_other _ _ _ _ _ _ (h p List.mem_cons_self)

/-! What a delivery leaves in its cell, by destination. -/

theorem State.markArrival_cell_other (s : State) {c k : Nat} (port vc : Nat) (h : k ≠ c) :
    (s.markArrival c port vc).cell k = s.cell k := by
  unfold State.markArrival
  split
  · rfl
  · refine List.foldlRecOn _ _ (motive := fun a : State => a.cell k = s.cell k) rfl fun a ha e _ => ?_
    split
    · rw [State.updCell_cell_other _ _ _ _ h, ha]
    · exact ha

section
variable {s : State} {c cyc : Nat} {x : Flight}

theorem State.deliver_reg {n : Nat} (h : x.dst = .reg n) :
    (s.deliver c x cyc).cell c = ((s.cell c).raise x.flags).setReg n (BitVec.ofNat 32 x.val.toNat) := by
  simp only [State.deliver, h, State.updCell_cell_same, State.raised_cell]

theorem State.deliver_fpstat (h : x.dst = .fpstat) :
    (s.deliver c x cyc).cell c = { s.cell c with fpstat := BitVec.ofNat 6 x.val.toNat } := by
  simp only [State.deliver, h, State.updCell_cell_same, State.raised_cell]
  rfl

theorem State.deliver_flagsOnly (h : x.dst = .flagsOnly) : (s.deliver c x cyc).cell c = (s.cell c).raise x.flags := by
  simp only [State.deliver, h, State.raised_cell]

theorem State.deliver_accZero {b : Nat} (h : x.dst = .accZero b) :
    (s.deliver c x cyc).cell c = ((s.cell c).raiseAt cyc x.flags).zeroBank b := by
  simp only [State.deliver, h, State.updCell_cell_same, State.raisedAt_cell]

theorem State.deliver_store {off size swz : Nat} (h : x.dst = .store off size swz ∨ x.dst = .write off size swz) :
    ((s.cell c).raiseAt cyc x.flags).StoredTo ((s.deliver c x cyc).cell c) ((s.cell c).putBytes swz off x.val.toNat size).spad := by
  obtain ⟨_, hmore⟩ := (s.cell c).raiseAt_cell cyc x.flags
  have stored := State.spadStoreBy_cell (if x.flags = 0 then s else s.updCell c (fun t => t.raiseAt cyc x.flags)) (.plain c) c swz off x.val.toNat size
  rw [State.raisedAt_cell, Cell.putBytes_spad_congr (c := s.cell c) (by rw [hmore])] at stored
  obtain h | h := h <;>
  · simp only [State.deliver, h]
    exact stored

theorem State.deliver_chan {n : Nat} {tok : Token} (h : x.dst = .chan n) (ht : x.tok = some tok) (hf : x.flags = 0) :
    s.deliver c x cyc = s.updCell c (fun z => z.setChan n (z.chan n ++ [tok])) := by
  simp only [State.deliver, h, ht, hf, if_true]

theorem State.deliver_out {n : Nat} {tok : Token} (h : x.dst = .out n) (ht : x.tok = some tok) (hf : x.flags = 0) :
    ∃ routes, (s.deliver c x cyc).cell c = Cell.emit { s.cell c with routes := routes } n (tok.retag tok.kind
      (if tok.kind = .data ∨ tok.kind = .last then BitVec.ofNat 32 x.val.toNat else tok.payload)) := by
  simp only [State.deliver, h, ht, hf, if_true, State.updCell_cell_same]
  split
  · obtain ⟨_, hm⟩ := s.markArrival_cell c 4 n c
    rw [hm]
    exact ⟨_, rfl⟩
  · exact ⟨_, rfl⟩

theorem State.deliver_accStore {bank off pitch swz esz : Nat} {mod : BitVec 4} (h : x.dst = .accStore bank off pitch swz esz mod)
    (hf : x.flags = 0) : ∃ z, (s.cell c).StoredTo z ((List.range 32).foldl (fun (z : Cell) p =>
        z.putBytes swz (off + p / 8 * pitch + p % 8 * 2 ^ esz) ((s.cell c).accOut bank p esz mod).1 (2 ^ esz)) (s.cell c)).spad ∧
      (s.deliver c x cyc).cell c =
        z.raiseAt cyc ((List.range 32).foldl (fun (a : Flags) p => a ||| ((s.cell c).accOut bank p esz mod).2) flagNone) := by
  obtain ⟨hstored, _, hfl⟩ := s.accStore_elements c bank off pitch swz esz mod (List.range 32)
  refine ⟨_, hstored, ?_⟩
  simp only [State.deliver, h, hf, if_true, State.updCell_cell_same]
  rw [← hfl]
  rfl

theorem State.deliver_accLoad {bank off pitch swz : Nat} {add : Bool} (h : x.dst = .accLoad bank off pitch swz add) (hf : x.flags = 0) :
    (s.deliver c x cyc).cell c = ((s.cell c).accLoadAll bank off pitch swz add).1.raiseAt cyc
      ((s.cell c).accLoadAll bank off pitch swz add).2 := by
  simp only [State.deliver, h, hf, if_true, State.updCell_cell_same]

/-- A delivery changes no other cell. -/
theorem State.deliver_cell_other {k : Nat} (h : k ≠ c) : (s.deliver c x cyc).cell k = s.cell k := by
  have raised (f : Cell → Cell) : (if x.flags = 0 then s else s.updCell c f).cell k = s.cell k := by
    split
    · rfl
    · exact State.updCell_cell_other _ _ _ _ h
  have stored (off v size swz : Nat) (u : State) : (u.spadStore c swz off v size).cell k = u.cell k :=
    State.spadStoreBy_cell_other _ _ _ _ _ _ _ h
  cases hd : x.dst with
  | out n =>
    simp only [State.deliver, hd]
    split
    · exact raised _
    · rw [State.updCell_cell_other _ _ _ _ h]
      split
      · rw [State.markArrival_cell_other _ _ _ h, raised]
      · exact raised _
  | chan n =>
    simp only [State.deliver, hd]
    split
    · exact raised _
    · rw [State.updCell_cell_other _ _ _ _ h, raised]
  | store off size swz | write off size swz =>
    simp only [State.deliver, hd]
    rw [stored, raised]
  | flagsOnly | ask ws =>
    simp only [State.deliver, hd]
    exact raised _
  | accStore b off pitch swz esz mod =>
    simp only [State.deliver, hd]
    rw [State.updCell_cell_other _ _ _ _ h]
    exact ((State.accStore_elements _ c b off pitch swz esz mod _).2.1 k h).trans (raised _)
  | reg n | fpstat | accZero b | accLoad b off pitch swz add =>
    simp only [State.deliver, hd]
    rw [State.updCell_cell_other _ _ _ _ h, raised]

theorem State.deliver_memByte (a : Nat) : (s.deliver c x cyc).memByte a = s.memByte a :=
  congrArg (fun m => Map.get memDefault m a) (s.deliver_mem c x cyc)

end

/-! Atomics at their bank (R114, R228, R233). -/

/-- Asking for words moves the banks' arbiters only (R114). -/
theorem State.askWords_cell (s : State) (c cls cyc : Nat) (ws : List Nat) (k : Nat) :
    ∃ banks, (s.askWords c cls cyc ws).2.cell k = { s.cell k with banks := banks } := by
  have serve (g : Cell → Nat → BankArb) (z : Cell) :
      ∃ banks, ws.foldl (fun (t : Cell) w => t.setBank (w % 4) (g t w)) z = { z with banks := banks } := by
    refine List.foldlRecOn ws _ (motive := fun y : Cell => ∃ banks, y = { z with banks := banks }) ⟨z.banks, rfl⟩ ?_
    rintro _ ⟨_, rfl⟩ w -
    exact ⟨_, rfl⟩
  have put (v : Cell) (hv : ∃ banks, v = { s.cell c with banks := banks }) :
      ∃ banks, (s.setCell c v).cell k = { s.cell k with banks := banks } := by
    obtain rfl | hne := eq_or_ne k c
    · rw [State.setCell_cell_same]
      exact hv
    · rw [State.setCell_cell_other _ _ _ _ hne]
      exact ⟨_, rfl⟩
  simp only [State.askWords]
  split
  · exact put _ (serve _ _)
  · exact put _ (serve _ _)

@[simp] theorem State.acquireFrom_cell (s : State) (w : Writer) (loc : Spot) (found : Option Written) (k : Nat) :
    (s.acquireFrom w loc found).cell k = s.cell k := by
  unfold State.acquireFrom
  split
  · split
    · exact State.see_cell _ _ _ _
    · rfl
  · rfl

section
variable {s : State} {c i z k off swz : Nat} {op : RmwOp} {x : Flight}

/-- A granted atomic: its value is the old word, and its word goes back in the same access (R228, R233). -/
theorem State.takeLate_rmw (hfull : s.streamFull z off 4 = false) (hgrant : (s.askWords z 3 k (accessWords swz off 4)).1 = true) :
    ∃ u : State, (∀ j, ∃ banks, u.cell j = { s.cell j with
        banks := banks, flight := if j = c then (s.cell j).flight.set i { x with
          ld := none, val := BitVec.ofNat 64 ((s.cell z).bytes swz off 4), flags := x.flags } else (s.cell j).flight }) ∧
      s.takeLate c i x (.rmw z k off swz op) = match op.new (BitVec.ofNat 32 ((s.cell z).bytes swz off 4)) with
        | some w => u.spadStoreBy ⟨z, c, some op.tag⟩ z swz off w.toNat 4
        | none => u := by
  unfold State.takeLate
  extract_lets g s0 v own s1 s2
  have hg : g = s.askWords z 3 k (accessWords swz off 4) := if_neg (by simp [Late.stores, hfull])
  have h0 (j : Nat) : ∃ banks, s0.cell j = { s.cell j with banks := banks } := by
    simp only [s0, hg]
    exact s.askWords_cell _ _ _ _ _
  have hv : v = ((s.cell z).bytes swz off 4, flagNone) := by
    obtain ⟨_, hz⟩ := h0 z
    exact Prod.ext (Cell.bytes_congr (c := s.cell z) (d := s0.cell z) (by rw [hz]) _ _ _) rfl
  have h1 (j : Nat) : s1.cell j = { s0.cell j with flight := if j = c then (s.cell j).flight.set i { x with
      ld := none, val := BitVec.ofNat 64 ((s.cell z).bytes swz off 4), flags := x.flags } else (s.cell j).flight } := by
    have hflags : (if own = true then x.flags ||| v.2 else x.flags) = x.flags := by
      rw [hv]
      simp [flagNone]
    obtain ⟨_, hj⟩ := h0 j
    obtain rfl | hne := eq_or_ne j c
    · rw [State.updCell_cell_same, hflags, hv, if_pos rfl, Cell.setFlight, hj]
    · rw [State.updCell_cell_other _ _ _ _ hne, if_neg hne, hj]
  have h2 (j : Nat) : s2.cell j = s1.cell j := by
    simp only [s2]
    split
    · rfl
    · rw [hv]
      exact State.updCell_cell_keeps id (fun y => Cell.raiseAt_none y _) _ _ _
  refine ⟨s2.acquireFrom ⟨z, c, some op.tag⟩ (.cell z) (Map.find (s0.cell z).hist (spadWord swz off)), fun j => ?_, ?_⟩
  · obtain ⟨_, hj⟩ := h0 j
    rw [State.acquireFrom_cell, h2, h1, hj]
    exact ⟨_, rfl⟩
  · have hgrant' : g.1 = true := hg ▸ hgrant
    have hv1 : v.1 = (s.cell z).bytes swz off 4 := congrArg Prod.fst hv
    rw [← hv1]
    exact if_neg (by simp [hgrant'])

end

end Sys2Proof.Machine

namespace Sys2Proof
open Machine

/-- Settles O16, by the destination of the result. -/
theorem resultsLand : Obligations.ResultsLand := by
  refine ⟨fun s c cyc x n h => ?reg, fun s c cyc x n tok h ht hf => ?out, fun s c cyc x n tok h ht hf => State.deliver_chan h ht hf,
    fun s c cyc x h => ?fpstat, fun s c cyc bank off pitch swz esz mod x h hf => ?accStore,
    fun s c cyc bank off pitch swz add x h hf hb => ?accLoad, fun s c cyc x h => ?flags, fun s c cyc off size swz x h => ?store,
    fun s c cyc b x h hb => ?accZero, fun s c i z k off swz op x hfull hgrant => ?atomic⟩
  case reg =>
    intro t
    have hc : t.cell c = _ := State.deliver_reg h
    rw [SameAcc, hc]
    exact ⟨Cell.setReg_reg_same _ _ _, fun k hk => Cell.setReg_reg_other _ _ _ _ hk, rfl, rfl, ⟨rfl, rfl⟩, rfl,
      fun k hk => State.deliver_cell_other hk, fun a => State.deliver_memByte a⟩
  case out =>
    intro t sent
    obtain ⟨routes, hc⟩ : ∃ routes, t.cell c = Cell.emit { s.cell c with routes := routes } n sent := State.deliver_out h ht hf
    have rest : ∃ rin pin, t.cell c = { s.cell c with routes := routes, rin := rin, pin := pin } := by
      rw [hc, Cell.emit]
      split <;> exact ⟨_, _, rfl⟩
    refine ⟨?_, ?_⟩
    · rw [hc, Cell.emit]
      split
      · exact ⟨Cell.setInFifo_inFifo_same _ _ _ _, rfl⟩
      · exact ⟨Cell.setChan_chan_same _ _ _, rfl⟩
    · obtain ⟨_, _, hr⟩ := rest
      rw [SameAcc, hr]
      exact ⟨rfl, rfl, ⟨rfl, rfl⟩, rfl, rfl, fun k hk => State.deliver_cell_other hk, fun a => State.deliver_memByte a⟩
  case fpstat =>
    intro t
    have hc : t.cell c = _ := State.deliver_fpstat h
    rw [SameAcc, hc]
    exact ⟨rfl, rfl, rfl, ⟨rfl, rfl⟩, fun k hk => State.deliver_cell_other hk, fun a => State.deliver_memByte a⟩
  case accStore =>
    intro t at_ fl
    obtain ⟨z, ⟨_, _, rfl⟩, hc⟩ : ∃ z, (s.cell c).StoredTo z _ ∧ t.cell c = z.raiseAt cyc fl := State.deliver_accStore h hf
    obtain ⟨_, hmore⟩ := Cell.raiseAt_cell _ cyc fl
    refine ⟨?_, fun b hb => ?_, fun hfl => ?_, ?_, ?_, ?_, fun k hk => State.deliver_cell_other hk, fun a => State.deliver_memByte a⟩
    · rw [hc, hmore]
    · rw [hc, hmore]
      exact Cell.putElements_other _ _ _ _ _ _ _ fun p hp i hi => hb p i (List.mem_range.mp hp) hi
    · rw [hc]
      exact Cell.raiseAt_flight _ _ hfl
    · rw [hc, hmore]
    · rw [SameAcc, hc, hmore]
      exact ⟨rfl, rfl⟩
    · rw [hc, hmore]
  case accLoad =>
    intro t
    have hc : t.cell c = _ := State.deliver_accLoad h hf
    obtain ⟨⟨_, _, hz⟩, hother, hbank⟩ := (s.cell c).accLoad_elements hb off pitch swz add 32
    obtain ⟨_, hmore⟩ := Cell.raiseAt_cell ((s.cell c).accLoadAll bank off pitch swz add).1 cyc ((s.cell c).accLoadAll bank off pitch swz add).2
    have acc (b p : Nat) : (t.cell c).acc b p = ((s.cell c).accLoadAll bank off pitch swz add).1.acc b p := by
      rw [hc, hmore]
      rfl
    refine ⟨fun p hp => ?_, ?_, ?_, ?_, fun k hk => State.deliver_cell_other hk, fun a => State.deliver_memByte a⟩
    · have hp' := (acc bank p).trans (hbank p)
      rw [if_pos hp] at hp'
      refine ⟨?_, ?_, (acc _ p).trans (hother p)⟩ <;>
      · rintro rfl
        exact hp'
    all_goals
      rw [hc, hmore, Cell.accLoadAll, hz]
  case flags =>
    intro t
    have hc : t.cell c = _ := State.deliver_flagsOnly h
    rw [hc]
    exact ⟨rfl, rfl, rfl, fun k hk => State.deliver_cell_other hk, fun a => State.deliver_memByte a⟩
  case store =>
    intro t
    obtain ⟨_, _, hc⟩ : ((s.cell c).raiseAt cyc x.flags).StoredTo (t.cell c) _ := State.deliver_store h
    have hfl : x.flags ≠ 0 → ⟨cyc, 0, .flagsOnly, 0, none, none, x.flags, [], 0⟩ ∈ ((s.cell c).raiseAt cyc x.flags).flight :=
      Cell.raiseAt_flight _ _
    obtain ⟨_, hmore⟩ := (s.cell c).raiseAt_cell cyc x.flags
    rw [hmore] at hc hfl
    rw [SameAcc, hc]
    exact ⟨rfl, fun b hb => Cell.putBytes_other _ _ _ _ _ _ hb, hfl, rfl, rfl, ⟨rfl, rfl⟩, rfl,
      fun k hk => State.deliver_cell_other hk, fun a => State.deliver_memByte a⟩
  case accZero =>
    intro t
    have hc : t.cell c = _ := State.deliver_accZero h
    obtain ⟨_, hmore⟩ := (s.cell c).raiseAt_cell cyc x.flags
    rw [hc, hmore]
    obtain rfl | rfl : b = 0 ∨ b = 1 := by omega
    all_goals exact ⟨fun p => ⟨rfl, rfl⟩, rfl, rfl, fun a => State.deliver_memByte a⟩
  case atomic =>
    intro t old
    obtain ⟨u, hu, ht⟩ := State.takeLate_rmw (c := c) (i := i) (op := op) (x := x) hfull hgrant
    have hspad : (u.cell z).spad = (s.cell z).spad := by
      obtain ⟨_, hz⟩ := hu z
      rw [hz]
    have hflight (hi : i < (s.cell c).flight.length) : (u.cell c).flight[i]? = some { x with
        ld := none, val := BitVec.ofNat 64 old, flags := x.flags } := by
      obtain ⟨_, hc⟩ := hu c
      rw [hc, if_pos rfl]
      exact List.getElem?_set_self hi
    cases hop : op.new (BitVec.ofNat 32 old) with
    | none =>
      have ht : t = u := by rw [show t = _ from ht, show op.new _ = none from hop]
      rw [ht]
      exact ⟨hspad, fun hi => ⟨_, hflight hi, rfl, rfl, rfl⟩⟩
    | some w =>
      have ht : t = u.spadStoreBy ⟨z, c, some op.tag⟩ z swz off w.toNat 4 := by rw [show t = _ from ht, show op.new _ = some w from hop]
      obtain ⟨_, _, hz⟩ := u.spadStoreBy_cell ⟨z, c, some op.tag⟩ z swz off w.toNat 4
      have hc : ((u.spadStoreBy ⟨z, c, some op.tag⟩ z swz off w.toNat 4).cell c).flight = (u.cell c).flight := by
        obtain rfl | hne := eq_or_ne c z
        · rw [hz]
        · rw [State.spadStoreBy_cell_other _ _ _ _ _ _ _ hne]
      rw [ht, hc]
      refine ⟨?_, fun hi => ⟨_, hflight hi, rfl, rfl, rfl⟩⟩
      rw [hz]
      exact Cell.putBytes_spad_congr hspad _ _ _ _

end Sys2Proof
end

