-- ==== Sys2Proof/Proofs/CellEvents.lean ====
section
/-! Events of a cell: a due trigger (R77), a phase that is done (R57), a reduction's time limit (R408). -/

namespace Sys2Proof
open Machine

/-- What an instruction gives may be told more weakly. -/
theorem Gives.imp {i : Instr} {s : State} {P Q : State → Prop} (h : Gives i s P) (hPQ : ∀ t, P t → Q t) : Gives i s Q := by
  obtain ⟨t, ht, hp⟩ := h
  exact ⟨t, ht, hPQ t hp⟩

end Sys2Proof

namespace Sys2Proof.Machine
open Sys2Proof

/-- After a request every holder of the number has a swap pending (R75). -/
theorem State.requestSwap_swap (s : State) (id : Nat) (r : SwapReq) : ∀ j ∈ (s.requestSwap id r).insts, j.id = id → j.swap.isSome = true := by
  intro j hj hid
  obtain ⟨i, -, rfl⟩ := List.mem_map.mp hj
  by_cases hi : i.id = id
  · rw [if_pos hi]
    cases hs : i.swap with
    | some q => simp only [hs, Option.isSome_some]
    | none => simp only [hs, Option.isSome_some]
  · rw [if_neg hi] at hid
    exact absurd hid hi

@[simp] theorem State.requestSwap_cell (s : State) (id : Nat) (r : SwapReq) (c : Nat) : (s.requestSwap id r).cell c = s.cell c := rfl

/-- The next phase of a slot that is done (R57). -/
theorem Cell.nextPhase_slot_of_done {c : Cell} {n : Nat} (h : c.phaseDone n = true) :
    (c.nextPhase n).slot n = { c.slot n with phase := ((c.slot n).phase + 1) % (hdrNph (c.active.header n) + 1), phaseCount := 0 } := by
  rw [Cell.nextPhase, if_pos h, Cell.setSlot_slot_same]

theorem exec_tokenCountTrigger (cell : Nat) (s : State) : exec (.tokenCountTrigger cell) s = execTokenCountTrigger cell s := rfl

/-- A due trigger requests a swap and is due no more (R77). -/
theorem tokenCountTrigger_gives {s : State} {cell : Nat} {i : Inst} (hi : s.instAt cell = some i) (hdue : (s.cell cell).trigDue = true)
    (hruns : s.sectorRuns (sectorOfCell cell) = true) :
    Gives (.tokenCountTrigger cell) s (fun t => (t.cell cell).trigDue = false ∧ ∀ j ∈ t.insts, j.id = i.id → j.swap.isSome = true) := by
  rw [Gives, exec_tokenCountTrigger]
  simp only [execTokenCountTrigger, hi, hdue, hruns, Bool.true_eq_false, or_self, if_false]
  refine ⟨_, rfl, ?_, State.requestSwap_swap _ _ _⟩
  rw [State.requestSwap_cell, State.updCell_cell_same]

theorem exec_phaseAdvance (site : Site) (s : State) : exec (.phaseAdvance site) s = execPhaseAdvance site s := rfl

/-- A phase that is done gives way to the next (R57). -/
theorem phaseAdvance_gives {s : State} {site : Site} (hdone : (s.cell site.cell.val).phaseDone site.slot.val = true)
    (hruns : s.sectorRuns (sectorOfCell site.cell.val) = true) :
    Gives (.phaseAdvance site) s (fun t =>
      let st := (s.cell site.cell.val).slot site.slot.val
      (t.cell site.cell.val).slot site.slot.val =
        { st with phase := (st.phase + 1) % (hdrNph ((s.cell site.cell.val).active.header site.slot.val) + 1), phaseCount := 0 }) := by
  rw [Gives, exec_phaseAdvance]
  simp only [execPhaseAdvance, hdone, hruns, Bool.true_eq_false, or_self, if_false]
  exact ⟨_, rfl, by rw [State.updCell_cell_same, Cell.nextPhase_slot_of_done hdone]⟩

/-! Records. -/

theorem insertRec_length (r : FaultRec) (from_ : Nat) (l : List FaultRec) : (insertRec r from_ l).length = l.length + 1 := by
  induction l with
  | nil => rfl
  | cons q rest ih =>
    rw [insertRec]
    split
    · rw [List.length_cons, ih, List.length_cons]
    · rfl

theorem mem_insertRec (r : FaultRec) (from_ : Nat) (l : List FaultRec) : r ∈ insertRec r from_ l := by
  induction l with
  | nil => exact List.mem_singleton_self r
  | cons q rest ih =>
    rw [insertRec]
    split
    · exact List.mem_cons_of_mem q ih
    · exact List.mem_cons_self

/-- A record that is queued is one more on its die (R350). -/
theorem State.oneRecord_pushRec (s : State) (r : FaultRec) : OneRecord s (s.pushRec r) r.die r.code r.detail0 r.job := by
  rw [OneRecord, State.pushRec, State.updDie_dieAt_same]
  exact ⟨insertRec_length _ _ _, r, mem_insertRec _ _ _, rfl, rfl, rfl⟩

/-- Bytes written change no unit and no cell. -/
theorem State.memSetByte_foldl (at_ : Nat → Nat) (v : Nat → Byte) (l : List Nat) (s : State) :
    (l.foldl (fun (a : State) k => a.memSetByte (at_ k) (v k)) s).die = s.die ∧
      (l.foldl (fun (a : State) k => a.memSetByte (at_ k) (v k)) s).cells = s.cells := by
  induction l generalizing s with
  | nil => exact ⟨rfl, rfl⟩
  | cons k l ih => exact ih (s.memSetByte (at_ k) (v k))

theorem State.memWrite_units (s : State) (pa v n : Nat) : (s.memWrite pa v n).die = s.die ∧ (s.memWrite pa v n).cells = s.cells := by
  induction n with
  | zero => exact ⟨rfl, rfl⟩
  | succ n ih => exact ih

theorem State.putHeader_units (s : State) (h : QHeader) (o v : Nat) :
    (s.putHeader h o v).die = s.die ∧ (s.putHeader h o v).cells = s.cells := by
  unfold State.putHeader
  split
  · exact s.memWrite_units _ v 8
  · exact State.memSetByte_foldl _ _ _ s

/-- Claiming a record's place in its queue writes memory only, and numbers the record (R148, R348). -/
theorem State.claimRec_eq (s : State) (r : FaultRec) : (s.claimRec r).2.die = s.die ∧ (s.claimRec r).2.cells = s.cells ∧
    ∃ claimed seq, (s.claimRec r).1 = { r with claimed := claimed, seq := seq } := by
  unfold State.claimRec
  split
  · exact ⟨rfl, rfl, _, _, rfl⟩
  · split
    · exact ⟨rfl, rfl, _, _, rfl⟩
    · next h _ => exact ⟨(s.putHeader_units h _ _).1, (s.putHeader_units h _ _).2, _, _, rfl⟩

/-- The record of a POISON token that the hardware makes is one more on its die (R348, R350). -/
theorem State.oneRecord_pushClaimed (s : State) {r : FaultRec} {d code : Nat} {d0 : BitVec 64} {job : Option Nat}
    (hd : r.die = d) (hcode : r.code = code) (hd0 : r.detail0 = d0) (hjob : r.job = job) : OneRecord s (s.pushClaimed r) d code d0 job := by
  subst hd hcode hd0 hjob
  obtain ⟨hdie, -, claimed, seq, hr⟩ := s.claimRec_eq r
  have h := (s.claimRec r).2.oneRecord_pushRec (s.claimRec r).1
  rw [hr] at h
  rw [State.pushClaimed, hr]
  simpa only [OneRecord, State.dieAt, hdie] using h

theorem State.pushClaimed_cell (s : State) (r : FaultRec) (c : Nat) : (s.pushClaimed r).cell c = s.cell c :=
  congrArg (fun m => Map.get Cell.reset m c) (s.claimRec_eq r).2.1

/-- Naming the grid point of a patch in a record keeps its die, code and job (R346). -/
theorem State.recInst_keeps (s : State) (r : FaultRec) (i : Inst) :
    (s.recInst r i).die = r.die ∧ (s.recInst r i).code = r.code ∧ (s.recInst r i).job = r.job := by
  unfold State.recInst
  split <;> exact ⟨rfl, rfl, rfl⟩

/-! A reduction's time limit. -/

/-- The inputs A and P of a `comb` entry. -/
def combInput (w : Nat) (p : Bool) : Nat × Nat := if p then (bitsN w 35 33, bitsN w 32 28) else (bitsN w 43 41, bitsN w 40 36)

theorem combInput_not (w : Nat) (p : Bool) :
    combInput w (!p) = if p then (bitsN w 43 41, bitsN w 40 36) else (bitsN w 35 33, bitsN w 32 28) := by
  cases p <;> simp [combInput]

/-- A `comb` whose one input holds a token while the other has stayed empty for REDUS is out of time (R408). -/
theorem State.combOut_eq_some {s : State} {cell e : Nat} {emptyP : Bool} {x : Token}
    (hcode : bitsN ((s.cell cell).active.routeWord e).toNat 47 44 = 9)
    (htimeout : ((s.cell cell).route e).timeout = none) (hdiscard : ((s.cell cell).route e).discard = none)
    (hred : limitAt (s.dieAt (dieOfCell cell)).redOld (s.dieAt (dieOfCell cell)).redus ((s.cell cell).route e).waitSince ≠ 0)
    (hspan : limitAt (s.dieAt (dieOfCell cell)).redOld (s.dieAt (dieOfCell cell)).redus ((s.cell cell).route e).waitSince * usUnits ≤
      s.spanTime (sectorOfCell cell) ((s.cell cell).route e).waitSince [])
    (hfull : s.inHead cell (combInput ((s.cell cell).active.routeWord e).toNat !emptyP) = some x)
    (hempty : s.inHead cell (combInput ((s.cell cell).active.routeWord e).toNat emptyP) = none) : s.combOut cell e = some emptyP := by
  unfold State.combOut
  extract_lets c w st d red
  have hcond : ¬(bitsN w 47 44 ≠ 9 ∨ st.timeout.isSome ∨ st.discard.isSome ∨ red = 0 ∨
      s.spanTime (sectorOfCell cell) st.waitSince [] < red * usUnits) := by
    rw [htimeout, hdiscard]
    simp only [Option.isSome_none, Bool.false_eq_true, false_or, not_or, not_not]
    exact ⟨hcode, hred, Nat.not_lt.mpr hspan⟩
  rw [if_neg hcond]
  rw [State.inHead, List.head?_eq_some_iff] at hfull
  rw [State.inHead, List.head?_eq_none_iff] at hempty
  obtain ⟨rest, hfull⟩ := hfull
  cases emptyP <;> simp only [combInput, Bool.not_true, Bool.not_false, Bool.false_eq_true, if_true, if_false] at hfull hempty <;>
    simp only [c, w, hfull, hempty, List.isEmpty_cons, List.isEmpty_nil]

theorem exec_reductionTimeout (site : RouteSite) (s : State) : exec (.reductionTimeout site) s = execReductionTimeout site s := rfl

/-- A `comb` out of time stands timed out, under a report record (R408). -/
theorem reductionTimeout_gives {s : State} {site : RouteSite} {i : Inst} {x : Token} {emptyP : Bool} (hi : s.instAt site.cell.val = some i)
    (hruns : s.sectorRuns (sectorOfCell site.cell.val) = true) (hhold : i.hold = none) (hparked : i.parked = false)
    (hrec : s.recWaits site.cell.val site.entry.val 1 = false)
    (hfull : s.inHead site.cell.val (combInput ((s.cell site.cell.val).active.routeWord site.entry.val).toNat !emptyP) = some x)
    (hout : ((s.cell site.cell.val).route site.entry.val).late.or (s.combOut site.cell.val site.entry.val) = some emptyP) :
    Gives (.reductionTimeout site) s (fun t =>
      ((t.cell site.cell.val).route site.entry.val).timeout = some (emptyP, poisonPayload 0x0A03 (s.nextSeq (some i.job))) ∧
      ((t.cell site.cell.val).route site.entry.val).late = none ∧
      OneRecord s t i.die 0x0A03 (BitVec.ofNat 64 ((if emptyP then 2 ^ 63 else 0) + x.bits)) (some i.job)) := by
  rw [combInput_not] at hfull
  obtain ⟨hdie, hcode, hjob⟩ := s.recInst_keeps ((s.baseRec i.die (some i.job) 0x0A03 0 1).atCell site.cell.val site.entry.val) i
  rw [Gives, exec_reductionTimeout]
  simp only [execReductionTimeout, hi, hruns, State.held_of_hold_none hhold, hparked, hrec, hout, Bool.true_eq_false, Bool.false_eq_true, or_self,
    if_false]
  refine ⟨_, rfl, ?_, ?_, ?_⟩
  · rw [State.updCell_cell_same, Cell.setRoute_route_same]
  · rw [State.updCell_cell_same, Cell.setRoute_route_same]
  · rw [OneRecord, State.updCell_dieAt, hfull, Option.map_some, Option.getD_some]
    exact s.oneRecord_pushClaimed hdie hcode rfl hjob

end Sys2Proof.Machine
end

