-- ==== Sys2Proof/Proofs/UnitEvents.lean ====
section
/-! Events of the units of a sector: a finished matrix product (R266), the power limiter (R335), an idle grammar engine (R280). -/

namespace Sys2Proof.Machine
open Sys2Proof

/-! Tokens sent at once. -/

theorem State.FramedRest.markArrival (s : State) (c port vc : Nat) : s.FramedRest (s.markArrival c port vc) := by
  unfold State.markArrival
  split
  · exact .refl s
  · refine .foldl _ _ _ fun a e => ?_
    split
    · exact .updCell _ _ _
    · exact .refl a

theorem State.FramedRest.emitNow (s : State) (c mark n : Nat) (t : Token) : s.FramedRest (s.emitNow c mark n t) := by
  unfold State.emitNow
  split
  · exact (State.FramedRest.markArrival _ _ _ _).trans (.updCell _ _ _)
  · exact .updCell _ _ _

/-- One token sent at once: it is emitted, and counted for the trigger (R77, R312). -/
theorem State.sendOut_one (s : State) (i : Inst) (c by_ mark n : Nat) (deps : List Nat) (k : Kind) (v : Word) :
    s.sendOut i c by_ mark n deps [(k, v)] =
      ((s.emitNow c mark n (mkToken (s.cell c).active.ver k v deps)).updCell by_ (fun x => x.count 6 1)).countTrig i c true n k := rfl

/-- Counting a token leaves channels and results in flight. -/
theorem State.sendOut_one_cell (s : State) (i : Inst) (c by_ mark n : Nat) (deps : List Nat) (k : Kind) (v : Word) (j : Nat) :
    ((s.sendOut i c by_ mark n deps [(k, v)]).cell j).rin = ((s.emitNow c mark n (mkToken (s.cell c).active.ver k v deps)).cell j).rin ∧
    ((s.sendOut i c by_ mark n deps [(k, v)]).cell j).flight = ((s.emitNow c mark n (mkToken (s.cell c).active.ver k v deps)).cell j).flight := by
  rw [State.sendOut_one]
  generalize s.emitNow c mark n _ = a
  obtain ⟨_, _, h1⟩ := (a.updCell by_ (fun x => x.count 6 1)).countTrig_cell i c true n k j
  obtain ⟨_, h2⟩ := State.updCell_cell_rel (r := fun x y => ∃ perf, y = { x with perf := perf }) (fun _ => ⟨_, rfl⟩)
    (fun x : Cell => x.count_cell 6 1) a by_ j
  rw [h1, h2]
  exact ⟨rfl, rfl⟩

/-- A token for the router enters the FIFO of port L (R49). -/
theorem State.sendOut_one_inFifo (s : State) (i : Inst) (c by_ mark : Nat) {n : Nat} (deps : List Nat) (k : Kind) (v : Word) (h : n < 24) :
    ((s.sendOut i c by_ mark n deps [(k, v)]).cell c).inFifo 4 n =
      (s.cell c).inFifo 4 n ++ [mkToken (s.cell c).active.ver k v deps] := by
  have hemit : ((s.emitNow c mark n (mkToken (s.cell c).active.ver k v deps)).cell c).inFifo 4 n =
      (s.cell c).inFifo 4 n ++ [mkToken (s.cell c).active.ver k v deps] := by
    rw [State.emitNow, if_pos h, State.updCell_cell_same, Cell.emit, if_pos h, Cell.setInFifo_inFifo_same, State.markArrival_inFifo]
  rw [← hemit, Cell.inFifo, (s.sendOut_one_cell i c by_ mark n deps k v c).1, Cell.inFifo]

/-- A token for a loop-back channel is on its way to it (R51). -/
theorem State.sendOut_one_flight (s : State) (i : Inst) (c by_ mark : Nat) {n : Nat} (deps : List Nat) (k : Kind) (v : Word) (h : 24 ≤ n) :
    ∃ x ∈ ((s.sendOut i c by_ mark n deps [(k, v)]).cell c).flight, x.dst = .chan n ∧ x.tok = some (mkToken (s.cell c).active.ver k v deps) := by
  rw [(s.sendOut_one_cell i c by_ mark n deps k v c).2, State.emitNow, if_neg (Nat.not_lt.mpr h), State.updCell_cell_same]
  exact ⟨_, List.mem_append_right _ (List.mem_singleton_self _), rfl, rfl⟩

theorem State.sendOut_one_products (s : State) (i : Inst) (c by_ mark n : Nat) (deps : List Nat) (k : Kind) (v : Word) :
    (s.sendOut i c by_ mark n deps [(k, v)]).products = s.products := by
  obtain ⟨_, _, _, _, _, h⟩ :=
    (((State.FramedRest.emitNow s c mark n (mkToken (s.cell c).active.ver k v deps)).trans (.updCell _ by_ _)).trans
      (.countTrig _ i c true n k)).rest
  rw [State.sendOut_one, h]

/-! Matrix products. -/

/-- A product that may leave: the first of its patch, every element final (R266, R51). -/
structure State.ProductDone (s : State) (id : Nat) (p : Product) (i : Inst) : Prop where
  found : s.products.find? (fun q => q.id == id) = some p
  inst : s.inst p.inst = some i
  first : s.products.find? (fun q => q.inst == p.inst) = some p
  started : p.started = true
  sound : p.failed = false
  ticked : p.ticks i ≤ p.tick
  due : p.nextAt ≤ s.cycle i.sector
  runs : s.sectorRuns i.sector = true

/-- A state without a product, the activity of its patch noted. -/
def State.dropProduct (s : State) (id : Nat) (i : Inst) : State :=
  ({ s with products := s.products.filter (fun q => q.id != id) } : State).updInst i.id (fun x => { x with lastActive := s.dev })

/-- Where the token of a finished product goes (R266). -/
theorem State.ProductDone.exec_eq {s : State} {id : Nat} {p : Product} {i : Inst} (h : s.ProductDone id p i) (hret : i.retired = false) :
    exec (.matrixProductComplete id) s = match p.f.dst with
      | .out n => if (s.dropProduct id i).outRoom p.cell n.val 1 = true then
          .next ((s.dropProduct id i).sendOut i p.cell p.cell 0 n.val p.deps [(p.kind, p.pay)]) else .next s
      | _ => .next (if p.kind = .poison then (s.dropProduct id i).absorb p.cell p.slot 0 p.pay else s.dropProduct id i) := by
  have hid : (p.id == id) = true := List.find?_some (p := fun q : Product => q.id == id) h.found
  have hexec : exec (.matrixProductComplete id) s = execMatrixProductComplete id s := rfl
  rw [hexec, execMatrixProductComplete]
  simp only [h.found, h.inst, h.first, h.started, h.sound, hid, h.runs, hret, decide_eq_false (Nat.not_lt.mpr h.ticked),
    decide_eq_false (Nat.not_lt.mpr h.due), Option.any_some, Bool.not_true, Bool.or_false, Bool.false_eq_true, if_false]
  rfl

/-- A finished product sends its token where there is room (R266, R51). -/
theorem State.ProductDone.sends {s : State} {id : Nat} {p : Product} {i : Inst} (h : s.ProductDone id p i) (hret : i.retired = false) {n : Fin 32}
    (hdst : p.f.dst = .out n) (hroom : s.outRoom p.cell n.val 1 = true) : Gives (.matrixProductComplete id) s (fun t =>
      t.products = s.products.filter (fun q => q.id != id) ∧
      (n.val < 24 → (t.cell p.cell).inFifo 4 n.val = (s.cell p.cell).inFifo 4 n.val ++ [mkToken (s.cell p.cell).active.ver p.kind p.pay p.deps]) ∧
      (24 ≤ n.val → ∃ x ∈ (t.cell p.cell).flight, x.dst = .chan n.val ∧ x.tok = some (mkToken (s.cell p.cell).active.ver p.kind p.pay p.deps))) := by
  have hroom' : (s.dropProduct id i).outRoom p.cell n.val 1 = true := hroom
  refine ⟨(s.dropProduct id i).sendOut i p.cell p.cell 0 n.val p.deps [(p.kind, p.pay)], ?_, ?_, fun hn => ?_, fun hn => ?_⟩
  · rw [h.exec_eq hret, hdst]
    exact if_pos hroom'
  · exact State.sendOut_one_products _ _ _ _ _ _ _ _ _
  · exact State.sendOut_one_inFifo _ _ _ _ _ _ _ _ hn
  · exact State.sendOut_one_flight _ _ _ _ _ _ _ _ hn

/-- A finished product without a destination leaves, and changes no cell. -/
theorem State.ProductDone.leaves {s : State} {id : Nat} {p : Product} {i : Inst} (h : s.ProductDone id p i) (hret : i.retired = false)
    (hdst : p.f.dst = .none) (hkind : p.kind ≠ .poison) : Gives (.matrixProductComplete id) s (fun t =>
      t.products = s.products.filter (fun q => q.id != id) ∧ t.cells = s.cells) := by
  refine ⟨s.dropProduct id i, ?_, rfl, rfl⟩
  rw [h.exec_eq hret, hdst]
  exact congrArg Host.Outcome.next (if_neg hkind)

/-! The limiter of a sector. -/

/-- What a step of the limiter leaves, and when the next one comes (R335). -/
theorem State.slewOnce_keeps (s : State) (k b : Nat) :
    ((s.slewOnce k b).sector k).slewAt = b + 4 ∧ (s.slewOnce k b).cells = s.cells ∧ (s.slewOnce k b).mem = s.mem := by
  refine ⟨?_, rfl, rfl⟩
  unfold State.slewOnce
  extract_lets
  rw [State.updSector_sector_same]

/-- After n + 1 steps from a boundary on, four cycles apart. -/
theorem State.slewOnce_foldl (s : State) (k b n : Nat) :
    let t := (List.range (n + 1)).foldl (fun (a : State) j => a.slewOnce k (b + 4 * j)) s
    (t.sector k).slewAt = b + 4 * n + 4 ∧ t.cells = s.cells ∧ t.mem = s.mem := by
  induction n with
  | zero => exact s.slewOnce_keeps k _
  | succ n ih =>
    intro t
    obtain ⟨-, hcells, hmem⟩ := ih
    have ht : t = ((List.range (n + 1)).foldl (fun (a : State) j => a.slewOnce k (b + 4 * j)) s).slewOnce k (b + 4 * (n + 1)) := by
      simp only [t]
      rw [List.range_succ, List.foldl_append, List.foldl_cons, List.foldl_nil]
    obtain ⟨hat, hcells', hmem'⟩ := State.slewOnce_keeps _ k (b + 4 * (n + 1))
    rw [ht]
    exact ⟨hat, hcells'.trans hcells, hmem'.trans hmem⟩

/-- The limiter acts at every boundary that has come: the next one is four cycles or fewer ahead (R335). -/
theorem slewStep_gives {s : State} {k : Nat} (hruns : s.sectorRuns k = true) (hat : (s.sector k).slewAt ≤ s.cycle k) :
    Gives (.slewStep k) s (fun t =>
      s.cycle k < (t.sector k).slewAt ∧ (t.sector k).slewAt % 4 = (s.sector k).slewAt % 4 ∧ t.cells = s.cells ∧ t.mem = s.mem) := by
  obtain ⟨hslew, hcells, hmem⟩ := s.slewOnce_foldl k (s.sector k).slewAt ((s.cycle k - (s.sector k).slewAt) / 4)
  refine ⟨_, if_neg ?_, ?_, ?_, hcells, hmem⟩
  · rw [hruns]
    simp only [Bool.true_eq_false, false_or]
    exact Nat.not_lt.mpr hat
  · omega
  · omega

/-! Starting a grammar command. -/

/-- An idle grammar engine takes the next command (R280). -/
theorem grammarCommandStart_gives {s : State} {k : Nat} {g : GveCmd} (hruns : s.sectorRuns k = true) (hstall : s.engineStalls k 4 = false)
    (hidle : ∀ c ∈ (s.sector k).gve, c.running = false) (hnext : nextGve (s.sector k).gve [] = some g) :
    Gives (.grammarCommandStart k) s (fun t => (∀ c ∈ (t.sector k).gve, c.id = g.id → c.running = true) ∧
      ∀ c ∈ (t.sector k).gve, c.id ≠ g.id → c.running = false) := by
  have hany : (s.sector k).gve.any (fun c => c.running) = false := by
    simpa only [List.any_eq_false, Bool.not_eq_true] using hidle
  have hexec : exec (.grammarCommandStart k) s = .next (s.updGve k g.id (fun c => { c with running := true })) := by
    have h : exec (.grammarCommandStart k) s = execGrammarCommandStart k s := rfl
    rw [h, execGrammarCommandStart]
    simp only [hruns, hstall, hany, hnext, Bool.true_eq_false, Bool.false_eq_true, or_self, if_false]
  refine ⟨_, hexec, ?_, ?_⟩ <;> rw [State.updGve, State.updSector_sector_same] <;> intro c hc hid <;>
    obtain ⟨c', hc', rfl⟩ := List.mem_map.mp hc <;> split at hid
  · rw [if_pos ‹_›]
  · exact absurd hid ‹_›
  · exact absurd ‹c'.id = g.id› hid
  · rw [if_neg ‹_›]
    exact hidle c' hc'

end Sys2Proof.Machine
end

