-- ==== Sys2Proof/Proofs/EngineAccesses.lean ====
section
/-! What an engine reads and writes where its sector's cache holds the page (R121, R139, R297). -/

namespace Sys2Proof.Machine
open Sys2Proof

theorem State.translate_of_tlbLook {s : State} {k asid root va pa : Nat} {a : Access} (h : s.tlbLook k asid va a = .ok pa) :
    s.translate k asid root va a = (.ok pa, s) := by
  rw [State.translate, h]

/-- An address of this package that the cache translates needs no route (R331). -/
theorem State.engXlat_of_tlbLook {s : State} {x : EngCtx} {va pa : Nat} {a : Access} (h : s.tlbLook x.sector x.asid va a = .ok pa)
    (hpresent : s.paPresent pa = true) (hhost : paIsHost pa = false) (hpackage : paPackage pa = s.package) (side cur : Nat) :
    s.engXlat x va a side cur = .ok (pa, s) := by
  have hroute : s.engRoute (paPackage pa) a = none := if_pos hpackage
  rw [State.engXlat, State.translate_of_tlbLook h]
  simp only [hpresent, hhost, hroute, Bool.true_eq_false, Bool.false_eq_true, if_false]

/-- Bytes moved at a port of this package's HBM are noted for the sector (R334). -/
theorem State.portMove_of_local {s : State} {pa : Nat} (hhost : paIsHost pa = false) (hpackage : paPackage pa = s.package) (k n : Nat) :
    s.portMove k pa n = s.updSector k (fun t => { t with moved := t.moved + 32 * ((pa % 32 + n + 31) / 32) }) := by
  rw [State.portMove, hhost]
  simp only [hpackage, Bool.false_eq_true, ne_eq, not_true_eq_false, if_false]

/-- Of bytes whose words keep no earlier value a reader finds the latest (R139). -/
theorem State.readMem_of_no_hist {s : State} {pa n : Nat} (h : ∀ i, i < n → Map.find s.hist ((pa + i) / 8) = none) (r : Reader) :
    s.readMem r pa n = (s.memList pa n, s) := by
  have hws : ((((List.range n).map (fun i => pa + i)).map (fun i => i / 8)).eraseDups).filterMap
      (fun i => (Map.find s.hist i).map (fun w => (i, w))) = [] := by
    rw [List.filterMap_eq_nil_iff]
    intro i hi
    rw [List.mem_eraseDups, List.map_map, List.mem_map] at hi
    obtain ⟨j, hj, rfl⟩ := hi
    rw [Function.comp_apply, h j (List.mem_range.mp hj)]
    rfl
  have hprior (new : List Byte) : s.priorBytes r (.mem pa) s.hist ((List.range n).map (fun i => pa + i)) new = new := by
    rw [State.priorBytes, hws]
    rfl
  rw [State.readMem, hprior]
  exact if_pos rfl

/-- What an engine finds at a readable place, and that only the traffic of its sector is noted. -/
theorem State.engRead_of_readable {s : State} {x : EngCtx} {va n : Nat} {l : List Byte} (h : Readable s x va n l) (side cur : Nat) :
    ∃ b, s.engRead x va n side cur = .ok (l, s.updSector x.sector (fun t => { t with moved := t.moved + b })) := by
  obtain ⟨pa, hlook, hpresent, hhost, hpackage, hbad, rfl, hhist⟩ := h
  refine ⟨32 * ((pa % 32 + n + 31) / 32), ?_⟩
  rw [State.engRead, State.engXlat_of_tlbLook hlook hpresent hhost hpackage]
  simp only [hbad, Bool.false_eq_true, if_false, State.readMem_of_no_hist hhist, State.portMove_of_local hhost hpackage]

/-! A sector that only reads: its traffic and its Slate. -/

/-- A state is as another but for sectors, of which one has a Slate and a count of bytes moved. -/
def State.SlateIs (s : State) (k : Nat) (sl : Map SlateEntry) (mv : Nat) (t : State) : Prop :=
  (∃ m, t = { s with sectors := m }) ∧ t.sector k = { s.sector k with slate := sl, moved := mv }

theorem State.SlateIs.refl (s : State) (k : Nat) : s.SlateIs k (s.sector k).slate (s.sector k).moved s := ⟨⟨_, rfl⟩, rfl⟩

theorem State.SlateIs.move {s t : State} {k mv : Nat} {sl : Map SlateEntry} (h : s.SlateIs k sl mv t) (b : Nat) :
    s.SlateIs k sl (mv + b) (t.updSector k (fun u => { u with moved := u.moved + b })) := by
  obtain ⟨⟨m, rfl⟩, hk⟩ := h
  exact ⟨⟨_, rfl⟩, by rw [State.updSector_sector_same, hk]⟩

theorem State.SlateIs.setSlate {s t : State} {k mv : Nat} {sl : Map SlateEntry} (h : s.SlateIs k sl mv t) (f : Map SlateEntry → Map SlateEntry) :
    s.SlateIs k (f sl) mv (t.updSector k (fun u => { u with slate := f u.slate })) := by
  obtain ⟨⟨m, rfl⟩, hk⟩ := h
  exact ⟨⟨_, rfl⟩, by rw [State.updSector_sector_same, hk]⟩

theorem State.SlateIs.readable {s t : State} {x : EngCtx} {mv va n : Nat} {sl : Map SlateEntry} {l : List Byte}
    (h : s.SlateIs x.sector sl mv t) (hr : Readable s x va n l) : Readable t x va n l := by
  obtain ⟨⟨m, rfl⟩, hk⟩ := h
  obtain ⟨pa, hlook, hrest⟩ := hr
  refine ⟨pa, ?_, hrest⟩
  rw [State.tlbLook, hk]
  exact hlook

/-! Writing. -/

/-- A write of bytes changes memory and what is kept of its past. -/
theorem State.memPutList_eq (bs : List Byte) (s : State) (pa : Nat) : ∃ m h, s.memPutList pa bs = { s with mem := m, hist := h } := by
  induction bs generalizing s pa with
  | nil => exact ⟨_, _, rfl⟩
  | cons b r ih =>
    obtain ⟨m, h, he⟩ := ih (s.memSetByte pa b) (pa + 1)
    exact ⟨m, h, he⟩

theorem State.memPutList_memByte_other (bs : List Byte) (s : State) {pa a : Nat} (h : a < pa ∨ pa + bs.length ≤ a) :
    (s.memPutList pa bs).memByte a = s.memByte a := by
  induction bs generalizing s pa with
  | nil => rfl
  | cons b r ih =>
    rw [List.length_cons] at h
    rw [State.memPutList, ih _ (by omega), State.memSetByte_memByte_other _ _ _ _ (by omega)]

/-- Byte i of a number put in memory stands at offset i (R8). -/
theorem State.memPutList_natBytes_memByte (n v i : Nat) (s : State) (pa : Nat) (h : i < n) :
    (s.memPutList pa (natBytes n v)).memByte (pa + i) = BitVec.ofNat 8 (v / 2 ^ (8 * i)) := by
  induction n generalizing s pa v i with
  | zero => exact absurd h (Nat.not_lt_zero i)
  | succ n ih =>
    rw [natBytes, State.memPutList]
    cases i with
    | zero =>
      rw [State.memPutList_memByte_other _ _ (by omega), Nat.add_zero, State.memSetByte_memByte_same, Nat.mul_zero, Nat.pow_zero, Nat.div_one]
    | succ i =>
      have hdiv : v / 256 / 2 ^ (8 * i) = v / 2 ^ (8 * (i + 1)) := by
        rw [Nat.div_div_eq_div_mul, Nat.mul_succ, Nat.pow_add, Nat.mul_comm]
      rw [← hdiv, ← ih (v / 256) i (s.memSetByte pa (BitVec.ofNat 8 v)) (pa + 1) (by omega)]
      congr 1
      omega

theorem State.memRead_congr {s t : State} {a n : Nat} (h : ∀ i, i < n → s.memByte (a + i) = t.memByte (a + i)) :
    s.memRead a n = t.memRead a n := by
  induction n with
  | zero => rfl
  | succ n ih => rw [State.memRead, State.memRead, ih fun i hi => h i (by omega), h n (by omega)]

/-- A number put in memory reads back (R8). -/
theorem State.memRead_memPutList_natBytes (s : State) (pa n v : Nat) : (s.memPutList pa (natBytes n v)).memRead pa n = v % 2 ^ (8 * n) := by
  rw [← State.memRead_memWrite_of_le s pa v n n le_rfl]
  exact State.memRead_congr fun i hi => by rw [State.memPutList_natBytes_memByte n v i s pa hi, State.memWrite_memByte s pa v n i hi]

@[simp] theorem natBytes_length (n v : Nat) : (natBytes n v).length = n := by
  induction n generalizing v with
  | zero => rfl
  | succ n ih => rw [natBytes, List.length_cons, ih]

/-- A state is as another but for memory and sectors, of which one still translates as it did. -/
def State.PortWritten (s : State) (k : Nat) (t : State) : Prop :=
  (∃ m h z, t = { s with mem := m, hist := h, sectors := z }) ∧ (t.sector k).tlb = (s.sector k).tlb

theorem State.PortWritten.refl (s : State) (k : Nat) : s.PortWritten k s := ⟨⟨_, _, _, rfl⟩, rfl⟩

theorem State.PortWritten.writable {s t : State} {x : EngCtx} {va pa : Nat} (h : s.PortWritten x.sector t) (hw : Writable s x va pa) :
    Writable t x va pa := by
  obtain ⟨⟨_, _, _, rfl⟩, hk⟩ := h
  obtain ⟨hlook, hrest⟩ := hw
  refine ⟨?_, hrest⟩
  rw [State.tlbLook, hk]
  exact hlook

/-- A word written where an engine may write: it stands there, and no byte beside it has changed. -/
theorem State.engWrite_of_writable {s : State} {x : EngCtx} {va pa : Nat} (h : Writable s x va pa) (side cur v : Nat) :
    ∃ t, s.engWrite x va side cur (natBytes 4 v) = .ok t ∧ s.PortWritten x.sector t ∧ t.memRead pa 4 = v % 2 ^ 32 ∧
      ∀ a, a < pa ∨ pa + 4 ≤ a → t.memByte a = s.memByte a := by
  obtain ⟨hlook, hpresent, hhost, hpackage⟩ := h
  obtain ⟨m, hist, hput⟩ := s.memPutList_eq (natBytes 4 v) pa
  have hmove : (s.memPutList pa (natBytes 4 v)).portMove x.sector pa (natBytes 4 v).length = (s.memPutList pa (natBytes 4 v)).updSector x.sector
      (fun t => { t with moved := t.moved + 32 * ((pa % 32 + (natBytes 4 v).length + 31) / 32) }) :=
    State.portMove_of_local hhost (by rw [hput]; exact hpackage) _ _
  have hwrite : s.portWrite x.sector pa (natBytes 4 v) = (s.memPutList pa (natBytes 4 v)).updSector x.sector
      (fun t => { t with moved := t.moved + 32 * ((pa % 32 + (natBytes 4 v).length + 31) / 32) }) := by
    rw [← hmove, State.portWrite]
    exact if_neg fun hlen => absurd (hlen.1.symm.trans (natBytes_length 4 v)) (by decide)
  refine ⟨_, by rw [State.engWrite, State.engXlat_of_tlbLook hlook hpresent hhost hpackage], ?_, ?_, fun a ha => ?_⟩ <;> rw [hwrite]
  · rw [hput]
    exact ⟨⟨_, _, _, rfl⟩, by rw [State.updSector_sector_same]; rfl⟩
  · exact s.memRead_memPutList_natBytes pa 4 v
  · exact State.memPutList_memByte_other _ _ (by rwa [natBytes_length])

/-- The lanes of a row are written where the cache says, each kept by the ones behind it that lie elsewhere (R276). -/
theorem State.writeRow_of_writable {s : State} {r : GveRun} {row n : Nat} {pa : Nat → Nat}
    (h : ∀ l, l < n → Writable s r.x (r.out + 4 * (row * r.nv + l)) (pa l)) (cur : Nat) (sums : List Word) :
    ∃ u, s.writeRow r row cur sums n = .ok u ∧ s.PortWritten r.x.sector u ∧
      ∀ l, l < n → (∀ j, l < j → j < n → pa j + 4 ≤ pa l ∨ pa l + 4 ≤ pa j) → u.memRead (pa l) 4 = (sums.getD l 0).toNat := by
  induction n with
  | zero => exact ⟨s, rfl, .refl s _, fun l hl => absurd hl (Nat.not_lt_zero l)⟩
  | succ n ih =>
    obtain ⟨u, hu, hwritten, hread⟩ := ih fun l hl => h l (by omega)
    obtain ⟨t, ht, hwritten', hsame, hother⟩ := State.engWrite_of_writable (hwritten.writable (h n (by omega))) 1 cur (sums.getD n 0).toNat
    refine ⟨t, ?_, ?_, fun l hl hapart => ?_⟩
    · rw [State.writeRow, hu]
      exact ht
    · obtain ⟨⟨_, _, _, rfl⟩, hk⟩ := hwritten
      obtain ⟨⟨_, _, _, rfl⟩, hk'⟩ := hwritten'
      exact ⟨⟨_, _, _, rfl⟩, hk'.trans hk⟩
    · obtain rfl | hlt := Nat.eq_or_lt_of_le (Nat.le_of_lt_succ hl)
      · rw [hsame, Nat.mod_eq_of_lt (sums.getD l 0).isLt]
      · have hn := hapart n hlt (by omega)
        rw [← hread l hlt fun j hj hjn => hapart j hj (by omega)]
        exact State.memRead_congr fun i hi => hother _ (by omega)

end Sys2Proof.Machine
end

