-- ==== Sys2Proof/Proofs/GrammarCommands.lean ====
section
/-! The Grammar Vector Engine: the evaluation of a block symbol by symbol (R274 to R277), and the completion of its commands (R279, R280). -/

namespace Sys2Proof.Machine
open Sys2Proof

/-! Terms. -/

/-- One lane of a term: the sum with one rounding where the lane is in use (R276). -/
def addTerm (nv : Nat) (sums : List Word) (t : Nat → Ex × Flags) (a : List Word × Flags) (l : Nat) : List Word × Flags :=
  if l < nv then (a.1 ++ [(laneSum (sums.getD l 0, a.2) (t l)).1], (laneSum (sums.getD l 0, a.2) (t l)).2)
  else (a.1 ++ [sums.getD l 0], a.2)

theorem addTerms_eq (nv : Nat) (sums : List Word) (fl : Flags) (t : Nat → Ex × Flags) :
    addTerms nv sums fl t = (List.range 4).foldl (addTerm nv sums t) ([], fl) := rfl

/-- The sum of a lane does not depend on the flags. -/
theorem laneSum_fst (w : Word) (fl : Flags) (t : Ex × Flags) :
    (laneSum (w, fl) t).1 = BitVec.ofNat 32 (roundTo fmtF32 .rne false (Ex.add .rne (fval fmtF32 w.toNat) t.1).1).1 := rfl

theorem addTerm_fst (nv : Nat) (sums : List Word) (t : Nat → Ex × Flags) (a : List Word × Flags) (l : Nat) :
    (addTerm nv sums t a l).1 = a.1 ++ [if l < nv then
      BitVec.ofNat 32 (roundTo fmtF32 .rne false (Ex.add .rne (fval fmtF32 (sums.getD l 0).toNat) (t l).1).1).1 else sums.getD l 0] := by
  unfold addTerm
  split
  · rw [laneSum_fst]
  · rfl

/-- A term is added to each lane in use with one rounding (R276). -/
theorem addTerms_fst (nv : Nat) (sums : List Word) (fl : Flags) (t : Nat → Ex × Flags) :
    (addTerms nv sums fl t).1 = addLanes nv sums (fun l => (t l).1) := by
  have fold (l : List Nat) (a : List Word × Flags) : (l.foldl (addTerm nv sums t) a).1 = a.1 ++ l.map (fun l => if l < nv then
      BitVec.ofNat 32 (roundTo fmtF32 .rne false (Ex.add .rne (fval fmtF32 (sums.getD l 0).toNat) (t l).1).1).1 else sums.getD l 0) := by
    induction l generalizing a with
    | nil => rw [List.foldl_nil, List.map_nil, List.append_nil]
    | cons j l ih => rw [List.foldl_cons, ih, addTerm_fst, List.append_assoc, List.map_cons, List.singleton_append]
  rw [addTerms_eq, fold, List.nil_append, addLanes]

/-! Symbols. -/

section
variable {s s1 : State} {r : GveRun} {start stop k i w : Nat} (hstart : start ≤ i) (hstop : i < stop)
  (hw : s.engWord r.x (r.blk + 64 + 4 * k) 0 i = .ok (w, s1)) (fuel d cb : Nat) (sums : List Word) (fl : Flags)
include hstart hstop hw

/-- A terminal adds its product with the input column to each lane (R275, R276). -/
theorem State.gveLoop_terminal {c v : Nat} {fp8 : Option Bool} {xs : List Nat} {s2 : State} (hsym : symbolOf w = .terminal c fp8 v)
    (hcol : cb * 16384 + c < r.b.ncol) (hread : s1.readColumn r (cb * 16384 + c) i r.nv = .ok (xs, s2)) :
    ∃ fl2, s.gveLoop r start stop (fuel + 1) k i d cb sums fl = s2.gveLoop r start stop fuel (k + 1) i d cb
      (addLanes r.nv sums (fun l => (Ex.mul (symbolVal fp8 v).1 (fval fmtF32 (xs.getD l 0))).1)) fl2 := by
  rw [State.gveLoop]
  simp only [Nat.not_le.mpr hstop, hw, hsym, Nat.not_lt.mpr hstart, Nat.not_le.mpr hcol, hread, if_false, addTerms_fst]
  exact ⟨_, rfl⟩

/-- A reference adds a Slate entry's sums, and takes its depth and one (R275, R276). -/
theorem State.gveLoop_ref {j : Nat} (hsym : symbolOf w = .ref j) (hj : j < r.b.rbase + i)
    (hbad : ((s1.sector r.x.sector).slateEntry (r.slateBase + j)).bad = false)
    (hvalid : j < r.b.rbase → ((s1.sector r.x.sector).slateEntry (r.slateBase + j)).valid = true) :
    ∃ fl2, s.gveLoop r start stop (fuel + 1) k i d cb sums fl = s1.gveLoop r start stop fuel (k + 1) i
      (max d (1 + ((s1.sector r.x.sector).slateEntry (r.slateBase + j)).depth)) cb
      (addLanes r.nv sums (fun l => fval fmtF32 (((s1.sector r.x.sector).slateEntry (r.slateBase + j)).lanes.getD l 0).toNat)) fl2 := by
  have hnot : ¬(j < r.b.rbase ∧ ((s1.sector r.x.sector).slateEntry (r.slateBase + j)).valid = false) := fun ⟨hlt, hf⟩ => by
    rw [hvalid hlt] at hf
    exact Bool.noConfusion hf
  rw [State.gveLoop]
  simp only [Nat.not_le.mpr hstop, hw, hsym, Nat.not_lt.mpr hstart, Nat.not_le.mpr hj, hbad, hnot, Bool.false_eq_true, if_false, addTerms_fst]
  exact ⟨_, rfl⟩

omit hstart in
/-- A COLBLK sets the column block (R275). -/
theorem State.gveLoop_column {c : Nat} (hsym : symbolOf w = .column c) :
    s.gveLoop r start stop (fuel + 1) k i d cb sums fl = s1.gveLoop r start stop fuel (k + 1) i d c sums fl := by
  rw [State.gveLoop]
  simp only [Nat.not_le.mpr hstop, hw, hsym, if_false]

/-- The Slate entry of a rule that ends (R277). -/
def ruleEntry (nv d : Nat) (sums : List Word) : SlateEntry :=
  ⟨true, d, (List.range 4).map (fun l => if l < nv then sums.getD l 0 else 0), false⟩

/-- An END writes the row it names and stores the rule's entry; the run ends with the last rule, at the block's last symbol (R275, R277). -/
theorem State.gveLoop_end {row : Option Nat} {s2 : State} (hsym : symbolOf w = .endRule row) (hd : d ≤ r.b.dlim)
    (hrow : ∀ n, row = some n → n < r.b.nrow) (hnone : row = none → s2 = s1)
    (hsome : ∀ n, row = some n → s1.writeRow r n i sums r.nv = .ok s2) (hlast : i + 1 = r.b.nrule → k + 1 = r.b.nsym) :
    s.gveLoop r start stop (fuel + 1) k i d cb sums fl =
      let s3 := s2.updSector r.x.sector (fun t => { t with slate := Map.put t.slate (r.slateBase + r.b.rbase + i) (ruleEntry r.nv d sums) })
      if i + 1 = r.b.nrule then .ended s3 (i + 1) fl else s3.gveLoop r start stop fuel (k + 1) (i + 1) 1 0 [0, 0, 0, 0] fl := by
  have hnrow : row.any (fun n => decide (r.b.nrow ≤ n)) = false := by
    cases row with
    | none => rfl
    | some n => exact decide_eq_false (Nat.not_le.mpr (hrow n rfl))
  have hend : (decide (i + 1 = r.b.nrule) && decide (k + 1 ≠ r.b.nsym)) = false := by
    by_cases h : i + 1 = r.b.nrule
    · simp [hlast h]
    · simp [h]
  rw [State.gveLoop]
  cases row with
  | none =>
    obtain rfl := hnone rfl
    simp only [Nat.not_le.mpr hstop, hw, hsym, Nat.not_lt.mpr hstart, Nat.not_lt.mpr hd, hnrow, hend, Bool.false_eq_true, if_false,
      decide_eq_true_eq, ruleEntry]
  | some n =>
    simp only [Nat.not_le.mpr hstop, hw, hsym, Nat.not_lt.mpr hstart, Nat.not_lt.mpr hd, hnrow, hend, hsome n rfl, Bool.false_eq_true, if_false,
      decide_eq_true_eq, ruleEntry]

end

/-! What a run of `gsclr` and of `gsload` leaves. -/

/-- Entries from a to before b of a Slate are given by a function, the others as before. -/
def SlateSpan (old new : Map SlateEntry) (a b : Nat) (f : Nat → SlateEntry) : Prop :=
  ∀ n, Map.get SlateEntry.reset new n = if a ≤ n ∧ n < b then f n else Map.get SlateEntry.reset old n

theorem SlateSpan.empty (sl : Map SlateEntry) {a b : Nat} (f : Nat → SlateEntry) (h : b ≤ a) : SlateSpan sl sl a b f := fun n => by
  rw [if_neg (by omega)]

/-- Entries cleared one after another (R279). -/
theorem State.clear_foldl (s : State) (k a n : Nat) : ∃ sl,
    s.SlateIs k sl (s.sector k).moved ((List.range n).foldl (fun (u : State) j =>
      u.updSector k (fun t => { t with slate := Map.del t.slate (a + j) })) s) ∧
    SlateSpan (s.sector k).slate sl a (a + n) (fun _ => .reset) := by
  induction n with
  | zero => exact ⟨_, .refl s k, .empty _ _ le_rfl⟩
  | succ n ih =>
    obtain ⟨sl, hsl, hspan⟩ := ih
    rw [List.range_succ, List.foldl_append, List.foldl_cons, List.foldl_nil]
    refine ⟨_, hsl.setSlate (fun m => Map.del m (a + n)), fun j => ?_⟩
    obtain rfl | hne := eq_or_ne j (a + n)
    · rw [Map.get_del_same, if_pos (by omega)]
    · rw [Map.get_del_other _ _ _ _ hne, hspan]
      exact if_congr (by omega) rfl rfl

theorem State.gveClear_ended (s : State) (k : Nat) (g : GveCmd) : ∃ t sl,
    s.gveClear k g (listNat g.image 4 4) = .ended t (listNat g.image 4 4) g.flags ∧ s.SlateIs k sl (s.sector k).moved t ∧
    SlateSpan (s.sector k).slate sl (g.slateBase + listNat g.image 0 4 + g.cursor) (g.slateBase + listNat g.image 0 4 + listNat g.image 4 4)
      (fun _ => .reset) := by
  obtain ⟨sl, hsl, hspan⟩ := s.clear_foldl k (g.slateBase + listNat g.image 0 4 + g.cursor) (listNat g.image 4 4 - g.cursor)
  refine ⟨_, sl, by rw [State.gveClear, Nat.min_self], hsl, fun n => (hspan n).trans (if_congr (by omega) rfl rfl)⟩

/-- The next piece of an image read behind those read before (R279). -/
def State.readMore (x : EngCtx) (el : Nat → Nat) (q : Nat) (a : Except EngFault (List Byte × State)) (j : Nat) :
    Except EngFault (List Byte × State) :=
  match a with
  | .error e => .error e
  | .ok (l, s1) =>
    match s1.engRead x (el j) 8 0 q with
    | .error e => .error e
    | .ok (m, s2) => .ok (l ++ m, s2)

theorem State.readMore_foldl {s : State} {x : EngCtx} {el : Nat → Nat} {q : Nat} {bytes : Nat → List Byte} {sl : Map SlateEntry} (js : List Nat)
    (h : ∀ j ∈ js, Readable s x (el j) 8 (bytes j)) {t : State} {mv : Nat} (ht : s.SlateIs x.sector sl mv t) (l : List Byte) :
    ∃ u mv', js.foldl (State.readMore x el q) (.ok (l, t)) = .ok (l ++ js.flatMap bytes, u) ∧ s.SlateIs x.sector sl mv' u := by
  induction js generalizing t mv l with
  | nil => exact ⟨t, mv, by rw [List.foldl_nil, List.flatMap_nil, List.append_nil], ht⟩
  | cons j js ih =>
    obtain ⟨b, hb⟩ := State.engRead_of_readable (ht.readable (h j List.mem_cons_self)) 0 q
    obtain ⟨u, mv', hu, hsl⟩ := ih (fun j' hj' => h j' (List.mem_cons_of_mem j hj')) (ht.move b) (l ++ bytes j)
    refine ⟨u, mv', ?_, hsl⟩
    rw [List.foldl_cons, State.readMore]
    simp only [hb]
    rw [hu, List.flatMap_cons, List.append_assoc]

/-- The context of a command's reads, and the element of its handle that holds piece j of image q. -/
def State.loadCtx (s : State) (k : Nat) (g : GveCmd) : EngCtx := ⟨k, g.asid, s.rootOf g.job, gveCodes, s.gveReader g⟩
def GveCmd.loadAt (g : GveCmd) (q j : Nat) : Nat :=
  (handleOf (listNat g.image 32 16)).elem ((listNat g.image 8 2 + 4 * q + j) % (handleOf (listNat g.image 32 16)).wrap) % 2 ^ 57

/-- An image read is loaded, and the ones behind it follow (R279). -/
theorem State.gveLoad_succ {s t : State} {k stop n : Nat} {g : GveCmd} {l : List Byte} {e : SlateEntry}
    (hread : (List.range 4).foldl (State.readMore (s.loadCtx k g) (g.loadAt (stop - (n + 1))) (stop - (n + 1))) (.ok ([], s)) = .ok (l, t))
    (himage : imageEntry l = some e) :
    s.gveLoad k g stop (n + 1) = (t.updSector k (fun u => { u with
      slate := Map.put u.slate (g.slateBase + listNat g.image 0 4 + (stop - (n + 1))) e })).gveLoad k g stop n := by
  rw [State.gveLoad]
  generalize hrd : List.foldl _ _ _ = rd
  obtain rfl : rd = .ok (l, t) := hrd.symm.trans hread
  simp only [himage]

/-- The images from the cursor on are loaded (R279). -/
theorem State.gveLoad_ended {s : State} {k stop : Nat} {g : GveCmd} {bytes : Nat → Nat → List Byte} {entry : Nat → SlateEntry} (n : Nat)
    (hn : n ≤ stop) (h : ∀ q, stop - n ≤ q → q < stop → imageEntry ((List.range 4).flatMap (bytes q)) = some (entry q) ∧
      ∀ j ∈ List.range 4, Readable s (s.loadCtx k g) (g.loadAt q j) 8 (bytes q j)) {t : State} {mv : Nat} {sl : Map SlateEntry}
    (ht : s.SlateIs k sl mv t) : ∃ u mv' sl', t.gveLoad k g stop n = .ended u stop g.flags ∧ s.SlateIs k sl' mv' u ∧
      SlateSpan sl sl' (g.slateBase + listNat g.image 0 4 + (stop - n)) (g.slateBase + listNat g.image 0 4 + stop)
        (fun m => entry (m - (g.slateBase + listNat g.image 0 4))) := by
  induction n generalizing t mv sl with
  | zero => exact ⟨t, mv, sl, by rw [State.gveLoad], ht, .empty _ _ le_rfl⟩
  | succ n ih =>
    obtain ⟨himage, hread⟩ := h (stop - (n + 1)) le_rfl (by omega)
    have hctx : t.loadCtx k g = s.loadCtx k g := by
      obtain ⟨⟨_, rfl⟩, -⟩ := ht
      rfl
    obtain ⟨u, mv1, hu, hsl⟩ := State.readMore_foldl (x := s.loadCtx k g) (q := stop - (n + 1)) (List.range 4) hread ht []
    rw [← hctx, List.nil_append] at hu
    obtain ⟨v, mv', sl', hv, hsl', hspan⟩ := ih (by omega) (fun q hq hlt => h q (by omega) hlt)
      (hsl.setSlate (fun m => Map.put m (g.slateBase + listNat g.image 0 4 + (stop - (n + 1))) (entry (stop - (n + 1)))))
    refine ⟨v, mv', sl', (State.gveLoad_succ hu himage).trans hv, hsl', fun m => (hspan m).trans ?_⟩
    obtain rfl | hne := eq_or_ne m (g.slateBase + listNat g.image 0 4 + (stop - (n + 1)))
    · rw [if_neg (by omega), Map.get_put_same, if_pos (by omega)]
      exact congrArg entry (Nat.add_sub_cancel_left _ _).symm
    · rw [Map.get_put_other _ _ _ _ _ hne]
      exact if_congr (by omega) rfl rfl

end Sys2Proof.Machine
end

