-- ==== Sys2Proof/Proofs/CellAndUnitEvents.lean ====
section
/-! Settles O52: the events of cells, the matrix unit and the grammar engine complete with the effect the rules give. -/

namespace Sys2Proof.Machine
open Sys2Proof

/-! The metering of a command's traffic. -/

/-- Traffic that the arbiter admits leaves the state as it is but for the sector's count and queue (R334). -/
theorem State.meter_admitted {s s1 : State} {k id paid : Nat} (h : (s.meter s1 k id paid).1 = true) :
    (∃ m, (s.meter s1 k id paid).2.1 = { s1 with sectors := m }) ∧ ((s.meter s1 k id paid).2.1.sector k).slate = (s1.sector k).slate := by
  unfold State.meter at h ⊢
  extract_lets at h ⊢
  split
  case isTrue => exact ⟨⟨_, rfl⟩, rfl⟩
  case isFalse hb =>
    rw [if_neg hb] at h
    split
    case isTrue hq =>
      rw [if_pos hq] at h
      exact absurd h Bool.false_ne_true
    case isFalse hq =>
      rw [if_neg hq] at h
      split
      case isTrue => exact ⟨⟨_, rfl⟩, by rw [State.updSector_sector_same]⟩
      case isFalse hn =>
        rw [if_neg hn] at h
        exact absurd h Bool.false_ne_true

/-- A command that moved nothing, or whose sector has no budget, is admitted (R334). -/
theorem State.meter_of_unmetered {s s1 : State} {k : Nat} (h : (s.sector k).budgetNow = 0 ∨ (s1.sector k).moved = (s.sector k).moved)
    (id paid : Nat) : (s.meter s1 k id paid).1 = true := by
  unfold State.meter
  extract_lets
  rw [if_pos h]

/-! A grammar command leaves. -/

/-- A grammar command leaves its sector, and what waits for it is answered (R279). -/
def State.finishGrammar (s : State) (k id : Nat) (v : Word) : State :=
  (s.answerCmd (fun b => b == .grammar id) (BitVec.ofNat 64 v.toNat)).updSector k (fun t => { t with gve := t.gve.filter (fun c => c.id != id) })

theorem State.finishGrammar_gone (s : State) (k id : Nat) (v : Word) : ∀ c ∈ ((s.finishGrammar k id v).sector k).gve, c.id ≠ id := by
  intro c hc
  rw [State.finishGrammar, State.updSector_sector_same, List.mem_filter] at hc
  exact ne_of_beq_false (Bool.not_eq_true' _ ▸ hc.2)

theorem State.finishGrammar_answered (s : State) (k id : Nat) (v : Word) : CmdAnswered s (s.finishGrammar k id v) (.grammar id) v.toNat := by
  intro r hr hbody hstage
  have hv : (BitVec.ofNat 64 v.toNat).toNat = v.toNat := by
    rw [BitVec.toNat_ofNat, Nat.mod_eq_of_lt (Nat.lt_of_lt_of_le v.isLt (by decide))]
  refine List.mem_map.mpr ⟨r, hr, ?_⟩
  rw [if_pos ⟨beq_iff_eq.mpr hbody, hstage⟩, hv]

theorem State.finishGrammar_slate (s : State) (k id : Nat) (v : Word) :
    ((s.finishGrammar k id v).sector k).slate = (s.sector k).slate := by
  rw [State.finishGrammar, State.updSector_sector_same]
  rfl

/-- A grammar command that its engine works on. -/
structure State.GrammarAtWork (s : State) (k : Nat) (t0 : Sector) (id : Nat) (g : GveCmd) : Prop where
  found : s.sectors.find? (fun e => e.2.gve.any (fun c => c.id == id)) = some (k, t0)
  cmd : t0.gve.find? (fun c => c.id == id) = some g
  runs : s.sectorRuns k = true
  stall : s.engineStalls k 4 = false
  running : g.running = true

/-- A `gsread` answers with its entry's value, 12 cycles after its issue (R279, R280). -/
theorem State.GrammarAtWork.read_exec {s : State} {k id : Nat} {t0 : Sector} {g : GveCmd} (h : s.GrammarAtWork k t0 id g) (hop : g.op = .read)
    (hready : ∀ r ∈ s.reqs, r.readyAt + 12 * cycleUnits t0.ratio ≤ s.now) (hbad : (t0.slateEntry (g.slateBase + listNat g.image 0 4)).bad = false) :
    exec (.grammarCommandComplete id) s =
      .next (s.finishGrammar k id (gsreadValue (t0.slateEntry (g.slateBase + listNat g.image 0 4)) (listNat g.image 4 4))) := by
  have hreq : (s.reqs.find? (fun r => r.body == .grammar id)).any (fun r => decide (s.now < r.readyAt + 12 * cycleUnits t0.ratio)) = false := by
    cases hf : s.reqs.find? (fun r => r.body == .grammar id) with
    | none => rfl
    | some r => exact decide_eq_false (Nat.not_lt.mpr (hready r (List.mem_of_find?_eq_some hf)))
  have hexec : exec (.grammarCommandComplete id) s = execGrammarCommandComplete id s := rfl
  rw [hexec, execGrammarCommandComplete]
  simp only [h.found, h.cmd, h.runs, h.stall, h.running, hop, hreq, hbad, Bool.true_eq_false, Bool.false_eq_true, or_self, if_false]
  rfl

/-- Any other command whose run has ended, its traffic admitted, leaves: its token carries the flags it raised (R279, R334). -/
theorem State.GrammarAtWork.run_gives {s s0 : State} {k id c : Nat} {t0 : Sector} {g : GveCmd} {fl : Flags} (h : s.GrammarAtWork k t0 id g)
    (hop : g.op ≠ .read) (hrun : s.gveRun k g (gveUnits g) = .ended s0 c fl) (hmeter : (s.meter s0 k id g.paid).1 = true) :
    Gives (.grammarCommandComplete id) s (fun t => (∀ c ∈ (t.sector k).gve, c.id ≠ id) ∧
      CmdAnswered s0 t (.grammar id) (if g.op = .eval then (grammarFlags fl).toNat else 0) ∧ t.mem = s0.mem ∧ t.cells = s0.cells ∧
      (t.sector k).slate = (s0.sector k).slate) := by
  obtain ⟨⟨m, hm⟩, hslate⟩ := s.meter_admitted hmeter
  let v : Word := if g.op = .eval then grammarFlags fl else 0
  let u := (s.meter s0 k id g.paid).2.1.finishGrammar k id v
  have hv : v.toNat = if g.op = .eval then (grammarFlags fl).toNat else 0 := by
    simp only [v]
    split <;> rfl
  have hu : (∀ c ∈ (u.sector k).gve, c.id ≠ id) ∧ CmdAnswered s0 u (.grammar id) (if g.op = .eval then (grammarFlags fl).toNat else 0) ∧
      u.mem = s0.mem ∧ u.cells = s0.cells ∧ (u.sector k).slate = (s0.sector k).slate := by
    refine ⟨State.finishGrammar_gone _ _ _ _, ?_, ?_, ?_, (State.finishGrammar_slate _ _ _ _).trans hslate⟩
    · rw [← hv]
      simp only [u, hm]
      exact State.finishGrammar_answered { s0 with sectors := m } k id v
    · simp only [u, hm]
      rfl
    · simp only [u, hm]
      rfl
  have hexec : exec (.grammarCommandComplete id) s = .next (match g.node with
      | some n => u.updPool (dieOfSector k) n (fun r => { r with engineDone := true })
      | none => u) := by
    have hdef : exec (.grammarCommandComplete id) s = execGrammarCommandComplete id s := rfl
    rw [hdef, execGrammarCommandComplete]
    simp only [h.found, h.cmd, h.runs, h.stall, h.running, Bool.true_eq_false, Bool.false_eq_true, or_self, if_false]
    cases hg : g.op with
    | read => exact absurd hg hop
    | eval | load | clear =>
      simp only [hrun, hmeter, Bool.not_true, Bool.false_eq_true, if_false, u, v, hg]
      rfl
  rw [Gives, hexec]
  cases g.node with
  | some n => exact ⟨_, rfl, hu⟩
  | none => exact ⟨_, rfl, hu⟩

/-- A command whose run changes a span of its sector's Slate, unmetered, leaves with it so (R279). -/
theorem State.GrammarAtWork.slate_gives {s s0 : State} {k id c mv a b : Nat} {t0 : Sector} {g : GveCmd} {fl : Flags} {sl : Map SlateEntry}
    {f : Nat → SlateEntry} (h : s.GrammarAtWork k t0 id g) (hread : g.op ≠ .read) (heval : g.op ≠ .eval)
    (hrun : s.gveRun k g (gveUnits g) = .ended s0 c fl) (hsl : s.SlateIs k sl mv s0) (hspan : SlateSpan (s.sector k).slate sl a b f)
    (hfree : (s.sector k).budgetNow = 0 ∨ mv = (s.sector k).moved) :
    Gives (.grammarCommandComplete id) s (fun t => (∀ c ∈ (t.sector k).gve, c.id ≠ id) ∧ CmdAnswered s t (.grammar id) 0 ∧
      t.mem = s.mem ∧ t.cells = s.cells ∧
      ∀ n, (t.sector k).slateEntry n = if a ≤ n ∧ n < b then f n else (s.sector k).slateEntry n) := by
  obtain ⟨⟨m, rfl⟩, hk⟩ := hsl
  have hmeter := State.meter_of_unmetered (s := s) (s1 := { s with sectors := m }) (by rwa [hk]) id g.paid
  refine (h.run_gives hread hrun hmeter).imp ?_
  rintro t ⟨hgone, hans, hmem, hcells, hslate⟩
  rw [if_neg heval] at hans
  refine ⟨hgone, hans, hmem, hcells, fun n => ?_⟩
  rw [Sector.slateEntry, hslate, hk]
  exact hspan n

/-- A `gsclr` returns its entries to the reset state (R279). -/
theorem State.GrammarAtWork.clear_gives {s : State} {k id : Nat} {t0 : Sector} {g : GveCmd} (h : s.GrammarAtWork k t0 id g) (hop : g.op = .clear)
    (hrange : gveInRange g = true) :
    Gives (.grammarCommandComplete id) s (fun t => (∀ c ∈ (t.sector k).gve, c.id ≠ id) ∧ CmdAnswered s t (.grammar id) 0 ∧
      t.mem = s.mem ∧ t.cells = s.cells ∧ ∀ n, (t.sector k).slateEntry n =
        if g.slateBase + listNat g.image 0 4 + g.cursor ≤ n ∧ n < g.slateBase + listNat g.image 0 4 + listNat g.image 4 4 then .reset
        else (s.sector k).slateEntry n) := by
  obtain ⟨u, sl, hclear, hsl, hspan⟩ := s.gveClear_ended k g
  have hunits : gveUnits g = listNat g.image 4 4 := by rw [gveUnits, hop]
  have hrun : s.gveRun k g (gveUnits g) = .ended u (listNat g.image 4 4) g.flags := by
    rw [State.gveRun, hunits, hop]
    simp only [hrange, if_true, hclear]
  exact h.slate_gives (by rw [hop]; decide) (by rw [hop]; decide) hrun hsl hspan (.inr rfl)

/-- A `gsload` makes its entries the images it reads (R279). -/
theorem State.GrammarAtWork.load_gives {s : State} {k id : Nat} {t0 : Sector} {g : GveCmd} {bytes : Nat → Nat → List Byte}
    {entry : Nat → SlateEntry} (h : s.GrammarAtWork k t0 id g) (hop : g.op = .load) (hrange : gveInRange g = true)
    (hcursor : g.cursor ≤ listNat g.image 4 4) (hbudget : (s.sector k).budgetNow = 0)
    (hread : ∀ q, g.cursor ≤ q → q < listNat g.image 4 4 →
      imageEntry (bytes q 0 ++ bytes q 1 ++ bytes q 2 ++ bytes q 3) = some (entry q) ∧
      ∀ j, j < 4 → Readable s (s.loadCtx k g) (g.loadAt q j) 8 (bytes q j)) :
    Gives (.grammarCommandComplete id) s (fun t => (∀ c ∈ (t.sector k).gve, c.id ≠ id) ∧ CmdAnswered s t (.grammar id) 0 ∧
      t.mem = s.mem ∧ t.cells = s.cells ∧ ∀ n, (t.sector k).slateEntry n =
        if g.slateBase + listNat g.image 0 4 + g.cursor ≤ n ∧ n < g.slateBase + listNat g.image 0 4 + listNat g.image 4 4
        then entry (n - (g.slateBase + listNat g.image 0 4)) else (s.sector k).slateEntry n) := by
  have hfrom : listNat g.image 4 4 - (listNat g.image 4 4 - g.cursor) = g.cursor := Nat.sub_sub_self hcursor
  have himages (q : Nat) (hq : g.cursor ≤ q) (hlt : q < listNat g.image 4 4) :
      imageEntry ((List.range 4).flatMap (bytes q)) = some (entry q) ∧
      ∀ j ∈ List.range 4, Readable s (s.loadCtx k g) (g.loadAt q j) 8 (bytes q j) := by
    obtain ⟨himage, hpieces⟩ := hread q hq hlt
    refine ⟨?_, fun j hj => hpieces j (List.mem_range.mp hj)⟩
    have hflat : (List.range 4).flatMap (bytes q) = bytes q 0 ++ bytes q 1 ++ bytes q 2 ++ bytes q 3 := by
      simp [List.range_succ]
    rw [hflat, himage]
  obtain ⟨u, mv, sl, hload, hsl, hspan⟩ := State.gveLoad_ended (s := s) (k := k) (listNat g.image 4 4 - g.cursor) (Nat.sub_le _ _)
    (by rwa [hfrom]) (.refl s k)
  rw [hfrom] at hspan
  have hunits : gveUnits g = listNat g.image 4 4 := by rw [gveUnits, hop]
  have hrun : s.gveRun k g (gveUnits g) = .ended u (listNat g.image 4 4) g.flags := by
    rw [State.gveRun, hunits, hop]
    simp only [hrange, if_true, Nat.min_self, hload]
  exact h.slate_gives (by rw [hop]; decide) (by rw [hop]; decide) hrun hsl hspan (.inl hbudget)

end Sys2Proof.Machine

namespace Sys2Proof
open Machine

/-- Settles O52, an event after another: the trigger, the phase and the time limit of a cell, the product, the limiter, the start and the completion
of a grammar command; then a symbol of a block and the row a rule writes. -/
theorem cellAndUnitEventsComplete : Obligations.CellAndUnitEventsComplete := by
  refine ⟨fun s => ⟨fun _ _ => tokenCountTrigger_gives, fun site hdone hruns => ?phase, ?timeout⟩,
    fun s => ⟨?product, fun _ => slewStep_gives, fun _ _ => grammarCommandStart_gives, ?complete⟩, ?symbol, ?row⟩
  case phase =>
    refine (phaseAdvance_gives hdone hruns).imp fun t ht => ?_
    simp only [ht, and_self]
  case timeout =>
    intro site i x emptyP c w st red inA inP hi hruns hhold hparked hrec hfull hout
    have hfull' : s.inHead site.cell.val (combInput w !emptyP) = some x := by rw [combInput_not]; exact hfull
    refine reductionTimeout_gives hi hruns hhold hparked hrec hfull' ?_
    obtain hlate | ⟨hlate, hcode, htimeout, hdiscard, hred, hspan, hempty⟩ := hout
    · rw [hlate, Option.some_or]
    · rw [hlate, Option.none_or]
      exact State.combOut_eq_some hcode htimeout hdiscard hred hspan hfull' hempty
  case product =>
    intro id p i hfound hinst hfirst hstarted hsound hticked hret hdue hruns
    have h : s.ProductDone id p i := ⟨hfound, hinst, hfirst, hstarted, hsound, hticked, hdue, hruns⟩
    exact ⟨fun n hdst hroom => h.sends hret hdst hroom, fun hdst hkind => h.leaves hret hdst hkind⟩
  case complete =>
    intro k t0 id g hfound hcmd hruns hstall hrunning first m gone
    have h : s.GrammarAtWork k t0 id g := ⟨hfound, hcmd, hruns, hstall, hrunning⟩
    refine ⟨fun hop hready hbad => ⟨_, h.read_exec hop hready hbad, State.finishGrammar_gone _ _ _ _, State.finishGrammar_answered _ _ _ _⟩,
      h.clear_gives, fun bytes entry hop hrange hcursor hbudget hread => h.load_gives hop hrange hcursor hbudget hread,
      fun s0 c fl hop hrun hmeter => (h.run_gives hop hrun hmeter).imp fun t ht => ?_⟩
    obtain ⟨hgone, hans, hmem, -, hslate⟩ := ht
    exact ⟨hgone, hans, hmem, hslate⟩
  case symbol =>
    intro s s1 r start stop fuel k i d cb w sums fl hstart hstop hw now
    refine ⟨fun c fp8 v xs s2 hsym hcol hread => State.gveLoop_terminal hstart hstop hw fuel d cb sums fl hsym hcol hread,
      fun j hsym hj hbad hvalid => State.gveLoop_ref hstart hstop hw fuel d cb sums fl hsym hj hbad hvalid,
      fun c hsym => State.gveLoop_column hstop hw fuel d cb sums fl hsym, ?_⟩
    intro row s2 hsym hd hrow hnone hsome entry s3
    refine ⟨fun hmore => ?_, fun hlast hsyms => ?_⟩
    · exact (State.gveLoop_end hstart hstop hw fuel d cb sums fl hsym hd hrow hnone hsome fun h => absurd h hmore).trans (if_neg hmore)
    · exact (State.gveLoop_end hstart hstop hw fuel d cb sums fl hsym hd hrow hnone hsome fun _ => hsyms).trans (if_pos hlast)
  case row =>
    intro s r row cur n sums pa h
    obtain ⟨u, hu, -, hread⟩ := State.writeRow_of_writable h cur sums
    exact ⟨u, hu, hread⟩

end Sys2Proof
end

