-- ==== Sys2Proof/Proofs/CommandWords.lean ====
section
/-! Settles O3: the fields of configuration commands and Pilot words read back (R65, R313). -/

namespace Sys2Proof
open Machine

/-! The fields of a configuration command's word (R65). -/

section
variable (cell field : BitVec 8) (v : BitVec 16)

theorem encodeConfigWord_toNat : (encodeConfigWord cell field v).toNat = cell.toNat * 2 ^ 24 + field.toNat * 2 ^ 16 + v.toNat := by
  rw [encodeConfigWord, BitVec.toNat_ofNat]
  omega

@[simp] theorem encodeConfigWord_cell : BitVec.ofNat 8 (bitsN (encodeConfigWord cell field v).toNat 31 24) = cell := by
  apply BitVec.eq_of_toNat_eq
  rw [encodeConfigWord_toNat, BitVec.toNat_ofNat, bitsN]
  omega

@[simp] theorem encodeConfigWord_field : BitVec.ofNat 8 (bitsN (encodeConfigWord cell field v).toNat 23 16) = field := by
  apply BitVec.eq_of_toNat_eq
  rw [encodeConfigWord_toNat, BitVec.toNat_ofNat, bitsN]
  omega

@[simp] theorem encodeConfigWord_value : BitVec.ofNat 16 (bitsN (encodeConfigWord cell field v).toNat 15 0) = v := by
  apply BitVec.eq_of_toNat_eq
  rw [encodeConfigWord_toNat, BitVec.toNat_ofNat, bitsN]
  omega

/-- A word is read as a write where its cell is not the control code, or a LIT came before (R66). -/
theorem decodeConfig_encode_write (sector : Fin 64) (source : LoadSource) {lit : Bool} (h : cell ≠ 0xFE ∨ lit = true) :
    decodeConfig sector source lit (encodeConfigWord cell field v) = .ok (.cfgWrite sector source cell field v) := by
  have hwrite : ¬(cell = 0xFE ∧ lit = false) := fun ⟨hcell, hlit⟩ => h.elim (· hcell) (by simp [hlit])
  simp only [decodeConfig, encodeConfigWord_cell, encodeConfigWord_field, encodeConfigWord_value, if_neg hwrite]

end

/-! The fields of a Pilot word (R313). -/

section
variable {funct3 : Nat} (h : funct3 < 8) (rd rs1 rs2 : BitVec 5)
include h

theorem encodePilotWord_toNat : (encodePilotWord funct3 rd rs1 rs2).toNat =
    rs2.toNat * 2 ^ 20 + rs1.toNat * 2 ^ 15 + funct3 * 2 ^ 12 + rd.toNat * 2 ^ 7 + 0x0B := by
  rw [encodePilotWord, BitVec.toNat_ofNat]
  omega

theorem encodePilotWord_opcode : bitsN (encodePilotWord funct3 rd rs1 rs2).toNat 6 0 = 0x0B := by
  rw [encodePilotWord_toNat h, bitsN]
  omega

theorem encodePilotWord_funct7 : bitsN (encodePilotWord funct3 rd rs1 rs2).toNat 31 25 = 0 := by
  rw [encodePilotWord_toNat h, bitsN]
  omega

theorem encodePilotWord_funct3 : bitsN (encodePilotWord funct3 rd rs1 rs2).toNat 14 12 = funct3 := by
  rw [encodePilotWord_toNat h, bitsN]
  omega

theorem encodePilotWord_rd : BitVec.ofNat 5 (bitsN (encodePilotWord funct3 rd rs1 rs2).toNat 11 7) = rd := by
  apply BitVec.eq_of_toNat_eq
  rw [encodePilotWord_toNat h, BitVec.toNat_ofNat, bitsN]
  omega

theorem encodePilotWord_rs1 : BitVec.ofNat 5 (bitsN (encodePilotWord funct3 rd rs1 rs2).toNat 19 15) = rs1 := by
  apply BitVec.eq_of_toNat_eq
  rw [encodePilotWord_toNat h, BitVec.toNat_ofNat, bitsN]
  omega

theorem encodePilotWord_rs2 : BitVec.ofNat 5 (bitsN (encodePilotWord funct3 rd rs1 rs2).toNat 24 20) = rs2 := by
  apply BitVec.eq_of_toNat_eq
  rw [encodePilotWord_toNat h, BitVec.toNat_ofNat, bitsN]
  omega

end

/-- Settles O3: each field of a word reads back what was encoded in it, and the decoder's case is told by the fields alone. -/
theorem commandAndPilotWordsRoundTrip : Obligations.CommandAndPilotWordsRoundTrip := by
  refine ⟨fun sector source v => ?control, fun sector source lit cell field v => decodeConfig_encode_write cell field v sector source,
    fun die op rd rs1 rs2 => ?pilot⟩
  case control => simp [decodeConfig]
  case pilot =>
    simp [decodePilot, encodePilotWord_opcode, encodePilotWord_funct7, encodePilotWord_funct3, encodePilotWord_rd, encodePilotWord_rs1,
      encodePilotWord_rs2]

end Sys2Proof
end

