-- ==== Sys2Proof/Proofs/LoaderState.lean ====
section
/-! What the loader's operations leave in it and in the cells. -/

namespace Sys2Proof.Machine
open Sys2Proof

/-! Updates of a loader. -/

section
variable (s : State) (k : Nat)

@[simp] theorem State.updLoader_loader (f : Loader → Loader) : ((s.updLoader k f).sector k).loader = f (s.sector k).loader := by
  simp [State.updLoader]

@[simp] theorem State.updLoader_cells (f : Loader → Loader) : (s.updLoader k f).cells = s.cells := rfl

@[simp] theorem State.updLoader_cell (f : Loader → Loader) (c : Nat) : (s.updLoader k f).cell c = s.cell c := rfl

@[simp] theorem State.updLoader_swapTokens (f : Loader → Loader) : ((s.updLoader k f).sector k).swapTokens = (s.sector k).swapTokens := by
  simp [State.updLoader]

@[simp] theorem State.updLoader_cycle (f : Loader → Loader) : (s.updLoader k f).cycle k = s.cycle k := by
  simp [State.cycle, State.updLoader]

@[simp] theorem State.loaderBusy_loader (n : Nat) : ((s.loaderBusy k n).sector k).loader =
    { (s.sector k).loader with busyUntil := max (s.sector k).loader.busyUntil (s.cycle k) + n } :=
  s.updLoader_loader k _

@[simp] theorem State.loaderBusy_cells (n : Nat) : (s.loaderBusy k n).cells = s.cells := rfl

@[simp] theorem State.loaderBusy_cell (n c : Nat) : (s.loaderBusy k n).cell c = s.cell c := rfl

@[simp] theorem State.loaderBusy_swapTokens (n : Nat) : ((s.loaderBusy k n).sector k).swapTokens = (s.sector k).swapTokens :=
  s.updLoader_swapTokens k _

@[simp] theorem State.notSwap_loader (src : LoadSource) : ((s.notSwap k src).sector k).loader =
    { (s.sector k).loader with ended := (s.sector k).loader.ended.filter (fun e => e.1 != src) } :=
  s.updLoader_loader k _

@[simp] theorem State.notSwap_cells (src : LoadSource) : (s.notSwap k src).cells = s.cells := rfl

@[simp] theorem State.notSwap_cell (src : LoadSource) (c : Nat) : (s.notSwap k src).cell c = s.cell c := rfl

@[simp] theorem State.notSwap_swapTokens (src : LoadSource) : ((s.notSwap k src).sector k).swapTokens = (s.sector k).swapTokens :=
  s.updLoader_swapTokens k _

@[simp] theorem State.notSwap_cycle (src : LoadSource) : (s.notSwap k src).cycle k = s.cycle k :=
  s.updLoader_cycle k _

@[simp] theorem State.notSwap_isPatch (src : LoadSource) (x0 y0 w h : Nat) : (s.notSwap k src).isPatch k x0 y0 w h = s.isPatch k x0 y0 w h := rfl

@[simp] theorem State.notSwap_shadows (src : LoadSource) (x0 y0 w h : Nat) : (s.notSwap k src).shadows k x0 y0 w h = s.shadows k x0 y0 w h := rfl

@[simp] theorem State.notSwap_sealFails (src : LoadSource) (x0 y0 w h v : Nat) (ps : PatchPlanes) :
    (s.notSwap k src).sealFails k x0 y0 w h v ps = s.sealFails k x0 y0 w h v ps := rfl

end

/-- Where a source's commands are not discarded, none is (R362). -/
theorem State.discards_of_nil {s : State} {k : Nat} (src : LoadSource) (isBegin isSeal isSwap : Bool)
    (h : (s.sector k).loader.discarding = []) : s.discards k src isBegin isSeal isSwap = (none, s) := by
  simp only [State.discards, h, List.find?_nil]

/-- A BEGIN that has come waits (R78). -/
theorem Loader.arrive_waits (l : Loader) (src : LoadSource) (cyc : Nat) : ∃ e ∈ (l.arrive src cyc).waiting, e.1 = src := by
  unfold Loader.arrive
  split
  · rename_i h
    simpa using h
  · exact ⟨(src, cyc), by simp, rfl⟩

@[simp] theorem Loader.arrive_serving (l : Loader) (src : LoadSource) (cyc : Nat) : (l.arrive src cyc).serving = l.serving := by
  unfold Loader.arrive
  split <;> rfl

@[simp] theorem Loader.discard_serving (l : Loader) (src : LoadSource) (phase : Nat) : (l.discard src phase).serving = l.serving := rfl

@[simp] theorem Loader.discard_tt (l : Loader) (src : LoadSource) (phase : Nat) : (l.discard src phase).tt = l.tt := rfl

/-- A fault of a source that is not served changes no cell: the source's later commands are discarded (R361, R362). -/
theorem State.streamFault_of_not_serving {s : State} {k : Nat} {src : LoadSource} (h : (s.sector k).loader.serving ≠ some src)
    (code cell bank field word : Nat) :
    let t := (s.streamFault k src code cell bank field word).state
    t.cells = s.cells ∧ (src, 1) ∈ (t.sector k).loader.discarding ∧ (t.sector k).loader.tt = (s.sector k).loader.tt := by
  simp [State.streamFault, Loader.discard, h]

/-! Updates of the cells that a list names. -/

section
variable {β : Type} (at_ : β → Nat) (f : β → Cell → Cell)

@[simp] theorem State.foldl_updCell_sectors (l : List β) (s : State) :
    (l.foldl (fun (a : State) e => a.updCell (at_ e) (f e)) s).sectors = s.sectors :=
  List.foldlRecOn l _ (motive := fun a : State => a.sectors = s.sectors) rfl fun _ ha _ _ => ha

@[simp] theorem State.foldl_updCell_sector (l : List β) (s : State) (k : Nat) :
    (l.foldl (fun (a : State) e => a.updCell (at_ e) (f e)) s).sector k = s.sector k := by
  simp [State.sector]

/-- A cell that is not named is as it was. -/
theorem State.foldl_updCell_cell_other {l : List β} {c : Nat} (h : ∀ e ∈ l, at_ e ≠ c) (s : State) :
    (l.foldl (fun (a : State) e => a.updCell (at_ e) (f e)) s).cell c = s.cell c :=
  List.foldlRecOn l _ (motive := fun a : State => a.cell c = s.cell c) rfl fun _ ha e he => by
    rw [State.updCell_cell_other _ _ _ _ (h e he).symm, ha]

/-- What every update keeps holds of every cell after them. -/
theorem State.foldl_updCell_keeps {P : Cell → Prop} (hf : ∀ e x, P x → P (f e x)) (l : List β) {s : State} {c : Nat} (h : P (s.cell c)) :
    P ((l.foldl (fun (a : State) e => a.updCell (at_ e) (f e)) s).cell c) := by
  refine List.foldlRecOn l _ (motive := fun a : State => P (a.cell c)) h fun a ha e _ => ?_
  obtain rfl | hne := eq_or_ne c (at_ e)
  · rw [State.updCell_cell_same]
    exact hf e _ ha
  · rwa [State.updCell_cell_other _ _ _ _ hne]

/-- What every update brings about, given what every update keeps, holds of each cell that is named. -/
theorem State.foldl_updCell_holds {P Q : Cell → Prop} (hf : ∀ e x, Q x → P (f e x)) (hPQ : ∀ x, P x → Q x)
    {l : List β} {e : β} (he : e ∈ l) {s : State} (h : Q (s.cell (at_ e))) :
    P ((l.foldl (fun (a : State) e => a.updCell (at_ e) (f e)) s).cell (at_ e)) := by
  obtain ⟨before, after, rfl⟩ := List.append_of_mem he
  rw [List.foldl_append, List.foldl_cons]
  refine State.foldl_updCell_keeps at_ f (fun e x hx => hf e x (hPQ x hx)) after ?_
  rw [State.updCell_cell_same]
  exact hf e _ (State.foldl_updCell_keeps at_ f (fun e x hx => hPQ _ (hf e x hx)) before h)

/-- A cell that is named once is updated once. -/
theorem State.foldl_updCell_cell_same {l : List β} (hl : (l.map at_).Nodup) {e : β} (he : e ∈ l) (s : State) :
    (l.foldl (fun (a : State) e => a.updCell (at_ e) (f e)) s).cell (at_ e) = f e (s.cell (at_ e)) := by
  obtain ⟨before, after, rfl⟩ := List.append_of_mem he
  rw [List.map_append, List.map_cons, List.nodup_middle, List.nodup_cons, List.mem_append, not_or, List.mem_map, List.mem_map] at hl
  obtain ⟨⟨hbefore, hafter⟩, -⟩ := hl
  rw [List.foldl_append, List.foldl_cons, State.foldl_updCell_cell_other at_ f (fun x hx hat => hafter ⟨x, hx, hat⟩),
    State.updCell_cell_same, State.foldl_updCell_cell_other at_ f (fun x hx hat => hbefore ⟨x, hx, hat⟩)]

end

/-- A sector's cells have numbers of their own. -/
theorem cellInSector_inj {k x y x' y' : Nat} (hx : x < 16) (hx' : x' < 16) (h : cellInSector k x y = cellInSector k x' y') :
    x = x' ∧ y = y' := by
  unfold cellInSector cellOf sectorPx sectorPy at h
  omega

/-- The cells of a patch are listed once each. -/
theorem patchCells_nodup {x0 w : Nat} (hx : x0 + w ≤ 16) (k y0 h : Nat) : (patchCells k x0 y0 w h).Nodup := by
  rw [patchCells, List.nodup_flatMap]
  refine ⟨fun y _ => List.nodup_range.map_on fun x hxw x' hxw' heq => ?_, List.nodup_range.imp fun {y y'} hne c hc hc' => ?_⟩
  · rw [List.mem_range] at hxw hxw'
    have := cellInSector_inj (by omega) (by omega) heq
    omega
  · obtain ⟨x, hxw, rfl⟩ := List.mem_map.mp hc
    obtain ⟨x', hxw', heq⟩ := List.mem_map.mp hc'
    rw [List.mem_range] at hxw hxw'
    have := cellInSector_inj (by omega) (by omega) heq
    omega

end Sys2Proof.Machine
end

