-- ==== Sys2Proof/Proofs/LoaderCommands.lean ====
section
/-! What a command answers to a source whose stream stands where the command may stand (R65 to R68, R74, R75). -/

namespace Sys2Proof.Machine
open Sys2Proof

/-- The state in which a write is executed: a LIT before it is spent, and so is what a SEAL left for a SWAP. -/
def State.writeFrom (s : State) (k : Nat) (src : LoadSource) : State :=
  (s.notSwap k src).updLoader k (fun l => { l with lit := l.lit.filter (fun e => e != src) })

/-- A field written into the shadow planes of some cells. -/
def State.writeShadows (s : State) (cs : List Nat) (bank field : Nat) (v : Half) : State :=
  cs.foldl (fun (a : State) c => a.updCell c (fun t => { t with shadow := t.shadow.write bank field v })) s

/-- The planes of a patch opened on a base (R68). -/
def State.openShadows (s : State) (cs : List Nat) (base : Nat) : State :=
  cs.foldl (fun (a : State) c => a.updCell c (fun t => t.openShadow base)) s

/-- The cell of a cell index of the patch that the loader's stream names. -/
def Loader.cellAt (l : Loader) (k i : Nat) : Nat := cellInSector k (l.x0 + i % 16) (l.y0 + i / 16)

/-- The planes that a SEAL checks: the shadow planes of the stream's patch, their marked slots dropped (R55, R364). -/
def State.sealPlanes (s : State) (k : Nat) : PatchPlanes :=
  let l := (s.sector k).loader
  (s.shadows k l.x0 l.y0 l.w l.h).map (fun e => (e.1, e.2.dropMarks))

/-- Planes put into the shadows of the cells they name, marked and in a shadow state. -/
def State.putShadows (s : State) (at_ : Nat → Nat) (ps : PatchPlanes) (st : ShadowState) (mark : Plane → Plane) : State :=
  ps.foldl (fun (a : State) e => a.updCell (at_ e.1) (fun t => { t with shadow := mark e.2, shadowState := st })) s

/-- Other residents in the place of those there were: a SEAL notes its result in that of its patch. -/
def State.setInsts (s : State) (insts : List Inst) : State := { s with insts := insts }

section
variable {s : State} {k : Nat} {src : LoadSource} (hd : (s.sector k).loader.discarding = [])
include hd

theorem State.cfgBegin_of_idle (hidle : (s.sector k).loader.serving = none) {v : Nat}
    (hbase : bitsN v 15 14 ≠ 3) (hzero : bitsN v 13 8 = 0) :
    s.cfgBegin k src v = ⟨(((s.notSwap k src).updLoader k (fun l => { l with waiting := l.waiting.filter (fun e => e.1 != src) })).updLoader k
      (fun l => { l with
        serving := some src
        begun := true
        opened := false
        base := bitsN v 15 14
        w := bitsN v 7 4 + 1
        h := bitsN v 3 0 + 1 })).loaderBusy k 1, 0, none⟩ := by
  simp [State.cfgBegin, State.discards_of_nil, hd, hidle, hbase, hzero]

theorem State.cfgOrigin_of_begun (hserving : (s.sector k).loader.serving = some src)
    (hbegun : (s.sector k).loader.begun = true) (hopened : (s.sector k).loader.opened = false) {v : Nat} (hhigh : bitsN v 15 13 = 0)
    (hmid : bitsN v 7 4 = 0) (hx : bitsN v 3 0 + (s.sector k).loader.w ≤ 16) (hy : bitsN v 12 8 + (s.sector k).loader.h ≤ 32)
    (hpatch : s.isPatch k (bitsN v 3 0) (bitsN v 12 8) (s.sector k).loader.w (s.sector k).loader.h = true) :
    let l := (s.sector k).loader
    s.cfgOrigin k src v = ⟨(((s.notSwap k src).openShadows (patchCells k (bitsN v 3 0) (bitsN v 12 8) l.w l.h) l.base).updLoader k
      (fun t => { t with x0 := bitsN v 3 0, y0 := bitsN v 12 8, opened := true, bank := 0 })).loaderBusy k
        (if l.base = 0 then 8 else if l.base = 1 then 40 else 1), 0, none⟩ := by
  simp [State.cfgOrigin, State.openShadows, State.discards_of_nil, hd, hserving, hbegun, hopened, hhigh, hmid, hpatch, Nat.not_lt.mpr hx,
    Nat.not_lt.mpr hy]

/-! In an open stream. -/

section
variable (hserving : (s.sector k).loader.serving = some src) (hopened : (s.sector k).loader.opened = true)
include hserving hopened

theorem State.cfgNop_of_open : s.cfgNop k src 0 = ⟨(s.notSwap k src).loaderBusy k 1, 0, none⟩ := by
  simp [State.cfgNop, State.discards_of_nil, hd, Loader.isOpen, hserving, hopened]

theorem State.cfgBank_of_open {v : Nat} (hv : v < 3) :
    s.cfgBank k src v = ⟨((s.notSwap k src).updLoader k (fun l => { l with bank := v })).loaderBusy k 1, 0, none⟩ := by
  simp [State.cfgBank, State.discards_of_nil, hd, Loader.isOpen, hserving, hopened, Nat.not_le.mpr hv]

theorem State.cfgLit_of_open :
    s.cfgLit k src 0 = ⟨((s.notSwap k src).updLoader k (fun l => { l with lit := src :: l.lit })).loaderBusy k 1, 0, none⟩ := by
  simp [State.cfgLit, State.discards_of_nil, hd, Loader.isOpen, hserving, hopened]

/-- A write to one cell of the patch (R65). -/
theorem State.cfgWrite_one {cell field : Nat} (v : Half) (hall : cell ≠ 0xFF) (hx : cell % 16 < (s.sector k).loader.w)
    (hy : cell / 16 < (s.sector k).loader.h) (hfield : fieldReserved (s.sector k).loader.bank field = false) :
    let l := (s.sector k).loader
    s.cfgWrite k src false cell field v.toNat =
      ⟨((s.writeFrom k src).writeShadows [l.cellAt k cell] l.bank field v).loaderBusy k 1, 0, none⟩ := by
  simp [State.cfgWrite, State.writeFrom, State.writeShadows, State.discards_of_nil, hd, Loader.isOpen, Loader.cellAt, hserving, hopened, hall, hfield,
    Nat.not_le.mpr hx, Nat.not_le.mpr hy]

/-- A write to every cell of the patch (R65). -/
theorem State.cfgWrite_all {field : Nat} (v : Half) (hfield : fieldReserved (s.sector k).loader.bank field = false) :
    let l := (s.sector k).loader
    s.cfgWrite k src false 0xFF field v.toNat =
      ⟨((s.writeFrom k src).writeShadows (patchCells k l.x0 l.y0 l.w l.h) l.bank field v).loaderBusy k 1, 0, none⟩ := by
  simp [State.cfgWrite, State.writeFrom, State.writeShadows, State.discards_of_nil, hd, Loader.isOpen, hserving, hopened, hfield]

end

/-- A write of a source that is not served is a fault (R361). -/
theorem State.cfgWrite_of_not_serving (hserving : (s.sector k).loader.serving ≠ some src) (lit : Bool) (cell field v : Nat) :
    s.cfgWrite k src lit cell field v =
      (s.writeFrom k src).streamFault k src 0x0101 cell (s.sector k).loader.bank field (cmdWord cell field v) := by
  simp [State.cfgWrite, State.writeFrom, State.discards_of_nil, hd, Loader.isOpen, hserving]

theorem State.cfgSwap_of_ended {v x0 y0 w h : Nat} (hended : (s.sector k).loader.ended.find? (fun e => e.1 == src) = some (src, x0, y0, w, h))
    (hv : bitsN v 15 4 = 0) :
    s.cfgSwap k src v = ⟨((s.notSwap k src).updSector k (fun t =>
      { t with swapTokens := t.swapTokens ++ [⟨x0, y0, w, h, BitVec.ofNat 4 v, src⟩] })).loaderBusy k 1, 0, none⟩ := by
  simp [State.cfgSwap, State.discards_of_nil, hd, hended, hv]

/-! SEAL. -/

section
variable (hserving : (s.sector k).loader.serving = some src) (hopened : (s.sector k).loader.opened = true)
include hserving hopened

/-- A SEAL is decided by its checks: the planes stand SEALED and the stream may be swapped in, or they stand STALE (R74, R364). -/
theorem State.cfgSeal_of_open {v : Nat} (hv : bitsN v 15 4 = 0) :
    let l := (s.sector k).loader
    let x := expandPatch (s.sealPlanes k) l.w l.h
    ∃ insts, s.cfgSeal k src v = match s.sealFails k l.x0 l.y0 l.w l.h v (s.sealPlanes k) with
      | none =>
        ⟨((((((s.notSwap k src).setInsts insts).putShadows (l.cellAt k) x.1 (.sealed (BitVec.ofNat 4 v))
          (fun p => { p with ver := BitVec.ofNat 4 v, source := src, stream := 0 })).updLoader k (fun t => { t with
            serving := none
            begun := false
            opened := false
            ended := (src, l.x0, l.y0, l.w, l.h) :: t.ended })).loaderBusy k (24 + (x.2 + 15) / 16)).updLoader k
          (fun t => { t with sealing := some (l.x0, l.y0, l.w, l.h, t.busyUntil) })), 0, none⟩
      | some f =>
        ⟨((((s.notSwap k src).setInsts insts).putShadows (l.cellAt k) (s.sealPlanes k) .stale id).updLoader k (fun t =>
          { t with serving := none, begun := false, opened := false }.discard src 2)).loaderBusy k 24, 2, some f⟩ := by
  intro l x
  have hdiscards := State.discards_of_nil (s := s.notSwap k src) (k := k) src false true false (by simp [hd])
  have hopen : ((s.notSwap k src).sector k).loader.isOpen src = true := by simp [Loader.isOpen, hserving, hopened]
  simp only [State.cfgSeal, hdiscards, hopen, hv, Bool.true_eq_false, ne_eq, not_true_eq_false, if_false]
  simp only [State.notSwap_loader, State.notSwap_shadows, State.notSwap_sealFails, State.sealPlanes, l, x]
  generalize s.sealFails k _ _ _ _ v _ = checks
  cases checks with
  | none => exact ⟨_, rfl⟩
  | some f => exact ⟨_, rfl⟩

end

end

/-! What these leave. -/

section
variable (s : State) (k c : Nat)

@[simp] theorem State.setInsts_sector (insts : List Inst) : (s.setInsts insts).sector k = s.sector k := rfl

@[simp] theorem State.putShadows_sector (at_ : Nat → Nat) (ps : PatchPlanes) (st : ShadowState) (mark : Plane → Plane) :
    (s.putShadows at_ ps st mark).sector k = s.sector k :=
  State.foldl_updCell_sector _ _ ps s k

@[simp] theorem State.writeFrom_loader (src : LoadSource) : ((s.writeFrom k src).sector k).loader = { (s.sector k).loader with
    ended := (s.sector k).loader.ended.filter (fun e => e.1 != src)
    lit := (s.sector k).loader.lit.filter (fun e => e != src) } := by
  simp [State.writeFrom]

@[simp] theorem State.writeFrom_cell (src : LoadSource) : (s.writeFrom k src).cell c = s.cell c := rfl

@[simp] theorem State.writeShadows_sector (cs : List Nat) (bank field : Nat) (v : Half) : (s.writeShadows cs bank field v).sector k = s.sector k :=
  State.foldl_updCell_sector _ _ cs s k

@[simp] theorem State.openShadows_sector (cs : List Nat) (base : Nat) : (s.openShadows cs base).sector k = s.sector k :=
  State.foldl_updCell_sector _ _ cs s k

end

/-- A plane that is put into a cell stands there with its mark, or one put there after it does; the active plane stays. -/
theorem State.putShadows_cell (s : State) (at_ : Nat → Nat) {ps : PatchPlanes} (st : ShadowState) (mark : Plane → Plane)
    {e : Nat × Plane} (he : e ∈ ps) :
    let x := (s.putShadows at_ ps st mark).cell (at_ e.1)
    x.shadowState = st ∧ (∃ p, x.shadow = mark p) ∧ x.active = (s.cell (at_ e.1)).active :=
  State.foldl_updCell_holds (fun e : Nat × Plane => at_ e.1) (fun e t => { t with shadow := mark e.2, shadowState := st })
    (P := fun x : Cell => x.shadowState = st ∧ (∃ p, x.shadow = mark p) ∧ x.active = (s.cell (at_ e.1)).active)
    (Q := fun x : Cell => x.active = (s.cell (at_ e.1)).active) (fun e _ hx => ⟨rfl, ⟨e.2, rfl⟩, hx⟩) (fun _ ⟨_, _, hx⟩ => hx) he rfl

section
variable (s : State) {cs : List Nat} {c : Nat}

theorem State.writeShadows_cell_same (hcs : cs.Nodup) (hc : c ∈ cs) (bank field : Nat) (v : Half) :
    (s.writeShadows cs bank field v).cell c = { s.cell c with shadow := (s.cell c).shadow.write bank field v } :=
  State.foldl_updCell_cell_same id _ (by rwa [List.map_id]) hc s

theorem State.writeShadows_cell_other (hc : c ∉ cs) (bank field : Nat) (v : Half) : (s.writeShadows cs bank field v).cell c = s.cell c :=
  State.foldl_updCell_cell_other id _ (by rintro _ he rfl; exact hc he) s

theorem State.openShadows_cell_same (hcs : cs.Nodup) (hc : c ∈ cs) (base : Nat) : (s.openShadows cs base).cell c = (s.cell c).openShadow base :=
  State.foldl_updCell_cell_same id _ (by rwa [List.map_id]) hc s

theorem State.openShadows_cell_other (hc : c ∉ cs) (base : Nat) : (s.openShadows cs base).cell c = s.cell c :=
  State.foldl_updCell_cell_other id _ (by rintro _ he rfl; exact hc he) s

end

end Sys2Proof.Machine
end

