-- ==== Sys2Proof/Proofs/ConfigurationCommands.lean ====
section
/-! Settles O37 and O38: the configuration commands of a source whose commands its loader takes. -/

namespace Sys2Proof
open Machine

/-! Each control command, by the operation it runs at the loader (R66). -/

section
variable (k : Fin 64) (src : LoadSource) (v : BitVec 16) (s : State)

theorem exec_cfgNop : exec (.cfgNop k src v) s = s.runControl k src 0 v.toNat (fun a => a.cfgNop k src v.toNat) := rfl

theorem exec_cfgBegin : exec (.cfgBegin k src v) s = s.runControl k src 1 v.toNat (fun a => a.cfgBegin k src v.toNat) := rfl

theorem exec_cfgOrigin : exec (.cfgOrigin k src v) s = s.runControl k src 2 v.toNat (fun a => a.cfgOrigin k src v.toNat) := rfl

theorem exec_cfgBank : exec (.cfgBank k src v) s = s.runControl k src 3 v.toNat (fun a => a.cfgBank k src v.toNat) := rfl

theorem exec_cfgSeal : exec (.cfgSeal k src v) s = s.runControl k src 4 v.toNat (fun a => a.cfgSeal k src v.toNat) := rfl

theorem exec_cfgLit : exec (.cfgLit k src v) s = s.runControl k src 5 v.toNat (fun a => a.cfgLit k src v.toNat) := rfl

theorem exec_cfgSwap : exec (.cfgSwap k src v) s = s.runControl k src 6 v.toNat (fun a => a.cfgSwap k src v.toNat) := rfl

theorem exec_cfgWrite (cell field : BitVec 8) : exec (.cfgWrite k src cell field v) s = execCfgWrite k src cell field v s := rfl

end

/-! A command that its loader takes. -/

section
variable {s : State} {k : Fin 64} {src : LoadSource} (h : LoaderTakes s k src)
include h

theorem LoaderTakes.accepts : s.loaderAccepts k src = true := by
  obtain ⟨haccepts, -⟩ := h
  exact haccepts

theorem LoaderTakes.discarding : (s.sector k).loader.discarding = [] := by
  obtain ⟨-, hdiscarding, -⟩ := h
  exact hdiscarding

theorem LoaderTakes.isLit : s.isLit k src = false := by
  obtain ⟨-, -, hlit, -⟩ := h
  simp [State.isLit, hlit]

/-- The Timetable does no more on the answer to a command of no stream of its own. -/
theorem LoaderTakes.sent {a : LoadAnswer} (htt : (a.state.sector k).loader.tt = (s.sector k).loader.tt) : a.sent k src = a.state := by
  obtain ⟨-, -, -, hno⟩ := h
  have hnone : (if src = .timetable then (a.state.sector k).loader.tt else none) = none := by
    rw [ite_eq_right_iff, htt]
    exact hno
  simp only [LoadAnswer.sent, hnone]

/-- A control command runs, a BEGIN in its turn (R66, R78). -/
theorem LoaderTakes.control_gives {i : Instr} {field value : Nat} {g : State → LoadAnswer} {a : LoadAnswer} {P : State → Prop}
    (hi : exec i s = s.runControl k src field value g) (hturn : field ≠ 1 ∨ (s.sector k).loader.firstWaiting src (s.cycle k) = true)
    (hg : g s = a) (htt : (a.state.sector k).loader.tt = (s.sector k).loader.tt) (hP : P a.state) : Gives i s P := by
  have htakes : s.loaderTakes k src (s.isBegin k src 0xFE field) = true := by
    obtain hfield | hfirst := hturn
    · simp [State.loaderTakes, h.accepts, State.isBegin, hfield]
    · simp [State.loaderTakes, h.accepts, hfirst]
  exact ⟨a.state, by rw [hi, Laws.runControl_accepted htakes h.isLit, hg, h.sent htt], hP⟩

/-- A BEGIN whose turn has not come waits (R78). -/
theorem LoaderTakes.begin_waits (v : BitVec 16) (hidle : (s.sector k).loader.serving = none)
    (hturn : (s.sector k).loader.firstWaiting src (s.cycle k) = false) :
    exec (.cfgBegin k src v) s = .next (s.updLoader k (fun l => if l.serving == some src then l else l.arrive src (s.cycle k))) := by
  have hbegin : s.isBegin k src 0xFE 1 = true := by simp [State.isBegin, h.isLit]
  have hwaits : s.loaderTakes k src true = false := by simp [State.loaderTakes, hidle, hturn]
  rw [exec_cfgBegin]
  simp [State.runControl, hbegin, hwaits, State.loaderWaits]

/-- A write command whose CELL is not the control code runs (R65). -/
theorem LoaderTakes.write_gives {cell field : BitVec 8} {v : BitVec 16} {a : LoadAnswer} {P : State → Prop} (hcell : cell ≠ 0xFE)
    (ha : s.cfgWrite k src false cell.toNat field.toNat v.toNat = a) (htt : (a.state.sector k).loader.tt = (s.sector k).loader.tt)
    (hP : P a.state) : Gives (.cfgWrite k src cell field v) s P := by
  have hnat : cell.toNat ≠ 0xFE := fun hc => hcell (BitVec.eq_of_toNat_eq hc)
  have htakes : s.loaderTakes k src (s.isBegin k src cell.toNat field.toNat) = true := by
    simp [State.loaderTakes, h.accepts, State.isBegin, hnat]
  refine ⟨a.state, ?_, hP⟩
  rw [exec_cfgWrite]
  simp only [execCfgWrite, htakes, h.isLit, hcell, false_and, if_false, Bool.not_true, Bool.false_eq_true, ha, h.sent htt]

/-- A write to some cells replaces the field in their shadow planes and changes no other cell (R65). -/
theorem LoaderTakes.write_gives_shadows {cell field : BitVec 8} {v : BitVec 16} {cs : List Nat} {bank : Nat} (hcell : cell ≠ 0xFE) (hcs : cs.Nodup)
    (ha : s.cfgWrite k src false cell.toNat field.toNat v.toNat =
      ⟨((s.writeFrom k src).writeShadows cs bank field.toNat v).loaderBusy k 1, 0, none⟩) :
    Gives (.cfgWrite k src cell field v) s (fun t =>
      (∀ c ∈ cs, (t.cell c).shadow = (s.cell c).shadow.write bank field.toNat v ∧ (t.cell c).active = (s.cell c).active) ∧
      ∀ c, c ∉ cs → t.cell c = s.cell c) := by
  refine h.write_gives hcell ha (by simp) ⟨fun c hc => ?_, fun c hc => ?_⟩
  · rw [State.loaderBusy_cell, State.writeShadows_cell_same _ hcs hc, State.writeFrom_cell]
    exact ⟨rfl, rfl⟩
  · rw [State.loaderBusy_cell, State.writeShadows_cell_other _ hc, State.writeFrom_cell]

end

/-- Settles O37, a command after another: what each answers, and what that leaves in the loader and in the cells. -/
theorem streamCommandsComplete : Obligations.StreamCommandsComplete := by
  refine ⟨fun k src s h => ⟨?nop, ?wait, ?begins, ?origin, ?bank, ?lit, ?write⟩, ?closed⟩
  case nop =>
    rintro ⟨hserving, hopened⟩
    exact h.control_gives (exec_cfgNop ..) (.inl (by decide)) (State.cfgNop_of_open h.discarding hserving hopened) (by simp) (by simp [hopened])
  case wait =>
    intro v hidle hturn
    exact ⟨_, h.begin_waits v hidle hturn, rfl, by simp [hidle], by simpa [hidle] using Loader.arrive_waits _ src _⟩
  case begins =>
    intro v hidle hturn hbase hzero
    exact h.control_gives (exec_cfgBegin ..) (.inr hturn) (State.cfgBegin_of_idle h.discarding hidle hbase hzero) (by simp) (by simp)
  case origin =>
    intro v hserving hbegun hopened hhigh hmid hx hy hpatch patch
    have hcells : patch.Nodup := patchCells_nodup hx _ _ _
    refine h.control_gives (exec_cfgOrigin ..) (.inl (by decide))
      (State.cfgOrigin_of_begun h.discarding hserving hbegun hopened hhigh hmid hx hy hpatch) (by simp)
      ⟨by simp, by simp, fun c hc => ?_, fun c hc => ?_⟩
    · rw [State.loaderBusy_cell, State.updLoader_cell, State.openShadows_cell_same _ hcells hc, State.notSwap_cell]
      simp +contextual [Cell.openShadow, Plane.clear]
    · rw [State.loaderBusy_cell, State.updLoader_cell, State.openShadows_cell_other _ hc, State.notSwap_cell]
  case bank =>
    rintro v ⟨hserving, hopened⟩ hv
    exact h.control_gives (exec_cfgBank ..) (.inl (by decide)) (State.cfgBank_of_open h.discarding hserving hopened hv) (by simp) (by simp)
  case lit =>
    rintro ⟨hserving, hopened⟩
    exact h.control_gives (exec_cfgLit ..) (.inl (by decide)) (State.cfgLit_of_open h.discarding hserving hopened) (by simp) (by simp)
  case write =>
    rintro cell field v ⟨hserving, hopened⟩ hfield at_
    refine ⟨fun hcontrol hall hx hy => ?_, ?_⟩
    · have hnat : cell.toNat ≠ 0xFF := fun hc => hall (BitVec.eq_of_toNat_eq hc)
      simpa [and_assoc] using h.write_gives_shadows hcontrol (List.nodup_singleton at_)
        (State.cfgWrite_one h.discarding hserving hopened v hnat hx hy hfield)
    · rintro rfl hx -
      exact h.write_gives_shadows (by decide) (patchCells_nodup hx _ _ _) (State.cfgWrite_all h.discarding hserving hopened v hfield)
  case closed =>
    intro k src cell field v s h hcell hserving
    obtain ⟨hcells, hdiscarding, htt⟩ := State.streamFault_of_not_serving (s := s.writeFrom k src) (k := k) (src := src) (by simpa using hserving)
      0x0101 cell.toNat (s.sector k).loader.bank field.toNat (cmdWord cell.toNat field.toNat v.toNat)
    exact h.write_gives hcell (State.cfgWrite_of_not_serving h.discarding hserving _ _ _ _) (htt.trans (by simp)) ⟨hcells, hdiscarding⟩

/-- Settles O38: a SEAL by the outcome of its checks, then the SWAP. -/
theorem sealAndSwapComplete : Obligations.SealAndSwapComplete := by
  refine fun k src v s h hv => ⟨fun hserving hopened => ⟨fun hpass => ?passes, fun hfail => ?fails⟩, fun x0 y0 w hh hended => ?swap⟩
  case passes =>
    obtain ⟨insts, heq⟩ := State.cfgSeal_of_open h.discarding hserving hopened hv
    simp only [State.sealPlanes, hpass] at heq
    refine h.control_gives (exec_cfgSeal ..) (.inl (by decide)) heq (by simp) ⟨fun e he => ?_, by simp, by simp⟩
    obtain ⟨hstate, ⟨p, hshadow⟩, hactive⟩ := State.putShadows_cell ((s.notSwap k src).setInsts insts) _ _ _ he
    simp only [State.updLoader_cell, State.loaderBusy_cell]
    exact ⟨hstate, congrArg Plane.ver hshadow, hactive⟩
  case fails =>
    obtain ⟨f, hf⟩ := Option.ne_none_iff_exists'.mp hfail
    obtain ⟨insts, heq⟩ := State.cfgSeal_of_open h.discarding hserving hopened hv
    simp only [State.sealPlanes, hf] at heq
    refine h.control_gives (exec_cfgSeal ..) (.inl (by decide)) heq (by simp) ⟨fun e he => ?_, by simp⟩
    obtain ⟨hstate, -, hactive⟩ := State.putShadows_cell ((s.notSwap k src).setInsts insts) _ _ _ he
    simp only [State.updLoader_cell, State.loaderBusy_cell]
    exact ⟨hstate, hactive⟩
  case swap =>
    exact h.control_gives (exec_cfgSwap ..) (.inl (by decide)) (State.cfgSwap_of_ended h.discarding hended hv) (by simp) ⟨by simp, rfl⟩

end Sys2Proof
end

