-- ==== Sys2Proof/Proofs/RemoteRequests.lean ====
section
/-! What a REM access does at its target cell (R110, R114, R230, R233), and that it leaves the request answered. -/

namespace Sys2Proof.Machine
open Sys2Proof

/-! Answers. -/

theorem State.req_id {s : State} {id : Nat} {r : Req} (h : s.req id = some r) : r.id = id := by
  simpa using List.find?_some h

/-- The queue decides what a number names. -/
theorem State.req_congr {s t : State} (h : t.reqs = s.reqs) (id : Nat) : t.req id = s.req id := by
  rw [State.req, h, State.req]

@[simp] theorem State.answer_cells (s : State) (id v : Nat) : (s.answer id v).cells = s.cells := rfl

@[simp] theorem State.answer_cell (s : State) (id v k : Nat) : (s.answer id v).cell k = s.cell k := rfl

theorem State.answer_replied {s : State} {id : Nat} {q : Req} (h : s.req id = some q) (v : Nat) : Replied (s.answer id v) id v :=
  ⟨_, State.updReq_req (fun _ => rfl) h, rfl, rfl⟩

/-! The queue under the operations of an access. -/

@[simp] theorem State.askWords_reqs (s : State) (c cls cyc : Nat) (ws : List Nat) : (s.askWords c cls cyc ws).2.reqs = s.reqs := by
  simp only [State.askWords]
  split <;> rfl

@[simp] theorem State.see_reqs (s : State) (c time : Nat) : (s.see c time).reqs = s.reqs := by
  simp only [State.see]
  split <;> rfl

@[simp] theorem State.acquireFrom_reqs (s : State) (w : Writer) (loc : Spot) (found : Option Written) :
    (s.acquireFrom w loc found).reqs = s.reqs := by
  unfold State.acquireFrom
  split
  · split
    · exact State.see_reqs _ _ _
    · rfl
  · rfl

@[simp] theorem State.spadStoreBy_reqs (s : State) (w : Writer) (c swz off v n : Nat) : (s.spadStoreBy w c swz off v n).reqs = s.reqs := by
  unfold State.spadStoreBy State.forward
  split <;> rfl

/-! At the target's banks. -/

theorem Cell.anyBad_congr {c d : Cell} (h : d.badWords = c.badWords) (swz a n : Nat) : d.anyBad swz a n = c.anyBad swz a n := by
  simp only [Cell.anyBad, Cell.badWord, h]

theorem Cell.anyTagged_congr {c d : Cell} (h : d.tags = c.tags) (swz a n : Nat) : d.anyTagged swz a n = c.anyTagged swz a n := by
  simp only [Cell.anyTagged, Cell.tagged, h]

/-- The state in which a REM access has asked its target's banks (R114). -/
def State.askedFor (s : State) (r : Req) : Bool × State :=
  s.askBank (remCell r.addr) 1 (s.cycle (sectorOfCell (remCell r.addr))) r.swz (remOff r.addr) r.size

section
variable (s : State) (r : Req)

theorem State.askedFor_cell (k : Nat) : ∃ banks, (s.askedFor r).2.cell k = { s.cell k with banks := banks } :=
  s.askWords_cell _ _ _ _ k

@[simp] theorem State.askedFor_reqs : (s.askedFor r).2.reqs = s.reqs := s.askWords_reqs _ _ _ _

@[simp] theorem State.askedFor_mem : (s.askedFor r).2.mem = s.mem := s.askBank_mem _ _ _ _ _ _

theorem State.askedFor_bytes (n : Nat) : ((s.askedFor r).2.cell (remCell r.addr)).bytes r.swz (remOff r.addr) n =
    (s.cell (remCell r.addr)).bytes r.swz (remOff r.addr) n := by
  obtain ⟨_, h⟩ := s.askedFor_cell r (remCell r.addr)
  exact Cell.bytes_congr (by rw [h]) _ _ _

theorem State.askedFor_anyBad : ((s.askedFor r).2.cell (remCell r.addr)).anyBad r.swz (remOff r.addr) r.size =
    (s.cell (remCell r.addr)).anyBad r.swz (remOff r.addr) r.size := by
  obtain ⟨_, h⟩ := s.askedFor_cell r (remCell r.addr)
  exact Cell.anyBad_congr (by rw [h]) _ _ _

theorem State.askedFor_anyTagged : ((s.askedFor r).2.cell (remCell r.addr)).anyTagged r.swz (remOff r.addr) r.size =
    (s.cell (remCell r.addr)).anyTagged r.swz (remOff r.addr) r.size := by
  obtain ⟨_, h⟩ := s.askedFor_cell r (remCell r.addr)
  exact Cell.anyTagged_congr (by rw [h]) _ _ _

theorem State.askedFor_putBytes (v n : Nat) : (((s.askedFor r).2.cell (remCell r.addr)).putBytes r.swz (remOff r.addr) v n).spad =
    ((s.cell (remCell r.addr)).putBytes r.swz (remOff r.addr) v n).spad := by
  obtain ⟨_, h⟩ := s.askedFor_cell r (remCell r.addr)
  exact Cell.putBytes_spad_congr (by rw [h]) _ _ _ _

end

/-! What each body does there. -/

section
variable {s : State} {r : Req} {cell off : Nat}

theorem State.performRemote_load {rem sx : Bool} (hb : r.body = .load rem sx) (hbad : (s.cell cell).anyBad r.swz off r.size = false) :
    s.performRemote r cell off = s.answer r.id (loadValue ((s.cell cell).bytes r.swz off r.size) r.size sx) := by
  rw [State.performRemote, hb, hbad]
  rfl

theorem State.performRemote_store {rem : Bool} {v : BitVec 64} (hb : r.body = .store rem v)
    (htag : (s.cell cell).anyTagged r.swz off r.size = false) :
    s.performRemote r cell off = (s.spadStoreBy (s.writerOf r none) cell r.swz off v.toNat r.size).answer r.id 0 := by
  rw [State.performRemote, hb, htag]
  rfl

theorem State.performRemote_atomic {rem : Bool} {ty : Ty} {aop o sc : Nat} {v : Word} (hb : r.body = .atomic rem ty aop o sc v) (haop : aop ≠ 7)
    (htag : (s.cell cell).anyTagged r.swz off r.size = false) (hbad : (s.cell cell).anyBad r.swz off r.size = false) :
    ∃ w found, s.performRemote r cell off = ((s.acquireFrom w (.cell cell) found).spadStoreBy w cell r.swz off
      (atomicFn ty aop (BitVec.ofNat 32 ((s.cell cell).bytes r.swz off 4)) v).toNat 4).answer r.id
        (BitVec.ofNat 32 ((s.cell cell).bytes r.swz off 4)).toNat := by
  refine ⟨s.writerOf r (some (o, sc)), Map.find (s.cell cell).hist (spadWord r.swz off), ?_⟩
  rw [State.performRemote, hb, htag, hbad]
  simp only [haop, Bool.false_eq_true, if_false]

end

/-- A REM access that has come to a resident cell of this package which may take it (R47, R110). -/
structure State.AtTarget (s : State) (id : Nat) (r : Req) : Prop where
  asked : Asked s id r
  fabric : r.loc = false
  first : ∀ q ∈ s.reqs, q.order < r.order → q.cell ≠ r.cell
  here : remPkg r.addr = s.package
  die : s.dieExists (remDie r.addr) = true
  reached : s.meshReached r = true
  unshut : (s.sector (sectorOfCell (remCell r.addr))).shut = false
  runs : s.sectorRuns (sectorOfCell (remCell r.addr)) = true
  resident : ∃ i, s.instAt (remCell r.addr) = some i ∧ i.asid = r.asid ∧ remOff r.addr + r.size ≤ i.spad

section
variable {s : State} {id : Nat} {r : Req} (h : s.AtTarget id r)
include h

/-- The access asks its target's banks, unless its store must wait for a stream; granted, it is performed. -/
theorem State.AtTarget.exec_eq (hremote : r.body.isRemote = true) (hbody : ∀ m, r.body ≠ .unsub m) (answer : BitVec 64) :
    exec (.remoteRequest id answer) s =
      (let g := if r.body.stores && s.streamFull (remCell r.addr) (remOff r.addr) r.size then (false, s) else s.askedFor r
       .next (if g.1 then g.2.performRemote r (remCell r.addr) (remOff r.addr) else g.2)) := by
  obtain ⟨hfound, hstage, -, hruns⟩ := h.asked
  obtain ⟨i, hi, hasid, hspad⟩ := h.resident
  have hahead : (s.reqs.any fun q => q.cell == r.cell && decide (q.order < r.order) && q.stage == .issued && q.body.isRemote && !q.loc &&
      q.addr / 2 ^ 40 == r.addr / 2 ^ 40) = false := by
    rw [List.any_eq_false]
    intro q hq hall
    simp only [Bool.and_eq_true, beq_iff_eq, decide_eq_true_eq] at hall
    obtain ⟨⟨⟨⟨⟨hcell, horder⟩, -⟩, -⟩, -⟩, -⟩ := hall
    exact h.first q hq horder hcell
  have hexec : exec (.remoteRequest id answer) s = execRemoteRequest id answer s := rfl
  rw [hexec, execRemoteRequest, hfound]
  dsimp only
  rw [if_neg (by simp [hstage, hruns])]
  split
  · rename_i m hm
    exact absurd hm (hbody m)
  · rw [if_neg (by simp [hremote, h.fabric])]
    have hexists : ¬s.dieExists (remDie r.addr) = false := by simp [h.die]
    have hreached : ¬s.meshReached r = false := by simp [h.reached]
    have hunshut : ¬(s.sector (sectorOfCell (remCell r.addr))).shut = true := by simp [h.unshut]
    have hcycle : ¬s.sectorRuns (sectorOfCell (remCell r.addr)) = false := by simp [h.runs]
    rw [hahead, if_neg Bool.false_ne_true, if_neg (not_not.mpr h.here), if_neg hexists, if_neg hreached, if_neg hunshut, if_neg hcycle, hi]
    dsimp only
    rw [if_neg (not_not.mpr hasid), if_neg (Nat.not_lt.mpr hspad)]
    rfl

/-- Granted, an access that no stream delays is performed. -/
theorem State.AtTarget.granted (hremote : r.body.isRemote = true) (hbody : ∀ m, r.body ≠ .unsub m) (hgrant : (s.askedFor r).1 = true)
    (hroom : r.body.stores = true → s.streamFull (remCell r.addr) (remOff r.addr) r.size = false) (answer : BitVec 64) :
    exec (.remoteRequest id answer) s = .next ((s.askedFor r).2.performRemote r (remCell r.addr) (remOff r.addr)) := by
  have hfree : (r.body.stores && s.streamFull (remCell r.addr) (remOff r.addr) r.size) = false := by
    rw [Bool.and_eq_false_imp]
    exact hroom
  rw [h.exec_eq hremote hbody]
  simp only [hfree, hgrant, Bool.false_eq_true, if_false, if_true]

/-- Refused, it stays in the queue, and changes no memory (R114). -/
theorem State.AtTarget.refused (hremote : r.body.isRemote = true) (hbody : ∀ m, r.body ≠ .unsub m) (hrefuse : (s.askedFor r).1 = false)
    (answer : BitVec 64) : Gives (.remoteRequest id answer) s (fun t =>
      t.reqs = s.reqs ∧ t.mem = s.mem ∧ ∀ k, (t.cell k).spad = (s.cell k).spad) := by
  rw [Gives, h.exec_eq hremote hbody]
  split
  · exact ⟨s, rfl, rfl, rfl, fun _ => rfl⟩
  · refine ⟨(s.askedFor r).2, by simp only [hrefuse, Bool.false_eq_true, if_false], s.askedFor_reqs r, s.askedFor_mem r, fun k => ?_⟩
    obtain ⟨_, hk⟩ := s.askedFor_cell r k
    rw [hk]

theorem State.AtTarget.id_eq : r.id = id := State.req_id h.asked.1

/-- A load gives the bytes of its target, and changes nothing there (R230). -/
theorem State.AtTarget.load_gives {sx : Bool} (hb : r.body = .load false sx) (hgrant : (s.askedFor r).1 = true)
    (hbad : (s.cell (remCell r.addr)).anyBad r.swz (remOff r.addr) r.size = false) (answer : BitVec 64) :
    Gives (.remoteRequest id answer) s (fun t =>
      Replied t id (loadValue ((s.cell (remCell r.addr)).bytes r.swz (remOff r.addr) r.size) r.size sx) ∧ t.mem = s.mem ∧
      ∀ k, (t.cell k).spad = (s.cell k).spad ∧ (t.cell k).g = (s.cell k).g ∧ (t.cell k).tags = (s.cell k).tags) := by
  refine ⟨_, h.granted (by rw [hb]; rfl) (by simp [hb]) hgrant (by simp [hb, ReqBody.stores]) answer, ?_⟩
  rw [State.performRemote_load hb (by rw [State.askedFor_anyBad, hbad]), State.askedFor_bytes, h.id_eq]
  refine ⟨State.answer_replied ((State.req_congr (s.askedFor_reqs r) id).trans h.asked.1) _, s.askedFor_mem r, fun k => ?_⟩
  obtain ⟨_, hk⟩ := s.askedFor_cell r k
  rw [State.answer_cell, hk]
  exact ⟨rfl, rfl, rfl⟩

/-- A store writes its bytes there (R230). -/
theorem State.AtTarget.store_gives {v : BitVec 64} (hb : r.body = .store false v) (hgrant : (s.askedFor r).1 = true)
    (hroom : s.streamFull (remCell r.addr) (remOff r.addr) r.size = false)
    (htag : (s.cell (remCell r.addr)).anyTagged r.swz (remOff r.addr) r.size = false) (answer : BitVec 64) :
    Gives (.remoteRequest id answer) s (fun t => Replied t id 0 ∧ t.mem = s.mem ∧
      (t.cell (remCell r.addr)).spad = ((s.cell (remCell r.addr)).putBytes r.swz (remOff r.addr) v.toNat r.size).spad) := by
  refine ⟨_, h.granted (by rw [hb]; rfl) (by simp [hb]) hgrant (fun _ => hroom) answer, ?_⟩
  rw [State.performRemote_store hb (by rw [State.askedFor_anyTagged, htag]), h.id_eq]
  refine ⟨State.answer_replied ((State.req_congr (by simp) id).trans h.asked.1) _, by simp, ?_⟩
  obtain ⟨_, _, hcell⟩ := (s.askedFor r).2.spadStoreBy_cell ((s.askedFor r).2.writerOf r none) (remCell r.addr) r.swz (remOff r.addr) v.toNat r.size
  rw [State.answer_cell, hcell]
  exact s.askedFor_putBytes r _ _

/-- An atomic gives the old word, and writes the new one (R233). -/
theorem State.AtTarget.atomic_gives {ty : Ty} {aop o sc : Nat} {v : Word} (hb : r.body = .atomic false ty aop o sc v) (haop : aop ≠ 7)
    (hgrant : (s.askedFor r).1 = true) (hroom : s.streamFull (remCell r.addr) (remOff r.addr) r.size = false)
    (htag : (s.cell (remCell r.addr)).anyTagged r.swz (remOff r.addr) r.size = false)
    (hbad : (s.cell (remCell r.addr)).anyBad r.swz (remOff r.addr) r.size = false) (answer : BitVec 64) :
    let old := BitVec.ofNat 32 ((s.cell (remCell r.addr)).bytes r.swz (remOff r.addr) 4)
    Gives (.remoteRequest id answer) s (fun t => Replied t id old.toNat ∧ t.mem = s.mem ∧
      (t.cell (remCell r.addr)).spad = ((s.cell (remCell r.addr)).putBytes r.swz (remOff r.addr) (atomicFn ty aop old v).toNat 4).spad) := by
  intro old
  refine ⟨_, h.granted (by rw [hb]; rfl) (by simp [hb]) hgrant (fun _ => hroom) answer, ?_⟩
  obtain ⟨w, found, hperform⟩ := State.performRemote_atomic (s := (s.askedFor r).2) hb haop (by rw [State.askedFor_anyTagged, htag])
    (by rw [State.askedFor_anyBad, hbad])
  rw [hperform, State.askedFor_bytes, h.id_eq]
  refine ⟨State.answer_replied ((State.req_congr (by simp) id).trans h.asked.1) _, by simp, ?_⟩
  obtain ⟨_, _, hcell⟩ := ((s.askedFor r).2.acquireFrom w (.cell (remCell r.addr)) found).spadStoreBy_cell w (remCell r.addr) r.swz
    (remOff r.addr) (atomicFn ty aop old v).toNat 4
  rw [State.answer_cell, hcell, State.acquireFrom_cell]
  exact s.askedFor_putBytes r _ _

end

end Sys2Proof.Machine
end

