-- ==== Sys2Proof/Proofs/GlobalRequests.lean ====
section
/-! Settles O50: a page walk leaves its request translated (R121), and a GLB access admitted at its port is performed at its memory (R123, R230,
R233, R334). -/

namespace Sys2Proof.Machine
open Sys2Proof

/-! Translation reads no request. -/

theorem State.walkFrom_updReq (s : State) (id : Nat) (f : Req → Req) (asid va : Nat) (ls : List Nat) (table : Nat) (w atm : Option Nat)
    (path : List WalkEntry) : (s.updReq id f).walkFrom asid va ls table w atm path = s.walkFrom asid va ls table w atm path := by
  induction ls generalizing table w atm path with
  | nil => rfl
  | cons l rest ih =>
    simp only [State.walkFrom, ih]
    rfl

theorem State.translate_updReq (s : State) (id : Nat) (f : Req → Req) (k asid root va : Nat) (a : Access) :
    (s.updReq id f).translate k asid root va a = ((s.translate k asid root va a).1, (s.translate k asid root va a).2.updReq id f) := by
  have hlook : (s.updReq id f).tlbLook k asid va a = s.tlbLook k asid va a := rfl
  have hwalk : (s.updReq id f).walkerWalk (dieOfSector k) asid root va = s.walkerWalk (dieOfSector k) asid root va :=
    s.walkFrom_updReq id f asid va _ _ _ _ _
  rw [State.translate, hlook, hwalk, State.translate]
  split
  · rfl
  · rfl
  · split
    · rfl
    · dsimp only
      split <;> rfl

/-- Translating changes caches only (R121). -/
theorem State.translate_keeps (s : State) (k asid root va : Nat) (a : Access) :
    (s.translate k asid root va a).2.reqs = s.reqs ∧ (s.translate k asid root va a).2.cells = s.cells := by
  unfold State.translate
  split
  · exact ⟨rfl, rfl⟩
  · exact ⟨rfl, rfl⟩
  · split
    · exact ⟨rfl, rfl⟩
    · dsimp only
      split <;> exact ⟨rfl, rfl⟩

/-! Page walks. -/

theorem State.hubOrder_of_alone {s : State} {r : Req} (h : s.reqs = [r]) : s.hubOrder r = false := by
  simp [State.hubOrder, h]

/-- The walk of a request that waits alone translates it (a walk as one event is log 58's choice). -/
theorem exec_pageWalk_alone {s : State} {id : Nat} {r : Req} (h : Asked s id r) (halone : s.reqs = [r]) (hglobal : r.body.isGlobal = true) :
    exec (.pageWalk id) s = .next ((s.reachHub r).xlatReq r) := by
  obtain ⟨hfound, hstage, -, hruns⟩ := h
  have hexec : exec (.pageWalk id) s = execPageWalk id s := rfl
  rw [hexec, execPageWalk, hfound]
  dsimp only
  rw [if_neg (by simp [hstage, hglobal, hruns, State.hubOrder_of_alone halone]), halone,
    List.filter_cons_of_pos (by simp [State.req_id hfound]), List.filter_nil]
  rfl

/-- A request whose page a walk finds stands translated (R121). -/
theorem State.xlatReq_of_ok {s u : State} {r : Req} {pa : Nat}
    (h : s.translate (sectorOfCell r.cell) r.asid (s.reqRoot r) r.addr r.body.access = (.ok pa, u)) :
    ∃ lg ns, s.xlatReq r = u.translated r pa lg ns := by
  unfold State.xlatReq
  dsimp only
  rw [h]
  exact ⟨_, _, rfl⟩

theorem State.translated_of_access {s : State} {r : Req} (hbody : r.body ≠ .prefetch) (pa lg ns : Nat) :
    s.translated r pa lg ns =
      (s.updReq r.id (fun q => { q with readyAt := q.readyAt + 60 * ns, leaf := lg })).updReq r.id (fun q => { q with stage := .translated pa }) :=
  if_neg hbody

theorem pageWalk_gives {s u : State} {id pa : Nat} {r : Req} (h : Asked s id r) (halone : s.reqs = [r]) (hglobal : r.body.isGlobal = true)
    (hbody : r.body ≠ .prefetch)
    (hxlat : s.translate (sectorOfCell r.cell) r.asid (s.reqRoot r) r.addr r.body.access = (.ok pa, u)) :
    Gives (.pageWalk id) s (fun t => (∃ q, t.reqs = [q] ∧ q.stage = .translated pa ∧ q.id = r.id ∧ q.body = r.body ∧ q.addr = r.addr ∧
      q.size = r.size ∧ q.cell = r.cell) ∧ t.mem = u.mem ∧ t.cells = s.cells) := by
  have hhub : (s.reachHub r).translate (sectorOfCell r.cell) r.asid ((s.reachHub r).reqRoot r) r.addr r.body.access = (.ok pa, u.reachHub r) := by
    have hroot : (s.reachHub r).reqRoot r = s.reqRoot r := rfl
    rw [hroot, State.reachHub, State.translate_updReq, hxlat]
    rfl
  obtain ⟨lg, ns, hreq⟩ := State.xlatReq_of_ok hhub
  obtain ⟨hreqs, hcells⟩ := s.translate_keeps (sectorOfCell r.cell) r.asid (s.reqRoot r) r.addr r.body.access
  rw [hxlat] at hreqs hcells
  have halone' : u.reqs = [r] := hreqs.trans halone
  refine ⟨_, exec_pageWalk_alone h halone hglobal, ?_⟩
  rw [hreq, State.translated_of_access hbody]
  refine ⟨⟨{ r with atHub := true, readyAt := r.readyAt + 60 * ns, leaf := lg, stage := .translated pa }, ?_, rfl, rfl, rfl, rfl, rfl, rfl⟩,
    rfl, hcells⟩
  simp only [State.updReq, State.reachHub, halone', List.map_cons, List.map_nil, if_true]

/-! Memory under operations that write none of it. -/

theorem State.memWrite_mem_congr {s t : State} (h : s.mem = t.mem) (pa v n : Nat) : (s.memWrite pa v n).mem = (t.memWrite pa v n).mem := by
  induction n with
  | zero => exact h
  | succ n ih => simp only [State.memWrite, State.memSetByte, ih]

theorem State.memRead_mem_congr {s t : State} (h : s.mem = t.mem) (pa n : Nat) : s.memRead pa n = t.memRead pa n :=
  State.memRead_congr fun i _ => by rw [State.memByte, h, State.memByte]

theorem State.memRead_lt (s : State) (pa n : Nat) : s.memRead pa n < 2 ^ (8 * n) := by
  induction n with
  | zero => exact Nat.one_pos
  | succ n ih =>
    have hbyte : (s.memByte (pa + n)).toNat * 2 ^ (8 * n) ≤ (2 ^ 8 - 1) * 2 ^ (8 * n) :=
      Nat.mul_le_mul_right _ (Nat.le_sub_one_of_lt (s.memByte (pa + n)).isLt)
    have hwidth : 2 ^ (8 * (n + 1)) = 2 ^ 8 * 2 ^ (8 * n) := by rw [Nat.mul_succ, Nat.pow_add, Nat.mul_comm]
    rw [State.memRead, hwidth]
    omega

/-- A word read from memory is the 32 bits of it. -/
theorem State.memRead_word (s : State) (pa : Nat) : (BitVec.ofNat 32 (s.memRead pa 4)).toNat = s.memRead pa 4 := by
  rw [BitVec.toNat_ofNat, Nat.mod_eq_of_lt (s.memRead_lt pa 4)]

theorem State.memWrite_reqs (s : State) (pa v n : Nat) : (s.memWrite pa v n).reqs = s.reqs := by
  induction n with
  | zero => rfl
  | succ n ih => exact ih

@[simp] theorem State.cellWrite_reqs (s : State) (w : Writer) (pa v n : Nat) : (s.cellWrite w pa v n).reqs = s.reqs := s.memWrite_reqs pa v n

@[simp] theorem State.cellWrite_cells (s : State) (w : Writer) (pa v n : Nat) : (s.cellWrite w pa v n).cells = s.cells :=
  (s.memWrite_units pa v n).2

theorem State.cellWrite_mem (s : State) (w : Writer) (pa v n : Nat) : (s.cellWrite w pa v n).mem = (s.memWrite pa v n).mem := rfl

@[simp] theorem State.see_cells (s : State) (c time : Nat) : (s.see c time).cells = s.cells := by
  simp only [State.see]
  split <;> rfl

@[simp] theorem State.acquireFrom_cells (s : State) (w : Writer) (loc : Spot) (found : Option Written) :
    (s.acquireFrom w loc found).cells = s.cells := by
  unfold State.acquireFrom
  split
  · split
    · exact State.see_cells _ _ _
    · rfl
  · rfl

/-- A reader finds one of the two values it may (R139). -/
theorem State.eitherOf_fst (s : State) (new old : List Byte) : (s.eitherOf new old).1 = new ∨ (s.eitherOf new old).1 = old := by
  unfold State.eitherOf
  split
  · exact .inl rfl
  · dsimp only
    split
    · exact .inr rfl
    · exact .inl rfl

@[simp] theorem State.readMem_reqs (s : State) (r : Reader) (pa n : Nat) : (s.readMem r pa n).2.reqs = s.reqs := by
  unfold State.readMem State.eitherOf
  dsimp only
  split <;> rfl

@[simp] theorem State.readMem_cells (s : State) (r : Reader) (pa n : Nat) : (s.readMem r pa n).2.cells = s.cells := by
  unfold State.readMem State.eitherOf
  dsimp only
  split <;> rfl

/-! Where a slot's results leave by. -/

theorem State.feedFrom_congr {s t : State} (h : ∀ c, t.cell c = s.cell c) (i : Inst) (cell slot d : Nat) :
    t.feedFrom i cell slot d = s.feedFrom i cell slot d := by
  induction d with
  | zero => rfl
  | succ d ih => simp only [State.feedFrom, ih, h]

theorem State.resultCell_congr {s t : State} (hc : ∀ c, t.cell c = s.cell c) (hi : t.insts = s.insts) (cell slot : Nat) :
    t.resultCell cell slot = s.resultCell cell slot := by
  have hinst : t.instAt cell = s.instAt cell := by rw [State.instAt, hi, State.instAt]
  have hfeed (i : Inst) : t.feed i cell slot = s.feed i cell slot := by simp only [State.feed, State.feedFrom_congr hc, hc]
  rw [State.resultCell, hinst, State.resultCell]
  split
  · rfl
  · rw [hfeed]

/-! At the point of coherence. -/

/-- A request whose answer takes the way to a location and back (R124). -/
def State.awayTo (s : State) (r : Req) (pa : Nat) : State :=
  s.updReq r.id (fun q => { q with readyAt := q.readyAt + 60 * s.glbNs (dieOfCell r.cell) pa })

section
variable {s : State} {r : Req} {pa : Nat}

theorem State.performGlobal_load {glb sx : Bool} (hb : r.body = .load glb sx) (hbad : s.memBad pa = false) :
    s.performGlobal r pa = ((s.awayTo r pa).readMem ((s.awayTo r pa).reqReader r 0 0) pa r.size).2.answer r.id
      (loadValue (bytesNat ((s.awayTo r pa).readMem ((s.awayTo r pa).reqReader r 0 0) pa r.size).1) r.size sx) := by
  have hsound : ¬(s.awayTo r pa).memBad pa = true := Bool.eq_false_iff.mp hbad
  rw [State.performGlobal, hb]
  exact if_neg hsound

theorem State.performGlobal_store {glb : Bool} {v : BitVec 64} (hb : r.body = .store glb v) :
    s.performGlobal r pa = ((s.awayTo r pa).cellWrite ((s.awayTo r pa).writerOf r none) pa v.toNat r.size).answer r.id 0 := by
  rw [State.performGlobal, hb]
  rfl

theorem State.performGlobal_atomic {glb : Bool} {ty : Ty} {aop o sc : Nat} {v : Word} (hb : r.body = .atomic glb ty aop o sc v) (haop : aop ≠ 7)
    (hbad : s.memBad pa = false) : ∃ w found, s.performGlobal r pa = (((s.awayTo r pa).acquireFrom w (.mem pa) found).cellWrite w pa
      (atomicFn ty aop (BitVec.ofNat 32 ((s.awayTo r pa).memRead pa 4)) v).toNat 4).answer r.id
        (BitVec.ofNat 32 ((s.awayTo r pa).memRead pa 4)).toNat := by
  have hsound : ¬(s.awayTo r pa).memBad pa = true := Bool.eq_false_iff.mp hbad
  refine ⟨(s.awayTo r pa).writerOf r (some (o, sc)), Map.find (s.awayTo r pa).hist (pa / 8), ?_⟩
  rw [State.performGlobal, hb]
  exact (if_neg hsound).trans (if_neg haop)

end

/-- A sector whose request its port has admitted (R334). -/
def State.admitted (s : State) (r : Req) : State :=
  s.updSector (sectorOfCell r.cell) (fun t => { t.spend 32 with portQ := t.portQ.filter (fun x => x != r.id) })

/-- A request on its way from its port to its memory. -/
def State.sentTo (s : State) (r : Req) (pa : Nat) : State := (s.admitted r).awayTo r pa

section
variable (s : State) (r : Req) (pa : Nat)

@[simp] theorem State.sentTo_mem : (s.sentTo r pa).mem = s.mem := rfl

@[simp] theorem State.sentTo_cells : (s.sentTo r pa).cells = s.cells := rfl

theorem State.sentTo_reqReader (ord scope : Nat) : (s.sentTo r pa).reqReader r ord scope = s.reqReader r ord scope := by
  have hcell : (s.sentTo r pa).resultCell r.cell r.slot = s.resultCell r.cell r.slot := State.resultCell_congr (fun _ => rfl) rfl _ _
  rw [State.reqReader, hcell]
  rfl

theorem State.sentTo_readMem (x : Reader) (n : Nat) : (s.sentTo r pa).readMem x pa n = (s.sentTo r pa).eitherOf (s.memList pa n)
    (s.priorBytes x (.mem pa) s.hist ((List.range n).map (fun i => pa + i)) (s.memList pa n)) := rfl

end

/-- A translated request of present memory of this package that its port admits (R120, R127, R334). -/
structure State.AtMemory (s : State) (id : Nat) (r : Req) (pa : Nat) : Prop where
  found : s.req id = some r
  live : s.frozen = false
  runs : s.sectorRuns (sectorOfCell r.cell) = true
  stage : r.stage = .translated pa
  first : s.writeAhead r pa = false
  present : s.paPresent pa = true
  device : paIsHost pa = false
  here : paPackage pa = s.package
  turn : s.portTurn (sectorOfCell r.cell) r.id = true
  admits : s.admits (sectorOfCell r.cell) 32 = true

section
variable {s : State} {id pa : Nat} {r : Req} (h : s.AtMemory id r pa)
include h

theorem State.AtMemory.id_eq : r.id = id := State.req_id h.found

theorem State.AtMemory.exec_eq (hglobal : r.body.isGlobal = true) : exec (.hbmRequest id) s = .next ((s.admitted r).performGlobal r pa) := by
  have hport : s.atPort r pa = (s.admitted r).performGlobal r pa := by
    rw [State.atPort, h.first, h.present, h.device]
    simp only [h.here, h.turn, h.admits, Bool.and_self, Bool.false_eq_true, Bool.true_eq_false, ne_eq, not_true_eq_false, if_false, if_true]
    rfl
  have hexec : exec (.hbmRequest id) s = execHbmRequest id s := rfl
  rw [hexec, execHbmRequest, h.found]
  dsimp only
  rw [h.live, hglobal, h.stage]
  simp only [h.runs, hport, Bool.not_true, Bool.or_self, Bool.false_eq_true, if_false, if_true]

/-- What answers the request in a state with its queue replies. -/
theorem State.AtMemory.replied {t : State} (ht : t.reqs = (s.sentTo r pa).reqs) (v : Nat) : Replied (t.answer r.id v) id v := by
  have hsent : ∃ q, (s.sentTo r pa).req id = some q := by
    rw [State.sentTo, State.awayTo, h.id_eq]
    exact ⟨_, State.updReq_req (s := s.admitted r) (fun _ => rfl) h.found⟩
  obtain ⟨q, hq⟩ := hsent
  rw [h.id_eq]
  exact State.answer_replied ((State.req_congr ht id).trans hq) v

/-- A load finds what memory holds, or what it held before a write that it is not ordered after (R139, R230; which earlier value is log 7's choice). -/
theorem State.AtMemory.load_gives {sx : Bool} (hb : r.body = .load true sx) (hbad : s.memBad pa = false) :
    Gives (.hbmRequest id) s (fun t => t.mem = s.mem ∧ t.cells = s.cells ∧
      (let new := s.memList pa r.size
       let old := s.priorBytes (s.reqReader r 0 0) (.mem pa) s.hist ((List.range r.size).map (fun i => pa + i)) new
       Replied t id (loadValue (bytesNat new) r.size sx) ∨ Replied t id (loadValue (bytesNat old) r.size sx)) ∧
      ((∀ k, k < r.size → Map.find s.hist ((pa + k) / 8) = none) → Replied t id (loadValue (bytesNat (s.memList pa r.size)) r.size sx))) := by
  have hexec := h.exec_eq (by rw [hb]; rfl)
  rw [State.performGlobal_load (s := s.admitted r) hb hbad, ← State.sentTo, State.sentTo_reqReader] at hexec
  refine ⟨_, hexec, ?_, ?_, ?_, fun hnone => ?_⟩
  · rw [State.answer_mem, State.readMem_mem, State.sentTo_mem]
  · rw [State.answer_cells, State.readMem_cells, State.sentTo_cells]
  · intro new old
    have hreplied := h.replied ((s.sentTo r pa).readMem_reqs (s.reqReader r 0 0) pa r.size)
    obtain hnew | hold := (s.sentTo r pa).eitherOf_fst new old
    · exact .inl (by rw [State.sentTo_readMem, hnew]; exact hreplied _)
    · exact .inr (by rw [State.sentTo_readMem, hold]; exact hreplied _)
  · rw [State.readMem_of_no_hist (s := s.sentTo r pa) hnone]
    exact h.replied rfl _

/-- A store writes its bytes (R230). -/
theorem State.AtMemory.store_gives {v : BitVec 64} (hb : r.body = .store true v) :
    Gives (.hbmRequest id) s (fun t => Replied t id 0 ∧ t.cells = s.cells ∧ t.mem = (s.memWrite pa v.toNat r.size).mem) := by
  have hexec := h.exec_eq (by rw [hb]; rfl)
  rw [State.performGlobal_store (s := s.admitted r) hb, ← State.sentTo] at hexec
  refine ⟨_, hexec, h.replied (State.cellWrite_reqs _ _ _ _ _) 0, ?_, ?_⟩
  · rw [State.answer_cells, State.cellWrite_cells, State.sentTo_cells]
  · rw [State.answer_mem, State.cellWrite_mem]
    exact State.memWrite_mem_congr (s.sentTo_mem r pa) _ _ _

/-- An atomic gives the old word, and writes the new one (R233). -/
theorem State.AtMemory.atomic_gives {ty : Ty} {aop o sc : Nat} {v : Word} (hb : r.body = .atomic true ty aop o sc v) (haop : aop ≠ 7)
    (hbad : s.memBad pa = false) :
    Gives (.hbmRequest id) s (fun t => Replied t id (s.memRead pa 4) ∧ t.cells = s.cells ∧
      t.mem = (s.memWrite pa (atomicFn ty aop (BitVec.ofNat 32 (s.memRead pa 4)) v).toNat 4).mem) := by
  have hexec := h.exec_eq (by rw [hb]; rfl)
  obtain ⟨w, found, hperform⟩ := State.performGlobal_atomic (s := s.admitted r) hb haop hbad
  rw [hperform, ← State.sentTo, State.memRead_mem_congr (s.sentTo_mem r pa), State.memRead_word] at hexec
  refine ⟨_, hexec, h.replied ?_ _, ?_, ?_⟩
  · rw [State.cellWrite_reqs, State.acquireFrom_reqs]
  · rw [State.answer_cells, State.cellWrite_cells, State.acquireFrom_cells, State.sentTo_cells]
  · rw [State.answer_mem, State.cellWrite_mem]
    exact State.memWrite_mem_congr ((State.acquireFrom_mem _ _ _ _).trans (s.sentTo_mem r pa)) _ _ _

end

end Sys2Proof.Machine

namespace Sys2Proof
open Machine

/-- Settles O50: a request at its target cell by what its banks answer, one at the walker, and one at its port. -/
theorem requestsReachTheirMemory : Obligations.RequestsReachTheirMemory := by
  intro s id r
  refine ⟨?remote, fun pa u => pageWalk_gives, ?global⟩
  case remote =>
    intro hasked hloc hfirst hhere hdie hreached hshut hruns hresident granted answer
    have h : s.AtTarget id r := ⟨hasked, hloc, hfirst, hhere, hdie, hreached, hshut, hruns, hresident⟩
    exact ⟨fun sx hb hgrant hbad => h.load_gives hb hgrant hbad answer,
      fun v hb hgrant hroom htag => h.store_gives hb hgrant hroom htag answer,
      fun ty aop o sc v hb haop hgrant hroom htag hbad => h.atomic_gives hb haop hgrant hroom htag hbad answer,
      fun hremote hbody hrefuse => h.refused hremote hbody hrefuse answer⟩
  case global =>
    intro pa hfound hlive hruns hstage hfirst hpresent hdevice hhere hturn hadmits
    have h : s.AtMemory id r pa := ⟨hfound, hlive, hruns, hstage, hfirst, hpresent, hdevice, hhere, hturn, hadmits⟩
    exact ⟨fun sx hb hbad => h.load_gives hb hbad, fun v hb => h.store_gives hb, fun ty aop o sc v hb haop hbad => h.atomic_gives hb haop hbad⟩

end Sys2Proof
end

