-- ==== Sys2Proof/Proofs/RequestDeliveries.lean ====
section
/-! Answered requests leave the decoupling queue (R40, R123): the tokens that a list of values makes, and each destination of a result. -/

namespace Sys2Proof.Machine
open Sys2Proof

/-! Tokens sent one after another. -/

/-- What a reader of a token sees: its kind and payload. -/
def Token.shown (t : Token) : Kind × Word := (t.kind, t.payload)

theorem State.sendOut_cons (s : State) (i : Inst) (c by_ mark n : Nat) (deps : List Nat) (e : Kind × Word) (l : List (Kind × Word)) :
    s.sendOut i c by_ mark n deps (e :: l) = (s.sendOut i c by_ mark n deps [e]).sendOut i c by_ mark n deps l := rfl

/-- Tokens for the router enter the FIFO of port L in their order (R49). -/
theorem State.sendOut_inFifo (i : Inst) (c by_ mark : Nat) {n : Nat} (deps : List Nat) (h : n < 24) (l : List (Kind × Word)) (s : State) :
    (((s.sendOut i c by_ mark n deps l).cell c).inFifo 4 n).map Token.shown = ((s.cell c).inFifo 4 n).map Token.shown ++ l := by
  induction l generalizing s with
  | nil => exact (List.append_nil _).symm
  | cons e l ih =>
    rw [State.sendOut_cons, ih, State.sendOut_one_inFifo s i c by_ mark deps e.1 e.2 h, List.map_append, List.append_assoc]
    rfl

/-- A token for a loop-back channel is the last result in flight (R51). -/
theorem State.sendOut_one_appends (s : State) (i : Inst) (c by_ mark : Nat) {n : Nat} (deps : List Nat) (e : Kind × Word) (h : 24 ≤ n) :
    ∃ x : Flight, ((s.sendOut i c by_ mark n deps [e]).cell c).flight = (s.cell c).flight ++ [x] ∧ x.dst = .chan n ∧
      x.tok = some (mkToken (s.cell c).active.ver e.1 e.2 deps) := by
  rw [(s.sendOut_one_cell i c by_ mark n deps e.1 e.2 c).2, State.emitNow, if_neg (Nat.not_lt.mpr h), State.updCell_cell_same]
  exact ⟨_, rfl, rfl, rfl⟩

/-- Tokens for a loop-back channel are on their way to it in their order (R51). -/
theorem State.sendOut_flight (i : Inst) (c by_ mark : Nat) {n : Nat} (deps : List Nat) (h : 24 ≤ n) (l : List (Kind × Word)) (s : State) :
    ∃ fs, ((s.sendOut i c by_ mark n deps l).cell c).flight = (s.cell c).flight ++ fs ∧
      (fs.filterMap Flight.tok).map Token.shown = l ∧ ∀ x ∈ fs, x.dst = .chan n := by
  induction l generalizing s with
  | nil => exact ⟨[], (List.append_nil _).symm, rfl, by simp⟩
  | cons e l ih =>
    obtain ⟨x, hone, hx, htok⟩ := s.sendOut_one_appends i c by_ mark deps e h
    obtain ⟨fs, hrest, hshown, hfs⟩ := ih (s.sendOut i c by_ mark n deps [e])
    refine ⟨x :: fs, ?_, ?_, List.forall_mem_cons.mpr ⟨hx, hfs⟩⟩
    · rw [State.sendOut_cons, hrest, hone, List.append_assoc, List.singleton_append]
    · rw [List.filterMap_cons_some htok, List.map_cons, hshown]
      rfl

/-! Entries that leave. -/

theorem State.delReq_req (s : State) (id : Nat) : (s.delReq id).req id = none := by
  simp [State.delReq, State.req]

/-- A value of an entry is a result of its cell (R53, R185). -/
theorem State.landResult_flight (s : State) (r : Req) (d : ResDst) : ((s.landResult r d).cell r.cell).flight = (s.cell r.cell).flight ++
    [⟨s.cycle (sectorOfCell r.cell), r.slot, d, BitVec.ofNat 64 r.result.toNat, none, none, 0, [], 0⟩] := by
  rw [State.landResult, State.updCell_cell_same]
  rfl

/-- The store of a value at its handle's element. -/
def State.handleStore (s : State) (r : Req) (n : Nat) : ResDst :=
  .store r.dstOff ((s.cell r.cell).handle n).size ((s.cell r.cell).handle n).swz

/-- A state from which an entry has left, the activity of its patch noted. -/
def State.endReq (s : State) (id : Nat) (i : Inst) (now : Nat) : State := (s.delReq id).updInst i.id (fun y => { y with lastActive := now })

theorem State.endReq_req (s : State) (id : Nat) (i : Inst) (now : Nat) : (s.endReq id i now).req id = none := s.delReq_req id

/-- An entry whose value may be delivered: answered, its answer back, the first of its slot (R53, R123, R124). -/
structure State.AnswerBack (s : State) (id : Nat) (r : Req) (i : Inst) : Prop where
  found : s.req id = some r
  stage : r.stage = .answered
  runs : s.sectorRuns (sectorOfCell r.cell) = true
  inst : s.inst r.inst = some i
  resident : i.retired = false
  kept : r.retired = false
  first : s.resultBlocked r = false
  due : r.readyAt ≤ s.now
  back : s.meshBack r = true
  value : r.kind = .data ∨ r.kind = .last

section
variable {s : State} {id : Nat} {r : Req} {i : Inst} (h : s.AnswerBack id r i)
include h

/-- Where the value goes. -/
theorem State.AnswerBack.exec_eq : exec (.decoupledResultDelivery id) s = match r.dst with
    | .out n => if s.outRoom (s.resultCell r.cell r.slot) n.val r.tokens.length = true then
        .next (((if r.body.acquires then s.seeNow (s.resultCell r.cell r.slot) else s).sendOut i (s.resultCell r.cell r.slot) r.cell r.id n.val r.deps
          r.tokens).endReq id i s.dev) else .next s
    | .reg n => .next ((s.landResult r (.reg n.val)).endReq id i s.dev)
    | .handle n => .next ((s.landResult r (s.handleStore r n.val)).endReq id i s.dev)
    | .none => .next (s.endReq id i s.dev) := by
  have hvalue : (r.kind == .data || r.kind == .last) = true := by
    obtain hk | hk := h.value <;> rw [hk] <;> rfl
  have hsound : ¬r.kind = .poison := by
    obtain hk | hk := h.value <;> simp [hk]
  have hexec : exec (.decoupledResultDelivery id) s = execDecoupledResultDelivery id s := rfl
  rw [hexec, execDecoupledResultDelivery, h.found]
  dsimp only
  rw [if_neg (by simp [h.stage, h.runs]), h.inst]
  dsimp only
  rw [if_neg (by simp [h.resident, h.kept]), if_neg (by simp [h.first, h.due, h.back]), hvalue, if_neg hsound]
  rfl

theorem State.AnswerBack.reg_gives {n : Fin 16} (hdst : r.dst = .reg n) : Gives (.decoupledResultDelivery id) s (fun t =>
    t.req id = none ∧ t.mem = s.mem ∧ (t.cell r.cell).flight = (s.cell r.cell).flight ++
      [⟨s.cycle (sectorOfCell r.cell), r.slot, .reg n.val, BitVec.ofNat 64 r.result.toNat, none, none, 0, [], 0⟩]) :=
  ⟨(s.landResult r (.reg n.val)).endReq id i s.dev, by rw [h.exec_eq, hdst], State.endReq_req _ _ _ _, rfl, s.landResult_flight r _⟩

theorem State.AnswerBack.handle_gives {n : Fin 32} (hdst : r.dst = .handle n) : Gives (.decoupledResultDelivery id) s (fun t =>
    t.req id = none ∧ t.mem = s.mem ∧ (t.cell r.cell).flight = (s.cell r.cell).flight ++
      [⟨s.cycle (sectorOfCell r.cell), r.slot, s.handleStore r n.val, BitVec.ofNat 64 r.result.toNat, none, none, 0, [], 0⟩]) :=
  ⟨(s.landResult r (s.handleStore r n.val)).endReq id i s.dev, by rw [h.exec_eq, hdst], State.endReq_req _ _ _ _, rfl, s.landResult_flight r _⟩

theorem State.AnswerBack.none_gives (hdst : r.dst = .none) : Gives (.decoupledResultDelivery id) s (fun t =>
    t.req id = none ∧ t.cells = s.cells ∧ t.mem = s.mem) :=
  ⟨s.endReq id i s.dev, by rw [h.exec_eq, hdst], State.endReq_req _ _ _ _, rfl, rfl⟩

/-- Tokens leave by the slot's channel where it has room for them all. -/
theorem State.AnswerBack.out_gives {n : Fin 32} (hdst : r.dst = .out n)
    (hroom : s.outRoom (s.resultCell r.cell r.slot) n.val r.tokens.length = true) : Gives (.decoupledResultDelivery id) s (fun t =>
      t.req id = none ∧ t.mem = s.mem ∧
      (n.val < 24 → ((t.cell (s.resultCell r.cell r.slot)).inFifo 4 n.val).map Token.shown =
        ((s.cell (s.resultCell r.cell r.slot)).inFifo 4 n.val).map Token.shown ++ r.tokens) ∧
      (24 ≤ n.val → ∃ fs, (t.cell (s.resultCell r.cell r.slot)).flight = (s.cell (s.resultCell r.cell r.slot)).flight ++ fs ∧
        (fs.filterMap Flight.tok).map Token.shown = r.tokens ∧ ∀ x ∈ fs, x.dst = .chan n.val)) := by
  have hseen (k : Nat) : (if r.body.acquires then s.seeNow (s.resultCell r.cell r.slot) else s).cell k = s.cell k := by
    split
    · exact State.seeNow_cell _ _ _
    · rfl
  have hmem : (if r.body.acquires then s.seeNow (s.resultCell r.cell r.slot) else s).mem = s.mem := by
    split
    · exact State.seeNow_mem _ _
    · rfl
  refine ⟨_, by rw [h.exec_eq, hdst]; exact if_pos hroom, State.endReq_req _ _ _ _, (State.sendOut_mem _ _ _ _ _ _ _ _).trans hmem,
    fun hn => ?_, fun hn => ?_⟩
  · rw [← hseen]
    exact State.sendOut_inFifo i _ _ _ _ hn _ _
  · rw [← hseen]
    exact State.sendOut_flight i _ _ _ _ hn _ _

end

/-! Entries of a retired instance (R40). -/

section
variable {s : State} {id : Nat} {r : Req} {i : Inst} (hfound : s.req id = some r) (hstage : r.stage = .answered)
  (hruns : s.sectorRuns (sectorOfCell r.cell) = true) (hinst : s.inst r.inst = some i) (hretired : i.retired = true)
include hfound hstage hruns hinst hretired

theorem exec_delivery_retired : exec (.decoupledResultDelivery id) s = match r.dst with
    | .handle n => if s.resultBlocked r = true then .next s else
        .next ((if r.kind == .data || r.kind == .last then s.landResult r (s.handleStore r n.val) else s).delReq id)
    | _ => .next (s.delReq id) := by
  have hexec : exec (.decoupledResultDelivery id) s = execDecoupledResultDelivery id s := rfl
  rw [hexec, execDecoupledResultDelivery, hfound]
  dsimp only
  rw [if_neg (by simp [hstage, hruns]), hinst]
  dsimp only
  rw [if_pos (by simp [hretired])]
  rfl

/-- A token or register value is discarded. -/
theorem delivery_discarded (hdst : ∀ n, r.dst ≠ .handle n) : Gives (.decoupledResultDelivery id) s (fun t =>
    t.req id = none ∧ t.cells = s.cells ∧ t.mem = s.mem) := by
  refine ⟨s.delReq id, ?_, s.delReq_req id, rfl, rfl⟩
  rw [exec_delivery_retired hfound hstage hruns hinst hretired]
  split
  · rename_i n hn
    exact absurd hn (hdst n)
  · rfl

/-- A scratchpad write is made. -/
theorem delivery_stored {n : Fin 32} (hdst : r.dst = .handle n) (hfirst : s.resultBlocked r = false) (hkind : r.kind = .data) :
    Gives (.decoupledResultDelivery id) s (fun t => t.req id = none ∧ t.mem = s.mem ∧ (t.cell r.cell).flight = (s.cell r.cell).flight ++
      [⟨s.cycle (sectorOfCell r.cell), r.slot, s.handleStore r n.val, BitVec.ofNat 64 r.result.toNat, none, none, 0, [], 0⟩]) := by
  refine ⟨(s.landResult r (s.handleStore r n.val)).delReq id, ?_, State.delReq_req _ id, rfl, s.landResult_flight r _⟩
  rw [exec_delivery_retired hfound hstage hruns hinst hretired, hdst]
  dsimp only
  rw [if_neg (Bool.eq_false_iff.mp hfirst), hkind]
  rfl

end

end Sys2Proof.Machine
end

