-- ==== Sys2Proof/Proofs/RequestsAndInvalidations.lean ====
section
/-! Settles O51: deliveries, fences, responses that do not come (R406), and invalidations of translations (R122). -/

namespace Sys2Proof.Machine
open Sys2Proof

/-! Fences (R140). -/

theorem fenceComplete_gives {s : State} {id mask sc : Nat} {ws : List Nat} {ps : List (Nat × Nat)} {r : Req} (hfound : s.req id = some r)
    (hlive : s.frozen = false) (hb : r.body = .fence mask sc ws ps) (hstage : r.stage = .waiting) (hws : ∀ w ∈ ws, s.fenceWaits mask w = false)
    (hps : s.pairsDone ps = true) : Gives (.fenceComplete id) s (fun t =>
      Replied t id 0 ∧ t.cells = s.cells ∧ t.mem = s.mem ∧ t.fences = s.fences ++ [⟨id, mask, sc, r.cell, s.now⟩]) := by
  have hnone : ws.any (s.fenceWaits mask) = false := List.any_eq_false.mpr fun w hw => Bool.eq_false_iff.mp (hws w hw)
  have hexec : exec (.fenceComplete id) s = execFenceComplete id s := rfl
  refine ⟨({ s with fences := s.fences ++ [⟨id, mask, sc, r.cell, s.now⟩] } : State).answer id 0, ?_, ?_, rfl, rfl, rfl⟩
  · rw [hexec, execFenceComplete, hfound]
    dsimp only
    rw [hb]
    exact if_neg (by simp [hstage, hlive, hnone, hps])
  · exact State.answer_replied (q := r) hfound 0

/-! Faults of requests (R344, R380). -/

theorem State.recInst_detail0 (s : State) (r : FaultRec) (i : Inst) : (s.recInst r i).detail0 = r.detail0 := by
  unfold State.recInst
  split <;> rfl

/-- An instance under a new hold of its die. -/
def State.holdOpened (s : State) (i : Inst) (h : Hold) : State :=
  (({ s with draws := s.draws + 1 } : State).updDie i.die (fun t => { t with holds := t.holds ++ [h] })).updInst i.id
    (fun x => { x with hold := some h.hid })

theorem State.holdOpened_dieAt (s : State) (i : Inst) (h : Hold) :
    (s.holdOpened i h).dieAt i.die = { s.dieAt i.die with holds := (s.dieAt i.die).holds ++ [h] } := by
  rw [State.holdOpened, State.updInst_dieAt, State.updDie_dieAt_same]
  rfl

theorem State.holdOpened_hold (s : State) (i : Inst) (h : Hold) : ∀ j ∈ (s.holdOpened i h).insts, j.id = i.id → j.hold = some h.hid := by
  intro j hj hid
  obtain ⟨x, -, rfl⟩ := List.mem_map.mp hj
  dsimp only at hid ⊢
  split at hid
  · rename_i hx
    rw [if_pos hx]
  · rename_i hx
    exact absurd hid hx

/-- The fault of an instance that no hold keeps opens a hold of its own, under a record of the same fault (R344, R346). -/
theorem State.takeFault_opens (s : State) {i : Inst} (kind : HoldKind) (r : FaultRec) (sites : List (Nat × Nat)) (hhold : i.hold = none) :
    ∃ (h : Hold) (q : FaultRec), s.takeFault i kind r sites = (s.holdOpened i h).pushRec q ∧ h.recs = [q] ∧ h.code = r.code ∧
      h.inst = some i.id ∧ h.detail0 = r.detail0 ∧ q.die = r.die ∧ q.code = r.code ∧ q.detail0 = r.detail0 ∧ q.job = r.job := by
  obtain ⟨hdie, hcode, hjob⟩ := s.recInst_keeps r i
  have hd0 := s.recInst_detail0 r i
  unfold State.takeFault
  rw [hhold]
  exact ⟨_, _, rfl, rfl, hcode, rfl, hd0, hdie, hcode, hd0, hjob⟩

/-- A fault of an instance that no hold keeps holds it (R344). -/
theorem State.takeFault_heldFor (s : State) {i : Inst} (kind : HoldKind) {r : FaultRec} (sites : List (Nat × Nat)) (hhold : i.hold = none)
    (hdie : r.die = i.die) (hjob : r.job = some i.job) : HeldFor s (s.takeFault i kind r sites) i r.code r.detail0 := by
  obtain ⟨h, q, heq, hrecs, hcode, hinst, hd0, hqdie, hqcode, hqd0, hqjob⟩ := s.takeFault_opens kind r sites hhold
  have hrec := (s.holdOpened i h).oneRecord_pushRec q
  rw [hqdie, hqcode, hqd0, hqjob, hdie, hjob, OneRecord, State.holdOpened_dieAt] at hrec
  rw [heq]
  refine ⟨⟨h, ?_, ⟨q, by rw [hrecs]; exact List.mem_singleton_self q, hqcode, hqd0, hqjob.trans hjob⟩, fun _ =>
    ⟨hcode, hinst, hd0, s.holdOpened_hold i h⟩⟩, hrec⟩
  rw [State.pushRec, hqdie, hdie, State.updDie_dieAt_same, State.holdOpened_dieAt]
  exact List.mem_append_right _ (List.mem_singleton_self h)

@[simp] theorem State.takeFault_cells (s : State) (i : Inst) (kind : HoldKind) (r : FaultRec) (sites : List (Nat × Nat)) :
    (s.takeFault i kind r sites).cells = s.cells := by
  unfold State.takeFault
  extract_lets d r1
  split <;> rfl

/-- The record of a request's fault, with the operator word of its slot (R380). -/
theorem State.faultReq_heldFor {s : State} {r : Req} {i : Inst} (hinst : s.inst r.inst = some i) (hresident : i.retired = false)
    (hkept : r.retired = false) (hhold : i.hold = none) (hdie : i.die = dieOfCell r.cell) (code cont srck d0 d1 : Nat) :
    HeldFor s (s.faultReq r code cont srck d0 d1) i code (BitVec.ofNat 64 d0) ∧ (s.faultReq r code cont srck d0 d1).cells = s.cells := by
  rw [State.faultReq, State.faultReqAt, hinst]
  dsimp only
  rw [if_neg (by simp [hresident, hkept])]
  exact ⟨s.takeFault_heldFor .request [(r.cell, r.slot)] hhold hdie.symm rfl, State.takeFault_cells _ _ _ _ _⟩

/-! Responses that do not come (R405, R406). -/

/-- A request for another package that none has answered within 10 ms, time in RETRAIN apart. -/
structure State.Unanswered (s : State) (id : Nat) (r : Req) (pkg : Nat) : Prop where
  found : s.req id = some r
  live : s.frozen = false
  foreign : s.foreign r = some pkg
  stage : r.stage = .issued
  late : r.sentAt + spanned r.sentAt s.dev (s.retrainsOf ((Map.get 0 s.oroute pkg).toNat % 16)) + 10000 * usUnits ≤ s.dev

section
variable {s : State} {id pkg : Nat} {r : Req} (h : s.Unanswered id r pkg)
include h

theorem State.Unanswered.exec_eq : exec (.responseTimeout id) s = match r.body with
    | .tlnch _ _ => .next (s.answerLaunch r (2, 0))
    | .send _ _ _ => .next (s.sendFail r 0x0904 (pkg + (Map.get 0 s.oroute pkg).toNat % 16 * 256))
    | .load _ _ => .next (s.faultReq r 0x0904 0 0 (pkg + (Map.get 0 s.oroute pkg).toNat % 16 * 256) 0)
    | _ => .next (s.faultReq r 0x0904 1 0 (pkg + (Map.get 0 s.oroute pkg).toNat % 16 * 256) 0) := by
  have hexec : exec (.responseTimeout id) s = execResponseTimeout id s := rfl
  rw [hexec, execResponseTimeout, h.found]
  dsimp only
  rw [h.foreign]
  dsimp only
  rw [if_neg (by simpa [h.live] using h.late)]
  simp only [h.stage] <;> rfl

/-- A launch is answered DENIED. -/
theorem State.Unanswered.launch_gives {w : Nat} {p : BitVec 512} (hb : r.body = .tlnch w p) (hcell : r.pilot = none) :
    Gives (.responseTimeout id) s (fun t => Replied t id (2 * 2 ^ 30)) := by
  refine ⟨s.answer r.id (tlnchPayload (2, 0)), ?_, ?_⟩
  · rw [h.exec_eq, hb]
    dsimp only
    rw [State.answerLaunch, hcell]
  · rw [State.req_id h.found]
    exact State.answer_replied h.found _

/-- A load becomes a fault of its instance. -/
theorem State.Unanswered.load_gives {glb sx : Bool} {i : Inst} (hb : r.body = .load glb sx) (hinst : s.inst r.inst = some i)
    (hresident : i.retired = false) (hkept : r.retired = false) (hhold : i.hold = none) (hdie : i.die = dieOfCell r.cell) :
    Gives (.responseTimeout id) s (fun t =>
      HeldFor s t i 0x0904 (BitVec.ofNat 64 (pkg + (Map.get 0 s.oroute pkg).toNat % 16 * 256)) ∧ t.cells = s.cells ∧ t.mem = s.mem) := by
  obtain ⟨hheld, hcells⟩ := State.faultReq_heldFor hinst hresident hkept hhold hdie 0x0904 0 0
    (pkg + (Map.get 0 s.oroute pkg).toNat % 16 * 256) 0
  exact ⟨_, by rw [h.exec_eq, hb], hheld, hcells, State.faultReq_mem _ _ _ _ _ _ _⟩

end

/-! Invalidation (R122). -/

/-- Reading what an update of every listed value leaves, where it leaves the default. -/
theorem Map.get_map_values {α : Type} {d : α} {f : α → α} (hd : f d = d) (m : Map α) (k : Nat) :
    Map.get d (m.map (fun e => (e.1, f e.2))) k = f (Map.get d m k) := by
  induction m with
  | nil => exact hd.symm
  | cons e m ih =>
    simp only [List.map_cons, Map.get]
    split
    · rfl
    · exact ih

/-- An invalidation names an entry of an address space: all, or those that cover a granule. -/
def xlinvNames (asid : Nat) (granule : Option Nat) (entryAsid va size : Nat) : Bool :=
  entryAsid == asid && (match granule with | none => true | some g => va == g * 65536 / 2 ^ size)

theorem State.invalidate_tlb (s : State) (asid : Nat) (granule : Option Nat) (k : Nat) :
    ((s.invalidate asid granule).sector k).tlb = (s.sector k).tlb.filter (fun t => !xlinvNames asid granule t.asid t.va t.logSize) :=
  congrArg Sector.tlb (Map.get_map_values (f := fun x : Sector =>
    { x with tlb := x.tlb.filter (fun t => !xlinvNames asid granule t.asid t.va t.logSize) }) rfl s.sectors k)

theorem State.invalidate_walker (s : State) (asid : Nat) (granule : Option Nat) (d : Nat) :
    ((s.invalidate asid granule).dieAt d).walker =
      (s.dieAt d).walker.filter (fun e => !xlinvNames asid granule e.asid e.va (levelShift e.level)) :=
  congrArg Die.walker (Map.get_map_values (f := fun x : Die =>
    { x with walker := x.walker.filter (fun e => !xlinvNames asid granule e.asid e.va (levelShift e.level)) }) rfl s.die d)

/-- A write of XLINV leaves no entry that it names in any cache of the package, and BUSY reads 1. -/
theorem State.writeXlinv_shows (s : State) (d asid : Nat) (granule : Option Nat) :
    ((s.writeXlinv d asid granule).dieAt d).xlBusy = true ∧
    (∀ k, ∀ e ∈ ((s.writeXlinv d asid granule).sector k).tlb, xlinvNames asid granule e.asid e.va e.logSize = false) ∧
    ∀ x, ∀ e ∈ ((s.writeXlinv d asid granule).dieAt x).walker, xlinvNames asid granule e.asid e.va (levelShift e.level) = false := by
  refine ⟨by rw [State.writeXlinv, State.updDie_dieAt_same], fun k e he => ?_, fun x e he => ?_⟩
  · rw [State.writeXlinv, State.updDie_sector, State.invalidate_tlb] at he
    simpa using List.of_mem_filter he
  · have hwalker : ((s.writeXlinv d asid granule).dieAt x).walker = ((s.invalidate asid granule).dieAt x).walker := by
      rw [State.writeXlinv]
      obtain rfl | hne := eq_or_ne x d
      · rw [State.updDie_dieAt_same]
      · rw [State.updDie_dieAt_other _ _ _ _ hne]
    rw [hwalker, State.invalidate_walker] at he
    simpa using List.of_mem_filter he

/-- The host's write of XLINV is performed where its die is there and nothing is frozen (R342). -/
theorem State.hostXlinv_live {s : State} (hdie : s.dieExists s.input.die = true) (hlive : s.frozen = false) (i : Instr) (asid : Nat)
    (granule : Option Nat) : s.hostXlinv i asid granule = .next (s.writeXlinv s.input.die asid granule) := by
  rw [State.hostXlinv, hdie, hlive]
  rfl

theorem xlinvAll_gives {s : State} (hdie : s.dieExists s.input.die = true) (hlive : s.frozen = false) :
    Gives .xlinvAll s (fun t => (t.dieAt s.input.die).xlBusy = true ∧ t.mem = s.mem ∧ t.cells = s.cells ∧
      (∀ k, ∀ e ∈ (t.sector k).tlb, e.asid ≠ bitsN s.input.value.toNat 63 48) ∧
      ∀ d, ∀ e ∈ (t.dieAt d).walker, e.asid ≠ bitsN s.input.value.toNat 63 48) := by
  obtain ⟨hbusy, htlb, hwalker⟩ := s.writeXlinv_shows s.input.die (bitsN s.input.value.toNat 63 48) none
  exact ⟨_, State.hostXlinv_live hdie hlive .xlinvAll _ none, hbusy, rfl, rfl, fun k e he => by simpa [xlinvNames] using htlb k e he,
    fun d e he => by simpa [xlinvNames] using hwalker d e he⟩

theorem xlinvGranule_gives {s : State} (hdie : s.dieExists s.input.die = true) (hlive : s.frozen = false) :
    Gives .xlinvGranule s (fun t => (t.dieAt s.input.die).xlBusy = true ∧ t.mem = s.mem ∧ t.cells = s.cells ∧
      (∀ k, ∀ e ∈ (t.sector k).tlb, ¬(e.asid = bitsN s.input.value.toNat 63 48 ∧
        e.va = bitsN s.input.value.toNat 40 0 * 65536 / 2 ^ e.logSize)) ∧
      ∀ d, ∀ e ∈ (t.dieAt d).walker, ¬(e.asid = bitsN s.input.value.toNat 63 48 ∧
        e.va = bitsN s.input.value.toNat 40 0 * 65536 / 2 ^ levelShift e.level)) := by
  obtain ⟨hbusy, htlb, hwalker⟩ := s.writeXlinv_shows s.input.die (bitsN s.input.value.toNat 63 48) (some (bitsN s.input.value.toNat 40 0))
  exact ⟨_, State.hostXlinv_live hdie hlive .xlinvGranule _ (some _), hbusy, rfl, rfl, fun k e he => by simpa [xlinvNames] using htlb k e he,
    fun d e he => by simpa [xlinvNames] using hwalker d e he⟩

theorem invalidationComplete_gives {s : State} {d : Nat} (hbusy : (s.dieAt d).xlBusy = true) (hlive : s.frozen = false)
    (hdone : ∀ p ∈ (s.dieAt d).xlPending, s.usesEntry p = false) :
    Gives (.invalidationComplete d) s (fun t => (t.dieAt d).xlBusy = false ∧ (t.dieAt d).xlPending = [] ∧ t.mem = s.mem) := by
  have hnone : (s.dieAt d).xlPending.any s.usesEntry = false := List.any_eq_false.mpr fun p hp => Bool.eq_false_iff.mp (hdone p hp)
  have hexec : exec (.invalidationComplete d) s = execInvalidationComplete d s := rfl
  refine ⟨s.updDie d (fun x => { x with xlBusy := false, xlPending := [] }), ?_, ?_, ?_, rfl⟩
  · rw [hexec, execInvalidationComplete]
    exact if_neg (by simp [hbusy, hlive, hnone])
  · rw [State.updDie_dieAt_same]
  · rw [State.updDie_dieAt_same]

end Sys2Proof.Machine

namespace Sys2Proof
open Machine

/-- Settles O51: a request by its stage and, answered, by its destination; then the invalidations. -/
theorem requestsAndInvalidationsEnd : Obligations.RequestsAndInvalidationsEnd := by
  refine ⟨fun s id r hfound hlive => ⟨?delivered, ?retired, ?fence, ?timeout⟩,
    fun s => ⟨fun hdie hlive => ⟨xlinvAll_gives hdie hlive, xlinvGranule_gives hdie hlive⟩, fun d => invalidationComplete_gives⟩⟩
  case delivered =>
    intro i hstage hruns hinst hresident hkept hfirst hdue hback hvalue
    have h : s.AnswerBack id r i := ⟨hfound, hstage, hruns, hinst, hresident, hkept, hfirst, hdue, hback, hvalue⟩
    exact ⟨fun n => h.reg_gives, fun n => h.handle_gives, h.none_gives, fun n => h.out_gives⟩
  case retired =>
    intro i hstage hruns hinst hretired
    exact ⟨delivery_discarded hfound hstage hruns hinst hretired, fun n => delivery_stored hfound hstage hruns hinst hretired⟩
  case fence =>
    exact fun mask sc ws ps => fenceComplete_gives hfound hlive
  case timeout =>
    intro pkg hforeign hstage hlate
    have h : s.Unanswered id r pkg := ⟨hfound, hlive, hforeign, hstage, hlate⟩
    exact ⟨fun w p => h.launch_gives, fun sx i => h.load_gives⟩

end Sys2Proof
end

