-- ==== Sys2Proof/Proofs/StalledDoorbell.lean ====
section
/-! A doorbell that comes while the Timetable stalls (R149, R350). -/

namespace Sys2Proof.Machine
open Sys2Proof

/-- While the Timetable stalls, the doorbell of a queue waits (R350). -/
theorem State.serveQueue_stalled {s : State} {d : Nat} (h : s.ttStalls d = true) (q : Nat) : q ∈ ((s.serveQueue d q).dieAt d).doorbell := by
  rw [State.serveQueue, if_pos h, State.updDie_dieAt_same]
  dsimp only
  split
  · rename_i hq
    exact List.contains_iff_mem.mp hq
  · exact List.mem_append_right _ (List.mem_singleton_self q)

/-- Queue 0 of die 0 has been stopped (R399), the record of it still waits, and the queue's doorbell is written. -/
def stoppedQueueRung : State := { State.reset.stopQueue 0 0 0 with input := { Input.none with size := 8 } }

/-- The queue is off, and the Timetable stalls with no doorbell waiting. -/
theorem stoppedQueueRung_shows : stoppedQueueRung.frozen = false ∧ qEn (stoppedQueueRung.queueEntry 0 0) = false ∧
    stoppedQueueRung.ttStalls 0 = true ∧ (stoppedQueueRung.dieAt 0).doorbell = [] := by decide

end Sys2Proof.Machine

namespace Sys2Proof
open Machine

/-- Refutes O56: a doorbell of a queue that is off does not leave the state as it is while the Timetable stalls, since the doorbell then waits
(R350). -/
theorem not_launchEventsComplete : ¬ Obligations.LaunchEventsComplete := by
  intro h
  obtain ⟨hlive, hoff, hstalls, hnone⟩ := stoppedQueueRung_shows
  obtain ⟨hdoorbell, -⟩ := h stoppedQueueRung hlive
  obtain ⟨t, -, hserved, hkept, -⟩ := hdoorbell rfl rfl rfl
  have hwaits : 0 ∈ (t.dieAt 0).doorbell := by
    rw [hserved]
    exact State.serveQueue_stalled hstalls 0
  rw [hkept hoff, hnone] at hwaits
  exact List.not_mem_nil hwaits

end Sys2Proof
end

