-- ==== Sys2Proof/Proofs/TimetableLists.lean ====
section
/-! What the Timetable's own operations leave as it is: its lists, translations made ahead, and the records of holds. -/

namespace Sys2Proof.Machine
open Sys2Proof

/-- A fold of updates that each stand in a relation to what they find stands in it to what the fold began with. -/
theorem foldl_rel {α β : Type} {r : α → α → Prop} (hrefl : ∀ a, r a a) (htrans : ∀ {a b c}, r a b → r b c → r a c) {f : α → β → α}
    (hf : ∀ a b, r a (f a b)) (l : List β) (a : α) : r a (l.foldl f a) :=
  List.foldlRecOn l f (motive := fun b => r a b) (hrefl a) fun _ ha _ _ => htrans ha (hf _ _)

/-- What an update makes of an instance holds of every instance with its id. -/
theorem State.updInst_holds (s : State) (id : Nat) {f : Inst → Inst} {P : Inst → Prop} (hf : ∀ x, P (f x)) :
    ∀ j ∈ (s.updInst id f).insts, j.id = id → P j := by
  intro j hj hjid
  obtain ⟨x, -, rfl⟩ := List.mem_map.mp hj
  split at hjid <;> rename_i hx
  · rw [if_pos hx]
    exact hf x
  · exact absurd hjid hx

/-! Lists of the Timetable. -/

/-- A state is as another but for the Timetable's lists: pools, reservations, frames and the jobs' spill lists. -/
structure State.Tidied (s t : State) : Prop where
  rest : ∃ die jobs, t = { s with die := die, jobs := jobs }
  dieAt : ∀ k, ∃ pool reserved frames, t.dieAt k = { s.dieAt k with pool := pool, reserved := reserved, frames := frames }

namespace State.Tidied
variable {s t u : State}

theorem refl (s : State) : s.Tidied s := ⟨⟨_, _, rfl⟩, fun _ => ⟨_, _, _, rfl⟩⟩

theorem trans (h : s.Tidied t) (h' : t.Tidied u) : s.Tidied u := by
  refine ⟨?_, fun k => ?_⟩
  · obtain ⟨_, _, rfl⟩ := h.rest
    obtain ⟨_, _, rfl⟩ := h'.rest
    exact ⟨_, _, rfl⟩
  · obtain ⟨_, _, _, hst⟩ := h.dieAt k
    obtain ⟨_, _, _, htu⟩ := h'.dieAt k
    exact ⟨_, _, _, htu.trans (by rw [hst])⟩

theorem updDie (s : State) (d : Nat) {f : Die → Die}
    (hf : ∀ x, ∃ pool reserved frames, f x = { x with pool := pool, reserved := reserved, frames := frames }) : s.Tidied (s.updDie d f) := by
  refine ⟨⟨_, _, rfl⟩, fun k => ?_⟩
  obtain rfl | hne := eq_or_ne k d
  · rw [State.updDie_dieAt_same]
    exact hf _
  · rw [State.updDie_dieAt_other _ _ _ _ hne]
    exact ⟨_, _, _, rfl⟩

theorem updJob (s : State) (key : Nat) (f : Job → Job) : s.Tidied (s.updJob key f) := ⟨⟨_, _, rfl⟩, fun _ => ⟨_, _, _, rfl⟩⟩

variable (h : s.Tidied t)
include h

theorem insts : t.insts = s.insts := by obtain ⟨_, _, rfl⟩ := h.rest; rfl
theorem cells : t.cells = s.cells := by obtain ⟨_, _, rfl⟩ := h.rest; rfl
theorem cell (c : Nat) : t.cell c = s.cell c := by rw [State.cell, h.cells]; rfl
theorem mem : t.mem = s.mem := by obtain ⟨_, _, rfl⟩ := h.rest; rfl
theorem dev : t.dev = s.dev := by obtain ⟨_, _, rfl⟩ := h.rest; rfl
theorem cmds : t.cmds = s.cmds := by obtain ⟨_, _, rfl⟩ := h.rest; rfl
theorem sector (k : Nat) : t.sector k = s.sector k := by obtain ⟨_, _, rfl⟩ := h.rest; rfl
theorem sectorRuns (k : Nat) : t.sectorRuns k = s.sectorRuns k := by obtain ⟨_, _, rfl⟩ := h.rest; rfl
theorem memRead (pa n : Nat) : t.memRead pa n = s.memRead pa n := State.memRead_mem_congr h.mem pa n
theorem records (k : Nat) : (t.dieAt k).records = (s.dieAt k).records := by obtain ⟨_, _, _, h⟩ := h.dieAt k; rw [h]
theorem ctxPa (k idx : Nat) : (t.dieAt k).ctxPa idx = (s.dieAt k).ctxPa idx := by obtain ⟨_, _, _, h⟩ := h.dieAt k; rw [h]; rfl

end State.Tidied

theorem State.tidyFrames_tidied (s : State) (d : Nat) : s.Tidied (s.tidyFrames d) := by
  unfold State.tidyFrames
  split
  · exact .refl s
  · exact .updDie s d fun _ => ⟨_, _, _, rfl⟩

theorem State.tidyReserved_tidied (s : State) (d : Nat) : s.Tidied (s.tidyReserved d) := by
  unfold State.tidyReserved
  extract_lets keep
  split
  · exact .refl s
  · exact .updDie s d fun _ => ⟨_, _, _, rfl⟩

theorem State.unspill_tidied (s : State) (job n : Nat) : s.Tidied (s.unspill job n) := by
  induction n generalizing s with
  | zero => exact .refl s
  | succ n ih =>
    unfold State.unspill
    split
    · exact .refl s
    · split
      · exact .refl s
      · split
        · exact .refl s
        · exact .trans (.updDie s _ fun _ => ⟨_, _, _, rfl⟩) (.trans (.updJob _ job _) (ih _))

theorem State.refill_tidied (s : State) (d : Nat) : s.Tidied (s.refill d) :=
  foldl_rel (r := State.Tidied) .refl .trans (fun _ _ => State.unspill_tidied _ _ _) _ s

/-- With nothing spilled a refill does nothing (R157). -/
theorem State.refill_of_no_spill {s : State} (h : ∀ x ∈ s.jobs, x.spill = []) (d : Nat) : s.refill d = s := by
  have hnone : s.jobs.filter (fun j => j.die == d && !j.spill.isEmpty) = [] :=
    List.filter_eq_nil_iff.mpr fun x hx => by simp [h x hx]
  rw [State.refill, hnone, List.foldl_nil]

theorem State.findAnchors_tidied (s : State) (d : Nat) : s.Tidied (s.findAnchors d) := by
  unfold State.findAnchors
  split
  · exact .refl s
  · exact .updDie s d fun _ => ⟨_, _, _, rfl⟩

/-- The Timetable's lists of a die put in order, as each placement step begins. -/
def State.tidied (s : State) (d : Nat) : State := ((s.tidyFrames d).tidyReserved d).refill d

theorem State.tidied_tidied (s : State) (d : Nat) : s.Tidied (s.tidied d) :=
  .trans (s.tidyFrames_tidied d) (.trans (State.tidyReserved_tidied _ d) (State.refill_tidied _ d))

/-! Translations made ahead (R121, R156). -/

/-- A state is as another but for its translation and walker caches. -/
structure State.CachesFilled (s t : State) : Prop where
  rest : ∃ draws sectors die, t = { s with draws := draws, sectors := sectors, die := die }
  sector : ∀ k, ∃ tlb, t.sector k = { s.sector k with tlb := tlb }
  dieAt : ∀ k, ∃ walker, t.dieAt k = { s.dieAt k with walker := walker }

namespace State.CachesFilled
variable {s t u : State}

theorem refl (s : State) : s.CachesFilled s := ⟨⟨_, _, _, rfl⟩, fun _ => ⟨_, rfl⟩, fun _ => ⟨_, rfl⟩⟩

theorem trans (h : s.CachesFilled t) (h' : t.CachesFilled u) : s.CachesFilled u := by
  refine ⟨?_, fun k => ?_, fun k => ?_⟩
  · obtain ⟨_, _, _, rfl⟩ := h.rest
    obtain ⟨_, _, _, rfl⟩ := h'.rest
    exact ⟨_, _, _, rfl⟩
  · obtain ⟨_, hst⟩ := h.sector k
    obtain ⟨_, htu⟩ := h'.sector k
    exact ⟨_, htu.trans (by rw [hst])⟩
  · obtain ⟨_, hst⟩ := h.dieAt k
    obtain ⟨_, htu⟩ := h'.dieAt k
    exact ⟨_, htu.trans (by rw [hst])⟩

variable (h : s.CachesFilled t)
include h

theorem insts : t.insts = s.insts := by obtain ⟨_, _, _, rfl⟩ := h.rest; rfl
theorem jobs : t.jobs = s.jobs := by obtain ⟨_, _, _, rfl⟩ := h.rest; rfl
theorem cmds : t.cmds = s.cmds := by obtain ⟨_, _, _, rfl⟩ := h.rest; rfl
theorem cell (c : Nat) : t.cell c = s.cell c := by obtain ⟨_, _, _, rfl⟩ := h.rest; rfl
theorem pool (k : Nat) : (t.dieAt k).pool = (s.dieAt k).pool := by obtain ⟨_, h⟩ := h.dieAt k; rw [h]
theorem gve (k : Nat) : (t.sector k).gve = (s.sector k).gve := by obtain ⟨_, h⟩ := h.sector k; rw [h]
theorem slateAllot (k : Nat) : (t.sector k).slateAllot = (s.sector k).slateAllot := by obtain ⟨_, h⟩ := h.sector k; rw [h]

end State.CachesFilled

theorem State.fill_cachesFilled (s : State) (k asid va : Nat) (wk : Walk) : s.CachesFilled (s.fill k asid va wk) := by
  unfold State.fill
  split
  · exact .refl s
  · refine ⟨⟨_, _, _, rfl⟩, fun n => ?_, fun n => ?_⟩
    · rw [State.updDie_sector]
      obtain rfl | hne := eq_or_ne n k
      · rw [State.updSector_sector_same]
        exact ⟨_, rfl⟩
      · rw [State.updSector_sector_other _ _ _ _ hne]
        exact ⟨_, rfl⟩
    · obtain rfl | hne := eq_or_ne n (dieOfSector k)
      · rw [State.updDie_dieAt_same]
        exact ⟨_, rfl⟩
      · rw [State.updDie_dieAt_other _ _ _ _ hne]
        exact ⟨_, rfl⟩

theorem State.translate_cachesFilled (s : State) (k asid root va : Nat) (a : Access) : s.CachesFilled (s.translate k asid root va a).2 := by
  unfold State.translate
  split
  · exact .refl s
  · exact .refl s
  · split
    · exact .refl s
    · dsimp only
      split
      · exact .refl s
      · dsimp only
        exact State.fill_cachesFilled _ _ _ _ _

theorem State.preloadOperands_cachesFilled (s : State) (k : Nat) (j : Job) (n : BitVec 512) : s.CachesFilled (s.preloadOperands k j n) :=
  foldl_rel (r := State.CachesFilled) .refl .trans (fun _ _ =>
    foldl_rel (r := State.CachesFilled) .refl .trans (fun _ _ => State.translate_cachesFilled _ _ _ _ _ _) _ _) _ s

/-! Records and holds. -/

/-- A state is as another but for the dies' records and holds. -/
structure State.Recorded (s t : State) : Prop where
  rest : ∃ die, t = { s with die := die }
  dieAt : ∀ k, ∃ records holds, t.dieAt k = { s.dieAt k with records := records, holds := holds }

namespace State.Recorded
variable {s t u : State}

theorem refl (s : State) : s.Recorded s := ⟨⟨_, rfl⟩, fun _ => ⟨_, _, rfl⟩⟩

theorem trans (h : s.Recorded t) (h' : t.Recorded u) : s.Recorded u := by
  refine ⟨?_, fun k => ?_⟩
  · obtain ⟨_, rfl⟩ := h.rest
    obtain ⟨_, rfl⟩ := h'.rest
    exact ⟨_, rfl⟩
  · obtain ⟨_, _, hst⟩ := h.dieAt k
    obtain ⟨_, _, htu⟩ := h'.dieAt k
    exact ⟨_, _, htu.trans (by rw [hst])⟩

theorem updDie (s : State) (d : Nat) {f : Die → Die} (hf : ∀ x, ∃ records holds, f x = { x with records := records, holds := holds }) :
    s.Recorded (s.updDie d f) := by
  refine ⟨⟨_, rfl⟩, fun k => ?_⟩
  obtain rfl | hne := eq_or_ne k d
  · rw [State.updDie_dieAt_same]
    exact hf _
  · rw [State.updDie_dieAt_other _ _ _ _ hne]
    exact ⟨_, _, rfl⟩

variable (h : s.Recorded t)
include h

theorem insts : t.insts = s.insts := by obtain ⟨_, rfl⟩ := h.rest; rfl
theorem jobs : t.jobs = s.jobs := by obtain ⟨_, rfl⟩ := h.rest; rfl
theorem mem : t.mem = s.mem := by obtain ⟨_, rfl⟩ := h.rest; rfl
theorem frames (k : Nat) : (t.dieAt k).frames = (s.dieAt k).frames := by obtain ⟨_, _, h⟩ := h.dieAt k; rw [h]
theorem pool (k : Nat) : (t.dieAt k).pool = (s.dieAt k).pool := by obtain ⟨_, _, h⟩ := h.dieAt k; rw [h]

end State.Recorded

theorem State.pushRec_recorded (s : State) (r : FaultRec) : s.Recorded (s.pushRec r) := .updDie s _ fun _ => ⟨_, _, rfl⟩

theorem State.delHold_recorded (s : State) (d hid : Nat) : s.Recorded (s.delHold d hid) := .updDie s _ fun _ => ⟨_, _, rfl⟩

theorem State.saveRecord_recorded (s : State) (i : Inst) (idx : Nat) (v : Save) (k : Nat) : s.Recorded (s.saveRecord i idx v k) := by
  unfold State.saveRecord
  extract_lets place made
  have hmade (hold met code srck cell slot cur) : s.Recorded (made s hold met code srck cell slot cur) := by
    dsimp only [made]
    split
    · exact State.pushRec_recorded _ _
    · exact (State.delHold_recorded _ _ _).trans (State.pushRec_recorded _ _)
    · exact .refl s
  split
  · exact hmade _ _ _ _ _ _ _
  · exact hmade _ _ _ _ _ _ _
  · exact .refl s

end Sys2Proof.Machine
end

