-- ==== Sys2Proof/Proofs/PlacementActs.lean ====
section
/-! The placement step: which of its acts is due (R160), and the placing of GRAMMAR, COPY and PILOT records (R161). -/

namespace Sys2Proof.Machine
open Sys2Proof

/-! The act that is due. -/

/-- The Timetable of a die takes a placement step, and no doorbell waits. -/
structure State.Places (s : State) (d : Nat) : Prop where
  live : s.frozen = false
  die : s.dieExists d = true
  sending : s.ttStalls d = false
  doorbell : (s.dieAt d).doorbell = []

namespace State.Places
variable {s : State} {d : Nat} (h : s.Places d)
include h

theorem exec_eq : exec (.placementStep d) s = match (s.tidied d).restoreReady d with
    | some (i, f) => .next ((s.tidied d).continueRestore i f)
    | none =>
      match ((s.tidied d).loadDue d).or (((s.tidied d).preloadsDue d).findSome? (s.tidied d).preload) with
      | some s1 => .next s1
      | none =>
        match (s.tidied d).evacPoint d with
        | some g => .next ((s.tidied d).preemptPoint g)
        | none => .next (((s.tidied d).findAnchors d).consider (((s.tidied d).findAnchors d).candidates d)) := by
  have hexec : exec (.placementStep d) s = execPlacementStep d s := rfl
  rw [hexec, execPlacementStep, if_neg (by simp [h.live, h.die, h.sending]), h.doorbell]
  rfl

theorem restores {i : Inst} {f : Frame} (hready : (s.tidied d).restoreReady d = some (i, f)) :
    exec (.placementStep d) s = .next ((s.tidied d).continueRestore i f) := by
  rw [h.exec_eq, hready]

theorem loads {t : State} (hready : (s.tidied d).restoreReady d = none) (hload : (s.tidied d).loadDue d = some t) :
    exec (.placementStep d) s = .next t := by
  rw [h.exec_eq, hready, hload]
  rfl

/-- With nothing resident the ready pool is considered. -/
theorem considers (hnone : s.insts = []) :
    exec (.placementStep d) s = .next (((s.tidied d).findAnchors d).consider (((s.tidied d).findAnchors d).candidates d)) := by
  have hinsts : (s.tidied d).insts = [] := (s.tidied_tidied d).insts.trans hnone
  have hready : (s.tidied d).restoreReady d = none := by rw [State.restoreReady, hinsts]; rfl
  have hload : (s.tidied d).loadDue d = none := by rw [State.loadDue, hinsts]; rfl
  have hpreload : (s.tidied d).preloadsDue d = [] := by rw [State.preloadsDue, hinsts]; rfl
  have hevac : (s.tidied d).evacPoint d = none := by rw [State.evacPoint, State.residentPoints, hinsts]; rfl
  rw [h.exec_eq, hready, hload, hpreload, hevac]
  rfl

end State.Places

/-- The first candidate, once placed, ends the step. -/
theorem State.consider_placed {s t : State} {r : PoolRec} {j : Job} (hjob : s.job r.job = some j) (hplace : s.place1 j r = .placed t)
    (rest : List PoolRec) : s.consider (r :: rest) = t := by
  rw [State.consider, hjob]
  dsimp only
  rw [hplace]

/-- So does one whose placement fails. -/
theorem State.consider_failed {s t : State} {r : PoolRec} {j : Job} (hjob : s.job r.job = some j) (hplace : s.place1 j r = .failed t)
    (rest : List PoolRec) : s.consider (r :: rest) = t := by
  rw [State.consider, hjob]
  dsimp only
  rw [hplace]

/-! Updates of a record and of a job. -/

theorem State.job_key {s : State} {key : Nat} {j : Job} (h : s.job key = some j) : j.key = key := by
  simpa using List.find?_some h

theorem State.poolRec_key {s : State} {d key : Nat} {r : PoolRec} (h : s.poolRec d key = some r) : r.key = key := by
  simpa using List.find?_some h

theorem State.poolRec_congr {s t : State} {d : Nat} (h : (t.dieAt d).pool = (s.dieAt d).pool) (key : Nat) : t.poolRec d key = s.poolRec d key := by
  rw [State.poolRec, h]
  rfl

theorem State.updPool_poolRec {s : State} {d key : Nat} {r : PoolRec} {f : PoolRec → PoolRec} (hf : ∀ q, (f q).key = q.key)
    (h : s.poolRec d key = some r) : (s.updPool d key f).poolRec d key = some (f r) := by
  rw [State.poolRec, State.updPool, State.updDie_dieAt_same]
  exact (find?_update PoolRec.key key f hf _).trans (congrArg (Option.map f) h)

theorem State.updJob_job {s : State} {key : Nat} {j : Job} {f : Job → Job} (hf : ∀ q, (f q).key = q.key) (h : s.job key = some j) :
    (s.updJob key f).job key = some (f j) :=
  (find?_update Job.key key f hf s.jobs).trans (congrArg (Option.map f) h)

/-! Records of engines and of the Pilot (R161). -/

/-- A record's work runs: it has left the pool. -/
def State.started (s : State) (r : PoolRec) : State :=
  (s.updPool r.die r.key (fun x => { x with running := true, inPool := false, nextGp := 1 })).noteVacated (queueOfPool r.die)

/-- The command of a GRAMMAR record in a sector. -/
def State.grammarCommand (s : State) (j : Job) (r : PoolRec) (k : Nat) : GveCmd := {
  id := s.nextId, op := .eval, running := false, suspended := false, cell := cellInSector k 0 0, slot := 0, inst := none,
  node := some r.key, job := j.key, asid := j.asid, image := nodeCommand r.node, home := 0, slateBase := 32768 * r.key,
  slateLen := profSlate (j.profile r.node), cursor := 0, flags := flagNone, result := 0, hold := none, retry := false, met := none,
  retired := false, paid := 0, deps := [] }

/-- A sector's GVE has got the command of a record, with its allotment. -/
def State.grammarQueued (s : State) (j : Job) (r : PoolRec) (k : Nat) : State :=
  s.fresh.2.updSector k (fun t => { t with
    gve := t.gve ++ [s.grammarCommand j r k]
    slateAllot := if profSlate (j.profile r.node) = 0 then t.slateAllot
      else t.slateAllot ++ [(r.key, 32768 * r.key, profSlate (j.profile r.node))] })

/-- The command of a COPY record in a sector. -/
def State.copyCommand (s : State) (j : Job) (r : PoolRec) (k : Nat) : Cmd := {
  id := s.nextId, kind := .copy, stage := .queued, sector := k, cell := cellInSector k 0 0, slot := 0, inst := none, node := some r.key,
  job := j.key, asid := j.asid, x0 := 0, y0 := 0, w := 0, h := 0, desc := nodeCommand r.node,
  home := bitsN r.node.toNat 120 64, cursor := 0, written := 0,
  counted := 0, accepted := false, ringDone := false, lanes := [], laneDone := [], shipped := 0, sent := [], fetched := [], translated := 0,
  xl := [], asked := [], paid := 0, hold := none, retry := false, met := none, sentAt := 0,
  deps := [], retired := false }

/-- A sector's copy engine has got the command of a record. -/
def State.copyQueued (s : State) (j : Job) (r : PoolRec) (k : Nat) : State := { s.fresh.2 with cmds := s.cmds ++ [s.copyCommand j r k] }

/-- A sector is in service for engine commands (R161). -/
def State.serves (s : State) (k : Nat) : Bool := (s.sector k).mode == .inService && !(s.sector k).closed && !(s.sector k).tripped

/-- A sector can take a GRAMMAR record's command: it has room for its allotment. -/
def State.takesGrammar (s : State) (j : Job) (r : PoolRec) (k : Nat) : Bool :=
  s.serves k && decide (s.slateUsed r.key k + profSlate (j.profile r.node) ≤ 32768)

/-- A sector can take a COPY record's command: its engine's queue has room. -/
def State.takesCopy (s : State) (k : Nat) : Bool :=
  s.serves k && decide ((s.cmds.filter (fun c => c.sector == k && c.stage == .queued)).length < 16)

theorem State.serves_eq_true {s : State} {k : Nat} (hmode : (s.sector k).mode = .inService) (hopen : (s.sector k).closed = false)
    (hcool : (s.sector k).tripped = false) : s.serves k = true := by
  simp [State.serves, hmode, hopen, hcool]

section
variable {s : State} {j : Job} {r : PoolRec}

theorem State.place1_engine (hkind : nodeKind r.node ≠ 0) : s.place1 j r = s.placeEngine j r := if_pos hkind

/-- A GRAMMAR record goes to the first sector that can take it, if one can. -/
theorem State.placeEngine_grammar (hkind : nodeKind r.node = 1) {k : Nat} (hk : k ∈ s.sectorOrder r.die) (htakes : s.takesGrammar j r k = true) :
    ∃ k1 ∈ s.sectorOrder r.die,
      s.placeEngine j r = .placed ((((s.grammarQueued j r k1).preloadOperands k1 j r.node).started r).refill r.die) := by
  obtain ⟨k1, hfind⟩ := Option.isSome_iff_exists.mp (List.find?_isSome.mpr ⟨k, hk, htakes⟩)
  refine ⟨k1, List.mem_of_find?_eq_some hfind, ?_⟩
  simp only [State.placeEngine, hkind]
  split
  next h => exact nomatch h.symm.trans hfind
  next h =>
    cases h.symm.trans hfind
    rfl

/-- A COPY record goes to the first sector that can take it, if one can. -/
theorem State.placeEngine_copy (hkind : nodeKind r.node = 2) {k : Nat} (hk : k ∈ s.sectorOrder r.die) (htakes : s.takesCopy k = true) :
    ∃ k1, s.placeEngine j r = .placed ((((s.copyQueued j r k1).preloadOperands k1 j r.node).started r).refill r.die) := by
  obtain ⟨k1, hfind⟩ := Option.isSome_iff_exists.mp (List.find?_isSome.mpr ⟨k, hk, htakes⟩)
  refine ⟨k1, ?_⟩
  simp only [State.placeEngine, hkind]
  split
  next h => exact nomatch h.symm.trans hfind
  next h =>
    cases h.symm.trans hfind
    rfl

/-- A PILOT record runs where no other does. -/
theorem State.placeEngine_pilot (hkind : nodeKind r.node = 3)
    (hfree : ∀ q ∈ (s.dieAt r.die).pool, nodeKind q.node = 3 → q.running = true → q.completed = true ∨ q.key = r.key) :
    s.placeEngine j r = .placed ((s.started r).refill r.die) := by
  have hnone : (s.dieAt r.die).pool.any (fun q => nodeKind q.node == 3 && q.running && !q.completed && q.key != r.key) = false := by
    rw [List.any_eq_false]
    intro q hq hbusy
    simp only [Bool.and_eq_true, beq_iff_eq, Bool.not_eq_true', bne_iff_ne] at hbusy
    obtain ⟨⟨⟨hpilot, hruns⟩, hopen⟩, hother⟩ := hbusy
    obtain hdone | hsame := hfree q hq hpilot hruns
    · rw [hdone] at hopen
      exact absurd hopen (by decide)
    · exact hother hsame
  simp only [State.placeEngine, hkind]
  rw [if_neg (by simp [hnone])]
  rfl

/-- A FABRIC record whose anchor has retired is rejected (R400). -/
theorem State.place1_anchorGone (hkind : nodeKind r.node = 0) (hgone : s.anchorGone j r = true) : ∃ q : FaultRec,
    q.die = r.die ∧ q.code = 0x0805 ∧ q.detail0 = 0 ∧ q.job = some j.key ∧
      s.place1 j r = .failed ((s.pushRec q).updJob j.key (fun x => { x with closed := true })) := by
  unfold State.place1
  rw [if_neg (not_not.mpr hkind), if_pos hgone]
  exact ⟨_, rfl, rfl, rfl, rfl, rfl⟩

/-- A FABRIC record whose anchors have not retired has its next grid point placed. -/
theorem State.place1_fabric (hkind : nodeKind r.node = 0) (hanchors : s.anchorGone j r = false) : s.place1 j r = s.placeFabric j r := by
  unfold State.place1
  rw [if_neg (not_not.mpr hkind), if_neg (by simp [hanchors])]

/-- What runs is told of by its record. -/
theorem State.started_poolRec (hrec : s.poolRec r.die r.key = some r) : (s.started r).poolRec r.die r.key =
    some { r with running := true, inPool := false, nextGp := 1 } :=
  State.updPool_poolRec (s := s) (fun _ => rfl) hrec

end

end Sys2Proof.Machine
end

