-- ==== Sys2Proof/Proofs/EngineCandidates.lean ====
section
/-! What the first candidate's placing shows, with nothing resident: GRAMMAR, COPY and PILOT records, and a FABRIC record that is rejected. -/

namespace Sys2Proof.Machine
open Sys2Proof

@[simp] theorem State.started_sector (s : State) (r : PoolRec) (k : Nat) : (s.started r).sector k = s.sector k := rfl
@[simp] theorem State.started_cmds (s : State) (r : PoolRec) : (s.started r).cmds = s.cmds := rfl
@[simp] theorem State.started_mem (s : State) (r : PoolRec) : (s.started r).mem = s.mem := rfl
@[simp] theorem State.started_cells (s : State) (r : PoolRec) : (s.started r).cells = s.cells := rfl

theorem State.grammarQueued_sector (s : State) (j : Job) (r : PoolRec) (k : Nat) : (s.grammarQueued j r k).sector k = { s.sector k with
    gve := (s.sector k).gve ++ [s.grammarCommand j r k]
    slateAllot := if profSlate (j.profile r.node) = 0 then (s.sector k).slateAllot
      else (s.sector k).slateAllot ++ [(r.key, 32768 * r.key, profSlate (j.profile r.node))] } :=
  State.updSector_sector_same _ _ _

/-- A placement step from s considers the pool in u, where nothing is resident, and the first candidate is the record of a job. -/
structure State.FirstCandidate (s u : State) (r : PoolRec) (rest : List PoolRec) (j : Job) : Prop where
  steps : exec (.placementStep r.die) s = .next (u.consider (r :: rest))
  tidied : s.Tidied u
  nothing : u.insts = []
  job : u.job r.job = some j
  record : u.poolRec r.die r.key = some r

namespace State.FirstCandidate
variable {s u : State} {r : PoolRec} {rest : List PoolRec} {j : Job} (h : s.FirstCandidate u r rest j)
include h

theorem placed {t : State} (hplace : u.place1 j r = .placed t) : exec (.placementStep r.die) s = .next t :=
  h.steps.trans (congrArg _ (State.consider_placed h.job hplace rest))

theorem failed {t : State} (hplace : u.place1 j r = .failed t) : exec (.placementStep r.die) s = .next t :=
  h.steps.trans (congrArg _ (State.consider_failed h.job hplace rest))

/-- A GRAMMAR record's command is queued in a sector, with its allotment (R161). -/
theorem grammar_gives (hkind : nodeKind r.node = 1) {k : Nat} (hk : k ∈ u.sectorOrder r.die) (htakes : u.takesGrammar j r k = true) :
    Gives (.placementStep r.die) s (fun t => ∃ k1 ∈ u.sectorOrder r.die, ∃ g, (t.sector k1).gve = (u.sector k1).gve ++ [g] ∧ g.op = .eval ∧
        g.node = some r.key ∧ g.image = nodeCommand r.node ∧ g.asid = j.asid ∧ g.running = false ∧ g.slateLen = profSlate (j.profile r.node) ∧
        (profSlate (j.profile r.node) ≠ 0 → (r.key, g.slateBase, g.slateLen) ∈ (t.sector k1).slateAllot)) := by
  obtain ⟨k1, hk1, hplace⟩ := State.placeEngine_grammar hkind hk htakes
  have hfilled := (u.grammarQueued j r k1).preloadOperands_cachesFilled k1 j r.node
  refine ⟨_, h.placed ((State.place1_engine (by simp [hkind])).trans hplace), k1, hk1, u.grammarCommand j r k1, ?_⟩
  rw [(State.refill_tidied _ _).sector, State.started_sector, hfilled.gve, hfilled.slateAllot, State.grammarQueued_sector]
  refine ⟨rfl, rfl, rfl, rfl, rfl, rfl, rfl, fun hslate => ?_⟩
  dsimp only
  rw [if_neg hslate]
  exact List.mem_append_right _ (List.mem_singleton_self _)

/-- A COPY record's command is queued (R161). -/
theorem copy_gives (hkind : nodeKind r.node = 2) (hnone : u.cmds = []) {k : Nat} (hk : k ∈ u.sectorOrder r.die) (hserves : u.serves k = true) :
    Gives (.placementStep r.die) s (fun t => ∃ c, t.cmds = [c] ∧ c.kind = .copy ∧ c.node = some r.key ∧ c.stage = .queued ∧
      c.desc = nodeCommand r.node ∧ c.asid = j.asid) := by
  obtain ⟨k1, hplace⟩ := State.placeEngine_copy (j := j) hkind hk (by simp [State.takesCopy, hserves, hnone])
  have hfilled := (u.copyQueued j r k1).preloadOperands_cachesFilled k1 j r.node
  refine ⟨_, h.placed ((State.place1_engine (by simp [hkind])).trans hplace), u.copyCommand j r k1, ?_, rfl, rfl, rfl, rfl, rfl⟩
  rw [(State.refill_tidied _ _).cmds, State.started_cmds, hfilled.cmds, State.copyQueued, hnone]
  rfl

/-- A PILOT record runs (R161). -/
theorem pilot_gives (hkind : nodeKind r.node = 3)
    (hfree : ∀ q ∈ (u.dieAt r.die).pool, nodeKind q.node = 3 → q.running = true → q.completed = true ∨ q.key = r.key)
    (hspill : ∀ x ∈ u.jobs, x.spill = []) : Gives (.placementStep r.die) s (fun t =>
      (∃ q, t.poolRec r.die r.key = some q ∧ q.running = true ∧ q.inPool = false) ∧ t.mem = s.mem ∧ t.cells = s.cells) := by
  have hplace := State.placeEngine_pilot (j := j) hkind hfree
  rw [State.refill_of_no_spill (s := u.started r) hspill] at hplace
  refine ⟨_, h.placed ((State.place1_engine (by simp [hkind])).trans hplace), ⟨_, State.started_poolRec h.record, rfl, rfl⟩, ?_, ?_⟩
  · rw [State.started_mem, h.tidied.mem]
  · rw [State.started_cells, h.tidied.cells]

/-- A FABRIC record whose anchor has retired is rejected under a record 0x0805, and its job closed (R400). -/
theorem anchorGone_gives (hkind : nodeKind r.node = 0) (hgone : u.anchorGone j r = true) : Gives (.placementStep r.die) s (fun t =>
    OneRecord s t r.die 0x0805 0 (some j.key) ∧ (∃ k, t.job j.key = some k ∧ k.closed = true) ∧ t.insts = []) := by
  obtain ⟨q, hdie, hcode, hd0, hqjob, hplace⟩ := State.place1_anchorGone hkind hgone
  have hjob : (u.pushRec q).job j.key = some j := by
    rw [State.job_key h.job]
    exact h.job
  refine ⟨_, h.failed hplace, ?_, ⟨_, State.updJob_job (fun _ => rfl) hjob, rfl⟩, h.nothing⟩
  have hrec := u.oneRecord_pushRec q
  rwa [hdie, hcode, hd0, hqjob, OneRecord, h.tidied.records] at hrec

end State.FirstCandidate

end Sys2Proof.Machine
end

