-- ==== Sys2Proof/Proofs/FabricPlacement.lean ====
section
/-! The placing of a FABRIC record's next grid point (R37, R160 to R162): its instances, their cells, their channels. -/

namespace Sys2Proof.Machine
open Sys2Proof

/-! New instances. -/

/-- A cell as a new instance's cell stands: cleared, with its identity (R39, R162). -/
structure Cell.New (gid arg : Nat) (c : Cell) : Prop where
  g : c.g = []
  spad : c.spad = []
  tags : c.tags = []
  narg : c.narg = BitVec.ofNat 32 arg
  instId : c.instId = BitVec.ofNat 32 gid

theorem Cell.start_new (c : Cell) (gid stage arg : Nat) : (c.start gid stage arg).New gid arg := ⟨rfl, rfl, rfl, rfl, rfl⟩

/-- An instance as it is placed: its streams are still to be loaded (R162). -/
structure Inst.New (j : Job) (r : PoolRec) (gid : Nat) (frames : List Frame) (i : Inst) : Prop where
  node : i.node = r.key
  job : i.job = j.key
  asid : i.asid = j.asid
  gid : i.gid = gid
  restoreStep : i.restoreStep = 1
  parked : i.parked = true
  retired : i.retired = false
  loads : frames = [] → i.loads = [.stream 0 true] ∧ i.frame = none

/-- The instances of a grid point on patches by stage, and the state with them. -/
def State.newInsts (s : State) (j : Job) (r : PoolRec) (gid : Nat) (spots : List (Nat × Rect)) (frames : List Frame) : List Inst × State :=
  spots.foldl (fun (a : List Inst × State) e =>
    let n := a.2.newInst j r gid e.1 e.2 (frames.find? (fun f => f.stage == e.1))
    (a.1 ++ [n.1], n.2)) ([], s)

/-- A state has got the instances of a grid point on patches by stage. -/
structure State.GotInsts (s : State) (j : Job) (r : PoolRec) (gid : Nat) (spots : List (Nat × Rect)) (frames : List Frame) (l : List Inst)
    (t : State) : Prop where
  jobs : t.jobs = s.jobs
  die : t.die = s.die
  insts : t.insts = s.insts ++ l
  spots : l.map (fun i => (i.stage, i.rect)) = spots
  new : ∀ i ∈ l, i.New j r gid frames
  cells : ∀ i ∈ l, ∀ c ∈ i.cells, (t.cell c).New gid (nodeArg r.node).toNat

/-- A state is as another but for its cells. -/
def State.OnlyCells (s t : State) : Prop := ∃ cells, t = { s with cells := cells }

theorem State.OnlyCells.refl (s : State) : s.OnlyCells s := ⟨_, rfl⟩

theorem State.OnlyCells.trans {s t u : State} (h : s.OnlyCells t) (h' : t.OnlyCells u) : s.OnlyCells u := by
  obtain ⟨_, rfl⟩ := h
  obtain ⟨_, rfl⟩ := h'
  exact ⟨_, rfl⟩

theorem State.foldl_updCell_onlyCells {β : Type} (at_ : β → Nat) (f : β → Cell → Cell) (l : List β) (s : State) :
    s.OnlyCells (l.foldl (fun (a : State) e => a.updCell (at_ e) (f e)) s) :=
  foldl_rel (r := State.OnlyCells) .refl .trans (fun _ _ => ⟨_, rfl⟩) l s

/-- The cells of an instance started for it (R39, R162). -/
def State.startCells (s : State) (i : Inst) (arg : Nat) : State := i.cells.foldl (fun (a : State) c => a.updCell c (fun t => t.start i.gid i.stage arg)) s

/-- An instance's Slate allotment, if it has one. -/
def State.allotSlate (s : State) (i : Inst) : State :=
  if i.slateLen = 0 then s else s.updSector i.sector (fun t => { t with slateAllot := t.slateAllot ++ [(i.id, i.slateBase, i.slateLen)] })

theorem State.startCells_onlyCells (s : State) (i : Inst) (arg : Nat) : s.OnlyCells (s.startCells i arg) :=
  State.foldl_updCell_onlyCells id _ _ _

theorem State.allotSlate_rest (s : State) (i : Inst) : ∃ sectors, s.allotSlate i = { s with sectors := sectors } := by
  unfold State.allotSlate
  split
  · exact ⟨_, rfl⟩
  · exact ⟨_, rfl⟩

/-- Cells started for an instance stand as new; so do those that stood so before, of whichever stage they are (R39). -/
theorem State.startCells_new (s : State) (i : Inst) (arg c : Nat) (h : c ∈ i.cells ∨ (s.cell c).New i.gid arg) :
    ((s.startCells i arg).cell c).New i.gid arg := by
  obtain hc | hnew := h
  · exact State.foldl_updCell_holds id (fun _ t => t.start i.gid i.stage arg) (P := Cell.New i.gid arg) (Q := fun _ => True)
      (fun _ x _ => x.start_new _ _ _) (fun _ _ => trivial) hc trivial
  · exact State.foldl_updCell_keeps id (fun _ t => t.start i.gid i.stage arg) (fun _ x _ => x.start_new _ _ _) _ hnew

section
variable (s : State) (j : Job) (r : PoolRec) (gid stage : Nat) (rect : Rect) (f : Option Frame)

theorem State.newInst_snd : (s.newInst j r gid stage rect f).2 =
    { (s.fresh.2.startCells (s.newInst j r gid stage rect f).1 (nodeArg r.node).toNat).allotSlate (s.newInst j r gid stage rect f).1 with
      insts := ((s.fresh.2.startCells (s.newInst j r gid stage rect f).1 (nodeArg r.node).toNat).allotSlate
        (s.newInst j r gid stage rect f).1).insts ++ [(s.newInst j r gid stage rect f).1] } := rfl

theorem State.newInst_stage_rect : ((s.newInst j r gid stage rect f).1.stage, (s.newInst j r gid stage rect f).1.rect) = (stage, rect) := rfl

theorem State.newInst_new {frames : List Frame} (hf : frames = [] → f = none) : (s.newInst j r gid stage rect f).1.New j r gid frames := by
  refine ⟨rfl, rfl, rfl, rfl, rfl, rfl, rfl, fun h => ?_⟩
  obtain rfl := hf h
  exact ⟨rfl, rfl⟩

theorem State.newInst_rest : (s.newInst j r gid stage rect f).2.jobs = s.jobs ∧ (s.newInst j r gid stage rect f).2.die = s.die ∧
    (s.newInst j r gid stage rect f).2.insts = s.insts ++ [(s.newInst j r gid stage rect f).1] := by
  rw [State.newInst_snd]
  generalize (s.newInst j r gid stage rect f).1 = i
  obtain ⟨_, hstart⟩ := s.fresh.2.startCells_onlyCells i (nodeArg r.node).toNat
  obtain ⟨_, hallot⟩ := (s.fresh.2.startCells i (nodeArg r.node).toNat).allotSlate_rest i
  rw [hallot, hstart]
  exact ⟨rfl, rfl, rfl⟩

theorem State.newInst_cell (c : Nat) (h : c ∈ (s.newInst j r gid stage rect f).1.cells ∨ (s.cell c).New gid (nodeArg r.node).toNat) :
    ((s.newInst j r gid stage rect f).2.cell c).New gid (nodeArg r.node).toNat := by
  have hstart := s.fresh.2.startCells_new (s.newInst j r gid stage rect f).1 (nodeArg r.node).toNat c h
  rw [State.newInst_snd]
  obtain ⟨_, hallot⟩ := (s.fresh.2.startCells (s.newInst j r gid stage rect f).1 (nodeArg r.node).toNat).allotSlate_rest
    (s.newInst j r gid stage rect f).1
  rw [hallot]
  exact hstart

end

theorem State.newInsts_concat (s : State) (j : Job) (r : PoolRec) (gid : Nat) (spots : List (Nat × Rect)) (frames : List Frame) (e : Nat × Rect) :
    s.newInsts j r gid (spots ++ [e]) frames =
      ((s.newInsts j r gid spots frames).1 ++ [((s.newInsts j r gid spots frames).2.newInst j r gid e.1 e.2 (frames.find? (fun f => f.stage == e.1))).1],
        ((s.newInsts j r gid spots frames).2.newInst j r gid e.1 e.2 (frames.find? (fun f => f.stage == e.1))).2) := by
  rw [State.newInsts, List.foldl_append]
  rfl

theorem State.newInsts_got (s : State) (j : Job) (r : PoolRec) (gid : Nat) (spots : List (Nat × Rect)) (frames : List Frame) :
    s.GotInsts j r gid spots frames (s.newInsts j r gid spots frames).1 (s.newInsts j r gid spots frames).2 := by
  induction spots using List.reverseRecOn with
  | nil => exact ⟨rfl, rfl, (List.append_nil _).symm, rfl, fun _ h => absurd h List.not_mem_nil, fun _ h => absurd h List.not_mem_nil⟩
  | append_singleton spots e ih =>
    rw [State.newInsts_concat]
    generalize s.newInsts j r gid spots frames = a at ih ⊢
    obtain ⟨hjobs, hdie, hinsts⟩ := a.2.newInst_rest j r gid e.1 e.2 (frames.find? (fun f => f.stage == e.1))
    refine ⟨hjobs.trans ih.jobs, hdie.trans ih.die, ?_, ?_, fun i hi => ?_, fun i hi c hc => State.newInst_cell _ _ _ _ _ _ _ _ ?_⟩
    · rw [hinsts, ih.insts, List.append_assoc]
    · rw [List.map_append, ih.spots, List.map_singleton, State.newInst_stage_rect]
    · obtain hi | hi := List.mem_append.mp hi
      · exact ih.new i hi
      · rw [List.mem_singleton.mp hi]
        exact State.newInst_new _ _ _ _ _ _ _ (fun h => by rw [h, List.find?_nil])
    · obtain hi | hi := List.mem_append.mp hi
      · exact .inr (ih.cells i hi c hc)
      · rw [List.mem_singleton.mp hi] at hc
        exact .inl hc

/-! Channels (R154). -/

/-- A state is as another but for the channels laid in it: transit entries, and the channels that instances keep. -/
structure State.ChannelsLaid (s t : State) : Prop where
  rest : ∃ cells insts, t = { s with cells := cells, insts := insts }
  insts : ∃ chans : Inst → List LaidChan, t.insts = s.insts.map (fun i => { i with chans := chans i })
  cell : ∀ c, ∃ transit, t.cell c = { s.cell c with transit := transit }

theorem State.ChannelsLaid.refl (s : State) : s.ChannelsLaid s :=
  ⟨⟨_, _, rfl⟩, ⟨Inst.chans, (List.map_id _).symm⟩, fun _ => ⟨_, rfl⟩⟩

theorem State.ChannelsLaid.trans {s t u : State} (h : s.ChannelsLaid t) (h' : t.ChannelsLaid u) : s.ChannelsLaid u := by
  refine ⟨?_, ?_, fun c => ?_⟩
  · obtain ⟨_, _, rfl⟩ := h.rest
    obtain ⟨_, _, rfl⟩ := h'.rest
    exact ⟨_, _, rfl⟩
  · obtain ⟨_, hst⟩ := h.insts
    obtain ⟨_, htu⟩ := h'.insts
    rw [hst, List.map_map] at htu
    exact ⟨_, htu⟩
  · obtain ⟨_, hst⟩ := h.cell c
    obtain ⟨_, htu⟩ := h'.cell c
    exact ⟨_, htu.trans (by rw [hst])⟩

theorem State.updCell_transit_laid (s : State) (c : Nat) (l : List (Nat × Nat × Nat × Nat)) :
    s.ChannelsLaid (s.updCell c (fun x => { x with transit := x.transit ++ l })) := by
  refine ⟨⟨_, _, rfl⟩, ⟨Inst.chans, (List.map_id _).symm⟩, fun k => ?_⟩
  obtain rfl | hne := eq_or_ne k c
  · rw [State.updCell_cell_same]
    exact ⟨_, rfl⟩
  · rw [State.updCell_cell_other _ _ _ _ hne]
    exact ⟨_, rfl⟩

theorem State.claim_laid (s : State) (hops : List (Nat × Nat × Nat × Nat × Nat)) : s.ChannelsLaid (s.claim hops) :=
  foldl_rel (r := State.ChannelsLaid) .refl .trans (fun _ _ => State.updCell_transit_laid _ _ _) hops s

/-- An instance keeps one channel more. -/
theorem State.updInst_chans_laid (s : State) (id : Nat) (l : List LaidChan) :
    s.ChannelsLaid (s.updInst id (fun x => { x with chans := x.chans ++ l })) := by
  refine ⟨⟨_, _, rfl⟩, ⟨fun i => if i.id = id then i.chans ++ l else i.chans, List.map_congr_left fun i _ => ?_⟩, fun _ => ⟨_, rfl⟩⟩
  by_cases hi : i.id = id
  · simp only [hi, if_true]
  · simp only [hi, if_false]

theorem State.layChan_laid {s trial t : State} {key : Nat} {j : Job} {stages : List Inst} {gid : Nat} {c : Chan}
    (h : s.layChan trial key j stages gid c = some t) : s.ChannelsLaid t := by
  unfold State.layChan at h
  split at h
  · obtain rfl := Option.some.inj h
    exact .refl s
  · extract_lets dest at h
    clear_value dest
    split at h
    · split at h
      · cases h
      · obtain rfl := Option.some.inj h
        exact .refl s
    · split at h
      · obtain ⟨hops, -, rfl⟩ := Option.map_eq_some_iff.mp h
        exact (s.claim_laid hops).trans (State.updInst_chans_laid _ _ _)
      · obtain rfl := Option.some.inj h
        exact .refl s

theorem State.layAll_laid {s trial t : State} {key : Nat} {j : Job} {stages : List Inst} {gid : Nat} {l : List Chan}
    (h : s.layAll trial key j stages gid l = some t) : s.ChannelsLaid t := by
  induction l generalizing s with
  | nil =>
    obtain rfl := Option.some.inj h
    exact .refl s
  | cons c rest ih =>
    rw [State.layAll] at h
    split at h
    · cases h
    · rename_i s1 hs1
      exact (State.layChan_laid hs1).trans (ih h)

/-! A grid point that is placed. -/

/-- What is placed: instances with their channels, translations made ahead, the record counted and, its reservation over, the pool filled (R160). -/
theorem State.placePoint_placed {s w : State} {j : Job} {r : PoolRec} {gid : Nat} {spots : List (Nat × Rect)} {frames : List Frame}
    (h : s.placePoint j r gid spots frames = .placed w) : ∃ s2 s3 : State, ∃ f : PoolRec → PoolRec, ∃ g : Die → Die,
      (s.newInsts j r gid spots frames).2.ChannelsLaid s2 ∧ s2.CachesFilled s3 ∧ w = ((s3.updPool r.die r.key f).updDie r.die g).refill r.die ∧
      (∀ q, (f q).key = q.key ∧ (f q).live = q.live + (s.newInsts j r gid spots frames).1.length ∧ (frames = [] → (f q).nextGp = q.nextGp + 1)) ∧
      ∀ t, (g t).pool = t.pool := by
  unfold State.placePoint at h
  extract_lets made stages at h
  split at h
  · cases h
  · cases h
  · split at h
    · cases h
    · rename_i s2 hlaid
      extract_lets s3 s4 s5 at h
      refine ⟨s2, s3, _, _, State.layAll_laid hlaid, ?_, (Placing.placed.inj h).symm, fun q => ⟨rfl, rfl, ?_⟩, fun t => rfl⟩
      · exact foldl_rel (r := State.CachesFilled) .refl .trans (fun _ _ => State.preloadOperands_cachesFilled _ _ _ _) _ _
      · rintro rfl
        rfl

theorem Inst.New.withChans {j : Job} {r : PoolRec} {gid : Nat} {frames : List Frame} {i : Inst} (h : i.New j r gid frames) (l : List LaidChan) :
    ({ i with chans := l } : Inst).New j r gid frames :=
  ⟨h.node, h.job, h.asid, h.gid, h.restoreStep, h.parked, h.retired, h.loads⟩

theorem Cell.New.withTransit {gid arg : Nat} {c : Cell} (h : c.New gid arg) (l : List (Nat × Nat × Nat × Nat)) :
    ({ c with transit := l } : Cell).New gid arg :=
  ⟨h.g, h.spad, h.tags, h.narg, h.instId⟩

/-- What a placed grid point shows where nothing is resident: its instances on their patches, their cells cleared, and its record counted
(R160, R162). -/
theorem State.placePoint_shows {s w : State} {j : Job} {r : PoolRec} {gid : Nat} {spots : List (Nat × Rect)} {frames : List Frame}
    (hnone : s.insts = []) (hrec : s.poolRec r.die r.key = some r) (h : s.placePoint j r gid spots frames = .placed w) :
    w.insts.map (fun i => (i.stage, i.rect)) = spots ∧
    (∀ i ∈ w.insts, i.New j r gid frames ∧ ∀ c ∈ i.cells, (w.cell c).New gid (nodeArg r.node).toNat) ∧
    ((∀ x ∈ s.jobs, x.spill = []) → ∃ q, w.poolRec r.die r.key = some q ∧ q.live = r.live + spots.length ∧
      (frames = [] → q.nextGp = r.nextGp + 1)) := by
  obtain ⟨s2, s3, f, g, hlaid, hfilled, hw, hf, hg⟩ := State.placePoint_placed h
  have hgot := s.newInsts_got j r gid spots frames
  generalize s.newInsts j r gid spots frames = a at hlaid hf hgot
  obtain ⟨chans, hchans⟩ := hlaid.insts
  have hinsts : w.insts = a.1.map (fun i => { i with chans := chans i }) := by
    rw [hw, (State.refill_tidied _ _).insts, State.updDie_insts, State.updPool, State.updDie_insts, hfilled.insts, hchans, hgot.insts, hnone,
      List.nil_append]
  have hcell (c : Nat) : w.cell c = s2.cell c := by
    rw [hw, (State.refill_tidied _ _).cell, ← hfilled.cell c]
    rfl
  refine ⟨?_, fun i hi => ?_, fun hspill => ⟨f r, ?_, ?_, (hf r).2.2⟩⟩
  · rw [hinsts, List.map_map, ← hgot.spots]
    rfl
  · rw [hinsts] at hi
    obtain ⟨i, hmade, rfl⟩ := List.mem_map.mp hi
    refine ⟨(hgot.new i hmade).withChans _, fun c hc => ?_⟩
    obtain ⟨_, htransit⟩ := hlaid.cell c
    rw [hcell, htransit]
    exact (hgot.cells i hmade c hc).withTransit _
  · obtain ⟨_, _, hrest⟩ := hlaid.rest
    have hjobs : s3.jobs = s.jobs := by rw [hfilled.jobs, hrest, hgot.jobs]
    have hpool : (s3.dieAt r.die).pool = (s.dieAt r.die).pool := by
      rw [hfilled.pool, State.dieAt, hrest, hgot.die]
      rfl
    have hfull : w = (s3.updPool r.die r.key f).updDie r.die g :=
      hw.trans (State.refill_of_no_spill (s := (s3.updPool r.die r.key f).updDie r.die g) (hjobs.symm ▸ hspill) _)
    have hkept : (w.dieAt r.die).pool = ((s3.updPool r.die r.key f).dieAt r.die).pool := by
      rw [hfull, State.updDie_dieAt_same, hg]
    rw [State.poolRec_congr hkept]
    exact State.updPool_poolRec (fun q => (hf q).1) ((State.poolRec_congr hpool r.key).trans hrec)
  · rw [(hf r).2.1, ← hgot.spots, List.length_map]

/-- A FABRIC record's next grid point is placed on its patches (R160 to R162). -/
theorem State.FirstCandidate.fabric_gives {s u w : State} {r : PoolRec} {rest : List PoolRec} {j : Job} (h : s.FirstCandidate u r rest j)
    {spots : List (Nat × Rect)} (hkind : nodeKind r.node = 0) (hanchors : u.anchorGone j r = false)
    (hspots : u.spotsFor j r (r.nextPoint j).1 (r.nextPoint j).2 = some spots) (hplace : u.placeFabric j r = .placed w) :
    Gives (.placementStep r.die) s (fun t =>
      t.insts.map (fun i => (i.stage, i.rect)) = spots ∧
      (∀ i ∈ t.insts, i.node = r.key ∧ i.job = j.key ∧ i.asid = j.asid ∧ i.gid = (r.nextPoint j).1 ∧ i.restoreStep = 1 ∧ i.parked = true ∧
        i.retired = false ∧ ((r.nextPoint j).2 = false → i.loads = [.stream 0 true] ∧ i.frame = none) ∧
        ∀ c ∈ i.cells, (t.cell c).g = [] ∧ (t.cell c).spad = [] ∧ (t.cell c).tags = [] ∧ (t.cell c).narg = BitVec.ofNat 32 (nodeArg r.node).toNat ∧
          (t.cell c).instId = BitVec.ofNat 32 i.gid) ∧
      ((∀ x ∈ u.jobs, x.spill = []) → ∃ q, t.poolRec r.die r.key = some q ∧ q.live = r.live + spots.length ∧
        ((r.nextPoint j).2 = false → q.nextGp = r.nextGp + 1))) := by
  have hpoint : u.placePoint j r (r.nextPoint j).1 spots (if (r.nextPoint j).2 then u.framesOf r (r.nextPoint j).1 else []) = .placed w := by
    rw [State.placeFabric, hspots] at hplace
    exact hplace
  have hframes (hnew : (r.nextPoint j).2 = false) : (if (r.nextPoint j).2 then u.framesOf r (r.nextPoint j).1 else []) = [] := by
    rw [hnew]
    rfl
  obtain ⟨hon, hnew, hcounted⟩ := State.placePoint_shows h.nothing h.record hpoint
  refine ⟨w, h.placed ((State.place1_fabric hkind hanchors).trans hplace), hon, fun i hi => ?_, fun hspill => ?_⟩
  · obtain ⟨hi, hcells⟩ := hnew i hi
    refine ⟨hi.node, hi.job, hi.asid, hi.gid, hi.restoreStep, hi.parked, hi.retired, fun hfirst => hi.loads (hframes hfirst), fun c hc => ?_⟩
    have hc := hcells c hc
    exact ⟨hc.g, hc.spad, hc.tags, hc.narg, by rw [hc.instId, hi.gid]⟩
  · obtain ⟨q, hq, hlive, hnext⟩ := hcounted hspill
    exact ⟨q, hq, hlive, fun hfirst => hnext (hframes hfirst)⟩

end Sys2Proof.Machine
end

