-- ==== Sys2Proof/Proofs/RestoredInstances.lean ====
section
/-! An instance whose streams are in, and one restored from its frame (R162, R172). -/

namespace Sys2Proof.Machine
open Sys2Proof

/-- A placed instance whose streams are in runs from now on (R162). -/
theorem State.loadStep_done {s : State} {i : Inst} (hloads : i.loads = []) (hstep : i.restoreStep = 1) (hframe : i.frame = none) :
    s.loadStep i = some (s.updInst i.id (fun x => { x with restoreStep := 0, parked := false, lastActive := s.dev })) := by
  simp [State.loadStep, hloads, hstep, hframe]

theorem State.Places.streamsIn_gives {s : State} {d : Nat} (h : s.Places d) {i : Inst} (hone : s.insts = [i]) (hdie : i.die = d)
    (hresident : i.retired = false) (hstep : i.restoreStep = 1) (hloads : i.loads = []) (hframe : i.frame = none)
    (hruns : s.sectorRuns i.sector = true) : Gives (.placementStep d) s (fun t =>
      (∃ x, t.insts = [x] ∧ x.id = i.id ∧ x.restoreStep = 0 ∧ x.parked = false ∧ x.lastActive = s.dev) ∧ t.cells = s.cells ∧ t.mem = s.mem) := by
  have htidied := s.tidied_tidied d
  have hinsts : (s.tidied d).insts = [i] := htidied.insts.trans hone
  have hready : (s.tidied d).restoreReady d = none := by
    rw [State.restoreReady, hinsts, List.filter_eq_nil_iff.mpr fun x hx => by simp [List.mem_singleton.mp hx, hstep]]
    rfl
  have hload : (s.tidied d).loadDue d =
      some ((s.tidied d).updInst i.id (fun x => { x with restoreStep := 0, parked := false, lastActive := (s.tidied d).dev })) := by
    rw [State.loadDue, hinsts, List.filter_cons_of_pos (by simp [hdie, hresident, hstep, htidied.sectorRuns, hruns]), List.filter_nil,
      List.findSome?_cons, State.loadStep_done hloads hstep hframe]
  refine ⟨_, h.loads hready hload, ⟨{ i with restoreStep := 0, parked := false, lastActive := (s.tidied d).dev }, ?_, rfl, rfl, rfl, htidied.dev⟩,
    htidied.cells, htidied.mem⟩
  rw [State.updInst, hinsts, List.map_singleton, if_pos rfl]

/-! A list read or written at one place at a time. -/

/-- Of a fold over numbers, a reading that only number k changes is what k makes of it. -/
theorem foldl_range_reads {α β : Type} {f : α → Nat → α} (read : α → β) {k n : Nat} {d v : β} (hk : k < n) {a : α} (ha : read a = d)
    (hsame : ∀ a, read a = d → read (f a k) = v) (hother : ∀ a m, m ≠ k → read (f a m) = read a) : read ((List.range n).foldl f a) = v := by
  have hkept (m : Nat) (hm : m ≤ k) : read ((List.range m).foldl f a) = d := by
    induction m with
    | zero => exact ha
    | succ m ih =>
      rw [List.range_succ, List.foldl_append]
      exact (hother _ _ (by omega)).trans (ih (by omega))
  induction n with
  | zero => exact absurd hk (Nat.not_lt_zero k)
  | succ n ih =>
    rw [List.range_succ, List.foldl_append]
    obtain rfl | hne := eq_or_ne n k
    · exact hsame _ (hkept n le_rfl)
    · exact (hother _ _ hne).trans (ih (by omega))

/-- Words put by number read back. -/
theorem Map.get_foldl_set {α : Type} [DecidableEq α] {d : α} (v : Nat → α) {k n : Nat} (hk : k < n) (m : Map α) :
    Map.get d ((List.range n).foldl (fun (m : Map α) k => Map.set d m k (v k)) m) k = v k :=
  foldl_range_reads (fun m => Map.get d m k) hk rfl (fun _ _ => Map.get_set_same _ _ _ _) fun _ _ hne => Map.get_set_other _ _ _ _ _ hne.symm

/-- Values put by number, but for those that a map without them gives, read back. -/
theorem Map.get_foldl_put {α : Type} [DecidableEq α] {d : α} (v : Nat → α) {k n : Nat} (hk : k < n) :
    Map.get d ((List.range n).foldl (fun (m : Map α) k => if v k = d then m else Map.put m k (v k)) []) k = v k := by
  refine foldl_range_reads (fun m => Map.get d m k) (d := d) hk rfl (fun m hm => ?_) fun m x hne => ?_
  · split
    · rename_i h
      exact hm.trans h.symm
    · exact Map.get_put_same _ _ _ _
  · split
    · rfl
    · exact Map.get_put_other _ _ _ _ _ hne.symm

/-! Cursors (R73, R105). -/

/-- CUR is bits 91:76 of a descriptor: the top of field 4 and the low bits of field 5. -/
theorem Plane.handle_cur (p : Plane) (n : Nat) : (p.handle n).cur =
    (p.htField (8 * n + 4)).toNat / 4096 + (p.htField (8 * n + 5)).toNat % 4096 * 16 := by
  have hlt (k : Nat) : (p.htField k).toNat < 65536 := (p.htField k).isLt
  have h0 := hlt (8 * n)
  have h1 := hlt (8 * n + 1)
  have h2 := hlt (8 * n + 2)
  have h3 := hlt (8 * n + 3)
  have h4 := hlt (8 * n + 4)
  have h5 := hlt (8 * n + 5)
  simp only [Plane.handle, handleOf, Plane.handleWord, bitsN, BitVec.toNat_ofNat, joinFields, Nat.add_zero]
  omega

theorem Plane.setCur_cur_same (p : Plane) (n cur : Nat) (hcur : cur < 65536) : ((p.setCur n cur).handle n).cur = cur := by
  have hother : 8 * n + 4 ≠ 8 * n + 5 := by omega
  simp only [Plane.handle_cur, Plane.setCur, Plane.setHt, Plane.htField, Map.get_set_same, Map.get_set_other _ _ _ _ _ hother, BitVec.toNat_ofNat]
  omega

theorem Plane.setCur_cur_other (p : Plane) {m n : Nat} (h : m ≠ n) (cur : Nat) : ((p.setCur m cur).handle n).cur = (p.handle n).cur := by
  have hfield (k : Nat) (h4 : k ≠ 8 * m + 4) (h5 : k ≠ 8 * m + 5) : (p.setCur m cur).htField k = p.htField k := by
    simp only [Plane.setCur, Plane.setHt, Plane.htField, Map.get_set_other _ _ _ _ _ h4, Map.get_set_other _ _ _ _ _ h5]
  rw [Plane.handle_cur, Plane.handle_cur, hfield _ (by omega) (by omega), hfield _ (by omega) (by omega)]

/-! A cell's state (R171, R172). -/

/-- A cell stands as its image in memory has it: registers, accumulators, cursors, flags, pointer, trigger, cycles and slots. -/
structure Cell.Restored (s : State) (image : Nat) (c : Cell) : Prop where
  reg : ∀ k, k < 16 → c.reg k = BitVec.ofNat 32 (s.memRead (image + 4 * k) 4)
  acc0 : ∀ k, k < 32 → Map.get 0 c.a0 k = BitVec.ofNat 32 (s.memRead (image + 64 + 4 * k) 4)
  acc1 : ∀ k, k < 32 → Map.get 0 c.a1 k = BitVec.ofNat 32 (s.memRead (image + 192 + 4 * k) 4)
  cur : ∀ k, k < 32 → (c.active.handle k).cur = s.memRead (image + 352 + 2 * k) 2
  fpstat : c.fpstat = BitVec.ofNat 6 (s.memRead (image + 416) 4)
  ptr : c.ptr = s.memRead (image + 420) 1 % 16
  trig : c.trig = s.memRead (image + 424) 4
  cycleSaved : c.cycleSaved = s.memRead (image + 428) 4
  slot : ∀ k, k < 16 → (c.slot k).iter = s.memRead (image + 432 + 16 * k) 4 ∧ (c.slot k).v = BitVec.ofNat 32 (s.memRead (image + 440 + 16 * k) 4)

/-- A cell is as another but for its scratchpad. -/
def Cell.SpadOnly (c d : Cell) : Prop := ∃ spad tags badWords, d = { c with spad := spad, tags := tags, badWords := badWords }

theorem Cell.SpadOnly.refl (c : Cell) : c.SpadOnly c := ⟨_, _, _, rfl⟩

theorem Cell.SpadOnly.trans {c d e : Cell} (h : c.SpadOnly d) (h' : d.SpadOnly e) : c.SpadOnly e := by
  obtain ⟨_, _, _, rfl⟩ := h
  obtain ⟨_, _, _, rfl⟩ := h'
  exact ⟨_, _, _, rfl⟩

theorem State.restoreCell_restored (s : State) (c image range : Nat) (cov : List (Nat × Nat × Nat)) (bad : List Nat) :
    ((s.restoreCell c image range cov bad false).cell c).Restored s image := by
  unfold State.restoreCell
  extract_lets rd words lo hi t t1 p t2 t3 p1 p2 zero slot
  have h2 : t1.SpadOnly t2 := by
    refine foldl_rel (r := Cell.SpadOnly) .refl .trans (fun a k => ?_) _ _
    split
    · exact ⟨_, _, _, rfl⟩
    · exact .refl a
  have h3 : t2.SpadOnly t3 := by
    refine foldl_rel (r := Cell.SpadOnly) .refl .trans (fun a k => ?_) _ _
    split
    · dsimp only
      split
      · split
        · exact ⟨_, _, _, rfl⟩
        · exact ⟨_, _, _, rfl⟩
      · split
        · exact ⟨_, _, _, rfl⟩
        · exact ⟨_, _, _, rfl⟩
    · exact .refl a
  obtain ⟨spad, tags, badWords, hspad⟩ := h2.trans h3
  clear_value t3
  subst hspad
  rw [if_neg (by decide), State.setCell_cell_same]
  refine ⟨fun k hk => ?_, fun k hk => ?_, fun k hk => ?_, fun k hk => ?_, rfl, rfl, rfl, rfl, fun k hk => ?_⟩
  · exact (Map.get_foldl_set (fun k => BitVec.ofNat 32 (rd (0 + 4 * k) 4)) hk []).trans (by rw [Nat.zero_add])
  · exact (Map.get_foldl_set (fun k => BitVec.ofNat 32 (rd (64 + 4 * k) 4)) hk []).trans (by rw [Nat.add_assoc])
  · exact (Map.get_foldl_set (fun k => BitVec.ofNat 32 (rd (192 + 4 * k) 4)) hk []).trans (by rw [Nat.add_assoc])
  · rw [Nat.add_assoc]
    exact foldl_range_reads (fun q : Plane => (q.handle k).cur) hk rfl (fun q _ => q.setCur_cur_same k _ (s.memRead_lt _ 2))
      fun q m hne => q.setCur_cur_other hne _
  · have hslot := Map.get_foldl_put (d := SlotState.zero) slot hk
    rw [Cell.slot, hslot, Nat.add_assoc, Nat.add_assoc]
    exact ⟨rfl, congrArg (fun a => BitVec.ofNat 32 (s.memRead (image + a) 4)) (by omega)⟩

theorem State.restoreCell_onlyCells (s : State) (c image range : Nat) (cov : List (Nat × Nat × Nat)) (bad : List Nat) (swapped : Bool) :
    s.OnlyCells (s.restoreCell c image range cov bad swapped) := by
  unfold State.restoreCell
  extract_lets rd words lo hi t t1 p t2 t3
  split
  · exact ⟨_, rfl⟩
  · exact ⟨_, rfl⟩

theorem State.restoreCell_cell_other (s : State) {c k : Nat} (h : k ≠ c) (image range : Nat) (cov : List (Nat × Nat × Nat)) (bad : List Nat)
    (swapped : Bool) : (s.restoreCell c image range cov bad swapped).cell k = s.cell k := by
  unfold State.restoreCell
  extract_lets rd words lo hi t t1 p t2 t3
  split
  · exact State.setCell_cell_other _ _ _ _ h
  · exact State.setCell_cell_other _ _ _ _ h

theorem State.OnlyCells.mem {s t : State} (h : s.OnlyCells t) : t.mem = s.mem := by
  obtain ⟨_, rfl⟩ := h
  rfl

theorem State.OnlyCells.dev {s t : State} (h : s.OnlyCells t) : t.dev = s.dev := by
  obtain ⟨_, rfl⟩ := h
  rfl

theorem Cell.Restored.congr {s t : State} {image : Nat} {c : Cell} (hm : t.mem = s.mem) (h : c.Restored t image) : c.Restored s image := by
  have hread (a n : Nat) : t.memRead a n = s.memRead a n := State.memRead_mem_congr hm a n
  obtain ⟨hreg, hacc0, hacc1, hcur, hfpstat, hptr, htrig, hcycle, hslot⟩ := h
  simp only [hread] at hreg hacc0 hacc1 hcur hfpstat hptr htrig hcycle hslot
  exact ⟨hreg, hacc0, hacc1, hcur, hfpstat, hptr, htrig, hcycle, hslot⟩

theorem Cell.Restored.withRoutes {s : State} {image : Nat} {c : Cell} (h : c.Restored s image) (routes : Map RouteState) :
    ({ c with routes := routes } : Cell).Restored s image :=
  ⟨h.reg, h.acc0, h.acc1, h.cur, h.fpstat, h.ptr, h.trig, h.cycleSaved, h.slot⟩

theorem Cell.putDeps_routes (c : Cell) (l : List (Nat × List Nat)) : ∃ routes, c.putDeps l = { c with routes := routes } := by
  unfold Cell.putDeps
  exact List.foldlRecOn l _ (motive := fun a : Cell => ∃ routes, a = { c with routes := routes }) ⟨_, rfl⟩ fun a ha e _ => by
    obtain ⟨_, rfl⟩ := ha
    exact ⟨_, rfl⟩

/-- The cells of a frame's patch, restored one after another from the images of the frame at an address: the state, the number of cells done, and
where the next one's range lies. -/
def State.restoreCells (s : State) (f : Frame) (pa : Nat) (l : List Nat) (n range : Nat) : State × Nat × Nat :=
  l.foldl (fun (a : State × Nat × Nat) c =>
    let image := pa + 256 + 1024 * a.2.1
    (a.1.restoreCell c image a.2.2 (f.covers.getD a.2.1 []) (f.bad.getD a.2.1 []) false, a.2.1 + 1,
      a.2.2 + rangeBytes (a.1.memRead (image + 1008) 2, a.1.memRead (image + 1010) 2))) (s, n, range)

theorem State.restoreCells_onlyCells (s : State) (f : Frame) (pa : Nat) (l : List Nat) (n range : Nat) :
    s.OnlyCells (s.restoreCells f pa l n range).1 := by
  induction l generalizing s n range with
  | nil => exact .refl s
  | cons c l ih => exact (s.restoreCell_onlyCells _ _ _ _ _ _).trans (ih _ _ _)

theorem State.restoreCells_cell_other (s : State) (f : Frame) (pa : Nat) {l : List Nat} {k : Nat} (hk : k ∉ l) (n range : Nat) :
    (s.restoreCells f pa l n range).1.cell k = s.cell k := by
  induction l generalizing s n range with
  | nil => rfl
  | cons c l ih =>
    rw [List.mem_cons, not_or] at hk
    exact (ih _ hk.2 _ _).trans (s.restoreCell_cell_other hk.1 _ _ _ _ _)

/-- Each cell of a patch stands as its image has it. -/
theorem State.restoreCells_restored (s : State) (f : Frame) (pa : Nat) {l : List Nat} (hl : l.Nodup) {m c : Nat} (hm : l[m]? = some c) (n range : Nat) :
    ((s.restoreCells f pa l n range).1.cell c).Restored s (pa + 256 + 1024 * (n + m)) := by
  induction l generalizing s m n range with
  | nil => cases hm
  | cons b l ih =>
    rw [List.nodup_cons] at hl
    cases m with
    | zero =>
      obtain rfl : b = c := Option.some.inj hm
      have hother := State.restoreCells_cell_other (s.restoreCell b (pa + 256 + 1024 * n) range (f.covers.getD n []) (f.bad.getD n []) false)
        f pa hl.1 (n + 1) (range + rangeBytes (s.memRead (pa + 256 + 1024 * n + 1008) 2, s.memRead (pa + 256 + 1024 * n + 1010) 2))
      exact hother ▸ s.restoreCell_restored b (pa + 256 + 1024 * n) range _ _
    | succ m =>
      have hrest := ih (s.restoreCell b (pa + 256 + 1024 * n) range (f.covers.getD n []) (f.bad.getD n []) false) hl.2 hm (n + 1)
        (range + rangeBytes (s.memRead (pa + 256 + 1024 * n + 1008) 2, s.memRead (pa + 256 + 1024 * n + 1010) 2))
      rw [show n + (m + 1) = n + 1 + m by omega]
      exact hrest.congr (s.restoreCell_onlyCells _ _ _ _ _ _).mem

/-! An instance restored. -/

/-- The cells of an instance with their state from its frame, what their held tokens depend on put back (R143, R172). -/
def State.restoredCells (s : State) (i : Inst) (f : Frame) : State :=
  (i.cells.zipIdx).foldl (fun (a : State) e => a.updCell e.1 (fun c => c.putDeps (f.deps.getD e.2 [])))
    (s.restoreCells f ((s.dieAt f.die).ctxPa f.idx) i.cells 0 f.rangeAt).1

theorem State.restoredCells_dev (s : State) (i : Inst) (f : Frame) : (s.restoredCells i f).dev = s.dev :=
  State.OnlyCells.dev ((s.restoreCells_onlyCells f ((s.dieAt f.die).ctxPa f.idx) i.cells 0 f.rangeAt).trans
    (State.foldl_updCell_onlyCells Prod.fst (fun e c => c.putDeps (f.deps.getD e.2 [])) i.cells.zipIdx _))

theorem State.restoredCells_restored (s : State) {i : Inst} (f : Frame) (hcells : i.cells.Nodup) {n c : Nat} (hn : i.cells[n]? = some c) :
    ((s.restoredCells i f).cell c).Restored s ((s.dieAt f.die).ctxPa f.idx + 256 + 1024 * n) := by
  refine State.foldl_updCell_keeps Prod.fst (fun e c => c.putDeps (f.deps.getD e.2 [])) (P := fun c => c.Restored s _) (fun e x hx => ?_) _ ?_
  · obtain ⟨_, hroutes⟩ := x.putDeps_routes (f.deps.getD e.2 [])
    exact hroutes ▸ hx.withRoutes _
  · have h := s.restoreCells_restored f ((s.dieAt f.die).ctxPa f.idx) hcells hn 0 f.rangeAt
    rwa [Nat.zero_add] at h

/-- An instance restored from a frame without command saves and under its old plane has its cells' state from there, and runs again (R172). -/
theorem State.continueRestore_eq {s : State} {i : Inst} {f : Frame}
    (hplane : bitsN (s.memRead ((s.dieAt f.die).ctxPa f.idx) 256) 106 106 = 0) (hsaves : f.saves = []) : ∃ u : State,
      (∀ k, u.cell k = (s.restoredCells i f).cell k) ∧ u.dev = s.dev ∧ s.continueRestore i f = u.endRestore i := by
  unfold State.continueRestore
  extract_lets pa swapped rect s1 slateAt s2 s3 s4 s5
  have hswapped : swapped = false := beq_eq_false_iff_ne.mpr (by rw [hplane]; decide)
  clear_value swapped
  subst hswapped
  have h1 : s1 = s.restoredCells i f := rfl
  have h2 : (∀ k, s2.cell k = s1.cell k) ∧ s2.dev = s1.dev := by
    dsimp only [s2]
    split
    · refine foldl_rel (r := fun a b : State => (∀ k, b.cell k = a.cell k) ∧ b.dev = a.dev) (fun _ => ⟨fun _ => rfl, rfl⟩)
        (fun hab hbc => ⟨fun k => (hbc.1 k).trans (hab.1 k), hbc.2.trans hab.2⟩) (fun a k => ?_) _ _
      split
      · exact ⟨fun _ => rfl, rfl⟩
      · exact ⟨fun _ => rfl, rfl⟩
    · exact ⟨fun _ => rfl, rfl⟩
  have h5 : s5 = s3 := by
    dsimp only [s5, s4]
    rw [hsaves]
    rfl
  refine ⟨s5, fun k => ?_, ?_, ?_⟩
  · rw [h5, ← h1]
    exact h2.1 k
  · rw [h5]
    exact h2.2.trans (h1 ▸ s.restoredCells_dev i f)
  · rw [hsaves]
    rfl

theorem State.endRestore_inst (s : State) (i : Inst) : ∀ x ∈ (s.endRestore i).insts, x.id = i.id →
    x.restoreStep = 0 ∧ x.parked = false ∧ x.lastActive = s.dev :=
  State.updInst_holds _ _ fun _ => ⟨rfl, rfl, rfl⟩

/-- An instance whose frame has no command saves, and whose plane is its old one, is restored (R172). -/
theorem State.Places.restore_gives {s : State} {d : Nat} (h : s.Places d) {i : Inst} {f : Frame} (hready : (s.tidied d).restoreReady d = some (i, f))
    (hplane : bitsN (s.memRead ((s.dieAt f.die).ctxPa f.idx) 256) 106 106 = 0) (hsaves : f.saves = []) (hcells : i.cells.Nodup) :
    Gives (.placementStep d) s (fun t =>
      (∀ n c, i.cells[n]? = some c → (t.cell c).Restored s ((s.dieAt f.die).ctxPa f.idx + 256 + 1024 * n)) ∧
      (∀ x ∈ t.insts, x.id = i.id → x.restoreStep = 0 ∧ x.parked = false ∧ x.lastActive = s.dev) ∧ t.mem = s.mem) := by
  have htidied := s.tidied_tidied d
  rw [← htidied.ctxPa, ← htidied.memRead] at hplane
  refine ⟨_, h.restores hready, fun n c hn => ?_, ?_, ((s.tidied d).continueRestore_mem i f).trans htidied.mem⟩
  · obtain ⟨u, hcell, -, hend⟩ := State.continueRestore_eq (i := i) hplane hsaves
    have hrestored := (s.tidied d).restoredCells_restored f hcells hn
    rw [hend, ← htidied.ctxPa]
    exact (hcell c ▸ hrestored).congr htidied.mem
  · obtain ⟨u, -, hdev, hend⟩ := State.continueRestore_eq (i := i) hplane hsaves
    rw [hend, ← htidied.dev, ← hdev]
    exact u.endRestore_inst i

end Sys2Proof.Machine
end

