-- ==== Sys2Proof/Proofs/SavedGridPoints.lean ====
section
/-! A grid point saved into a frame at its drain point (R167 to R171). -/

namespace Sys2Proof.Machine
open Sys2Proof

/-! Bytes in memory. -/

theorem State.memPutList_append (s : State) (pa : Nat) (l l' : List Byte) :
    s.memPutList pa (l ++ l') = (s.memPutList pa l).memPutList (pa + l.length) l' := by
  induction l generalizing s pa with
  | nil => rfl
  | cons b l ih => rw [List.cons_append, State.memPutList, ih, State.memPutList, List.length_cons, Nat.add_comm l.length, Nat.add_assoc]

theorem State.memList_congr {s t : State} {pa n : Nat} (h : ∀ i, i < n → t.memByte (pa + i) = s.memByte (pa + i)) : t.memList pa n = s.memList pa n :=
  List.map_congr_left fun i hi => h i (List.mem_range.mp hi)

theorem State.memList_mem_congr {s t : State} (h : t.mem = s.mem) (pa n : Nat) : t.memList pa n = s.memList pa n :=
  State.memList_congr fun i _ => by rw [State.memByte, h]; rfl

/-- Bytes written behind a block leave it. -/
theorem State.memPutList_memList_below (s : State) {pa a n : Nat} (l : List Byte) (h : a + n ≤ pa) : (s.memPutList pa l).memList a n = s.memList a n :=
  State.memList_congr fun _ hi => s.memPutList_memByte_other l (.inl (by omega))

/-- Bytes written read back. -/
theorem State.memPutList_memList (s : State) (pa : Nat) (l : List Byte) : (s.memPutList pa l).memList pa l.length = l := by
  induction l generalizing s pa with
  | nil => rfl
  | cons b l ih =>
    have hfirst : ((s.memSetByte pa b).memPutList (pa + 1) l).memByte pa = b := by
      rw [State.memPutList_memByte_other _ _ (.inl (Nat.lt_succ_self pa)), State.memSetByte_memByte_same]
    have hrest : (List.range l.length).map (fun i => ((s.memSetByte pa b).memPutList (pa + 1) l).memByte (pa + (i + 1))) = l := by
      conv_rhs => rw [← ih (s.memSetByte pa b) (pa + 1)]
      exact List.map_congr_left fun i _ => by rw [Nat.add_comm i, ← Nat.add_assoc]
    rw [State.memPutList, State.memList, List.length_cons, List.range_succ_eq_map, List.map_cons, List.map_map]
    exact congrArg₂ List.cons hfirst hrest

/-- Of blocks of one size written one behind another each reads back. -/
theorem State.memPutList_flatMap_memList {β : Type} (s : State) (pa w : Nat) (f : β → List Byte) (hf : ∀ x, (f x).length = w)
    {l : List β} {n : Nat} {x : β} (hn : l[n]? = some x) : (s.memPutList pa (l.flatMap f)).memList (pa + w * n) w = f x := by
  induction l generalizing s pa n with
  | nil => cases hn
  | cons y l ih =>
    rw [List.flatMap_cons, State.memPutList_append, hf]
    cases n with
    | zero =>
      obtain rfl : y = x := Option.some.inj hn
      rw [State.memPutList_memList_below _ _ (by omega), Nat.mul_zero, Nat.add_zero, ← hf y, State.memPutList_memList]
    | succ n =>
      rw [Nat.mul_succ, Nat.add_comm (w * n), ← Nat.add_assoc]
      exact ih _ _ hn

/-! Images (R171). -/

theorem SlotState.bytes_length (t : SlotState) : t.bytes.length = 16 := by simp [SlotState.bytes]

theorem State.cellImage_length (s : State) (c : Nat) : (s.cellImage c).length = 1024 := by
  simp [State.cellImage, List.length_flatMap, SlotState.bytes_length]

theorem Inst.cells_length (i : Inst) : i.cells.length = i.w * i.h := by
  simp [Inst.cells, List.length_flatMap, Nat.mul_comm]

/-! The save of an instance. -/

/-- A frame is the one into which an instance of a state has been saved. -/
structure Frame.SaveOf (f : Frame) (s : State) (i : Inst) (idx : Nat) : Prop where
  idx : f.idx = idx
  node : f.node = i.node
  gid : f.gid = i.gid
  stage : f.stage = i.stage
  saves : f.saves = s.savesOf i
  restored : f.restored = none

/-- A state has the frame, and the instance is off the fabric; jobs and pools are as they were. -/
structure State.SavedFrom (s : State) (i : Inst) (j : Job) (r : PoolRec) (idx : Nat) (t : State) : Prop where
  frames : ∃ f : Frame, (t.dieAt i.die).frames = (s.dieAt i.die).frames ++ [f] ∧ f.SaveOf s i idx
  header : t.memList ((s.dieAt i.die).ctxPa idx) 256 = natBytes 256 (s.frameHeader i j r (s.savesOf i))
  images : ∀ n c, i.cells[n]? = some c → t.memList ((s.dieAt i.die).ctxPa idx + 256 + 1024 * n) 1024 = s.cellImage c
  insts : ∀ y ∈ t.insts, y.id = i.id → y.retired = true ∧ y.preempt = false
  pool : ∀ k, (t.dieAt k).pool = (s.dieAt k).pool
  jobs : t.jobs = s.jobs

/-- Where the ranges end, which are saved one behind another. -/
theorem rangesEnd_le {β : Type} (size : β → Nat) (l : List β) (a : List (β × Nat) × Nat) :
    a.2 ≤ (l.foldl (fun (a : List (β × Nat) × Nat) c => (a.1 ++ [(c, a.2)], a.2 + size c)) a).2 :=
  List.foldlRecOn l _ (motive := fun b : List (β × Nat) × Nat => a.2 ≤ b.2) le_rfl fun _ hb _ _ => hb.trans (Nat.le_add_right _ _)

/-- A state is as another but for memory, its history and its faulty words. -/
def State.Written (s t : State) : Prop := ∃ mem hist badMem, t = { s with mem := mem, hist := hist, badMem := badMem }

theorem State.Written.trans {s t u : State} (h : s.Written t) (h' : t.Written u) : s.Written u := by
  obtain ⟨_, _, _, rfl⟩ := h
  obtain ⟨_, _, _, rfl⟩ := h'
  exact ⟨_, _, _, rfl⟩

theorem State.memPutList_written (s : State) (pa : Nat) (l : List Byte) : s.Written (s.memPutList pa l) := by
  obtain ⟨_, _, h⟩ := State.memPutList_eq l s pa
  exact ⟨_, _, _, h⟩

theorem State.healRange_written (s : State) (pa n : Nat) : s.Written (s.healRange pa n) := by
  unfold State.healRange
  split
  · exact ⟨_, _, _, rfl⟩
  · exact ⟨_, _, _, rfl⟩

/-- A header and blocks of 1,024 bytes written one behind another, and what stands behind them: each reads back. -/
theorem State.memPutList_frame (s : State) (pa header : Nat) {β : Type} (l : List β) (image : β → List Byte) (himage : ∀ c, (image c).length = 1024)
    (rest : List Byte) : (s.memPutList pa (natBytes 256 header ++ l.flatMap image ++ rest)).memList pa 256 = natBytes 256 header ∧
      ∀ n c, l[n]? = some c → (s.memPutList pa (natBytes 256 header ++ l.flatMap image ++ rest)).memList (pa + 256 + 1024 * n) 1024 = image c := by
  rw [List.append_assoc, State.memPutList_append, natBytes_length]
  refine ⟨?_, fun n c hn => ?_⟩
  · have h := s.memPutList_memList pa (natBytes 256 header)
    rw [natBytes_length] at h
    rw [State.memPutList_memList_below _ _ le_rfl, h]
  · have hblocks : 1024 * n + 1024 ≤ (l.flatMap image).length := by
      have hlt := (List.getElem?_eq_some_iff.mp hn).1
      simp only [List.length_flatMap, himage, List.map_const', List.sum_replicate, smul_eq_mul]
      omega
    rw [State.memPutList_append, State.memPutList_memList_below _ _ (by omega)]
    exact State.memPutList_flatMap_memList _ _ _ _ himage hn

/-- What is written into a frame: its header, cells and saves, and the saved ranges; behind them, in its own place, the Slate allotment. -/
theorem State.saveInst_saved (s : State) (i : Inst) (j : Job) (r : PoolRec) (idx : Nat) : s.SavedFrom i j r idx (s.saveInst i j r idx) := by
  unfold State.saveInst
  extract_lets pa saves n cmdAt rangeAt starts body s1 s2 place s3 f s4 s5 s6 s7
  have hend : rangeAt ≤ starts.2 := rangesEnd_le (fun c => rangeBytes (s.cell c).active.savedRange) i.cells ([], rangeAt)
  have hframe : (s.memPutList pa body).memList pa 256 = natBytes 256 (s.frameHeader i j r saves) ∧
      ∀ n c, i.cells[n]? = some c → (s.memPutList pa body).memList (pa + 256 + 1024 * n) 1024 = s.cellImage c := by
    dsimp only [body]
    rw [List.append_assoc _ (saves.flatMap _)]
    exact s.memPutList_frame pa _ i.cells s.cellImage s.cellImage_length _
  clear_value body starts
  have hwritten : s.Written s2 := by
    have h1 : s.Written s1 := (s.memPutList_written pa body).trans (State.healRange_written _ _ _)
    dsimp only [s2]
    split
    · exact h1.trans (State.memPutList_written _ _ _)
    · exact h1
  have hbody (a m : Nat) (h : a + m ≤ starts.2) : s2.memList a m = (s.memPutList pa body).memList a m := by
    have h1 : s1.memList a m = (s.memPutList pa body).memList a m := State.memList_mem_congr (State.healRange_mem _ _ _) a m
    dsimp only [s2]
    split
    · rw [State.memPutList_memList_below _ _ (by omega), h1]
    · exact h1
  have h6 : s5.Recorded s6 := foldl_rel (r := State.Recorded) .refl .trans (fun _ _ => State.saveRecord_recorded _ _ _ _ _) _ _
  have h7 : s6.Recorded s7 := by
    dsimp only [s7]
    split
    · exact State.delHold_recorded _ _ _
    · exact .refl s6
  have h57 := h6.trans h7
  clear_value s7 s6 s2
  have hmem : s7.mem = s2.mem := h57.mem
  have hcount := i.cells_length
  refine ⟨⟨f, ?_, ⟨rfl, rfl, rfl, rfl, rfl, rfl⟩⟩, ?_, fun m c hm => ?_, State.updInst_holds _ _ fun _ => ⟨rfl, rfl⟩, fun k => ?_, ?_⟩
  · obtain ⟨_, _, _, rfl⟩ := hwritten
    rw [State.updInst_dieAt, h57.frames, State.updDie_dieAt_same]
    rfl
  · exact (State.memList_mem_congr hmem _ _).trans ((hbody _ _ (by omega)).trans hframe.1)
  · have hlt := (List.getElem?_eq_some_iff.mp hm).1
    exact (State.memList_mem_congr hmem _ _).trans ((hbody _ _ (by omega)).trans (hframe.2 m c hm))
  · obtain ⟨_, _, _, rfl⟩ := hwritten
    rw [State.updInst_dieAt, h57.pool]
    obtain rfl | hne := eq_or_ne k i.die
    · rw [State.updDie_dieAt_same]
      rfl
    · rw [State.updDie_dieAt_other _ _ _ _ hne]
      rfl
  · obtain ⟨_, _, _, rfl⟩ := hwritten
    rw [State.updInst_jobs, h57.jobs]
    rfl

/-- A FACT action that ends with the save takes no part of it back (R354). -/
theorem State.SavedFrom.factEnd {s t : State} {i : Inst} {j : Job} {r : PoolRec} {idx : Nat} (h : s.SavedFrom i j r idx t) (d hid res : Nat) :
    s.SavedFrom i j r idx (t.factEnd d hid res) := by
  have hdie (k : Nat) : ((t.factEnd d hid res).dieAt k).frames = (t.dieAt k).frames ∧ ((t.factEnd d hid res).dieAt k).pool = (t.dieAt k).pool := by
    unfold State.factEnd
    obtain rfl | hne := eq_or_ne k d
    · rw [State.updDie_dieAt_same]
      split
      · exact ⟨rfl, rfl⟩
      · exact ⟨rfl, rfl⟩
    · rw [State.updDie_dieAt_other _ _ _ _ hne]
      exact ⟨rfl, rfl⟩
  refine ⟨?_, h.header, h.images, h.insts, fun k => (hdie k).2.trans (h.pool k), h.jobs⟩
  obtain ⟨f, hf, hsave⟩ := h.frames
  exact ⟨f, (hdie _).1.trans hf, hsave⟩

/-- A free value below a list's length picks one of the list. -/
theorem getD_mod_mem {l : List Nat} (hl : l ≠ []) (n : Nat) : l.getD (n % max 1 l.length) 0 ∈ l := by
  have hlen := List.length_pos_iff.mpr hl
  have hlt : n % max 1 l.length < l.length := by
    rw [Nat.max_eq_right hlen]
    exact Nat.mod_lt _ hlen
  rw [List.getD_eq_getElem l 0 hlt]
  exact List.getElem_mem hlt

theorem State.SavedFrom.of_draws {s t : State} {i : Inst} {j : Job} {r : PoolRec} {idx n : Nat}
    (h : ({ s with draws := n } : State).SavedFrom i j r idx t) : s.SavedFrom i j r idx t := by
  refine ⟨?_, h.header, h.images, h.insts, h.pool, h.jobs⟩
  obtain ⟨f, hf, hsave⟩ := h.frames
  exact ⟨f, hf, hsave.idx, hsave.node, hsave.gid, hsave.stage, hsave.saves, hsave.restored⟩

/-- A record whose grid point of one stage has gone into a frame is back in the pool (R168). -/
def PoolRec.saved (gid dev : Nat) (r : PoolRec) : PoolRec := { r with live := r.live - 1, frames := gid :: r.frames, since := dev, inPool := true }

/-- A job counts a pre-emption. -/
def Job.preempted (j : Job) : Job := { j with npre := j.npre + 1 }

theorem State.updPool_frames (s : State) (d key : Nat) (f : PoolRec → PoolRec) (k : Nat) :
    ((s.updPool d key f).dieAt k).frames = (s.dieAt k).frames := by
  by_cases hk : k = d
  · subst hk
    rw [State.updPool, State.updDie_dieAt_same]
  · rw [State.updPool, State.updDie_dieAt_other _ _ _ _ hk]

/-- A grid point of one stage goes into one of the free frames, and its record back to the pool (R168). -/
theorem State.saveGridPoint_one {s : State} {i : Inst} (j : Job) (r : PoolRec) (hfree : (s.dieAt i.die).freeFrames ≠ []) :
    ∃ idx ∈ (s.dieAt i.die).freeFrames, ∃ t : State, s.SavedFrom i j r idx t ∧ s.saveGridPoint [i] j r =
      (t.updPool r.die r.key (PoolRec.saved i.gid s.dev)).updJob j.key Job.preempted := by
  refine ⟨_, getD_mod_mem hfree (Config.freeNat s.draws), ?_⟩
  have hsaved := (State.saveInst_saved { s with draws := s.draws + 1 } i j r
    ((s.dieAt i.die).freeFrames.getD (Config.freeNat s.draws % max 1 (s.dieAt i.die).freeFrames.length) 0)).of_draws
  unfold State.saveGridPoint
  extract_lets s1 gid s2
  refine ⟨s1, ?_, rfl⟩
  dsimp only [s1, List.foldl_cons, List.foldl_nil]
  split
  · split
    · exact hsaved.factEnd _ _ _
    · exact hsaved
  · exact hsaved

/-! The drain point of a pre-emption. -/

/-- Withdrawing an instance's waits changes requests and the instance only (R169). -/
theorem State.withdrawWaits_rest (s : State) (id : Nat) : ∃ insts reqs, s.withdrawWaits id = { s with insts := insts, reqs := reqs } := by
  unfold State.withdrawWaits
  extract_lets waits
  split
  · exact ⟨_, _, rfl⟩
  · exact ⟨_, _, rfl⟩

/-- A state is as another but for its cells and sectors. -/
def State.OnlyUnits (s t : State) : Prop := ∃ cells sectors, t = { s with cells := cells, sectors := sectors }

theorem State.OnlyUnits.trans {s t u : State} (h : s.OnlyUnits t) (h' : t.OnlyUnits u) : s.OnlyUnits u := by
  obtain ⟨_, _, rfl⟩ := h
  obtain ⟨_, _, rfl⟩ := h'
  exact ⟨_, _, rfl⟩

theorem State.updSector_onlyUnits (s : State) (k : Nat) (f : Sector → Sector) : s.OnlyUnits (s.updSector k f) := ⟨_, _, rfl⟩

theorem State.stale_onlyUnits (s : State) (k x0 y0 w h : Nat) : s.OnlyUnits (s.stale k x0 y0 w h) := by
  obtain ⟨_, hcells⟩ := State.foldl_updCell_onlyCells id (fun _ t => { t with shadowState := .stale }) (patchCells k x0 y0 w h) s
  exact ⟨_, _, hcells⟩

/-- Cutting an instance's streams changes cells and loaders only (R79). -/
theorem State.cutLoads_onlyUnits (s : State) (i : Inst) : s.OnlyUnits (s.cutLoads i) := by
  refine .trans ?_ (State.updSector_onlyUnits _ _ _)
  unfold State.cutStream
  extract_lets l unsealed mine s1
  have h1 : s.OnlyUnits s1 := by
    dsimp only [s1]
    split
    · exact (s.stale_onlyUnits _ _ _ _ _).trans (State.updSector_onlyUnits _ _ _)
    · exact ⟨_, _, rfl⟩
  split
  · exact h1
  · split
    · exact h1.trans ((State.stale_onlyUnits _ _ _ _ _ _).trans (State.updSector_onlyUnits _ _ _))
    · exact h1

/-- An instance of one stage at its drain point, which a pre-emption asks to be saved: x, once its waits are withdrawn. -/
structure State.SaveDue (s : State) (id : Nat) (i x : Inst) (j : Job) (r : PoolRec) : Prop where
  found : s.inst id = some i
  resident : i.retired = false
  kept : i.hold = none
  runs : s.sectorRuns i.sector = true
  asked : i.preempt = true
  withdrawn : (s.withdrawWaits id).inst id = some x
  die : x.die = r.die
  alone : (s.withdrawWaits id).stagesOf x.node x.gid = [x]
  job : (s.withdrawWaits id).job x.job = some j
  record : (s.withdrawWaits id).poolRec x.die x.node = some r
  ready : (s.withdrawWaits id).mayBeSaved x = true
  free : ((s.withdrawWaits id).dieAt x.die).freeFrames ≠ []

namespace State.SaveDue
variable {s : State} {id : Nat} {i x : Inst} {j : Job} {r : PoolRec} (h : s.SaveDue id i x j r)
include h

theorem exec_eq : exec (.drainPointReached id) s = .next (((s.withdrawWaits id).cutLoads x).saveGridPoint [x] j r) := by
  have hexec : exec (.drainPointReached id) s = execDrainPointReached id s := rfl
  have hready := h.ready
  simp only [State.mayBeSaved, Bool.and_eq_true] at hready
  obtain ⟨⟨⟨⟨⟨⟨hpreempt, -⟩, -⟩, hquiet⟩, -⟩, -⟩, -⟩ := hready
  have hroom : 1 ≤ ((s.withdrawWaits id).dieAt x.die).freeFrames.length := List.length_pos_iff.mpr h.free
  rw [hexec, execDrainPointReached, h.found]
  simp [h.resident, h.kept, h.runs, h.asked, Inst.draining, h.withdrawn, hquiet, hpreempt, h.alone, h.job, h.record, h.ready, hroom]

/-- The grid point is saved into a free frame, its instance has gone, and its record is back in the pool (R168). -/
theorem gives : Gives (.drainPointReached id) s (fun t =>
    (∃ f, (t.dieAt x.die).frames = (s.dieAt x.die).frames ++ [f] ∧ f.idx ∈ (s.dieAt x.die).freeFrames ∧
      f.node = x.node ∧ f.gid = x.gid ∧ f.stage = x.stage ∧ f.saves = ((s.withdrawWaits id).cutLoads x).savesOf x ∧ f.restored = none ∧
      t.memList ((s.dieAt x.die).ctxPa f.idx) 256 =
        natBytes 256 (((s.withdrawWaits id).cutLoads x).frameHeader x j r (((s.withdrawWaits id).cutLoads x).savesOf x)) ∧
      ∀ n c, x.cells[n]? = some c → t.memList ((s.dieAt x.die).ctxPa f.idx + 256 + 1024 * n) 1024 = ((s.withdrawWaits id).cutLoads x).cellImage c) ∧
    (∀ y ∈ t.insts, y.id = id → y.retired = true ∧ y.preempt = false) ∧
    (∃ q, t.poolRec x.die x.node = some q ∧ q.inPool = true ∧ q.frames = x.gid :: r.frames ∧ q.live = r.live - 1) ∧
    (∃ k, t.job x.job = some k ∧ k.npre = j.npre + 1)) := by
  obtain ⟨_, _, hwithdrawn⟩ := s.withdrawWaits_rest id
  obtain ⟨_, _, hcut⟩ := (s.withdrawWaits id).cutLoads_onlyUnits x
  have hdie : ((s.withdrawWaits id).cutLoads x).die = s.die := by rw [hcut, hwithdrawn]
  have hdieAt (k : Nat) : ((s.withdrawWaits id).cutLoads x).dieAt k = s.dieAt k := congrArg (fun m => Map.get Die.reset m k) hdie
  have hfree : (((s.withdrawWaits id).cutLoads x).dieAt x.die).freeFrames ≠ [] := by
    have hfree := h.free
    rw [hwithdrawn] at hfree
    rw [hdieAt]
    exact hfree
  have hxid : x.id = id := by simpa using List.find?_some h.withdrawn
  obtain ⟨idx, hidx, t, hsaved, ht⟩ := State.saveGridPoint_one j r hfree
  obtain ⟨f, hf, hsave⟩ := hsaved.frames
  rw [hdieAt] at hidx hf
  have hheader := hsaved.header
  have himages := hsaved.images
  rw [hdieAt] at hheader himages
  have hrec : t.poolRec x.die x.node = some r := by
    have hpool : (t.dieAt x.die).pool = ((s.withdrawWaits id).dieAt x.die).pool := by rw [hsaved.pool, hdieAt, hwithdrawn]; rfl
    exact (State.poolRec_congr hpool x.node).trans h.record
  have hjob : t.job x.job = some j := by
    have hjobs : t.jobs = (s.withdrawWaits id).jobs := by rw [hsaved.jobs, hcut]
    rw [State.job, hjobs]
    exact h.job
  have hpooled {f : PoolRec → PoolRec} (hf : ∀ q, (f q).key = q.key) : (t.updPool r.die r.key f).poolRec x.die x.node = some (f r) := by
    rw [← h.die, State.poolRec_key hrec]
    exact State.updPool_poolRec hf hrec
  have hcounted {f : Job → Job} (hf : ∀ q, (f q).key = q.key) : (t.updJob j.key f).job x.job = some (f j) := by
    rw [State.job_key hjob]
    exact State.updJob_job hf hjob
  refine ⟨_, h.exec_eq.trans (congrArg _ ht), ⟨f, ?_, hsave.idx ▸ hidx, hsave.node, hsave.gid, hsave.stage, hsave.saves, hsave.restored, ?_, ?_⟩, ?_,
    ⟨_, hpooled fun _ => rfl, rfl, rfl, rfl⟩, ⟨_, hcounted fun _ => rfl, rfl⟩⟩
  · exact (State.updPool_frames _ _ _ _ _).trans hf
  · rw [hsave.idx]
    exact hheader
  · rw [hsave.idx]
    exact himages
  · rw [← hxid]
    exact hsaved.insts

end State.SaveDue

end Sys2Proof.Machine
end

