-- ==== Sys2Proof/Proofs/DrainPoints.lean ====
section
/-! Drain points without a pre-emption, swaps, and the clearing of patches and Slate allotments (R59, R60, R76, R40). -/

namespace Sys2Proof.Machine
open Sys2Proof

/-! Drain points (R59, R60). -/

section
variable {s : State} {id : Nat} {i : Inst} (hinst : s.inst id = some i) (hresident : i.retired = false) (hkept : i.hold = none)
  (hruns : s.sectorRuns i.sector = true) (hstays : i.preempt = false) (hquiet : s.quiet i = true)
include hinst hresident hkept hruns hstays hquiet

/-- A `yield` with nothing to yield to ends (R311). -/
theorem exec_drainPointReached_yield (hyield : i.yielding = true) (hnone : s.yieldsTo i = false) :
    exec (.drainPointReached id) s = .next (s.updInst id (fun x => { x with yielding := false, lastActive := s.dev })) := by
  have hexec : exec (.drainPointReached id) s = execDrainPointReached id s := rfl
  rw [hexec, execDrainPointReached, hinst]
  simp [hresident, hkept, hruns, hstays, hquiet, hyield, hnone, Inst.draining, hinst]

variable (hswap : i.swap.isSome = true) (hstill : i.yielding = false)
include hswap hstill

theorem exec_drainPointReached_swap (hagree : s.swapConflict i = none) (hnew : i.atPoint = none) :
    exec (.drainPointReached id) s = .next (s.updInst id (fun x => { x with atPoint := some s.dev })) := by
  have hexec : exec (.drainPointReached id) s = execDrainPointReached id s := rfl
  rw [hexec, execDrainPointReached, hinst]
  simp [hresident, hkept, hruns, hstays, hquiet, hswap, hstill, hagree, hnew, Inst.draining, hinst]

theorem exec_drainPointReached_conflict {u v : BitVec 4} (hconflict : s.swapConflict i = some (u, v)) :
    exec (.drainPointReached id) s = .next (s.takeFault i .swap
      { (s.baseRec i.die (some i.job) 0x0130 0 7).atCell (cellInSector i.sector i.x0 i.y0) 0 with
        detail0 := BitVec.ofNat 64 (u.toNat * 2 ^ 32 + v.toNat * 2 ^ 36) } []) := by
  have hexec : exec (.drainPointReached id) s = execDrainPointReached id s := rfl
  rw [hexec, execDrainPointReached, hinst]
  simp [hresident, hkept, hruns, hstays, hquiet, hswap, hstill, hconflict, Inst.draining, hinst]

theorem exec_planeFlip_sealed {v : BitVec 4} (hsealed : s.allSealed i.sector i.x0 i.y0 i.w i.h = some v) (hagree : s.swapConflict i = none) :
    exec (.planeFlip id) s = .next (s.flipInst i) := by
  have hexec : exec (.planeFlip id) s = execPlaneFlip id s := rfl
  have hasked : i.swap.isNone = false := by simpa [← Option.not_isSome] using hswap
  rw [hexec, execPlaneFlip, hinst]
  simp only [hresident, hkept, hruns, hstays, hquiet, hasked, hstill, hsealed, hagree]
  rfl

end

theorem State.flipInst_insts (s : State) (i : Inst) : ∀ j ∈ (s.flipInst i).insts, j.id = i.id → j.swap = none ∧ j.atPoint = none :=
  State.updInst_holds _ _ fun _ => ⟨rfl, rfl⟩

/-! Swap tokens (R75). -/

theorem exec_swapTokenArrival_resident {s : State} {k : Nat} {x : SwapToken} {rest : List SwapToken} {i : Inst}
    (htokens : (s.sector k).swapTokens = x :: rest) (hruns : s.sectorRuns k = true)
    (hinst : s.insts.find? (fun i => !i.retired && i.restoreStep != 1 && i.rect == (k, x.x0, x.y0, x.w, x.h)) = some i) :
    exec (.swapTokenArrival k) s = .next ((s.updSector k (fun y => { y with swapTokens := rest })).requestSwap i.id (.token x.v)) := by
  have hexec : exec (.swapTokenArrival k) s = execSwapTokenArrival k s := rfl
  have hinst' : (s.updSector k (fun y => { y with swapTokens := rest })).insts.find?
      (fun i => !i.retired && i.restoreStep != 1 && i.rect == (k, x.x0, x.y0, x.w, x.h)) = some i := hinst
  rw [hexec, execSwapTokenArrival, htokens]
  simp only [hruns, Bool.not_true, Bool.false_eq_true, ↓reduceIte]
  rw [State.swapArrives, hinst']

/-! Clearing (R40). -/

/-- A cell whose patch is cleared. -/
def Cell.cleared (c : Cell) : Cell := { c.drop with spad := [], hist := [], tags := [], badWords := [] }

/-- Nothing of an instance is in a cell any more: its scratchpad and tags are in their reset state, and no firing is in flight (R40). -/
structure Cell.Empty (c : Cell) : Prop where
  spad : c.spad = []
  tags : c.tags = []
  flight : c.flight = []

theorem Cell.cleared_empty {c : Cell} (h : c.flight = []) : c.cleared.Empty := ⟨rfl, rfl, by simp [Cell.cleared, Cell.drop, h]⟩

/-- A state after a patch has been cleared: the channels of its grid point may have been released, and the empty cells are as empty. -/
structure State.Released (s t : State) : Prop where
  insts : ∀ id, (∀ j ∈ s.insts, j.id ≠ id) → ∀ j ∈ t.insts, j.id ≠ id
  mem : t.mem = s.mem
  cell : ∀ c, (s.cell c).Empty → (t.cell c).Empty

theorem State.Released.of_updInst (s : State) (id : Nat) {f : Inst → Inst} (hf : ∀ x, (f x).id = x.id) : s.Released (s.updInst id f) := by
  refine ⟨fun k hk j hj => ?_, rfl, fun _ h => h⟩
  obtain ⟨x, hx, rfl⟩ := List.mem_map.mp hj
  split
  · rw [hf]
    exact hk x hx
  · exact hk x hx

theorem State.Released.refl (s : State) : s.Released s := ⟨fun _ h => h, rfl, fun _ h => h⟩

theorem State.Released.trans {s t u : State} (h : s.Released t) (h' : t.Released u) : s.Released u :=
  ⟨fun id hid => h'.insts id (h.insts id hid), h'.mem.trans h.mem, fun c hc => h'.cell c (h.cell c hc)⟩

theorem State.Released.of_updCell (s : State) (c : Nat) {f : Cell → Cell} (hf : ∀ x, x.Empty → (f x).Empty) : s.Released (s.updCell c f) := by
  refine ⟨fun _ h => h, rfl, fun k hk => ?_⟩
  by_cases hkc : k = c
  · subst hkc
    rw [State.updCell_cell_same]
    exact hf _ hk
  · rwa [State.updCell_cell_other _ _ _ _ hkc]

/-- Releasing a channel empties FIFOs and frees transit entries only (R154). -/
theorem State.unclaim_released (s : State) (ch : LaidChan) : s.Released (s.unclaim ch) :=
  foldl_rel (r := State.Released) .refl .trans (fun _ _ => .of_updCell _ _ fun x hx => by
    split <;> split <;> exact ⟨hx.spad, hx.tags, hx.flight⟩) _ _

/-- A state with the patch of an instance cleared and the instance gone. -/
def State.patchCleared (s : State) (i : Inst) : State :=
  let s1 := i.cells.foldl (fun (a : State) c => a.updCell c Cell.cleared) s
  { s1 with insts := s1.insts.filter (fun x => x.id != i.id) }

theorem State.patchCleared_insts (s : State) (i : Inst) : ∀ j ∈ (s.patchCleared i).insts, j.id ≠ i.id := by
  intro j hj
  simpa using (List.mem_filter.mp hj).2

theorem State.patchCleared_mem (s : State) (i : Inst) : (s.patchCleared i).mem = s.mem :=
  (State.foldl_updCell_onlyCells id (fun _ => Cell.cleared) i.cells s).mem

theorem State.patchCleared_cell (s : State) {i : Inst} (hflight : ∀ c ∈ i.cells, (s.cell c).flight = []) :
    ∀ c ∈ i.cells, ((s.patchCleared i).cell c).Empty := fun c hc =>
  State.foldl_updCell_holds id (fun _ => Cell.cleared) (P := Cell.Empty) (Q := fun x => x.flight = []) (fun _ _ => Cell.cleared_empty)
    (fun _ h => h.flight) hc (hflight c hc)

/-- A retired instance's patch is cleared once nothing reaches it any more, and the channels of its grid point are kept for its other stages
or released (R40, R154). -/
theorem exec_patchClear_cleared {s : State} {id : Nat} {i : Inst} (hfrozen : s.frozen = false) (hinst : s.inst id = some i) (hretired : i.retired = true)
    (hcmds : ∀ c ∈ s.cmds, c.inst = some id → c.inPatch = false) (hreqs : ∀ r ∈ s.reqs, r.inst ≠ id)
    (hproducts : ∀ p ∈ s.products, p.inst ≠ id) (hflight : ∀ c ∈ i.cells, (s.cell c).flight = []) :
    ∃ t, exec (.patchClear id) s = .next t ∧ (s.patchCleared i).Released t := by
  have hexec : exec (.patchClear id) s = execPatchClear id s := rfl
  have hid : i.id = id := by simpa using List.find?_some hinst
  have hfree : (!i.retired || s.frozen || s.cmds.any (fun c => c.inst == some id && c.inPatch) || s.reqs.any (fun r => r.inst == id) ||
      s.products.any (fun p => p.inst == id) || i.cells.any (fun c => !(s.cell c).flight.isEmpty)) = false := by
    simpa [hretired, hfrozen] using ⟨⟨⟨hcmds, hreqs⟩, hproducts⟩, hflight⟩
  rw [hexec, execPatchClear, hinst]
  simp only [hfree, Bool.false_eq_true, ↓reduceIte]
  subst hid
  split
  · exact ⟨_, rfl, .of_updInst _ _ fun _ => rfl⟩
  · exact ⟨_, rfl, foldl_rel (r := State.Released) .refl .trans State.unclaim_released _ _⟩

/-- A Slate allotment that nothing owns or reaches any more returns to its reset state (R40). -/
theorem exec_slateAllotmentReset_unowned {s : State} {a k base len : Nat} {t0 : Sector} (hfrozen : s.frozen = false)
    (hsector : s.sectors.find? (fun e => e.2.slateAllot.any (fun x => x.1 == a)) = some (k, t0))
    (hallot : t0.slateAllot.find? (fun x => x.1 == a) = some (a, base, len)) (hinsts : ∀ i ∈ s.insts, i.id = a → i.retired = true)
    (hpool : ∀ r ∈ (s.dieAt (dieOfSector k)).pool, r.key = a → r.running = false ∨ r.engineDone = true ∨ r.completed = true)
    (hgve : ∀ g ∈ t0.gve, g.slateBase ≠ base) :
    exec (.slateAllotmentReset a) s = .next (s.updSector k (fun x => { x with
      slate := x.slate.filter (fun e => !(decide (base ≤ e.1) && decide (e.1 < base + len)))
      slateAllot := x.slateAllot.filter (fun e => e.1 != a) })) := by
  have hexec : exec (.slateAllotmentReset a) s = execSlateAllotmentReset a s := rfl
  have hunowned : s.insts.any (fun i => i.id == a && !i.retired) = false := by simpa using hinsts
  have hdone : (s.dieAt (dieOfSector k)).pool.any (fun r => r.key == a && r.running && !r.engineDone && !r.completed) = false := by
    rw [List.any_eq_false]
    intro r hr
    by_cases hkey : r.key = a
    · rcases hpool r hr hkey with h | h | h <;> simp [h]
    · simp [hkey]
  have hidle : t0.gve.any (fun g => g.slateBase == base) = false := by simpa using hgve
  rw [hexec, execSlateAllotmentReset, hsector]
  simp [hfrozen, hallot, hunowned, hdone, hidle]

end Sys2Proof.Machine
end

