-- ==== Sys2Proof/Proofs/PlacementEvents.lean ====
section
/-! Placement, drain points, flips and clearing complete (O57). -/

namespace Sys2Proof.Machine
open Sys2Proof

/-- With nothing resident, a placement step considers the candidates, and the first is the record r (R160). -/
theorem State.Places.firstCandidate {s : State} {r : PoolRec} {rest : List PoolRec} {j : Job} (h : s.Places r.die) (hnone : s.insts = [])
    (hfirst : ((s.tidied r.die).findAnchors r.die).candidates r.die = r :: rest) (hjob : ((s.tidied r.die).findAnchors r.die).job r.job = some j)
    (hrec : ((s.tidied r.die).findAnchors r.die).poolRec r.die r.key = some r) :
    s.FirstCandidate ((s.tidied r.die).findAnchors r.die) r rest j := by
  have htidied := (s.tidied_tidied r.die).trans (State.findAnchors_tidied _ r.die)
  exact ⟨hfirst ▸ h.considers hnone, htidied, htidied.insts.trans hnone, hjob, hrec⟩

end Sys2Proof.Machine

namespace Sys2Proof
open Machine

/-- Settles O57, form by form: the act that is due for a placement step, the drain point with and without a pre-emption, the flip, the swap
token, and the two forms of clearing. -/
theorem placementEventsComplete : Obligations.PlacementEventsComplete := by
  unfold Obligations.PlacementEventsComplete
  intro s hlive
  refine ⟨fun d hdie hsending hdoorbell => ?_, ?_, fun id i hinst hresident hkept hruns hstays hquiet => ?_, ?_, ?_, ?_⟩
  · have h : s.Places d := ⟨hlive, hdie, hsending, hdoorbell⟩
    refine ⟨fun r rest j hnone hfirst hjob hrec hrdie => ?_, ?_, ?_⟩
    · subst hrdie
      have hc := h.firstCandidate hnone hfirst hjob hrec
      refine ⟨fun hkind k hk hmode hopen hcool hroom => ?_, fun hkind hidle k hk hmode hopen hcool => ?_, hc.pilot_gives, hc.anchorGone_gives,
        fun spots w hkind hanchors hspots hplace => hc.fabric_gives hkind hanchors hspots hplace⟩
      · exact hc.grammar_gives hkind hk (by
          rw [State.takesGrammar, Bool.and_eq_true, decide_eq_true_eq]
          exact ⟨State.serves_eq_true hmode hopen hcool, hroom⟩)
      · exact hc.copy_gives hkind hidle hk (State.serves_eq_true hmode hopen hcool)
    · exact fun i hone hidie hresident hstep hloads hframe hruns => h.streamsIn_gives hone hidie hresident hstep hloads hframe hruns
    · intro i f hready pa hplane hsaves hcells
      obtain ⟨t, hstep, hcell, hinsts, hmem⟩ := h.restore_gives hready hplane hsaves hcells
      refine ⟨t, hstep, fun n c hn => ?_, hinsts, hmem⟩
      have hc := hcell n c hn
      exact ⟨hc.reg, fun k hk => ⟨hc.acc0 k hk, hc.acc1 k hk, hc.cur k hk⟩, hc.fpstat, hc.ptr, hc.trig, hc.cycleSaved, hc.slot⟩
  · intro id i hinst hresident hkept hruns hasked s1 x j r hwithdrawn hdie halone hjob hrec hready hfree
    exact State.SaveDue.gives ⟨hinst, hresident, hkept, hruns, hasked, hwithdrawn, hdie, halone, hjob, hrec, hready, hfree⟩
  · have hid : i.id = id := by simpa using List.find?_some hinst
    refine ⟨fun hyield hnone => ⟨_, exec_drainPointReached_yield hinst hresident hkept hruns hstays hquiet hyield hnone,
      State.updInst_holds _ _ fun _ => ⟨rfl, rfl⟩, rfl, rfl⟩,
      fun hswap hstill => ⟨fun hagree hnew => ?_, fun u v hconflict => ?_, fun v hsealed hagree => ?_⟩⟩
    · exact ⟨_, exec_drainPointReached_swap hinst hresident hkept hruns hstays hquiet hswap hstill hagree hnew,
        State.updInst_holds _ _ fun _ => rfl, rfl⟩
    · exact ⟨_, exec_drainPointReached_conflict hinst hresident hkept hruns hstays hquiet hswap hstill hconflict,
        s.takeFault_heldFor .swap [] hkept rfl rfl, s.takeFault_cells _ _ _ _⟩
    · exact ⟨_, exec_planeFlip_sealed hinst hresident hkept hruns hstays hquiet hswap hstill hsealed hagree, rfl,
        hid ▸ s.flipInst_insts i, s.flipInst_mem i⟩
  · intro k x rest i htokens hruns hinst
    refine ⟨_, exec_swapTokenArrival_resident htokens hruns hinst, ?_, rfl, State.requestSwap_swap _ _ _⟩
    exact congrArg Sector.swapTokens (State.updSector_sector_same s k (fun y => { y with swapTokens := rest }))
  · intro id i hinst hretired hcmds hreqs hproducts hflight
    have hid : i.id = id := by simpa using List.find?_some hinst
    obtain ⟨t, hstep, hreleased⟩ := exec_patchClear_cleared hlive hinst hretired hcmds hreqs hproducts hflight
    refine ⟨t, hstep, hid ▸ hreleased.insts _ (s.patchCleared_insts i), hreleased.mem.trans (s.patchCleared_mem i), fun c hc => ?_⟩
    have hempty := hreleased.cell c (s.patchCleared_cell hflight c hc)
    exact ⟨hempty.spad, hempty.tags, hempty.flight⟩
  · intro a k t0 base len hsector hallot hinsts hpool hgve
    refine ⟨_, exec_slateAllotmentReset_unowned hlive hsector hallot hinsts hpool hgve, ?_, ?_, rfl⟩
    · rw [State.updSector_sector_same]
      intro e he
      simpa using (List.mem_filter.mp he).2
    · rw [State.updSector_sector_same]
      rintro e he ⟨hle, hlt⟩
      simpa [hle, hlt] using (List.mem_filter.mp he).2

end Sys2Proof
end

