-- ==== Sys2Proof/Proofs/LaneWords.lean ====
section
/-! A word and its lanes: a lane-wise result read back lane by lane, a lane as an integer, and an integer fitted to a lane (R13, R81, R83, R197). -/

namespace Sys2Proof.Machine
open Sys2Proof

/-! Words built lane by lane. -/

/-- A value put at one lane of a word stands there and in no other lane. -/
theorem extractLsb'_placed (w v n l : Nat) (hfit : w * (l + 1) ≤ 32) :
    (BitVec.ofNat 32 (v % 2 ^ w * 2 ^ (w * n))).extractLsb' (w * l) w = if l = n then BitVec.ofNat w v else 0 := by
  ext j hj
  have hword : w * l + j < 32 := by rw [Nat.mul_succ] at hfit; omega
  have hbit : (BitVec.ofNat 32 (v % 2 ^ w * 2 ^ (w * n))).getLsbD (w * l + j) =
      (decide (w * n ≤ w * l + j) && (decide (w * l + j - w * n < w) && v.testBit (w * l + j - w * n))) := by
    rw [BitVec.getLsbD_ofNat, Nat.testBit_mul_two_pow, Nat.testBit_mod_two_pow, decide_eq_true hword, Bool.true_and]
  rw [BitVec.getElem_extractLsb', hbit]
  obtain hlt | rfl | hgt := Nat.lt_trichotomy l n
  · have hbelow : w * (l + 1) ≤ w * n := Nat.mul_le_mul_left w hlt
    rw [Nat.mul_succ] at hbelow
    simp [hlt.ne, show ¬w * n ≤ w * l + j by omega]
  · simp [hj, ← BitVec.getLsbD_eq_getElem, BitVec.getLsbD_ofNat]
  · have habove : w * (n + 1) ≤ w * l := Nat.mul_le_mul_left w hgt
    rw [Nat.mul_succ] at habove
    simp [hgt.ne', show ¬w * l + j - w * n < w by omega]

/-- A lane of a built word is the lane's own value; a lane that was not built is 0. -/
theorem buildLanes_lane (w : Nat) (g : Nat → Nat × Flags) (n l : Nat) (hfit : w * (l + 1) ≤ 32) :
    (buildLanes w g n).1.extractLsb' (w * l) w = if l < n then BitVec.ofNat w (g l).1 else 0 := by
  induction n with
  | zero => ext; simp [buildLanes]
  | succ n ih =>
    rw [buildLanes, BitVec.extractLsb'_or, ih, extractLsb'_placed w _ n l hfit]
    obtain hlt | rfl | hgt := Nat.lt_trichotomy l n
    · simp [hlt, hlt.ne, Nat.lt_succ_of_lt hlt]
    · simp
    · simp [hgt.ne', show ¬l < n by omega, show ¬l < n + 1 by omega]

/-- Where a lane raises one set of flags or none, the word raises that set when some lane does (R93). -/
theorem buildLanes_flags (w : Nat) (g : Nat → Nat × Flags) (fl : Flags) (P : Nat → Prop) [DecidablePred P] (n : Nat)
    (h : ∀ l, (g l).2 = if P l then fl else 0) : (buildLanes w g n).2 = if ∃ l, l < n ∧ P l then fl else 0 := by
  induction n with
  | zero => simp [buildLanes, flagNone]
  | succ n ih =>
    have hsucc : (buildLanes w g (n + 1)).2 = (buildLanes w g n).2 ||| (g n).2 := rfl
    rw [hsucc, ih, h n]
    by_cases hlow : ∃ l, l < n ∧ P l <;> by_cases hn : P n <;> simp only [Nat.exists_lt_succ_right, hlow, hn] <;> simp

theorem tyWidth_pos (t : Ty) : 0 < tyWidth t := by cases t <;> decide

/-- The lanes of a type fill the word (R81). -/
theorem tyWidth_mul_tyLanes (t : Ty) : tyWidth t * tyLanes t = 32 := by cases t <;> decide

/-- The bits of one lane of a word (R13). -/
abbrev laneBits (t : Ty) (v : Word) (l : Nat) : BitVec (tyWidth t) := v.extractLsb' (tyWidth t * l) (tyWidth t)

/-- A lane of a lane-wise result is the lane's own value. -/
theorem perLane_lane (t : Ty) (g : Nat → Nat × Flags) {l : Nat} (hl : l < tyLanes t) :
    laneBits t (perLane t g).1 l = BitVec.ofNat (tyWidth t) (g l).1 := by
  have hfit : tyWidth t * (l + 1) ≤ 32 := (Nat.mul_le_mul_left _ hl).trans_eq (tyWidth_mul_tyLanes t)
  rw [laneBits, perLane, buildLanes_lane _ g _ l hfit, if_pos hl]

/-- A lane-wise result raises the one set of flags of its lanes when some lane raises it. -/
theorem perLane_flags (t : Ty) (g : Nat → Nat × Flags) (fl : Flags) (P : Nat → Prop) [DecidablePred P]
    (h : ∀ l, (g l).2 = if P l then fl else 0) : (perLane t g).2 = if ∃ l, l < tyLanes t ∧ P l then fl else 0 :=
  buildLanes_flags _ g fl P _ h

/-- A lane-wise result whose lanes raise no flag raises none. -/
theorem perLane_flags_none (t : Ty) (g : Nat → Nat × Flags) (h : ∀ l, (g l).2 = 0) : (perLane t g).2 = 0 := by
  rw [perLane_flags t g 0 (fun _ => False) (by simpa using h), ite_self]

/-! A lane as an integer. -/

/-- The exact integer that a lane's bits stand for, by the sign of its type (R83). -/
def bitsInt (signed : Bool) {w : Nat} (x : BitVec w) : Int := if signed then x.toInt else (x.toNat : Int)

@[simp] theorem bitsInt_true {w : Nat} (x : BitVec w) : bitsInt true x = x.toInt := rfl

@[simp] theorem bitsInt_false {w : Nat} (x : BitVec w) : bitsInt false x = (x.toNat : Int) := rfl

/-- Bits taken as an integer and put back into a lane are as they were. -/
@[simp] theorem ofInt_bitsInt (signed : Bool) {w : Nat} (x : BitVec w) : BitVec.ofInt w (bitsInt signed x) = x := by
  cases signed <;> simp [BitVec.ofInt_natCast]

theorem laneInt_toNat (signed : Bool) {w : Nat} (x : BitVec w) : laneInt x.toNat w signed = bitsInt signed x := by
  have hmod : x.toNat % 2 ^ w = x.toNat := Nat.mod_eq_of_lt x.isLt
  cases signed with
  | false => simp [laneInt, hmod]
  | true =>
    have hhalf : 2 ^ (w - 1) ≤ x.toNat ↔ ¬2 * x.toNat < 2 ^ w := by
      cases w with
      | zero => simp [BitVec.of_length_zero]
      | succ w => rw [Nat.add_sub_cancel, Nat.pow_succ]; omega
    by_cases hneg : 2 * x.toNat < 2 ^ w
    · simp [laneInt, hmod, hhalf, BitVec.toInt_eq_toNat_cond, hneg]
    · have hmodInt : (x.toNat : Int) % 2 ^ w = x.toNat := by exact_mod_cast hmod
      simp [laneInt, hmod, hhalf, BitVec.toInt_eq_toNat_cond, hneg, hmodInt]

/-- A lane of a word, as its type reads it, is what the lane's bits stand for. -/
theorem laneI_eq_bitsInt (t : Ty) (v : Word) (l : Nat) : laneI t v l = bitsInt (tySigned t) (laneBits t v l) := by
  rw [laneI, ← laneInt_toNat, BitVec.extractLsb'_toNat, Nat.shiftRight_eq_div_pow, lane]

@[simp] theorem ofInt_laneI (t : Ty) (v : Word) (l : Nat) : BitVec.ofInt (tyWidth t) (laneI t v l) = laneBits t v l := by
  rw [laneI_eq_bitsInt, ofInt_bitsInt]

/-- What a lane's bits stand for lies within the lane's bounds. -/
theorem bitsInt_bounds (signed : Bool) {w : Nat} (x : BitVec w) : laneLo w signed ≤ bitsInt signed x ∧ bitsInt signed x ≤ laneHi w signed := by
  cases signed with
  | false =>
    have hlt : (x.toNat : Int) < 2 ^ w := by exact_mod_cast x.isLt
    simp only [laneLo, laneHi, bitsInt_false, Bool.false_eq_true, if_false]
    omega
  | true => exact ⟨x.le_toInt, Int.le_sub_one_of_lt x.toInt_lt⟩

/-! An integer fitted to a lane (R83). -/

/-- The low bits of an integer are its residue as a lane. -/
@[simp] theorem ofNat_wrapLane (w : Nat) (v : Int) : BitVec.ofNat w (wrapLane w v) = BitVec.ofInt w v := by
  rw [wrapLane, show (2 ^ w : Int) = ((2 ^ w : Nat) : Int) by norm_cast, ← BitVec.toNat_ofInt, BitVec.ofNat_toNat, BitVec.setWidth_eq]

theorem fitint_wrap (v : Int) (w : Nat) (signed : Bool) : fitint v w signed false = (wrapLane w v, 0) := rfl

/-- An integer within the bounds of its lane is put there as it is, saturating or not. -/
theorem fitint_of_fits {v : Int} {w : Nat} {signed : Bool} (sat : Bool) (h : laneLo w signed ≤ v ∧ v ≤ laneHi w signed) :
    fitint v w signed sat = (wrapLane w v, 0) := by
  cases sat with
  | false => rfl
  | true => simp [fitint, not_lt.mpr h.1, not_lt.mpr h.2, wrapLane, flagNone]

/-- An integer above its lane saturates at the lane's upper bound, with IS. -/
theorem fitint_above {v : Int} {w : Nat} {signed : Bool} (hlo : laneLo w signed ≤ v) (hhi : laneHi w signed < v) :
    fitint v w signed true = ((laneHi w signed).toNat, flagIS) := by
  simp [fitint, not_lt.mpr hlo, hhi]

end Sys2Proof.Machine
end

