-- ==== Sys2Proof/Proofs/IntegerArithmetic.lean ====
section
/-! Settles O12 and O13: integer arithmetic that wraps (R201), and division (R202). -/

namespace Sys2Proof.Machine
open Sys2Proof

/-! Arithmetic that wraps (R83, R201), for every type. -/

section
variable {f : OpFields} (a b c : Word)

/-- A lane of a result that wraps is the exact value modulo 2^w. -/
theorem intFit_lane (hwrap : modSat f = false) (v : Int → Int → Int → Int) {l : Nat} (hl : l < tyLanes f.ty) :
    laneBits f.ty (intFit f a b c v).1 l = BitVec.ofInt (tyWidth f.ty) (v (laneI f.ty a l) (laneI f.ty b l) (laneI f.ty c l)) := by
  rw [intFit, perLane_lane _ _ hl, hwrap, fitint_wrap, ofNat_wrapLane]

theorem intFit_flags (hwrap : modSat f = false) (v : Int → Int → Int → Int) : (intFit f a b c v).2 = 0 :=
  perLane_flags_none _ _ fun _ => by rw [hwrap, fitint_wrap]

section
variable (hwrap : modSat f = false) {l : Nat} (hl : l < tyLanes f.ty)
include hwrap hl

theorem aluAdd_lane : laneBits f.ty (aluAdd f a b c).1 l = laneBits f.ty a l + laneBits f.ty b l := by
  rw [aluAdd, intFit_lane a b c hwrap _ hl, BitVec.ofInt_add, ofInt_laneI, ofInt_laneI]

theorem aluSub_lane : laneBits f.ty (aluSub f a b c).1 l = laneBits f.ty a l - laneBits f.ty b l := by
  rw [aluSub, intFit_lane a b c hwrap _ hl, eq_sub_iff_add_eq, ← ofInt_laneI f.ty b, ← BitVec.ofInt_add, Int.sub_add_cancel, ofInt_laneI]

theorem aluMul_lane : laneBits f.ty (aluMul f a b c).1 l = laneBits f.ty a l * laneBits f.ty b l := by
  rw [aluMul, intFit_lane a b c hwrap _ hl, BitVec.ofInt_mul, ofInt_laneI, ofInt_laneI]

end

end

/-- Of i32, whose one lane is the word, what an operation makes of the lane it makes of the word. -/
theorem eq_of_lane_i32 {t : Ty} (ht : t = .i32) (op : ∀ w, BitVec w → BitVec w → BitVec w) {x a b : Word}
    (h : laneBits t x 0 = op (tyWidth t) (laneBits t a 0) (laneBits t b 0)) : x = op 32 a b := by
  subst ht
  change x.extractLsb' 0 32 = op 32 (a.extractLsb' 0 32) (b.extractLsb' 0 32) at h
  simpa only [BitVec.extractLsb'_eq_self] using h

/-! Division of one lane (R202). -/

/-- The one quotient that its lane does not hold: the most negative value by -1. -/
abbrev DivOverflows (signed : Bool) {w : Nat} (x y : BitVec w) : Prop :=
  signed = true ∧ bitsInt signed x = -(2 ^ (w - 1) : Int) ∧ bitsInt signed y = -1

/-- Every other quotient lies within the bounds of its lane. -/
theorem tdiv_fits {signed : Bool} {w : Nat} (hw : 0 < w) {x y : BitVec w} (h : ¬DivOverflows signed x y) :
    laneLo w signed ≤ (bitsInt signed x).tdiv (bitsInt signed y) ∧ (bitsInt signed x).tdiv (bitsInt signed y) ≤ laneHi w signed := by
  cases signed with
  | false =>
    rw [bitsInt_false, bitsInt_false, ← Int.ofNat_tdiv, ← BitVec.toNat_udiv]
    exact bitsInt_bounds false (x / y)
  | true =>
    have hne : x ≠ BitVec.intMin w ∨ y ≠ -1#w := by
      by_contra hboth
      obtain ⟨rfl, rfl⟩ : x = BitVec.intMin w ∧ y = -1#w := by simpa only [not_or, not_not] using hboth
      exact h ⟨rfl, BitVec.toInt_intMin_of_pos hw, by simp [BitVec.neg_one_eq_allOnes, BitVec.toInt_allOnes, hw]⟩
    rw [bitsInt_true, bitsInt_true, ← BitVec.toInt_sdiv_of_ne_or_ne x y hne]
    exact bitsInt_bounds true (x.sdiv y)

/-- The quotient of one lane, with its flags. -/
def divLane (signed sat : Bool) {w : Nat} (x y : BitVec w) : Nat × Flags :=
  if bitsInt signed y = 0 then (2 ^ w - 1, flagNone) else fitint ((bitsInt signed x).tdiv (bitsInt signed y)) w signed sat

/-- The remainder of one lane: by zero, the dividend. -/
def remLane (signed : Bool) {w : Nat} (x y : BitVec w) : Int :=
  if bitsInt signed y = 0 then bitsInt signed x else bitsInt signed x - (bitsInt signed x).tdiv (bitsInt signed y) * bitsInt signed y

section
variable {signed sat : Bool} {w : Nat} {x y : BitVec w}

theorem divLane_by_zero (h : bitsInt signed y = 0) : divLane signed sat x y = (2 ^ w - 1, 0) := if_pos h

/-- A quotient goes toward zero; one that overflows wraps where the operator does not saturate. -/
theorem divLane_toward_zero (hw : 0 < w) (hy : bitsInt signed y ≠ 0) (h : sat = false ∨ ¬DivOverflows signed x y) :
    divLane signed sat x y = (wrapLane w ((bitsInt signed x).tdiv (bitsInt signed y)), 0) := by
  rw [divLane, if_neg hy]
  obtain rfl | hover := h
  · exact fitint_wrap _ _ _
  · exact fitint_of_fits sat (tdiv_fits hw hover)

/-- The quotient that overflows saturates at the largest positive value, with IS. -/
theorem divLane_saturates (h : DivOverflows signed x y) : divLane signed true x y = ((2 ^ (w - 1) - 1 : Int).toNat, flagIS) := by
  obtain ⟨rfl, hx, hy⟩ := h
  have hquot : (bitsInt true x).tdiv (bitsInt true y) = 2 ^ (w - 1) := by rw [hx, hy, Int.neg_tdiv_neg, Int.tdiv_one]
  have hpos : (0 : Int) < 2 ^ (w - 1) := by positivity
  rw [divLane, if_neg (by omega), hquot, fitint_above (by simp only [laneLo, if_true]; omega) (by simp only [laneHi, if_true]; omega)]
  rfl

/-- A quotient raises IS where it saturates, and no flag otherwise. -/
theorem divLane_flags (hw : 0 < w) : (divLane signed sat x y).2 = if sat = true ∧ DivOverflows signed x y then flagIS else 0 := by
  by_cases hy : bitsInt signed y = 0
  · rw [divLane_by_zero hy, if_neg (by rintro ⟨-, -, -, hneg⟩; omega)]
  · split_ifs with h
    · obtain ⟨rfl, hover⟩ := h
      rw [divLane_saturates hover]
    · rw [divLane_toward_zero hw hy (by rwa [not_and_or, Bool.not_eq_true] at h)]

end

/-! Division of a word (R202). -/

section
variable (f : OpFields) (a b c : Word)

theorem aluDiv_eq_perLane : aluDiv f a b c =
    perLane f.ty (fun l => divLane (tySigned f.ty) (modSat f) (laneBits f.ty a l) (laneBits f.ty b l)) := by
  simp only [aluDiv, divLane, laneI_eq_bitsInt]

theorem aluDiv_flags : (aluDiv f a b c).2 =
    if modSat f = true ∧ ∃ l, l < tyLanes f.ty ∧ DivOverflows (tySigned f.ty) (laneBits f.ty a l) (laneBits f.ty b l) then flagIS else 0 := by
  rw [aluDiv_eq_perLane, perLane_flags _ _ _ _ fun _ => divLane_flags (tyWidth_pos _)]
  exact if_congr ⟨fun ⟨l, hl, hsat, hover⟩ => ⟨hsat, l, hl, hover⟩, fun ⟨hsat, l, hl, hover⟩ => ⟨l, hl, hsat, hover⟩⟩ rfl rfl

theorem aluRem_flags : (aluRem f a b c).2 = 0 := perLane_flags_none _ _ fun _ => rfl

section
variable {f} {l : Nat} (hl : l < tyLanes f.ty)
include hl

theorem aluDiv_lane : laneBits f.ty (aluDiv f a b c).1 l =
    BitVec.ofNat (tyWidth f.ty) (divLane (tySigned f.ty) (modSat f) (laneBits f.ty a l) (laneBits f.ty b l)).1 := by
  rw [aluDiv_eq_perLane, perLane_lane _ _ hl]

theorem aluRem_lane : laneBits f.ty (aluRem f a b c).1 l =
    BitVec.ofInt (tyWidth f.ty) (remLane (tySigned f.ty) (laneBits f.ty a l) (laneBits f.ty b l)) := by
  rw [aluRem, intWrap, perLane_lane _ _ hl, ofNat_wrapLane, laneI_eq_bitsInt, laneI_eq_bitsInt, remLane]

section
variable (hzero : bitsInt (tySigned f.ty) (laneBits f.ty b l) = 0)
include hzero

theorem aluDiv_lane_by_zero : laneBits f.ty (aluDiv f a b c).1 l = BitVec.allOnes (tyWidth f.ty) := by
  rw [aluDiv_lane a b c hl, divLane_by_zero hzero]
  exact BitVec.eq_of_toNat_eq (by simp)

theorem aluRem_lane_by_zero : laneBits f.ty (aluRem f a b c).1 l = laneBits f.ty a l := by
  rw [aluRem_lane a b c hl, remLane, if_pos hzero, ofInt_bitsInt]

end

/-- By a divisor that is not zero, the remainder is what the quotient toward zero leaves of the dividend. -/
theorem aluRem_lane_of_ne (hne : bitsInt (tySigned f.ty) (laneBits f.ty b l) ≠ 0) : laneBits f.ty (aluRem f a b c).1 l =
    BitVec.ofInt (tyWidth f.ty) (bitsInt (tySigned f.ty) (laneBits f.ty a l) -
      (bitsInt (tySigned f.ty) (laneBits f.ty a l)).tdiv (bitsInt (tySigned f.ty) (laneBits f.ty b l)) *
        bitsInt (tySigned f.ty) (laneBits f.ty b l)) := by
  rw [aluRem_lane a b c hl, remLane, if_neg hne]

theorem aluDiv_lane_toward_zero (hne : bitsInt (tySigned f.ty) (laneBits f.ty b l) ≠ 0)
    (h : modSat f = false ∨ ¬DivOverflows (tySigned f.ty) (laneBits f.ty a l) (laneBits f.ty b l)) : laneBits f.ty (aluDiv f a b c).1 l =
      BitVec.ofInt (tyWidth f.ty) ((bitsInt (tySigned f.ty) (laneBits f.ty a l)).tdiv (bitsInt (tySigned f.ty) (laneBits f.ty b l))) := by
  rw [aluDiv_lane a b c hl, divLane_toward_zero (tyWidth_pos _) hne h, ofNat_wrapLane]

theorem aluDiv_lane_saturates (hsat : modSat f = true) (h : DivOverflows (tySigned f.ty) (laneBits f.ty a l) (laneBits f.ty b l)) :
    laneBits f.ty (aluDiv f a b c).1 l = BitVec.ofInt (tyWidth f.ty) (2 ^ (tyWidth f.ty - 1) - 1) := by
  have hpos : (0 : Int) ≤ 2 ^ (tyWidth f.ty - 1) - 1 := Int.sub_nonneg_of_le (by exact_mod_cast Nat.one_le_two_pow)
  rw [aluDiv_lane a b c hl, hsat, divLane_saturates h, ← BitVec.ofInt_natCast, Int.toNat_of_nonneg hpos]

end

end

end Sys2Proof.Machine

namespace Sys2Proof
open Machine

/-- The type and the modifiers of a well-formed operator are ones that its signature accepts (R174, R198). -/
theorem OpFields.wf_signature {opc : Nat} {f : OpFields} {g : OpSig} (hsig : sigOf opc f.ty f.mod.toNat f.imm.toNat = some g)
    (hwf : f.wf opc = true) : g.tys f.ty = true ∧ modOk opc f.ty f.mod.toNat g = true := by
  simp only [OpFields.wf, hsig, Bool.and_eq_true] at hwf
  tauto

/-- A well-formed `rem`, whose signature defines no bit of MOD, does not saturate. -/
theorem OpFields.rem_mod {f : OpFields} (hwf : f.wf 0x06 = true) : f.mod.getLsbD 3 = false := by
  obtain ⟨-, hmod⟩ := OpFields.wf_signature rfl hwf
  have hnone : f.mod.toNat &&& 15 = 0 := by simpa [modOk] using hmod
  have hbits : ∀ m : BitVec 4, m.toNat &&& 15 = 0 → m.getLsbD 3 = false := by decide
  exact hbits _ hnone

/-- Settles O12: a lane that wraps is the sum, difference or product of the operands' lanes; i32 is one lane, i8x4 four. -/
theorem integerArithmeticWraps : Obligations.IntegerArithmeticWraps := by
  unfold Obligations.IntegerArithmeticWraps
  have hwrap : ∀ f : OpFields, f.mod = 0 → modSat f = false := fun f hmod => by rw [modSat, hmod]; rfl
  refine ⟨fun f a b c hty hmod => ?_, fun f a b c hty hmod l hl => ?_⟩
  · have hlane : 0 < tyLanes f.ty := by rw [hty]; decide
    exact ⟨eq_of_lane_i32 hty (fun _ => (· + ·)) (aluAdd_lane a b c (hwrap f hmod) hlane),
      eq_of_lane_i32 hty (fun _ => (· - ·)) (aluSub_lane a b c (hwrap f hmod) hlane),
      eq_of_lane_i32 hty (fun _ => (· * ·)) (aluMul_lane a b c (hwrap f hmod) hlane),
      intFit_flags a b c (hwrap f hmod) _, intFit_flags a b c (hwrap f hmod) _, intFit_flags a b c (hwrap f hmod) _⟩
  · have hlane := aluAdd_lane (l := l) a b c (hwrap f hmod) (by rw [hty]; exact hl)
    rw [hty] at hlane
    exact hlane

/-- Settles O13: which types and modifiers `div` and `rem` accept, then a lane by its divisor and the flags of all lanes. -/
theorem divisionRule : Obligations.DivisionRule := by
  unfold Obligations.DivisionRule
  refine ⟨fun f => ⟨fun hwf => (OpFields.wf_signature rfl hwf).1, fun hwf => ⟨(OpFields.wf_signature rfl hwf).1, OpFields.rem_mod hwf⟩⟩,
    fun f a b c _ => ⟨fun l hl => ⟨fun hzero => ?_, ?_, ?_, ?_⟩, aluRem_flags f a b c, aluDiv_flags f a b c⟩⟩
  · exact ⟨aluDiv_lane_by_zero a b c hl hzero, aluRem_lane_by_zero a b c hl hzero⟩
  · exact aluRem_lane_of_ne a b c hl
  · exact aluDiv_lane_toward_zero a b c hl
  · exact aluDiv_lane_saturates a b c hl

end Sys2Proof
end

