-- ==== Sys2Proof/Proofs/FiringEffects.lean ====
section
/-! What a firing leaves where it does more than send one word: its issue behind later updates, results taken late (R230, R271), entries of the
decoupling queue (R123), and what stays untouched. -/

namespace Sys2Proof.Machine
open Sys2Proof

/-! Issue behind later updates. -/

/-- A cell shows the issue of a firing as another does: pointer, cycle of the next firing, iteration counters and channels. -/
structure Cell.SameIssue (x y : Cell) : Prop where
  ptr : y.ptr = x.ptr
  nextFire : y.nextFire = x.nextFire
  iter : ∀ k, (y.slot k).iter = (x.slot k).iter
  chan : ∀ n, y.chan n = x.chan n

theorem Cell.SameIssue.refl (x : Cell) : x.SameIssue x := ⟨rfl, rfl, fun _ => rfl, fun _ => rfl⟩

theorem Cell.SameIssue.trans {x y z : Cell} (h : x.SameIssue y) (h' : y.SameIssue z) : x.SameIssue z :=
  ⟨h'.ptr.trans h.ptr, h'.nextFire.trans h.nextFire, fun k => (h'.iter k).trans (h.iter k), fun n => (h'.chan n).trans (h.chan n)⟩

theorem Cell.SentFrom.sameIssue {x y : Cell} (h : x.SentFrom y) : x.SameIssue y := by
  obtain ⟨_, _, _, _, rfl⟩ := h
  exact ⟨rfl, rfl, fun _ => rfl, fun _ => rfl⟩

theorem Cell.SentFrom.slot {x y : Cell} (h : x.SentFrom y) (n : Nat) : y.slot n = x.slot n := by
  obtain ⟨_, _, _, _, rfl⟩ := h
  rfl

theorem Cell.SentFrom.handle {x y : Cell} (h : x.SentFrom y) (n : Nat) : y.handle n = x.handle n := by
  obtain ⟨_, _, _, _, rfl⟩ := h
  rfl

theorem Cell.setCur_sameIssue (x : Cell) (n cur : Nat) : x.SameIssue (x.setCur n cur) := ⟨rfl, rfl, fun _ => rfl, fun _ => rfl⟩

/-- A slot's new state shows the issue if it keeps the iteration counter. -/
theorem Cell.setSlot_sameIssue (x : Cell) (n : Nat) {v : SlotState} (h : v.iter = (x.slot n).iter) : x.SameIssue (x.setSlot n v) := by
  refine ⟨rfl, rfl, fun k => ?_, fun _ => rfl⟩
  obtain rfl | hne := eq_or_ne k n
  · rw [Cell.setSlot_slot_same, h]
  · rw [Cell.setSlot_slot_other _ _ _ _ hne]

/-- Handles that differ in CUR only have elements of one size and swizzle (R105). -/
theorem Handle.layout_of_cur {x y : Handle} (h : { x with cur := 0 } = { y with cur := 0 }) : x.size = y.size ∧ x.swz = y.swz := by
  simp only [Handle.mk.injEq] at h
  obtain ⟨-, -, -, -, -, -, hswz, hesz, -⟩ := h
  exact ⟨by rw [Handle.size, hesz, Handle.size], hswz⟩

/-- The issue reads and moves no handle. -/
theorem State.begin_handle (s : State) (F : Firing) (c n : Nat) : ((s.begin F).cell c).handle n = (s.cell c).handle n := by
  obtain ⟨_, _, _, _, _, _, _, _, _, hc⟩ := s.begin_begun F c
  rw [hc]
  rfl

theorem State.begin_flight (s : State) (F : Firing) (c : Nat) : ((s.begin F).cell c).flight = (s.cell c).flight := by
  obtain ⟨_, _, _, _, _, _, _, _, _, hc⟩ := s.begin_begun F c
  rw [hc]

/-- The place of an access is told by the handles of the firing's cell (R229, R230), so it is the same once the firing is issued. -/
theorem State.place_begin (s : State) (F : Firing) (pk : Pick) : (s.begin F).place F pk = s.place F pk := by
  simp only [State.place, State.begin_handle]

/-! Results taken late. -/

/-- A token whose value is taken late is on its way behind what was in flight (R230, R271). -/
theorem State.lateResult_out_cell (s : State) {F : Firing} (k : Kind) (lat : Nat) (ld : Late) {n : Fin 32} (hd : F.f.dst = .out n) (j : Nat) :
    ∃ perf trig due after, (s.lateResult F k lat ld).cell j = { s.cell j with
      flight := (s.cell j).flight ++ if j = F.feed.src then [⟨s.outDue F lat, F.slot, .out n, 0,
        some (mkToken (s.cell F.feed.src).active.ver k 0 F.deps), some ld, flagNone, after, 0⟩] else []
      perf := perf, trig := trig, trigDue := due } := by
  obtain ⟨perf, trig, due, after, h⟩ := s.emitToken_cell F n k 0 lat j
  refine ⟨perf, trig, due, after, ?_⟩
  simp only [State.lateResult, hd]
  obtain rfl | hne := eq_or_ne j F.feed.src
  · rw [State.updCell_cell_same, h]
    simp
  · rw [State.updCell_cell_other _ _ _ _ hne, h, if_neg hne, if_neg hne]

theorem State.lateResult_sent (s : State) (F : Firing) (k : Kind) (lat : Nat) (ld : Late) (j : Nat) :
    (s.cell j).SentFrom ((s.lateResult F k lat ld).cell j) := by
  cases hd : F.f.dst with
  | out n =>
    obtain ⟨_, _, _, _, h⟩ := s.lateResult_out_cell k lat ld hd j
    rw [h]
    exact ⟨_, _, _, _, rfl⟩
  | reg n | handle n | none =>
    simp only [State.lateResult, hd]
    exact s.fly_sent _ _ _ _ _ _ _

theorem State.FramedRest.lateResult (s : State) (F : Firing) (k : Kind) (lat : Nat) (ld : Late) : s.FramedRest (s.lateResult F k lat ld) := by
  cases hd : F.f.dst with
  | out n =>
    simp only [State.lateResult, hd]
    exact (State.FramedRest.emitToken s _ _ _ _ _).trans (.updCell _ _ _)
  | reg n | handle n | none =>
    simp only [State.lateResult, hd]
    exact .fly s _ _ _ _ _ _

theorem State.lateSent_lateResult (s : State) (F : Firing) (k : Kind) (ld : Late) : LateSent s (s.lateResult F k 2 ld) F k ld := by
  unfold LateSent
  cases hd : F.f.dst with
  | out n =>
    obtain ⟨_, _, _, _, h⟩ := s.lateResult_out_cell k 2 ld hd F.feed.src
    rw [if_pos rfl] at h
    simp only [h]
    refine ⟨_, List.mem_append_right _ (List.mem_singleton_self _), rfl, rfl, rfl, ?_, _, rfl, rfl⟩
    simp only [State.outDue]
    omega
  | reg n | handle n | none =>
    simp only [State.lateResult, hd]
    exact s.flies_fly _ _ _ _ _ _

/-! Entries of the decoupling queue. -/

section
variable (s : State) (F : Firing) (body : ReqBody) (stage : ReqStage) (p : Place) (k : Kind) (v : BitVec 64)

@[simp] theorem State.enqueue_cell (c : Nat) : (s.enqueue F body stage p k v).cell c = s.cell c := rfl

/-- An entry joins behind those of the queue (R123). -/
theorem State.queued_enqueue : Queued s (s.enqueue F body stage p k v) F body stage p k :=
  ⟨_, rfl, rfl, rfl, rfl, rfl, rfl, rfl, rfl, rfl, rfl, rfl⟩

theorem State.untouched_enqueue : Untouched s (s.enqueue F body stage p k v) :=
  ⟨fun _ => ⟨rfl, rfl, rfl, rfl, rfl, rfl, rfl, rfl, rfl, rfl, rfl, rfl, rfl⟩, fun _ => rfl, rfl, rfl, rfl, rfl, rfl, rfl, rfl⟩

end

@[simp] theorem State.closePairs_cell (s : State) (p : Pair → Bool) (c : Nat) : (s.closePairs p).1.cell c = s.cell c := by
  unfold State.closePairs
  extract_lets ask s1
  simp only [s1]
  split <;> rfl

@[simp] theorem State.closePairs_reqs (s : State) (p : Pair → Bool) : (s.closePairs p).1.reqs = s.reqs := by
  unfold State.closePairs
  extract_lets ask s1
  simp only [s1]
  split <;> rfl

end Sys2Proof.Machine

namespace Sys2Proof
open Machine

theorem Untouched.trans {s t u : State} (h : Untouched s t) (h' : Untouched t u) : Untouched s u := by
  obtain ⟨hc, hm, h1, h2, h3, h4, h5, h6, h7⟩ := h
  obtain ⟨hc', hm', h1', h2', h3', h4', h5', h6', h7'⟩ := h'
  refine ⟨fun k => ?_, fun a => (hm' a).trans (hm a), h1'.trans h1, h2'.trans h2, h3'.trans h3, h4'.trans h4, h5'.trans h5, h6'.trans h6,
    h7'.trans h7⟩
  have hk := hc k
  simp only [hc' k]
  exact hk

/-- An entry has joined a queue whose entries are those of an earlier state. -/
theorem Queued.of_reqs {s u t : State} {F : Firing} {body : ReqBody} {stage : ReqStage} {p : Place} {k : Kind}
    (h : Queued u t F body stage p k) (hreqs : u.reqs = s.reqs) : Queued s t F body stage p k := by
  obtain ⟨r, hr, hrest⟩ := h
  exact ⟨r, hr.trans (by rw [hreqs]), hrest⟩

/-- What a result shows is told by the flights of the firing's cell before it, and its handles but for their cursors. -/
theorem ResultSent.of_cursors {s s1 t : State} {F : Firing} {k : Kind} {v : Word} {fl : Flags} {lat : Nat} (h : ResultSent s t F k v fl lat)
    (hf : (s1.cell F.cell).flight = (s.cell F.cell).flight)
    (hh : ∀ n, { (s1.cell F.cell).handle n with cur := 0 } = { (s.cell F.cell).handle n with cur := 0 }) : ResultSent s1 t F k v fl lat := by
  unfold ResultSent at h ⊢
  split <;> rename_i hd <;> simp only [hd] at h
  · exact ⟨h.1, fun hfl => (h.2 hfl).of_flight hf⟩
  · exact fun hk => (h hk).of_flight hf
  · rename_i n
    obtain ⟨hsize, hswz⟩ := Handle.layout_of_cur (hh n)
    intro hk
    rw [hsize, hswz]
    exact (h hk).of_flight hf
  · exact fun hfl => (h hfl).of_flight hf

/-- What a late result shows is told by the flights and the handles of the firing's cell before it. -/
theorem LateSent.of_cell {s s1 t : State} {F : Firing} {k : Kind} {l : Late} (h : LateSent s t F k l)
    (hf : (s1.cell F.cell).flight = (s.cell F.cell).flight)
    (hh : ∀ n, (s1.cell F.cell).handle n = (s.cell F.cell).handle n) : LateSent s1 t F k l := by
  unfold LateSent at h ⊢
  split <;> rename_i hd <;> simp only [hd] at h
  · exact h
  · exact h.of_flight hf
  · rw [hh]
    exact h.of_flight hf
  · exact h.of_flight hf

/-- A firing of kind DATA or LAST without a fault of its operator's own does its work behind its issue (R374). -/
theorem Fires.fire_works {s s1 : State} {opc : Nat} {site : Site} {f : OpFields} {F : Firing} (h : Fires s opc site f F s1)
    {pre : State → Firing → Option FireFault} (hpre : pre s1 F = none) (hworks : F.works = true) {work : State → Firing → State → State} :
    s.fire opc site f pre (fun u G => u.unlessSuppressed G (work u G)) = .next (work s1 F (s1.begin F)) :=
  (Laws.fire_of_fires h hpre).trans (congrArg _ (Laws.unlessSuppressed_works hworks))

/-! A state behind the issue. -/

theorem Issued.of_sameIssue {s u t : State} {F : Firing} (h : Issued s u F) (ht : (u.cell F.cell).SameIssue (t.cell F.cell)) : Issued s t F := by
  obtain ⟨hptr, hnext, hiter⟩ := h
  exact ⟨ht.ptr.trans hptr, ht.nextFire.trans hnext, (ht.iter F.slot).trans hiter⟩

theorem Consumed.of_sameIssue {s u t : State} {F : Firing} (h : Consumed s u F) (ht : (u.cell F.feed.src).SameIssue (t.cell F.feed.src)) :
    Consumed s t F := fun n => (ht.chan n).trans (h n)

/-- A state `u` shows the issue of the firing `F` of `s`, whose operands were read in `s1`, before its results: nothing is in flight by it. -/
structure IssueShown (s s1 : State) (F : Firing) (u : State) : Prop where
  issued : Issued s u F
  consumed : Consumed s u F
  rest : s.FramedRest u
  cells : ∀ c, (s.cell c).FiredFrom (u.cell c)
  flight : (u.cell F.cell).flight = (s1.cell F.cell).flight
  handle : ∀ n, (u.cell F.cell).handle n = (s1.cell F.cell).handle n

section
variable {s s1 u t : State} {F : Firing} (h : IssueShown s s1 F u)
include h

theorem IssueShown.reqs : u.reqs = s.reqs := (untouched_of_framed h.rest h.cells).2

/-- Results put in flight behind the issue, and nothing else. -/
theorem IssueShown.sent (hrest : u.FramedRest t) (hsent : ∀ c, (u.cell c).SentFrom (t.cell c)) :
    Issued s t F ∧ Consumed s t F ∧ Untouched s t ∧ t.reqs = s.reqs :=
  ⟨h.issued.of_sameIssue (hsent _).sameIssue, h.consumed.of_sameIssue (hsent _).sameIssue,
    untouched_of_framed (h.rest.trans hrest) fun c => (h.cells c).trans (hsent c).firedFrom⟩

/-- An entry of the decoupling queue behind the issue, and nothing else (R123). -/
theorem IssueShown.enqueue (body : ReqBody) (stage : ReqStage) (p : Place) (k : Kind) (v : BitVec 64) :
    let t := u.enqueue F body stage p k v
    Issued s t F ∧ Consumed s t F ∧ Untouched s t ∧ Queued s t F body stage p k :=
  ⟨h.issued, h.consumed, (untouched_of_framed h.rest h.cells).1.trans (u.untouched_enqueue _ _ _ _ _ _),
    (u.queued_enqueue _ _ _ _ _ _).of_reqs h.reqs⟩

/-- A result taken late behind the issue, and nothing else (R230). -/
theorem IssueShown.lateResult (k : Kind) (ld : Late) :
    let t := u.lateResult F k 2 ld
    Issued s t F ∧ Consumed s t F ∧ Untouched s t ∧ t.reqs = s.reqs ∧ LateSent s1 t F k ld := by
  intro t
  obtain ⟨hissued, hconsumed, huntouched, hreqs⟩ := h.sent (.lateResult u F k 2 ld) (u.lateResult_sent F k 2 ld)
  exact ⟨hissued, hconsumed, huntouched, hreqs, (u.lateSent_lateResult F k ld).of_cell h.flight.symm fun n => (h.handle n).symm⟩

end

section
variable {s s1 : State} {opc : Nat} {site : Site} {f : OpFields} {F : Firing} (h : Fires s opc site f F s1) (hopc : opc ≠ 0x85)
include h hopc

theorem Fires.fields : F.f = f := by
  obtain ⟨_, _, _, _, _, hF⟩ := h.readFiring hopc
  exact hF.fields

theorem Fires.issueShown : IssueShown s s1 F (s1.begin F) where
  issued := h.issued hopc (.refl _)
  consumed := h.consumed hopc (.refl _)
  rest := (State.FramedRest.of_reads (h.reads hopc)).trans (.begin s1 F)
  cells := fun c => ((h.reads hopc).cell c).firedFrom.trans (s1.begin_begun F c).firedFrom
  flight := s1.begin_flight F F.cell
  handle := s1.begin_handle F F.cell

end

end Sys2Proof
end

