-- ==== Sys2Proof/Proofs/MemoryOperators.lean ====
section
/-! Settles O18 to O21: loads, stores, atomics, and the operators on cursors, fences and prefetches, each by its act behind the issue. -/

namespace Sys2Proof.Machine
open Sys2Proof

/-! Loads (R229, R230, R232). -/

/-- The access takes the last element of its handle's cursor (R232). -/
def State.lastElem (s : State) (F : Firing) : Bool := decide (F.elem + 1 = ((s.cell F.cell).handle (immHandle F.f.imm.toNat)).wrap)

/-- The kind of a load's token: a stream load tells its last element by LAST (R232). -/
def State.loadKind (s : State) (F : Firing) (stream : Bool) : Kind :=
  if stream then (if s.lastElem F then .last else .data) else F.kind

/-- A stream load notes in its slot whether its element is the last (R232). -/
def State.noteLast (s : State) (F : Firing) (stream : Bool) : State :=
  if stream then s.updCell F.cell (fun c => c.setSlot F.slot { c.slot F.slot with f := s.lastElem F, openSeg := !s.lastElem F }) else s

/-- The act of a load: its issue, a stream load's note, and its access. -/
def State.loadAct (s : State) (F : Firing) (pk : Pick) (stream : Bool) : State :=
  ((s.begin F).noteLast F stream).load F (s.place F pk) (s.loadKind F stream)

theorem State.lastElem_begin (s : State) (F : Firing) : (s.begin F).lastElem F = s.lastElem F := by
  simp only [State.lastElem, State.begin_handle]

section
variable {s s1 : State} {opc : Nat} {site : Site} {f : OpFields} {F : Firing} (h : Fires s opc site f F s1) (hworks : F.works = true)
include h hworks

/-- A load takes the element at CUR where it says so, and else the one it picks (R229). -/
theorem State.fireLoad_of_fires {pick : Firing → Pick} (cur : Bool) (hpre : preLoad (fun F => if cur then .cur else pick F) s1 F = none) :
    (if cur then s.fireCurLoad opc site f else s.fireLoad opc site f pick) =
      .next (s1.loadAct F (if cur then .cur else pick F) (cur && isStreamLoad F.f)) := by
  cases cur with
  | false => exact h.fire_works hpre hworks
  | true =>
    refine (Laws.fire_of_fires h hpre).trans ?_
    rw [actCurLoad, Laws.unlessSuppressed_works hworks, State.loadAct, ← State.place_begin, State.loadKind, ← State.lastElem_begin,
      State.noteLast, Bool.true_and]
    split <;> rfl

end

theorem State.noteLast_cell (s : State) (F : Firing) (stream : Bool) (c : Nat) :
    ∃ slots, (s.noteLast F stream).cell c = { s.cell c with slots := slots } := by
  unfold State.noteLast
  split
  · exact State.updCell_cell_rel (r := fun x y => ∃ slots, y = { x with slots := slots }) (fun _ => ⟨_, rfl⟩) (fun _ => ⟨_, rfl⟩) _ _ _
  · exact ⟨_, rfl⟩

theorem State.noteLast_fired (s : State) (F : Firing) (stream : Bool) (c : Nat) : (s.cell c).FiredFrom ((s.noteLast F stream).cell c) := by
  obtain ⟨_, hcell⟩ := s.noteLast_cell F stream c
  rw [hcell]
  exact ⟨_, _, _, _, _, _, _, _, _, _, _, _, rfl, fun _ => rfl⟩

theorem State.noteLast_sameIssue (s : State) (F : Firing) (stream : Bool) (c : Nat) :
    (s.cell c).SameIssue ((s.noteLast F stream).cell c) := by
  unfold State.noteLast
  split
  · exact State.updCell_cell_rel Cell.SameIssue.refl (fun x => x.setSlot_sameIssue _ (by rfl)) _ _ _
  · exact .refl _

theorem State.noteLast_framed (s : State) (F : Firing) (stream : Bool) : s.FramedRest (s.noteLast F stream) := by
  unfold State.noteLast
  split
  · exact .updCell _ _ _
  · exact .refl s

/-- After a stream load the slot's mark tells whether the element was the last (R232). -/
theorem State.noteLast_mark (s : State) (F : Firing) : (((s.noteLast F true).cell F.cell).slot F.slot).f = s.lastElem F := by
  rw [State.noteLast, if_pos rfl, State.updCell_cell_same, Cell.setSlot_slot_same]

section
variable (s : State) (F : Firing) (p : Place) (k : Kind)

theorem State.load_loc (h : p.lvl = 0) :
    s.load F p k = s.lateResult F k 2 (.spad F.cell (F.cyc + 1 + F.late + F.deal) p.addr p.size p.swz (modB2 F.f)) := if_pos h

theorem State.load_remote (h : p.lvl ≠ 0) : s.load F p k = s.enqueue F (.load (p.lvl == 2) (modB2 F.f)) .issued p k 0 := if_neg h

theorem State.load_sent (c : Nat) : (s.cell c).SentFrom ((s.load F p k).cell c) := by
  by_cases h : p.lvl = 0
  · rw [s.load_loc F p k h]
    exact s.lateResult_sent _ _ _ _ _
  · rw [s.load_remote F p k h, State.enqueue_cell]
    exact .refl _

end

end Sys2Proof.Machine

namespace Sys2Proof
open Machine

/-- The state in which a load's access is made shows the issue too. -/
theorem IssueShown.noteLast {s s1 u : State} {F : Firing} (h : IssueShown s s1 F u) (stream : Bool) : IssueShown s s1 F (u.noteLast F stream) := by
  obtain ⟨_, hcell⟩ := u.noteLast_cell F stream F.cell
  exact {
    issued := h.issued.of_sameIssue (u.noteLast_sameIssue F stream _)
    consumed := h.consumed.of_sameIssue (u.noteLast_sameIssue F stream _)
    rest := h.rest.trans (u.noteLast_framed F stream)
    cells := fun c => (h.cells c).trans (u.noteLast_fired F stream c)
    flight := by rw [hcell, h.flight]
    handle := fun n => by rw [hcell, ← h.handle]; rfl }

/-- What a load shows, by the level of its place. -/
theorem Fires.loadAct_shows {s s1 : State} {opc : Nat} {site : Site} {f : OpFields} {F : Firing} (h : Fires s opc site f F s1) (hopc : opc ≠ 0x85)
    (pk : Pick) (stream : Bool) :
    let t := s1.loadAct F pk stream
    let p := s1.place F pk
    let k := s1.loadKind F stream
    Issued s t F ∧ Consumed s t F ∧ Untouched s t ∧ (stream = true → ((t.cell F.cell).slot F.slot).f = s1.lastElem F) ∧
      (p.lvl ≠ 0 → Queued s t F (.load (p.lvl == 2) (modB2 F.f)) .issued p k) ∧
      (p.lvl = 0 → t.reqs = s.reqs ∧ LateSent s1 t F k (.spad F.cell (F.cyc + 1 + F.late + F.deal) p.addr p.size p.swz (modB2 F.f))) := by
  intro t p k
  have hshown := (h.issueShown hopc).noteLast stream
  have hmark : stream = true → ((t.cell F.cell).slot F.slot).f = s1.lastElem F := by
    rintro rfl
    rw [← s1.lastElem_begin, ← State.noteLast_mark]
    exact congrArg SlotState.f ((((s1.begin F).noteLast F true).load_sent F p k F.cell).slot F.slot)
  by_cases hloc : p.lvl = 0
  · have ht : t = ((s1.begin F).noteLast F stream).lateResult F k 2 _ := State.load_loc _ F p k hloc
    obtain ⟨hissued, hconsumed, huntouched, hreqs, hlate⟩ := hshown.lateResult k
      (.spad F.cell (F.cyc + 1 + F.late + F.deal) p.addr p.size p.swz (modB2 F.f))
    rw [← ht] at hissued hconsumed huntouched hreqs hlate
    exact ⟨hissued, hconsumed, huntouched, hmark, fun hne => absurd hloc hne, fun _ => ⟨hreqs, hlate⟩⟩
  · have ht : t = ((s1.begin F).noteLast F stream).enqueue F _ .issued p k 0 := State.load_remote _ F p k hloc
    obtain ⟨hissued, hconsumed, huntouched, hqueued⟩ := hshown.enqueue (.load (p.lvl == 2) (modB2 F.f)) .issued p k 0
    rw [← ht] at hissued hconsumed huntouched hqueued
    exact ⟨hissued, hconsumed, huntouched, hmark, fun _ => hqueued, fun h0 => absurd h0 hloc⟩

/-- A load of a table runs as the act of its element and of whether it is a stream load. -/
structure LoadRow.Runs (row : LoadRow) : Prop where
  opc_ne : row.opc ≠ 0x85
  exec_eq : ∀ {site f s F s1}, Fires s row.opc site f F s1 → F.works = true → preLoad (row.pick f) s1 F = none →
    exec (row.make site f) s = .next (s1.loadAct F (row.pick f F) (row.stream F.f))

theorem loadRows_run : ∀ row ∈ loadRows, row.Runs := by
  simp only [loadRows, List.forall_mem_cons, List.not_mem_nil, false_imp_iff, implies_true, and_true]
  refine ⟨⟨by decide, fun h hworks hpre => State.fireLoad_of_fires h hworks (pick := fun _ => .cur) true hpre⟩,
    ⟨by decide, fun h hworks hpre => State.fireLoad_of_fires h hworks false hpre⟩, ⟨by decide, fun h hworks hpre => ?ldr⟩,
    ⟨by decide, fun h hworks hpre => ?ldg⟩, ⟨by decide, fun h hworks hpre => ?ldx⟩⟩
  all_goals obtain rfl := h.fields (by decide)
  case ldr => exact State.fireLoad_of_fires h hworks (modCur _) hpre
  case ldg => exact State.fireLoad_of_fires h hworks (modCur _) hpre
  case ldx => exact (State.fireLoad_of_fires h hworks (isStreamLoad _) hpre).trans (by rw [Bool.and_self])

/-- Settles O18: a load's act by the level of its place, behind the issue and a stream load's note of its last element. -/
theorem loadsComplete : Obligations.LoadsComplete := by
  intro row hrow site f s F s1 h hworks hpre
  obtain ⟨hopc, hexec⟩ := loadRows_run row hrow
  exact ⟨_, hexec h hworks hpre, h.loadAct_shows hopc _ _⟩

end Sys2Proof

namespace Sys2Proof.Machine
open Sys2Proof

/-! Stores (R229 to R231). -/

section
variable (s : State) (F : Firing) (p : Place) (v : Word)

theorem State.store_remote (h : p.lvl ≠ 0) : s.store F p v = s.enqueue F (.store (p.lvl == 2) (BitVec.ofNat 64 v.toNat)) .issued p F.kind 0 :=
  if_neg h

/-- A LOC store is on its way to its bank, and its completion token to its channel (R230, R231). -/
theorem State.store_loc (h : p.lvl = 0) : s.FramedRest (s.store F p v) ∧ (∀ c, (s.cell c).SentFrom ((s.store F p v).cell c)) ∧
    Flies s (s.store F p v) F (.write p.addr p.size p.swz) (BitVec.ofNat 64 v.toNat) none 0 2 ∧
    ∀ n, F.f.dst = .out n → TokenSent (s.store F p v) F n F.kind 0 2 := by
  rw [State.store, if_pos h]
  extract_lets u
  have hrest : s.FramedRest u := .fly s _ _ _ _ _ _
  have hsent : ∀ c, (s.cell c).SentFrom (u.cell c) := s.fly_sent _ _ _ _ _ _
  have hflies : Flies s u F (.write p.addr p.size p.swz) (BitVec.ofNat 64 v.toNat) none 0 2 := s.flies_fly _ _ _ _ _ _
  cases hd : F.f.dst with
  | out n =>
    have htoken := u.emitToken_sent F n F.kind 0 2
    refine ⟨hrest.trans (.emitToken u _ _ _ _ _), fun c => (hsent c).trans (htoken c), hflies.of_sent (htoken _), fun m hm => ?_⟩
    cases hm
    exact u.tokenSent_emitToken _ _ _ _ _
  | reg n | handle n | none => exact ⟨hrest, hsent, hflies, fun m hm => by cases hm⟩

end

end Sys2Proof.Machine

namespace Sys2Proof
open Machine

/-- A store of a table runs as the store at the place of its element. -/
structure StoreRow.Runs (row : StoreRow) : Prop where
  opc_ne : row.opc ≠ 0x85
  exec_eq : ∀ site f s, exec (row.make site f) s = s.fireStore row.opc site f (row.pick f)

theorem storeRows_run : ∀ row ∈ storeRows, row.Runs := by
  simp only [storeRows, List.forall_mem_cons, List.not_mem_nil, false_imp_iff, implies_true, and_true]
  repeat' apply And.intro
  all_goals exact ⟨by decide, fun _ _ _ => rfl⟩

/-- Settles O19: a store's act by the level of its place. -/
theorem storesComplete : Obligations.StoresComplete := by
  intro row hrow site f s F s1 h hworks hpre p
  obtain ⟨hopc, hexec⟩ := storeRows_run row hrow
  refine ⟨_, (hexec site f s).trans (h.fire_works hpre hworks), ?_⟩
  by_cases hloc : p.lvl = 0
  · obtain ⟨hrest, hsent, hflies, htoken⟩ := (s1.begin F).store_loc F p F.a hloc
    obtain ⟨hissued, hconsumed, huntouched, hreqs⟩ := (h.issueShown hopc).sent hrest hsent
    exact ⟨hissued, hconsumed, huntouched, fun hne => absurd hloc hne,
      fun _ => ⟨hreqs, hflies.of_flight (s1.begin_flight F F.cell).symm, htoken⟩⟩
  · obtain ⟨hissued, hconsumed, huntouched, hqueued⟩ := (h.issueShown hopc).enqueue
      (.store (p.lvl == 2) (BitVec.ofNat 64 F.a.toNat)) .issued p F.kind 0
    rw [← (s1.begin F).store_remote F p F.a hloc] at hissued hconsumed huntouched hqueued
    exact ⟨hissued, hconsumed, huntouched, fun _ => hqueued, fun h0 => absurd h0 hloc⟩

end Sys2Proof

namespace Sys2Proof.Machine
open Sys2Proof

/-! Atomics (R226, R228, R233, R234). -/

/-- A word's access, at its bank or as a request of the decoupling queue. -/
def State.rmwAct (s : State) (F : Firing) (lvl : Nat) (p : Place) (op : RmwOp) (body : ReqBody) : State :=
  if lvl = 0 then (s.begin F).locAtomic F p op else (s.begin F).enqueue F body .issued p F.kind 0

section
variable {s s1 : State} {opc : Nat} {site : Site} {f : OpFields} {F : Firing} (h : Fires s opc site f F s1)
  (hworks : F.works = true) (lvl : Nat)
include h hworks

theorem State.fireAtomic_of_fires (hpre : preAtomic 2 (pickB f) s1 F = none) : s.fireAtomic opc lvl site f =
    .next (s1.rmwAct F lvl (s1.place F (pickB f F)) (.atomic f.ty (immAop f) (immOrd f) (immScope f) F.a)
      (.atomic (lvl == 2) f.ty (immAop f) (immOrd f) (immScope f) F.a)) :=
  h.fire_works hpre hworks

theorem State.fireCas_of_fires (hpre : preAtomic 3 (pickC f) s1 F = none) : s.fireCas opc lvl site f =
    .next (s1.rmwAct F lvl (s1.place F (pickC f F)) (.cas (immOrd f) (immScope f) F.a F.b)
      (.cas (lvl == 2) (immOrd f) (immScope f) F.a F.b)) :=
  h.fire_works hpre hworks

end

end Sys2Proof.Machine

namespace Sys2Proof
open Machine

/-- What the access of a word shows, by the operator's level. -/
theorem Fires.rmwAct_shows {s s1 : State} {opc : Nat} {site : Site} {f : OpFields} {F : Firing} (h : Fires s opc site f F s1)
    (hopc : opc ≠ 0x85) (lvl : Nat) (p : Place) (op : RmwOp) (body : ReqBody) :
    let t := s1.rmwAct F lvl p op body
    Issued s t F ∧ Consumed s t F ∧ Untouched s t ∧ (lvl ≠ 0 → Queued s t F body .issued p F.kind) ∧
      (lvl = 0 → t.reqs = s.reqs ∧ LateSent s1 t F F.kind (.rmw F.cell (F.cyc + 2 + F.late + F.deal) p.addr p.swz op)) := by
  intro t
  by_cases hloc : lvl = 0
  · have ht : t = (s1.begin F).lateResult F F.kind 2 (.rmw F.cell (F.cyc + 2 + F.late + F.deal) p.addr p.swz op) := if_pos hloc
    obtain ⟨hissued, hconsumed, huntouched, hlate⟩ := (h.issueShown hopc).lateResult F.kind
      (.rmw F.cell (F.cyc + 2 + F.late + F.deal) p.addr p.swz op)
    rw [← ht] at hissued hconsumed huntouched hlate
    exact ⟨hissued, hconsumed, huntouched, fun hne => absurd hloc hne, fun _ => hlate⟩
  · have ht : t = (s1.begin F).enqueue F body .issued p F.kind 0 := if_neg hloc
    obtain ⟨hissued, hconsumed, huntouched, hqueued⟩ := (h.issueShown hopc).enqueue body .issued p F.kind 0
    rw [← ht] at hissued hconsumed huntouched hqueued
    exact ⟨hissued, hconsumed, huntouched, fun _ => hqueued, fun h0 => absurd h0 hloc⟩

/-- Settles O20: each level's operator runs the access of its level, and the functions are those of R233 and R234. -/
theorem atomicsComplete : Obligations.AtomicsComplete := by
  refine ⟨?atomic, ?cas, fun ty aop o sc a old => ⟨fun haop => if_neg haop, rfl, fun n => rfl⟩⟩
  case atomic =>
    intro e he site f s F s1 h hworks hpre
    simp only [List.mem_cons, List.not_mem_nil, or_false] at he
    obtain rfl | rfl | rfl := he
    all_goals exact ⟨_, State.fireAtomic_of_fires h hworks _ hpre, h.rmwAct_shows (by decide) _ _ _ _⟩
  case cas =>
    intro e he site f s F s1 h hworks hpre
    simp only [List.mem_cons, List.not_mem_nil, or_false] at he
    obtain rfl | rfl | rfl := he
    all_goals exact ⟨_, State.fireCas_of_fires h hworks _ hpre, h.rmwAct_shows (by decide) _ _ _ _⟩

end Sys2Proof

namespace Sys2Proof.Machine
open Sys2Proof

/-! Cursors, fences and prefetches (R236 to R238). -/

/-- The cursor written is the cursor read (R73, R105). -/
theorem Plane.setCur_cur (p : Plane) (n cur : Nat) : ((p.setCur n cur).handle n).cur = cur % 65536 := by
  have h4 : (p.setCur n cur).htField (8 * n + 4) = BitVec.ofNat 16 ((p.htField (8 * n + 4)).toNat % 4096 + cur % 65536 % 16 * 4096) := by
    simp only [Plane.setCur, Plane.setHt, Plane.htField]
    rw [Map.get_set_other _ _ _ _ _ (by omega), Map.get_set_same]
  have h5 : (p.setCur n cur).htField (8 * n + 5) = BitVec.ofNat 16 ((p.htField (8 * n + 5)).toNat / 4096 * 4096 + cur % 65536 / 16) := by
    simp only [Plane.setCur, Plane.setHt, Plane.htField]
    rw [Map.get_set_same]
  have hlow := joinFields_lt (p.setCur n cur).htField (8 * n) 4
  have hx := (p.htField (8 * n + 5)).isLt
  simp only [Plane.handle, handleOf, Plane.handleWord, bitsN, joinFields, h4, h5, BitVec.toNat_ofNat] at hlow ⊢
  omega

end Sys2Proof.Machine

namespace Sys2Proof
open Machine

/-- A cursor set behind the issue, and a result behind that. -/
theorem IssueShown.seek {s s1 u : State} {F : Firing} (h : IssueShown s s1 F u) (n cur : Nat) (k : Kind) (v : Word) :
    let t := (u.updCell F.cell (fun c => c.setCur n cur)).result F k v flagNone 2
    Issued s t F ∧ Consumed s t F ∧ ((t.cell F.cell).handle n).cur = cur % 65536 ∧ ResultSent s1 t F k v 0 2 := by
  intro t
  have hset : ∀ c, (u.cell c).SameIssue ((u.updCell F.cell (fun c => c.setCur n cur)).cell c) :=
    State.updCell_cell_rel Cell.SameIssue.refl (fun x => x.setCur_sameIssue n cur) u F.cell
  have hsent := (u.updCell F.cell (fun c => c.setCur n cur)).result_sent F k v flagNone 2
  have hcell := u.updCell_cell_same F.cell (fun c => c.setCur n cur)
  refine ⟨h.issued.of_sameIssue ((hset _).trans (hsent _).sameIssue), h.consumed.of_sameIssue ((hset _).trans (hsent _).sameIssue), ?_, ?_⟩
  · rw [(hsent F.cell).handle, hcell]
    exact Plane.setCur_cur _ _ _
  · refine (State.resultSent_result _ F k v flagNone 2).of_cursors ?_ fun m => ?_
    · rw [hcell, ← h.flight]
      rfl
    · rw [hcell, ← h.handle]
      exact (Plane.setCur_handle _ n m cur).symm

/-- Settles O21: the act of each operator behind its issue; a fence's closing of held updates changes no cell and no request. -/
theorem cursorFencePrefetchComplete : Obligations.CursorFencePrefetchComplete := by
  intro site f s F s1 hworks
  refine ⟨fun h => ?hseek, fun h => ?htell, fun h => ?fence, fun h => ?pfg⟩
  all_goals
    have hshown := h.issueShown (by decide)
    refine ⟨_, h.fire_works (pre := noFault) rfl hworks, ?_⟩
  case hseek =>
    simp only [hshown.handle]
    exact hshown.seek _ _ _ _
  case htell =>
    obtain ⟨hissued, hconsumed, huntouched, -⟩ := hshown.sent (.result _ _ _ _ _ _) (State.result_sent _ _ _ _ _ _)
    refine ⟨hissued, hconsumed, huntouched, ?_⟩
    rw [hshown.handle]
    exact (State.resultSent_result _ _ _ _ _ _).of_begin
  case fence =>
    have hclosed (c : Nat) : ((s1.begin F).cell c).SameIssue
        ((((s1.begin F).closePairs ((s1.begin F).covered (immScope f) F.cell)).1).cell c) := by
      rw [State.closePairs_cell]
      exact .refl _
    exact ⟨hshown.issued.of_sameIssue (hclosed _), hshown.consumed.of_sameIssue (hclosed _), _,
      (State.queued_enqueue _ _ _ _ _ _ _).of_reqs ((State.closePairs_reqs _ _).trans hshown.reqs)⟩
  case pfg =>
    dsimp only
    generalize s1.place F (if modCur f then .cur else .index F.a) = p
    by_cases hin : p.inRange = true
    · simp only [if_pos hin]
      exact hshown.enqueue _ _ _ _ _
    · simp only [if_neg hin]
      exact hshown.enqueue _ _ _ _ _

end Sys2Proof
end

