-- ==== Sys2Proof/Proofs/FlushedCopy.lean ====
section
/-! Settles O23: a copy of `filt` that flushes while the word's SC names a channel with a DONE at its head (R56, R244). The signature of `filt` has no
use for SC, so SEAL refuses the word; the statement speaks of all words, and the flush reads SC. -/

namespace Sys2Proof.Machine
open Sys2Proof

/-- The slot of a site fires: it is ready, and its operands read without a fault. -/
def State.firesAt (s : State) (opc : Nat) (site : Site) (f : OpFields) : Bool :=
  s.ready opc site f && (s.instAt site.cell.val).any fun i => (s.feed i site.cell.val site.slot.val).any fun fd =>
    (s.operands opc site (s.slotNeeds opc site f).1 i fd (s.slotNeeds opc site f).2.cursor).isOk

theorem State.fires_of_firesAt {s : State} {opc : Nat} {site : Site} {f : OpFields} (h : s.firesAt opc site f = true) :
    ∃ F s1, Fires s opc site f F s1 := by
  simp only [State.firesAt, Bool.and_eq_true, Option.any_eq_true] at h
  obtain ⟨hready, i, hi, fd, hfd, hok⟩ := h
  cases hop : s.operands opc site (s.slotNeeds opc site f).1 i fd (s.slotNeeds opc site f).2.cursor with
  | error e =>
    rw [hop] at hok
    cases hok
  | ok r => exact ⟨r.1, r.2, hready, i, fd, hi, hfd, hop⟩

/-- What counts no segments finds none open (R240). -/
theorem openAtDone_uncounted (full : Bool) (s : State) (F : Firing) : openAtDone false full s F = none := if_neg fun h => nomatch h.1

theorem State.openCopy_uncounted (s : State) (F : Firing) (full : Bool) : s.openCopy F false full = none := if_pos rfl

/-- A slot configured in cell 0 with one copy, in cell 1 (R55): the copy owes its flush, and channel 2 of cell 0 has a DONE. -/
def flushingCopy : State :=
  ((State.reset.placeOne.updInst 1 (fun i => { i with w := 2 })).updCell 0 (fun c =>
    { c.setChan 2 [mkToken 0 .done 0 []] with active := c.active.setOp 0x40 0x8200 })).updCell 1 (fun c =>
      { c.setSlot 0 { SlotState.zero with k := 1 } with active := { c.active.setOp 0x40 0x8000 with marks := 1 } })

/-- A `filt` whose SC consumes channel 2. -/
def filtThirdOperand : OpFields := ⟨.raw32, 0, .none, .none, .chan 2, .none, 0⟩

theorem flushingCopy_fires : flushingCopy.firesAt 0x85 ⟨1, 0⟩ filtThirdOperand = true := by decide

theorem flushingCopy_slot : (flushingCopy.cell 1).slot 0 = { SlotState.zero with k := 1 } := by decide

/-- The slot's iteration counter in cell 1 after an answer of the flush. -/
def flushedIter : Host.Outcome State Fault Refusal → Nat
  | .next t => ((t.cell 1).slot 0).iter
  | _ => 0

/-- The copy that flushes is fired once more with the slot's other copies, among which its own cell stands: its counter moves by 2 (R54, R56). -/
theorem flushingCopy_counts_twice : flushedIter (exec (.filt ⟨1, 0⟩ filtThirdOperand) flushingCopy) = 2 := by decide

end Sys2Proof.Machine

namespace Sys2Proof
open Machine

/-- A firing is one of its site, also where a flush reads other fields than the word's (R244). -/
theorem Fires.cell_slot {s s1 : State} {opc : Nat} {site : Site} {f : OpFields} {F : Firing} (h : Fires s opc site f F s1) :
    F.cell = site.cell.val ∧ F.slot = site.slot.val := by
  obtain ⟨-, _, _, -, -, hop⟩ := h
  exact ⟨(State.operands_readFiring hop).cell, (State.operands_readFiring hop).slot⟩

/-- Refutes O23: a copy's flush of `filt` that consumes a DONE at SC, an operand that SEAL refuses and the statement does not, counts twice, where
R54 has one firing count 1. -/
theorem not_streamOperatorsComplete : ¬ Obligations.StreamOperatorsComplete := by
  rintro ⟨-, hfilt, -⟩
  obtain ⟨F, s1, hfires⟩ := State.fires_of_firesAt flushingCopy_fires
  have hflush : (!decide (((flushingCopy.cell 1).slot 0).k % 2 = 1)) = false := by
    rw [flushingCopy_slot]
    rfl
  obtain ⟨t, ht, ⟨-, -, hiter⟩, -⟩ := hfilt ⟨1, 0⟩ filtThirdOperand flushingCopy F s1 hfires
    ((congrArg (openAtDone · true s1 F) hflush).trans (openAtDone_uncounted true s1 F))
    ((congrArg (flushingCopy.openCopy F · true) hflush).trans (flushingCopy.openCopy_uncounted F true))
  obtain ⟨hcell, hslot⟩ := hfires.cell_slot
  rw [hcell, hslot] at hiter
  have honce : ((t.cell 1).slot 0).iter = (((flushingCopy.cell 1).slot 0).iter + 1) % 2 ^ 32 := hiter
  have htwice : ((t.cell 1).slot 0).iter = 2 := (congrArg flushedIter ht).symm.trans flushingCopy_counts_twice
  rw [flushingCopy_slot, htwice] at honce
  exact absurd honce (by decide)

end Sys2Proof
end

