-- ==== Sys2Proof/Proofs/RouterSteps.lean ====
section
/-! What a step of a route entry shows (R245): the heads it takes from its inputs, the tokens it sends behind those of its outputs, and its new state. -/

namespace Sys2Proof.Machine
open Sys2Proof

/-! FIFOs of a port and VC. -/

theorem pvKey_portVc_inj {p q : PortVc} : pvKey p.port.val p.vc.val = pvKey q.port.val q.vc.val ↔ p = q := by
  refine ⟨fun h => ?_, fun h => congrArg (fun x : PortVc => pvKey x.port.val x.vc.val) h⟩
  have hp := p.vc.isLt
  have hq := q.vc.isLt
  unfold pvKey at h
  cases p
  cases q
  simp only [PortVc.mk.injEq, Fin.ext_iff] at *
  omega

theorem Cell.setInFifo_inFifo_other {p x : PortVc} (h : p ≠ x) (c : Cell) (q : List Token) :
    (c.setInFifo p.port.val p.vc.val q).inFifo x.port.val x.vc.val = c.inFifo x.port.val x.vc.val :=
  Map.get_set_other _ _ _ _ _ fun he => h (pvKey_portVc_inj.mp he).symm

theorem Cell.setLinkQ_linkQ_other {p x : PortVc} (h : p ≠ x) (c : Cell) (q : List LinkTok) :
    (c.setLinkQ p.port.val p.vc.val q).linkQ x.port.val x.vc.val = c.linkQ x.port.val x.vc.val :=
  Map.get_set_other _ _ _ _ _ fun he => h (pvKey_portVc_inj.mp he).symm

/-! The heads taken. -/

theorem State.inPop_inFifo_portVc (s : State) (cell : Nat) (p x : PortVc) :
    ((s.inPop cell (pvOf p)).cell cell).inFifo x.port.val x.vc.val =
      ((s.cell cell).inFifo x.port.val x.vc.val).drop (if p = x then 1 else 0) := by
  obtain rfl | hne := eq_or_ne p x
  · rw [if_pos rfl, List.drop_one]
    exact s.inPop_inFifo cell _ _
  · rw [if_neg hne, List.drop_zero, State.inPop, State.updCell_cell_same]
    exact Cell.setInFifo_inFifo_other hne _ _

theorem State.inPops_inFifo (ins : List PortVc) (s : State) (cell : Nat) (x : PortVc) :
    (((ins.map pvOf).foldl (fun a y => a.inPop cell y) s).cell cell).inFifo x.port.val x.vc.val =
      ((s.cell cell).inFifo x.port.val x.vc.val).drop (ins.count x) := by
  induction ins generalizing s with
  | nil => rfl
  | cons p ins ih =>
    rw [List.map_cons, List.foldl_cons, ih, State.inPop_inFifo_portVc, List.drop_drop, List.count_cons, Nat.add_comm]
    simp only [beq_iff_eq]

theorem State.inPops_sent (ins : List (Nat × Nat)) (s : State) (cell : Nat) :
    ((ins.foldl (fun a y => a.inPop cell y) s).cell cell).flight = (s.cell cell).flight ∧
      ((ins.foldl (fun a y => a.inPop cell y) s).cell cell).link = (s.cell cell).link := by
  refine List.foldlRecOn ins _ (motive := fun a : State => (a.cell cell).flight = (s.cell cell).flight ∧ (a.cell cell).link = (s.cell cell).link)
    ⟨rfl, rfl⟩ ?_
  rintro a ⟨hflight, hlink⟩ y -
  rw [State.inPop, State.updCell_cell_same]
  exact ⟨hflight, hlink⟩

/-! The tokens sent. -/

theorem State.routeOut_rin (s : State) (cell : Nat) (o : Nat × Nat) (t : Token) (delay : Nat) (lane : Option (Nat × Nat)) :
    ((s.routeOut cell o t delay lane).cell cell).rin = (s.cell cell).rin := by
  unfold State.routeOut
  split <;> simp

/-- The tokens on their way out of an output: on its link, or in flight to the PE's channel (R48, R51). -/
def Cell.outbox (c : Cell) (x : PortVc) : List Token :=
  if x.port.val = 4 then (c.flight.filter (fun f => f.dst == .chan x.vc.val)).filterMap Flight.tok
  else (c.linkQ x.port.val x.vc.val).map LinkTok.tok

theorem Cell.outbox_congr {c d : Cell} (hflight : d.flight = c.flight) (hlink : d.link = c.link) (x : PortVc) : d.outbox x = c.outbox x := by
  simp only [Cell.outbox, Cell.linkQ, hflight, hlink]

/-- The tokens of a step that go out of one output, in the order listed. -/
def tokensTo (outs : List (PortVc × Token)) (x : PortVc) : List Token := (outs.filter (fun e => e.1 == x)).map Prod.snd

@[simp] theorem tokensTo_nil (x : PortVc) : tokensTo [] x = [] := rfl

@[simp] theorem tokensTo_cons_same (x : PortVc) (t : Token) (outs : List (PortVc × Token)) : tokensTo ((x, t) :: outs) x = t :: tokensTo outs x := by
  simp [tokensTo]

theorem tokensTo_cons_other {p x : PortVc} (h : p ≠ x) (t : Token) (outs : List (PortVc × Token)) : tokensTo ((p, t) :: outs) x = tokensTo outs x := by
  simp [tokensTo, h]

/-- A token sent stands behind those of its output. -/
theorem State.routeOut_outbox_same (s : State) (cell : Nat) (p : PortVc) (t : Token) (delay : Nat) (lane : Option (Nat × Nat)) :
    ((s.routeOut cell (pvOf p) t delay lane).cell cell).outbox p = (s.cell cell).outbox p ++ [t] := by
  by_cases hp : p.port.val = 4
  · simp [State.routeOut, Cell.outbox, pvOf, hp]
  · simp [State.routeOut, Cell.outbox, pvOf, hp]

/-- A token sent changes no other output. -/
theorem State.routeOut_outbox_other {p x : PortVc} (h : p ≠ x) (s : State) (cell : Nat) (t : Token) (delay : Nat) (lane : Option (Nat × Nat)) :
    ((s.routeOut cell (pvOf p) t delay lane).cell cell).outbox x = (s.cell cell).outbox x := by
  by_cases hp : p.port.val = 4
  · by_cases hx : x.port.val = 4
    · have hvc : p.vc.val ≠ x.vc.val := fun hv => h (pvKey_portVc_inj.mp (by rw [hp, hx, hv]))
      simp [State.routeOut, Cell.outbox, pvOf, hp, hx, hvc]
    · simp [State.routeOut, Cell.outbox, pvOf, hp, hx, Cell.linkQ]
  · by_cases hx : x.port.val = 4
    · simp [State.routeOut, Cell.outbox, pvOf, hp, hx, Cell.setLinkQ]
    · simp [State.routeOut, Cell.outbox, pvOf, hp, hx, Cell.setLinkQ_linkQ_other h]

theorem State.routeOut_outbox (s : State) (cell : Nat) (e : PortVc × Token) (delay : Nat) (lane : Option (Nat × Nat)) (x : PortVc) :
    ((s.routeOut cell (pvOf e.1) e.2 delay lane).cell cell).outbox x = (s.cell cell).outbox x ++ tokensTo [e] x := by
  obtain ⟨p, t⟩ := e
  obtain rfl | hne := eq_or_ne p x
  · rw [tokensTo_cons_same, tokensTo_nil, State.routeOut_outbox_same]
  · rw [tokensTo_cons_other hne, tokensTo_nil, List.append_nil, State.routeOut_outbox_other hne]

/-- The tokens of a step that leave at once (R245). -/
def State.routeOuts (s : State) (cell : Nat) (outs : List (PortVc × Token)) : State :=
  outs.foldl (fun a e => a.routeOut cell (pvOf e.1) e.2 0) s

theorem State.routeOuts_rin (s : State) (cell : Nat) (outs : List (PortVc × Token)) :
    ((s.routeOuts cell outs).cell cell).rin = (s.cell cell).rin :=
  List.foldlRecOn outs _ (motive := fun a : State => (a.cell cell).rin = (s.cell cell).rin) rfl
    fun a ha _ _ => (a.routeOut_rin cell _ _ _ _).trans ha

theorem State.routeOuts_outbox (outs : List (PortVc × Token)) (s : State) (cell : Nat) (x : PortVc) :
    ((s.routeOuts cell outs).cell cell).outbox x = (s.cell cell).outbox x ++ tokensTo outs x := by
  induction outs generalizing s with
  | nil => exact (List.append_nil _).symm
  | cons e outs ih =>
    have hsplit : tokensTo (e :: outs) x = tokensTo [e] x ++ tokensTo outs x := by
      rw [tokensTo, ← List.singleton_append, List.filter_append, List.map_append]
      rfl
    rw [State.routeOuts, List.foldl_cons]
    exact (ih _).trans (by rw [State.routeOut_outbox, hsplit, List.append_assoc])

/-- The tokens of a step leave one after the other, their places aside. -/
theorem State.foldl_zipIdx_routeOut (s : State) (cell : Nat) (outs : List (PortVc × Token)) :
    ((outs.map (fun e => (pvOf e.1, e.2, 0))).zipIdx).foldl (fun (a : State) x => a.routeOut cell x.1.1 x.1.2.1 x.1.2.2) s =
      s.routeOuts cell outs := by
  have hfst : ((outs.map (fun e => (pvOf e.1, e.2, 0))).zipIdx).map Prod.fst = outs.map (fun e => (pvOf e.1, e.2, 0)) :=
    List.zipIdx_map_fst 0 _
  have hfold := congrArg (List.foldl (fun (a : State) x => a.routeOut cell x.1 x.2.1 x.2.2) s) hfst
  rwa [List.foldl_map, List.foldl_map] at hfold

/-- The step that takes the heads of inputs and sends tokens at once. -/
def RouteOut.sending (ins : List PortVc) (outs : List (PortVc × Token)) (st : RouteState) (absorbed : Option Word) : RouteOut :=
  ⟨ins.map pvOf, outs.map (fun e => (pvOf e.1, e.2, 0)), st, 1, absorbed, false⟩

end Sys2Proof.Machine

namespace Sys2Proof
open Machine

theorem outGot_iff {s t : State} {cell : Nat} {x : PortVc} {l : List Token} :
    OutGot s t cell x l ↔ (t.cell cell).outbox x = (s.cell cell).outbox x ++ l := by
  unfold OutGot Cell.outbox
  split <;> rfl

/-! The step. -/

/-- What the step of a route entry shows: its inputs have lost the heads it takes, its outputs have got the tokens it sends, and it stands in its new
state until the next cycle. -/
structure RouteStepped (s t : State) (site : RouteSite) (ins : List PortVc) (outs : List (PortVc × Token)) (st : RouteState) : Prop where
  inFifo : ∀ x : PortVc, (t.cell site.cell.val).inFifo x.port.val x.vc.val =
    ((s.cell site.cell.val).inFifo x.port.val x.vc.val).drop (ins.count x)
  outGot : ∀ x, OutGot s t site.cell.val x (tokensTo outs x)
  route : (t.cell site.cell.val).route site.entry.val =
    { st with nextStep := s.cycle (sectorOfCell site.cell.val) + 1, waitSince := s.dev }

theorem RouteStepped.inLost {s t : State} {site : RouteSite} {ins : List PortVc} {outs : List (PortVc × Token)} {st : RouteState}
    (h : RouteStepped s t site ins outs st) {x : PortVc} (hx : ins.count x = 1) : InLost s t site.cell.val x := by
  rw [InLost, h.inFifo, hx, List.drop_one]

section
variable {s t : State} {site : RouteSite} {p q : PortVc} {outs : List (PortVc × Token)} {st : RouteState}

theorem RouteStepped.inLost_single (h : RouteStepped s t site [p] outs st) : InLost s t site.cell.val p :=
  h.inLost List.count_singleton_self

theorem RouteStepped.inLost_pair (h : RouteStepped s t site [p, q] outs st) (hne : p ≠ q) :
    InLost s t site.cell.val p ∧ InLost s t site.cell.val q :=
  ⟨h.inLost (by simp [hne.symm]), h.inLost (by simp [hne])⟩

theorem RouteStepped.outGot_head {ins : List PortVc} {x : Token} (h : RouteStepped s t site ins [(p, x)] st) :
    OutGot s t site.cell.val p [x] := by
  simpa using h.outGot p

theorem RouteStepped.outGot_other {ins : List PortVc} {x : Token} (h : RouteStepped s t site ins [(p, x)] st) (hne : p ≠ q) :
    OutGot s t site.cell.val q [] := by
  simpa [tokensTo_cons_other hne] using h.outGot q

end

theorem EntryReady.mono {s : State} {site : RouteSite} {named fewer : List PortVc} (hready : EntryReady s site named) (h : fewer ⊆ named) :
    EntryReady s site fewer := by
  obtain ⟨i, hi, hmay, hver⟩ := hready
  exact ⟨i, hi, hmay, fun p hp => hver p (h hp)⟩

section
variable {s : State} {site : RouteSite} {named : List PortVc} {reads : List (Nat × Nat)} {g : RouteState → RouteStep}
  (hready : EntryReady s site named) (hreads : reads ⊆ named.map pvOf)
include hready hreads

/-- An entry that may step finds no head of another version. -/
theorem EntryReady.version :
    (reads.filterMap (s.inHead site.cell.val)).find? (fun t => t.ver != (s.cell site.cell.val).active.ver) = none := by
  obtain ⟨-, -, -, hver⟩ := hready
  rw [List.find?_eq_none]
  intro t ht
  obtain ⟨y, hy, hhead⟩ := List.mem_filterMap.mp ht
  obtain ⟨p, hp, rfl⟩ := List.mem_map.mp (hreads hy)
  simp [hver p hp t hhead]

/-- An entry that has to wait leaves the state as it is. -/
theorem EntryReady.waits (hg : g ((s.cell site.cell.val).route site.entry.val) = .wait) : s.routeStep site reads g = .next s := by
  have hver := hready.version hreads
  obtain ⟨i, hi, hmay, -⟩ := hready
  simp [State.routeStep, hi, hmay, hver, hg]

/-- An entry that may step, with credit for what it sends, makes its step. -/
theorem EntryReady.steps {ins : List PortVc} {outs : List (PortVc × Token)} {st : RouteState} {absorbed : Option Word}
    (hg : g ((s.cell site.cell.val).route site.entry.val) = .step (RouteOut.sending ins outs st absorbed))
    (hcredit : ∀ e ∈ outs, s.hasCredit site.cell.val (pvOf e.1) = true) :
    ∃ t, s.routeStep site reads g = .next t ∧ RouteStepped s t site ins outs st := by
  have hver := hready.version hreads
  obtain ⟨i, hi, hmay, -⟩ := hready
  have hall : (outs.map (fun e => (pvOf e.1, e.2, 0))).all (fun x => s.hasCredit site.cell.val x.1) = true := by
    simpa using hcredit
  have hcell : ∃ t, s.routeStep site reads g = .next t ∧ t.cell site.cell.val =
      ((((ins.map pvOf).foldl (fun a y => a.inPop site.cell.val y) s).routeOuts site.cell.val outs).cell site.cell.val).setRoute site.entry.val
        { st with nextStep := s.cycle (sectorOfCell site.cell.val) + 1, waitSince := s.dev } := by
    simp only [State.routeStep, hi, hmay, hver, hg, RouteOut.sending, hall, State.foldl_zipIdx_routeOut, Bool.not_true,
      Bool.false_eq_true, if_false, if_true]
    refine ⟨_, rfl, ?_⟩
    cases absorbed <;> simp
  obtain ⟨t, hnext, hcell⟩ := hcell
  obtain ⟨hflight, hlink⟩ := s.inPops_sent (ins.map pvOf) site.cell.val
  refine ⟨t, hnext, fun x => ?_, fun x => ?_, ?_⟩
  · rw [hcell, ← State.inPops_inFifo]
    exact congrArg (fun m => Map.get [] m _) (State.routeOuts_rin _ _ _)
  · rw [outGot_iff, hcell, Cell.outbox_congr (Cell.setRoute_flight _ _ _) (Cell.setRoute_link _ _ _), State.routeOuts_outbox,
      Cell.outbox_congr hflight hlink]
  · rw [hcell, Cell.setRoute_route_same]

/-- A step that discards nothing. -/
theorem EntryReady.steps_plain {ins : List PortVc} {outs : List (PortVc × Token)} {st : RouteState}
    (hg : g ((s.cell site.cell.val).route site.entry.val) = RouteOut.plain st (ins.map pvOf) (outs.map (fun e => (pvOf e.1, e.2))))
    (hcredit : ∀ e ∈ outs, s.hasCredit site.cell.val (pvOf e.1) = true) :
    ∃ t, s.routeStep site reads g = .next t ∧ RouteStepped s t site ins outs st := by
  refine hready.steps hreads (absorbed := none) ?_ hcredit
  rw [hg, RouteOut.plain, RouteOut.sending, List.map_map]
  rfl

end

end Sys2Proof
end

