-- ==== Sys2Proof/Proofs/RouterOperators.lean ====
section
/-! Settles O30 to O32: the step of each router operator (R248 to R252, R254 to R256), by the heads it finds and the state of its entry. -/

namespace Sys2Proof.Machine
open Sys2Proof

theorem Token.isValue_kind {t : Token} (h : t.isValue = true) : t.kind = .data ∨ t.kind = .last := by
  simpa [Token.isValue] using h

theorem Token.isValue_ne_done {t : Token} (h : t.isValue = true) : t.kind ≠ .done := by
  obtain hk | hk := Token.isValue_kind h <;> simp [hk]

theorem Token.isValue_ne_poison {t : Token} (h : t.isValue = true) : t.kind ≠ .poison := by
  obtain hk | hk := Token.isValue_kind h <;> simp [hk]

end Sys2Proof.Machine

namespace Sys2Proof
open Machine

theorem exec_route (site : RouteSite) (f : RouteFields) (s : State) : exec (.route site f) s = execRoute site f s := rfl

theorem exec_fork (site : RouteSite) (f : RouteFields) (s : State) : exec (.fork site f) s = execFork site f s := rfl

theorem exec_join (site : RouteSite) (f : RouteFields) (s : State) : exec (.join site f) s = execJoin site f s := rfl

theorem exec_steer (site : RouteSite) (f : RouteFields) (s : State) : exec (.steer site f) s = execSteer site f s := rfl

theorem exec_merge (site : RouteSite) (f : RouteFields) (s : State) : exec (.merge site f) s = execMerge site f s := rfl

theorem exec_drop (site : RouteSite) (f : RouteFields) (s : State) : exec (.drop site f) s = execDrop site f s := rfl

theorem exec_carry (site : RouteSite) (f : RouteFields) (s : State) : exec (.carry site f) s = execCarry site f s := rfl

theorem exec_invar (site : RouteSite) (f : RouteFields) (s : State) : exec (.invar site f) s = execInvar site f s := rfl

theorem exec_part (site : RouteSite) (f : RouteFields) (s : State) : exec (.part site f) s = execPart site f s := rfl

theorem exec_comb (site : RouteSite) (f : RouteFields) (s : State) : exec (.comb site f) s = execComb site f s := rfl

/-! Forwarding, joining and choosing (R248 to R250). -/

section
variable {s : State} {site : RouteSite} {f : RouteFields} {a p d : Token}

theorem route_gives (hready : EntryReady s site [f.a]) (ha : s.inHead site.cell.val (pvOf f.a) = some a)
    (hx : s.hasCredit site.cell.val (pvOf f.x) = true) :
    Gives (.route site f) s (RouteStepped s · site [f.a] [(f.x, a)] ((s.cell site.cell.val).route site.entry.val)) := by
  rw [Gives, exec_route, execRoute]
  exact hready.steps_plain (List.Subset.refl _) (by rw [ha]; rfl) (by simpa using hx)

theorem fork_gives (hready : EntryReady s site [f.a]) (ha : s.inHead site.cell.val (pvOf f.a) = some a)
    (hx : s.hasCredit site.cell.val (pvOf f.x) = true) (hy : s.hasCredit site.cell.val (pvOf f.y) = true) :
    Gives (.fork site f) s (RouteStepped s · site [f.a] [(f.x, a), (f.y, a)] ((s.cell site.cell.val).route site.entry.val)) := by
  rw [Gives, exec_fork, execFork]
  exact hready.steps_plain (List.Subset.refl _) (by rw [ha]; rfl) (by simp [hx, hy])

theorem join_gives {k : Kind} {w : Word} (hready : EntryReady s site [f.a, f.p]) (ha : s.inHead site.cell.val (pvOf f.a) = some a)
    (hp : s.inHead site.cell.val (pvOf f.p) = some p) (hkind : joinKind a p = some (k, w))
    (hx : s.hasCredit site.cell.val (pvOf f.x) = true) :
    Gives (.join site f) s (RouteStepped s · site [f.a, f.p] [(f.x, (a.withDeps p.deps).retag k w)]
      ((s.cell site.cell.val).route site.entry.val)) := by
  rw [Gives, exec_join, execJoin]
  exact hready.steps_plain (List.Subset.refl _) (by simp only [ha, hp, hkind]; rfl) (by simpa using hx)

variable (hp : s.inHead site.cell.val (pvOf f.p) = some p) (hvalue : p.isValue = true) (hd : d.kind ≠ .done)
include hp hvalue hd

/-- A value at P sends the data to the output it names (R249). -/
theorem steer_gives (hready : EntryReady s site [f.a, f.p]) (ha : s.inHead site.cell.val (pvOf f.a) = some d)
    (hcredit : s.hasCredit site.cell.val (pvOf (if predTrue p then f.x else f.y)) = true) :
    Gives (.steer site f) s (RouteStepped s · site [f.a, f.p] [(if predTrue p then f.x else f.y, d.withDeps p.deps)]
      ((s.cell site.cell.val).route site.entry.val)) := by
  rw [Gives, exec_steer, execSteer]
  refine hready.steps_plain (List.Subset.refl _) ?_ (by simpa using hcredit)
  simp only [ha, hp, hd, Token.isValue_ne_done hvalue, Token.isValue_ne_poison hvalue, false_and, or_self, if_false]
  split <;> rfl

/-- A value at P takes the data from the input it names (R250). -/
theorem merge_gives (hready : EntryReady s site [f.a, f.p, f.y])
    (hin : s.inHead site.cell.val (pvOf (if predTrue p then f.a else f.y)) = some d)
    (hcredit : s.hasCredit site.cell.val (pvOf f.x) = true) :
    Gives (.merge site f) s (RouteStepped s · site [f.p, if predTrue p then f.a else f.y] [(f.x, d.withDeps p.deps)]
      ((s.cell site.cell.val).route site.entry.val)) := by
  rw [Gives, exec_merge, execMerge]
  refine hready.steps_plain ?_ ?_ (by simpa using hcredit)
  · cases hpred : predTrue p <;> simp [hp, hvalue, hpred]
  · simp only [hp, hvalue, true_and, Token.isValue_ne_done hvalue, Token.isValue_ne_poison hvalue, if_false]
    rw [← apply_ite pvOf, hin]
    simp only [hd, if_false]
    rfl

end

/-- Settles O30: what each of these operators takes and sends, read at its inputs and outputs. -/
theorem passingAndChoosingRoutersComplete : Obligations.PassingAndChoosingRoutersComplete := by
  unfold Obligations.PassingAndChoosingRoutersComplete
  refine ⟨fun site f s a ha hx => ⟨fun hready => ?_, fun hready hxy hy => ?_, fun p k w hready hap hp hkind => ?_⟩,
    fun site f s d p hp hvalue hd hready => ⟨fun hap hxy ha hcredit => ?_, fun hap hpy hin hcredit => ?_⟩⟩
  · exact (route_gives hready ha hx).imp fun t h => ⟨h.inLost_single, h.outGot_head⟩
  · refine (fork_gives hready ha hx hy).imp fun t h => ⟨h.inLost_single, ?_, ?_⟩
    · simpa [tokensTo_cons_other hxy.symm] using h.outGot f.x
    · simpa [tokensTo_cons_other hxy] using h.outGot f.y
  · refine (join_gives hready ha hp hkind hx).imp fun t h => ?_
    obtain ⟨hinA, hinP⟩ := h.inLost_pair hap
    exact ⟨hinA, hinP, h.outGot_head⟩
  · refine (steer_gives hp hvalue hd (hready.mono (by simp)) ha hcredit).imp fun t h => ?_
    obtain ⟨hinA, hinP⟩ := h.inLost_pair hap
    refine ⟨hinA, hinP, h.outGot_head, h.outGot_other ?_⟩
    cases predTrue p
    · exact hxy.symm
    · exact hxy
  · refine (merge_gives hp hvalue hd hready hin hcredit).imp fun t h => ?_
    have hne : f.p ≠ if predTrue p then f.a else f.y := by
      cases predTrue p
      · exact hpy
      · exact hap.symm
    obtain ⟨hinP, hinD⟩ := h.inLost_pair hne
    exact ⟨hinD, hinP, h.outGot_head⟩

/-! Discarding (R254). -/

section
variable {s : State} {site : RouteSite} {f : RouteFields} {st : RouteState} {x : Token} (hready : EntryReady s site [f.a])
  (hst : (s.cell site.cell.val).route site.entry.val = st) (hx : s.inHead site.cell.val (pvOf f.a) = some x)
include hready hst hx

/-- Below its number, or with none, `drop` takes the head and counts it. -/
theorem drop_gives (hroom : f.arg = 0 ∨ st.c < f.arg.toNat) :
    Gives (.drop site f) s (RouteStepped s · site [f.a] [] { st with c := (st.c + 1) % 4096 }) := by
  rw [Gives, exec_drop, execDrop]
  refine hready.steps (absorbed := if x.kind = .poison then some x.payload else none) (List.Subset.refl _) ?_ (by simp)
  have hopen : ¬(f.arg ≠ 0 ∧ f.arg.toNat ≤ st.c) := by
    rintro ⟨harg, hfull⟩
    exact hroom.elim harg (Nat.not_lt.mpr hfull)
  simp only [hst, hx, if_neg hopen]
  rfl

/-- A `drop` that has taken its number leaves later tokens where they are. -/
theorem drop_full (harg : f.arg ≠ 0) (hfull : f.arg.toNat ≤ st.c) : exec (.drop site f) s = .next s := by
  rw [exec_drop, execDrop]
  exact hready.waits (List.Subset.refl _) (by simp only [hst, hx, if_pos (And.intro harg hfull)])

end

/-- Settles O31: a step that takes the head and counts it, a count that is full, and the flip, which clears every entry's state. -/
theorem dropRule : Obligations.DropRule := by
  unfold Obligations.DropRule
  refine ⟨fun site f s x hx hready => ⟨fun hroom => ?_, drop_full hready rfl hx⟩, fun c cyc e => rfl⟩
  exact (drop_gives hready rfl hx hroom).imp fun t h => ⟨h.inLost_single, h.outGot f.x, congrArg RouteState.c h.route⟩

/-! Loops (R251, R252). -/

section
variable {s : State} {site : RouteSite} {f : RouteFields} {st : RouteState} {d p : Token} (hready : EntryReady s site [f.a, f.p, f.y])
  (hst : (s.cell site.cell.val).route site.entry.val = st)
include hready hst

section
variable (hloop : st.loop = false) (hd : d.kind ≠ .done) (ha : s.inHead site.cell.val (pvOf f.a) = some d)
include hloop hd ha

/-- A loop that is not entered takes the initial value, holds it and sends it. -/
theorem carry_enters (hx : s.hasCredit site.cell.val (pvOf f.x) = true) :
    Gives (.carry site f) s (RouteStepped s · site [f.a] [(f.x, d)] { st with v := some d, loop := true }) := by
  rw [Gives, exec_carry, execCarry]
  refine hready.steps_plain ?_ ?_ (by simpa using hx)
  · simp [hst, hloop]
  · simp only [hst, hloop, ha, hd, if_true, if_false]
    rfl

/-- An `invar` that holds nothing takes a value and holds it. -/
theorem invar_enters :
    Gives (.invar site f) s (RouteStepped s · site [f.a] [] { st with v := some d, loop := true }) := by
  rw [Gives, exec_invar, execInvar]
  refine hready.steps_plain ?_ ?_ (by simp)
  · simp [hst, hloop]
  · simp only [hst, hloop, ha, hd, if_true, if_false]
    rfl

end

section
variable (hloop : st.loop = true) (hp : s.inHead site.cell.val (pvOf f.p) = some p) (hvalue : p.isValue = true)
include hloop hp hvalue

/-- Under a true predicate a loop takes the value that comes back, holds it and sends it. -/
theorem carry_repeats (hpred : predTrue p = true) (hd : d.kind ≠ .done) (hy : s.inHead site.cell.val (pvOf f.y) = some d)
    (hx : s.hasCredit site.cell.val (pvOf f.x) = true) :
    Gives (.carry site f) s (RouteStepped s · site [f.p, f.y] [(f.x, d.withDeps p.deps)]
      { st with v := some (d.withDeps p.deps) }) := by
  rw [Gives, exec_carry, execCarry]
  refine hready.steps_plain ?_ ?_ (by simpa using hx)
  · simp [hst, hloop, hp, hvalue, hpred]
  · simp only [hst, hloop, hp, hvalue, hpred, hy, hd, Token.isValue_ne_done hvalue, Bool.true_eq_false, and_self, if_true, if_false]
    rfl

/-- Under a true predicate an `invar` sends what it holds. -/
theorem invar_repeats (hpred : predTrue p = true) (hv : st.v = some d) (hx : s.hasCredit site.cell.val (pvOf f.x) = true) :
    Gives (.invar site f) s (RouteStepped s · site [f.p] [(f.x, d.withDeps p.deps)] st) := by
  rw [Gives, exec_invar, execInvar]
  refine hready.steps_plain ?_ ?_ (by simpa using hx)
  · simp [hst, hloop]
  · simp only [hst, hloop, hp, hvalue, hpred, hv, Token.isValue_ne_done hvalue, Bool.true_eq_false, and_self, if_true, if_false]
    rfl

/-- Under a false predicate a loop ends and holds nothing. -/
theorem carry_ends (hpred : predTrue p = false) :
    Gives (.carry site f) s (RouteStepped s · site [f.p] [] { st with v := none, loop := false }) := by
  rw [Gives, exec_carry, execCarry]
  refine hready.steps_plain ?_ ?_ (by simp)
  · simp [hst, hloop, hp, hvalue, hpred]
  · simp only [hst, hloop, hp, hpred, Token.isValue_ne_done hvalue, Bool.true_eq_false, Bool.false_eq_true, and_false, if_false]
    rfl

theorem invar_ends (hpred : predTrue p = false) :
    Gives (.invar site f) s (RouteStepped s · site [f.p] [] { st with v := none, loop := false }) := by
  rw [Gives, exec_invar, execInvar]
  refine hready.steps_plain ?_ ?_ (by simp)
  · simp [hst, hloop]
  · simp only [hst, hloop, hp, hpred, Token.isValue_ne_done hvalue, Bool.true_eq_false, Bool.false_eq_true, and_false, if_false]
    rfl

end

end

/-! Partitioning and combining (R256, R255, R407). -/

section
variable {s : State} {site : RouteSite} {f : RouteFields} {a c : Token}

/-- A token that is no DONE goes to the lane that its payload names. -/
theorem part_gives (hlane : f.x.vc.val + partLane f.arg.toNat a.payload < 32) (hready : EntryReady s site [f.a])
    (ha : s.inHead site.cell.val (pvOf f.a) = some a) (hkind : a.kind ≠ .done)
    (hcredit : s.hasCredit site.cell.val (pvOf ⟨f.x.port, ⟨f.x.vc.val + partLane f.arg.toNat a.payload, hlane⟩⟩) = true) :
    Gives (.part site f) s (RouteStepped s · site [f.a] [(⟨f.x.port, ⟨f.x.vc.val + partLane f.arg.toNat a.payload, hlane⟩⟩, a)]
      ((s.cell site.cell.val).route site.entry.val)) := by
  rw [Gives, exec_part, execPart]
  refine hready.steps_plain (List.Subset.refl _) ?_ (by simpa using hcredit)
  simp only [ha, hkind, if_false]
  rfl

/-- Two values of one kind join under it. -/
theorem joinKind_values (ha : a.isValue = true) (hkind : c.kind = a.kind) : joinKind a c = some (a.kind, a.payload) := by
  obtain hk | hk := Token.isValue_kind ha <;> simp [joinKind, hkind, hk]

/-- Two values of one kind whose sum stands give one token of the sum. -/
theorem comb_gives {st : RouteState} (hready : EntryReady s site [f.a, f.p]) (hst : (s.cell site.cell.val).route site.entry.val = st)
    (ha : s.inHead site.cell.val (pvOf f.a) = some a) (hp : s.inHead site.cell.val (pvOf f.p) = some c) (hvalue : a.isValue = true)
    (hkind : c.kind = a.kind) (hdiscard : st.discard = none) (htimeout : st.timeout = none) (hlate : st.late = none)
    (hx : s.hasCredit site.cell.val (pvOf f.x) = true) (hsum : (combStep (f.arg.toNat % 4) st a.payload c.payload).2.2 = none) :
    Gives (.comb site f) s (RouteStepped s · site [f.a, f.p]
      [(f.x, (a.withDeps c.deps).retag a.kind (combStep (f.arg.toNat % 4) st a.payload c.payload).1)]
      (combStep (f.arg.toNat % 4) st a.payload c.payload).2.1) := by
  have ⟨i, hi, _⟩ := hready
  rw [Gives, exec_comb, execComb]
  simp only [hst, hlate, hdiscard, htimeout, hi, ha, hp, hkind, hsum, joinKind_values hvalue hkind, ite_self, ne_eq, not_true_eq_false,
    and_false, Option.isSome_none, Bool.false_eq_true, if_false]
  refine hready.steps_plain (List.Subset.refl _) ?_ (by simpa using hx)
  rw [hst]
  obtain hk | hk := Token.isValue_kind hvalue <;> rw [hk] <;> rfl

end

/-- The low words of an EXACT sum: the sum's low word, its carry kept. -/
theorem combStep_low {st : RouteState} (hphase : st.phase = false) (a c : Word) :
    combStep 1 st a c = (BitVec.ofNat 32 (a.toNat + c.toNat),
      { st with phase := true, carry := decide (2 ^ 32 ≤ a.toNat + c.toNat), c := (a.toNat + c.toNat) % 2 ^ 32 }, none) := by
  simp [combStep, hphase]

/-- The high words of an EXACT sum: they are added with the carry kept. -/
theorem combStep_high {st : RouteState} (hphase : st.phase = true) (a c : Word) :
    (combStep 1 st a c).1.toNat = (a.toNat + c.toNat + st.carry.toNat) % 2 ^ 32 ∧ (combStep 1 st a c).2.1.phase = false := by
  cases hcarry : st.carry <;> simp [combStep, hphase, hcarry]

/-- The two words of an EXACT sum are the sum of the two pairs of words, modulo 2^64. -/
theorem combStep_pair {st : RouteState} (hphase : st.phase = false) (a c a2 c2 : Word) :
    (combStep 1 (combStep 1 st a c).2.1 a2 c2).1.toNat * 2 ^ 32 + (combStep 1 st a c).1.toNat =
      ((a2.toNat * 2 ^ 32 + a.toNat) + (c2.toNat * 2 ^ 32 + c.toNat)) % 2 ^ 64 := by
  have hhigh := (combStep_high (st := (combStep 1 st a c).2.1) (by rw [combStep_low hphase]) a2 c2).1
  have hcarry : (combStep 1 st a c).2.1.carry.toNat = (a.toNat + c.toNat) / 2 ^ 32 := by
    rw [combStep_low hphase, Bool.toNat, Bool.cond_decide]
    have ha := a.isLt
    have hc := c.isLt
    split <;> omega
  rw [hhigh, hcarry, combStep_low hphase, BitVec.toNat_ofNat]
  omega

/-- Settles O32: the steps of a loop by its state and predicate, the lane of `part`, the sum of `comb`, and the two words of an EXACT sum. -/
theorem loopAndReducingRoutersComplete : Obligations.LoopAndReducingRoutersComplete := by
  unfold Obligations.LoopAndReducingRoutersComplete
  refine ⟨fun site f s d p hready hx => ⟨fun hloop ha hd => ⟨?_, ?_⟩, fun hloop hp hvalue hpred => ⟨fun hpy hy hd => ?_, fun hv => ?_⟩,
      fun hloop hp hvalue hpred => ⟨?_, ?_⟩⟩,
    fun site f s a ha => ⟨fun hlane hready hkind hcredit => ?_, fun c hready hap hp hvalue hkind hdiscard htimeout hlate hx hsum => ?_⟩,
    fun st a c a2 c2 hphase => ⟨rfl, ?_, ?_, combStep_pair hphase a c a2 c2⟩⟩
  · exact (carry_enters hready rfl hloop hd ha hx).imp fun t h => ⟨h.inLost_single, h.outGot_head, congrArg RouteState.loop h.route,
      congrArg RouteState.v h.route⟩
  · exact (invar_enters hready rfl hloop hd ha).imp fun t h => ⟨h.inLost_single, h.outGot f.x, congrArg RouteState.loop h.route,
      congrArg RouteState.v h.route⟩
  · refine (carry_repeats hready rfl hloop hp hvalue hpred hd hy hx).imp fun t h => ?_
    obtain ⟨hinP, hinY⟩ := h.inLost_pair hpy
    exact ⟨hinP, hinY, h.outGot_head, (congrArg RouteState.loop h.route).trans hloop⟩
  · exact (invar_repeats hready rfl hloop hp hvalue hpred hv hx).imp fun t h => ⟨h.inLost_single, h.outGot_head,
      (congrArg RouteState.loop h.route).trans hloop, (congrArg RouteState.v h.route).trans hv⟩
  · exact (carry_ends hready rfl hloop hp hvalue hpred).imp fun t h => ⟨h.inLost_single, h.outGot f.x, congrArg RouteState.loop h.route⟩
  · exact (invar_ends hready rfl hloop hp hvalue hpred).imp fun t h => ⟨h.inLost_single, h.outGot f.x, congrArg RouteState.loop h.route⟩
  · exact (part_gives hlane hready ha hkind hcredit).imp fun t h => ⟨h.inLost_single, h.outGot_head⟩
  · refine (comb_gives hready rfl ha hp hvalue hkind hdiscard htimeout hlate hx hsum).imp fun t h => ?_
    obtain ⟨hinA, hinP⟩ := h.inLost_pair hap
    exact ⟨hinA, hinP, h.outGot_head⟩
  · exact congrArg (RouteState.phase ·.2.1) (combStep_low hphase a c)
  · exact (combStep_high (congrArg (RouteState.phase ·.2.1) (combStep_low hphase a c)) a2 c2).2

end Sys2Proof
end

