-- ==== Sys2Proof/Proofs/AccumulatorOperators.lean ====
section
/-! Settles O34: accumulator operators, whose acts and tokens fly behind the issue (R271, R272), and the leaf and root of a reduction (R283, R284). -/

namespace Sys2Proof.Machine
open Sys2Proof

/-! Results put in flight one after another. -/

/-- A state is as another but for results that a firing has put in flight. -/
structure State.Sends (s t : State) : Prop where
  rest : s.FramedRest t
  cell : ∀ c, (s.cell c).SentFrom (t.cell c)

theorem State.Sends.refl (s : State) : s.Sends s := ⟨.refl s, fun _ => .refl _⟩

theorem State.Sends.trans {s t u : State} (h : s.Sends t) (h' : t.Sends u) : s.Sends u :=
  ⟨h.rest.trans h'.rest, fun c => (h.cell c).trans (h'.cell c)⟩

theorem State.sends_fly (s : State) (F : Firing) (d : ResDst) (v : BitVec 64) (lat : Nat) (fl : Flags) (ld : Option Late) :
    s.Sends (s.fly F d v lat fl ld) :=
  ⟨.fly s _ _ _ _ _ _, s.fly_sent _ _ _ _ _ _⟩

theorem State.sends_result (s : State) (F : Firing) (k : Kind) (v : Word) (fl : Flags) (lat : Nat) : s.Sends (s.result F k v fl lat) :=
  ⟨.result s _ _ _ _ _, s.result_sent _ _ _ _ _⟩

theorem State.sends_completion (s : State) (F : Firing) (lat : Nat) : s.Sends (s.completion F lat) := by
  unfold State.completion
  split
  · exact ⟨.emitToken s _ _ _ _ _, s.emitToken_sent _ _ _ _ _⟩
  · exact .refl s

/-- The completion token is on its way where the firing names a channel (R271). -/
theorem State.tokenSent_completion (s : State) {F : Firing} (lat : Nat) {n : Fin 32} (h : F.f.dst = .out n) :
    TokenSent (s.completion F lat) F n.val F.kind 0 lat := by
  simp only [State.completion, h]
  exact s.tokenSent_emitToken _ _ _ _ _

/-! What these operators do to a state. -/

theorem Firing.kind_of_works {F : Firing} (h : F.works = true) : F.kind = .data ∨ F.kind = .last := by
  simpa [Firing.works] using h

/-- The accesses of a list, each at its banks in its cycle (R114). -/
def State.askAll (s : State) (F : Firing) (asks : List (Nat × Nat)) : State :=
  asks.foldl (fun a e => a.fly F (.ask [e.2]) 0 (3 + e.1) flagNone none) s

/-- What the root of an EXACT reduction holds in its slot: a word, and how many (R284). -/
def State.redHold (s : State) (F : Firing) (v : Word) (held : Nat) : State :=
  s.updCell F.cell (fun c => c.setSlot F.slot { c.slot F.slot with v := v, n := held, f := false })

theorem State.redHold_slot (s : State) (F : Firing) (v : Word) (held : Nat) : ((s.redHold F v held).cell F.cell).slot F.slot =
    { (s.cell F.cell).slot F.slot with v := v, n := held, f := false } := by
  rw [State.redHold, State.updCell_cell_same, Cell.setSlot_slot_same]

/-- A slot's new state is a change that a firing may make. -/
theorem Cell.setSlot_fired (x : Cell) (n : Nat) (v : SlotState) : x.FiredFrom (x.setSlot n v) :=
  ⟨_, _, _, _, _, _, _, _, _, _, _, _, rfl, fun _ => rfl⟩

end Sys2Proof.Machine

namespace Sys2Proof
open Machine

/-- A token on its way stays so when more is sent. -/
theorem TokenSent.of_sent {t u : State} {F : Firing} {n : Nat} {k : Kind} {v : Word} {lat : Nat} (h : TokenSent t F n k v lat)
    (hu : t.Sends u) : TokenSent u F n k v lat := by
  obtain ⟨x, hx, hdst, hslot, hdue, hval, hld, tok, htok, hkind, hpayload, hver⟩ := h
  have hsame : (u.cell F.feed.src).active = (t.cell F.feed.src).active := by
    obtain ⟨_, _, _, _, hc⟩ := hu.cell F.feed.src
    rw [hc]
  exact ⟨x, (hu.cell _).mem_flight hx, hdst, hslot, hdue, hval, hld, tok, htok, hkind, hpayload, by rw [hver, hsame]⟩

/-- A result for a channel is a token. -/
theorem ResultSent.token {s t : State} {F : Firing} {k : Kind} {v : Word} {fl : Flags} {lat : Nat} (h : ResultSent s t F k v fl lat)
    {n : Fin 32} (hn : F.f.dst = .out n) : TokenSent t F n.val k v lat := by
  simp only [ResultSent, hn] at h
  exact h.1

/-- What is no result of the slot is due with its latency, whatever is in flight (R53, R184). -/
theorem Flies.of_notResult {s s' t : State} {F : Firing} {d : ResDst} {v : BitVec 64} {ld : Option Late} {fl : Flags} {lat : Nat}
    (hd : d.isResult = false) (h : Flies s t F d v ld fl lat) : Flies s' t F d v ld fl lat := by
  simp only [Flies, State.ownDue, hd, Bool.false_eq_true, if_false] at h ⊢
  exact h

theorem IssueShown.sends {s s1 u t : State} {F : Firing} (h : IssueShown s s1 F u) (ht : u.Sends t) :
    Issued s t F ∧ Consumed s t F ∧ Untouched s t := by
  obtain ⟨hissued, hconsumed, huntouched, -⟩ := h.sent ht.rest ht.cell
  exact ⟨hissued, hconsumed, huntouched⟩

/-! Accumulator operators (R271, R272). -/

/-- What an effect on accumulators shows: it flies, and its token with it. -/
structure EffectSent (s1 t : State) (F : Firing) (d : ResDst) (lat : Nat) : Prop where
  flies : Flies s1 t F d 0 none 0 lat
  token : ∀ n, F.f.dst = .out n → TokenSent t F n.val F.kind 0 lat

theorem effectSent_completion (s s1 : State) (F : Firing) {d : ResDst} (hd : d.isResult = false) (lat : Nat) :
    EffectSent s1 ((s.fly F d 0 lat flagNone none).completion F lat) F d lat where
  flies := ((s.flies_fly F d 0 lat flagNone none).of_sent ((State.sends_completion _ F lat).cell _)).of_notResult hd
  token := fun _ hn => State.tokenSent_completion _ lat hn

theorem askAll_shows (s : State) (F : Firing) (asks : List (Nat × Nat)) :
    s.Sends (s.askAll F asks) ∧ ∀ s1, ∀ e ∈ asks, Flies s1 (s.askAll F asks) F (.ask [e.2]) 0 none 0 (3 + e.1) := by
  induction asks generalizing s with
  | nil => exact ⟨.refl s, fun _ _ he => nomatch he⟩
  | cons x asks ih =>
    obtain ⟨hsends, hflies⟩ := ih (s.fly F (.ask [x.2]) 0 (3 + x.1) flagNone none)
    refine ⟨(s.sends_fly _ _ _ _ _ _).trans hsends, fun s1 => List.forall_mem_cons.mpr ⟨?_, hflies s1⟩⟩
    exact ((s.flies_fly F _ 0 _ flagNone none).of_sent (hsends.cell _)).of_notResult rfl

/-- The words of the rows of a fragment, each with its row. -/
def accAsks (h : Handle) : List (Nat × Nat) := (List.range 4).flatMap (fun i => (accRowWords h i).map (fun w => (i, w)))

theorem mem_accAsks {h : Handle} {i w : Nat} (hi : i < 4) (hw : w ∈ accRowWords h i) : (i, w) ∈ accAsks h :=
  List.mem_flatMap.mpr ⟨i, List.mem_range.mpr hi, List.mem_map_of_mem hw⟩

/-- The accesses of a fragment, and behind them what is done to every element (R271, R272). -/
theorem accFlights_shows (s s1 : State) (F : Firing) (h : Handle) {d : ResDst} (hd : d.isResult = false) :
    let t := (s.accFlights F h d).completion F 6
    s.Sends t ∧ (∀ i w, i < 4 → w ∈ accRowWords h i → Flies s1 t F (.ask [w]) 0 none 0 (3 + i)) ∧ EffectSent s1 t F d 6 := by
  intro t
  obtain ⟨hasked, hflies⟩ := askAll_shows s F (accAsks h)
  have hrest : (s.askAll F (accAsks h)).Sends t := (State.sends_fly _ _ _ _ _ _ _).trans (State.sends_completion _ _ _)
  exact ⟨hasked.trans hrest, fun i w hi hw => (hflies s1 _ (mem_accAsks hi hw)).of_sent (hrest.cell _),
    effectSent_completion (s.askAll F (accAsks h)) s1 F hd 6⟩

section
variable {s s1 : State} {site : Site} {f : OpFields} {F : Firing} (hworks : F.works = true)
include hworks

theorem accz_gives (h : Fires s 0xA4 site f F s1) : Gives (.accz site f) s (fun t => Issued s t F ∧ Consumed s t F ∧ Untouched s t ∧
    EffectSent s1 t F (.accZero (immBank f.imm)) 1) := by
  refine ⟨_, h.fire_works (pre := noFault) rfl hworks, ?_⟩
  obtain ⟨hissued, hconsumed, huntouched⟩ := (h.issueShown (by decide)).sends
    ((State.sends_fly _ F (.accZero (immBank f.imm)) 0 1 flagNone none).trans (State.sends_completion _ F 1))
  exact ⟨hissued, hconsumed, huntouched, effectSent_completion _ s1 F rfl 1⟩

/-- `accst` and `accld` ask for the words of their fragment and act on every element (R271, R272). -/
theorem accFlights_gives {opc : Nat} {i : Instr} {pre : State → Firing → Option FireFault} (d : Handle → ResDst)
    (hd : ∀ h, (d h).isResult = false) (hopc : opc ≠ 0x85)
    (hexec : exec i s = s.fire opc site f pre (fun u G => u.unlessSuppressed G (fun v =>
      let h := (u.cell G.cell).handle (immHandle f.imm.toNat)
      (v.accFlights G h (d h)).completion G 6)))
    (h : Fires s opc site f F s1) (hpre : pre s1 F = none) :
    let hn := (s1.cell F.cell).handle (immHandle f.imm.toNat)
    Gives i s (fun t => Issued s t F ∧ Consumed s t F ∧ Untouched s t ∧
      (∀ i w, i < 4 → w ∈ accRowWords hn i → Flies s1 t F (.ask [w]) 0 none 0 (3 + i)) ∧ EffectSent s1 t F (d hn) 6) := by
  intro hn
  refine ⟨_, hexec.trans (h.fire_works hpre hworks), ?_⟩
  obtain ⟨hsends, hasks, heffect⟩ := accFlights_shows (s1.begin F) s1 F hn (hd hn)
  obtain ⟨hissued, hconsumed, huntouched⟩ := (h.issueShown hopc).sends hsends
  exact ⟨hissued, hconsumed, huntouched, hasks, heffect⟩

theorem accrd_gives (h : Fires s 0xA5 site f F s1) : Gives (.accrd site f) s (fun t => Issued s t F ∧ Consumed s t F ∧ Untouched s t ∧
    LateSent s1 t F F.kind (.acc F.cell (F.cyc + 2 + F.late + F.deal) (immBank f.imm)
      (if f.ty = .bf16x2 then 2 * (F.a.toNat % 16) else F.a.toNat % 32) (decide (f.ty = .bf16x2)) f.mod)) := by
  refine ⟨_, h.fire_works (pre := noFault) rfl hworks, ?_⟩
  simp only [decide_eq_true_eq]
  obtain ⟨hissued, hconsumed, huntouched, -, hlate⟩ := (h.issueShown (by decide)).lateResult F.kind
    (.acc F.cell (F.cyc + 2 + F.late + F.deal) (immBank f.imm)
      (if f.ty = .bf16x2 then 2 * (F.a.toNat % 16) else F.a.toNat % 32) (decide (f.ty = .bf16x2)) f.mod)
  exact ⟨hissued, hconsumed, huntouched, hlate⟩

end

/-! Reductions (R283, R284). -/

/-- A slot's new state behind the issue, its iteration counter as it was. -/
theorem IssueShown.updSlot {s s1 u : State} {F : Firing} (h : IssueShown s s1 F u) {g : SlotState → SlotState} (hg : ∀ x, (g x).iter = x.iter) :
    IssueShown s s1 F (u.updCell F.cell (fun c => c.setSlot F.slot (g (c.slot F.slot)))) := by
  have hsame : ∀ c, (u.cell c).SameIssue ((u.updCell F.cell (fun c => c.setSlot F.slot (g (c.slot F.slot)))).cell c) :=
    State.updCell_cell_rel Cell.SameIssue.refl (fun x => x.setSlot_sameIssue _ (hg _)) u F.cell
  have hcell := u.updCell_cell_same F.cell (fun c => c.setSlot F.slot (g (c.slot F.slot)))
  exact {
    issued := h.issued.of_sameIssue (hsame _)
    consumed := h.consumed.of_sameIssue (hsame _)
    rest := h.rest.trans (.updCell _ _ _)
    cells := fun c => (h.cells c).trans (State.updCell_cell_rel Cell.FiredFrom.refl
      (fun x => x.setSlot_fired _ _) u F.cell c)
    flight := by rw [hcell, ← h.flight]; rfl
    handle := fun n => by rw [hcell, ← h.handle]; rfl }

/-- A result behind the issue, and nothing else. -/
theorem IssueShown.result {s s1 u : State} {F : Firing} (h : IssueShown s s1 F u) (k : Kind) (v : Word) (fl : Flags) (lat : Nat) :
    let t := u.result F k v fl lat
    Issued s t F ∧ Consumed s t F ∧ Untouched s t ∧ ResultSent s1 t F k v fl lat := by
  intro t
  obtain ⟨hissued, hconsumed, huntouched⟩ := h.sends (u.sends_result F k v fl lat)
  exact ⟨hissued, hconsumed, huntouched, (u.resultSent_result F k v fl lat).of_cell h.flight.symm fun n => (h.handle n).symm⟩

theorem IssueShown.redHold {s s1 u : State} {F : Firing} (h : IssueShown s s1 F u) (v : Word) (held : Nat) :
    IssueShown s s1 F (u.redHold F v held) :=
  h.updSlot (g := fun x => { x with v := v, n := held, f := false }) fun _ => rfl

/-- The sum of an EXACT reduction from its two words, with its flags (R284). -/
def redSum (f : OpFields) (low high : Word) : Nat × Flags :=
  let q := BitVec.ofNat 64 (high.toNat * 2 ^ 32 + low.toNat)
  if q = 0 then (0, flagNone) else roundTo fmtF32 .rne false (scalePow (Ex.ofInt q.toInt) (redE f))

theorem redSum_word (f : OpFields) (low high : Word) : BitVec.ofNat 32 (redSum f low high).1 =
    (let q := BitVec.ofNat 64 (high.toNat * 2 ^ 32 + low.toNat)
     if q = 0 then 0 else BitVec.ofNat 32 (roundTo fmtF32 .rne false (scalePow (Ex.ofInt q.toInt) (redE f))).1) := by
  unfold redSum
  extract_lets q
  split <;> rfl

section
variable {s s1 : State} {site : Site} {f : OpFields} {F : Firing} (hworks : F.works = true)
include hworks

/-- `redp` EXACT sends the two words of its quantum (R283). -/
theorem exec_redp_exact (h : Fires s 0xAC site f F s1) (hmod : f.mod.toNat % 4 = 1) {q : BitVec 64} {fl : Flags}
    (hq : redQuantum (redE f) F.a = (some q, fl)) : exec (.redp site f) s = .next
      (((s1.begin F).result F .data (BitVec.ofNat 32 q.toNat) (fl ||| F.flags) 1).result F F.kind
        (BitVec.ofNat 32 (q.toNat / 2 ^ 32)) flagNone 2) := by
  refine (Laws.fire_of_fires (pre := noFault) h rfl).trans ?_
  obtain hk | hk := Firing.kind_of_works hworks <;> simp [hk, hmod, hq]

/-- `redp` sends its operand, FAST a NaN as the canonical one (R283). -/
theorem exec_redp_word (h : Fires s 0xAC site f F s1) (hmod : f.mod.toNat % 4 ≠ 1) : exec (.redp site f) s = .next
    ((s1.begin F).result F F.kind (if f.mod.toNat % 4 = 0 ∧ fmtF32.isNan F.a.toNat = true then 0x7FC00000 else F.a)
      (if f.mod.toNat % 4 = 0 ∧ fmtF32.isNan F.a.toNat = true then snanFlag fmtF32 F.a.toNat ||| F.flags else F.flags) 1) := by
  refine (Laws.fire_of_fires (pre := noFault) h rfl).trans ?_
  by_cases hnan : f.mod.toNat % 4 = 0 ∧ fmtF32.isNan F.a.toNat = true <;>
    obtain hk | hk := Firing.kind_of_works hworks <;> simp [hk, hmod, hnan]

/-- `redw` sends its operand (R284). -/
theorem exec_redw_word (h : Fires s 0xAD site f F s1) (hmod : f.mod.toNat % 4 ≠ 1) : exec (.redw site f) s = .next
    ((s1.begin F).result F F.kind F.a F.flags 3) := by
  refine (Laws.fire_of_fires (pre := noFault) h rfl).trans ?_
  obtain hk | hk := Firing.kind_of_works hworks <;> simp [hk, hmod]

/-- `redw` EXACT keeps a first word (R284). -/
theorem exec_redw_first (h : Fires s 0xAD site f F s1) (hmod : f.mod.toNat % 4 = 1) (hn : ((s1.cell F.cell).slot F.slot).n ≠ 1) :
    exec (.redw site f) s = .next ((s1.begin F).redHold F F.a 1) := by
  refine (Laws.fire_of_fires (pre := noFault) h rfl).trans ?_
  obtain hk | hk := Firing.kind_of_works hworks <;> simp [hk, hmod, hn, State.redHold]

/-- `redw` EXACT sends the sum at the second word (R284). -/
theorem exec_redw_second (h : Fires s 0xAD site f F s1) (hmod : f.mod.toNat % 4 = 1) (hn : ((s1.cell F.cell).slot F.slot).n = 1)
    (hf : ((s1.cell F.cell).slot F.slot).f = false) : exec (.redw site f) s = .next
      (((s1.begin F).redHold F 0 0).result F F.kind (BitVec.ofNat 32 (redSum f ((s1.cell F.cell).slot F.slot).v F.a).1)
        ((redSum f ((s1.cell F.cell).slot F.slot).v F.a).2 ||| F.flags) 3) := by
  refine (Laws.fire_of_fires (pre := noFault) h rfl).trans ?_
  obtain hk | hk := Firing.kind_of_works hworks <;> simp [hk, hmod, hn, hf, State.redHold, redSum]

end

/-- Settles O34: each accumulator operator by what it puts in flight, `redp` and `redw` by their mode and the word the slot holds. -/
theorem accumulatorAndReductionOperatorsComplete : Obligations.AccumulatorAndReductionOperatorsComplete := by
  refine ⟨fun site f s F s1 hworks => ⟨?accz, accrd_gives hworks, ?accst, ?accld⟩,
    fun site f s F s1 hworks => ⟨fun h => ⟨fun q fl hmod hq => ?exact, fun hmod => ?fast⟩,
      fun h => ⟨fun hmod => ?word, fun hmod hn => ?first, fun hmod hn hf => ?second⟩⟩⟩
  case accz => exact fun h => (accz_gives hworks h).imp fun _ ⟨hissued, hconsumed, huntouched, heffect⟩ =>
    ⟨hissued, hconsumed, huntouched, heffect.flies, heffect.token⟩
  case accst =>
    exact fun h hpre => (accFlights_gives hworks (fun h => .accStore (immBank f.imm) h.base h.pitch h.swz h.esz f.mod) (fun _ => rfl)
      (by decide) rfl h hpre).imp fun _ ⟨hissued, hconsumed, huntouched, hasks, heffect⟩ =>
        ⟨hissued, hconsumed, huntouched, hasks, heffect.flies, heffect.token⟩
  case accld =>
    exact fun h hpre => (accFlights_gives hworks (fun h => .accLoad (immBank f.imm) h.base h.pitch h.swz (modB2 f)) (fun _ => rfl)
      (by decide) rfl h hpre).imp fun _ ⟨hissued, hconsumed, huntouched, hasks, heffect⟩ =>
        ⟨hissued, hconsumed, huntouched, hasks, heffect.flies, heffect.token⟩
  case exact =>
    refine ⟨_, exec_redp_exact hworks h hmod hq, ?_⟩
    have hlow := (s1.begin F).sends_result F .data (BitVec.ofNat 32 q.toNat) (fl ||| F.flags) 1
    have hhigh := ((s1.begin F).result F .data (BitVec.ofNat 32 q.toNat) (fl ||| F.flags) 1).sends_result F F.kind
      (BitVec.ofNat 32 (q.toNat / 2 ^ 32)) flagNone 2
    obtain ⟨hissued, hconsumed, huntouched⟩ := (h.issueShown (by decide)).sends (hlow.trans hhigh)
    exact ⟨hissued, hconsumed, huntouched, fun n hn => ⟨((State.resultSent_result _ _ _ _ _ _).token hn).of_sent hhigh,
      (State.resultSent_result _ _ _ _ _ _).token hn⟩⟩
  case fast => exact ⟨_, exec_redp_word hworks h hmod, (h.issueShown (by decide)).result _ _ _ _⟩
  case word => exact ⟨_, exec_redw_word hworks h hmod, (h.issueShown (by decide)).result _ _ _ _⟩
  case first =>
    refine ⟨_, exec_redw_first hworks h hmod hn, ?_⟩
    obtain ⟨hissued, hconsumed, huntouched⟩ := ((h.issueShown (by decide)).redHold F.a 1).sends (.refl _)
    rw [State.redHold_slot]
    exact ⟨hissued, hconsumed, huntouched, rfl, rfl⟩
  case second =>
    refine ⟨_, exec_redw_second hworks h hmod hn hf, ?_⟩
    obtain ⟨hissued, hconsumed, huntouched, hsent⟩ := ((h.issueShown (by decide)).redHold 0 0).result F.kind
      (BitVec.ofNat 32 (redSum f ((s1.cell F.cell).slot F.slot).v F.a).1) ((redSum f ((s1.cell F.cell).slot F.slot).v F.a).2 ||| F.flags) 3
    refine ⟨hissued, hconsumed, huntouched, ?_, fun n hn => ?_⟩
    · rw [(State.result_sent _ F _ _ _ _ F.cell).slot, State.redHold_slot]
    · exact redSum_word f _ F.a ▸ hsent.token hn

end Sys2Proof
end

