-- ==== Sys2Proof/Proofs/QueuedCommands.lean ====
section
/-! Settles O35: the grammar and engine operators, which leave a command and an entry of the decoupling queue behind their issue (R279, R280, R292,
R295), CUR moved past the elements they read (R107, R230). -/

namespace Sys2Proof.Machine
open Sys2Proof

/-! Cursors that advance (R107). -/

theorem Handle.wrap_pos (h : Handle) : 0 < h.wrap := lt_min (Nat.mul_pos h.rows.succ_pos h.cols.succ_pos) (by decide)

theorem Handle.wrap_le (h : Handle) : h.wrap ≤ 65536 := min_le_right _ _

/-- Handles that differ in CUR only have as many elements for it to pass (R107). -/
theorem Handle.wrap_of_cur {x y : Handle} (h : { x with cur := 0 } = { y with cur := 0 }) : x.wrap = y.wrap := by
  simp only [Handle.mk.injEq] at h
  obtain ⟨-, -, -, -, -, -, -, -, hrows, hcols, -⟩ := h
  rw [Handle.wrap, hrows, hcols, Handle.wrap]

theorem Cell.advance_wrap (c : Cell) (n k m : Nat) : ((c.advance n k).handle m).wrap = (c.handle m).wrap :=
  Handle.wrap_of_cur (c.active.setCur_handle n m _)

theorem Cell.advance_cur_same (c : Cell) (n k : Nat) : ((c.advance n k).handle n).cur = ((c.handle n).cur + k) % (c.handle n).wrap :=
  c.active.setCur_cur_same n _ ((Nat.mod_lt _ (c.handle n).wrap_pos).trans_le (c.handle n).wrap_le)

theorem Cell.advance_cur_other (c : Cell) {n m : Nat} (h : n ≠ m) (k : Nat) : ((c.advance n k).handle m).cur = (c.handle m).cur :=
  c.active.setCur_cur_other h _

theorem Cell.advance_sameIssue (c : Cell) (n k : Nat) : c.SameIssue (c.advance n k) := c.setCur_sameIssue n _

/-- A firing that takes elements at a cursor has moved CUR past them, where its destination is no handle (R176, R230). -/
theorem State.operands_cursor {s t : State} {opc n k : Nat} {site : Site} {f : OpFields} {i : Inst} {fd : Feed} {F : Firing}
    (h : s.operands opc site f i fd (some (n, k)) = .ok (F, t)) (hworks : F.works = true) (hdst : ∀ m, f.dst ≠ .handle m) :
    ((t.cell F.cell).handle n).cur = (F.elem + k) % ((t.cell F.cell).handle n).wrap := by
  unfold State.operands at h
  extract_lets cell slot x g ua ub uc hasDst at h
  split at h
  · cases h
  split at h
  · cases h
  split at h
  · cases h
  split at h
  · cases h
  rename_i s3 hc
  split at h
  · cases h
  rename_i k0 pay hk
  extract_lets F0 moved F1 s4 at h
  split at h
  · exact absurd ‹_› (hdst _)
  simp only [Except.ok.injEq, Prod.mk.injEq] at h
  obtain ⟨rfl, rfl⟩ := h
  have hkind : k0 = .data ∨ k0 = .last := by
    have hF : F1.kind = k0 := by
      simp only [F1, moved]
      split <;> rfl
    exact hF ▸ Firing.kind_of_works hworks
  simp only [F1, s4, moved, if_pos hkind]
  rw [State.updCell_cell_same, Cell.advance_cur_same, Cell.advance_wrap]

/-- What a slot's firing reads at a cursor (R230). -/
theorem State.slotNeeds_cursor (s : State) {opc : Nat} (h : opc ≠ 0x85) (site : Site) (f : OpFields) :
    (s.slotNeeds opc site f).2.cursor = if cursorStep opc f = 0 then none else some (immHandle f.imm.toNat, cursorStep opc f) := by
  unfold State.slotNeeds
  extract_lets
  rw [if_neg fun hflush => h hflush.1]

/-! What the issue leaves outside the cells. -/

section
variable {s t : State} (h : s.FramedRest t)
include h

theorem State.FramedRest.mem : t.mem = s.mem := by
  obtain ⟨_, _, _, _, _, rfl⟩ := h.rest
  rfl

theorem State.FramedRest.reqs : t.reqs = s.reqs := by
  obtain ⟨_, _, _, _, _, rfl⟩ := h.rest
  rfl

theorem State.FramedRest.sectors : t.sectors = s.sectors := by
  obtain ⟨_, _, _, _, _, rfl⟩ := h.rest
  rfl

theorem State.FramedRest.cmds : t.cmds = s.cmds := by
  obtain ⟨_, _, _, _, _, rfl⟩ := h.rest
  rfl

theorem State.FramedRest.products : t.products = s.products := by
  obtain ⟨_, _, _, _, _, rfl⟩ := h.rest
  rfl

end

end Sys2Proof.Machine

namespace Sys2Proof
open Machine

/-- A firing that takes elements at its cursor has moved CUR past them, where its destination is no handle (R230). -/
theorem Fires.cursor {s s1 : State} {opc k : Nat} {site : Site} {f : OpFields} {F : Firing} (h : Fires s opc site f F s1) (hopc : opc ≠ 0x85)
    (hstep : cursorStep opc f = k) (hk : k ≠ 0) (hworks : F.works = true) (hdst : ∀ n, F.f.dst ≠ .handle n) :
    ((s1.cell F.cell).handle (immHandle f.imm.toNat)).cur =
      (F.elem + k) % ((s1.cell F.cell).handle (immHandle f.imm.toNat)).wrap := by
  have hfields := h.fields hopc
  obtain ⟨-, i, fd, -, -, hop⟩ := h
  rw [(State.slotNeeds_of_ne hopc site f).1, s.slotNeeds_cursor hopc, hstep, if_neg hk] at hop
  exact State.operands_cursor hop hworks (hfields ▸ hdst)

/-! The grammar operators (R279, R280). -/

/-- A grammar command with its image has joined its sector's queue, and an entry of the decoupling queue waits for it. -/
def GrammarQueued (s t : State) (F : Firing) (op : GveOp) (image : List Byte) : Prop :=
  ∃ r, t.reqs = s.reqs ++ [r] ∧ r.stage = .waiting ∧ r.cell = F.cell ∧ r.slot = F.slot ∧ r.kind = F.kind ∧
    ∃ g, (t.sector F.inst.sector).gve = (s.sector F.inst.sector).gve ++ [g] ∧ r.body = .grammar g.id ∧ g.op = op ∧ g.running = false ∧
      g.cell = F.cell ∧ g.image = image

theorem grammarQueued_queueGrammar (s : State) (F : Firing) (op : GveOp) (image : List Byte) (home : Nat) :
    GrammarQueued s (s.queueGrammar F op image home) F op image :=
  ⟨_, rfl, rfl, rfl, rfl, rfl, _, congrArg Sector.gve (State.updSector_sector_same _ _ _), rfl, rfl, rfl, rfl, rfl⟩

theorem GrammarQueued.of_framed {s u t : State} {F : Firing} {op : GveOp} {image : List Byte} (h : GrammarQueued u t F op image)
    (hu : s.FramedRest u) : GrammarQueued s t F op image := by
  unfold GrammarQueued State.sector at h ⊢
  rwa [hu.reqs, hu.sectors] at h

/-- What a grammar operator shows behind its issue. -/
theorem IssueShown.queueGrammar {s s1 u : State} {F : Firing} (h : IssueShown s s1 F u) (op : GveOp) (image : List Byte) (home : Nat) :
    let t := u.queueGrammar F op image home
    Issued s t F ∧ Consumed s t F ∧ t.mem = s.mem ∧ GrammarQueued s t F op image :=
  ⟨h.issued, h.consumed, h.rest.mem, (grammarQueued_queueGrammar u F op image home).of_framed h.rest⟩

section
variable {s s1 : State} {site : Site} {f : OpFields} {F : Firing} (hworks : F.works = true)
include hworks

theorem gspmv_gives (h : Fires s 0xA8 site f F s1) (hfault : s1.cursorFault F 4 = none) : Gives (.gspmv site f) s (fun t =>
    (Issued s t F ∧ Consumed s t F ∧ t.mem = s.mem ∧ GrammarQueued s t F .eval (s1.cursorBytes F 4)) ∧
    ((∀ n, F.f.dst ≠ .handle n) → ((t.cell F.cell).handle (immHandle f.imm.toNat)).cur =
      (F.elem + 4) % ((s1.cell F.cell).handle (immHandle f.imm.toNat)).wrap)) := by
  have hshown := h.issueShown (by decide)
  refine ⟨_, h.fire_works (pre := fun s1 F => s1.cursorFault F 4) hfault hworks, hshown.queueGrammar _ _ _, fun hdst => ?_⟩
  rw [← h.cursor (k := 4) (by decide) rfl (by decide) hworks hdst, ← hshown.handle]
  rfl

/-- `gsload` moves CUR past the elements it names (R279, R417). -/
theorem gsload_gives (h : Fires s 0xA9 site f F s1) : let hn := immHandle f.imm.toNat
    let h1 := (s1.cell F.cell).handle hn
    Gives (.gsload site f) s (fun t => (Issued s t F ∧ Consumed s t F ∧ t.mem = s.mem ∧ GrammarQueued s t F .load
      (natBytes 4 F.a.toNat ++ natBytes 4 F.b.toNat ++ natBytes 2 h1.cur ++ natBytes 22 hn ++
        natBytes 16 ((s1.cell F.cell).active.handleWord hn).toNat)) ∧
      ((t.cell F.cell).handle hn).cur = (h1.cur + 4 * F.b.toNat) % h1.wrap) := by
  intro hn h1
  have hshown := h.issueShown (by decide)
  have hmoved (c : Nat) : ((s1.begin F).cell c).SameIssue
      (((s1.begin F).updCell F.cell (fun x => x.advance hn (4 * F.b.toNat))).cell c) :=
    State.updCell_cell_rel Cell.SameIssue.refl (fun x => x.advance_sameIssue _ _) _ _ _
  have hrest : s.FramedRest ((s1.begin F).updCell F.cell (fun x => x.advance hn (4 * F.b.toNat))) := hshown.rest.trans (.updCell _ _ _)
  have hcur : ((((s1.begin F).updCell F.cell (fun x => x.advance hn (4 * F.b.toNat))).cell F.cell).handle hn).cur =
      (h1.cur + 4 * F.b.toNat) % h1.wrap := by
    rw [State.updCell_cell_same, Cell.advance_cur_same, hshown.handle]
  exact ⟨_, h.fire_works (pre := noFault) rfl hworks, ⟨hshown.issued.of_sameIssue (hmoved _), hshown.consumed.of_sameIssue (hmoved _),
    hrest.mem, (grammarQueued_queueGrammar _ F _ _ 0).of_framed hrest⟩, hcur⟩

theorem gsread_gives (h : Fires s 0xAA site f F s1) (hin : F.a.toNat < F.inst.slateLen) : Gives (.gsread site f) s (fun t =>
    Issued s t F ∧ Consumed s t F ∧ t.mem = s.mem ∧ GrammarQueued s t F .read
      (natBytes 4 F.a.toNat ++ natBytes 4 (f.imm.toNat % 4 + (if modB2 f then 4 else 0)) ++ natBytes 24 0)) :=
  ⟨_, h.fire_works (pre := preGsread) (if_neg fun hout => absurd hin (Nat.not_lt.mpr hout.2)) hworks,
    (h.issueShown (by decide)).queueGrammar _ _ _⟩

theorem gsclr_gives (h : Fires s 0xAB site f F s1) : Gives (.gsclr site f) s (fun t =>
    Issued s t F ∧ Consumed s t F ∧ t.mem = s.mem ∧ GrammarQueued s t F .clear
      (natBytes 4 F.a.toNat ++ natBytes 4 F.b.toNat ++ natBytes 24 0)) :=
  ⟨_, h.fire_works (pre := noFault) rfl hworks, (h.issueShown (by decide)).queueGrammar _ _ _⟩

end

/-! The engine operators (R292, R295). -/

/-- An engine operator: its constructor, its opcode, the elements of its descriptor and its command. -/
abbrev EngineRow := (Site → OpFields → Instr) × Nat × Nat × CmdKind

/-- An engine operator of a table runs as the firing of its row, and moves CUR past its descriptor. -/
structure EngineRow.Runs (e : EngineRow) : Prop where
  opc_ne : e.2.1 ≠ 0x85
  len_ne : e.2.2.1 ≠ 0
  step : ∀ f, cursorStep e.2.1 f = e.2.2.1
  exec_eq : ∀ site f s, exec (e.1 site f) s = s.fireEngine e.2.1 e.2.2.1 e.2.2.2 site f

theorem engineRows_run : ∀ e ∈ ([(.copy, 0xC0, 24, .copy), (.gath, 0xC2, 8, .gath), (.scat, 0xC3, 8, .scat), (.embr, 0xC4, 8, .embr)] :
    List EngineRow), EngineRow.Runs e := by
  simp only [List.forall_mem_cons, List.not_mem_nil, false_imp_iff, implies_true, and_true]
  refine ⟨?_, ?_, ?_, ?_⟩
  all_goals exact ⟨by decide, by decide, fun _ => rfl, fun _ _ _ => rfl⟩

/-- What an engine operator shows behind its issue: its command waits for the engine, and its token is due (R292). -/
theorem IssueShown.queueEngine {s s1 u : State} {F : Firing} (h : IssueShown s s1 F u) (kind : CmdKind) (desc : List Byte) (home : Nat) :
    let t := u.queueEngine F kind desc home
    Issued s t F ∧ Consumed s t F ∧ t.mem = s.mem ∧ t.sectors = s.sectors ∧ ∃ c, t.cmds = s.cmds ++ [c] ∧ c.kind = kind ∧ c.stage = .queued ∧
      c.desc = desc ∧ c.cell = F.cell ∧ c.inst = some F.inst.id ∧ c.accepted = false ∧
      ∃ r, t.reqs = s.reqs ++ [r] ∧ r.body = .engine c.id ∧ r.stage = .answered ∧ r.cell = F.cell ∧ r.kind = F.kind :=
  ⟨h.issued, h.consumed, h.rest.mem, h.rest.sectors, _, congrArg (· ++ _) h.rest.cmds, rfl, rfl, rfl, rfl, rfl, rfl,
    _, congrArg (· ++ _) h.rest.reqs, rfl, rfl, rfl, rfl⟩

/-- `copyw` waits for the commands of its cell that are still at work (R292). -/
theorem copyw_gives {s s1 : State} {site : Site} {f : OpFields} {F : Firing} (h : Fires s 0xC1 site f F s1) (hworks : F.works = true) :
    Gives (.copyw site f) s (fun t => Issued s t F ∧ Consumed s t F ∧ Untouched s t ∧
      Queued s t F (.copyw (s.cellCmds F.cell)) (if (s.cellCmds F.cell).isEmpty then .answered else .waiting) Place.nowhere F.kind) := by
  have hshown := h.issueShown (by decide)
  have hcmds : (s1.begin F).cellCmds F.cell = s.cellCmds F.cell := by rw [State.cellCmds, hshown.rest.cmds, State.cellCmds]
  refine ⟨_, h.fire_works (pre := noFault) rfl hworks, ?_⟩
  simp only [hcmds]
  exact hshown.enqueue _ _ _ _ _

/-- Settles O35: each grammar operator's command, the engine operators by their table, and `copyw`. -/
theorem grammarAndEngineOperatorsComplete : Obligations.GrammarAndEngineOperatorsComplete := by
  refine ⟨fun site f s F s1 hworks => ⟨gspmv_gives hworks, gsload_gives hworks, gsread_gives hworks, gsclr_gives hworks⟩,
    fun e he site f s F s1 h hworks hfault => ?_, fun site f s F s1 h hworks => copyw_gives h hworks⟩
  obtain ⟨hopc, hlen, hstep, hexec⟩ := engineRows_run e he
  have hshown := h.issueShown hopc
  obtain ⟨hissued, hconsumed, hmem, hsectors, c, hcmds, hkind, hstage, hdesc, hcell, hinst, haccepted, hreq⟩ :=
    hshown.queueEngine e.2.2.2 (s1.cursorBytes F e.2.2.1) (s1.cursorHome F)
  refine ⟨_, (hexec site f s).trans (h.fire_works (pre := fun s1 F => s1.cursorFault F e.2.2.1) hfault hworks),
    hissued, hconsumed, hmem, hsectors, c, hcmds, hkind, hstage, hdesc, hcell, hinst, haccepted, fun hdst => ?_, hreq⟩
  rw [← h.cursor hopc (hstep f) hlen hworks hdst, ← hshown.handle]
  rfl

end Sys2Proof
end

