-- ==== Sys2Proof/Proofs/MatrixProducts.lean ====
section
/-! The issue of a matrix operator: its product joins the others, and the cursors of its operands move past what it reads (R262 to R264, R269). -/

namespace Sys2Proof.Machine
open Sys2Proof

/-! Cursors of the edge cells (R263, R264). -/

section
variable {r : Cell → Cell → Prop} (hrefl : ∀ x, r x x) (htrans : ∀ {x y z}, r x y → r y z → r x z)
include hrefl htrans

/-- What relates a cell to itself advanced relates each cell before to after. -/
theorem State.advanceAll_rel {hn k : Nat} (h : ∀ x : Cell, r x (x.advance hn k)) (s : State) (cs : List Nat) (c : Nat) :
    r (s.cell c) ((s.advanceAll cs hn k).cell c) := by
  unfold State.advanceAll
  split
  · exact hrefl _
  · exact List.foldlRecOn cs _ (motive := fun a : State => r (s.cell c) (a.cell c)) (hrefl _) fun a ha d _ =>
      htrans ha (State.updCell_cell_rel hrefl h a d c)

end

/-- CUR of a handle moves once in each cell of the list (R107). -/
theorem State.advanceAll_cur {cs : List Nat} (hcs : cs.Nodup) {c : Nat} (hc : c ∈ cs) (s : State) (hn : Nat) {k : Nat} (hk : 0 < k) :
    (((s.advanceAll cs hn k).cell c).handle hn).cur = (((s.cell c).handle hn).cur + k) % ((s.cell c).handle hn).wrap := by
  rw [State.advanceAll, if_neg hk.ne',
    State.foldl_updCell_cell_same (fun d => d) (fun _ x => x.advance hn k) (by rwa [List.map_id']) hc s, Cell.advance_cur_same]

theorem State.FramedRest.advanceAll (s : State) (cs : List Nat) (hn k : Nat) : s.FramedRest (s.advanceAll cs hn k) := by
  unfold State.advanceAll
  split
  · exact .refl s
  · exact .foldl _ _ _ fun a c => .updCell a _ _

/-- A handle of some cells, and by how many elements its CUR moves. -/
structure CursorMove where
  cells : List Nat
  handle : Nat
  elems : Nat

/-- Moves of cursors, one after another. -/
def State.moveCursors (s : State) (l : List CursorMove) : State := l.foldl (fun a m => a.advanceAll m.cells m.handle m.elems) s

theorem State.FramedRest.moveCursors (s : State) (l : List CursorMove) : s.FramedRest (s.moveCursors l) :=
  .foldl l _ s fun a m => .advanceAll a m.cells m.handle m.elems

theorem State.FramedRest.fresh (s : State) : s.FramedRest s.fresh.2 := ⟨⟨_, _, _, _, _, rfl⟩, fun _ => rfl, rfl⟩

/-- What relates a cell to itself advanced in each move relates each cell before to after. -/
theorem State.moveCursors_rel {r : Cell → Cell → Prop} (hrefl : ∀ x, r x x) (htrans : ∀ {x y z}, r x y → r y z → r x z)
    {l : List CursorMove} (h : ∀ m ∈ l, ∀ x : Cell, r x (x.advance m.handle m.elems)) (s : State) (c : Nat) :
    r (s.cell c) ((s.moveCursors l).cell c) :=
  List.foldlRecOn l _ (motive := fun a : State => r (s.cell c) (a.cell c)) (hrefl _) fun a ha m hm =>
    htrans ha (State.advanceAll_rel hrefl htrans (h m hm) a m.cells c)

/-- A handle that no move names keeps its CUR. -/
theorem State.moveCursors_cur_other {l : List CursorMove} {hn : Nat} (h : hn ∉ l.map CursorMove.handle) (s : State) (c : Nat) :
    (((s.moveCursors l).cell c).handle hn).cur = ((s.cell c).handle hn).cur :=
  State.moveCursors_rel (r := fun x y => (y.handle hn).cur = (x.handle hn).cur) (fun _ => rfl) (fun hxy hyz => hyz.trans hxy)
    (fun _ hm x => x.advance_cur_other (ne_of_mem_of_not_mem (List.mem_map_of_mem hm) h) _) s c

/-- As many elements to pass as before. -/
theorem State.moveCursors_wrap (s : State) (l : List CursorMove) (c hn : Nat) :
    (((s.moveCursors l).cell c).handle hn).wrap = ((s.cell c).handle hn).wrap :=
  State.moveCursors_rel (r := fun x y => (y.handle hn).wrap = (x.handle hn).wrap) (fun _ => rfl) (fun hxy hyz => hyz.trans hxy)
    (fun _ _ x => x.advance_wrap _ _ _) s c

/-- Of moves of handles of their own, each moves CUR of its handle in its cells (R107). -/
theorem State.moveCursors_cur {l : List CursorMove} (hl : (l.map CursorMove.handle).Nodup) {m : CursorMove} (hm : m ∈ l)
    (hcs : m.cells.Nodup) (hby : 0 < m.elems) {c : Nat} (hc : c ∈ m.cells) (s : State) :
    (((s.moveCursors l).cell c).handle m.handle).cur =
      (((s.cell c).handle m.handle).cur + m.elems) % ((s.cell c).handle m.handle).wrap := by
  obtain ⟨before, after, rfl⟩ := List.append_of_mem hm
  rw [List.map_append, List.map_cons, List.nodup_middle, List.nodup_cons, List.mem_append, not_or] at hl
  obtain ⟨⟨hbefore, hafter⟩, -⟩ := hl
  have hsplit : s.moveCursors (before ++ m :: after) =
      (((s.moveCursors before).advanceAll m.cells m.handle m.elems)).moveCursors after := List.foldl_append
  rw [hsplit, State.moveCursors_cur_other hafter, State.advanceAll_cur hcs hc _ _ hby, State.moveCursors_cur_other hbefore,
    State.moveCursors_wrap]

/-! What issue leaves of the operands. -/

theorem State.cursors_begin (s : State) (F : Firing) (cs : List Nat) (hn : Nat) : (s.begin F).cursors cs hn = s.cursors cs hn := by
  simp only [State.cursors, State.begin_handle]

theorem State.mmgOffsets_begin (s : State) (F : Firing) (cell : Nat) (f : OpFields) :
    (s.begin F).mmgOffsets cell f = s.mmgOffsets cell f := by
  have hspad : ((s.begin F).cell cell).spad = (s.cell cell).spad := by
    obtain ⟨_, _, _, _, _, _, _, _, _, hc⟩ := s.begin_begun F cell
    rw [hc]
  simp only [State.mmgOffsets, State.begin_handle, Cell.bytes_congr hspad]

/-! The product (R263, R264, R269, R335). -/

/-- The groups of a product: those of `mmg`, or one. -/
def State.mmGroups (s : State) (F : Firing) (opc : Nat) : Nat := if opc = 0xA2 then (s.mmgOffsets F.cell F.f).length - 1 else 1

/-- How the cursors of a product's operands move at issue (R263, R264, R269). -/
def productMoves (F : Firing) (opc groups : Nat) : List CursorMove :=
  let n := F.a.toNat / mmKpc F.f.ty
  [⟨F.inst.aCells opc, mmHA F.f.imm, n⟩, ⟨F.inst.bCells opc, mmHB F.f.imm, 2 * groups * n⟩] ++
  if F.f.ty = .gq4x8 then [⟨F.inst.aCells opc, mmHS F.f.imm, 4 * (n / 16)⟩, ⟨F.inst.bCells opc, mmHS F.f.imm + 1, 8 * (n / 16)⟩] else []

/-- A product as its operator starts it from a state: not granted yet, with the cursors latched. -/
structure Product.StartedBy (p : Product) (s : State) (F : Firing) (code : Nat) : Prop where
  opc : p.opc = code
  cell : p.cell = F.cell
  slot : p.slot = F.slot
  inst : p.inst = F.inst.id
  kEls : p.kEls = F.a.toNat
  n : p.n = F.a.toNat / mmKpc F.f.ty
  granted : p.granted = false
  started : p.started = false
  kind : p.kind = F.kind
  earliest : p.earliest = F.cyc + F.late + (if F.f.ty = .gq4x8 then 11 else 3)
  curA : p.curA = s.cursors (F.inst.aCells code) (mmHA F.f.imm)
  curB : p.curB = s.cursors (F.inst.bCells code) (mmHB F.f.imm)
  curS : F.f.ty = .gq4x8 → p.curSA = s.cursors (F.inst.aCells code) (mmHS F.f.imm) ∧ p.curSB = s.cursors (F.inst.bCells code) (mmHS F.f.imm + 1)

/-- Starting a product moves cursors, and adds it behind the others. -/
theorem State.startProduct_eq (s : State) (F : Firing) (opc : Nat) : ∃ p : Product, p.StartedBy s F opc ∧
    s.startProduct F opc = { s.fresh.2.moveCursors (productMoves F opc (s.mmGroups F opc)) with products := s.products ++ [p] } := by
  have hproducts : s.products = (s.fresh.2.moveCursors (productMoves F opc (s.mmGroups F opc))).products :=
    (State.FramedRest.moveCursors s.fresh.2 _).products.symm
  rw [hproducts]
  unfold State.startProduct productMoves
  simp only [decide_eq_true_eq]
  by_cases hgq : F.f.ty = .gq4x8
  · simp only [if_pos hgq]
    exact ⟨_, ⟨rfl, rfl, rfl, rfl, rfl, rfl, rfl, rfl, rfl, by rw [if_pos hgq], rfl, rfl, fun _ => ⟨rfl, rfl⟩⟩, rfl⟩
  · simp only [if_neg hgq]
    exact ⟨_, ⟨rfl, rfl, rfl, rfl, rfl, rfl, rfl, rfl, rfl, by rw [if_neg hgq], rfl, rfl, fun h => absurd h hgq⟩, rfl⟩

theorem Product.StartedBy.of_begin {p : Product} {s : State} {F : Firing} {code : Nat} (h : p.StartedBy (s.begin F) F code) :
    p.StartedBy s F code where
  opc := h.opc
  cell := h.cell
  slot := h.slot
  inst := h.inst
  kEls := h.kEls
  n := h.n
  granted := h.granted
  started := h.started
  kind := h.kind
  earliest := h.earliest
  curA := by rw [h.curA, State.cursors_begin]
  curB := by rw [h.curB, State.cursors_begin]
  curS := by simpa only [State.cursors_begin] using h.curS

end Sys2Proof.Machine

namespace Sys2Proof
open Machine

/-! A matrix operator fires (R262). -/

/-- Where no operand handle is another's, each product's move is of a handle of its own. -/
theorem productMoves_handles {F : Firing} (hAB : mmHA F.f.imm ≠ mmHB F.f.imm)
    (hS : F.f.ty = .gq4x8 → [mmHA F.f.imm, mmHB F.f.imm, mmHS F.f.imm, mmHS F.f.imm + 1].Nodup) (opc groups : Nat) :
    ((productMoves F opc groups).map CursorMove.handle).Nodup := by
  unfold productMoves
  split
  · exact hS ‹_›
  · exact List.nodup_cons.mpr ⟨fun h => hAB (List.mem_singleton.mp h), List.nodup_singleton _⟩

theorem Fires.fireMatrix {s s1 : State} {opc : Nat} {site : Site} {f : OpFields} {F : Firing} (h : Fires s opc site f F s1)
    (hpre : preMatrix opc s1 F = none) (hworks : F.works = true) :
    s.fireMatrix opc site f = .next ((s1.begin F).startProduct F opc) := by
  refine (Laws.fire_of_fires h hpre).trans ?_
  obtain hk | hk := Firing.kind_of_works hworks <;> simp only [hk]

/-- What a firing that starts a product shows. -/
structure ProductStarted (s s1 t : State) (F : Firing) (opc : Nat) : Prop where
  issued : Issued s t F
  consumed : Consumed s t F
  mem : t.mem = s.mem
  reqs : t.reqs = s.reqs
  cells : ∀ c, (s.cell c).FiredFrom (t.cell c)
  product : ∃ p, t.products = s.products ++ [p] ∧ p.StartedBy s1 F opc
  cursor : ((productMoves F opc (s1.mmGroups F opc)).map CursorMove.handle).Nodup →
    ∀ m ∈ productMoves F opc (s1.mmGroups F opc), m.cells.Nodup → 0 < m.elems → ∀ c ∈ m.cells,
      ((t.cell c).handle m.handle).cur = (((s1.cell c).handle m.handle).cur + m.elems) % ((s1.cell c).handle m.handle).wrap

theorem Fires.productStarted {s s1 : State} {opc : Nat} {site : Site} {f : OpFields} {F : Firing} (h : Fires s opc site f F s1)
    (hopc : opc ≠ 0x85) : ProductStarted s s1 ((s1.begin F).startProduct F opc) F opc := by
  have hshown := h.issueShown hopc
  obtain ⟨p, hp, ht⟩ := (s1.begin F).startProduct_eq F opc
  have hgroups : (s1.begin F).mmGroups F opc = s1.mmGroups F opc := by simp only [State.mmGroups, State.mmgOffsets_begin]
  rw [hgroups] at ht
  rw [ht]
  have hrest := hshown.rest.trans ((State.FramedRest.fresh _).trans (.moveCursors (s1.begin F).fresh.2 (productMoves F opc (s1.mmGroups F opc))))
  have hsame (c : Nat) := State.moveCursors_rel (l := productMoves F opc (s1.mmGroups F opc)) Cell.SameIssue.refl Cell.SameIssue.trans
    (fun _ _ x => x.advance_sameIssue _ _) (s1.begin F).fresh.2 c
  have hfired (c : Nat) := State.moveCursors_rel (l := productMoves F opc (s1.mmGroups F opc)) Cell.FiredFrom.refl Cell.FiredFrom.trans
    (fun _ _ x => (x.advance_readBy _ _).firedFrom) (s1.begin F).fresh.2 c
  exact {
    issued := hshown.issued.of_sameIssue (hsame _)
    consumed := hshown.consumed.of_sameIssue (hsame _)
    mem := hrest.mem
    reqs := hrest.reqs
    cells := fun c => (hshown.cells c).trans (hfired c)
    product := ⟨p, congrArg (· ++ [p]) hshown.rest.products, hp.of_begin⟩
    cursor := by
      intro hl m hm hcs hby c hc
      refine (State.moveCursors_cur hl hm hcs hby hc (s1.begin F).fresh.2).trans ?_
      have hhandle : ((s1.begin F).fresh.2.cell c).handle m.handle = (s1.cell c).handle m.handle := s1.begin_handle F c m.handle
      rw [hhandle] }

end Sys2Proof
end

