-- ==== Sys2Proof/Proofs/MatrixOperators.lean ====
section
/-! Settles O33: what a wave of a product does in a cell and over a patch (R258, R266, R268 to R270), the arithmetic of an element (R102, R103), and
the matrix operators. -/

namespace Sys2Proof.Machine
open Sys2Proof

/-! The zeroing and the step of a cell (R102, R266, R269, R270). -/

/-- A cell is as another but for its accumulators of a bank, of which each is a function of what it was. -/
structure Cell.BankStepped (x z : Cell) (bank : Nat) (f : Nat → Word → Word) : Prop where
  rest : ∃ a0 a1, z = { x with a0 := a0, a1 := a1 }
  other : bank < 2 → ∀ q, z.acc (1 - bank) q = x.acc (1 - bank) q
  acc : ∀ q, z.acc bank q = f q (x.acc bank q)

theorem Cell.zeroBank_cell (c : Cell) (bank : Nat) : c.BankStepped (c.zeroBank bank) bank (fun _ _ => 0) := by
  unfold Cell.zeroBank
  split
  · exact ⟨⟨_, _, rfl⟩, fun hbank q => by rw [show bank = 0 by assumption]; rfl, fun q => by rw [Cell.acc, if_pos ‹_›]; rfl⟩
  · exact ⟨⟨_, _, rfl⟩, fun hbank q => by rw [show bank = 1 by omega]; rfl, fun q => by rw [Cell.acc, if_neg ‹_›]; rfl⟩

section
variable (p : Product) (L : Lanes2) (outs : List (Nat × Nat × Nat)) (e y lo hi : Nat)

/-- What a step makes of element q of a cell: its pass may not cover the element's row (R269). -/
def mmStepped (q : Nat) (acc : Word) : Word :=
  if p.opc = 0xA2 ∧ (p.wb + 4 * y + q / 8 < lo ∨ hi ≤ p.wb + 4 * y + q / 8) then acc
  else (mmElement p L outs e (q / 8) (q % 8) acc).1

/-- The step of one element, beside the flags raised so far. -/
def mmStepOne (a : Cell × Flags) (k : Nat) : Cell × Flags :=
  if p.opc = 0xA2 ∧ (p.wb + 4 * y + k / 8 < lo ∨ hi ≤ p.wb + 4 * y + k / 8) then a
  else (a.1.setAcc (immBank p.f.imm) k (mmElement p L outs e (k / 8) (k % 8) (a.1.acc (immBank p.f.imm) k)).1,
    a.2 ||| (mmElement p L outs e (k / 8) (k % 8) (a.1.acc (immBank p.f.imm) k)).2)

theorem mmStepOne_cell (a : Cell × Flags) (k : Nat) : a.1.BankStepped (mmStepOne p L outs e y lo hi a k).1 (immBank p.f.imm)
    (fun q v => if q = k then mmStepped p L outs e y lo hi k v else v) := by
  unfold mmStepOne mmStepped
  split
  · exact ⟨⟨_, _, rfl⟩, fun _ _ => rfl, fun q => (ite_self _).symm⟩
  · refine ⟨Cell.setAcc_cell _ _ _ _, fun hbank _ => Cell.setAcc_acc_otherBank _ hbank _ _ _, fun q => ?_⟩
    obtain rfl | hne := eq_or_ne q k
    · rw [Cell.setAcc_acc_same, if_pos rfl]
    · rw [Cell.setAcc_acc_other _ _ _ hne, if_neg hne]

/-- The first elements, in order. -/
theorem mmStepOne_foldl (c : Cell) (n : Nat) :
    c.BankStepped ((List.range n).foldl (mmStepOne p L outs e y lo hi) (c, flagNone)).1 (immBank p.f.imm)
      (fun q v => if q < n then mmStepped p L outs e y lo hi q v else v) := by
  induction n with
  | zero => exact ⟨⟨_, _, rfl⟩, fun _ _ => rfl, fun _ => rfl⟩
  | succ n ih =>
    rw [List.range_succ, List.foldl_append, List.foldl_cons, List.foldl_nil]
    generalize (List.range n).foldl (mmStepOne p L outs e y lo hi) (c, flagNone) = a at ih ⊢
    obtain ⟨⟨_, _, ha⟩, hother, hacc⟩ := ih
    obtain ⟨⟨_, _, hz⟩, hother', hacc'⟩ := mmStepOne_cell p L outs e y lo hi a n
    refine ⟨⟨_, _, by rw [hz, ha]⟩, fun hbank q => (hother' hbank q).trans (hother hbank q), fun q => ?_⟩
    rw [hacc', hacc]
    obtain rfl | hne := eq_or_ne q n
    · rw [if_pos rfl, if_neg (Nat.lt_irrefl q), if_pos (Nat.lt_succ_self q)]
    · rw [if_neg hne]
      simp only [show q < n + 1 ↔ q < n by omega]

/-- The step of a cell changes its bank, and may raise flags in the result cycle (R93, R102). -/
theorem Cell.mmStep_cell (c : Cell) (cyc : Nat) : ∃ z more, c.mmStep p L outs e y lo hi cyc = { z with flight := z.flight ++ more } ∧
    c.BankStepped z (immBank p.f.imm) (fun q v => if q < 32 then mmStepped p L outs e y lo hi q v else v) := by
  obtain ⟨more, hmore⟩ := ((List.range 32).foldl (mmStepOne p L outs e y lo hi) (c, flagNone)).1.raiseAt_cell cyc
    ((List.range 32).foldl (mmStepOne p L outs e y lo hi) (c, flagNone)).2
  exact ⟨_, more, hmore, mmStepOne_foldl p L outs e y lo hi c 32⟩

end

/-! A wave in a cell (R266). -/

section
variable (i : Inst) (p : Product) (t c : Nat)

/-- A wave does nothing in a cell that it has not reached, that is done, or that it reaches without `.z`. -/
def WaveIdle : Prop :=
  t < mmSkew p.opc (i.relX c) (i.relY c) ∨ mmSkew p.opc (i.relX c) (i.relY c) + p.total < t ∨
    (t = mmSkew p.opc (i.relX c) (i.relY c) ∧ p.f.mod.getLsbD 3 = false)

/-- The first wave that reaches a cell zeroes its bank under `.z`. -/
def WaveZeroes : Prop := t = mmSkew p.opc (i.relX c) (i.relY c) ∧ p.f.mod.getLsbD 3 = true

/-- A later wave is a step in a cell, of a pass over some rows, with some outliers. -/
structure WaveSteps (step g lo hi : Nat) (outs : List (Nat × Nat × Nat)) : Prop where
  time : t = mmSkew p.opc (i.relX c) (i.relY c) + 1 + step
  lt_total : step < p.total
  pass : p.passes[step / p.n]? = some (g, lo, hi)
  outliers : p.outsAt (i.relX c) step = .apply outs

end

section
variable {s u : State} {i : Inst} {p : Product} {t c : Nat}

theorem State.waveCell_idle (h : WaveIdle i p t c) (s : State) : s.waveCell i p t c = .ok s := by
  unfold State.waveCell
  extract_lets x y k step e
  have hk : k = mmSkew p.opc (i.relX c) (i.relY c) := rfl
  have hstep : step = t - 1 - k := rfl
  obtain hlt | hgt | ⟨heq, hz⟩ := h
  · rw [if_pos (by omega)]
  · rw [if_neg (by omega), if_neg (by omega), if_pos (by omega)]
  · rw [if_neg (by omega), if_pos (by omega), hz, if_neg Bool.false_ne_true]

theorem State.waveCell_zeroes (h : WaveZeroes i p t c) (s : State) :
    s.waveCell i p t c = .ok (s.updCell c (fun x => x.zeroBank (immBank p.f.imm))) := by
  unfold State.waveCell
  extract_lets x y k step e
  have hk : k = mmSkew p.opc (i.relX c) (i.relY c) := rfl
  obtain ⟨heq, hz⟩ := h
  rw [if_neg (by omega), if_pos (by omega), if_pos hz]

theorem State.waveCell_steps {step g lo hi : Nat} {outs : List (Nat × Nat × Nat)} (h : WaveSteps i p t c step g lo hi outs) (s : State) :
    s.waveCell i p t c = .ok (s.updCell c (fun x =>
      x.mmStep p (p.lanes i (i.relX c) (i.relY c) step) outs (step % p.n) (i.relY c) lo hi p.nextAt)) := by
  unfold State.waveCell
  extract_lets x y k st e
  have hk : k = mmSkew p.opc (i.relX c) (i.relY c) := rfl
  obtain ⟨htime, hlt, hpass, houts⟩ := h
  have hst : st = step := by
    have : st = t - 1 - k := rfl
    omega
  rw [if_neg (by omega), if_neg (by omega)]
  simp only [e, hst, if_neg (Nat.not_le.mpr hlt), hpass, x, houts, y]

/-- A wave that meets no fault in a cell does one of these there. -/
theorem State.waveCell_cases (h : s.waveCell i p t c = .ok u) :
    WaveIdle i p t c ∨ WaveZeroes i p t c ∨ ∃ step g lo hi outs, WaveSteps i p t c step g lo hi outs := by
  unfold State.waveCell at h
  extract_lets x y k step e at h
  have hk : k = mmSkew p.opc (i.relX c) (i.relY c) := rfl
  have hstep : step = t - 1 - k := rfl
  by_cases hlt : t < k
  · exact .inl (.inl hlt)
  by_cases heq : t = k
  · cases hz : p.f.mod.getLsbD 3 with
    | true => exact .inr (.inl ⟨heq, hz⟩)
    | false => exact .inl (.inr (.inr ⟨heq, hz⟩))
  by_cases hend : p.total ≤ step
  · exact .inl (.inr (.inl (by omega)))
  have hin : step / p.n < p.passes.length := Nat.div_lt_of_lt_mul (Nat.lt_of_not_le hend)
  have hpass : p.passes[step / p.n]? = some p.passes[step / p.n] := List.getElem?_eq_getElem hin
  rw [if_neg hlt, if_neg heq, if_neg hend, hpass] at h
  dsimp only at h
  split at h
  · cases h
  · cases h
  · rename_i outs houts
    exact .inr (.inr ⟨step, _, _, _, outs, by omega, Nat.lt_of_not_le hend, hpass, houts⟩)

/-- What a wave does in a cell is told by that cell alone, and changes only accumulators of its bank, and flags on their way (R93, R266). -/
structure WaveActs (i : Inst) (p : Product) (t c : Nat) (f : Cell → Cell) : Prop where
  runs : ∀ s : State, ∃ u, s.waveCell i p t c = .ok u ∧ u.cell c = f (s.cell c) ∧ ∀ d, d ≠ c → u.cell d = s.cell d
  g : ∀ x, (f x).g = x.g
  spad : ∀ x, (f x).spad = x.spad
  other : immBank p.f.imm < 2 → ∀ x q, (f x).acc (1 - immBank p.f.imm) q = x.acc (1 - immBank p.f.imm) q

theorem waveActs_of_updCell {f : Cell → Cell} (h : ∀ s : State, s.waveCell i p t c = .ok (s.updCell c f))
    (hf : ∀ x : Cell, ∃ z more F, f x = { z with flight := z.flight ++ more } ∧ x.BankStepped z (immBank p.f.imm) F) : WaveActs i p t c f where
  runs := fun s => ⟨_, h s, State.updCell_cell_same _ _ _, fun d hd => State.updCell_cell_other _ _ _ _ hd⟩
  g := fun x => by
    obtain ⟨z, _, _, hz, ⟨_, _, rfl⟩, -⟩ := hf x
    rw [hz]
  spad := fun x => by
    obtain ⟨z, _, _, hz, ⟨_, _, rfl⟩, -⟩ := hf x
    rw [hz]
  other := fun hbank x q => by
    obtain ⟨z, _, _, hz, -, hother, -⟩ := hf x
    rw [hz]
    exact hother hbank q

theorem State.waveCell_acts (h : s.waveCell i p t c = .ok u) : ∃ f, WaveActs i p t c f := by
  obtain hidle | hzero | ⟨step, g, lo, hi, outs, hsteps⟩ := State.waveCell_cases h
  · exact ⟨id, fun s => ⟨s, State.waveCell_idle hidle s, rfl, fun _ _ => rfl⟩, fun _ => rfl, fun _ => rfl, fun _ _ _ => rfl⟩
  · exact ⟨_, waveActs_of_updCell (State.waveCell_zeroes hzero) fun x =>
      ⟨_, [], _, by rw [List.append_nil], x.zeroBank_cell _⟩⟩
  · refine ⟨_, waveActs_of_updCell (State.waveCell_steps hsteps) fun x => ?_⟩
    obtain ⟨z, more, hstep, hz⟩ := x.mmStep_cell p (p.lanes i (i.relX c) (i.relY c) step) outs (step % p.n) (i.relY c) lo hi p.nextAt
    exact ⟨z, more, _, hstep, hz⟩

theorem WaveActs.of_ok {f : Cell → Cell} (hf : WaveActs i p t c f) (h : s.waveCell i p t c = .ok u) :
    u.cell c = f (s.cell c) ∧ ∀ d, d ≠ c → u.cell d = s.cell d := by
  obtain ⟨v, hv, hcell⟩ := hf.runs s
  cases hv.symm.trans h
  exact hcell

theorem State.waveCell_other (h : s.waveCell i p t c = .ok u) {d : Nat} (hd : d ≠ c) : u.cell d = s.cell d := by
  obtain ⟨f, hf⟩ := State.waveCell_acts h
  exact (hf.of_ok h).2 d hd

/-- A wave does the same in a cell that is the same, whatever the other cells are (R266). -/
theorem State.waveCell_congr (h : s.waveCell i p t c = .ok u) {s' : State} (hc : s'.cell c = s.cell c) :
    ∃ v, s'.waveCell i p t c = .ok v ∧ u.cell c = v.cell c := by
  obtain ⟨f, hf⟩ := State.waveCell_acts h
  obtain ⟨v, hv, hvc, -⟩ := hf.runs s'
  exact ⟨v, hv, by rw [hvc, hc, (hf.of_ok h).1]⟩

/-- Behind a step, each element of the bank is its step of what it was. -/
theorem State.waveCell_steps_acc {step g lo hi : Nat} {outs : List (Nat × Nat × Nat)} (hsteps : WaveSteps i p t c step g lo hi outs)
    (h : s.waveCell i p t c = .ok u) {q : Nat} (hq : q < 32) : (u.cell c).acc (immBank p.f.imm) q =
      mmStepped p (p.lanes i (i.relX c) (i.relY c) step) outs (step % p.n) (i.relY c) lo hi q ((s.cell c).acc (immBank p.f.imm) q) := by
  rw [State.waveCell_steps hsteps] at h
  cases h
  obtain ⟨z, more, hstep, hz⟩ := (s.cell c).mmStep_cell p (p.lanes i (i.relX c) (i.relY c) step) outs (step % p.n) (i.relY c) lo hi p.nextAt
  rw [State.updCell_cell_same, hstep]
  exact (hz.acc q).trans (if_pos hq)

/-- A wave over the cells of a patch does in each what it does there (R266). -/
theorem State.wave_cells {cs : List Nat} (hcs : cs.Nodup) {s u : State} (h : s.wave i p t cs = .ok u) :
    (∀ c ∈ cs, ∃ v, s.waveCell i p t c = .ok v ∧ u.cell c = v.cell c) ∧ ∀ c, c ∉ cs → u.cell c = s.cell c := by
  induction cs generalizing s with
  | nil =>
    cases h
    exact ⟨fun _ hc => (List.not_mem_nil hc).elim, fun _ _ => rfl⟩
  | cons d cs ih =>
    obtain ⟨hd, hcs⟩ := List.nodup_cons.mp hcs
    rw [State.wave] at h
    cases hfirst : s.waveCell i p t d with
    | error e =>
      rw [hfirst] at h
      cases h
    | ok s1 =>
      rw [hfirst] at h
      obtain ⟨hin, hout⟩ := ih hcs h
      refine ⟨List.forall_mem_cons.mpr ⟨⟨s1, hfirst, hout d hd⟩, fun c hc => ?_⟩, fun c hc => ?_⟩
      · obtain ⟨v, hv, hvc⟩ := hin c hc
        obtain ⟨w, hw, hwc⟩ := State.waveCell_congr hv (State.waveCell_other hfirst (ne_of_mem_of_not_mem hc hd)).symm
        exact ⟨w, hw, hvc.trans hwc⟩
      · obtain ⟨hne, hc⟩ := not_or.mp (List.mem_cons.not.mp hc)
        exact (hout c hc).trans (State.waveCell_other hfirst hne)

end

/-! The arithmetic of an element (R102, R103, R270). -/

section
variable (p : Product) (L : Lanes2) (e i j : Nat) (acc : Word)

/-- An element without outliers takes one exact term, rounded once (R102). -/
theorem mmElement_nil : mmElement p L [] e i j acc = accAdd acc (mfuTerm p.f i j L.aw L.bw (L.sa.getD i 0) (L.sb.getD j 0)) := rfl

/-- An outlier of another row adds nothing. -/
theorem mmElement_outlier_other {o : Nat × Nat × Nat} (h : o.2.1 ≠ j) : mmElement p L [o] e i j acc = mmElement p L [] e i j acc := by
  have hnone : [o].filter (fun o => o.2.1 == j) = [] := by simp [h]
  rw [mmElement, hnone]
  rfl

/-- An outlier is added behind the step's term (R270). -/
theorem mmElement_outlier_same {o : Nat × Nat × Nat} (h : o.2.1 = j) : (mmElement p L [o] e i j acc).1 =
    (accAdd (mmElement p L [] e i j acc).1 (mulF (mmAval p.f i (o.1 - mmKpc p.f.ty * e) L.aw (L.sa.getD i 0))
      (fval fmtBf16 o.2.2, snanFlag fmtBf16 o.2.2))).1 := by
  have hone : [o].filter (fun o => o.2.1 == j) = [o] := by simp [h]
  rw [mmElement, hone]
  rfl

end

section
variable (f : OpFields) (i j aw bw sa sb : Nat)

theorem mfuTerm_bf16 (h : f.ty = .bf16x2) : (mfuTerm f i j aw bw sa sb).1 =
    (Ex.mul (fval fmtBf16 (aw / 2 ^ (16 * i) % 65536)) (fval fmtBf16 (bw / 2 ^ (16 * j) % 65536))).1 := by
  rw [mfuTerm, if_pos h]
  rfl

theorem mfuTerm_fp8 (h : f.ty = .e4m3x4 ∨ f.ty = .e5m2x4) : (mfuTerm f i j aw bw sa sb).1 =
    (let one := fun (q : Nat) =>
      (Ex.mul (fval (mmFmtA f) (aw / 2 ^ (8 * (2 * i + q)) % 256)) (fval (mmFmtB f) (bw / 2 ^ (8 * (2 * j + q)) % 256))).1
     (Ex.add .rne (one 0) (one 1)).1) := by
  rw [mfuTerm, if_neg (by obtain h | h := h <;> rw [h] <;> decide), if_neg (by obtain h | h := h <;> rw [h] <;> decide)]
  rfl

theorem mfuTerm_gq4 (h : f.ty = .gq4x8) : (mfuTerm f i j aw bw sa sb).1 =
    (let one := fun (q : Nat) => (Ex.mul (gq4Value (aw / 2 ^ (4 * (4 * i + q)) % 16)) (gq4Value (bw / 2 ^ (4 * (4 * j + q)) % 16))).1
     (Ex.mul (Ex.mul (fval fmtF32 sa) (fval fmtF32 sb)).1
      (Ex.add .rne (Ex.add .rne (Ex.add .rne (one 0) (one 1)).1 (one 2)).1 (one 3)).1).1) := by
  rw [mfuTerm, if_neg (by rw [h]; decide), if_pos h]
  rfl

end

end Sys2Proof.Machine

namespace Sys2Proof
open Machine

/-- A matrix operator runs as the firing of its opcode. -/
theorem matrixOperators_run : ∀ e ∈ ([(.mm, 0xA0), (.mmb, 0xA1), (.mmg, 0xA2), (.mmo, 0xA3)] : List ((Site → OpFields → Instr) × Nat)),
    e.2 ≠ 0x85 ∧ ∀ site f s, exec (e.1 site f) s = s.fireMatrix e.2 site f := by
  simp only [List.forall_mem_cons, List.not_mem_nil, false_imp_iff, implies_true, and_true]
  refine ⟨?_, ?_, ?_, ?_⟩
  all_goals exact ⟨by decide, fun _ _ _ => rfl⟩

section
variable {s s1 t : State} {F : Firing} {opc : Nat} (h : ProductStarted s s1 t F opc) (hcells : F.inst.cells.Nodup)
  (hAB : mmHA F.f.imm ≠ mmHB F.f.imm)
  (hS : F.f.ty = .gq4x8 → [mmHA F.f.imm, mmHB F.f.imm, mmHS F.f.imm, mmHS F.f.imm + 1].Nodup)
include h hcells hAB hS

/-- CUR of the operands' handles moves past what the product reads (R263, R269). -/
theorem ProductStarted.operands_cur (hn : 0 < F.a.toNat / mmKpc F.f.ty) :
    (∀ c ∈ F.inst.aCells opc, ((t.cell c).handle (mmHA F.f.imm)).cur =
      (((s1.cell c).handle (mmHA F.f.imm)).cur + F.a.toNat / mmKpc F.f.ty) % ((s1.cell c).handle (mmHA F.f.imm)).wrap) ∧
    (0 < s1.mmGroups F opc → ∀ c ∈ F.inst.bCells opc, ((t.cell c).handle (mmHB F.f.imm)).cur =
      (((s1.cell c).handle (mmHB F.f.imm)).cur + 2 * s1.mmGroups F opc * (F.a.toNat / mmKpc F.f.ty)) %
        ((s1.cell c).handle (mmHB F.f.imm)).wrap) :=
  have hmoves := h.cursor (productMoves_handles hAB hS _ _)
  ⟨hmoves ⟨_, _, _⟩ (List.mem_append_left _ List.mem_cons_self) (hcells.filter _) hn,
    fun hgroups => hmoves ⟨_, _, _⟩ (List.mem_append_left _ (List.mem_cons_of_mem _ List.mem_cons_self)) (hcells.filter _)
      (Nat.mul_pos (Nat.mul_pos two_pos hgroups) hn)⟩

/-- CUR of the scales' handles moves past the scales of the product's blocks (R264). -/
theorem ProductStarted.scales_cur (hgq : F.f.ty = .gq4x8) (hn : 16 ≤ F.a.toNat / mmKpc F.f.ty) :
    (∀ c ∈ F.inst.aCells opc, ((t.cell c).handle (mmHS F.f.imm)).cur =
      (((s1.cell c).handle (mmHS F.f.imm)).cur + 4 * (F.a.toNat / mmKpc F.f.ty / 16)) % ((s1.cell c).handle (mmHS F.f.imm)).wrap) ∧
    (∀ c ∈ F.inst.bCells opc, ((t.cell c).handle (mmHS F.f.imm + 1)).cur =
      (((s1.cell c).handle (mmHS F.f.imm + 1)).cur + 8 * (F.a.toNat / mmKpc F.f.ty / 16)) %
        ((s1.cell c).handle (mmHS F.f.imm + 1)).wrap) := by
  have hmoves := h.cursor (productMoves_handles hAB hS _ _)
  have hscales {m : CursorMove} (hm : m ∈ [(⟨F.inst.aCells opc, mmHS F.f.imm, 4 * (F.a.toNat / mmKpc F.f.ty / 16)⟩ : CursorMove),
      ⟨F.inst.bCells opc, mmHS F.f.imm + 1, 8 * (F.a.toNat / mmKpc F.f.ty / 16)⟩]) : m ∈ productMoves F opc (s1.mmGroups F opc) := by
    rw [productMoves, if_pos hgq]
    exact List.mem_append_right _ hm
  exact ⟨hmoves ⟨_, _, _⟩ (hscales List.mem_cons_self) (hcells.filter _) (by dsimp only; omega),
    hmoves ⟨_, _, _⟩ (hscales (List.mem_cons_of_mem _ List.mem_cons_self)) (hcells.filter _) (by dsimp only; omega)⟩

end

/-- Settles O33: the product and the cursors at issue, a wave by what it does in a cell, and the arithmetic of an element. -/
theorem matrixOperatorsComplete : Obligations.MatrixOperatorsComplete := by
  refine ⟨?issue, ?waveCell, fun i p t cs s u hcs h => ?wave, fun p L e i j acc => ⟨rfl, fun o => ⟨mmElement_outlier_other p L e i j acc,
    mmElement_outlier_same p L e i j acc⟩, mfuTerm_bf16 _ _ _ _ _ _ _, mfuTerm_fp8 _ _ _ _ _ _ _, mfuTerm_gq4 _ _ _ _ _ _ _⟩,
    fun _ _ _ => rfl⟩
  case issue =>
    intro e he site f s F s1 h hworks hpre
    obtain ⟨hopc, hexec⟩ := matrixOperators_run e he
    obtain rfl := h.fields hopc
    have hstarted := h.productStarted hopc
    refine ⟨_, (hexec site _ s).trans (h.fireMatrix hpre hworks), hstarted.issued, hstarted.consumed, hstarted.mem, hstarted.reqs, fun k => ?_, ?_,
      fun hn hcells hAB hS => ?_⟩
    · obtain ⟨_, _, _, _, _, _, _, _, _, _, _, _, hk, -⟩ := hstarted.cells k
      rw [hk]
      exact ⟨rfl, rfl, rfl, rfl⟩
    · obtain ⟨p, hp, hby⟩ := hstarted.product
      exact ⟨p, hp, hby.opc, hby.cell, hby.slot, hby.inst, hby.kEls, hby.n, hby.granted, hby.started, hby.kind, hby.earliest, hby.curA, hby.curB,
        hby.curS⟩
    · obtain ⟨hA, hB⟩ := hstarted.operands_cur hcells hAB hS hn
      exact ⟨hA, hB, fun hgq hn => hstarted.scales_cur hcells hAB hS hgq hn⟩
  case waveCell =>
    intro s u i p t c h
    obtain ⟨g, hacts⟩ := State.waveCell_acts h
    obtain ⟨hcell, hother⟩ := hacts.of_ok h
    refine ⟨hother, State.waveCell_mem h, by rw [hcell, hacts.g], by rw [hcell, hacts.spad],
      fun hbank q => by rw [hcell, hacts.other hbank], fun hidle => ?_, fun htime hz => ?_,
      fun step g lo hi outs htime hlt hpass houts q hq => State.waveCell_steps_acc ⟨htime, hlt, hpass, houts⟩ h hq⟩
    · cases (State.waveCell_idle hidle s).symm.trans h
      rfl
    · cases (State.waveCell_zeroes ⟨htime, hz⟩ s).symm.trans h
      rw [State.updCell_cell_same]
      exact (Cell.zeroBank_cell _ _).acc
  case wave =>
    obtain ⟨hin, hout⟩ := State.wave_cells hcs h
    exact ⟨hin, hout, State.wave_mem h⟩

end Sys2Proof
end
